-- ==== Sys2Proof/Word.lean ====
section
/-! DEFINITION. The bit widths the manual names (00_scope.md §5.1). -/

namespace Sys2Proof

/-- One byte of a word; byte 0 is the least significant (00_scope.md §5.1). -/
abbrev Byte := BitVec 8

/-- A half is 16 bits (00_scope.md §5.1). -/
abbrev Half := BitVec 16

/-- A word is 32 bits (00_scope.md §5.1). -/
abbrev Word := BitVec 32

/-- The four byte enables of a transfer, bit b for byte b (HBE3–HBE0, MBE3–MBE0). -/
abbrev Enables := BitVec 4

/-- A host word address as its lines HADR20–HADR2 carry it: the byte address divided by 4. -/
abbrev HostAdr := BitVec 19

/-- A physical word address as MADR21–MADR2 carry it: the byte address divided by 4. -/
abbrev MemAdr := BitVec 20

end Sys2Proof
end

