-- ==== Sys2Proof/Syntax.lean ====
section
/-! DEFINITION. The commands of the block: one constructor per row of spec/opcode_table.json. -/

namespace Sys2Proof

/-- The direction of a frame pulse edge (R105, R148). -/
inductive PulseEdge where
  | rising
  | falling
deriving DecidableEq, Repr

/-- The part's commands, in the table's order. A command is one whole event (95_what_each_step_holds.md).
The steps of the steering unit and of the memory port name no operand: they act on the transfer at
the head of the queue, or on the access in progress. -/
inductive Instr where
  | hostWritePresented (adr : BitVec 21) (be : Enables) (data : Word)
  | hostReadPresented (adr : BitVec 21) (be : Enables)
  | passThroughWrite
  | payloadWriteSteered
  | refusedWrite
  | closeRequest
  | start
  | stop
  | unknownRequest
  | acknowledge
  | controlWriteDropped
  | hostReadTaken
  | headWordReadViewMove
  | hostAccessPerformed
  | laneFetchPerformed
  | inboundWritePerformed
  | copyReadPerformed
  | copyWritePerformed
  | loadReadPerformed
  | journalWordPerformed
  | timerExpiry (w : Fin 16)
  | startInstantReached
  | masterScheduledStart (x : Fin 6)
  | outboundActiveEdge (x : Fin 6) (edge : PulseEdge)
  | flywheelStart (x : Fin 6)
  | slotBegin (x : Fin 6)
  | frameEnd (x : Fin 6)
  | inboundActiveEdge (y : Fin 2) (edge : PulseEdge)
  | inboundH0Received (y : Fin 2) (half : Half)
  | inboundH1Received (y : Fin 2) (half : Half)
  | inboundDataSlotReceived (y : Fin 2) (half : Half)
  | inboundCrcSlotReceived (y : Fin 2) (half : Half)
  | resetPin
  | resetRelease (straps : BitVec 2)
  | timeBaseTick
deriving DecidableEq, Repr

end Sys2Proof
end

