-- ==== Sys2Proof/Config.lean ====
section
/-! DEFINITION. What is fixed for the part: the sizes of its address spaces and of its queues, and
what cue memory holds before it is written. The manual leaves no result undefined, so there is no
free value here. -/

namespace Sys2Proof.Config

/-- The host port names 000000h–1FFFFFh (00_scope.md §1.2, R57). -/
def hostSpace : Nat := 0x200000

/-- Cue memory is 000000h–3FFFFFh (00_scope.md §1.2, R73). -/
def memSpace : Nat := 0x400000

/-- Places in the posted-write queue (R49). -/
def queuePlaces : Nat := 4

/-- Words a lane's fetch buffer holds (R113). -/
def fetchPlaces : Nat := 8

/-- Halves an inbound receive buffer holds (R79, R150). -/
def receivePlaces : Nat := 16

/-- Halves at which an inbound write is urgent (R79). -/
def urgentHalves : Nat := 8

/-- Entries the journal queue holds (R183). -/
def journalPlaces : Nat := 8

/-- What a byte of cue memory reads as before anything is written to it.
DESIGN CHOICE, unsafe: the manual gives no power-on contents of the SRAM (log 3). -/
def unlisted : Byte := 0

/-- The profile base selected by PBS1–PBS0, PBS1 the higher bit (R163). -/
def profileBase (straps : BitVec 2) : Nat :=
  if straps = 0 then 0x000000
  else if straps = 1 then 0x080000
  else if straps = 2 then 0x100000
  else 0x180000

end Sys2Proof.Config
end

