-- ==== Sys2Proof/Machine/State.lean ====
section
/-! DEFINITION. The state of the part, as plain data, and its value after reset. -/

namespace Sys2Proof.Machine

/-! ### Active profile (R1, R105, R128, R148, R164, R196, R197) -/

/-- Writer of a window (R7, R193); code 3 is unassigned and fails check 6 (R197). -/
inductive Writer where
  | host
  | i0
  | i1
  | unassigned
deriving DecidableEq, Repr

/-- Commit mode of a window (R1, R34). -/
inductive CommitMode where
  | strict
  | carry
deriving DecidableEq, Repr

/-- Stale policy of a window (R1, R97); code 3 is unassigned (R197). -/
inductive Policy where
  | hold
  | neutral
  | decay
  | unassigned
deriving DecidableEq, Repr

/-- Stale group field of a window (R1, R87); codes 5–7 are unassigned (R197). -/
inductive Group where
  | none
  | member (g : Fin 4)
  | unassigned
deriving DecidableEq, Repr

/-- A window record (R1). Numbers are kept as the image encodes them (R170). -/
structure WindowRec where
  enabled : Bool
  writer : Writer
  mode : CommitMode
  policy : Policy
  group : Group
  sizeCode : Fin 8
  bufferCount : Nat
  decayShift : Nat
  logicalBase : Nat
  payloadLength : Nat
  timeout : Nat
  bufferBase : Nat
  neutralAddress : Nat
deriving DecidableEq, Repr

/-- A record that is not enabled, with every field 0 (R1). -/
def WindowRec.zero : WindowRec :=
  { enabled := false, writer := .host, mode := .strict, policy := .hold, group := .none,
    sizeCode := 0, bufferCount := 0, decayShift := 0, logicalBase := 0, payloadLength := 0,
    timeout := 0, bufferBase := 0, neutralAddress := 0 }

/-- Source of an outbound lane's frame starts (R105). -/
inductive Timing where
  | master
  | follower
deriving DecidableEq, Repr

/-- Clocking of data slots without an entry (R105, R116). -/
inductive ClockMode where
  | full
  | gapped
deriving DecidableEq, Repr

/-- A lane record (R105, R148); `rate` is the bit rate's code, 2^rate Mbit/s (R197). -/
structure LaneRec where
  enabled : Bool
  timing : Timing
  edge : PulseEdge
  clock : ClockMode
  rate : Fin 4
  tolerance : Nat
  slots : Nat
  period : Nat
  filler : Half
  first : Nat
  count : Nat
deriving DecidableEq, Repr

/-- A record that is not enabled, with every other field 0 (R105). -/
def LaneRec.zero : LaneRec :=
  { enabled := false, timing := .master, edge := .rising, clock := .full, rate := 0,
    tolerance := 0, slots := 0, period := 0, filler := 0, first := 0, count := 0 }

/-- Kind of a slot entry (R128, R197); codes 13–15 are unassigned. -/
inductive EntryKind where
  | pass16
  | pass32
  | scaleLeft
  | scaleRightLogical
  | scaleRightFloor
  | scaleRightRound
  | span
  | delta
  | test
  | stamp
  | seq
  | store16
  | store32
  | unassigned
deriving DecidableEq, Repr

/-- An entry record (R128). -/
structure EntryRec where
  kind : EntryKind
  window : Fin 16
  high : Bool
  slot : Nat
  offset : Nat
  param : Nat
  const : Word
deriving DecidableEq, Repr

/-- An entry with 0 in every field (R128). -/
def EntryRec.zero : EntryRec :=
  { kind := .pass16, window := 0, high := false, slot := 0, offset := 0, param := 0, const := 0 }

/-- Journal mode (R196); code 3 is unassigned. -/
inductive JMode where
  | off
  | continuous
  | triggered
  | unassigned
deriving DecidableEq, Repr

/-- What the journal does at capacity (R187, R196). -/
inductive FullPolicy where
  | rollover
  | halt
deriving DecidableEq, Repr

/-- The active header (R164, R196), with the journal settings (R183) and the attention mask (R181). -/
structure Header where
  imageLength : Nat
  windowCount : Nat
  entryCount : Nat
  startDelay : Nat
  ringAddr : Nat
  capacity : Nat
  mode : JMode
  full : FullPolicy
  trigger : Nat
  selected : BitVec 18
  mask : BitVec 17
deriving DecidableEq, Repr

/-- The active header after the reset pin: lengths, counts and delay 0, journal OFF, every kind enabled
(R164, R182). The other journal settings (ring address, capacity, full policy, trigger kind, selected
kinds) have no stated value: they are 0, 0, ROLLOVER, 0 and none (log 26). -/
def Header.afterReset : Header :=
  { imageLength := 0, windowCount := 0, entryCount := 0, startDelay := 0, ringAddr := 0,
    capacity := 0, mode := .off, full := .rollover, trigger := 0, selected := 0,
    mask := BitVec.allOnes 17 }

/-! ### Host port and steering unit (R49–R52, R61, R66) -/

/-- A host write as the posted-write queue holds it (R49). -/
structure HostWrite where
  adr : HostAdr
  be : Enables
  data : Word
deriving DecidableEq, Repr

/-- A transfer held at the host port with HRDY inactive (R49, R51). -/
inductive HostXfer where
  | write (x : HostWrite)
  | read (adr : HostAdr) (be : Enables)
deriving DecidableEq, Repr

/-- A payload word of a buffer: where a steered write marks the written map (R59). -/
structure PayloadRef where
  w : Fin 16
  k : Fin 8
  i : Nat
deriving DecidableEq, Repr

/-- One memory read of a host read: its address, its enables, and the bytes SU keeps of it (R61). -/
structure ReadPart where
  adr : MemAdr
  be : Enables
  keep : Enables
deriving DecidableEq, Repr

/-- The transfer SU is handling (R50, R51, R61). -/
inductive SU where
  | free
  | writing (mark : Option PayloadRef)
  | reading (cur : ReadPart) (rest : List ReadPart) (acc : Word)
deriving DecidableEq, Repr

/-- Why SU refuses a write (R66). -/
inductive RefusalReason where
  | headWord
  | outOfPayload
  | inboundPayload
  | stopping
  | profileImage
  | neutralRecord
  | journalRing
deriving DecidableEq, Repr

/-! ### Window unit, commit engine, staleness monitor (R9–R13, R35, R86) -/

/-- Buffer state (R11). -/
inductive BufState where
  | free
  | filling
  | committing
  | ready
  | retired
deriving DecidableEq, Repr

/-- A holder kind (R13). -/
inductive Holder where
  | lane (x : Fin 6)
  | view
  | copySource
deriving DecidableEq, Repr

/-- A holder set: which of the eight kinds are members (R13). -/
structure HolderSet where
  lanes : Vector Bool 6
  view : Bool
  copySource : Bool
deriving DecidableEq, Repr

/-- The empty holder set. -/
def HolderSet.empty : HolderSet :=
  { lanes := Vector.replicate 6 false, view := false, copySource := false }

/-- A written map: for each payload word with a written byte, its set of bytes (R29). Word numbers
rise strictly and no listed set is empty, so that equal maps are equal lists. -/
abbrev WMap := List (Nat × Enables)

/-- A buffer record (R10). The touched count is derived from the map (R30). -/
structure Buffer where
  st : BufState
  holders : HolderSet
  seq : Half
  time : Word
  map : WMap
deriving DecidableEq, Repr

/-- A FREE buffer after the reset pin (R26). -/
def Buffer.zero : Buffer :=
  { st := .free, holders := HolderSet.empty, seq := 0, time := 0, map := [] }

/-- Outcome of a close request (R12, R32). -/
inductive CloseOutcome where
  | none
  | accepted
  | notRunning
  | notWriter
  | malformed
  | busy
  | seqMismatch
  | countMismatch
  | incomplete
  | noBuffer
deriving DecidableEq, Repr

/-- Phase of a copy-forward job (R35). -/
inductive CopyPhase where
  | seeking
  | reading
  | writing
deriving DecidableEq, Repr

/-- A copy-forward job (R35); `source` is none for the neutral record. -/
structure CopyJob where
  target : Fin 8
  source : Option (Fin 8)
  seq : Half
  time : Word
  index : Nat
  phase : CopyPhase
  copied : Nat
  held : Option Word
deriving DecidableEq, Repr

/-- What WU, CE and SM keep of one window: its pool (R10), its run record (R12), its copy-forward
job (R35) and its staleness record (R86). -/
structure Pool where
  bufs : Vector Buffer 8
  expected : Half
  nextInbound : Half
  lastOutcome : CloseOutcome
  lastSeq : Half
  commits : Half
  job : Option CopyJob
  timer : Option Word
  ownMark : Bool
  committed : Bool
deriving DecidableEq, Repr

/-- The values of the reset pin (R12, R26, R48, R86). -/
def Pool.zero : Pool :=
  { bufs := Vector.replicate 8 Buffer.zero, expected := 1, nextInbound := 1, lastOutcome := .none,
    lastSeq := 0, commits := 0, job := .none, timer := .none, ownMark := false,
    committed := false }

/-- Cue state of a window (R91). -/
inductive CueState where
  | empty
  | live
  | stale
deriving DecidableEq, Repr

/-! ### Outbound lanes (R107, R108, R111–R115, R121, R131) -/

/-- Outbound lane state (R107). -/
inductive OutState where
  | idle
  | waiting
  | sending
  | between
deriving DecidableEq, Repr

/-- Pulse-check record of a FOLLOWER lane (R121). -/
structure PulseCheck where
  last : Option Word
  checked : Bool
  deadline : Option Word
  inRun : Bool
deriving DecidableEq, Repr

/-- The empty pulse-check record (R108). -/
def PulseCheck.zero : PulseCheck :=
  { last := .none, checked := false, deadline := .none, inRun := false }

/-- What a window's entries draw on in a lane frame (R97); a buffer comes with WU's answer (R15). -/
inductive Draw where
  | buffer (k : Fin 8) (seq : Half) (time : Word)
  | neutral
  | decay
deriving DecidableEq, Repr

/-- The decision for one carried window at a frame start, with its stale indicator (R97). -/
structure Carried where
  window : Fin 16
  draw : Draw
  stale : Bool
deriving DecidableEq, Repr

/-- A word of a fetch plan and the entry it belongs to (R112). -/
structure PlanWord where
  entry : Nat
  adr : MemAdr
deriving DecidableEq, Repr

/-- Header flags of a lane frame (R111, R114). -/
structure FrameFlags where
  flywheel : Bool
  prevCut : Bool
  prevUnder : Bool
deriving DecidableEq, Repr

/-- Clear header flags. -/
def FrameFlags.zero : FrameFlags := { flywheel := false, prevCut := false, prevUnder := false }

/-- An outbound lane: its state and run record (R107, R108), its counts (R124), and its frame in
progress: positions begun, flags, draws in ordinal order, fetch plan, the word requested, fetch
buffer, CRC, the half on the line and the second half still to send (R111–R117). -/
structure OutLane where
  st : OutState
  frameNo : Half
  frameTime : Word
  nextStart : Option Word
  cutMark : Bool
  underMark : Bool
  pulse : PulseCheck
  underruns : BitVec 8
  earlies : BitVec 8
  flywheels : BitVec 8
  drifts : BitVec 8
  saturations : BitVec 8
  begun : Nat
  flags : FrameFlags
  draws : List Carried
  plan : List PlanWord
  asked : Option PlanWord
  fetch : List (Nat × Word)
  crc : Half
  line : Option Half
  tail : Option Half
deriving DecidableEq, Repr

/-- The values of the reset pin (R108, R126). -/
def OutLane.zero : OutLane :=
  { st := .idle, frameNo := 0, frameTime := 0, nextStart := .none, cutMark := false,
    underMark := false, pulse := PulseCheck.zero, underruns := 0, earlies := 0, flywheels := 0,
    drifts := 0, saturations := 0, begun := 0, flags := FrameFlags.zero, draws := [], plan := [],
    asked := .none, fetch := [], crc := 0, line := .none, tail := .none }

/-- Entry state (R131). -/
structure EntryState where
  primed : Bool
  lastSource : Half
  lastOutput : Word
  sent : Bool
deriving DecidableEq, Repr

/-- The cleared entry state (R131). -/
def EntryState.zero : EntryState :=
  { primed := false, lastSource := 0, lastOutput := 0, sent := false }

/-! ### Inbound lanes (R149, R150, R153, R155) -/

/-- Inbound lane state (R149). -/
inductive InState where
  | idle
  | listening
  | receiving
  | discarding
deriving DecidableEq, Repr

/-- Outcome of a board frame in hand (R153): `opened` is the manual's OPEN. -/
inductive FrameOutcome where
  | opened
  | good
  | discard
deriving DecidableEq, Repr

/-- A received half waiting to be written: its payload word and half (R155). -/
structure RxHalf where
  word : Nat
  high : Bool
  data : Half
deriving DecidableEq, Repr

/-- A board frame in hand (R153), with its halves that are in the receive buffer. -/
structure InFrame where
  time : Word
  number : Option Half
  buffer : Option (Fin 8)
  outcome : FrameOutcome
  halves : List RxHalf
deriving DecidableEq, Repr

/-- An inbound lane (R149, R150, R160). The receive buffer is the halves of the frames in hand, in
order; `slot` is the position being assembled. -/
structure InLane where
  st : InState
  frames : List InFrame
  crc : Half
  slot : Option Nat
  lastNo : Half
  seen : Bool
  crcErrors : BitVec 8
  cuts : BitVec 8
  gaps : BitVec 8
  noBuffers : BitVec 8
deriving DecidableEq, Repr

/-- The values of the reset pin (R150). -/
def InLane.zero : InLane :=
  { st := .idle, frames := [], crc := 0, slot := .none, lastNo := 0, seen := false, crcErrors := 0,
    cuts := 0, gaps := 0, noBuffers := 0 }

/-! ### Memory arbiter (R73–R75, R77) -/

/-- A requester of the memory port (R74). -/
inductive Requester where
  | host
  | outLane (x : Fin 6)
  | inLane (y : Fin 2)
  | copyJob (w : Fin 16)
  | load
  | journal
deriving DecidableEq, Repr

/-- A request (R75). -/
structure Request where
  who : Requester
  write : Bool
  adr : MemAdr
  be : Enables
  data : Word
  urgent : Bool
deriving DecidableEq, Repr

/-- A granted access in progress; `withdrawn` when its requester will discard the result (R75). -/
structure Access where
  req : Request
  withdrawn : Bool
deriving DecidableEq, Repr

/-! ### Run control (R164, R167) -/

/-- Device state (R164). -/
inductive DevState where
  | setup
  | loading
  | run
  | stopping
deriving DecidableEq, Repr

/-- Last request outcome (R164). -/
inductive ReqOutcome where
  | none
  | done
  | refused
  | unknown
deriving DecidableEq, Repr

/-- Phase of a load job (R167, R168). -/
inductive LoadPhase where
  | header
  | body
deriving DecidableEq, Repr

/-- A load job (R167); the shadow copy is in image order. -/
structure LoadJob where
  phase : LoadPhase
  index : Nat
  length : Option Nat
  crc : Half
  shadow : List Word
deriving DecidableEq, Repr

/-- The load error (R164): check 0 is none. -/
structure LoadError where
  check : Nat
  index : Nat
deriving DecidableEq, Repr

/-! ### Event unit and journal writer (R179, R183, R193) -/

/-- The eighteen journal kinds (chapter 10); all but `commit` are event kinds. -/
inductive Kind where
  | closeRefused
  | writeRefused
  | timedOut
  | resumed
  | underrun
  | pulseDrift
  | flywheel
  | pulseEarly
  | inboundCrc
  | inboundCut
  | inboundGap
  | inboundNoBuffer
  | loadFailed
  | runStarted
  | stopped
  | journalFull
  | journalLost
  | commit
deriving DecidableEq, Repr

/-- A queued journal entry (R183). -/
structure JEntry where
  kind : Kind
  source : Option Nat
  time : Word
  detail1 : Word
  detail2 : Word
deriving DecidableEq, Repr

/-- Journal state (R184). -/
inductive JState where
  | off
  | awaiting
  | recording
  | halted
  | draining
  | ended
deriving DecidableEq, Repr

/-- The journal record (R183). -/
structure Journal where
  st : JState
  queue : List JEntry
  wordCount : Nat
  writeIndex : Nat
  wrap : Half
  lost : Half
deriving DecidableEq, Repr

/-- The values of the reset pin (R183). -/
def Journal.zero : Journal :=
  { st := .off, queue := [], wordCount := 0, writeIndex := 0, wrap := 0, lost := 0 }

/-! ### The whole machine -/

/-- Cue memory: (address, byte) cells, addresses strictly rising, no cell equal to what an unlisted
address reads as (`Memory.wf`). -/
abbrev Memory := List Host.Cell

/-- The state of the part, with the cue memory behind its port and the commands that wait. -/
structure State where
  pending : List Instr
  rst : Bool
  straps : BitVec 2
  timeBase : Word
  dev : DevState
  outcome : ReqOutcome
  load : Option LoadJob
  loadErr : LoadError
  header : Header
  startInstant : Word
  startReached : Bool
  sending : Vector Bool 6
  stopLanes : Nat
  windows : Vector WindowRec 16
  lanes : Vector LaneRec 8
  entries : Vector EntryRec 256
  pools : Vector Pool 16
  groups : Vector (Vector Bool 16) 4
  outs : Vector OutLane 6
  entryState : Vector EntryState 256
  ins : Vector InLane 2
  queue : List HostWrite
  waiting : Option HostXfer
  su : SU
  readData : Word
  requests : List Request
  port : Option Access
  copyPtr : Fin 16
  flags : BitVec 17
  journal : Journal
  mem : Memory
deriving DecidableEq, Repr

/-- Why a step stops with a fault. -/
inductive Fault where
  /-- Raised by PAYLOAD_WRITE_STEERED when the window has no FILLING buffer. R32 states that a host
  window in RUN always has one, so no run reaches it. Safe (log 14). -/
  | noFillingBuffer
deriving DecidableEq, Repr

/-- Why a step refuses a command. -/
inductive Refusal where
  /-- Raised by an arm of exec that has no meaning yet. Safe. No arm raises it. -/
  | notModelled (mnemonic : String)
deriving DecidableEq, Repr

/-- The machine right after the first release of RST#, straps low (R163, R164, R177; log 4). -/
def State.reset : State :=
  { pending := [], rst := false, straps := 0, timeBase := 0, dev := .setup, outcome := .none,
    load := .none, loadErr := { check := 0, index := 0 }, header := Header.afterReset,
    startInstant := 0, startReached := false, sending := Vector.replicate 6 false, stopLanes := 0,
    windows := Vector.replicate 16 WindowRec.zero, lanes := Vector.replicate 8 LaneRec.zero,
    entries := Vector.replicate 256 EntryRec.zero, pools := Vector.replicate 16 Pool.zero,
    groups := Vector.replicate 4 (Vector.replicate 16 false),
    outs := Vector.replicate 6 OutLane.zero,
    entryState := Vector.replicate 256 EntryState.zero, ins := Vector.replicate 2 InLane.zero,
    queue := [], waiting := .none, su := .free, readData := 0, requests := [], port := .none,
    copyPtr := 0, flags := 0, journal := Journal.zero, mem := [] }

end Sys2Proof.Machine
end

