-- ==== Sys2Proof/Machine/Formats.lean ====
section
/-! DEFINITION. The codes of R193, the assembly of answered words, saturating counts, and the CRC-16
of R199. -/

namespace Sys2Proof.Machine

/-- An unsigned number placed in a word with its least significant bit at bit `lo` (chapter 11). -/
def field (v lo : Nat) : Word := BitVec.ofNat 32 v <<< lo

/-- A yes/no item as a number. -/
def bit (b : Bool) : Nat := if b then 1 else 0

/-- A number as a detail of an event (R200). -/
def num (n : Nat) : Word := BitVec.ofNat 32 n

/-- A count that rises by 1 and stays at 255 (R124, R160). -/
def sat8 (c : BitVec 8) : BitVec 8 := if c = 255 then c else c + 1

/-- A 16-bit count that rises by `n` and stays at 65535 (R183). -/
def sat16 (c : Half) (n : Nat) : Half :=
  if c.toNat + n ≤ 65535 then BitVec.ofNat 16 (c.toNat + n) else 65535

/-- Device state codes (R193). -/
def DevState.code : DevState → Nat
  | .setup => 0
  | .loading => 1
  | .run => 2
  | .stopping => 3

/-- Request outcome codes (R193). -/
def ReqOutcome.code : ReqOutcome → Nat
  | .none => 0
  | .done => 1
  | .refused => 2
  | .unknown => 3

/-- Cue state codes (R193). -/
def CueState.code : CueState → Nat
  | .empty => 0
  | .live => 1
  | .stale => 2

/-- Close outcome codes (R193). -/
def CloseOutcome.code : CloseOutcome → Nat
  | .none => 0
  | .accepted => 1
  | .notRunning => 2
  | .notWriter => 3
  | .malformed => 4
  | .busy => 5
  | .seqMismatch => 6
  | .countMismatch => 7
  | .incomplete => 8
  | .noBuffer => 9

/-- Writer codes (R193). -/
def Writer.code : Writer → Nat
  | .host => 0
  | .i0 => 1
  | .i1 => 2
  | .unassigned => 3

/-- Outbound lane state codes (R193). -/
def OutState.code : OutState → Nat
  | .idle => 0
  | .waiting => 1
  | .sending => 2
  | .between => 3

/-- Inbound lane state codes (R193). -/
def InState.code : InState → Nat
  | .idle => 0
  | .listening => 1
  | .receiving => 2
  | .discarding => 3

/-- Journal state codes (R193). -/
def JState.code : JState → Nat
  | .off => 0
  | .awaiting => 1
  | .recording => 2
  | .halted => 3
  | .draining => 4
  | .ended => 5

/-- Journal kind codes, and flag positions for 0–16 (R193). -/
def Kind.code : Kind → Nat
  | .closeRefused => 0
  | .writeRefused => 1
  | .timedOut => 2
  | .resumed => 3
  | .underrun => 4
  | .pulseDrift => 5
  | .flywheel => 6
  | .pulseEarly => 7
  | .inboundCrc => 8
  | .inboundCut => 9
  | .inboundGap => 10
  | .inboundNoBuffer => 11
  | .loadFailed => 12
  | .runStarted => 13
  | .stopped => 14
  | .journalFull => 15
  | .journalLost => 16
  | .commit => 17

/-- Refusal reason codes (R193). -/
def RefusalReason.code : RefusalReason → Nat
  | .headWord => 0
  | .outOfPayload => 1
  | .inboundPayload => 2
  | .stopping => 3
  | .profileImage => 4
  | .neutralRecord => 5
  | .journalRing => 6

/-- Reasons of INBOUND_CUT (R193). -/
inductive CutReason where
  | malformed
  | overrun
  | truncated
deriving DecidableEq, Repr

/-- Cut reason codes (R193). -/
def CutReason.code : CutReason → Nat
  | .malformed => 0
  | .overrun => 1
  | .truncated => 2

/-- One bit fed to the CRC register (R199). -/
def crcBit (r : Half) (b : Bool) : Half :=
  if (b ^^ r.msb) then (r <<< 1) ^^^ 0x1021 else r <<< 1

/-- A half fed to the CRC register, from its bit 15 down to its bit 0 (R199). -/
def crcHalf (r : Half) (h : Half) : Half :=
  [15, 14, 13, 12, 11, 10, 9, 8, 7, 6, 5, 4, 3, 2, 1, 0].foldl
    (fun r j => crcBit r (h.getLsbD j)) r

/-- The CRC register's initial value (R199). -/
def crcInit : Half := 0xFFFF

/-- The high half of a word, bytes 2 and 3. -/
def hiHalf (w : Word) : Half := w.extractLsb' 16 16

/-- The low half of a word, bytes 0 and 1. -/
def loHalf (w : Word) : Half := w.extractLsb' 0 16

/-- A profile word fed to the CRC register, high half first (R168, R199). -/
def crcWord (r : Half) (w : Word) : Half := crcHalf (crcHalf r (hiHalf w)) (loHalf w)

end Sys2Proof.Machine
end

