-- ==== Sys2Proof/Machine/Ops.lean ====
section
/-! DEFINITION. The named operations over cue memory, written maps, holder sets, pools, the tables
and the memory arbiter. -/

namespace Sys2Proof.Machine

/-- The outcome of a command. -/
abbrev Out := Host.Outcome State Fault Refusal

/-! ### Cue memory (00_scope.md §5.1, R73) -/

/-- The byte at a byte address. -/
def Memory.readByte : Memory → Nat → Byte
  | [], _ => Config.unlisted
  | (k, b) :: m, a => if a = k then b else Memory.readByte m a

/-- Store one byte, keeping the canonical form. -/
def Memory.writeByte : Memory → Nat → Byte → Memory
  | [], a, b => if b = Config.unlisted then [] else [(a, b)]
  | (k, c) :: m, a, b =>
    if a < k then (if b = Config.unlisted then (k, c) :: m else (a, b) :: (k, c) :: m)
    else if a = k then (if b = Config.unlisted then m else (a, b) :: m)
    else (k, c) :: Memory.writeByte m a b

/-- The canonical form: addresses strictly rising and inside cue memory, and no cell equal to what an
unlisted address reads as. -/
abbrev Memory.wf (m : Memory) : Prop :=
  m.Pairwise (fun c d => c.1 < d.1) ∧ ∀ c ∈ m, c.1 < Config.memSpace ∧ c.2 ≠ Config.unlisted

/-- The byte address of byte 0 of a physical word. -/
def MemAdr.byte (a : MemAdr) : Nat := 4 * a.toNat

/-- The physical word address of a byte address, as the 20 lines MADR21–MADR2 carry it. -/
def memAdr (n : Nat) : MemAdr := BitVec.ofNat 20 (n / 4)

/-- A word of cue memory; byte 0 is the least significant (R193). -/
def Memory.readWord (m : Memory) (a : MemAdr) : Word :=
  m.readByte (MemAdr.byte a + 3) ++ m.readByte (MemAdr.byte a + 2) ++
    m.readByte (MemAdr.byte a + 1) ++ m.readByte (MemAdr.byte a)

/-- Byte `j` of a word. -/
def byteOf (w : Word) (j : Nat) : Byte := w.extractLsb' (8 * j) 8

/-- Store byte `j` of the data if its enable is set. -/
def Memory.putByte (m : Memory) (a : MemAdr) (be : Enables) (data : Word) (j : Nat) : Memory :=
  if be.getLsbD j then m.writeByte (MemAdr.byte a + j) (byteOf data j) else m

/-- A word write stores exactly the enabled bytes (R73). -/
def Memory.writeWord (m : Memory) (a : MemAdr) (be : Enables) (data : Word) : Memory :=
  (((m.putByte a be data 0).putByte a be data 1).putByte a be data 2).putByte a be data 3

/-- Bytes of `new` where `keep` has them, bytes of `old` elsewhere (R61). -/
def mergeBytes (old new : Word) (keep : Enables) : Word :=
  (if keep.getLsbD 3 then byteOf new 3 else byteOf old 3) ++
    (if keep.getLsbD 2 then byteOf new 2 else byteOf old 2) ++
    (if keep.getLsbD 1 then byteOf new 1 else byteOf old 1) ++
    (if keep.getLsbD 0 then byteOf new 0 else byteOf old 0)

/-! ### Written maps (R29, R30) -/

/-- The written bytes of payload word `i`. -/
def WMap.get : WMap → Nat → Enables
  | [], _ => 0
  | (k, e) :: m, i => if i = k then e else WMap.get m i

/-- Add bytes to the set of payload word `i`. -/
def WMap.add : WMap → Nat → Enables → WMap
  | [], i, e => if e = 0 then [] else [(i, e)]
  | (k, d) :: m, i, e =>
    if i < k then (if e = 0 then (k, d) :: m else (i, e) :: (k, d) :: m)
    else if i = k then (k, d ||| e) :: m
    else (k, d) :: WMap.add m i e

/-- The touched count: words with at least one written byte (R30). -/
def WMap.touched (m : WMap) : Nat := (m.filter (fun p => p.2 ≠ 0)).length

/-- Every payload word is fully written (R30). -/
def WMap.full (m : WMap) (len : Nat) : Bool := (List.range len).all fun i => m.get i == 0xF

/-- The first payload word at or above `i` that is not fully written (R36). -/
def WMap.gap (m : WMap) (len i : Nat) : Option Nat :=
  (List.range len).find? fun j => i ≤ j && m.get j != 0xF

/-! ### Holder sets (R13) -/

/-- Is the kind a member? -/
def HolderSet.has (h : HolderSet) : Holder → Bool
  | .lane x => h.lanes[x]
  | .view => h.view
  | .copySource => h.copySource

/-- The set with the kind's membership as given. -/
def HolderSet.put (h : HolderSet) (k : Holder) (b : Bool) : HolderSet :=
  match k with
  | .lane x => { h with lanes := h.lanes.set x b }
  | .view => { h with view := b }
  | .copySource => { h with copySource := b }

/-- Buffer numbers, in order. -/
def allBufs : List (Fin 8) := [0, 1, 2, 3, 4, 5, 6, 7]

/-- Window numbers, in order. -/
def allWindows : List (Fin 16) := [0, 1, 2, 3, 4, 5, 6, 7, 8, 9, 10, 11, 12, 13, 14, 15]

/-- Outbound lane numbers, in order. -/
def allOuts : List (Fin 6) := [0, 1, 2, 3, 4, 5]

/-- Inbound lane numbers, in order. -/
def allIns : List (Fin 2) := [0, 1]

/-! ### Buffers and pools (R10, R16, R20–R22) -/

/-- Place a holder (R15, R17, R19). -/
def Buffer.hold (h : Holder) (b : Buffer) : Buffer := { b with holders := b.holders.put h true }

/-- Release a holder: a RETIRED buffer left with none becomes FREE (R16). -/
def Buffer.release (h : Holder) (b : Buffer) : Buffer :=
  if b.holders.has h then
    let hs := b.holders.put h false
    { b with
      holders := hs
      st := if b.st = .retired ∧ hs = HolderSet.empty then .free else b.st }
  else b

/-- Supersede a READY buffer (R21 step 3). -/
def Buffer.supersede (b : Buffer) : Buffer :=
  { b with st := if b.holders = HolderSet.empty then .free else .retired }

/-- Make a buffer FILLING with an empty map (R20). -/
def Buffer.allocate (b : Buffer) : Buffer :=
  { b with st := .filling, holders := HolderSet.empty, seq := 0, time := 0, map := [] }

/-- Free a FILLING or COMMITTING buffer without a commit (R22, R25). It has no holders in these states
(R10, R14), and none as FREE. -/
def Buffer.discard (b : Buffer) : Buffer := { b with st := .free, holders := HolderSet.empty, map := [] }

/-- Add written bytes to a buffer's map (R29). -/
def Buffer.mark (i : Nat) (e : Enables) (b : Buffer) : Buffer := { b with map := b.map.add i e }

/-- Change one buffer of a pool. -/
def Pool.modBuf (p : Pool) (k : Fin 8) (f : Buffer → Buffer) : Pool :=
  { p with bufs := p.bufs.set k (f p.bufs[k]) }

/-- Change every buffer of a pool. -/
def Pool.mapBufs (p : Pool) (f : Buffer → Buffer) : Pool :=
  { p with bufs := Vector.ofFn fun k : Fin 8 => f p.bufs[k] }

/-- The lowest-numbered buffer in a state. -/
def Pool.find (p : Pool) (st : BufState) : Option (Fin 8) := allBufs.find? fun k => p.bufs[k].st == st

/-- The buffer that holds a holder kind (R13). -/
def Pool.holding (p : Pool) (h : Holder) : Option (Fin 8) :=
  allBufs.find? fun k => p.bufs[k].holders.has h

/-- Release a holder kind from every buffer that has it (R16). -/
def Pool.release (p : Pool) (h : Holder) : Pool := p.mapBufs (Buffer.release h)

/-- Move the host view to the READY buffer, if there is one (R17). -/
def Pool.moveView (p : Pool) : Pool :=
  match (p.release .view).find .ready with
  | some k => (p.release .view).modBuf k (Buffer.hold .view)
  | none => p.release .view

/-- A commit on the pool and the run record (R21, R40 steps 1 and 2): buffer `k` becomes READY, a copy
source is released, and the buffer that was READY is superseded. -/
def Pool.commit (p : Pool) (k : Fin 8) (seq : Half) (time : Word) (source : Option (Fin 8)) : Pool :=
  let p1 := p.modBuf k fun b =>
    { b with st := .ready, holders := HolderSet.empty, seq := seq, time := time, map := [] }
  let p2 := match source with
    | some j => p1.modBuf j (Buffer.release .copySource)
    | none => p1
  let p3 := match p.find .ready with
    | some j => if j = k then p2 else p2.modBuf j Buffer.supersede
    | none => p2
  { p3 with lastSeq := seq, commits := p3.commits + 1 }

/-- The STOP teardown of one pool (R25 first part, R41): FILLING and COMMITTING buffers become FREE,
the copy-source holder leaves its buffer, and the job is gone. -/
def Pool.stop (p : Pool) : Pool :=
  { (p.mapBufs fun b =>
      if b.st = .filling ∨ b.st = .committing then b.discard else b.release .copySource) with
    job := none }

/-- The SETUP entry teardown of one pool (R25 second part). -/
def Pool.teardown (p : Pool) : Pool :=
  p.mapBufs fun b =>
    if b.st = .ready ∨ b.st = .retired then { b with st := .free, holders := HolderSet.empty } else b

/-! ### Access to the parts of State -/

/-- The window record of W`w`. -/
def State.win (s : State) (w : Fin 16) : WindowRec := s.windows[w]

/-- The pool, run record, job and staleness record of W`w`. -/
def State.pool (s : State) (w : Fin 16) : Pool := s.pools[w]

/-- Change what WU, CE and SM keep of one window. -/
def State.modPool (s : State) (w : Fin 16) (f : Pool → Pool) : State :=
  { s with pools := s.pools.set w (f s.pools[w]) }

/-- Change what WU, CE and SM keep of every window. -/
def State.mapPools (s : State) (f : Fin 16 → Pool → Pool) : State :=
  { s with pools := Vector.ofFn fun w : Fin 16 => f w s.pools[w] }

/-- The lane record of O`x` (R105). -/
def State.outRec (s : State) (x : Fin 6) : LaneRec := s.lanes[(⟨x.val, by omega⟩ : Fin 8)]

/-- The lane record of I`y` (R148). -/
def State.inRec (s : State) (y : Fin 2) : LaneRec := s.lanes[(⟨6 + y.val, by omega⟩ : Fin 8)]

/-- The outbound lane O`x`. -/
def State.out (s : State) (x : Fin 6) : OutLane := s.outs[x]

/-- Change one outbound lane. -/
def State.modOut (s : State) (x : Fin 6) (f : OutLane → OutLane) : State :=
  { s with outs := s.outs.set x (f s.outs[x]) }

/-- The inbound lane I`y`. -/
def State.inl (s : State) (y : Fin 2) : InLane := s.ins[y]

/-- Change one inbound lane. -/
def State.modIn (s : State) (y : Fin 2) (f : InLane → InLane) : State :=
  { s with ins := s.ins.set y (f s.ins[y]) }

/-- Entry `i` of the table; a number outside the table reads as 0 in every field (R128). -/
def State.entry (s : State) (i : Nat) : EntryRec :=
  if h : i < 256 then s.entries[i] else EntryRec.zero

/-- The state of entry `i` (R131). -/
def State.entrySt (s : State) (i : Nat) : EntryState :=
  if h : i < 256 then s.entryState[i] else EntryState.zero

/-- Set the state of entry `i` (R132). -/
def State.setEntrySt (s : State) (i : Nat) (e : EntryState) : State :=
  if h : i < 256 then { s with entryState := s.entryState.set i e } else s

/-- Change the journal record. -/
def State.modJournal (s : State) (f : Journal → Journal) : State := { s with journal := f s.journal }

/-! ### Windows (R1, R4, R6, R28) -/

/-- Size of a window in bytes: 64 × 2^code (R197). -/
def WindowRec.size (r : WindowRec) : Nat := 64 * 2 ^ r.sizeCode.val

/-- The inbound lane that writes the window, if any (R7). -/
def WindowRec.inLane (r : WindowRec) : Option (Fin 2) :=
  match r.writer with
  | .i0 => some 0
  | .i1 => some 1
  | .host => none
  | .unassigned => none

/-- The window is enabled and the host writes it (R7). -/
def WindowRec.isHost (r : WindowRec) : Bool := r.enabled && r.writer == .host

/-- Physical address of payload word `i` in buffer Bk: buffer base + k × size + 8 + 4i (R6). -/
def WindowRec.payloadAdr (r : WindowRec) (k : Fin 8) (i : Nat) : MemAdr :=
  memAdr (r.bufferBase + k.val * r.size + 8 + 4 * i)

/-- Address of neutral word `i`: neutral address + 4i (R96). -/
def WindowRec.neutralAdr (r : WindowRec) (i : Nat) : MemAdr := memAdr (r.neutralAddress + 4 * i)

/-- The lowest-numbered FREE buffer of the window's pool (R20). -/
def State.freeBuffer (s : State) (w : Fin 16) : Option (Fin 8) :=
  allBufs.find? fun k => decide (k.val < (s.win w).bufferCount) && (s.pool w).bufs[k].st == .free

/-- Number of FREE buffers of an active pool (R28). -/
def State.freeCount (s : State) (w : Fin 16) : Nat :=
  if (s.dev = .run ∨ s.dev = .stopping) ∧ (s.win w).enabled then
    (allBufs.filter fun k => decide (k.val < (s.win w).bufferCount) && (s.pool w).bufs[k].st == .free).length
  else 0

/-- Number of RETIRED buffers (R153). -/
def Pool.retiredCount (p : Pool) : Nat := (allBufs.filter fun k => p.bufs[k].st == .retired).length

/-- Does the window have a COMMITTING buffer (R28, R44)? -/
def Pool.isCommitting (p : Pool) : Bool := (p.find .committing).isSome

/-- Touched count of the FILLING buffer; 0 when there is none (R44). -/
def Pool.fillingTouched (p : Pool) : Nat :=
  match p.find .filling with
  | some k => (p.bufs[k].map).touched
  | none => 0

/-! ### The memory arbiter (R73–R79) -/

/-- Halves in an inbound lane's receive buffer, in order (R150, R155). -/
def InLane.halves (l : InLane) : List RxHalf := l.frames.flatMap InFrame.halves

/-- The order of a request (R76), with the urgency of an inbound write read at the grant (R79). -/
def State.orderOf (s : State) (r : Request) : Nat :=
  match r.who with
  | .outLane _ => if r.urgent then 1 else 5
  | .inLane y => if Config.urgentHalves ≤ (s.inl y).halves.length then 2 else 4
  | .host => 3
  | .copyJob _ => 6
  | .load => 7
  | .journal => 8

/-- The place of a request among those of its order (R77): lane number, or distance from the copy
pointer. -/
def State.placeOf (s : State) (r : Request) : Nat :=
  match r.who with
  | .outLane x => x.val
  | .inLane y => y.val
  | .copyJob w => (w.val + 16 - s.copyPtr.val) % 16
  | .host => 0
  | .load => 0
  | .journal => 0

/-- Smaller is granted first (R76, R77). -/
def State.rank (s : State) (r : Request) : Nat := 16 * s.orderOf r + s.placeOf r

/-- The request MA grants from a list (R76, R77). -/
def State.choose (s : State) : List Request → Option Request
  | [] => none
  | r :: rs =>
    match s.choose rs with
    | none => some r
    | some q => if s.rank r ≤ s.rank q then some r else some q

/-- A grant: the request leaves the list, its access starts, and an order-6 grant moves the copy
pointer (R73, R75, R77). -/
def State.grant (s : State) (r : Request) : State :=
  { s with
    requests := s.requests.erase r
    port := some { req := r, withdrawn := false }
    copyPtr := match r.who with
      | .copyJob w => w + 1
      | _ => s.copyPtr }

/-- A request joins the tail of the list (R75). -/
def State.join (s : State) (r : Request) : State := { s with requests := s.requests ++ [r] }

/-- At the end of an event that is no performance: if the port is FREE, the first request to have
joined is granted on its arrival (R73, R84; log 9). -/
def State.arrivals (s : State) : State :=
  match s.port, s.requests.head? with
  | none, some r => s.grant r
  | _, _ => s

/-- At the end of a performance: the port is FREE and MA grants from the list as it stands (R73, R76). -/
def State.regrant (s : State) : State :=
  match s.port, s.choose s.requests with
  | none, some r => s.grant r
  | _, _ => s

/-- Has the requester a request on the list (R74)? -/
def State.listed (s : State) (q : Requester) : Bool := s.requests.any fun r => r.who == q

/-- Is an access of the requester in progress at the port (R75)? -/
def State.inProgress (s : State) (q : Requester) : Bool :=
  match s.port with
  | some a => a.req.who == q
  | none => false

/-- Withdraw a request that is not granted (R75). -/
def State.unlist (s : State) (q : Requester) : State :=
  { s with requests := s.requests.filter fun r => r.who != q }

/-- Withdraw the work of the requesters named: their ungranted requests leave the list, and the result of
an access of theirs in progress will be discarded (R75). -/
def State.withdrawBy (s : State) (named : Requester → Bool) : State :=
  { s with
    requests := s.requests.filter fun r => !named r.who
    port := match s.port with
      | some a => if named a.req.who then some { a with withdrawn := true } else some a
      | none => none }

/-- Withdraw one requester's work (R75). -/
def State.withdraw (s : State) (q : Requester) : State := s.withdrawBy fun r => r == q

/-- The effect of an access on cue memory (R73). -/
def Memory.perform (m : Memory) (r : Request) : Memory :=
  if r.write then m.writeWord r.adr r.be r.data else m

/-- The performance of the access in progress: memory takes a write's enabled bytes and the port no
longer holds the access (R73). -/
def State.complete (s : State) (r : Request) : State :=
  { s with port := none, mem := s.mem.perform r }

/-- The frame of a performance step: if the access in progress is one the step is about, it completes,
its requester reacts unless it has withdrawn (`react` if not, `drop` if so), and MA grants again
(R73, R80). Otherwise the event does not occur (log 1). -/
def State.performance (s : State) (about : Request → Bool)
    (react drop : Request → State → State) : Out :=
  match s.port with
  | some a =>
    if !s.rst && about a.req then
      .next ((if a.withdrawn then drop a.req (s.complete a.req)
        else react a.req (s.complete a.req)).regrant)
    else .next s
  | none => .next s

/-! ### Lines -/

/-- HRDY is inactive while a transfer is held at the host port (R49, R51). -/
def State.hrdy (s : State) : Bool :=
  s.waiting.isNone && (match s.su with
    | .reading _ _ _ => false
    | _ => true)

/-- Microseconds of one slot: 16 bits at 2^code Mbit/s (R106). -/
def LaneRec.slotTime (r : LaneRec) : Nat := 16 / 2 ^ r.rate.val

/-- The FP line of a MASTER lane: active from each frame start until position 1 begins (R118). -/
def State.fpActive (s : State) (x : Fin 6) : Bool :=
  (s.outRec x).timing == .master && (s.out x).st == .sending && (s.out x).begun == 1

end Sys2Proof.Machine
end

