-- ==== Sys2Proof/Machine/Flags.lean ====
section
/-! DEFINITION. Event flags, the attention line, and the journal's offers and writes (chapter 10). -/

namespace Sys2Proof.Machine

/-- The flag of an event kind is raised (R179). -/
def State.raised (s : State) (k : Kind) : Bool := s.flags.getLsbD k.code

/-- ATN# is asserted exactly while a raised flag is enabled in the attention mask (R181), and never
while RST# is asserted (R177). -/
def State.atn (s : State) : Bool := !s.rst && (s.flags &&& s.header.mask) != 0

/-- Raise the flag of a kind; COMMIT has none (R179). -/
def State.setFlag (s : State) (k : Kind) : State :=
  { s with flags := s.flags ||| (1#17 <<< k.code) }

/-- The flags an acknowledge names: positions that carry a 1 in bytes whose enables are set (R69). -/
def ackNamed (data : Word) (be : Enables) : BitVec 17 :=
  (mergeBytes 0 data be).extractLsb' 0 17

/-! ### The journal queue and its writes (R183–R188, R200) -/

/-- Word `n` of a journal entry (R200). -/
def JEntry.word (e : JEntry) : Nat → Word
  | 0 => field e.kind.code 0 ||| field (e.source.getD 0xFF) 8
  | 1 => e.time
  | 2 => e.detail1
  | _ => e.detail2

/-- JW requests the next word of its head entry (R187): word `wordCount` at ring address +
16 × write index + 4 × word count. -/
def State.requestJournal (s : State) : State :=
  match s.journal.queue with
  | [] => s
  | e :: _ =>
    s.join { who := .journal, write := true
             adr := memAdr (s.header.ringAddr + 16 * s.journal.writeIndex + 4 * s.journal.wordCount)
             be := 0xF, data := e.word s.journal.wordCount, urgent := false }

/-- Entries are lost: the lost count rises and JOURNAL_LOST is raised (R186, R188). JW ignores the offer
of that raise (R185), so the raise is its flag alone. -/
def State.loseEntries (s : State) (n : Nat) : State :=
  (s.modJournal fun j => { j with lost := sat16 j.lost n }).setFlag .journalLost

/-- An accepted entry joins the queue, and starts its write if the queue was empty; with 8 entries
queued it is dropped (R185, R186). -/
def State.acceptEntry (s : State) (e : JEntry) : State :=
  if s.journal.queue.length < Config.journalPlaces then
    let s1 := s.modJournal fun j => { j with queue := j.queue ++ [e] }
    if s.journal.queue = [] then s1.requestJournal else s1
  else s.loseEntries 1

/-- Is the kind among the selected kinds (R196)? -/
def State.selects (s : State) (k : Kind) : Bool := s.header.selected.getLsbD k.code

/-- Is the kind the trigger kind (R196)? -/
def State.triggers (s : State) (k : Kind) : Bool := s.header.trigger == k.code

/-- An offer taken by the journal state (R185). A HALTED journal loses a selected LOAD_FAILED too, although
R183 keeps the journal record through a failed START (log 25). -/
def State.offer (s : State) (e : JEntry) : State :=
  if e.kind = .journalLost ∨ e.kind = .journalFull then s
  else match s.journal.st with
    | .off => s
    | .draining => s
    | .ended => s
    | .awaiting =>
      if s.triggers e.kind then (s.modJournal fun j => { j with st := .recording }).acceptEntry e
      else s
    | .recording => if s.selects e.kind then s.acceptEntry e else s
    | .halted => if s.selects e.kind then s.loseEntries 1 else s

/-- The STOPPED offer: taken as any other, and then the run's journal drains or ends (R189). -/
def State.offerStopped (s : State) (e : JEntry) : State :=
  let s1 := s.offer e
  match s.journal.st with
  | .recording =>
    s1.modJournal fun j => { j with st := if j.queue = [] then .ended else .draining }
  | .awaiting =>
    if s.triggers e.kind then
      s1.modJournal fun j => { j with st := if j.queue = [] then .ended else .draining }
    else s1.modJournal fun j => { j with st := .ended }
  | .off => s1
  | .halted => s1
  | .draining => s1
  | .ended => s1

/-- A raise at EU: the flag is raised and JW is offered an entry (R179). -/
def State.raise (s : State) (k : Kind) (source : Option Nat) (d1 d2 : Word) : State :=
  (s.setFlag k).offer { kind := k, source := source, time := s.timeBase, detail1 := d1, detail2 := d2 }

/-- The raise of STOPPED (R174, R175, R189). -/
def State.raiseStopped (s : State) (d1 d2 : Word) : State :=
  (s.setFlag .stopped).offerStopped
    { kind := .stopped, source := none, time := s.timeBase, detail1 := d1, detail2 := d2 }

/-- The write index reaches the capacity under HALT (R188). -/
def State.haltJournal (s : State) : State :=
  let n := s.journal.queue.length
  let s1 := s.modJournal fun j => { j with writeIndex := 0, st := .halted, queue := [] }
  let s2 := if n = 0 then s1 else s1.loseEntries n
  s2.setFlag .journalFull

/-- What JW does after an entry has left the queue and the index has been set (R187 step 4). -/
def State.nextEntry (s : State) : State :=
  if s.journal.queue = [] then
    if s.journal.st = .draining then s.modJournal fun j => { j with st := .ended } else s
  else s.requestJournal

/-- The performance of word 3 of the head entry (R187). -/
def State.entryWritten (s : State) : State :=
  let s1 := s.modJournal fun j => { j with queue := j.queue.tail, wordCount := 0 }
  if s.journal.writeIndex + 1 = s.header.capacity then
    match s.header.full with
    | .rollover =>
      (s1.modJournal fun j => { j with writeIndex := 0, wrap := sat16 j.wrap 1 }).nextEntry
    | .halt => s1.haltJournal
  else (s1.modJournal fun j => { j with writeIndex := j.writeIndex + 1 }).nextEntry

/-- JW's reaction to the performance of a word of its head entry (R187). -/
def State.journalWord (s : State) : State :=
  if s.journal.queue = [] then s
  else if s.journal.wordCount < 3 then
    (s.modJournal fun j => { j with wordCount := j.wordCount + 1 }).requestJournal
  else s.entryWritten

/-- The journal at a successful START (R190), with the new active header in place. R190 withdraws an
ungranted write of the journal and discards the result of a granted one; the table of R85 has the request
list and the access in progress unchanged at a successful START. The model follows R190 (log 28). -/
def State.startJournal (s : State) : State :=
  (s.withdraw .journal).modJournal fun _ =>
    { Journal.zero with
      st := match s.header.mode with
        | .off => .off
        | .continuous => .recording
        | .triggered => .awaiting
        | .unassigned => .off }

end Sys2Proof.Machine
end

