-- ==== Sys2Proof/Machine/Close.lean ====
section
/-! DEFINITION. Cue states (chapter 5), commits, close decisions and copy-forward (chapter 2). -/

namespace Sys2Proof.Machine

/-! ### Cue state (R87, R91) -/

/-- Do the two windows belong to one stale group (R87)? -/
def State.sameGroup (s : State) (v w : Fin 16) : Bool :=
  s.groups.toList.any fun g => g[v] && g[w]

/-- The cue state of a window (R91); a window that is not enabled reads as EMPTY (R86). -/
def State.cueState (s : State) (w : Fin 16) : CueState :=
  if !(s.win w).enabled || !(s.pool w).committed then .empty
  else if (s.pool w).ownMark || allWindows.any (fun v => s.sameGroup v w && (s.pool v).ownMark) then
    .stale
  else .live

/-- A deadline so many milliseconds from now, modulo 2^32 (R88). -/
def State.deadline (s : State) (ms : Nat) : Word := s.timeBase + BitVec.ofNat 32 (ms * 1000)

/-- The commit notice on the window's own record (R90 steps 1 to 3). -/
def State.noticeRecord (s : State) (w : Fin 16) : State :=
  s.modPool w fun p =>
    { p with
      timer := if 0 < (s.win w).timeout then some (s.deadline (s.win w).timeout) else p.timer
      ownMark := false
      committed := true }

/-- RESUMED for each window that went from STALE to LIVE, in ascending order (R90 step 5). `before` is
the state in which the commit found the cue states. -/
def State.raiseResumed (s before : State) (w : Fin 16) : State :=
  allWindows.foldl (fun t v =>
    if before.cueState v = .stale ∧ s.cueState v = .live then
      t.raise .resumed (some v.val) ((s.pool v).lastSeq.setWidth 32) (num w.val)
    else t) s

/-- A commit of buffer `k` (R40, R42): the pool and the run record, the commit notice, and the COMMIT
offer. -/
def State.commit (s : State) (w : Fin 16) (k : Fin 8) (seq : Half) (time : Word)
    (source : Option (Fin 8)) (copied : Nat) : State :=
  let s1 := (s.modPool w fun p => p.commit k seq time source).noticeRecord w
  (s1.raiseResumed s w).offer
    { kind := .commit, source := some w.val, time := s.timeBase
      detail1 := seq.setWidth 32, detail2 := num copied }

/-- A timer expiry (R89). -/
def State.expire (s : State) (w : Fin 16) : State :=
  let s1 := s.modPool w fun p => { p with timer := none, ownMark := true }
  let turned := allWindows.filter fun v => s.cueState v == .live && s1.cueState v == .stale
  s1.raise .timedOut (some w.val) ((s.pool w).lastSeq.setWidth 32) (num turned.length)

/-! ### Copy-forward (R35–R38) -/

/-- The source word of a job's word `i` (R36). -/
def WindowRec.copyAdr (r : WindowRec) (j : CopyJob) (i : Nat) : MemAdr :=
  match j.source with
  | some k => r.payloadAdr k i
  | none => r.neutralAdr i

/-- The end of a job: the record is removed and the target commits (R38). -/
def State.endJob (s : State) (w : Fin 16) (j : CopyJob) : State :=
  (s.modPool w fun p => { p with job := none }).commit w j.target j.seq j.time j.source j.copied

/-- SEEKING (R36): pass over fully written words; request the source word of the next gap, or end the
job when there is none. That the read carries all four byte enables is the model's choice (log 24). -/
def State.seek (s : State) (w : Fin 16) (j : CopyJob) : State :=
  match ((s.pool w).bufs[j.target].map).gap (s.win w).payloadLength j.index with
  | some i =>
    (s.modPool w fun p => { p with job := some { j with index := i, phase := .reading } }).join
      { who := .copyJob w, write := false, adr := (s.win w).copyAdr j i, be := 0xF, data := 0
        urgent := false }
  | none => s.endJob w j

/-- The copy read is performed (R37): the word is held and the missing bytes are requested. -/
def State.copyRead (s : State) (w : Fin 16) (word : Word) : State :=
  match (s.pool w).job with
  | none => s
  | some j =>
    (s.modPool w fun p => { p with job := some { j with held := some word, phase := .writing } }).join
      { who := .copyJob w, write := true, adr := (s.win w).payloadAdr j.target j.index
        be := ~~~ ((s.pool w).bufs[j.target].map).get j.index, data := word, urgent := false }

/-- The copy write is performed (R37): the missing bytes join the map and the job seeks on. R37 does not say
what becomes of the held word; that the job holds none from here to its next read is the model's choice
(log 27). -/
def State.copyWrite (s : State) (w : Fin 16) (be : Enables) : State :=
  match (s.pool w).job with
  | none => s
  | some j =>
    (s.modPool w fun p => p.modBuf j.target (Buffer.mark j.index be)).seek w
      { j with index := j.index + 1, phase := .seeking, copied := j.copied + 1, held := none }

/-! ### The close decision (R31–R34) -/

/-- The declared count of a close word (R195). -/
def closeCount (x : HostWrite) : Half := loHalf x.data

/-- The sequence of a close word (R195). -/
def closeSeq (x : HostWrite) : Half := hiHalf x.data

/-- The map of the FILLING buffer is full (R30); false when there is none. -/
def State.fillingFull (s : State) (w : Fin 16) : Bool :=
  match (s.pool w).find .filling with
  | some k => ((s.pool w).bufs[k].map).full (s.win w).payloadLength
  | none => false

/-- The cases of R32, in order. -/
def State.closeOutcome (s : State) (w : Fin 16) (x : HostWrite) : CloseOutcome :=
  if s.dev = .stopping then .notRunning
  else if (s.win w).writer ≠ .host then .notWriter
  else if x.be ≠ 0xF ∨ closeCount x = 0 then .malformed
  else if (s.pool w).isCommitting then .busy
  else if closeSeq x ≠ (s.pool w).expected then .seqMismatch
  else if (closeCount x).toNat ≠ (s.pool w).fillingTouched then .countMismatch
  else if (s.win w).mode = .strict ∧ s.fillingFull w = false then .incomplete
  else if s.freeBuffer w = none then .noBuffer
  else .accepted

/-- A refused close (R33): the outcome is recorded and CLOSE_REFUSED raised, with the declared count, or
0 when the close was MALFORMED for lack of a byte enable (log 23). -/
def State.refuseClose (s : State) (w : Fin 16) (x : HostWrite) (o : CloseOutcome) : State :=
  (s.modPool w fun p => { p with lastOutcome := o }).raise .closeRefused (some w.val) (num o.code)
    (if o = .malformed ∧ x.be ≠ 0xF then 0 else (closeCount x).setWidth 32)

/-- Steps 1 to 4 of an ACCEPTED close (R34): stamp the frame in `k0`, advance the expected sequence,
record the outcome, allocate `k1`. -/
def State.acceptClose (s : State) (w : Fin 16) (k0 k1 : Fin 8) (seq : Half) : State :=
  s.modPool w fun p =>
    { ((p.modBuf k0 fun b => { b with seq := seq, time := s.timeBase }).modBuf k1 Buffer.allocate) with
      expected := p.expected + 1
      lastOutcome := .accepted }

/-- The copy source takes its holder, the closed buffer becomes COMMITTING, and the job is handed to
CE (R19, R35). -/
def State.startJob (s : State) (w : Fin 16) (k0 : Fin 8) (seq : Half) (time : Word) : State :=
  let source := (s.pool w).find .ready
  let s1 := match source with
    | some r => s.modPool w fun p => p.modBuf r (Buffer.hold .copySource)
    | none => s
  (s1.modPool w fun p => p.modBuf k0 fun b => { b with st := .committing }).seek w
    { target := k0, source := source, seq := seq, time := time, index := 0, phase := .seeking
      copied := 0, held := none }

/-- WU decides a close in one event (R31–R35). -/
def State.decideClose (s : State) (w : Fin 16) (x : HostWrite) : State :=
  match s.closeOutcome w x, (s.pool w).find .filling, s.freeBuffer w with
  | .accepted, some k0, some k1 =>
    let s1 := s.acceptClose w k0 k1 (closeSeq x)
    if s.fillingFull w then s1.commit w k0 (closeSeq x) s.timeBase none 0
    else s1.startJob w k0 (closeSeq x) s.timeBase
  | .accepted, _, _ => s
  | o, _, _ => s.refuseClose w x o

end Sys2Proof.Machine
end

