-- ==== Sys2Proof/Machine/Operands.lean ====
section
/-! DEFINITION. What a host transfer's address names (chapter 3), the words the part answers (chapter
11), and the values of slot entries (chapters 5 and 7). -/

namespace Sys2Proof.Machine

/-! ### Classes of address (R3, R4, R53, R54) -/

/-- The byte address of a host word address. -/
def HostAdr.byte (a : HostAdr) : Nat := 4 * a.toNat

/-- The host word address a command's byte address names: the port has no HADR1–HADR0 (log 12). -/
def hostAdr (a : BitVec 21) : HostAdr := a.extractLsb' 2 19

/-- The profile base in force (R163). -/
def State.base (s : State) : Nat := Config.profileBase s.straps

/-- In the range of `n` bytes from `lo`. -/
def within (a lo n : Nat) : Bool := decide (lo ≤ a) && decide (a < lo + n)

/-- The control word a host address names (R53, R67). -/
def State.controlWord (s : State) (a : HostAdr) : Option Nat :=
  if within (HostAdr.byte a) s.base 0x100 then some ((HostAdr.byte a - s.base) / 4) else none

/-- Windows are classified in RUN and STOPPING (R3, R53). -/
def State.steering (s : State) : Bool := s.dev == .run || s.dev == .stopping

/-- The enabled window whose logical range holds the address (R3). -/
def State.windowAt (s : State) (a : HostAdr) : Option (Fin 16) :=
  allWindows.find? fun w =>
    (s.win w).enabled && within (HostAdr.byte a) (s.win w).logicalBase (s.win w).size

/-- The parts of a window (R4). -/
inductive Part where
  | head
  | close
  | payload (i : Nat)
  | outside
deriving DecidableEq, Repr

/-- The part a window offset names (R4). -/
def WindowRec.part (r : WindowRec) (off : Nat) : Part :=
  if off = 0 then .head
  else if off = 4 then .close
  else if off < 8 + 4 * r.payloadLength then .payload ((off - 8) / 4)
  else .outside

/-- The part of window `w` an address names. -/
def State.partAt (s : State) (w : Fin 16) (a : HostAdr) : Part :=
  (s.win w).part (HostAdr.byte a - (s.win w).logicalBase)

/-- The lowest-numbered enabled window whose neutral record holds the address (R54, R66). -/
def State.neutralAt (s : State) (a : HostAdr) : Option (Fin 16) :=
  allWindows.find? fun w =>
    (s.win w).enabled &&
      within (HostAdr.byte a) (s.win w).neutralAddress (4 * (s.win w).payloadLength)

/-- The protected range that holds the address, as the reason and source of its refusal; the ranges
are tested in the table's order (R54, R66). -/
def State.protectedAt (s : State) (a : HostAdr) : Option (RefusalReason × Option Nat) :=
  if within (HostAdr.byte a) (s.base + 0x100) (4 * s.header.imageLength) then
    some (.profileImage, none)
  else match s.neutralAt a with
    | some w => some (.neutralRecord, some w.val)
    | none =>
      if (s.header.mode = .continuous ∨ s.header.mode = .triggered) ∧
          within (HostAdr.byte a) s.header.ringAddr (16 * s.header.capacity) = true then
        some (.journalRing, none)
      else none

/-- What SU does with a write (R50, R56–R70). -/
inductive Treatment where
  | passThrough
  | steered (w : Fin 16) (i : Nat)
  | refused (r : RefusalReason) (source : Option Nat)
  | close (w : Fin 16)
  | start
  | stop
  | unknown
  | acknowledge
  | dropped
deriving DecidableEq, Repr

/-- A request word written to control word 0 (R68). -/
def requestOf (x : HostWrite) : Treatment :=
  if x.be ≠ 0xF then .unknown
  else if x.data = 1 then .start
  else if x.data = 2 then .stop
  else .unknown

/-- A write into a window in RUN or STOPPING (R4, R59, R63–R66). -/
def State.windowWrite (s : State) (w : Fin 16) (a : HostAdr) : Treatment :=
  match s.partAt w a with
  | .head => .refused .headWord (some w.val)
  | .close => .close w
  | .outside => .refused .outOfPayload (some w.val)
  | .payload i =>
    if (s.win w).writer ≠ .host then .refused .inboundPayload (some w.val)
    else if s.dev = .stopping then .refused .stopping (some w.val)
    else .steered w i

/-- The treatment of a write, decided on the state SU finds when it takes it (R53, R55). -/
def State.treatment (s : State) (x : HostWrite) : Treatment :=
  match s.controlWord x.adr with
  | some 0 => requestOf x
  | some 1 => .acknowledge
  | some _ => .dropped
  | none =>
    if s.steering then
      match s.windowAt x.adr with
      | some w => s.windowWrite w x.adr
      | none =>
        match s.protectedAt x.adr with
        | some (r, src) => .refused r src
        | none => .passThrough
    else .passThrough

/-! ### Reads (R44–R46, R58–R65, R67, R194, R195) -/

/-- Word `8 + 2n` of the control area (R28, R194). -/
def State.windowWord (s : State) (w : Fin 16) : Word :=
  field (s.cueState w).code 0 ||| field (bit (s.pool w).isCommitting) 2 |||
    field (bit (s.pool w).ownMark) 3 ||| field (s.pool w).lastOutcome.code 8 |||
    field (s.freeCount w) 16

/-- The control area's words (R67, R194). -/
def State.control (s : State) (j : Nat) : Word :=
  if j = 0 then field s.dev.code 0 ||| field s.outcome.code 8
  else if j = 1 then s.flags.setWidth 32
  else if j = 2 then s.timeBase
  else if j = 3 then
    field (s.journal.writeIndex % 4096) 0 ||| field s.journal.st.code 12 |||
      field s.journal.wrap.toNat 16
  else if j = 4 then
    field (s.loadErr.index % 4096) 0 ||| field (s.loadErr.check % 16) 12 |||
      field s.journal.lost.toNat 16
  else if j < 8 then 0
  else if j < 40 then
    let w : Fin 16 := Fin.ofNat 16 ((j - 8) / 2)
    if j % 2 = 0 then s.windowWord w
    else field (s.pool w).lastSeq.toNat 0 ||| field (s.pool w).commits.toNat 16
  else if j < 52 then
    let l := s.out (Fin.ofNat 6 ((j - 40) / 2))
    if j % 2 = 0 then
      field l.st.code 0 ||| field l.saturations.toNat 8 ||| field l.frameNo.toNat 16
    else
      field l.underruns.toNat 0 ||| field l.earlies.toNat 8 ||| field l.flywheels.toNat 16 |||
        field l.drifts.toNat 24
  else if j < 56 then
    let l := s.inl (Fin.ofNat 2 ((j - 52) / 2))
    if j % 2 = 0 then field l.st.code 0 ||| field l.lastNo.toNat 16
    else
      field l.crcErrors.toNat 0 ||| field l.cuts.toNat 8 ||| field l.gaps.toNat 16 |||
        field l.noBuffers.toNat 24
  else 0

/-- The head word of a host window (R44, R195). -/
def State.hostHead (s : State) (w : Fin 16) : Word :=
  field (s.cueState w).code 0 ||| field (bit (s.pool w).isCommitting) 2 |||
    field (s.win w).writer.code 4 ||| field (s.pool w).fillingTouched 6 |||
    field (s.pool w).expected.toNat 16

/-- The head word of an inbound window, by the buffer that holds its view (R45, R195). -/
def State.inboundHead (s : State) (w : Fin 16) : Word :=
  let view := (s.pool w).holding .view
  field (s.cueState w).code 0 ||| field (bit view.isSome) 3 ||| field (s.win w).writer.code 4 |||
    (match view with
      | some k => field ((s.pool w).bufs[k].seq).toNat 16
      | none => 0)

/-- How SU answers a read (R51): from the part's own state, by moving a host view (R17), or by one or
more memory reads (R61). -/
inductive ReadAnswer where
  | word (v : Word)
  | moveView (w : Fin 16)
  | memory (first : ReadPart) (rest : List ReadPart)
deriving DecidableEq, Repr

/-- A memory read of a whole word (R61, R63, R64). -/
def wholeRead (a : MemAdr) : ReadPart := { adr := a, be := 0xF, keep := 0xF }

/-- Where the bytes that no map supplies come from: the READY buffer, or the neutral record (R60). -/
def State.restSource (s : State) (w : Fin 16) (i : Nat) : MemAdr :=
  match (s.pool w).find .ready with
  | some k => (s.win w).payloadAdr k i
  | none => (s.win w).neutralAdr i

/-- The bytes of word `i` a buffer in the given state has in its map, and its address (R60). -/
def State.mapSource (s : State) (w : Fin 16) (st : BufState) (i : Nat) : Enables × MemAdr :=
  match (s.pool w).find st with
  | some k => (((s.pool w).bufs[k].map).get i, (s.win w).payloadAdr k i)
  | none => (0, 0)

/-- The sources of a payload read of a host window in RUN that supply a byte, in order (R60, R61). -/
def State.mergedParts (s : State) (w : Fin 16) (i : Nat) : List ReadPart :=
  let f := s.mapSource w .filling i
  let c := s.mapSource w .committing i
  [ { adr := f.2, be := 0xF, keep := f.1 },
    { adr := c.2, be := 0xF, keep := c.1 &&& ~~~ f.1 },
    { adr := s.restSource w i, be := 0xF, keep := ~~~ f.1 &&& ~~~ c.1 } ].filter
      fun p => p.keep != 0

/-- The source of a payload read of an inbound window (R64). -/
def State.inboundSource (s : State) (w : Fin 16) (i : Nat) : MemAdr :=
  match (s.pool w).holding .view with
  | some k => (s.win w).payloadAdr k i
  | none => s.restSource w i

/-- A read of payload word `i` (R60, R63, R64). -/
def State.payloadRead (s : State) (w : Fin 16) (i : Nat) : ReadAnswer :=
  if (s.win w).writer = .host then
    if s.dev = .run then
      match s.mergedParts w i with
      | [] => .memory (wholeRead (s.restSource w i)) []
      | p :: ps => .memory p ps
    else .memory (wholeRead (s.restSource w i)) []
  else .memory (wholeRead (s.inboundSource w i)) []

/-- A read of a window in RUN or STOPPING (R4, R65). -/
def State.windowRead (s : State) (w : Fin 16) (a : HostAdr) : ReadAnswer :=
  match s.partAt w a with
  | .head =>
    if (s.win w).writer = .host then .word (s.hostHead w)
    else if s.dev = .run then .moveView w
    else .word (s.inboundHead w)
  | .close => .word (field (s.pool w).lastOutcome.code 0)
  | .outside => .word 0
  | .payload i => s.payloadRead w i

/-- A host address as a physical address, with address bit 21 at 0 (R56, R57). -/
def physical (a : HostAdr) : MemAdr := a.setWidth 20

/-- How SU answers a read in the state it finds (R51, R53, R55, R56, R58). -/
def State.readAnswer (s : State) (a : HostAdr) (be : Enables) : ReadAnswer :=
  match s.controlWord a with
  | some j => .word (s.control j)
  | none =>
    match s.steering, s.windowAt a with
    | true, some w => s.windowRead w a
    | _, _ => .memory { adr := physical a, be := be, keep := 0xF } []

/-! ### Values of slot entries (R99–R102, R132–R142) -/

/-- A signed value saturated to 16 bits, with whether it saturated (R135, R136, R138). -/
def satSigned (v : Int) : Word × Bool :=
  if 32767 < v then (0x7FFF, true)
  else if v < -32768 then (0x8000, true)
  else ((BitVec.ofInt 16 v).setWidth 32, false)

/-- An unsigned value saturated to 16 bits, with whether it saturated (R135). -/
def satUnsigned (v : Nat) : Word × Bool :=
  if 65535 < v then (0xFFFF, true) else (BitVec.ofNat 32 v, false)

/-- The half of a word an entry names (R134, R138). -/
def EntryRec.half (e : EntryRec) (w : Word) : Half := if e.high then hiHalf w else loHalf w

/-- floor(signed word / 2^c) (R136). -/
def floorShift (w : Word) (c : Nat) : Int := w.toInt / (2 ^ c : Nat)

/-- SCALE_RIGHT_ROUND before saturation: the floor plus the last bit shifted out (R136). -/
def roundShift (w : Word) (c : Nat) : Int :=
  floorShift w c + (if c ≠ 0 ∧ w.getLsbD (c - 1) = true then 1 else 0)

/-- The condition of a TEST entry (R139, R197). A code above 7, which check 8 fails (R145), is false (log
31). -/
def testCondition (c : Nat) (w k : Word) : Bool :=
  if c = 0 then w == k
  else if c = 1 then w != k
  else if c = 2 then decide (w.toInt < k.toInt)
  else if c = 3 then decide (w.toInt ≤ k.toInt)
  else if c = 4 then decide (k.toInt < w.toInt)
  else if c = 5 then decide (k.toInt ≤ w.toInt)
  else if c = 6 then decide (w.toNat < k.toNat)
  else if c = 7 then decide (k.toNat < w.toNat)
  else false

/-- 16 bits of the two words joined, from bit `p` (R137). -/
def spanBits (lo hi : Word) (p : Nat) : Half := (hi ++ lo).extractLsb' p 16

/-- The transform of a kind that takes its value from words alone, with whether it saturated (R134–R137,
R139). DELTA, STAMP and SEQ do not, and have the value R141 gives them here. That an inbound or an
unassigned kind has 0 here is the model's choice (log 31). -/
def EntryRec.transform (e : EntryRec) (ws : List Word) : Word × Bool :=
  let w := ws.getD 0 0
  match e.kind with
  | .pass16 => ((e.half w).setWidth 32, false)
  | .pass32 => (w, false)
  | .scaleLeft => satSigned (w.toInt * (2 ^ e.param : Nat))
  | .scaleRightLogical => satUnsigned (w.toNat / 2 ^ e.param)
  | .scaleRightFloor => satSigned (floorShift w e.param)
  | .scaleRightRound => satSigned (roundShift w e.param)
  | .span => ((spanBits w (ws.getD 1 0) e.param).setWidth 32, false)
  | .test => (if testCondition e.param w e.const then 1 else 0, false)
  | .delta => (0, false)
  | .stamp => (0, false)
  | .seq => (0, false)
  | .store16 => (0, false)
  | .store32 => (0, false)
  | .unassigned => (0, false)

/-- Two slots for PASS32 and STAMP (and STORE32), one for every other kind (R134, R140, R143). That an
unassigned kind counts as one slot in check 8 is the model's choice (log 16). -/
def EntryKind.slots : EntryKind → Nat
  | .pass32 => 2
  | .stamp => 2
  | .store32 => 2
  | _ => 1

/-- Words an entry needs, by its kind and what its window draws on (R133). One word for an inbound or an
unassigned kind, which R133 does not list, is the model's choice (log 31). -/
def EntryKind.words (k : EntryKind) (d : Draw) : Nat :=
  match k, d with
  | .span, _ => 2
  | .delta, .buffer _ _ _ => 1
  | .delta, _ => 0
  | .stamp, _ => 0
  | .seq, _ => 0
  | _, _ => 1

/-- A pattern as the number its kind produces (R102). -/
def EntryKind.toNumber (k : EntryKind) (v : Word) : Int :=
  match k with
  | .pass32 => v.toInt
  | .stamp => v.toNat
  | .scaleRightLogical => (loHalf v).toNat
  | .test => (loHalf v).toNat
  | .seq => (loHalf v).toNat
  | _ => (loHalf v).toInt

/-- A number as the pattern its kind sends (R102, R198). -/
def EntryKind.ofNumber (k : EntryKind) (n : Int) : Word :=
  match k with
  | .pass32 => BitVec.ofInt 32 n
  | .stamp => BitVec.ofInt 32 n
  | _ => (BitVec.ofInt 16 n).setWidth 32

/-- The decay step: last − floor((last − target) / 2^s), or the target if that is no change (R100). -/
def decayStep (last target : Int) (shift : Nat) : Int :=
  let step := last - (last - target) / (2 ^ shift : Nat)
  if step = last then target else step

/-- The value sent under DECAY (R100): the target when nothing was sent since START. -/
def EntryRec.decayValue (e : EntryRec) (st : EntryState) (target : Word) (shift : Nat) : Word :=
  if st.sent then
    e.kind.ofNumber (decayStep (e.kind.toNumber st.lastOutput) (e.kind.toNumber target) shift)
  else target

/-- A value formed: the value, whether it saturated, and the entry state it leaves (R132). -/
structure Formed where
  value : Word
  sat : Bool
  state : EntryState
deriving DecidableEq, Repr

/-- Sending a value sets last output and the sent mark (R102, R132). -/
def Formed.of (v : Word × Bool) (st : EntryState) : Formed :=
  { value := v.1, sat := v.2, state := { st with lastOutput := v.1, sent := true } }

/-- The DELTA of a half drawn from a buffer (R138). -/
def formDelta (h : Half) (st : EntryState) : Formed :=
  Formed.of (if st.primed then satSigned (h.toInt - st.lastSource.toInt) else (0, false))
    { st with primed := true, lastSource := h }

/-- DELTA loses its primed state when it draws on no buffer (R141). -/
def EntryRec.unprime (e : EntryRec) (st : EntryState) : EntryState :=
  if e.kind = .delta then { st with primed := false } else st

/-- The value of an entry under what its window draws on (R132, R138, R140, R141, R100, R101). -/
def EntryRec.form (e : EntryRec) (d : Draw) (ws : List Word) (st : EntryState) (shift : Nat) : Formed :=
  match d with
  | .buffer _ seq time =>
    if e.kind = .delta then formDelta (e.half (ws.getD 0 0)) st
    else if e.kind = .stamp then Formed.of (time, false) st
    else if e.kind = .seq then Formed.of (seq.setWidth 32, false) st
    else Formed.of (e.transform ws) st
  | .neutral => Formed.of (e.transform ws) (e.unprime st)
  | .decay =>
    Formed.of (e.decayValue st (e.transform ws).1 shift, (e.transform ws).2) (e.unprime st)

end Sys2Proof.Machine
end

