-- ==== Sys2Proof/Machine/Inbound.lean ====
section
/-! DEFINITION. The inbound lanes (chapter 8): board frames, allocation, half writes, settlement. -/

namespace Sys2Proof.Machine

/-- The window an inbound lane writes: the enabled window whose writer field names it (R7, R148). -/
def State.inWindow (s : State) (y : Fin 2) : Option (Fin 16) :=
  allWindows.find? fun w => (s.win w).enabled && (s.win w).inLane == some y

/-- Change the frame at the head of the frames in hand. -/
def InLane.modHead (l : InLane) (f : InFrame → InFrame) : InLane :=
  { l with frames := match l.frames with
      | [] => []
      | h :: t => f h :: t }

/-- Change the current frame, the last of the frames in hand. -/
def InLane.modLast (l : InLane) (f : InFrame → InFrame) : InLane :=
  { l with frames := match l.frames.getLast? with
      | some h => l.frames.dropLast ++ [f h]
      | none => [] }

/-- The head frame leaves the list (R153). -/
def InLane.popHead (l : InLane) : InLane := { l with frames := l.frames.tail }

/-- The byte enables of a half (R143). -/
def RxHalf.enables (h : RxHalf) : Enables := if h.high then 0b1100 else 0b0011

/-- The word a half write carries: the half's 16 bits in its bytes (R155). R155 leaves open what the two
bytes without an enable carry; the model puts 0 there, and they are not stored (log 29, a DESIGN CHOICE). -/
def RxHalf.placed (h : RxHalf) : Word :=
  if h.high then h.data ++ (0 : Half) else (0 : Half) ++ h.data

/-- The lane requests the write of the half at the head of its receive buffer, when R155 lets it. -/
def State.tryWrite (s : State) (y : Fin 2) : State :=
  match s.inWindow y, (s.inl y).frames with
  | some w, f :: _ =>
    match f.buffer, f.halves with
    | some k, h :: _ =>
      if s.listed (.inLane y) = false ∧ s.inProgress (.inLane y) = false then
        s.join
          { who := .inLane y, write := true, adr := (s.win w).payloadAdr k h.word
            be := h.enables, data := h.placed, urgent := false }
      else s
    | _, _ => s
  | _, _ => s

/-- The buffer an inbound allocation takes: the lowest-numbered FREE one, when the window has no
FILLING buffer (R11, R20). -/
def State.inboundFree (s : State) (w : Fin 16) : Option (Fin 8) :=
  match (s.pool w).find .filling with
  | some _ => none
  | none => s.freeBuffer w

/-- Raise INBOUND_CUT and count it (R154, R156, R158, R159). -/
def State.raiseCut (s : State) (y : Fin 2) (number : Option Half) (r : CutReason) : State :=
  (s.modIn y fun l => { l with cuts := sat8 l.cuts }).raise .inboundCut (some y.val)
    ((number.getD 0).setWidth 32) (num r.code)

/-- The head frame is refused for lack of a buffer (R153). A frame still arriving sends the lane to
DISCARDING, which receives H0 if that has not come yet. -/
def State.refuseFrame (s : State) (y : Fin 2) (f : InFrame) : State :=
  let retired := match s.inWindow y with
    | some w => (s.pool w).retiredCount
    | none => 0
  let s1 := s.raise .inboundNoBuffer (some y.val) ((f.number.getD 0).setWidth 32) (num retired)
  s1.modIn y fun l =>
    { l.popHead with
      noBuffers := sat8 l.noBuffers
      st := if f.outcome = .opened then .discarding else l.st
      slot := if f.outcome = .opened then (if f.number = none then some 0 else none) else l.slot }

/-- The head frame asks WU for a FILLING buffer (R153): the new state, and whether it got one. -/
def State.allocateHead (s : State) (y : Fin 2) (f : InFrame) : State :=
  match s.inWindow y with
  | none => s.refuseFrame y f
  | some w =>
    match s.inboundFree w with
    | none => s.refuseFrame y f
    | some k =>
      (s.modPool w fun p => p.modBuf k Buffer.allocate).modIn y fun l =>
        l.modHead fun h => { h with buffer := some k }

/-- WU discards the head frame's buffer and the frame leaves the list (R22, R158). -/
def State.discardHead (s : State) (y : Fin 2) (f : InFrame) : State :=
  (match s.inWindow y, f.buffer with
    | some w, some k => s.modPool w fun p => p.modBuf k Buffer.discard
    | _, _ => s).modIn y InLane.popHead

/-- The commit of a GOOD head frame (R42, R158): with a full map the buffer commits with the next
inbound sequence and the pulse time; otherwise WU discards it and the lane reports INBOUND_CUT. -/
def State.commitHead (s : State) (y : Fin 2) (f : InFrame) (k : Fin 8) : State :=
  match s.inWindow y with
  | none => s.modIn y InLane.popHead
  | some w =>
    if ((s.pool w).bufs[k].map).full (s.win w).payloadLength then
      let seq := (s.pool w).nextInbound
      ((s.modPool w fun p => { p with nextInbound := p.nextInbound + 1 }).commit w k seq f.time none 0).modIn
        y InLane.popHead
    else (s.discardHead y f).raiseCut y f.number .malformed

/-- One settlement at the head of the frames in hand, or one allocation for the head frame; none when
the head frame must wait (R153, R158). -/
def State.settleOnce (s : State) (y : Fin 2) : Option State :=
  match (s.inl y).frames with
  | [] => none
  | f :: _ =>
    match f.outcome, f.buffer with
    | .discard, _ => if s.inProgress (.inLane y) then none else some (s.discardHead y f)
    | _, none => some (s.allocateHead y f)
    | .good, some k => if f.halves = [] then some (s.commitHead y f k) else none
    | .opened, some _ => none

/-- Settlements and allocations at the head, as far as they go (R153, R158). -/
def State.settleLoop : Nat → Fin 2 → State → State
  | 0, _, s => s
  | n + 1, y, s =>
    match s.settleOnce y with
    | none => s
    | some t => State.settleLoop n y t

/-- Every frame in hand is allocated at most once and leaves at most once, which bounds the loop. -/
def State.settle (s : State) (y : Fin 2) : State :=
  (State.settleLoop (2 * (s.inl y).frames.length + 1) y s).tryWrite y

/-- The current frame is discarded (R158): its halves leave the receive buffer, and with a buffer its
ungranted write is withdrawn and it settles as soon as no write of it is in progress. -/
def State.discardCurrent (s : State) (y : Fin 2) : State :=
  match (s.inl y).frames.getLast? with
  | none => s
  | some f =>
    match f.buffer with
    | none => s.modIn y fun l => { l with frames := l.frames.dropLast }
    | some _ =>
      ((s.unlist (.inLane y)).modIn y fun l =>
        l.modLast fun h => { h with outcome := .discard, halves := [] }).settle y

/-! ### The frame pulse (R152, R159) -/

/-- A frame start (R152). -/
def State.inFrameStart (s : State) (y : Fin 2) : State :=
  let fresh : InFrame :=
    { time := s.timeBase, number := none, buffer := none, outcome := .opened, halves := [] }
  let s1 := s.modIn y fun l =>
    { l with frames := l.frames ++ [fresh], crc := crcInit, slot := some 0, st := .receiving }
  if (s.inl y).frames = [] then s1.settle y else s1

/-- The number of the current frame, if its H0 has been received (R153). -/
def InLane.currentNumber (l : InLane) : Option Half :=
  match l.frames.getLast? with
  | some f => f.number
  | none => none

/-- Truncation of the current frame (R159 steps 1 and 2). -/
def State.truncate (s : State) (y : Fin 2) : State :=
  (s.raiseCut y (s.inl y).currentNumber .truncated).discardCurrent y

/-- An active edge of IyFP (R152). -/
def State.inActiveEdge (s : State) (y : Fin 2) : State :=
  match (s.inl y).st with
  | .idle => s
  | .listening => if s.startReached then s.inFrameStart y else s
  | .receiving => (s.truncate y).inFrameStart y
  | .discarding => s.inFrameStart y

/-! ### The slots received (R151, R154–R157) -/

/-- The number check on a received H0 (R154). -/
def State.checkNumber (s : State) (y : Fin 2) (h : Half) : State :=
  let l := s.inl y
  let s1 := s.modIn y fun l => { l with lastNo := h, seen := true }
  if l.seen ∧ h ≠ l.lastNo + 1 then
    (s1.modIn y fun l => { l with gaps := sat8 l.gaps }).raise .inboundGap (some y.val)
      (h.setWidth 32) ((h - l.lastNo - 1).setWidth 32)
  else s1

/-- The slot position being assembled is `j` and the lane is receiving it (R151). -/
def InLane.expects (l : InLane) (j : Nat) : Bool := l.st == .receiving && l.slot == some j

/-- H0 received (R154). In DISCARDING it is that of a refused frame: it is fed to the CRC like every slot
received (R151), and the number check is taken on it (R153). -/
def State.inH0 (s : State) (y : Fin 2) (h : Half) : State :=
  if (s.inl y).expects 0 then
    (s.modIn y fun l =>
      { (l.modLast fun f => { f with number := some h }) with
        crc := crcHalf l.crc h, slot := some 1 }).checkNumber y h
  else if (s.inl y).st = .discarding ∧ (s.inl y).slot = some 0 then
    (s.modIn y fun l => { l with crc := crcHalf l.crc h, slot := none }).checkNumber y h
  else s

/-- The lane ignores the rest of the frame until the next active edge (R149). -/
def State.toDiscarding (s : State) (y : Fin 2) : State :=
  s.modIn y fun l => { l with st := .discarding, slot := none }

/-- H1 received (R154). -/
def State.inH1 (s : State) (y : Fin 2) (h : Half) : State :=
  if (s.inl y).expects 1 then
    let s1 := s.modIn y fun l => { l with crc := crcHalf l.crc h, slot := some 2 }
    if h.toNat = (s.inRec y).slots then s1
    else ((s1.raiseCut y (s.inl y).currentNumber .malformed).discardCurrent y).toDiscarding y
  else s

/-- The payload word and half a data slot goes to, by the entry of the lane's run that names it
(R143, R155). -/
def State.rxPlace (s : State) (y : Fin 2) (d : Nat) : Option (Nat × Bool) :=
  (List.range' (s.inRec y).first (s.inRec y).count).findSome? fun e =>
    let r := s.entry e
    match r.kind with
    | .store16 => if r.slot = d then some (r.offset, r.high) else none
    | .store32 =>
      if r.slot = d then some (r.offset, true)
      else if r.slot + 1 = d then some (r.offset, false)
      else none
    | _ => none

/-- A data half arrives: at a full receive buffer it overruns, otherwise it joins (R155, R156). -/
def State.rxHalf (s : State) (y : Fin 2) (place : Nat × Bool) (h : Half) : State :=
  if Config.receivePlaces ≤ (s.inl y).halves.length then
    ((s.raiseCut y (s.inl y).currentNumber .overrun).discardCurrent y).toDiscarding y
  else
    (s.modIn y fun l => l.modLast fun f =>
      { f with halves := f.halves ++ [{ word := place.1, high := place.2, data := h }] }).tryWrite y

/-- The data slot the lane is assembling, if it is one (R151). -/
def State.dataExpected (s : State) (y : Fin 2) : Option Nat :=
  match (s.inl y).st, (s.inl y).slot with
  | .receiving, some j => if 2 ≤ j ∧ j < (s.inRec y).slots + 2 then some (j - 2) else none
  | _, _ => none

/-- A data slot received (R144, R155). -/
def State.inData (s : State) (y : Fin 2) (h : Half) : State :=
  match s.dataExpected y with
  | none => s
  | some d =>
    let s1 := s.modIn y fun l => { l with crc := crcHalf l.crc h, slot := some (d + 3) }
    match s.rxPlace y d with
    | none => s1
    | some place => s1.rxHalf y place h

/-- The CRC slot received (R157). -/
def State.inCrc (s : State) (y : Fin 2) (h : Half) : State :=
  if (s.inl y).expects ((s.inRec y).slots + 2) then
    let s1 := s.modIn y fun l => { l with st := .listening, slot := none }
    if h = (s.inl y).crc then
      (s1.modIn y fun l => l.modLast fun f => { f with outcome := .good }).settle y
    else
      let s2 := s1.modIn y fun l => { l with crcErrors := sat8 l.crcErrors }
      (s2.raise .inboundCrc (some y.val) (((s.inl y).currentNumber.getD 0).setWidth 32)
        ((s2.inl y).crcErrors.setWidth 32)).discardCurrent y
  else s

/-! ### The performance of a half write (R155, R158) -/

/-- The half leaves the receive buffer and its bytes join the map; a discarded frame's write only lets
its buffer go (R155, R158). Then the head may settle and the next write be requested. -/
def State.halfWritten (s : State) (y : Fin 2) : State :=
  (match s.inWindow y, (s.inl y).frames with
    | some w, f :: _ =>
      match f.outcome, f.buffer, f.halves with
      | .discard, _, _ => s
      | _, some k, h :: hs =>
        (s.modPool w fun p => p.modBuf k (Buffer.mark h.word h.enables)).modIn y fun l =>
          l.modHead fun f => { f with halves := hs }
      | _, _, _ => s
    | _, _ => s).settle y

/-! ### START and STOP (R150, R161) -/

/-- An inbound lane at RUN entry (R150, R161). -/
def InLane.start (r : LaneRec) : InLane :=
  if r.enabled then { InLane.zero with st := .listening } else InLane.zero

/-- An inbound lane at a STOP taken in RUN (R150, R161). -/
def InLane.stop (l : InLane) : InLane := { l with st := .idle, frames := [], crc := 0, slot := none }

end Sys2Proof.Machine
end

