-- ==== Sys2Proof/Machine/Outbound.lean ====
section
/-! DEFINITION. The outbound lanes (chapters 6 and 7): runs and ordinals, the frame start, fetching,
the slots, the frame end, the cut and the pulse checks. -/

namespace Sys2Proof.Machine

/-! ### Runs and window ordinals (R129, R130) -/

/-- The entry numbers of a lane's run, in index order (R129). -/
def LaneRec.runOf (r : LaneRec) : List Nat := List.range' r.first r.count

/-- Insert an entry number by slot index, behind those of a lower or equal index. -/
def State.insertBySlot (s : State) (e : Nat) : List Nat → List Nat
  | [] => [e]
  | f :: fs => if (s.entry e).slot < (s.entry f).slot then e :: f :: fs else f :: s.insertBySlot e fs

/-- A lane's slot order: the entries of its run by slot index (R129). -/
def State.slotOrder (s : State) (x : Fin 6) : List Nat :=
  (s.outRec x).runOf.foldl (fun l e => s.insertBySlot e l) []

/-- Add a window to a list that does not have it yet, at the end. -/
def addWindow (l : List (Fin 16)) (w : Fin 16) : List (Fin 16) := if w ∈ l then l else l ++ [w]

/-- The windows a lane carries, in ordinal order (R130). -/
def State.carried (s : State) (x : Fin 6) : List (Fin 16) :=
  (s.slotOrder x).foldl (fun l e => addWindow l (s.entry e).window) []

/-- Positions of a lane frame: n + 5 (R106). -/
def LaneRec.positions (r : LaneRec) : Nat := r.slots + 5

/-- The time at which position `j` of the frame in progress begins (R106). -/
def State.positionTime (s : State) (x : Fin 6) (j : Nat) : Word :=
  (s.out x).frameTime + BitVec.ofNat 32 (j * (s.outRec x).slotTime)

/-! ### Draws and holds (R15, R97, R111 step 4) -/

/-- What a window draws on when the cue state calls for its READY buffer: the buffer with its sequence
and frame time as WU answers, or the neutral record when there is none (R15). -/
def State.readyDraw (s : State) (w : Fin 16) : Draw :=
  match (s.pool w).find .ready with
  | some k => .buffer k ((s.pool w).bufs[k]).seq ((s.pool w).bufs[k]).time
  | none => .neutral

/-- The decision for one window at a frame start (R97). -/
def State.drawFor (s : State) (w : Fin 16) : Carried :=
  match s.cueState w with
  | .empty => { window := w, draw := .neutral, stale := false }
  | .live => { window := w, draw := s.readyDraw w, stale := false }
  | .stale =>
    match (s.win w).policy with
    | .hold => { window := w, draw := s.readyDraw w, stale := true }
    | .neutral => { window := w, draw := .neutral, stale := true }
    | .decay => { window := w, draw := .decay, stale := true }
    | .unassigned => { window := w, draw := .neutral, stale := true }

/-- Place the lane's hold on the buffer a decision draws on (R15). -/
def State.holdFor (s : State) (x : Fin 6) (c : Carried) : State :=
  match c.draw with
  | .buffer k _ _ => s.modPool c.window fun p => p.modBuf k (Buffer.hold (.lane x))
  | .neutral => s
  | .decay => s

/-- What the entries of a window draw on in the frame in progress (R97). -/
def OutLane.drawOf (l : OutLane) (w : Fin 16) : Draw :=
  match l.draws.find? fun c => c.window == w with
  | some c => c.draw
  | none => .neutral

/-! ### The fetch plan and fetching (R78, R112, R113) -/

/-- Address of the word an entry needs at a word offset, under its window's draw (R112). -/
def WindowRec.drawAdr (r : WindowRec) (d : Draw) (i : Nat) : MemAdr :=
  match d with
  | .buffer k _ _ => r.payloadAdr k i
  | .neutral => r.neutralAdr i
  | .decay => r.neutralAdr i

/-- The plan words of one entry (R112, R133). -/
def State.entryPlan (s : State) (l : OutLane) (e : Nat) : List PlanWord :=
  let r := s.entry e
  let d := l.drawOf r.window
  (List.range (r.kind.words d)).map fun j =>
    { entry := e, adr := (s.win r.window).drawAdr d (r.offset + j) }

/-- The fetch plan of the frame, entries in slot order (R112). -/
def State.planOf (s : State) (x : Fin 6) (l : OutLane) : List PlanWord :=
  (s.slotOrder x).flatMap (s.entryPlan l)

/-- The fetch for an entry is urgent once the lane has begun the slot before the entry's first slot
(R78): with first slot Dd at position d + 4, that is position d + 3. `begun` counts the positions
begun, so position d + 3 has begun when `begun` is above d + 3. -/
def State.urgentFor (s : State) (l : OutLane) (p : PlanWord) : Bool :=
  decide ((s.entry p.entry).slot + 3 < l.begun)

/-- The lane requests the next word of its plan when R113 lets it. -/
def State.tryFetch (s : State) (x : Fin 6) : State :=
  let l := s.out x
  match l.plan with
  | [] => s
  | p :: ps =>
    if l.st = .sending ∧ l.asked = none ∧ s.listed (.outLane x) = false ∧
        s.inProgress (.outLane x) = false ∧ l.fetch.length < Config.fetchPlaces then
      (s.modOut x fun l => { l with plan := ps, asked := some p }).join
        { who := .outLane x, write := false, adr := p.adr, be := 0xF, data := 0
          urgent := s.urgentFor l p }
    else s

/-- The lane marks its request urgent in the event that begins the slot before its entry (R78). -/
def State.markUrgent (s : State) (x : Fin 6) : State :=
  match (s.out x).asked with
  | some p =>
    if s.urgentFor (s.out x) p then
      { s with requests := s.requests.map fun r =>
          if r.who = .outLane x then { r with urgent := true } else r }
    else s
  | none => s

/-- A fetched word joins the fetch buffer, and the next request may follow (R113). -/
def State.laneWord (s : State) (x : Fin 6) (word : Word) : State :=
  match (s.out x).asked with
  | some p =>
    (s.modOut x fun l => { l with asked := none, fetch := l.fetch ++ [(p.entry, word)] }).tryFetch x
  | none => s.tryFetch x

/-! ### The frame start (R111) -/

/-- A half is sent in the position that begins, and fed to the frame's CRC (R117). -/
def OutLane.send (h : Half) (l : OutLane) : OutLane := { l with line := some h, crc := crcHalf l.crc h }

/-- Steps 1 to 3 of a frame start (R111): number, frame time, header flags. -/
def OutLane.openFrame (now : Word) (fly : Bool) (l : OutLane) : OutLane :=
  { l with
    frameNo := l.frameNo + 1
    frameTime := now
    flags := { flywheel := fly, prevCut := l.cutMark, prevUnder := l.underMark }
    cutMark := false
    underMark := false }

/-- Steps 5 and 6 of a frame start (R111): the plan, an empty fetch buffer, SENDING, and position 0,
which sends H0 (R114). -/
def OutLane.beginFrame (plan : List PlanWord) (l : OutLane) : OutLane :=
  OutLane.send l.frameNo
    { l with st := .sending, plan := plan, asked := none, fetch := [], begun := 1, crc := crcInit
             tail := none }

/-- A frame start (R111). The holds of step 4 fall on buffers of different windows, so that the
decisions can be taken together before them. -/
def State.frameStart (s : State) (x : Fin 6) (fly : Bool) : State :=
  let s1 := s.modOut x (OutLane.openFrame s.timeBase fly)
  let draws := (s1.carried x).map s1.drawFor
  let s2 := (draws.foldl (fun t c => t.holdFor x c) s1).modOut x fun l => { l with draws := draws }
  (s2.modOut x (OutLane.beginFrame (s2.planOf x (s2.out x)))).tryFetch x

/-- Release every hold of the lane (R16). -/
def State.releaseLane (s : State) (x : Fin 6) : State := s.mapPools fun _ p => p.release (.lane x)

/-! ### Slots (R114–R117, R120, R132) -/

/-- H3 (R114, R198): the stale indicator of ordinal k at bit 8 + k, for the eight ordinals, and the
flags. -/
def OutLane.h3 (l : OutLane) : Half :=
  let ind := (List.range 8).foldl (fun h k =>
    if (l.draws[k]?).any (fun c => c.stale) then h ||| (1#16 <<< (8 + k)) else h) 0#16
  ind ||| BitVec.ofNat 16 (bit l.flags.flywheel + 2 * bit l.flags.prevCut + 4 * bit l.flags.prevUnder)

/-- The header halves H0 to H3 (R114). -/
def OutLane.headerHalf (l : OutLane) (j : Nat) : Half :=
  if j = 0 then l.frameNo
  else if j = 1 then hiHalf l.frameTime
  else if j = 2 then loHalf l.frameTime
  else l.h3

/-- The entry of the lane whose first slot is Dd (R115). -/
def State.entryAt (s : State) (x : Fin 6) (d : Nat) : Option Nat :=
  (s.slotOrder x).find? fun e => (s.entry e).slot == d

/-- An empty data position: the filler under FULL, nothing under GAPPED (R115, R116). -/
def State.emptySlot (s : State) (x : Fin 6) : State :=
  match (s.outRec x).clock with
  | .full => s.modOut x (OutLane.send (s.outRec x).filler)
  | .gapped => s.modOut x fun l => { l with line := none }

/-- An entry's value is sent from its first slot on: high half first for a two-slot kind (R115, R132). -/
def OutLane.sendValue (slots : Nat) (v : Word) (l : OutLane) : OutLane :=
  if slots = 2 then { l.send (hiHalf v) with tail := some (loHalf v) } else l.send (loHalf v)

/-- The entry's words are in the fetch buffer: it forms its value, counts a saturation, updates its
state and sends (R115, R132, R142). -/
def State.sendEntry (s : State) (x : Fin 6) (e : Nat) (words : List Word) : State :=
  let r := s.entry e
  let l := s.out x
  let v := r.form (l.drawOf r.window) words (s.entrySt e) (s.win r.window).decayShift
  (s.setEntrySt e v.state).modOut x fun l =>
    OutLane.sendValue r.kind.slots v.value
      { l with fetch := l.fetch.drop words.length
               saturations := if v.sat then sat8 l.saturations else l.saturations }

/-- The entry underruns (R120): filler in each of its slots, its fetch ended, the underrun counted, and
UNDERRUN raised at the frame's first. -/
def State.underrun (s : State) (x : Fin 6) (e : Nat) : State :=
  let r := s.entry e
  let l := s.out x
  let mine := l.asked.any fun p => p.entry == e
  let s1 := if mine then s.withdraw (.outLane x) else s
  let s2 := s1.modOut x fun l =>
    { OutLane.send (s.outRec x).filler l with
      tail := if r.kind.slots = 2 then some (s.outRec x).filler else none
      asked := if mine then none else l.asked
      plan := l.plan.filter fun p => p.entry != e
      fetch := l.fetch.filter fun p => p.1 != e
      underruns := sat8 l.underruns
      underMark := true }
  if l.underMark then s2
  else s2.raise .underrun (some x.val) (l.frameNo.setWidth 32) (num r.slot)

/-- Data position Dd begins (R115). -/
def State.dataSlot (s : State) (x : Fin 6) (d : Nat) : State :=
  let l := s.out x
  match l.tail with
  | some h => s.modOut x fun l => { OutLane.send h l with tail := none }
  | none =>
    match s.entryAt x d with
    | none => s.emptySlot x
    | some e =>
      let need := (s.entry e).kind.words (l.drawOf (s.entry e).window)
      let head := l.fetch.take need
      if head.length = need ∧ head.all (fun p => p.1 == e) = true then
        s.sendEntry x e (head.map (fun p => p.2))
      else s.underrun x e

/-- Position `j` begins: header, data or trailer (R114, R115, R117). -/
def State.position (s : State) (x : Fin 6) (j : Nat) : State :=
  if j < 4 then s.modOut x fun l => l.send (l.headerHalf j)
  else if j < (s.outRec x).slots + 4 then s.dataSlot x (j - 4)
  else s.modOut x fun l => { l with line := some l.crc }

/-- SLOT_BEGIN: the next position begins; the lane's request may turn urgent, and the next request
may follow (R78, R113, R115). -/
def State.slotBegin (s : State) (x : Fin 6) : State :=
  let j := (s.out x).begun
  (((s.modOut x fun l => { l with begun := j + 1 }).position x j).markUrgent x).tryFetch x

/-- The next position of the frame in progress begins now (R106). -/
def State.slotDue (s : State) (x : Fin 6) : Bool :=
  (s.out x).st == .sending && decide ((s.out x).begun < (s.outRec x).positions) &&
    s.timeBase == s.positionTime x (s.out x).begun

/-! ### The frame end and the cut (R119, R123) -/

/-- The frame in progress is over: lines at rest, plan exhausted, fetch buffer empty (R118, R119). The CRC
accumulator keeps its value until the next frame start sets it (log 6). -/
def OutLane.closeFrame (l : OutLane) : OutLane :=
  { l with begun := 0, draws := [], plan := [], asked := none, fetch := [], line := none, tail := none }

/-- The last bit of the trailer has been sent now (R106, R119). -/
def State.frameEndDue (s : State) (x : Fin 6) : Bool :=
  (s.out x).st == .sending && (s.out x).begun == (s.outRec x).positions &&
    s.timeBase == s.positionTime x (s.outRec x).positions

/-- A scheduled start is taken in RUN only (R107), and once start reached is yes: the first starts of the
MASTER lanes fall in the event at which the start instant is taken (R173, R178; log 19). -/
def State.masterDue (s : State) (x : Fin 6) : Bool :=
  s.dev == .run && s.startReached && (s.outRec x).timing == .master && (s.out x).nextStart == some s.timeBase &&
    ((s.out x).st == .waiting || (s.out x).st == .between)

/-- A scheduled start of a MASTER lane (R109). -/
def State.masterStart (s : State) (x : Fin 6) : State :=
  (s.modOut x fun l =>
    { l with nextStart := some (s.timeBase + BitVec.ofNat 32 (s.outRec x).period) }).frameStart x false

/-- The cut of the frame in progress, before the frame start that follows it (R123 steps 1 to 5). -/
def State.cutFrame (s : State) (x : Fin 6) : State :=
  let l := s.out x
  ((((s.withdraw (.outLane x)).releaseLane x).modOut x fun l =>
      { l.closeFrame with
        earlies := sat8 l.earlies
        cutMark := true
        pulse := { l.pulse with inRun := if l.flags.flywheel then false else l.pulse.inRun } }).raise
    .pulseEarly (some x.val) (l.frameNo.setWidth 32) (num l.begun))

/-! ### Pulse checks (R121, R122) -/

/-- The tolerance amount: floor(period × tolerance / 100) µs (R121). -/
def LaneRec.toleranceAmount (r : LaneRec) : Nat := r.period * r.tolerance / 100

/-- The interval is outside tolerance (R121). -/
def LaneRec.drifts (r : LaneRec) (interval : Nat) : Bool :=
  decide (interval + r.toleranceAmount < r.period) || decide (r.period + r.toleranceAmount < interval)

/-- The interval since the last pulse, modulo 2^32 (R121). -/
def State.sincePulse (s : State) (x : Fin 6) : Word :=
  s.timeBase - (s.out x).pulse.last.getD 0

/-- The drift check and the record of an active edge taken in BETWEEN or in SENDING (R121). -/
def State.pulseCheck (s : State) (x : Fin 6) : State :=
  let l := s.out x
  let drift := l.pulse.checked && (s.outRec x).drifts (s.sincePulse x).toNat
  let s1 := s.modOut x fun l =>
    { l with
      drifts := if drift then sat8 l.drifts else l.drifts
      pulse := { l.pulse with last := some s.timeBase, checked := true } }
  if drift then
    s1.raise .pulseDrift (some x.val) ((l.frameNo + 1).setWidth 32) (s.sincePulse x)
  else s1

/-- The flywheel deadline after a frame start by an active edge: period + floor(period / 4) (R122). -/
def State.edgeDeadline (s : State) (x : Fin 6) : State :=
  s.modOut x fun l =>
    { l with pulse := { l.pulse with
        deadline := some (s.timeBase +
          BitVec.ofNat 32 ((s.outRec x).period + (s.outRec x).period / 4)) } }

/-- The frame start an active edge causes, with the new deadline (R110, R122). -/
def State.edgeStart (s : State) (x : Fin 6) : State := (s.edgeDeadline x).frameStart x false

/-- An active edge on a FOLLOWER lane (R110, R121–R123). -/
def State.activeEdge (s : State) (x : Fin 6) : State :=
  match (s.out x).st with
  | .idle => s
  | .waiting =>
    if s.startReached then
      (s.modOut x fun l =>
        { l with pulse := { l.pulse with last := some s.timeBase, checked := true } }).edgeStart x
    else s
  | .between =>
    ((s.pulseCheck x).modOut x fun l =>
      { l with pulse := { l.pulse with inRun := false } }).edgeStart x
  | .sending => if s.dev = .run then ((s.pulseCheck x).cutFrame x).edgeStart x else s

/-- The flywheel deadline is reached in RUN with the FOLLOWER lane BETWEEN (R122). -/
def State.flywheelDue (s : State) (x : Fin 6) : Bool :=
  s.dev == .run && (s.outRec x).timing == .follower && (s.out x).st == .between &&
    (s.out x).pulse.deadline == some s.timeBase

/-- A flywheel start (R122): the frame start, the count, and FLYWHEEL at the first of a run. -/
def State.flywheel (s : State) (x : Fin 6) : State :=
  let first := !(s.out x).pulse.inRun
  let s1 := (s.modOut x fun l =>
    { l with
      flywheels := sat8 l.flywheels
      pulse := { l.pulse with
        checked := if first then false else l.pulse.checked
        inRun := true
        deadline := some (s.timeBase + BitVec.ofNat 32 (s.outRec x).period) } }).frameStart x true
  if first then
    s1.raise .flywheel (some x.val) ((s1.out x).frameNo.setWidth 32) (s.sincePulse x)
  else s1

/-! ### START and STOP (R125, R126) -/

/-- An outbound lane at RUN entry (R108, R126). -/
def OutLane.start (r : LaneRec) (instant : Word) : OutLane :=
  if r.enabled then
    { OutLane.zero with
      st := .waiting
      nextStart := match r.timing with
        | .master => some instant
        | .follower => none }
  else OutLane.zero

/-- An outbound lane at a STOP taken in RUN (R108, R125); the CRC accumulator keeps its value (log 6). -/
def OutLane.stop (l : OutLane) : OutLane :=
  match l.st with
  | .idle => l
  | .sending => { l with nextStart := none, pulse := PulseCheck.zero }
  | .waiting => { l with st := .idle, nextStart := none, pulse := PulseCheck.zero }
  | .between => { l with st := .idle, nextStart := none, pulse := PulseCheck.zero }

end Sys2Proof.Machine
end

