-- ==== Sys2Proof/Machine/Profile.lean ====
section
/-! DEFINITION. The profile image (R196, R197) and its twelve checks (R145, R146, R169, R170). -/

namespace Sys2Proof.Machine

/-! ### Fields of image words (chapter 11) -/

/-- `n` bits of a word from bit `lo`, as a number. -/
def bitsOf (w : Word) (lo n : Nat) : Nat := (w.toNat / 2 ^ lo) % 2 ^ n

/-- A profile image: the words of the shadow copy. -/
abbrev Image := List Word

/-- Word `j` of an image. -/
def Image.word (im : Image) (j : Nat) : Word := im.getD j 0

/-- Journal mode codes (R196). -/
def jmodeOf : Nat → JMode
  | 0 => .off
  | 1 => .continuous
  | 2 => .triggered
  | _ => .unassigned

/-- The header (R196). -/
def Image.header (im : Image) : Header :=
  { imageLength := bitsOf (im.word 0) 0 16
    windowCount := bitsOf (im.word 2) 16 16
    entryCount := bitsOf (im.word 2) 0 16
    startDelay := bitsOf (im.word 3) 0 16
    ringAddr := (im.word 4).toNat
    capacity := bitsOf (im.word 5) 0 16
    mode := jmodeOf (bitsOf (im.word 5) 16 2)
    full := if (im.word 5).getLsbD 18 then .halt else .rollover
    trigger := bitsOf (im.word 5) 24 5
    selected := (im.word 6).setWidth 18
    mask := (im.word 7).setWidth 17 }

/-- Format version (R196). -/
def Image.version (im : Image) : Nat := bitsOf (im.word 0) 16 16

/-- The CRC value of the checksum word (R196). -/
def Image.checksum (im : Image) : Half := loHalf (im.word 1)

/-- Writer codes (R193, R197). -/
def writerOf : Nat → Writer
  | 0 => .host
  | 1 => .i0
  | 2 => .i1
  | _ => .unassigned

/-- Stale policy codes (R197). -/
def policyOf : Nat → Policy
  | 0 => .hold
  | 1 => .neutral
  | 2 => .decay
  | _ => .unassigned

/-- Stale group codes (R197). -/
def groupOf : Nat → Group
  | 0 => .none
  | 1 => .member 0
  | 2 => .member 1
  | 3 => .member 2
  | 4 => .member 3
  | _ => .unassigned

/-- The window record at image word `b` (R197). -/
def Image.windowRec (im : Image) (b : Nat) : WindowRec :=
  let w := im.word b
  { enabled := w.getLsbD 31
    writer := writerOf (bitsOf w 28 2)
    mode := if w.getLsbD 27 then .carry else .strict
    policy := policyOf (bitsOf w 24 2)
    group := groupOf (bitsOf w 20 3)
    sizeCode := Fin.ofNat 8 (bitsOf w 16 3)
    bufferCount := bitsOf w 8 4
    decayShift := bitsOf w 0 3
    logicalBase := (im.word (b + 1)).toNat
    payloadLength := bitsOf (im.word (b + 2)) 0 16
    timeout := bitsOf (im.word (b + 2)) 16 16
    bufferBase := (im.word (b + 3)).toNat
    neutralAddress := (im.word (b + 4)).toNat }

/-- The lane record at image word `b` (R197). -/
def Image.laneRec (im : Image) (b : Nat) : LaneRec :=
  let w := im.word b
  { enabled := w.getLsbD 31
    timing := if w.getLsbD 30 then .follower else .master
    edge := if w.getLsbD 29 then .falling else .rising
    clock := if w.getLsbD 28 then .gapped else .full
    rate := Fin.ofNat 4 (bitsOf w 24 2)
    tolerance := bitsOf w 16 7
    slots := bitsOf w 0 7
    period := bitsOf (im.word (b + 1)) 0 20
    filler := loHalf (im.word (b + 2))
    first := bitsOf (im.word (b + 3)) 16 8
    count := bitsOf (im.word (b + 3)) 0 8 }

/-- Entry kind codes (R197). -/
def kindOf : Nat → EntryKind
  | 0 => .pass16
  | 1 => .pass32
  | 2 => .scaleLeft
  | 3 => .scaleRightLogical
  | 4 => .scaleRightFloor
  | 5 => .scaleRightRound
  | 6 => .span
  | 7 => .delta
  | 8 => .test
  | 9 => .stamp
  | 10 => .seq
  | 11 => .store16
  | 12 => .store32
  | _ => .unassigned

/-- The entry record at image word `b` (R197). -/
def Image.entryRec (im : Image) (b : Nat) : EntryRec :=
  let w := im.word b
  { kind := kindOf (bitsOf w 28 4)
    window := Fin.ofNat 16 (bitsOf w 24 4)
    high := w.getLsbD 22
    slot := bitsOf w 16 6
    offset := bitsOf (im.word (b + 1)) 0 10
    param := bitsOf (im.word (b + 1)) 16 6
    const := im.word (b + 2) }

/-- Window Wn of the image; from the window count upward a record that is not enabled (R169, R196). R169
leaves that record's other fields open; the model makes each of them 0 (log 30, a DESIGN CHOICE). -/
def Image.window (im : Image) (n : Nat) : WindowRec :=
  if n < im.header.windowCount then im.windowRec (8 + 8 * n) else WindowRec.zero

/-- Lane record m of the image (R196). -/
def Image.lane (im : Image) (m : Nat) : LaneRec :=
  im.laneRec (8 + 8 * im.header.windowCount + 8 * m)

/-- Entry e of the image; from the entry count upward 0 in every field (R128, R196). -/
def Image.entry (im : Image) (e : Nat) : EntryRec :=
  if e < im.header.entryCount then im.entryRec (72 + 8 * im.header.windowCount + 3 * e)
  else EntryRec.zero

/-- The window table of an image (R172). -/
def Image.windowTable (im : Image) : Vector WindowRec 16 := Vector.ofFn fun n => im.window n.val

/-- The lane table of an image (R172). -/
def Image.laneTable (im : Image) : Vector LaneRec 8 := Vector.ofFn fun m => im.lane m.val

/-- The slot entry table of an image (R128, R172). -/
def Image.entryTable (im : Image) : Vector EntryRec 256 := Vector.ofFn fun e => im.entry e.val

/-! ### Areas (R170) -/

/-- A range of byte addresses: from `lo`, `len` bytes. A range of no bytes overlaps nothing (log 17). -/
structure Area where
  lo : Nat
  len : Nat
deriving DecidableEq, Repr

/-- The two ranges share a byte. -/
def Area.overlaps (a b : Area) : Bool :=
  decide (0 < a.len) && decide (0 < b.len) && decide (a.lo < b.lo + b.len) &&
    decide (b.lo < a.lo + a.len)

/-- The range begins and lies within `lo` to `hi` − 1; one of no bytes still begins there (R1, R197). -/
def Area.inside (a : Area) (lo hi : Nat) : Bool :=
  decide (lo ≤ a.lo) && decide (a.lo < hi) && decide (a.lo + a.len ≤ hi)

/-- The range lies in the host's half of cue memory. -/
def Area.inHost (a : Area) : Bool := a.inside 0 Config.hostSpace

/-- A window's logical range (R3). -/
def WindowRec.logical (r : WindowRec) : Area := { lo := r.logicalBase, len := r.size }

/-- A window's neutral record (R8). -/
def WindowRec.neutral (r : WindowRec) : Area := { lo := r.neutralAddress, len := 4 * r.payloadLength }

/-- A window's buffer area (R6). -/
def WindowRec.bufferArea (r : WindowRec) : Area := { lo := r.bufferBase, len := r.bufferCount * r.size }

/-- The control area (R53). -/
def controlArea (base : Nat) : Area := { lo := base, len := 0x100 }

/-- The image being loaded (R170). -/
def Image.area (im : Image) (base : Nat) : Area :=
  { lo := base + 0x100, len := 4 * im.header.imageLength }

/-- The journal ring (R54). -/
def Header.ring (h : Header) : Area := { lo := h.ringAddr, len := 16 * h.capacity }

/-- Clear of the control area, the image, and the ring when the mode is not OFF (R170 check 4). -/
def Image.clearOf (im : Image) (base : Nat) (a : Area) : Bool :=
  !a.overlaps (controlArea base) && !a.overlaps (im.area base) &&
    (im.header.mode == .off || !a.overlaps im.header.ring)

/-- The enabled windows other than Wn whose range `f` the area overlaps: is there one? -/
def Image.hits (im : Image) (n : Nat) (self : Bool) (f : WindowRec → Area) (a : Area) : Bool :=
  (List.range 16).any fun m =>
    (self || m != n) && (im.window m).enabled && a.overlaps (f (im.window m))

/-! ### Checks 1 to 7 (R169, R170) -/

/-- Check 2: header ranges (R169). -/
def Image.headerRanges (im : Image) : Bool :=
  let h := im.header
  decide (h.windowCount ≤ 16) && decide (h.entryCount ≤ 256) && decide (h.startDelay ≤ 1000) &&
    h.imageLength == 8 + 8 * h.windowCount + 64 + 3 * h.entryCount

/-- Check 4 for one enabled window (R170). -/
def Image.addressAreas (im : Image) (base n : Nat) : Bool :=
  let r := im.window n
  r.logicalBase % r.size == 0 && r.logical.inHost && !im.hits n false WindowRec.logical r.logical &&
    im.clearOf base r.logical && !im.hits n true WindowRec.neutral r.logical &&
    r.neutralAddress % 4 == 0 && r.neutral.inHost && im.clearOf base r.neutral

/-- Check 5 for one enabled window (R170). -/
def Image.bufferAreas (im : Image) (n : Nat) : Bool :=
  let r := im.window n
  r.bufferBase % r.size == 0 && r.bufferArea.inside Config.hostSpace Config.memSpace &&
    !im.hits n false WindowRec.bufferArea r.bufferArea

/-- Check 6 for one enabled window: every field of R1 within its range (R170). -/
def WindowRec.fieldsOk (r : WindowRec) : Bool :=
  decide (r.sizeCode.val ≤ 6) && decide (1 ≤ r.payloadLength) &&
    decide (r.payloadLength ≤ r.size / 4 - 2) && r.writer != .unassigned &&
    decide (3 ≤ r.bufferCount) && decide (r.bufferCount ≤ 8) && decide (r.timeout ≤ 9999) &&
    r.group != .unassigned && r.policy != .unassigned && decide (1 ≤ r.decayShift) &&
    decide (r.decayShift ≤ 7) && decide (r.logicalBase < Config.hostSpace) &&
    r.neutralAddress % 4 == 0 && decide (r.neutralAddress < Config.hostSpace) &&
    decide (Config.hostSpace ≤ r.bufferBase) && decide (r.bufferBase < Config.memSpace)

/-- The lowest-numbered enabled window that does not pass a test (R170). -/
def Image.badWindow (im : Image) (ok : Nat → Bool) : Option Nat :=
  (List.range 16).find? fun n => (im.window n).enabled && !ok n

/-- Check 7 for one enabled window: an inbound writer is an enabled lane (R170). -/
def Image.writerOk (im : Image) (n : Nat) : Bool :=
  match (im.window n).inLane with
  | some y => (im.lane (6 + y.val)).enabled
  | none => true

/-- The enabled windows an inbound lane writes. -/
def Image.writtenBy (im : Image) (y : Fin 2) : List Nat :=
  (List.range 16).filter fun n => (im.window n).enabled && (im.window n).inLane == some y

/-- Check 7 (R170): windows first, then inbound lanes as 16 + y. -/
def Image.badWriter (im : Image) : Option Nat :=
  match im.badWindow im.writerOk with
  | some n => some n
  | none =>
    (allIns.find? fun y => (im.lane (6 + y.val)).enabled && (im.writtenBy y).length != 1).map
      fun y => 16 + y.val

/-! ### Check 8: entries (R145, R146) -/

/-- An outbound kind (R128). -/
def EntryKind.outbound : EntryKind → Bool
  | .store16 => false
  | .store32 => false
  | .unassigned => false
  | _ => true

/-- An inbound kind (R128). -/
def EntryKind.inbound : EntryKind → Bool
  | .store16 => true
  | .store32 => true
  | _ => false

/-- The entries of a lane that the image holds, in index order. -/
def Image.entriesOf (im : Image) (r : LaneRec) : List Nat :=
  r.runOf.filter fun e => decide (e < im.header.entryCount)

/-- Entry `e` shares a data slot with another entry of its lane (R145, R146). -/
def Image.collides (im : Image) (r : LaneRec) (e : Nat) : Bool :=
  let a : Area := { lo := (im.entry e).slot, len := (im.entry e).kind.slots }
  (im.entriesOf r).any fun f =>
    f != e && a.overlaps { lo := (im.entry f).slot, len := (im.entry f).kind.slots }

/-- The entry's slots lie within the lane's data slot count (R145, R146). -/
def Image.slotsFit (im : Image) (r : LaneRec) (e : Nat) : Bool :=
  decide ((im.entry e).slot + (im.entry e).kind.slots ≤ r.slots)

/-- The word offset lies in the window's payload (R128, R145, R197). -/
def Image.offsetOk (im : Image) (e : Nat) : Bool :=
  let r := im.entry e
  let len := (im.window r.window.val).payloadLength
  match r.kind with
  | .stamp => true
  | .seq => true
  | .span => decide (r.offset + 1 < len)
  | .pass32 => decide (r.offset + 1 < len)
  | _ => decide (r.offset < len)

/-- The parameter lies in its range (R145). -/
def EntryRec.paramOk (r : EntryRec) : Bool :=
  match r.kind with
  | .scaleLeft => decide (r.param ≤ 31)
  | .scaleRightLogical => decide (r.param ≤ 31)
  | .scaleRightFloor => decide (r.param ≤ 31)
  | .scaleRightRound => decide (r.param ≤ 31)
  | .span => decide (r.param ≤ 48)
  | .test => decide (r.param ≤ 7)
  | _ => true

/-- An entry of an outbound lane's run (R145). -/
def Image.outEntryOk (im : Image) (r : LaneRec) (e : Nat) : Bool :=
  (im.entry e).kind.outbound && (im.window (im.entry e).window.val).enabled && im.slotsFit r e &&
    !im.collides r e && im.offsetOk e && (im.entry e).paramOk

/-- An entry of an inbound lane's run (R146; word offset R128, R197, log 16). -/
def Image.inEntryOk (im : Image) (y : Fin 2) (r : LaneRec) (e : Nat) : Bool :=
  (im.entry e).kind.inbound && (im.window (im.entry e).window.val).enabled &&
    (im.window (im.entry e).window.val).inLane == some y && im.slotsFit r e && !im.collides r e &&
    im.offsetOk e

/-- The entry is in the run of an enabled lane before lane m of the table (R146). -/
def Image.taken (im : Image) (m e : Nat) : Bool :=
  (List.range m).any fun j => (im.lane j).enabled && decide (e ∈ (im.lane j).runOf)

/-- Entry `e` of lane m's run passes check 8 (R145, R146). -/
def Image.entryOk (im : Image) (m e : Nat) : Bool :=
  decide (e < 256) && decide (e < im.header.entryCount) && !im.taken m e &&
    (if m < 6 then im.outEntryOk (im.lane m) e
     else im.inEntryOk (Fin.ofNat 2 (m - 6)) (im.lane m) e)

/-- Check 8 for lane m (R145, R146, R170): the first failing entry of its run in index order. A run of no
entries that begins above the entry count breaks the bound of R146 on first entry + entry count too; it
fails at its first entry (log 16). -/
def Image.badRun (im : Image) (m : Nat) : Option Nat :=
  let r := im.lane m
  match r.runOf.find? fun e => !im.entryOk m e with
  | some e => some e
  | none => if im.header.entryCount < r.first + r.count then some r.first else none

/-- Check 8 (R170): the lanes in table order. -/
def Image.badEntry (im : Image) : Option Nat :=
  (List.range 8).findSome? fun m => if (im.lane m).enabled then im.badRun m else none

/-! ### Checks 9 to 12 (R170) -/

/-- The windows named by a lane's entries, each once (R130). -/
def Image.windowsOf (im : Image) (m : Nat) : List (Fin 16) :=
  (im.entriesOf (im.lane m)).foldl (fun l e => addWindow l (im.entry e).window) []

/-- Check 9 (R170): a lane that carries more than 8 windows. -/
def Image.badCarrier (im : Image) : Option Nat :=
  (List.range 6).find? fun m => (im.lane m).enabled && decide (8 < (im.windowsOf m).length)

/-- An enabled outbound lane's fields within the ranges of R105, and the frame fit (R106, R170). -/
def LaneRec.outOk (r : LaneRec) : Bool :=
  decide (100 ≤ r.period) && decide (r.period ≤ 100000) &&
    (r.timing == .master || (decide (1 ≤ r.tolerance) && decide (r.tolerance ≤ 25))) &&
    decide (1 ≤ r.slots) && decide (r.slots ≤ 64) && decide (1 ≤ r.count) && decide (r.count ≤ 64) &&
    decide (10 * (r.slots + 5) * 16 ≤ 9 * r.period * 2 ^ r.rate.val)

/-- An enabled inbound lane's fields within the ranges of R148. -/
def LaneRec.inOk (r : LaneRec) : Bool :=
  decide (1 ≤ r.slots) && decide (r.slots ≤ 64) && decide (1 ≤ r.count) && decide (r.count ≤ 64)

/-- Check 10 (R170). -/
def Image.badLane (im : Image) : Option Nat :=
  (List.range 8).find? fun m =>
    (im.lane m).enabled && !(if m < 6 then (im.lane m).outOk else (im.lane m).inOk)

/-- How many of a lane's entries write one half of payload word `i` (R146). -/
def Image.writesOf (im : Image) (m i : Nat) (high : Bool) : Nat :=
  ((im.entriesOf (im.lane m)).filter fun e =>
    (im.entry e).offset == i &&
      ((im.entry e).kind == .store32 || ((im.entry e).kind == .store16 && (im.entry e).high == high))).length

/-- Inbound coverage of lane Iy: every half of every payload word is written exactly once (R146). -/
def Image.covers (im : Image) (y : Fin 2) : Bool :=
  (im.writtenBy y).all fun n =>
    (List.range (im.window n).payloadLength).all fun i =>
      im.writesOf (6 + y.val) i false == 1 && im.writesOf (6 + y.val) i true == 1

/-- Check 11 (R170). -/
def Image.badCoverage (im : Image) : Option Nat :=
  (allIns.find? fun y => (im.lane (6 + y.val)).enabled && !im.covers y).map fun y => 6 + y.val

/-- Check 12 (R170). -/
def Image.journalOk (im : Image) (base : Nat) : Bool :=
  let h := im.header
  h.mode == .off ||
    (h.mode != .unassigned && decide (16 ≤ h.capacity) && decide (h.capacity ≤ 4096) &&
      h.ringAddr % 16 == 0 && h.ring.inHost && !h.ring.overlaps (controlArea base) &&
      !h.ring.overlaps (im.area base) && (h.mode != .triggered || decide (h.trigger ≤ 17)))

/-! ### The checks in order -/

/-- A check that fails with a record index, if it fails. -/
def failing (check : Nat) (index : Option Nat) : Option LoadError :=
  index.map fun i => { check := check, index := i }

/-- A check without records. -/
def failingUnless (check : Nat) (ok : Bool) : Option LoadError :=
  if ok then none else some { check := check, index := 0 }

/-- Checks 1 and 2, at the end of the HEADER phase (R169). -/
def Image.headerError (im : Image) : Option LoadError :=
  (failingUnless 1 (im.version == 1)).or (failingUnless 2 im.headerRanges)

/-- Checks 3 to 12, at the end of the BODY phase (R169, R170). -/
def Image.bodyError (im : Image) (base : Nat) (crc : Half) : Option LoadError :=
  (failingUnless 3 (crc == im.checksum)).or <|
  (failing 4 (im.badWindow (im.addressAreas base))).or <|
  (failing 5 (im.badWindow im.bufferAreas)).or <|
  (failing 6 (im.badWindow fun n => (im.window n).fieldsOk)).or <|
  (failing 7 im.badWriter).or <|
  (failing 8 im.badEntry).or <|
  (failing 9 im.badCarrier).or <|
  (failing 10 im.badLane).or <|
  (failing 11 im.badCoverage).or <|
  failingUnless 12 (im.journalOk base)

end Sys2Proof.Machine
end

