-- ==== Sys2Proof/Machine/RunControl.lean ====
section
/-! DEFINITION. Run control (chapter 9): START, STOP, the load and its end, RUN entry, SETUP entry, the
reset pin and the time base; the commands about them. -/

namespace Sys2Proof.Machine

/-! ### SETUP entry and STOP (R174, R175) -/

/-- No outbound lane is in the sending set (R174). -/
def State.sendingEmpty (s : State) : Bool := s.sending == Vector.replicate 6 false

/-- SETUP entry after a STOP taken in RUN (R25, R174). -/
def State.setupEntry (s : State) : State :=
  ({ s with dev := .setup, startReached := false }.mapPools fun _ p => p.teardown).raiseStopped
    (num DevState.run.code) (num s.stopLanes)

/-- The staleness record and the pool of one window at a STOP taken in RUN (R25, R41, R104). -/
def Pool.stopRun (p : Pool) : Pool := { p.stop with timer := none, ownMark := false }

/-- Requesters that withdraw at a STOP taken in RUN: copy-forward jobs and inbound lanes (R41, R85,
R161). -/
def stopWithdraws : Requester → Bool
  | .copyJob _ => true
  | .inLane _ => true
  | .host => false
  | .outLane _ => false
  | .load => false
  | .journal => false

/-- The lanes that are SENDING (R174). -/
def State.sendingNow (s : State) : Vector Bool 6 := Vector.ofFn fun x => (s.out x).st == .sending

/-- How many lanes a set holds. -/
def laneCount (v : Vector Bool 6) : Nat := (allOuts.filter fun x => v[x]).length

/-- The work of every block at a STOP taken in RUN, before a SETUP entry that may follow (R174 steps 1
to 3). -/
def State.stopBlocks (s : State) : State :=
  { (s.withdrawBy stopWithdraws).mapPools (fun _ p => p.stopRun) with
    dev := .stopping
    sending := s.sendingNow
    stopLanes := laneCount s.sendingNow
    outs := Vector.ofFn fun x : Fin 6 => (s.out x).stop
    ins := Vector.ofFn fun y : Fin 2 => (s.inl y).stop }

/-- A STOP taken in RUN (R174). -/
def State.stopRun (s : State) : State :=
  if s.stopBlocks.sendingEmpty then s.stopBlocks.setupEntry else s.stopBlocks

/-- A STOP taken in LOADING abandons the load (R175). -/
def State.stopLoad (s : State) : State :=
  { s.withdraw .load with load := none, dev := .setup }.raiseStopped (num DevState.loading.code) 0

/-- A STOP request, by the device state that finds it (R166). -/
def State.stop (s : State) : State :=
  let s1 := { s with outcome := .done }
  match s.dev with
  | .run => s1.stopRun
  | .loading => s1.stopLoad
  | .setup => s1
  | .stopping => s1

/-! ### START and the load (R166–R171) -/

/-- The load job requests image word `j` (R168). -/
def State.requestImage (s : State) (j : Nat) : State :=
  s.join { who := .load, write := false, adr := memAdr (s.base + 0x100 + 4 * j), be := 0xF, data := 0
           urgent := false }

/-- The load job at its creation (R167). -/
def LoadJob.fresh : LoadJob :=
  { phase := .header, index := 0, length := none, crc := crcInit, shadow := [] }

/-- A START request, by the device state that finds it (R166, R167). -/
def State.start (s : State) : State :=
  if s.dev = .setup then
    { s with outcome := .done, dev := .loading, load := some LoadJob.fresh }.requestImage 0
  else { s with outcome := .refused }

/-- The end of a load with a failed check (R171). -/
def State.loadFailed (s : State) (e : LoadError) : State :=
  { s with load := none, loadErr := e, dev := .setup }.raise .loadFailed none (num e.check)
    (num e.index)

/-- The start instant: the smallest multiple of 1,000 at or after the time base plus the start delay,
reduced modulo 2^32 (R173). -/
def startInstantOf (now : Word) (delay : Nat) : Word :=
  BitVec.ofNat 32 ((now.toNat + delay * 1000 + 999) / 1000 * 1000)

/-- A buffer at RUN entry (R24): FREE, with no holder and an empty map. The sequence and the frame time
stay until the buffer's next allocation (R10). -/
def Buffer.clear (b : Buffer) : Buffer := { Buffer.zero with seq := b.seq, time := b.time }

/-- What WU, CE and SM keep of a window at RUN entry (R12, R24, R41, R86). -/
def Pool.start (p : Pool) (r : WindowRec) (deadline : Word) : Pool :=
  let q := { Pool.zero with
    bufs := (p.mapBufs Buffer.clear).bufs
    timer := if r.enabled && decide (0 < r.timeout) then some deadline else none }
  if r.isHost then q.modBuf 0 Buffer.allocate else q

/-- The group table of a window table (R87). -/
def groupTable (ws : Vector WindowRec 16) : Vector (Vector Bool 16) 4 :=
  Vector.ofFn fun g => Vector.ofFn fun w : Fin 16 => ws[w].enabled && ws[w].group == .member g

/-- The active profile is replaced by the shadow copy (R172 steps 1 to 3). -/
def State.adopt (s : State) (im : Image) : State :=
  { s with
    header := im.header
    windows := im.windowTable
    lanes := im.laneTable
    entries := im.entryTable
    load := none
    loadErr := { check := 0, index := 0 }
    dev := .run
    startInstant := startInstantOf s.timeBase im.header.startDelay
    startReached := false
    sending := Vector.replicate 6 false }

/-- Every block takes its successful START values from the new tables (R172 step 4). -/
def State.startBlocks (s : State) : State :=
  { s with
    pools := Vector.ofFn fun w => Pool.start (s.pool w) (s.win w) (s.deadline (s.win w).timeout)
    groups := groupTable s.windows
    copyPtr := 0
    outs := Vector.ofFn fun x => OutLane.start (s.outRec x) s.startInstant
    entryState := Vector.replicate 256 EntryState.zero
    ins := Vector.ofFn fun y => InLane.start (s.inRec y) }.startJournal

/-- The start instant is reached in the RUN entry event: start reached becomes yes and each enabled
MASTER lane takes its first frame start (R173). -/
def State.startAtEntry (s : State) : State :=
  if s.startInstant = s.timeBase then
    allOuts.foldl (fun t x => if t.masterDue x then t.masterStart x else t)
      { s with startReached := true }
  else s

/-- RUN entry (R172, R173). -/
def State.runEntry (s : State) (im : Image) : State :=
  let s1 := (s.adopt im).startBlocks
  (s1.raise .runStarted none s1.startInstant (num im.header.imageLength)).startAtEntry

/-- A load read is performed: the word joins the shadow copy and the CRC; the phase goes on, or its
checks are taken (R168, R169). -/
def State.loadWord (s : State) (word : Word) : State :=
  match s.load with
  | none => s
  | some j =>
    let im := j.shadow ++ [word]
    let crc := if j.index = 1 then j.crc else crcWord j.crc word
    let next (phase : LoadPhase) (length : Option Nat) : State :=
      { s with load := some { phase := phase, index := j.index + 1, length := length, crc := crc
                              shadow := im } }.requestImage (j.index + 1)
    match j.phase with
    | .header =>
      if j.index < 7 then next .header none
      else match Image.headerError im with
        | some e => s.loadFailed e
        | none => next .body (some (Image.header im).imageLength)
    | .body =>
      if j.index + 1 < j.length.getD 0 then next .body j.length
      else match Image.bodyError im s.base crc with
        | some e => s.loadFailed e
        | none => s.runEntry im

/-! ### Lane reports (R125, R174) -/

/-- An outbound lane has reached IDLE at its frame end in STOPPING (R174). -/
def State.laneIdle (s : State) (x : Fin 6) : State :=
  let s1 := { s with sending := s.sending.set x false }
  if s1.sendingEmpty then s1.setupEntry else s1

/-- The frame end of a lane (R119). -/
def State.frameEnd (s : State) (x : Fin 6) : State :=
  let s1 := s.releaseLane x
  if s.dev = .stopping then
    (s1.modOut x fun l => { l.closeFrame with st := .idle }).laneIdle x
  else s1.modOut x fun l => { l.closeFrame with st := .between }

/-! ### The reset pin and the time base (R52, R85, R163, R176, R177) -/

/-- A read that SU had taken, or that waits at the port, is completed to the host with 0 (R52). -/
def State.readHeld (s : State) : Bool :=
  match s.su, s.waiting with
  | .reading _ _ _, _ => true
  | _, some (.read _ _) => true
  | _, _ => false

/-- The assertion of RST# (R177): every block takes its reset pin values; the profile base is kept
(R163); an access in progress completes at the port and is reported to no requester (R85, log 7). -/
def State.pinReset (s : State) : State :=
  { State.reset with
    pending := s.pending
    rst := true
    straps := s.straps
    readData := if s.readHeld then 0 else s.readData
    mem := match s.port with
      | some a => s.mem.perform a.req
      | none => s.mem }

/-- RESET_PIN. -/
def execResetPin (s : State) : Out := if s.rst then .next s else .next s.pinReset

/-- The release of RST# (R163, R176, R177): the straps are sampled, the time base begins from 0, and a
write presented meanwhile joins the queue; a read presented meanwhile waits to be taken. -/
def State.release (s : State) (straps : BitVec 2) : State :=
  match s.waiting with
  | some (.write x) =>
    { s with rst := false, straps := straps, timeBase := 0, queue := s.queue ++ [x], waiting := none }
  | _ => { s with rst := false, straps := straps, timeBase := 0 }

/-- RESET_RELEASE. -/
def execResetRelease (straps : BitVec 2) (s : State) : Out :=
  if s.rst then .next (s.release straps) else .next s

/-- TIME_BASE_TICK: the time base rises by 1, from FFFF_FFFFh to 0; it stays 0 while RST# is asserted
(R176, R177). -/
def execTimeBaseTick (s : State) : Out :=
  if s.rst then .next s else .next { s with timeBase := s.timeBase + 1 }

/-- START_INSTANT_REACHED: in RUN the time base reaches the start instant (R173). -/
def execStartInstantReached (s : State) : Out :=
  if !s.rst && s.dev == .run && !s.startReached && s.timeBase == s.startInstant then
    .next { s with startReached := true }
  else .next s

/-- TIMER_EXPIRY: the time base reaches the deadline of a window's timer (R88, R89). -/
def execTimerExpiry (w : Fin 16) (s : State) : Out :=
  if !s.rst && (s.pool w).timer == some s.timeBase then .next (s.expire w).arrivals else .next s

end Sys2Proof.Machine
end

