-- ==== Sys2Proof/Machine/Host.lean ====
section
/-! DEFINITION. The host port and the steering unit (chapter 3): the commands of the host and of SU. -/

namespace Sys2Proof.Machine

/-! ### Presenting a transfer (R49, R51, R177) -/

/-- A write presented at the port: it joins the queue, or waits while the queue is full or RST# is
asserted (R49, R177). -/
def State.presentWrite (s : State) (x : HostWrite) : State :=
  if !s.rst && decide (s.queue.length < Config.queuePlaces) then { s with queue := s.queue ++ [x] }
  else { s with waiting := some (.write x) }

/-- HOST_WRITE_PRESENTED. A host that is held presents nothing (R51). -/
def execHostWritePresented (adr : BitVec 21) (be : Enables) (data : Word) (s : State) : Out :=
  if s.hrdy then .next (s.presentWrite { adr := hostAdr adr, be := be, data := data }) else .next s

/-- HOST_READ_PRESENTED: the read waits, with HRDY inactive, until it is answered (R51). -/
def execHostReadPresented (adr : BitVec 21) (be : Enables) (s : State) : Out :=
  if s.hrdy then .next { s with waiting := some (.read (hostAdr adr) be) } else .next s

/-! ### Taking the head of the queue (R49, R50) -/

/-- The write SU can take: the head entry, when SU is free (R50). -/
def State.headWrite (s : State) : Option HostWrite :=
  if s.rst then none
  else if s.su = .free then s.queue.head? else none

/-- The head entry leaves the queue, and a write waiting at the port joins its tail (R49, R50). -/
def State.takeHead (s : State) : State :=
  match s.waiting with
  | some (.write x) => { s with queue := s.queue.tail ++ [x], waiting := none }
  | _ => { s with queue := s.queue.tail }

/-- SU hands a write to the memory arbiter as a host access and takes nothing else meanwhile (R50). -/
def State.handWrite (s : State) (x : HostWrite) (adr : MemAdr) (mark : Option PayloadRef) : State :=
  ({ s with su := .writing mark }.join
    { who := .host, write := true, adr := adr, be := x.be, data := x.data, urgent := false }).arrivals

/-- PASS_THROUGH_WRITE (R56, R58). -/
def execPassThroughWrite (s : State) : Out :=
  match s.headWrite with
  | some x =>
    if s.treatment x = .passThrough then .next (s.takeHead.handWrite x (physical x.adr) none)
    else .next s
  | none => .next s

/-- PAYLOAD_WRITE_STEERED (R59). -/
def execPayloadWriteSteered (s : State) : Out :=
  match s.headWrite with
  | some x =>
    match s.treatment x with
    | .steered w i =>
      match (s.pool w).find .filling with
      | some k =>
        .next (s.takeHead.handWrite x ((s.win w).payloadAdr k i) (some { w := w, k := k, i := i }))
      | none => .fault .noFillingBuffer
    | _ => .next s
  | none => .next s

/-- REFUSED_WRITE (R66). -/
def execRefusedWrite (s : State) : Out :=
  match s.headWrite with
  | some x =>
    match s.treatment x with
    | .refused r source =>
      .next (s.takeHead.raise .writeRefused source (num (HostAdr.byte x.adr)) (num r.code)).arrivals
    | _ => .next s
  | none => .next s

/-- CLOSE_REQUEST (R31, R32). -/
def execCloseRequest (s : State) : Out :=
  match s.headWrite with
  | some x =>
    match s.treatment x with
    | .close w => .next (s.takeHead.decideClose w x).arrivals
    | _ => .next s
  | none => .next s

/-- START (R68, R166). -/
def execStart (s : State) : Out :=
  match s.headWrite with
  | some x => if s.treatment x = .start then .next s.takeHead.start.arrivals else .next s
  | none => .next s

/-- STOP (R68, R166, R174, R175). -/
def execStop (s : State) : Out :=
  match s.headWrite with
  | some x => if s.treatment x = .stop then .next s.takeHead.stop.arrivals else .next s
  | none => .next s

/-- UNKNOWN_REQUEST (R68, R166). -/
def execUnknownRequest (s : State) : Out :=
  match s.headWrite with
  | some x =>
    if s.treatment x = .unknown then .next { s.takeHead with outcome := .unknown } else .next s
  | none => .next s

/-- ACKNOWLEDGE (R69, R180). -/
def execAcknowledge (s : State) : Out :=
  match s.headWrite with
  | some x =>
    if s.treatment x = .acknowledge then
      .next { s.takeHead with flags := s.flags &&& ~~~ ackNamed x.data x.be }
    else .next s
  | none => .next s

/-- CONTROL_WRITE_DROPPED (R70). -/
def execControlWriteDropped (s : State) : Out :=
  match s.headWrite with
  | some x => if s.treatment x = .dropped then .next s.takeHead else .next s
  | none => .next s

/-! ### Reads (R51, R61) -/

/-- The read SU can take: the one at the port, once the queue is empty and SU is free (R51). -/
def State.waitingRead (s : State) : Option (HostAdr × Enables) :=
  match s.waiting with
  | some (.read a be) => if s.rst = false ∧ s.su = .free ∧ s.queue = [] then some (a, be) else none
  | _ => none

/-- SU issues one memory read of a host read (R61). -/
def State.issueRead (s : State) (p : ReadPart) (rest : List ReadPart) (acc : Word) : State :=
  { s with su := .reading p rest acc }.join
    { who := .host, write := false, adr := p.adr, be := p.be, data := 0, urgent := false }

/-- The answer completes the read to the host (R51). -/
def State.answer (s : State) (v : Word) : State := { s with waiting := none, su := .free, readData := v }

/-- HOST_READ_TAKEN (R51): answered from the part's own state, or by memory reads. The read that moves
a host view is the next command's. -/
def execHostReadTaken (s : State) : Out :=
  match s.waitingRead with
  | some (a, be) =>
    match s.readAnswer a be with
    | .word v => .next (s.answer v)
    | .memory p ps => .next ({ s with waiting := none }.issueRead p ps 0).arrivals
    | .moveView _ => .next s
  | none => .next s

/-- The view move and the answer of a head-word read (R17, R45). -/
def State.viewMove (s : State) (w : Fin 16) : State :=
  let s1 := s.modPool w Pool.moveView
  s1.answer (s1.inboundHead w)

/-- HEAD_WORD_READ_VIEW_MOVE (R17, R45). -/
def execHeadWordReadViewMove (s : State) : Out :=
  match s.waitingRead with
  | some (a, be) =>
    match s.readAnswer a be with
    | .moveView w => .next (s.viewMove w)
    | .word _ => .next s
    | .memory _ _ => .next s
  | none => .next s

end Sys2Proof.Machine
end

