-- ==== Sys2Proof/Machine/Port.lean ====
section
/-! DEFINITION. The performances at the memory port (R73, R80): the commands that complete the access
in progress. -/

namespace Sys2Proof.Machine

/-- The written map takes the enabled bytes of a steered write (R29, R59). -/
def State.markPayload (s : State) (m : Option PayloadRef) (be : Enables) : State :=
  match m with
  | some r => s.modPool r.w fun p => p.modBuf r.k (Buffer.mark r.i be)
  | none => s

/-- SU's reaction to a host access: a write is finished; a read keeps the source's bytes, and issues
the next read or answers the host (R50, R61, R80). -/
def State.hostWord (s : State) (r : Request) : State :=
  match s.su with
  | .free => s
  | .writing m => { s.markPayload m r.be with su := .free }
  | .reading cur rest acc =>
    let acc' := mergeBytes acc (s.mem.readWord r.adr) cur.keep
    match rest with
    | [] => s.answer acc'
    | p :: ps => s.issueRead p ps acc'

/-- HOST_ACCESS_PERFORMED (R80). -/
def execHostAccessPerformed (s : State) : Out :=
  s.performance (fun r => r.who == .host) (fun r t => t.hostWord r) (fun _ t => t)

/-- The access is a lane fetch. -/
def Request.isLaneFetch (r : Request) : Bool :=
  match r.who with
  | .outLane _ => true
  | _ => false

/-- The lane's reaction to its fetch (R113): a withdrawn access only lets the lane fetch on (R120). -/
def Request.laneReact (r : Request) (discard : Bool) (s : State) : State :=
  match r.who with
  | .outLane x => if discard then s.tryFetch x else s.laneWord x (s.mem.readWord r.adr)
  | _ => s

/-- LANE_FETCH_PERFORMED (R113). -/
def execLaneFetchPerformed (s : State) : Out :=
  s.performance Request.isLaneFetch (fun r t => r.laneReact false t) (fun r t => r.laneReact true t)

/-- The access is an inbound half write. -/
def Request.isInbound (r : Request) : Bool :=
  match r.who with
  | .inLane _ => true
  | _ => false

/-- The lane's reaction to its half write (R155). -/
def Request.inboundReact (r : Request) (s : State) : State :=
  match r.who with
  | .inLane y => s.halfWritten y
  | _ => s

/-- INBOUND_WRITE_PERFORMED (R155); after a STOP the write changes no map (R161). -/
def execInboundWritePerformed (s : State) : Out :=
  s.performance Request.isInbound (fun r t => r.inboundReact t) (fun _ t => t)

/-- The access is a copy-forward access, a read or a write as named. -/
def Request.isCopy (r : Request) (write : Bool) : Bool :=
  match r.who with
  | .copyJob _ => r.write == write
  | _ => false

/-- The job's reaction to its read (R37). -/
def Request.copyReadReact (r : Request) (s : State) : State :=
  match r.who with
  | .copyJob w => s.copyRead w (s.mem.readWord r.adr)
  | _ => s

/-- COPY_READ_PERFORMED (R37); an abandoned job's read is discarded (R41). -/
def execCopyReadPerformed (s : State) : Out :=
  s.performance (fun r => r.isCopy false) (fun r t => r.copyReadReact t) (fun _ t => t)

/-- The job's reaction to its write (R37). -/
def Request.copyWriteReact (r : Request) (s : State) : State :=
  match r.who with
  | .copyJob w => s.copyWrite w r.be
  | _ => s

/-- COPY_WRITE_PERFORMED (R37, R38); an abandoned job's write changes no map (R41). -/
def execCopyWritePerformed (s : State) : Out :=
  s.performance (fun r => r.isCopy true) (fun r t => r.copyWriteReact t) (fun _ t => t)

/-- LOAD_READ_PERFORMED (R168); an abandoned load's word is discarded (R175). -/
def execLoadReadPerformed (s : State) : Out :=
  s.performance (fun r => r.who == .load) (fun r t => t.loadWord (t.mem.readWord r.adr))
    (fun _ t => t)

/-- JOURNAL_WORD_PERFORMED (R187); a withdrawn write's result is discarded (R190). -/
def execJournalWordPerformed (s : State) : Out :=
  s.performance (fun r => r.who == .journal) (fun _ t => t.journalWord) (fun _ t => t)

end Sys2Proof.Machine
end

