-- ==== Sys2Proof/Machine/Lanes.lean ====
section
/-! DEFINITION. The commands of the lanes: scheduled starts, edges, slots and frame ends (chapters 6
and 8). -/

namespace Sys2Proof.Machine

/-- MASTER_SCHEDULED_START (R109). -/
def execMasterScheduledStart (x : Fin 6) (s : State) : Out :=
  if !s.rst && s.masterDue x then .next (s.masterStart x).arrivals else .next s

/-- The transition is an active edge that the FOLLOWER lane takes (R105, R110). -/
def State.edgeTaken (s : State) (x : Fin 6) (edge : PulseEdge) : Bool :=
  !s.rst && (s.outRec x).timing == .follower && (s.outRec x).edge == edge &&
    (match (s.out x).st with
      | .idle => false
      | .waiting => s.startReached
      | .between => true
      | .sending => s.dev == .run)

/-- OUTBOUND_ACTIVE_EDGE (R110). -/
def execOutboundActiveEdge (x : Fin 6) (edge : PulseEdge) (s : State) : Out :=
  if s.edgeTaken x edge then .next (s.activeEdge x).arrivals else .next s

/-- FLYWHEEL_START (R122). -/
def execFlywheelStart (x : Fin 6) (s : State) : Out :=
  if !s.rst && s.flywheelDue x then .next (s.flywheel x).arrivals else .next s

/-- SLOT_BEGIN (R115). -/
def execSlotBegin (x : Fin 6) (s : State) : Out :=
  if !s.rst && s.slotDue x then .next (s.slotBegin x).arrivals else .next s

/-- FRAME_END (R119). -/
def execFrameEnd (x : Fin 6) (s : State) : Out :=
  if !s.rst && s.frameEndDue x then .next (s.frameEnd x).arrivals else .next s

/-- The transition is an active edge that the inbound lane takes (R148, R152). -/
def State.inEdgeTaken (s : State) (y : Fin 2) (edge : PulseEdge) : Bool :=
  !s.rst && (s.inRec y).edge == edge &&
    (match (s.inl y).st with
      | .idle => false
      | .listening => s.startReached
      | .receiving => true
      | .discarding => true)

/-- INBOUND_ACTIVE_EDGE (R152). -/
def execInboundActiveEdge (y : Fin 2) (edge : PulseEdge) (s : State) : Out :=
  if s.inEdgeTaken y edge then .next (s.inActiveEdge y).arrivals else .next s

/-- H0 is the slot being assembled, of the current frame or of a frame just refused (R153, R154). -/
def InLane.expectsH0 (l : InLane) : Bool :=
  l.expects 0 || (l.st == .discarding && l.slot == some 0)

/-- INBOUND_H0_RECEIVED (R154). -/
def execInboundH0Received (y : Fin 2) (half : Half) (s : State) : Out :=
  if !s.rst && (s.inl y).expectsH0 then .next (s.inH0 y half).arrivals else .next s

/-- INBOUND_H1_RECEIVED (R154). -/
def execInboundH1Received (y : Fin 2) (half : Half) (s : State) : Out :=
  if !s.rst && (s.inl y).expects 1 then .next (s.inH1 y half).arrivals else .next s

/-- INBOUND_DATA_SLOT_RECEIVED (R155). -/
def execInboundDataSlotReceived (y : Fin 2) (half : Half) (s : State) : Out :=
  if !s.rst && (s.dataExpected y).isSome then .next (s.inData y half).arrivals else .next s

/-- INBOUND_CRC_SLOT_RECEIVED (R157). -/
def execInboundCrcSlotReceived (y : Fin 2) (half : Half) (s : State) : Out :=
  if !s.rst && (s.inl y).expects ((s.inRec y).slots + 2) then .next (s.inCrc y half).arrivals
  else .next s

end Sys2Proof.Machine
end

