-- ==== Sys2Proof/Machine/Dispatch.lean ====
section
/-! DEFINITION. One arm per command. -/

namespace Sys2Proof.Machine

def exec (i : Instr) (s : State) : Host.Outcome State Fault Refusal :=
  match i with
  | .hostWritePresented adr be data => Sys2Proof.Machine.execHostWritePresented adr be data s
  | .hostReadPresented adr be => Sys2Proof.Machine.execHostReadPresented adr be s
  | .passThroughWrite => Sys2Proof.Machine.execPassThroughWrite s
  | .payloadWriteSteered => Sys2Proof.Machine.execPayloadWriteSteered s
  | .refusedWrite => Sys2Proof.Machine.execRefusedWrite s
  | .closeRequest => Sys2Proof.Machine.execCloseRequest s
  | .start => Sys2Proof.Machine.execStart s
  | .stop => Sys2Proof.Machine.execStop s
  | .unknownRequest => Sys2Proof.Machine.execUnknownRequest s
  | .acknowledge => Sys2Proof.Machine.execAcknowledge s
  | .controlWriteDropped => Sys2Proof.Machine.execControlWriteDropped s
  | .hostReadTaken => Sys2Proof.Machine.execHostReadTaken s
  | .headWordReadViewMove => Sys2Proof.Machine.execHeadWordReadViewMove s
  | .hostAccessPerformed => Sys2Proof.Machine.execHostAccessPerformed s
  | .laneFetchPerformed => Sys2Proof.Machine.execLaneFetchPerformed s
  | .inboundWritePerformed => Sys2Proof.Machine.execInboundWritePerformed s
  | .copyReadPerformed => Sys2Proof.Machine.execCopyReadPerformed s
  | .copyWritePerformed => Sys2Proof.Machine.execCopyWritePerformed s
  | .loadReadPerformed => Sys2Proof.Machine.execLoadReadPerformed s
  | .journalWordPerformed => Sys2Proof.Machine.execJournalWordPerformed s
  | .timerExpiry w => Sys2Proof.Machine.execTimerExpiry w s
  | .startInstantReached => Sys2Proof.Machine.execStartInstantReached s
  | .masterScheduledStart x => Sys2Proof.Machine.execMasterScheduledStart x s
  | .outboundActiveEdge x edge => Sys2Proof.Machine.execOutboundActiveEdge x edge s
  | .flywheelStart x => Sys2Proof.Machine.execFlywheelStart x s
  | .slotBegin x => Sys2Proof.Machine.execSlotBegin x s
  | .frameEnd x => Sys2Proof.Machine.execFrameEnd x s
  | .inboundActiveEdge y edge => Sys2Proof.Machine.execInboundActiveEdge y edge s
  | .inboundH0Received y half => Sys2Proof.Machine.execInboundH0Received y half s
  | .inboundH1Received y half => Sys2Proof.Machine.execInboundH1Received y half s
  | .inboundDataSlotReceived y half => Sys2Proof.Machine.execInboundDataSlotReceived y half s
  | .inboundCrcSlotReceived y half => Sys2Proof.Machine.execInboundCrcSlotReceived y half s
  | .resetPin => Sys2Proof.Machine.execResetPin s
  | .resetRelease straps => Sys2Proof.Machine.execResetRelease straps s
  | .timeBaseTick => Sys2Proof.Machine.execTimeBaseTick s

end Sys2Proof.Machine
end

