-- ==== Sys2Proof/Safety.lean ====
section
/-! DEFINITION. What the statements speak about: which parts of State a command may change, the laws
that every step keeps, and the situations in which a command completes. -/

namespace Sys2Proof.Machine

/-! ### Frames -/

/-- The parts of State, one per field. -/
inductive Item where
  | pending
  | rst
  | straps
  | timeBase
  | dev
  | outcome
  | load
  | loadErr
  | header
  | startInstant
  | startReached
  | sending
  | stopLanes
  | windows
  | lanes
  | entries
  | pools
  | groups
  | outs
  | entryState
  | ins
  | queue
  | waiting
  | su
  | readData
  | requests
  | port
  | copyPtr
  | flags
  | journal
  | mem
deriving DecidableEq, Repr

/-- The two states agree on a part. -/
def State.sameAt (s t : State) : Item → Prop
  | .pending => t.pending = s.pending
  | .rst => t.rst = s.rst
  | .straps => t.straps = s.straps
  | .timeBase => t.timeBase = s.timeBase
  | .dev => t.dev = s.dev
  | .outcome => t.outcome = s.outcome
  | .load => t.load = s.load
  | .loadErr => t.loadErr = s.loadErr
  | .header => t.header = s.header
  | .startInstant => t.startInstant = s.startInstant
  | .startReached => t.startReached = s.startReached
  | .sending => t.sending = s.sending
  | .stopLanes => t.stopLanes = s.stopLanes
  | .windows => t.windows = s.windows
  | .lanes => t.lanes = s.lanes
  | .entries => t.entries = s.entries
  | .pools => t.pools = s.pools
  | .groups => t.groups = s.groups
  | .outs => t.outs = s.outs
  | .entryState => t.entryState = s.entryState
  | .ins => t.ins = s.ins
  | .queue => t.queue = s.queue
  | .waiting => t.waiting = s.waiting
  | .su => t.su = s.su
  | .readData => t.readData = s.readData
  | .requests => t.requests = s.requests
  | .port => t.port = s.port
  | .copyPtr => t.copyPtr = s.copyPtr
  | .flags => t.flags = s.flags
  | .journal => t.journal = s.journal
  | .mem => t.mem = s.mem

/-- From `s` to `t`, no part changes but those listed. -/
def ChangesOnly (l : List Item) (s t : State) : Prop := ∀ f, f ∉ l → s.sameAt t f

/-- Every byte of cue memory reads as before. -/
def SameMemory (s t : State) : Prop := ∀ a, t.mem.readByte a = s.mem.readByte a

/-! ### Situations -/

/-- SU is free and finds the write `x` at the head of the posted-write queue (R50). -/
def AtHead (s : State) (x : HostWrite) : Prop :=
  s.rst = false ∧ s.su = .free ∧ s.queue.head? = some x

/-- SU is free, the queue is empty, and a read waits at the port (R51). -/
def AtRead (s : State) (a : HostAdr) (be : Enables) : Prop :=
  s.rst = false ∧ s.su = .free ∧ s.queue = [] ∧ s.waiting = some (.read a be)

/-- The head entry has left the queue, and a write that waited at the port has joined its tail (R49,
R50). -/
def HeadTaken (s t : State) : Prop :=
  match s.waiting with
  | some (.write y) => t.queue = s.queue.tail ++ [y] ∧ t.waiting = none
  | w => t.queue = s.queue.tail ∧ t.waiting = w

/-- An access of this request is in progress at the port, and its requester waits for it (R73, R75). -/
def InProgress (s : State) (r : Request) : Prop :=
  s.rst = false ∧ s.port = some { req := r, withdrawn := false }

/-- No grant is due: a FREE port finds the request list empty (R73). -/
def NoGrantDue (s : State) : Prop := s.port = none → s.requests = []

/-- A request has been made: it is granted on its arrival at a waiting port, and otherwise it is on the
list behind the others (R73, R75). -/
def Requested (s t : State) (r : Request) : Prop :=
  if s.port = none then t.port = some { req := r, withdrawn := false } ∧ t.requests = []
  else t.port = s.port ∧ t.requests = s.requests ++ [r]

/-- A request made in reaction to a performance: it is on the list, or MA has granted it at once. -/
def Follows (t : State) (r : Request) : Prop :=
  r ∈ t.requests ∨ t.port = some { req := r, withdrawn := false }

/-- After a performance that leads to no new request, MA has gone on to the next access: it grants the
request it chooses from the list, and without a request the port is FREE (R73, R76). -/
def Regranted (s t : State) : Prop :=
  match s.choose s.requests with
  | some r => t.port = some { req := r, withdrawn := false } ∧ t.requests = s.requests.erase r
  | none => t.port = none ∧ t.requests = []

/-- After a performance MA has gone on (R73, R76): every request that waited is on the list still or has
been granted, none but those of requester `q` and of JW has joined, and the access now in progress, if
there is one, is one of these, and its requester waits for it. -/
def OthersWait (q : Requester) (s t : State) : Prop :=
  (∀ r ∈ s.requests, Follows t r) ∧
  (∀ r ∈ t.requests, r ∈ s.requests ∨ r.who = q ∨ r.who = .journal) ∧
  ∀ a, t.port = some a → a.withdrawn = false ∧
    (a.req ∈ s.requests ∨ a.req.who = q ∨ a.req.who = .journal)

/-- A raise has been taken at EU and its entry offered to JW (R179): the flag is raised, and flags and
journal are those the raise leaves in `s`. -/
def Reported (s t : State) (k : Kind) (source : Option Nat) (d1 d2 : Word) : Prop :=
  t.raised k = true ∧ t.flags = (s.raise k source d1 d2).flags ∧
    t.journal = (s.raise k source d1 d2).journal

/-- STOPPED has been raised, with these details (R174, R175, R189): flags and journal are those the raise
leaves in `s`. -/
def ReportedStopped (s t : State) (d1 d2 : Word) : Prop :=
  t.raised .stopped = true ∧ t.flags = (s.raiseStopped d1 d2).flags ∧
    t.journal = (s.raiseStopped d1 d2).journal

/-- JW's request for word 0 of an entry, at the write index (R187, R200). -/
def State.firstWrite (s : State) (e : JEntry) : Request :=
  { who := .journal, write := true, adr := memAdr (s.header.ringAddr + 16 * s.journal.writeIndex)
    be := 0xF, data := e.word 0, urgent := false }

/-- An entry is lost, and the journal state is then `st` (R186, R188). -/
def EntryLost (st : JState) (s t : State) : Prop :=
  t.journal = { s.journal with
    st := st, lost := if s.journal.lost = 65535 then 65535 else s.journal.lost + 1 } ∧
  t.raised .journalLost = true ∧ t.requests = s.requests

/-- JW has accepted the entry, and the journal state is then `st`: with fewer than 8 entries queued it
joins the tail, and where it finds the queue empty its word 0 is requested in the same event; at 8 it is
lost (R185–R187). -/
def EntryAccepted (st : JState) (e : JEntry) (s t : State) : Prop :=
  if s.journal.queue.length < 8 then
    t.journal = { s.journal with st := st, queue := s.journal.queue ++ [e] } ∧ t.flags = s.flags ∧
    (s.journal.queue ≠ [] → t.requests = s.requests) ∧
    (s.journal.queue = [] → s.journal.wordCount = 0 → t.requests = s.requests ++ [s.firstWrite e])
  else EntryLost st s t

/-- What an event that raises one entry does at the arbiter, and nothing else there: an access in progress
and every request stay as they are, and JW's request for word 0 of the entry joins them exactly when the
entry has found the journal queue empty and joined it (R185, R187). -/
def OnlyJournalRequests (e : JEntry) (s t : State) : Prop :=
  if s.journal.queue = [] ∧ t.journal.queue ≠ [] then
    ∃ r : Request, r.who = .journal ∧ (s.journal.wordCount = 0 → r = s.firstWrite e) ∧ Requested s t r
  else t.port = s.port ∧ t.requests = s.requests

/-- A raise has been reported, and at the arbiter the event has done no more than JW's request. -/
def ReportedAlone (s t : State) (k : Kind) (source : Option Nat) (d1 d2 : Word) : Prop :=
  Reported s t k source d1 d2 ∧
    OnlyJournalRequests
      { kind := k, source := source, time := s.timeBase, detail1 := d1, detail2 := d2 } s t

/-- At the arbiter the event concerns requester `q` and JW alone: every other request stays on the list,
none but theirs joins it, and an access of another requester stays in progress as it is (R75, R85). -/
def OnlyRequestsOf (q : Requester) (s t : State) : Prop :=
  (∀ r ∈ s.requests, r.who ≠ q → r ∈ t.requests) ∧
  (∀ r ∈ t.requests, r ∈ s.requests ∨ r.who = q ∨ r.who = .journal) ∧
  ∀ a, s.port = some a → a.req.who ≠ q → t.port = some a

/-- Only the flags of the listed kinds may have changed. -/
def FlagsKept (l : List Kind) (s t : State) : Prop := ∀ k, k ∉ l → t.raised k = s.raised k

/-- The pools of all windows but one are as before. -/
def OtherPools (w : Fin 16) (s t : State) : Prop := ∀ v, v ≠ w → t.pool v = s.pool v

/-- Of one window's pool only the buffers may have changed. -/
def OnlyBuffers (w : Fin 16) (s t : State) : Prop :=
  t.pool w = { s.pool w with bufs := (t.pool w).bufs }

/-- A buffer from which a holder kind has been released: if it had the kind, was RETIRED and is left with
no holder, it is FREE (R16, R17). -/
def Buffer.without (h : Holder) (b : Buffer) : Buffer :=
  { b with
    holders := b.holders.put h false
    st := if b.holders.has h = true ∧ b.st = .retired ∧ b.holders.put h false = HolderSet.empty then
      .free else b.st }

/-- A buffer that a commit supersedes if it is the window's READY buffer (R21). -/
def Buffer.afterCommit (wasReady : Bool) (b : Buffer) : Buffer :=
  if wasReady = true then
    { b with st := if b.holders = HolderSet.empty then .free else .retired }
  else b

/-- The entries that a commit of window `w` offers to JW: RESUMED for each window that goes from STALE to
LIVE in the event, in ascending order (R90), and then COMMIT (R40). -/
def commitOffers (w : Fin 16) (seq : Half) (copied : Nat) (s t : State) : List JEntry :=
  ((allWindows.filter fun v => decide (s.cueState v = .stale ∧ t.cueState v = .live)).map fun v =>
    ({ kind := .resumed, source := some v.val, time := s.timeBase
       detail1 := (t.pool v).lastSeq.setWidth 32, detail2 := num w.val } : JEntry)) ++
  [{ kind := .commit, source := some w.val, time := s.timeBase, detail1 := seq.setWidth 32
     detail2 := num copied }]

/-- What a commit of window `w` does beside its buffers, whatever made it (R40, R42, R88, R90, R185): the
run record and the marks change, a timeout above 0 gives the timer a new deadline, RESUMED is raised exactly
if a window goes from STALE to LIVE, and JW has been offered the entries of the commit one by one, before
those that the event offers `later`. -/
def CommitNoticed (w : Fin 16) (seq : Half) (copied : Nat) (later : List JEntry) (s t : State) : Prop :=
  (t.pool w).lastSeq = seq ∧ (t.pool w).commits = (s.pool w).commits + 1 ∧
  (t.pool w).ownMark = false ∧ (t.pool w).committed = true ∧
  (t.pool w).timer =
    (if 0 < (s.win w).timeout then
      some (s.timeBase + BitVec.ofNat 32 ((s.win w).timeout * 1000)) else (s.pool w).timer) ∧
  (t.raised .resumed = true ↔ s.raised .resumed = true ∨
    ∃ v : Fin 16, s.cueState v = .stale ∧ t.cueState v = .live) ∧
  t.journal = ((commitOffers w seq copied s t ++ later).foldl (fun u e => u.offer e) s).journal

/-- All outbound lanes but one are as before. -/
def OtherOuts (x : Fin 6) (s t : State) : Prop := ∀ z, z ≠ x → t.out z = s.out z

/-- The other inbound lane is as before. -/
def OtherIns (y : Fin 2) (s t : State) : Prop := ∀ z, z ≠ y → t.inl z = s.inl z

/-- The command that reports the performance of an access (R80). -/
def performs (c : Instr) (r : Request) : Bool :=
  match c, r.who with
  | .hostAccessPerformed, .host => true
  | .laneFetchPerformed, .outLane _ => true
  | .inboundWritePerformed, .inLane _ => true
  | .copyReadPerformed, .copyJob _ => !r.write
  | .copyWritePerformed, .copyJob _ => r.write
  | .loadReadPerformed, .load => true
  | .journalWordPerformed, .journal => true
  | _, _ => false

/-! ### Frame starts and fetches of an outbound lane (R97, R111–R113, R133) -/

/-- The decision draws on buffer `k`. -/
def Draw.isOn (d : Draw) (k : Fin 8) : Bool :=
  match d with
  | .buffer j _ _ => j == k
  | .neutral => false
  | .decay => false

/-- At a frame start of lane `x` each buffer a carried window draws on takes the lane's hold; `was` is
what a buffer was before (R15, R97). Nothing else of any pool changes. -/
def HoldsTaken (x : Fin 6) (was : Buffer → Buffer) (s t : State) : Prop :=
  ∀ w : Fin 16, OnlyBuffers w s t ∧ ∀ k : Fin 8,
    (t.pool w).bufs[k] =
      if w ∈ s.carried x ∧ (s.drawFor w).draw.isOn k = true then
        { was (s.pool w).bufs[k] with
          holders := ((was (s.pool w).bufs[k]).holders).put (.lane x) true }
      else was (s.pool w).bufs[k]

/-- The addresses of the words an entry needs under what its window draws on, by the table of R133: payload
words of the held buffer (R6) or neutral words (R96). One word for an inbound or an unassigned kind is the
model's choice (log 31). -/
def State.neededWords (s : State) (e : Nat) (d : Draw) : List MemAdr :=
  let r := s.entry e
  let v := s.win r.window
  let first := (match d with
    | .buffer k _ _ => v.bufferBase + k.val * v.size + 8
    | .neutral => v.neutralAddress
    | .decay => v.neutralAddress) + 4 * r.offset
  match r.kind, d with
  | .span, _ => [memAdr first, memAdr (first + 4)]
  | .delta, .buffer _ _ _ => [memAdr first]
  | .delta, _ => []
  | .stamp, _ => []
  | .seq, _ => []
  | _, _ => [memAdr first]

/-- A lane's request for a word of its plan (R113). -/
def fetchOf (x : Fin 6) (p : PlanWord) (urgent : Bool) : Request :=
  { who := .outLane x, write := false, adr := p.adr, be := 0xF, data := 0, urgent := urgent }

/-- At a frame start the lane's plan lists the words of its entries in slot order (R112), and the first is
requested, unless an access of the lane is still in progress at the port (R113). -/
def FetchPlanned (x : Fin 6) (s t : State) : Prop :=
  match (s.slotOrder x).flatMap fun e =>
      (s.neededWords e (s.drawFor (s.entry e).window).draw).map fun a =>
        ({ entry := e, adr := a } : PlanWord) with
  | [] => (t.out x).asked = none ∧ (t.out x).plan = []
  | p :: ps =>
    if s.inProgress (.outLane x) = true then (t.out x).asked = none ∧ (t.out x).plan = p :: ps
    else (t.out x).asked = some p ∧ (t.out x).plan = ps ∧ Follows t (fetchOf x p false)

/-- The lane's fetching at the beginning of a slot position, when no entry underruns: a request that waits
turns urgent in the slot before its entry's first slot (R78), and the next word is requested where R113
lets it, urgent if that slot has begun already. -/
def FetchGoesOn (x : Fin 6) (s t : State) : Prop :=
  (∀ p, (s.out x).asked = some p →
    (t.out x).asked = some p ∧ (t.out x).plan = (s.out x).plan ∧ t.port = s.port ∧
    t.requests = s.requests.map fun r =>
      if r.who = .outLane x ∧ (s.entry p.entry).slot + 3 < (t.out x).begun then
        { r with urgent := true } else r) ∧
  ((s.out x).asked = none →
    (s.inProgress (.outLane x) = false → Requester.outLane x ∉ s.requests.map Request.who →
      (t.out x).fetch.length < 8 → ∀ p ps, (s.out x).plan = p :: ps →
      (t.out x).asked = some p ∧ (t.out x).plan = ps ∧
      Requested s t (fetchOf x p (decide ((s.entry p.entry).slot + 3 < (t.out x).begun)))) ∧
    ((s.out x).plan = [] ∨ s.inProgress (.outLane x) = true ∨ 8 ≤ (t.out x).fetch.length →
      (t.out x).asked = none ∧ (t.out x).plan = (s.out x).plan ∧ t.port = s.port ∧
      t.requests = s.requests))

/-- The lane's fetching in the event in which entry `e` underruns (R113, R120): the words of the entry
leave the plan, and its request or its access is withdrawn. The next word of the plan is then requested,
urgent if the slot before its entry's first slot has begun, unless an access of the lane is still at the
port or the fetch buffer is full. -/
def FetchAfterUnderrun (x : Fin 6) (e : Nat) (s t : State) : Prop :=
  let rest := (s.out x).plan.filter fun q => q.entry != e
  (∀ a, s.port = some a → a.req.who = .outLane x → t.port = some
    { req := a.req, withdrawn := a.withdrawn || (s.out x).asked.any fun p => p.entry == e }) ∧
  (∀ p, (s.out x).asked = some p → p.entry ≠ e →
    (t.out x).asked = some p ∧ (t.out x).plan = rest) ∧
  ((∀ p, (s.out x).asked = some p → p.entry = e) →
    ((s.out x).asked = none → Requester.outLane x ∉ s.requests.map Request.who) →
    (s.inProgress (.outLane x) = true ∨ 8 ≤ (t.out x).fetch.length ∨ rest = [] →
      (t.out x).asked = none ∧ (t.out x).plan = rest ∧ ∀ r ∈ t.requests, r.who ≠ .outLane x) ∧
    (s.inProgress (.outLane x) = false → (t.out x).fetch.length < 8 → ∀ q qs, rest = q :: qs →
      (t.out x).asked = some q ∧ (t.out x).plan = qs ∧
      Follows t (fetchOf x q (decide ((s.entry q.entry).slot + 3 < (t.out x).begun))) ∧
      ∀ r ∈ t.requests, r.who = .outLane x →
        r = fetchOf x q (decide ((s.entry q.entry).slot + 3 < (t.out x).begun))))

/-! ### Frames of an inbound lane (R153, R155, R158) -/

/-- A frame that an active edge opens now, with the buffer it has been given, if any (R152, R153). -/
def State.openedFrame (s : State) (k : Option (Fin 8)) : InFrame :=
  { time := s.timeBase, number := none, buffer := k, outcome := .opened, halves := [] }

/-- A buffer that has just been allocated (R20). -/
def Buffer.allocated : Buffer :=
  { st := .filling, holders := HolderSet.empty, seq := 0, time := 0, map := [] }

/-- The request that writes a half into buffer `k` of the lane's window (R155). That the bytes without an
enable carry 0 is the model's choice (log 29). -/
def State.halfWrite (s : State) (y : Fin 2) (w : Fin 16) (k : Fin 8) (h : RxHalf) : Request :=
  { who := .inLane y, write := true
    adr := memAdr ((s.win w).bufferBase + k.val * (s.win w).size + 8 + 4 * h.word)
    be := if h.high then 0b1100 else 0b0011
    data := if h.high then h.data ++ (0 : Half) else (0 : Half) ++ h.data
    urgent := false }

/-- The entry names data slot Dd, and a half received there goes to this payload word and half (R143,
R155). -/
def EntryRec.names (r : EntryRec) (d : Nat) (p : Nat × Bool) : Prop :=
  r.kind = .store16 ∧ r.slot = d ∧ p = (r.offset, r.high) ∨
  r.kind = .store32 ∧ r.slot = d ∧ p = (r.offset, true) ∨
  r.kind = .store32 ∧ r.slot + 1 = d ∧ p = (r.offset, false)

/-- The current frame `f` of lane `y`, which stands behind `fs`, has been discarded (R158): alone in hand
with a buffer and no write under way, its buffer is FREE with an empty map and it has left the list; with
a write under way it waits for that; behind other frames it has no buffer and leaves at once. A request of
a frame with a buffer is withdrawn. -/
def FrameDiscarded (y : Fin 2) (w : Fin 16) (fs : List InFrame) (f : InFrame) (s t : State) : Prop :=
  (∀ k, fs = [] → f.buffer = some k →
    (∀ r ∈ t.requests, r.who ≠ .inLane y) ∧
    (s.inProgress (.inLane y) = false →
      (t.inl y).frames = [] ∧ OtherPools w s t ∧ OnlyBuffers w s t ∧
      (∀ c, c ≠ k → (t.pool w).bufs[c] = (s.pool w).bufs[c]) ∧
      (t.pool w).bufs[k] =
        { (s.pool w).bufs[k] with st := .free, holders := HolderSet.empty, map := [] }) ∧
    (s.inProgress (.inLane y) = true →
      (t.inl y).frames = [{ f with outcome := .discard, halves := [] }] ∧ t.pools = s.pools)) ∧
  (fs ≠ [] → f.buffer = none → (t.inl y).frames = fs ∧ t.pools = s.pools)

/-- The head frame of lane `y` has been settled in an event that left the window's buffers as `after`
says, and the next frame `g` has been given the lowest FREE one of them; its first half is requested
(R153, R155, R158). -/
def NextAllocated (y : Fin 2) (w : Fin 16) (g : InFrame) (gs : List InFrame) (after : Fin 8 → Buffer)
    (s t : State) : Prop :=
  ∃ c : Fin 8, c.val < (s.win w).bufferCount ∧ (after c).st = .free ∧
    (∀ d : Fin 8, d < c → (after d).st ≠ .free) ∧
    (t.inl y).frames = { g with buffer := some c } :: gs ∧
    (t.pool w).bufs[c] = Buffer.allocated ∧ (∀ d, d ≠ c → (t.pool w).bufs[d] = after d) ∧
    ∀ h hs, g.halves = h :: hs → Follows t (s.halfWrite y w c h)

/-! ### The checks of a profile image, by the rules that state them (R145, R146, R169, R170) -/

/-- The byte address `a` is one of the `n` from `lo`. -/
def InRange (a lo n : Nat) : Prop := lo ≤ a ∧ a < lo + n

/-- Two ranges have a byte in common. -/
def Share (lo n lo' n' : Nat) : Prop := ∃ a, InRange a lo n ∧ InRange a lo' n'

/-- Every byte of the range lies at or above `low` and below `high`. -/
def Between (lo n low high : Nat) : Prop := ∀ a, InRange a lo n → low ≤ a ∧ a < high

/-- The range shares no byte with the control area, the image or, when the journal is not OFF, the ring
(R170 check 4). -/
def Image.FreeOfFixed (im : Image) (base lo n : Nat) : Prop :=
  ¬ Share lo n base 0x100 ∧ ¬ Share lo n (base + 0x100) (4 * im.header.imageLength) ∧
    (im.header.mode = .off ∨ ¬ Share lo n im.header.ringAddr (16 * im.header.capacity))

/-- Check 4 for an enabled window; the neutral record begins in the host's half even if it has no words
(R1, R170, R197). That an area of no bytes shares none is the model's reading (log 17). -/
def Image.GoodAreas (im : Image) (base : Nat) (w : Fin 16) : Prop :=
  let r := im.windowTable[w]
  r.logicalBase % r.size = 0 ∧ Between r.logicalBase r.size 0 0x200000 ∧
  (∀ v : Fin 16, v ≠ w → (im.windowTable[v]).enabled = true →
    ¬ Share r.logicalBase r.size (im.windowTable[v]).logicalBase (im.windowTable[v]).size) ∧
  (∀ v : Fin 16, (im.windowTable[v]).enabled = true →
    ¬ Share r.logicalBase r.size (im.windowTable[v]).neutralAddress
      (4 * (im.windowTable[v]).payloadLength)) ∧
  im.FreeOfFixed base r.logicalBase r.size ∧
  r.neutralAddress % 4 = 0 ∧ r.neutralAddress < 0x200000 ∧
  Between r.neutralAddress (4 * r.payloadLength) 0 0x200000 ∧
  im.FreeOfFixed base r.neutralAddress (4 * r.payloadLength)

/-- Check 5 for an enabled window; the buffer base lies in its range even if the count is 0 (R1, R170,
R197). -/
def Image.GoodBuffers (im : Image) (w : Fin 16) : Prop :=
  let r := im.windowTable[w]
  r.bufferBase % r.size = 0 ∧ 0x200000 ≤ r.bufferBase ∧ r.bufferBase < 0x400000 ∧
  Between r.bufferBase (r.bufferCount * r.size) 0x200000 0x400000 ∧
  ∀ v : Fin 16, v ≠ w → (im.windowTable[v]).enabled = true →
    ¬ Share r.bufferBase (r.bufferCount * r.size) (im.windowTable[v]).bufferBase
      ((im.windowTable[v]).bufferCount * (im.windowTable[v]).size)

/-- Check 6 for an enabled window: its fields in the ranges of R1 (R170, R197). -/
def WindowRec.GoodFields (r : WindowRec) : Prop :=
  r.sizeCode.val ≤ 6 ∧ 1 ≤ r.payloadLength ∧ r.payloadLength ≤ r.size / 4 - 2 ∧
  r.writer ≠ .unassigned ∧ 3 ≤ r.bufferCount ∧ r.bufferCount ≤ 8 ∧ r.timeout ≤ 9999 ∧
  r.group ≠ .unassigned ∧ r.policy ≠ .unassigned ∧ 1 ≤ r.decayShift ∧ r.decayShift ≤ 7 ∧
  r.logicalBase < 0x200000 ∧ r.neutralAddress % 4 = 0 ∧ r.neutralAddress < 0x200000 ∧
  0x200000 ≤ r.bufferBase ∧ r.bufferBase < 0x400000

/-- The window is enabled and its writer field names inbound lane `y` (R7). -/
def WindowRec.WrittenBy (r : WindowRec) (y : Fin 2) : Prop :=
  r.enabled = true ∧ (y = 0 ∧ r.writer = .i0 ∨ y = 1 ∧ r.writer = .i1)

/-- The lane record of inbound lane `y` (R148). -/
def Image.inboundLane (im : Image) (y : Fin 2) : LaneRec :=
  im.laneTable[(⟨6 + y.val, by omega⟩ : Fin 8)]

/-- Check 7 for an enabled inbound lane: it is the writer of exactly one enabled window (R170). -/
def Image.GoodSource (im : Image) (y : Fin 2) : Prop :=
  ∃ w : Fin 16, (im.windowTable[w]).WrittenBy y ∧
    ∀ v : Fin 16, (im.windowTable[v]).WrittenBy y → v = w

/-- Entry `e` of the image's table; beyond it, 0 in every field (R128). -/
def Image.tableEntry (im : Image) (e : Nat) : EntryRec :=
  if h : e < 256 then im.entryTable[e] else EntryRec.zero

/-- The entry numbers of a lane's run (R129). -/
def LaneRec.run (r : LaneRec) : List Nat := List.range' r.first r.count

/-- The slots of two different entries of a lane's run have a slot in common (R145, R146). An entry that the
image does not hold has no slots. -/
def Image.Collides (im : Image) (r : LaneRec) (e : Nat) : Prop :=
  ∃ f ∈ r.run, f ≠ e ∧ f < im.header.entryCount ∧
    Share (im.tableEntry e).slot (im.tableEntry e).kind.slots
      (im.tableEntry f).slot (im.tableEntry f).kind.slots

/-- The word offset lies in the window's payload, and for SPAN and PASS32 the word above it too (R145). -/
def Image.OffsetIn (im : Image) (e : Nat) : Prop :=
  let r := im.tableEntry e
  let len := (im.windowTable[r.window]).payloadLength
  (r.kind ≠ .stamp → r.kind ≠ .seq → r.offset < len) ∧
  (r.kind = .span ∨ r.kind = .pass32 → r.offset + 1 < len)

/-- The parameter lies in the range of the kind (R145). -/
def EntryRec.GoodParam (r : EntryRec) : Prop :=
  (r.kind = .scaleLeft ∨ r.kind = .scaleRightLogical ∨ r.kind = .scaleRightFloor ∨
    r.kind = .scaleRightRound → r.param ≤ 31) ∧
  (r.kind = .span → r.param ≤ 48) ∧ (r.kind = .test → r.param ≤ 7)

/-- An entry of the run of lane `m` is as R145 and R146 ask. -/
def Image.GoodEntry (im : Image) (m : Fin 8) (e : Nat) : Prop :=
  let r := im.tableEntry e
  (im.windowTable[r.window]).enabled = true ∧
  r.slot + r.kind.slots ≤ (im.laneTable[m]).slots ∧ ¬ im.Collides (im.laneTable[m]) e ∧
  im.OffsetIn e ∧
  (m.val < 6 → r.kind ≠ .store16 ∧ r.kind ≠ .store32 ∧ r.kind ≠ .unassigned ∧ r.GoodParam) ∧
  ∀ y : Fin 2, m.val = 6 + y.val →
    (r.kind = .store16 ∨ r.kind = .store32) ∧ (im.windowTable[r.window]).WrittenBy y

/-- Check 8 names entry index `i` for the enabled lane `m`: an index of its run that lies outside the table
or the image, that an enabled lane before it in the table holds, or whose entry is not as asked; or the
first entry of a run of no entries that begins above the entry count (R145, R146; log 16). -/
def Image.BadEntry (im : Image) (m : Fin 8) (i : Nat) : Prop :=
  (im.laneTable[m]).enabled = true ∧
  (i ∈ (im.laneTable[m]).run ∧
      (256 ≤ i ∨ im.header.entryCount ≤ i ∨
        (∃ l : Fin 8, l < m ∧ (im.laneTable[l]).enabled = true ∧ i ∈ (im.laneTable[l]).run) ∨
        ¬ im.GoodEntry m i) ∨
    (im.laneTable[m]).count = 0 ∧ im.header.entryCount < (im.laneTable[m]).first ∧
      i = (im.laneTable[m]).first)

/-- Check 10 for an enabled outbound lane (R105, R106, R170). -/
def LaneRec.GoodOutbound (r : LaneRec) : Prop :=
  100 ≤ r.period ∧ r.period ≤ 100000 ∧
  (r.timing = .follower → 1 ≤ r.tolerance ∧ r.tolerance ≤ 25) ∧
  1 ≤ r.slots ∧ r.slots ≤ 64 ∧ 1 ≤ r.count ∧ r.count ≤ 64 ∧
  10 * (r.slots + 5) * 16 ≤ 9 * r.period * 2 ^ r.rate.val

/-- Entry `f` writes one half of payload word `i` (R143, R146). -/
def Image.Writes (im : Image) (f i : Nat) (high : Bool) : Prop :=
  (im.tableEntry f).offset = i ∧ ((im.tableEntry f).kind = .store32 ∨
    (im.tableEntry f).kind = .store16 ∧ (im.tableEntry f).high = high)

/-- Check 11 for an enabled inbound lane: each half of each payload word of its window is written by
exactly one of its entries (R146). -/
def Image.GoodCoverage (im : Image) (y : Fin 2) : Prop :=
  ∀ w : Fin 16, (im.windowTable[w]).WrittenBy y →
    ∀ i ∈ List.range (im.windowTable[w]).payloadLength, ∀ high : Bool,
      ∃ e ∈ (im.inboundLane y).run, im.Writes e i high ∧
        ∀ f ∈ (im.inboundLane y).run, im.Writes f i high → f = e

/-- Check 12 (R170). -/
def Image.GoodJournal (im : Image) (base : Nat) : Prop :=
  let h := im.header
  h.mode ≠ .unassigned ∧ (h.mode = .off ∨
    16 ≤ h.capacity ∧ h.capacity ≤ 4096 ∧ h.ringAddr % 16 = 0 ∧
    Between h.ringAddr (16 * h.capacity) 0 0x200000 ∧
    ¬ Share h.ringAddr (16 * h.capacity) base 0x100 ∧
    ¬ Share h.ringAddr (16 * h.capacity) (base + 0x100) (4 * h.imageLength) ∧
    (h.mode = .triggered → h.trigger ≤ 17))

/-- The record with index `i` fails check `c` of checks 3 to 12 (R169, R170). -/
def Image.Fails (im : Image) (base : Nat) (crc : Half) (c i : Nat) : Prop :=
  c = 3 ∧ i = 0 ∧ crc ≠ loHalf (im.word 1) ∨
  c = 4 ∧ (∃ w : Fin 16, i = w.val ∧ (im.windowTable[w]).enabled = true ∧ ¬ im.GoodAreas base w) ∨
  c = 5 ∧ (∃ w : Fin 16, i = w.val ∧ (im.windowTable[w]).enabled = true ∧ ¬ im.GoodBuffers w) ∨
  c = 6 ∧ (∃ w : Fin 16, i = w.val ∧ (im.windowTable[w]).enabled = true ∧
    ¬ (im.windowTable[w]).GoodFields) ∨
  c = 7 ∧ ((∃ (w : Fin 16) (y : Fin 2), i = w.val ∧ (im.windowTable[w]).WrittenBy y ∧
      (im.inboundLane y).enabled = false) ∨
    ∃ y : Fin 2, i = 16 + y.val ∧ (im.inboundLane y).enabled = true ∧ ¬ im.GoodSource y) ∨
  c = 8 ∧ (∃ m : Fin 8, im.BadEntry m i) ∨
  c = 9 ∧ (∃ m : Fin 8, i = m.val ∧ m.val < 6 ∧ (im.laneTable[m]).enabled = true ∧
    8 < (((im.laneTable[m]).run.map fun e => (im.tableEntry e).window).eraseDups).length) ∨
  c = 10 ∧ (∃ m : Fin 8, i = m.val ∧ (im.laneTable[m]).enabled = true ∧
    ¬ (if m.val < 6 then (im.laneTable[m]).GoodOutbound
      else 1 ≤ (im.laneTable[m]).slots ∧ (im.laneTable[m]).slots ≤ 64 ∧
        1 ≤ (im.laneTable[m]).count ∧ (im.laneTable[m]).count ≤ 64)) ∨
  c = 11 ∧ (∃ y : Fin 2, i = 6 + y.val ∧ (im.inboundLane y).enabled = true ∧
    ¬ im.GoodCoverage y) ∨
  c = 12 ∧ i = 0 ∧ ¬ im.GoodJournal base

/-! ### Laws that every step keeps -/

/-- Cue memory keeps its canonical form. -/
def MemoryLaw (s : State) : Prop := s.mem.wf

/-- The posted-write queue holds at most four writes, and none while RST# is asserted (R50, R52). -/
def QueueLaw (s : State) : Prop := s.queue.length ≤ 4 ∧ (s.rst = true → s.queue = [])

/-- The journal queue holds at most 8 entries, the word count is at most 3, the write index is below
the ring capacity unless the journal is OFF with nothing queued, and no word of an empty queue is counted
(R183, R187). -/
def JournalLaw (s : State) : Prop :=
  s.journal.queue.length ≤ 8 ∧ s.journal.wordCount ≤ 3 ∧
    (s.journal.st = .off ∧ s.journal.queue = [] ∨ s.journal.writeIndex < s.header.capacity) ∧
    (s.journal.queue = [] → s.journal.wordCount = 0)

/-- A requester has a request on the list, or an access in progress that it waits for. -/
def State.busy (s : State) (q : Requester) : Prop :=
  q ∈ s.requests.map Request.who ∨ ∃ a, s.port = some a ∧ a.withdrawn = false ∧ a.req.who = q

/-- The device state agrees with the load job, the copy-forward jobs, the sending set and the lane
states (R107, R125, R149, R161, R165, R167, R174): a load job exists exactly in LOADING; jobs exist in
RUN only; outbound lanes are IDLE in SETUP and LOADING, and in STOPPING the sending set is not empty and
holds exactly the lanes that are SENDING, the others being IDLE; inbound lanes are IDLE with no frame in
hand outside RUN. -/
def DeviceLaw (s : State) : Prop :=
  (s.load.isSome = true ↔ s.dev = .loading) ∧
  (s.dev ≠ .run → ∀ w : Fin 16, (s.pool w).job = none) ∧
  (s.dev = .setup ∨ s.dev = .loading → ∀ x : Fin 6, (s.out x).st = .idle) ∧
  (s.dev = .stopping →
    (∃ x : Fin 6, s.sending[x] = true) ∧
    ∀ x : Fin 6, (s.sending[x] = true ∧ (s.out x).st = .sending) ∨
      (s.sending[x] = false ∧ (s.out x).st = .idle)) ∧
  (s.dev ≠ .run → ∀ y : Fin 2, (s.inl y).st = .idle ∧ (s.inl y).frames = [])

/-- At most one request per requester (R74), none of a requester whose access is in progress and awaited,
and no grant left undone (R73). A requester has a request on the list, or an access that it waits for,
exactly while it has the work it serves: SU while it writes or reads (R50, R61), the load job (R168), JW
while an entry is queued (R187), a copy-forward job (R36, R37), and an inbound lane while the frame at the
head of those in hand, with its buffer, has a half to write or waits, discarded, for its write (R155,
R158). The outbound lanes have the law below. -/
def RequestLaw (s : State) : Prop :=
  (s.requests.map Request.who).Nodup ∧
  (∀ a, s.port = some a → a.withdrawn = false → a.req.who ∉ s.requests.map Request.who) ∧
  NoGrantDue s ∧
  (s.busy .host ↔ s.su ≠ .free) ∧
  (s.busy .load ↔ s.load.isSome = true) ∧
  (s.busy .journal ↔ s.journal.queue ≠ []) ∧
  (∀ w : Fin 16, s.busy (.copyJob w) ↔ (s.pool w).job.isSome = true) ∧
  (∀ y : Fin 2, s.busy (.inLane y) ↔ ∃ f ∈ (s.inl y).frames.head?,
    f.buffer ≠ none ∧ (f.outcome = .discard ∨ f.halves ≠ []))

/-- The frames an inbound lane has in hand (R149, R153, R158). A lane is RECEIVING exactly while the last
of them is OPEN, and the others are not; only the head is DISCARD. The head holds a buffer of the lane's
window; GOOD it has a half to write, and DISCARD it has none and a write of it is in progress. The receive
buffer holds at most 16 halves (R150), and in RUN no withdrawn access of an inbound lane is at the port
(R161). -/
def FrameLaw (s : State) : Prop :=
  (∀ a, s.port = some a → a.withdrawn = true → (∃ y, a.req.who = .inLane y) → s.dev ≠ .run) ∧
  ∀ y : Fin 2,
    ((s.inl y).st = .receiving ↔ ∃ f ∈ (s.inl y).frames.getLast?, f.outcome = .opened) ∧
    (∀ f ∈ (s.inl y).frames.dropLast, f.outcome ≠ .opened) ∧
    (∀ f ∈ (s.inl y).frames.tail, f.outcome ≠ .discard) ∧
    (∀ f ∈ (s.inl y).frames.head?, f.buffer ≠ none ∧ s.inWindow y ≠ none ∧
      (f.outcome = .good → f.halves ≠ []) ∧
      (f.outcome = .discard → f.halves = [] ∧ s.inProgress (.inLane y) = true)) ∧
    (s.inl y).halves.length ≤ 16

/-- The entries of a lane's run have data slots of their own, within the lane's (R145). -/
def State.slotsApart (s : State) (x : Fin 6) : Prop :=
  (∀ e ∈ (s.outRec x).run, (s.entry e).slot + (s.entry e).kind.slots ≤ (s.outRec x).slots) ∧
  ∀ e ∈ (s.outRec x).run, ∀ f ∈ (s.outRec x).run, e ≠ f →
    (s.entry e).slot + (s.entry e).kind.slots ≤ (s.entry f).slot ∨
      (s.entry f).slot + (s.entry f).kind.slots ≤ (s.entry e).slot

/-- The words a frame in progress has yet to use: those of each entry whose first slot has not begun, in
slot order, each named by its entry (R112, R115, R133). -/
def State.wordsDue (s : State) (x : Fin 6) : List Nat :=
  ((s.slotOrder x).filter fun e => decide ((s.out x).begun ≤ (s.entry e).slot + 4)).flatMap fun e =>
    List.replicate ((s.entry e).kind.words ((s.out x).drawOf (s.entry e).window)) e

/-- An outbound lane has a request on the list, or an access that it waits for, exactly while it is SENDING
with a word asked for (R113, R120). In a frame in progress the words fetched, asked for and planned are
those it has yet to use, so that none is left at the frame end (R119), and a half kept for the next slot is
the second of a two-slot entry (R115). -/
def FetchLaw (s : State) : Prop :=
  ∀ x : Fin 6,
    (s.busy (.outLane x) ↔ (s.out x).st = .sending ∧ (s.out x).asked ≠ none) ∧
    ((s.out x).st ≠ .idle → s.slotsApart x) ∧
    ((s.out x).st = .sending →
      (s.out x).begun ≤ (s.outRec x).slots + 5 ∧
      ((s.out x).fetch.map fun p => p.1) ++ ((s.out x).asked.toList.map fun p => p.entry) ++
          ((s.out x).plan.map fun p => p.entry) = s.wordsDue x ∧
      ((s.out x).tail ≠ none → ∃ e ∈ (s.outRec x).run,
        (s.entry e).kind.slots = 2 ∧ (s.entry e).slot + 5 = (s.out x).begun))

/-- At most one buffer of a pool is FILLING, at most one COMMITTING and at most one READY (R11); a buffer
with a holder is READY or RETIRED, and a RETIRED buffer has a holder (R14). -/
def Pool.lawful (p : Pool) : Prop :=
  (∀ j k : Fin 8, p.bufs[j].st = .filling → p.bufs[k].st = .filling → j = k) ∧
  (∀ j k : Fin 8, p.bufs[j].st = .committing → p.bufs[k].st = .committing → j = k) ∧
  (∀ j k : Fin 8, p.bufs[j].st = .ready → p.bufs[k].st = .ready → j = k) ∧
  (∀ k : Fin 8, p.bufs[k].holders ≠ HolderSet.empty →
    p.bufs[k].st = .ready ∨ p.bufs[k].st = .retired) ∧
  (∀ k : Fin 8, p.bufs[k].st = .retired → p.bufs[k].holders ≠ HolderSet.empty)

/-- The words of every written map rise, and each has a written byte (R29). -/
def MapLaw (s : State) : Prop :=
  ∀ (w : Fin 16) (k : Fin 8), ((s.pool w).bufs[k].map).Pairwise (fun c d => c.1 < d.1) ∧
    ∀ c ∈ (s.pool w).bufs[k].map, c.2 ≠ 0

/-- The law of R11 and R14, for every window. -/
def PoolLaw (s : State) : Prop := ∀ w : Fin 16, (s.pool w).lawful

/-- In RUN every host window has a FILLING buffer (R32), and the target of its copy-forward job is
COMMITTING (R35). -/
def FillingLaw (s : State) : Prop :=
  s.dev = .run → ∀ w : Fin 16, (s.win w).isHost = true →
    (∃ k : Fin 8, (s.pool w).bufs[k].st = .filling) ∧
    ∀ j, (s.pool w).job = some j → (s.pool w).bufs[j.target].st = .committing

/-- Within one window each holder kind is a member of at most one buffer's holder set (R13); a lane holds
buffers only while it is SENDING (R107); a copy source is held for the job that reads it (R19); only a
host window has a job (R7), and its target is COMMITTING (R35). -/
def HolderLaw (s : State) : Prop :=
  (∀ (w : Fin 16) (h : Holder) (j k : Fin 8), (s.pool w).bufs[j].holders.has h = true →
    (s.pool w).bufs[k].holders.has h = true → j = k) ∧
  (∀ (w : Fin 16) (x : Fin 6) (k : Fin 8), (s.pool w).bufs[k].holders.has (.lane x) = true →
    (s.out x).st = .sending) ∧
  (∀ (w : Fin 16) (k : Fin 8), (s.pool w).bufs[k].holders.has .copySource = true →
    ∃ j, (s.pool w).job = some j ∧ j.source = some k) ∧
  (∀ (w : Fin 16) (j : CopyJob), (s.pool w).job = some j →
    (s.win w).writer = .host ∧ (s.pool w).bufs[j.target].st = .committing)

/-- While pools are inactive every buffer is FREE with no holder and an empty map (R9); in STOPPING none
is FILLING or COMMITTING (R11); a map is empty outside FILLING and COMMITTING (R10). The writes that add
to maps go to FILLING buffers: the steered write SU has handed on (R59), and those of the inbound frame
in hand, of which only the head may hold a buffer (R153). -/
def ActiveLaw (s : State) : Prop :=
  (s.dev = .setup ∨ s.dev = .loading → ∀ (w : Fin 16) (k : Fin 8), (s.pool w).bufs[k].st = .free) ∧
  (s.dev = .stopping → ∀ (w : Fin 16) (k : Fin 8),
    (s.pool w).bufs[k].st ≠ .filling ∧ (s.pool w).bufs[k].st ≠ .committing) ∧
  (∀ (w : Fin 16) (k : Fin 8), (s.pool w).bufs[k].st ≠ .filling →
    (s.pool w).bufs[k].st ≠ .committing → (s.pool w).bufs[k].map = []) ∧
  (∀ r, s.su = .writing (some r) →
    s.dev = .run ∧ (s.win r.w).writer = .host ∧ (s.pool r.w).bufs[r.k].st = .filling) ∧
  (∀ (y : Fin 2) (w : Fin 16) (f : InFrame) (k : Fin 8), s.inWindow y = some w →
    f ∈ (s.inl y).frames → f.buffer = some k → (s.pool w).bufs[k].st = .filling) ∧
  (∀ (y : Fin 2) (f : InFrame), f ∈ (s.inl y).frames.tail → f.buffer = none)

/-- The law of the buffer pools in every device state. -/
def RunLaw (s : State) : Prop := PoolLaw s ∧ HolderLaw s ∧ DeviceLaw s ∧ ActiveLaw s

end Sys2Proof.Machine
end

