-- ==== Sys2Proof/Certificates/Slice0/Obligations.lean ====
section
/-! DEFINITION. The statements for the provers. -/

open Sys2Proof Sys2Proof.Machine

/-! ### The step and the host port -/

/-- A step takes the command at the front of the queue and runs it on the state with the queue's rest. The
queue of commands is the model's (log 2). -/
def Obligations.StepRunsTheFrontCommand : Prop :=
  ∀ (s : State) (c : Instr) (rest : List Instr), s.pending = c :: rest →
    step s = exec c { s with pending := rest }

/-- R49, R51, R177: HRDY is active exactly while no transfer is held at the port and SU has no read to
answer; a transfer held back holds it inactive. With HRDY active, a write presented joins the tail of the
queue if it has a place and RST# is released, and waits at the port otherwise; a read waits. The address is
the command's, whose two low bits the port does not carry (log 12). -/
def Obligations.PresentedTransferJoinsOrWaits : Prop :=
  (∀ s : State, s.hrdy = true ↔
    s.waiting = none ∧
    ∀ (cur : ReadPart) (rest : List ReadPart) (acc : Word), s.su ≠ .reading cur rest acc) ∧
  ∀ (s : State) (adr : BitVec 21) (be : Enables) (data : Word), s.hrdy = true →
    (s.rst = false ∧ s.queue.length < 4 →
      exec (.hostWritePresented adr be data) s =
        .next { s with queue := s.queue ++ [{ adr := hostAdr adr, be := be, data := data }] }) ∧
    (s.rst = true ∨ 4 ≤ s.queue.length →
      exec (.hostWritePresented adr be data) s =
        .next { s with waiting := some (.write { adr := hostAdr adr, be := be, data := data }) }) ∧
    exec (.hostReadPresented adr be) s = .next { s with waiting := some (.read (hostAdr adr) be) } ∧
    (adr.toNat % 4 = 0 → HostAdr.byte (hostAdr adr) = adr.toNat)

/-- R56, R57: in SETUP and LOADING every transfer outside the control area passes through at its own
address, which lies in the lower half of cue memory. A write that passes through, in any device state,
becomes a host access at its own address with its own data and enables; SU is busy with it, and nothing
else changes. A read that passes through (R58) becomes a host access in the same way. -/
def Obligations.PassThroughReachesMemoryAtItsOwnAddress : Prop :=
  (∀ (s : State) (x : HostWrite) (a : HostAdr) (be : Enables),
    s.dev = .setup ∨ s.dev = .loading →
    (s.controlWord x.adr = none → s.treatment x = .passThrough) ∧
    (s.controlWord a = none →
      s.readAnswer a be = .memory { adr := physical a, be := be, keep := 0xF } []) ∧
    MemAdr.byte (physical a) = HostAdr.byte a ∧ HostAdr.byte a < 0x200000 ∧
    (s.controlWord a = none ↔ HostAdr.byte a < s.base ∨ s.base + 0xFF < HostAdr.byte a)) ∧
  (∀ (s : State) (x : HostWrite), AtHead s x → NoGrantDue s → s.treatment x = .passThrough →
    ∃ t, exec .passThroughWrite s = .next t ∧ HeadTaken s t ∧ t.su = .writing none ∧
      Requested s t { who := .host, write := true, adr := physical x.adr, be := x.be, data := x.data
                      urgent := false } ∧
      ChangesOnly [.queue, .waiting, .su, .requests, .port] s t) ∧
  ∀ (s : State) (a : HostAdr) (be : Enables), AtRead s a be → NoGrantDue s → s.controlWord a = none →
    s.dev = .setup ∨ s.dev = .loading ∨ s.windowAt a = none →
    ∃ t, exec .hostReadTaken s = .next t ∧ t.waiting = none ∧
      t.su = .reading { adr := physical a, be := be, keep := 0xF } [] 0 ∧
      Requested s t { who := .host, write := false, adr := physical a, be := be, data := 0
                      urgent := false } ∧
      ChangesOnly [.waiting, .su, .requests, .port] s t

/-- R59: in RUN, a write to payload word `i` of a host window becomes a host access to that word of the
FILLING buffer, and nothing else changes; without a FILLING buffer the model stops by name (log 14). -/
def Obligations.PayloadWriteGoesToTheFillingBuffer : Prop :=
  ∀ (s : State) (x : HostWrite) (w : Fin 16) (i : Nat), AtHead s x → NoGrantDue s → s.dev = .run →
    s.controlWord x.adr = none → s.windowAt x.adr = some w → (s.win w).writer = .host →
    s.partAt w x.adr = .payload i →
    (∀ k, (s.pool w).find .filling = some k →
      ∃ t, exec .payloadWriteSteered s = .next t ∧ HeadTaken s t ∧
        t.su = .writing (some { w := w, k := k, i := i }) ∧
        Requested s t
          { who := .host, write := true
            adr := memAdr ((s.win w).bufferBase + k.val * (s.win w).size + 8 + 4 * i)
            be := x.be, data := x.data, urgent := false } ∧
        ChangesOnly [.queue, .waiting, .su, .requests, .port] s t) ∧
    ((s.pool w).find .filling = none → exec .payloadWriteSteered s = .fault .noFillingBuffer)

/-- R66: a refused write is dropped and WRITE_REFUSED is raised with its source, the host word address
and the reason; SU goes on, and nothing else changes. Every request and an access in progress stay, and only
JW's request for the first word of the entry may join them. -/
def Obligations.RefusedWriteIsDroppedAndReported : Prop :=
  ∀ (s : State) (x : HostWrite) (r : RefusalReason) (source : Option Nat), AtHead s x →
    NoGrantDue s → s.treatment x = .refused r source →
    ∃ t, exec .refusedWrite s = .next t ∧ HeadTaken s t ∧
      ReportedAlone s t .writeRefused source (num (HostAdr.byte x.adr)) (num r.code) ∧
      ChangesOnly [.queue, .waiting, .flags, .journal, .requests, .port] s t

/-- R3, R4: the window of an address in a logical range, and the part each offset of it names. R4, R65, R66,
R54, R58: which writes are refused in RUN and STOPPING, and with which reason and source. -/
def Obligations.WriteTreatmentInRunAndStopping : Prop :=
  (∀ r : WindowRec, r.size = 64 * 2 ^ r.sizeCode.val) ∧
  (∀ (s : State) (a : HostAdr) (w : Fin 16),
    (s.windowAt a = some w ↔
      (s.win w).enabled = true ∧ InRange (HostAdr.byte a) (s.win w).logicalBase (s.win w).size ∧
      ∀ v : Fin 16, v < w → (s.win v).enabled = true →
        ¬ InRange (HostAdr.byte a) (s.win v).logicalBase (s.win v).size) ∧
    (s.neutralAt a = some w ↔
      (s.win w).enabled = true ∧
      InRange (HostAdr.byte a) (s.win w).neutralAddress (4 * (s.win w).payloadLength) ∧
      ∀ v : Fin 16, v < w → (s.win v).enabled = true →
        ¬ InRange (HostAdr.byte a) (s.win v).neutralAddress (4 * (s.win v).payloadLength)) ∧
    (HostAdr.byte a = (s.win w).logicalBase → s.partAt w a = .head) ∧
    (HostAdr.byte a = (s.win w).logicalBase + 4 → s.partAt w a = .close) ∧
    ∀ i, HostAdr.byte a = (s.win w).logicalBase + 8 + 4 * i →
      s.partAt w a = if i < (s.win w).payloadLength then .payload i else .outside) ∧
  ∀ (s : State) (x : HostWrite), s.dev = .run ∨ s.dev = .stopping → s.controlWord x.adr = none →
    (∀ w, s.windowAt x.adr = some w →
      (s.partAt w x.adr = .head → s.treatment x = .refused .headWord (some w.val)) ∧
      (s.partAt w x.adr = .close → s.treatment x = .close w) ∧
      (s.partAt w x.adr = .outside → s.treatment x = .refused .outOfPayload (some w.val)) ∧
      (∀ i, s.partAt w x.adr = .payload i →
        ((s.win w).writer ≠ .host → s.treatment x = .refused .inboundPayload (some w.val)) ∧
        ((s.win w).writer = .host → s.dev = .stopping →
          s.treatment x = .refused .stopping (some w.val)) ∧
        ((s.win w).writer = .host → s.dev = .run → s.treatment x = .steered w i))) ∧
    (s.windowAt x.adr = none →
      (InRange (HostAdr.byte x.adr) (s.base + 0x100) (4 * s.header.imageLength) →
        s.treatment x = .refused .profileImage none) ∧
      (¬ InRange (HostAdr.byte x.adr) (s.base + 0x100) (4 * s.header.imageLength) →
        (∀ v, s.neutralAt x.adr = some v → s.treatment x = .refused .neutralRecord (some v.val)) ∧
        (s.neutralAt x.adr = none →
          ((s.header.mode = .continuous ∨ s.header.mode = .triggered) ∧
              InRange (HostAdr.byte x.adr) s.header.ringAddr (16 * s.header.capacity) →
            s.treatment x = .refused .journalRing none) ∧
          (¬ ((s.header.mode = .continuous ∨ s.header.mode = .triggered) ∧
              InRange (HostAdr.byte x.adr) s.header.ringAddr (16 * s.header.capacity)) →
            s.treatment x = .passThrough))))

/-! ### Closes (chapter 2) -/

/-- R32: the outcome of a close is that of the first case of the table whose condition holds: the first
two cases read no map, and the others are decided on the FILLING buffer. -/
def Obligations.CloseOutcomeIsTheFirstCaseThatHolds : Prop :=
  ∀ (s : State) (w : Fin 16) (x : HostWrite),
    (s.dev = .stopping → s.closeOutcome w x = .notRunning) ∧
    (s.dev ≠ .stopping → (s.win w).writer ≠ .host → s.closeOutcome w x = .notWriter) ∧
    ∀ k : Fin 8, (s.pool w).find .filling = some k →
    s.closeOutcome w x =
      ((([ (decide (s.dev = .stopping), CloseOutcome.notRunning),
           (decide ((s.win w).writer ≠ .host), .notWriter),
           (decide (x.be ≠ 0xF ∨ loHalf x.data = 0), .malformed),
           (decide (∃ c : Fin 8, (s.pool w).bufs[c].st = .committing), .busy),
           (decide (hiHalf x.data ≠ (s.pool w).expected), .seqMismatch),
           (decide ((loHalf x.data).toNat ≠ ((s.pool w).bufs[k].map).touched), .countMismatch),
           (decide ((s.win w).mode = .strict ∧
              ∃ i, i < (s.win w).payloadLength ∧ ((s.pool w).bufs[k].map).get i ≠ 0xF), .incomplete),
           (decide (∀ c : Fin 8, c.val < (s.win w).bufferCount → (s.pool w).bufs[c].st ≠ .free),
             .noBuffer) ] : List (Bool × CloseOutcome)).find? (fun c => c.1)).map (fun c => c.2)).getD
        .accepted

/-- R33: a refused close records its outcome and raises CLOSE_REFUSED with the outcome and the declared
count (0 when it is MALFORMED for lack of a byte enable), and changes nothing else. Every request and an
access in progress stay, and only JW's request for the first word of the entry may join them. -/
def Obligations.RefusedCloseIsRecordedAndReported : Prop :=
  ∀ (s : State) (x : HostWrite) (w : Fin 16), AtHead s x → NoGrantDue s → s.treatment x = .close w →
    s.closeOutcome w x ≠ .accepted →
    ∃ t, exec .closeRequest s = .next t ∧ HeadTaken s t ∧
      t.pool w = { s.pool w with lastOutcome := s.closeOutcome w x } ∧ OtherPools w s t ∧
      ReportedAlone s t .closeRefused (some w.val) (num (s.closeOutcome w x).code)
        (if s.closeOutcome w x = .malformed ∧ x.be ≠ 0xF then 0 else (loHalf x.data).setWidth 32) ∧
      ChangesOnly [.queue, .waiting, .pools, .flags, .journal, .requests, .port] s t

/-- R34, R40, R21, R88, R90, R185: an accepted close of a full map commits the FILLING buffer at once, after
a new FILLING buffer has been allocated. The timer takes its new deadline, RESUMED is raised exactly if a
window goes from STALE to LIVE, and JW is offered each RESUMED and then COMMIT, of no copied words. That the
map of the committed buffer, which R21 puts out of use, is empty is the model's reading (log 15). -/
def Obligations.FullCloseCommitsAtOnce : Prop :=
  ∀ (s : State) (x : HostWrite) (w : Fin 16) (k0 k1 : Fin 8), AtHead s x → NoGrantDue s →
    s.treatment x = .close w → s.closeOutcome w x = .accepted →
    (s.pool w).find .filling = some k0 → s.freeBuffer w = some k1 → s.fillingFull w = true →
    (∀ i, i < (s.win w).payloadLength → ((s.pool w).bufs[k0].map).get i = 0xF) ∧
    (k1.val < (s.win w).bufferCount ∧ (s.pool w).bufs[k1].st = .free ∧
      ∀ d : Fin 8, d < k1 → (s.pool w).bufs[d].st ≠ .free) ∧
    ∃ t, exec .closeRequest s = .next t ∧ HeadTaken s t ∧ OtherPools w s t ∧
      (t.pool w).bufs[k0] =
        { st := .ready, holders := HolderSet.empty, seq := hiHalf x.data, time := s.timeBase, map := [] } ∧
      (t.pool w).bufs[k1] =
        { st := .filling, holders := HolderSet.empty, seq := 0, time := 0, map := [] } ∧
      (∀ k, k ≠ k0 → k ≠ k1 →
        (t.pool w).bufs[k] =
          if (s.pool w).find .ready = some k then
            { (s.pool w).bufs[k] with
              st := if (s.pool w).bufs[k].holders = HolderSet.empty then .free else .retired }
          else (s.pool w).bufs[k]) ∧
      (t.pool w).expected = (s.pool w).expected + 1 ∧ (t.pool w).lastOutcome = .accepted ∧
      (t.pool w).nextInbound = (s.pool w).nextInbound ∧ (t.pool w).job = (s.pool w).job ∧
      CommitNoticed w (hiHalf x.data) 0 [] s t ∧ FlagsKept [.resumed, .journalLost] s t ∧
      OnlyRequestsOf .journal s t ∧
      ChangesOnly [.queue, .waiting, .pools, .flags, .journal, .requests, .port] s t

/-- R34, R35, R19, R36: an accepted close of a map that is not full makes the FILLING buffer COMMITTING
and starts a copy-forward job, whose first request is the read of the first word with a gap. That the read
carries all four byte enables is the model's choice (log 24). -/
def Obligations.CarryCloseStartsCopyForward : Prop :=
  ∀ (s : State) (x : HostWrite) (w : Fin 16) (k0 k1 : Fin 8), AtHead s x → NoGrantDue s →
    s.treatment x = .close w → s.closeOutcome w x = .accepted →
    (s.pool w).find .filling = some k0 → s.freeBuffer w = some k1 → s.fillingFull w = false →
    ∃ t i, exec .closeRequest s = .next t ∧ HeadTaken s t ∧ OtherPools w s t ∧
      i < (s.win w).payloadLength ∧ ((s.pool w).bufs[k0].map).get i ≠ 0xF ∧
      (∀ j, j < i → ((s.pool w).bufs[k0].map).get j = 0xF) ∧
      (t.pool w).bufs[k0] =
        { (s.pool w).bufs[k0] with st := .committing, seq := hiHalf x.data, time := s.timeBase } ∧
      (t.pool w).bufs[k1] =
        { st := .filling, holders := HolderSet.empty, seq := 0, time := 0, map := [] } ∧
      (∀ k, k ≠ k0 → k ≠ k1 →
        (t.pool w).bufs[k] =
          if (s.pool w).find .ready = some k then
            { (s.pool w).bufs[k] with holders := (s.pool w).bufs[k].holders.put .copySource true }
          else (s.pool w).bufs[k]) ∧
      (t.pool w).job =
        some { target := k0, source := (s.pool w).find .ready, seq := hiHalf x.data
               time := s.timeBase, index := i, phase := .reading, copied := 0, held := none } ∧
      Requested s t
        { who := .copyJob w, write := false
          adr := (match (s.pool w).find .ready with
            | some r => memAdr ((s.win w).bufferBase + r.val * (s.win w).size + 8 + 4 * i)
            | none => memAdr ((s.win w).neutralAddress + 4 * i))
          be := 0xF, data := 0, urgent := false } ∧
      (t.pool w).expected = (s.pool w).expected + 1 ∧ (t.pool w).lastOutcome = .accepted ∧
      (t.pool w).lastSeq = (s.pool w).lastSeq ∧ (t.pool w).commits = (s.pool w).commits ∧
      (t.pool w).nextInbound = (s.pool w).nextInbound ∧ (t.pool w).timer = (s.pool w).timer ∧
      (t.pool w).ownMark = (s.pool w).ownMark ∧ (t.pool w).committed = (s.pool w).committed ∧
      ChangesOnly [.queue, .waiting, .pools, .requests, .port, .copyPtr] s t

/-! ### Control requests (chapters 3, 9, 10) -/

/-- R68, R166, R167: a START is taken in SETUP only; there it begins a load with the read of image word 0.
In every other state it is REFUSED and changes nothing else. -/
def Obligations.StartBeginsALoadInSetupOnly : Prop :=
  ∀ (s : State) (x : HostWrite), AtHead s x → NoGrantDue s → s.controlWord x.adr = some 0 →
    x.be = 0xF → x.data = 1 →
    ∃ t, exec .start s = .next t ∧ HeadTaken s t ∧
      (s.dev = .setup →
        t.outcome = .done ∧ t.dev = .loading ∧
        t.load = some { phase := .header, index := 0, length := none, crc := 0xFFFF, shadow := [] } ∧
        Requested s t { who := .load, write := false, adr := memAdr (s.base + 0x100), be := 0xF
                        data := 0, urgent := false } ∧
        ChangesOnly [.queue, .waiting, .outcome, .dev, .load, .requests, .port] s t) ∧
      (s.dev ≠ .setup → t.outcome = .refused ∧ ChangesOnly [.queue, .waiting, .outcome] s t)

/-- R174, R25, R41, R85, R104, R108, R125, R161: a STOP in RUN ends every job, timer and inbound frame, lets
lanes that are SENDING finish, and enters STOPPING, or SETUP at once when no lane is SENDING. Requests of
the host, of lane fetches and of the journal stay on the list, and so does an access of theirs in progress
(R85). In STOPPING READY and RETIRED buffers keep their holders but for a copy source's; lanes keep their
counts and frame numbers. At SETUP entry STOPPED is raised with the device state RUN and no lanes. That an
outbound lane keeps its CRC accumulator, and that the cleared one of an inbound lane (R150, R161) is 0, is
the model's choice (log 6). -/
def Obligations.StopInRunTearsDown : Prop :=
  ∀ (s : State) (x : HostWrite), AtHead s x → NoGrantDue s → s.controlWord x.adr = some 0 →
    x.be = 0xF → x.data = 2 → s.dev = .run →
    ∃ t, exec .stop s = .next t ∧ HeadTaken s t ∧ t.outcome = .done ∧
      (∀ w : Fin 16, t.pool w = { s.pool w with
        bufs := (t.pool w).bufs, job := none, timer := none, ownMark := false }) ∧
      (∀ (w : Fin 16) (k : Fin 8),
        (t.pool w).bufs[k].seq = (s.pool w).bufs[k].seq ∧
        (t.pool w).bufs[k].time = (s.pool w).bufs[k].time ∧
        ((s.pool w).bufs[k].st = .filling ∨ (s.pool w).bufs[k].st = .committing →
          (t.pool w).bufs[k] =
            { (s.pool w).bufs[k] with st := .free, holders := HolderSet.empty, map := [] })) ∧
      (∀ z : Fin 6,
        ((s.out z).st = .idle → t.out z = s.out z) ∧
        ((s.out z).st = .sending →
          t.out z = { s.out z with nextStart := none, pulse := PulseCheck.zero }) ∧
        ((s.out z).st = .waiting ∨ (s.out z).st = .between →
          t.out z = { s.out z with st := .idle, nextStart := none, pulse := PulseCheck.zero })) ∧
      (∀ y : Fin 2,
        t.inl y = { s.inl y with st := .idle, frames := [], crc := 0, slot := none }) ∧
      (∀ r ∈ t.requests, r ∈ s.requests ∨ r.who = .journal) ∧
      (∀ r ∈ t.requests, (∀ w, r.who ≠ .copyJob w) ∧ ∀ y, r.who ≠ .inLane y) ∧
      (∀ r ∈ s.requests, (∀ w, r.who ≠ .copyJob w) → (∀ y, r.who ≠ .inLane y) → r ∈ t.requests) ∧
      (∀ a, s.port = some a → (∀ w, a.req.who ≠ .copyJob w) → (∀ y, a.req.who ≠ .inLane y) →
        t.port = some a) ∧
      (∀ a, s.port = some a → (∃ w, a.req.who = .copyJob w) ∨ (∃ y, a.req.who = .inLane y) →
        t.port = some { req := a.req, withdrawn := true }) ∧
      t.stopLanes = (allOuts.filter fun z => (s.out z).st == .sending).length ∧
      ((∃ z : Fin 6, (s.out z).st = .sending) →
        t.dev = .stopping ∧ (∀ z : Fin 6, t.sending[z] = true ↔ (s.out z).st = .sending) ∧
        (∀ (w : Fin 16) (k : Fin 8), (s.pool w).bufs[k].st ≠ .filling →
          (s.pool w).bufs[k].st ≠ .committing →
          (t.pool w).bufs[k] = (s.pool w).bufs[k].without .copySource) ∧
        t.startReached = s.startReached ∧ t.flags = s.flags ∧ t.journal = s.journal) ∧
      ((∀ z : Fin 6, (s.out z).st ≠ .sending) →
        t.dev = .setup ∧ t.startReached = false ∧ ReportedStopped s t 2 0 ∧
        ∀ (w : Fin 16) (k : Fin 8), (t.pool w).bufs[k].st = .free) ∧
      ChangesOnly [.queue, .waiting, .outcome, .dev, .sending, .stopLanes, .startReached, .pools, .outs,
        .ins, .requests, .port, .flags, .journal] s t

/-- R166, R175, R85: a STOP in LOADING abandons the load and raises STOPPED, with the device state LOADING
and no lanes; every request but the load's, and an access in progress of another requester, stays. In SETUP
and STOPPING it is DONE with no effect. -/
def Obligations.StopOutsideRun : Prop :=
  ∀ (s : State) (x : HostWrite), AtHead s x → NoGrantDue s → s.controlWord x.adr = some 0 →
    x.be = 0xF → x.data = 2 →
    (s.dev = .loading →
      ∃ t, exec .stop s = .next t ∧ HeadTaken s t ∧ t.outcome = .done ∧ t.load = none ∧
        t.dev = .setup ∧ ReportedStopped s t 1 0 ∧ (∀ r ∈ t.requests, r.who ≠ .load) ∧
        (∀ r ∈ t.requests, r ∈ s.requests ∨ r.who = .journal) ∧
        (∀ r ∈ s.requests, r.who ≠ .load → r ∈ t.requests) ∧
        (∀ a, s.port = some a →
          t.port = some { req := a.req, withdrawn := a.withdrawn || decide (a.req.who = .load) }) ∧
        ChangesOnly [.queue, .waiting, .outcome, .load, .dev, .flags, .journal, .requests, .port] s t) ∧
    (s.dev = .setup ∨ s.dev = .stopping →
      ∃ t, exec .stop s = .next t ∧ HeadTaken s t ∧ t.outcome = .done ∧
        ChangesOnly [.queue, .waiting, .outcome] s t)

/-- R68, R166: any other value written to control word 0, or a write that lacks an enable, is UNKNOWN and
does nothing else. -/
def Obligations.UnknownRequestIsRecorded : Prop :=
  ∀ (s : State) (x : HostWrite), AtHead s x → s.controlWord x.adr = some 0 →
    x.be ≠ 0xF ∨ x.data ≠ 1 ∧ x.data ≠ 2 →
    ∃ t, exec .unknownRequest s = .next t ∧ HeadTaken s t ∧ t.outcome = .unknown ∧
      ChangesOnly [.queue, .waiting, .outcome] s t

/-- R180, R69: an acknowledge clears the flags of the kinds whose positions carry a 1 in bytes whose
enables are set, and changes nothing else. -/
def Obligations.AcknowledgeClearsTheNamedFlags : Prop :=
  ∀ (s : State) (x : HostWrite), AtHead s x → s.controlWord x.adr = some 1 →
    ∃ t, exec .acknowledge s = .next t ∧ HeadTaken s t ∧
      (∀ k : Nat, k < 17 → t.flags.getLsbD k =
        (s.flags.getLsbD k && !(x.data.getLsbD k && x.be.getLsbD (k / 8)))) ∧
      ChangesOnly [.queue, .waiting, .flags] s t

/-- R70: a write to a control word other than 0 and 1 is dropped in the event SU takes it. -/
def Obligations.OtherControlWriteIsDropped : Prop :=
  ∀ (s : State) (x : HostWrite) (j : Nat), AtHead s x → s.controlWord x.adr = some j → 2 ≤ j →
    ∃ t, exec .controlWriteDropped s = .next t ∧ HeadTaken s t ∧
      ChangesOnly [.queue, .waiting] s t

/-! ### Reads (chapters 2, 3, 11) -/

/-- R53, R67, R194: word j of the control area stands at profile base + 4j, for j below 64. A read of a
control word is answered from the part's own state with the whole word and changes nothing else; words 5 to
7 and 56 to 63 read 0. The fields of the others stand as numbers at their positions, with the codes of
R193. R28: the FREE buffer count is, in RUN and STOPPING, the number of FREE buffers of an enabled window's
pool, and 0 otherwise; committing is yes while a buffer is COMMITTING. -/
def Obligations.ControlReadIsAnswered : Prop :=
  (∀ (s : State) (w : Fin 16),
    s.freeCount w =
      (if (s.dev = .run ∨ s.dev = .stopping) ∧ (s.win w).enabled = true then
        ((List.finRange 8).filter fun k =>
          decide (k.val < (s.win w).bufferCount ∧ (s.pool w).bufs[k].st = .free)).length
      else 0) ∧
    ((s.pool w).isCommitting = true ↔ ∃ k : Fin 8, (s.pool w).bufs[k].st = .committing)) ∧
  (∀ (s : State) (a : HostAdr) (j : Nat), s.controlWord a = some j ↔
    j < 64 ∧ s.base + 4 * j ≤ HostAdr.byte a ∧ HostAdr.byte a ≤ s.base + 4 * j + 3) ∧
  (∀ (s : State) (a : HostAdr) (be : Enables) (j : Nat), AtRead s a be → s.controlWord a = some j →
    exec .hostReadTaken s = .next { s with waiting := none, su := .free, readData := s.control j } ∧
    (5 ≤ j ∧ j ≤ 7 ∨ 56 ≤ j → s.control j = 0)) ∧
  [DevState.setup, .loading, .run, .stopping].map DevState.code = [0, 1, 2, 3] ∧
  [ReqOutcome.none, .done, .refused, .unknown].map ReqOutcome.code = [0, 1, 2, 3] ∧
  [CueState.empty, .live, .stale].map CueState.code = [0, 1, 2] ∧
  [CloseOutcome.none, .accepted, .notRunning, .notWriter, .malformed, .busy, .seqMismatch,
    .countMismatch, .incomplete, .noBuffer].map CloseOutcome.code = [0, 1, 2, 3, 4, 5, 6, 7, 8, 9] ∧
  [Writer.host, .i0, .i1].map Writer.code = [0, 1, 2] ∧
  [OutState.idle, .waiting, .sending, .between].map OutState.code = [0, 1, 2, 3] ∧
  [InState.idle, .listening, .receiving, .discarding].map InState.code = [0, 1, 2, 3] ∧
  [JState.off, .awaiting, .recording, .halted, .draining, .ended].map JState.code =
    [0, 1, 2, 3, 4, 5] ∧
  [RefusalReason.headWord, .outOfPayload, .inboundPayload, .stopping, .profileImage, .neutralRecord,
    .journalRing].map RefusalReason.code = [0, 1, 2, 3, 4, 5, 6] ∧
  ∀ s : State,
    (s.control 0).toNat = s.dev.code + 2 ^ 8 * s.outcome.code ∧
    (s.control 1).toNat = s.flags.toNat ∧
    s.control 2 = s.timeBase ∧
    (s.journal.writeIndex < 4096 → (s.control 3).toNat =
      s.journal.writeIndex + 2 ^ 12 * s.journal.st.code + 2 ^ 16 * s.journal.wrap.toNat) ∧
    (s.loadErr.index < 4096 → s.loadErr.check ≤ 12 → (s.control 4).toNat =
      s.loadErr.index + 2 ^ 12 * s.loadErr.check + 2 ^ 16 * s.journal.lost.toNat) ∧
    (∀ w : Fin 16,
      (s.control (8 + 2 * w.val)).toNat =
        (s.cueState w).code + 2 ^ 2 * bit (s.pool w).isCommitting + 2 ^ 3 * bit (s.pool w).ownMark +
          2 ^ 8 * (s.pool w).lastOutcome.code + 2 ^ 16 * s.freeCount w ∧
      (s.control (9 + 2 * w.val)).toNat =
        (s.pool w).lastSeq.toNat + 2 ^ 16 * (s.pool w).commits.toNat) ∧
    (∀ x : Fin 6,
      (s.control (40 + 2 * x.val)).toNat =
        (s.out x).st.code + 2 ^ 8 * (s.out x).saturations.toNat + 2 ^ 16 * (s.out x).frameNo.toNat ∧
      (s.control (41 + 2 * x.val)).toNat =
        (s.out x).underruns.toNat + 2 ^ 8 * (s.out x).earlies.toNat +
          2 ^ 16 * (s.out x).flywheels.toNat + 2 ^ 24 * (s.out x).drifts.toNat) ∧
    (∀ y : Fin 2,
      (s.control (52 + 2 * y.val)).toNat = (s.inl y).st.code + 2 ^ 16 * (s.inl y).lastNo.toNat ∧
      (s.control (53 + 2 * y.val)).toNat =
        (s.inl y).crcErrors.toNat + 2 ^ 8 * (s.inl y).cuts.toNat + 2 ^ 16 * (s.inl y).gaps.toNat +
          2 ^ 24 * (s.inl y).noBuffers.toNat)

/-- R44, R46, R65, R195, R18: the head word of a host window, the close word, the out-of-payload part and,
in STOPPING, the head word of an inbound window are answered without a memory access and change nothing
else. R28, R30, R44: committing is yes while a buffer is COMMITTING, and the touched count is the number of
words of the FILLING buffer with a written byte, and 0 without a FILLING buffer. -/
def Obligations.WindowPartsAreAnswered : Prop :=
  (∀ p : Pool,
    (p.isCommitting = true ↔ ∃ k : Fin 8, p.bufs[k].st = .committing) ∧
    ((∀ k : Fin 8, p.bufs[k].st ≠ .filling) → p.fillingTouched = 0) ∧
    ∀ (k : Fin 8) (n : Nat), p.bufs[k].st = .filling →
      (∀ j : Fin 8, p.bufs[j].st = .filling → j = k) →
      (p.bufs[k].map).Pairwise (fun c d => c.1 < d.1) → (∀ c ∈ p.bufs[k].map, c.1 < n) →
      p.fillingTouched = ((List.range n).filter fun i => decide ((p.bufs[k].map).get i ≠ 0)).length) ∧
  ∀ (s : State) (a : HostAdr) (be : Enables) (w : Fin 16), AtRead s a be →
    s.dev = .run ∨ s.dev = .stopping → s.controlWord a = none → s.windowAt a = some w →
    (s.partAt w a = .close →
      exec .hostReadTaken s = .next { s with
        waiting := none, su := .free, readData := BitVec.ofNat 32 (s.pool w).lastOutcome.code }) ∧
    (s.partAt w a = .outside →
      exec .hostReadTaken s = .next { s with waiting := none, su := .free, readData := 0 }) ∧
    (s.partAt w a = .head → (s.win w).writer = .host → (s.pool w).fillingTouched < 1024 →
      exec .hostReadTaken s = .next { s with
        waiting := none, su := .free
        readData := BitVec.ofNat 32 ((s.cueState w).code + 2 ^ 2 * bit (s.pool w).isCommitting +
          2 ^ 6 * (s.pool w).fillingTouched + 2 ^ 16 * (s.pool w).expected.toNat) }) ∧
    (s.partAt w a = .head → (s.win w).writer ≠ .host → s.dev = .stopping →
      exec .hostReadTaken s = .next { s with
        waiting := none, su := .free
        readData := BitVec.ofNat 32 ((s.cueState w).code +
          2 ^ 3 * bit ((s.pool w).holding .view).isSome + 2 ^ 4 * (s.win w).writer.code +
          2 ^ 16 * (match (s.pool w).holding .view with
            | some k => ((s.pool w).bufs[k].seq).toNat
            | none => 0)) })

/-- R60, R61: a payload read of a host window in RUN takes each byte from the first source that supplies
it, in the order FILLING, COMMITTING, READY, neutral record, and reads each such source once, in that
order. R63, R64: in STOPPING, and of an inbound window, it reads one whole word: of the buffer that holds
an inbound window's view, else of the READY buffer, else of the neutral record. R6, R96: the address of the
word in each source, and which buffer is the one found. -/
def Obligations.MergedReadTakesTheFirstSource : Prop :=
  (∀ (p : Pool) (st : BufState) (h : Holder),
    (∀ k, p.find st = some k → p.bufs[k].st = st) ∧
    (p.find st = none → ∀ k : Fin 8, p.bufs[k].st ≠ st) ∧
    (∀ k, p.holding h = some k → p.bufs[k].holders.has h = true) ∧
    (p.holding h = none → ∀ k : Fin 8, p.bufs[k].holders.has h = false)) ∧
  (∀ (s : State) (w : Fin 16) (i : Nat),
    (∀ (st : BufState) (k : Fin 8), (s.pool w).find st = some k → s.mapSource w st i =
      (((s.pool w).bufs[k].map).get i,
        memAdr ((s.win w).bufferBase + k.val * (s.win w).size + 8 + 4 * i))) ∧
    (∀ st, (s.pool w).find st = none → (s.mapSource w st i).1 = 0) ∧
    s.restSource w i =
      (match (s.pool w).find .ready with
        | some k => memAdr ((s.win w).bufferBase + k.val * (s.win w).size + 8 + 4 * i)
        | none => memAdr ((s.win w).neutralAddress + 4 * i))) ∧
  (∀ (s : State) (a : HostAdr) (be : Enables) (w : Fin 16) (i : Nat), AtRead s a be → NoGrantDue s →
    s.dev = .run → s.controlWord a = none → s.windowAt a = some w → s.partAt w a = .payload i →
    (s.win w).writer = .host →
    ((s.mergedParts w i).map fun p => p.adr).Sublist
      [(s.mapSource w .filling i).2, (s.mapSource w .committing i).2, s.restSource w i] ∧
    (∀ p ∈ s.mergedParts w i, p.be = 0xF ∧ p.keep ≠ 0) ∧
    (∀ j : Nat, j < 4 →
      ((s.mergedParts w i).filter fun p => p.keep.getLsbD j).map (fun p => p.adr) =
        [ if (s.mapSource w .filling i).1.getLsbD j then (s.mapSource w .filling i).2
          else if (s.mapSource w .committing i).1.getLsbD j then (s.mapSource w .committing i).2
          else s.restSource w i ]) ∧
    ∃ t p ps, s.mergedParts w i = p :: ps ∧ exec .hostReadTaken s = .next t ∧
      t.su = .reading p ps 0 ∧ t.waiting = none ∧
      Requested s t { who := .host, write := false, adr := p.adr, be := 0xF, data := 0
                      urgent := false } ∧
      ChangesOnly [.waiting, .su, .requests, .port] s t) ∧
  ∀ (s : State) (a : HostAdr) (be : Enables) (w : Fin 16) (i : Nat) (source : MemAdr), AtRead s a be →
    NoGrantDue s → s.controlWord a = none → s.windowAt a = some w → s.partAt w a = .payload i →
    s.dev = .stopping ∨ s.dev = .run ∧ (s.win w).writer ≠ .host →
    source =
      (match (if (s.win w).writer = .host then none else (s.pool w).holding .view),
          (s.pool w).find .ready with
        | some k, _ => memAdr ((s.win w).bufferBase + k.val * (s.win w).size + 8 + 4 * i)
        | none, some k => memAdr ((s.win w).bufferBase + k.val * (s.win w).size + 8 + 4 * i)
        | none, none => memAdr ((s.win w).neutralAddress + 4 * i)) →
    ∃ t, exec .hostReadTaken s = .next t ∧ t.waiting = none ∧
      t.su = .reading { adr := source, be := 0xF, keep := 0xF } [] 0 ∧
      Requested s t { who := .host, write := false, adr := source, be := 0xF, data := 0
                      urgent := false } ∧
      ChangesOnly [.waiting, .su, .requests, .port] s t

/-- R17, R45, R195: a head-word read of an inbound window in RUN moves the host view to the READY buffer
and answers with the buffer that then holds it; a RETIRED buffer the view leaves as its last holder
becomes FREE. Nothing else changes. -/
def Obligations.HeadWordReadMovesTheView : Prop :=
  ∀ (s : State) (a : HostAdr) (be : Enables) (w : Fin 16), AtRead s a be → s.dev = .run →
    s.controlWord a = none → s.windowAt a = some w → s.partAt w a = .head →
    (s.win w).writer ≠ .host →
    ∃ t, exec .headWordReadViewMove s = .next t ∧ t.waiting = none ∧
      (∀ k : Fin 8, (t.pool w).bufs[k].holders.has .view = true ↔ (s.pool w).find .ready = some k) ∧
      OnlyBuffers w s t ∧
      (∀ k : Fin 8, (t.pool w).bufs[k] =
        if (s.pool w).find .ready = some k then
          { (s.pool w).bufs[k].without .view with
            holders := (((s.pool w).bufs[k].without .view).holders).put .view true }
        else (s.pool w).bufs[k].without .view) ∧
      t.readData = BitVec.ofNat 32 ((s.cueState w).code +
        2 ^ 3 * bit ((s.pool w).find .ready).isSome + 2 ^ 4 * (s.win w).writer.code +
        2 ^ 16 * (match (s.pool w).find .ready with
          | some k => ((s.pool w).bufs[k].seq).toNat
          | none => 0)) ∧
      OtherPools w s t ∧ ChangesOnly [.waiting, .readData, .pools] s t

/-! ### The memory port (chapter 4) -/

/-- R73: every performance completes; a write stores exactly its enabled bytes, and every other byte of
cue memory, and every byte at a read, reads as before. R75, R41, R120, R161, R175, R190: the result of an
access whose requester has withdrawn is discarded: nothing else of the part changes but the port and its
list, except that an outbound lane fetches on. -/
def Obligations.PerformanceStoresExactlyTheEnabledBytes : Prop :=
  (∀ (c : Instr) (s : State) (a : Access), performs c a.req = true → s.rst = false →
    s.port = some a → MemoryLaw s →
    ∃ t, exec c s = .next t ∧
      ∀ n : Nat, t.mem.readByte n =
        if a.req.write = true ∧ MemAdr.byte a.req.adr ≤ n ∧ n < MemAdr.byte a.req.adr + 4 ∧
            a.req.be.getLsbD (n - MemAdr.byte a.req.adr) = true then
          byteOf a.req.data (n - MemAdr.byte a.req.adr)
        else s.mem.readByte n) ∧
  ∀ (c : Instr) (s : State) (a : Access), performs c a.req = true → s.rst = false →
    s.port = some a → a.withdrawn = true →
    ((∀ x, a.req.who ≠ .outLane x) →
      ∃ t, exec c s = .next t ∧ Regranted s t ∧
        ChangesOnly [.mem, .requests, .port, .copyPtr] s t) ∧
    ∀ x, a.req.who = .outLane x → Requester.outLane x ∉ s.requests.map Request.who →
      ∃ t, exec c s = .next t ∧ OtherOuts x s t ∧
        t.out x = { s.out x with asked := (t.out x).asked, plan := (t.out x).plan } ∧
        ((s.out x).st = .sending → (s.out x).asked = none → (s.out x).fetch.length < 8 →
          ∀ p ps, (s.out x).plan = p :: ps →
          (t.out x).asked = some p ∧ (t.out x).plan = ps ∧
          Follows t (fetchOf x p (decide ((s.entry p.entry).slot + 3 < (s.out x).begun)))) ∧
        ((s.out x).st ≠ .sending ∨ (s.out x).asked ≠ none ∨ 8 ≤ (s.out x).fetch.length ∨
            (s.out x).plan = [] →
          t.out x = s.out x ∧ Regranted s t) ∧
        ChangesOnly [.outs, .mem, .requests, .port, .copyPtr] s t

/-- R50, R51, R56, R61, R73, R29, R59: a host write performed finishes SU's write and adds its enabled
bytes to the written map of the buffer it went to; a read performed gives SU the bytes of its source, and
SU issues the next read or answers the host. Every other request waits on or is granted (R76). Byte j of a
word lies at its address + j (log 11), and a read returns the whole word, whatever its enables (log 10). -/
def Obligations.HostAccessIsPerformed : Prop :=
  ∀ (s : State) (r : Request), InProgress s r → r.who = .host →
    (r.write = true → ∀ m, s.su = .writing m →
      ∃ t, exec .hostAccessPerformed s = .next t ∧ t.su = .free ∧ Regranted s t ∧
        (m = none → t.pools = s.pools) ∧
        (∀ p, m = some p →
          OtherPools p.w s t ∧
          (∀ k, k ≠ p.k → (t.pool p.w).bufs[k] = (s.pool p.w).bufs[k]) ∧
          t.pool p.w = { s.pool p.w with bufs := (t.pool p.w).bufs } ∧
          (t.pool p.w).bufs[p.k] =
            { (s.pool p.w).bufs[p.k] with map := ((s.pool p.w).bufs[p.k].map).add p.i r.be } ∧
          (((s.pool p.w).bufs[p.k].map).Pairwise (fun c d => c.1 < d.1) →
            ∀ n, ((t.pool p.w).bufs[p.k].map).get n =
              if n = p.i then ((s.pool p.w).bufs[p.k].map).get n ||| r.be
              else ((s.pool p.w).bufs[p.k].map).get n)) ∧
        ChangesOnly [.su, .pools, .mem, .requests, .port, .copyPtr] s t) ∧
    (r.write = false → ∀ cur acc, s.su = .reading cur [] acc →
      ∃ t, exec .hostAccessPerformed s = .next t ∧ t.su = .free ∧ t.waiting = none ∧ Regranted s t ∧
        (∀ j : Nat, j < 4 → byteOf t.readData j =
          if cur.keep.getLsbD j then s.mem.readByte (MemAdr.byte r.adr + j) else byteOf acc j) ∧
        ChangesOnly [.su, .waiting, .readData, .requests, .port, .copyPtr] s t) ∧
    (r.write = false → ∀ cur p ps acc, s.su = .reading cur (p :: ps) acc →
      ∃ t v, exec .hostAccessPerformed s = .next t ∧ t.su = .reading p ps v ∧
        (∀ j : Nat, j < 4 → byteOf v j =
          if cur.keep.getLsbD j then s.mem.readByte (MemAdr.byte r.adr + j) else byteOf acc j) ∧
        Follows t { who := .host, write := false, adr := p.adr, be := p.be, data := 0
                    urgent := false } ∧
        OthersWait .host s t ∧
        ChangesOnly [.su, .requests, .port, .copyPtr] s t)

/-- R113: a fetched word joins the tail of the lane's fetch buffer, and the next word of the plan is
requested if the buffer then has room. Every other request waits on or is granted (R76). -/
def Obligations.LaneFetchEntersTheFetchBuffer : Prop :=
  ∀ (s : State) (r : Request) (x : Fin 6) (p : PlanWord), InProgress s r → r.who = .outLane x →
    r.write = false → (s.out x).asked = some p → (s.out x).st = .sending →
    Requester.outLane x ∉ s.requests.map Request.who →
    ∃ t, exec .laneFetchPerformed s = .next t ∧ OtherOuts x s t ∧
      t.out x = { s.out x with
        asked := (t.out x).asked, plan := (t.out x).plan
        fetch := (s.out x).fetch ++ [(p.entry, s.mem.readWord r.adr)] } ∧
      (∀ q qs, (s.out x).plan = q :: qs → (s.out x).fetch.length < 7 →
        (t.out x).asked = some q ∧ (t.out x).plan = qs ∧
        Follows t { who := .outLane x, write := false, adr := q.adr, be := 0xF, data := 0
                    urgent := decide ((s.entry q.entry).slot + 3 < (s.out x).begun) }) ∧
      ((s.out x).plan = [] ∨ 7 ≤ (s.out x).fetch.length →
        (t.out x).asked = none ∧ (t.out x).plan = (s.out x).plan ∧ Regranted s t) ∧
      OthersWait (.outLane x) s t ∧
      ChangesOnly [.outs, .requests, .port, .copyPtr] s t

/-- R155, R29, R158, R42, R88, R90, R185: a half write performed takes the half out of the receive buffer
and adds its two bytes to the map, and the next half is requested; the last half of a GOOD frame that fills
the map commits the buffer with the next inbound sequence and the pulse time; the timer takes its new
deadline, RESUMED is raised exactly if a window goes from STALE to LIVE, and JW is offered each RESUMED and
then COMMIT, of no copied words. With a map that is not full the buffer is discarded and INBOUND_CUT is
raised as MALFORMED. The last write of a discarded frame that is alone in hand lets its buffer go. Every
other request waits on or is granted (R76). That the map of the committed buffer is empty is the model's
reading (log 15), and that the bytes of a half write without an enable carry 0 is its choice (log 29). -/
def Obligations.InboundWriteIsPerformed : Prop :=
  (∀ (s : State) (r : Request) (y : Fin 2) (w : Fin 16) (k : Fin 8) (f : InFrame), InProgress s r →
    r.who = .inLane y → r.write = true → s.inWindow y = some w → (s.inl y).frames = [f] →
    f.outcome = .discard → f.buffer = some k →
    ∃ t, exec .inboundWritePerformed s = .next t ∧ OtherIns y s t ∧ OtherPools w s t ∧
      t.inl y = { s.inl y with frames := [] } ∧
      t.pool w = { s.pool w with
        bufs := (s.pool w).bufs.set k (Buffer.discard (s.pool w).bufs[k]) } ∧
      OthersWait (.inLane y) s t ∧
      ChangesOnly [.ins, .pools, .mem, .requests, .port, .copyPtr] s t) ∧
  ∀ (s : State) (r : Request) (y : Fin 2) (w : Fin 16) (k : Fin 8) (f : InFrame) (fs : List InFrame)
    (h : RxHalf) (hs : List RxHalf), InProgress s r → r.who = .inLane y → r.write = true →
    Requester.inLane y ∉ s.requests.map Request.who → s.inWindow y = some w →
    (s.inl y).frames = f :: fs → f.buffer = some k → f.halves = h :: hs →
    (f.outcome = .opened ∨ f.outcome = .good ∧ hs ≠ [] →
      ∃ t, exec .inboundWritePerformed s = .next t ∧ OtherIns y s t ∧ OtherPools w s t ∧
        t.inl y = { s.inl y with frames := { f with halves := hs } :: fs } ∧
        t.pool w = { s.pool w with bufs := (t.pool w).bufs } ∧
        (∀ c, c ≠ k → (t.pool w).bufs[c] = (s.pool w).bufs[c]) ∧
        (t.pool w).bufs[k] =
          { (s.pool w).bufs[k] with map := ((s.pool w).bufs[k].map).add h.word h.enables } ∧
        (∀ g gs, hs = g :: gs →
          Follows t { who := .inLane y, write := true
                      adr := memAdr ((s.win w).bufferBase + k.val * (s.win w).size + 8 + 4 * g.word)
                      be := if g.high then 0b1100 else 0b0011, data := g.placed, urgent := false }) ∧
        OthersWait (.inLane y) s t ∧
        ChangesOnly [.ins, .pools, .mem, .requests, .port, .copyPtr] s t) ∧
    (f.outcome = .good → hs = [] → fs = [] →
      (((s.pool w).bufs[k].map).add h.word h.enables).full (s.win w).payloadLength = true →
      ∃ t, exec .inboundWritePerformed s = .next t ∧ OtherIns y s t ∧ OtherPools w s t ∧
        t.inl y = { s.inl y with frames := [] } ∧
        (t.pool w).bufs[k] =
          { st := .ready, holders := HolderSet.empty, seq := (s.pool w).nextInbound, time := f.time
            map := [] } ∧
        (∀ c, c ≠ k →
          (t.pool w).bufs[c] =
            if (s.pool w).find .ready = some c then
              { (s.pool w).bufs[c] with
                st := if (s.pool w).bufs[c].holders = HolderSet.empty then .free else .retired }
            else (s.pool w).bufs[c]) ∧
        (t.pool w).nextInbound = (s.pool w).nextInbound + 1 ∧
        (t.pool w).expected = (s.pool w).expected ∧
        (t.pool w).lastOutcome = (s.pool w).lastOutcome ∧ (t.pool w).job = (s.pool w).job ∧
        CommitNoticed w (s.pool w).nextInbound 0 [] s t ∧ FlagsKept [.resumed, .journalLost] s t ∧
        OthersWait (.inLane y) s t ∧
        ChangesOnly [.ins, .pools, .flags, .journal, .mem, .requests, .port, .copyPtr] s t) ∧
    (f.outcome = .good → hs = [] → fs = [] →
      (((s.pool w).bufs[k].map).add h.word h.enables).full (s.win w).payloadLength = false →
      ∃ t, exec .inboundWritePerformed s = .next t ∧ OtherIns y s t ∧ OtherPools w s t ∧
        t.inl y = { s.inl y with frames := [], cuts := sat8 (s.inl y).cuts } ∧
        t.pool w = { s.pool w with
          bufs := (s.pool w).bufs.set k (Buffer.discard (s.pool w).bufs[k]) } ∧
        Reported s t .inboundCut (some y.val) ((f.number.getD 0).setWidth 32) 0 ∧
        OthersWait (.inLane y) s t ∧
        ChangesOnly [.ins, .pools, .flags, .journal, .mem, .requests, .port, .copyPtr] s t)

/-- R37: the word read for a copy-forward job is held, and the write of exactly the missing bytes of the
target's word is requested. Every other request waits on or is granted (R76). -/
def Obligations.CopyReadIsHeldAndWritten : Prop :=
  ∀ (s : State) (r : Request) (w : Fin 16) (j : CopyJob), InProgress s r → r.who = .copyJob w →
    r.write = false → (s.pool w).job = some j →
    ∃ t, exec .copyReadPerformed s = .next t ∧ OtherPools w s t ∧
      t.pool w = { s.pool w with
        job := some { j with held := some (s.mem.readWord r.adr), phase := .writing } } ∧
      Follows t
        { who := .copyJob w, write := true
          adr := memAdr ((s.win w).bufferBase + j.target.val * (s.win w).size + 8 + 4 * j.index)
          be := ~~~ ((s.pool w).bufs[j.target].map).get j.index
          data := s.mem.readWord r.adr, urgent := false } ∧
      OthersWait (.copyJob w) s t ∧
      ChangesOnly [.pools, .requests, .port, .copyPtr] s t

/-- R37, R36, R38, R40, R88, R90, R185: a copy-forward write performed completes its word; the job goes on
to the next word with a gap, or, when there is none, ends with the commit of its target, which releases the
copy source and supersedes the READY buffer; the timer takes its new deadline from the commit, RESUMED is
raised exactly if a window goes from STALE to LIVE, and JW is offered each RESUMED and then COMMIT, with
the words copied. Every other request waits on or is granted (R76). That the map of the committed buffer is
empty is the model's reading (log 15); that the next read carries all four byte enables, and that the job
holds no word from the write on, are its choices (logs 24, 27). -/
def Obligations.CopyWriteSeeksOnOrCommits : Prop :=
  ∀ (s : State) (r : Request) (w : Fin 16) (j : CopyJob) (m : WMap), InProgress s r →
    r.who = .copyJob w → r.write = true → (s.pool w).job = some j →
    m = ((s.pool w).bufs[j.target].map).add j.index r.be →
    (∀ i, j.index + 1 ≤ i → i < (s.win w).payloadLength → m.get i ≠ 0xF →
      (∀ n, j.index + 1 ≤ n → n < i → m.get n = 0xF) →
      ∃ t, exec .copyWritePerformed s = .next t ∧ OtherPools w s t ∧
        t.pool w = { s.pool w with
          bufs := (s.pool w).bufs.set j.target { (s.pool w).bufs[j.target] with map := m }
          job := some { j with index := i, phase := .reading, copied := j.copied + 1, held := none } } ∧
        Follows t
          { who := .copyJob w, write := false
            adr := (match j.source with
              | some c => memAdr ((s.win w).bufferBase + c.val * (s.win w).size + 8 + 4 * i)
              | none => memAdr ((s.win w).neutralAddress + 4 * i))
            be := 0xF, data := 0, urgent := false } ∧
        OthersWait (.copyJob w) s t ∧
        ChangesOnly [.pools, .mem, .requests, .port, .copyPtr] s t) ∧
    ((∀ i, j.index + 1 ≤ i → i < (s.win w).payloadLength → m.get i = 0xF) →
      ∃ t, exec .copyWritePerformed s = .next t ∧ OtherPools w s t ∧
        (t.pool w).job = none ∧
        (t.pool w).bufs[j.target] =
          { st := .ready, holders := HolderSet.empty, seq := j.seq, time := j.time, map := [] } ∧
        (∀ k, j.source = some k → (t.pool w).bufs[k].holders.has .copySource = false) ∧
        (∀ k, k ≠ j.target → (t.pool w).bufs[k] =
          Buffer.afterCommit (decide ((s.pool w).find .ready = some k))
            (if j.source = some k then (s.pool w).bufs[k].without .copySource
              else (s.pool w).bufs[k])) ∧
        (t.pool w).nextInbound = (s.pool w).nextInbound ∧
        (t.pool w).expected = (s.pool w).expected ∧
        (t.pool w).lastOutcome = (s.pool w).lastOutcome ∧
        CommitNoticed w j.seq (j.copied + 1) [] s t ∧ FlagsKept [.resumed, .journalLost] s t ∧
        OthersWait (.copyJob w) s t ∧
        ChangesOnly [.pools, .flags, .journal, .mem, .requests, .port, .copyPtr] s t)

/-- R168, R169: a word of the image that is not the last of its phase joins the shadow copy, is fed to the
CRC unless it is the checksum word, and the next word is requested; after word 7 with checks 1 and 2 passed
the body is read. Every other request waits on or is granted (R76). R196, R197: where the fields of the
header, of the window, lane and entry records and the records themselves stand in the image. From the
window count upward a window is not enabled (R169); that its other fields are then 0 is the model's choice
(log 30). -/
def Obligations.LoadReadsTheImageWordByWord : Prop :=
  (∀ (s : State) (r : Request) (j : LoadJob) (v : Word), InProgress s r → r.who = .load →
    r.write = false → s.load = some j → v = s.mem.readWord r.adr →
    (j.phase = .header ∧ j.index < 7 ∨
      j.phase = .header ∧ j.index = 7 ∧ Image.headerError (j.shadow ++ [v]) = none ∨
      j.phase = .body ∧ j.index + 1 < j.length.getD 0) →
    ∃ t, exec .loadReadPerformed s = .next t ∧
      t.load = some
        { phase := if j.phase = .header ∧ j.index < 7 then .header else .body
          index := j.index + 1
          length := if j.phase = .body then j.length
            else if j.index < 7 then none else some (Image.header (j.shadow ++ [v])).imageLength
          crc := if j.index = 1 then j.crc else crcHalf (crcHalf j.crc (hiHalf v)) (loHalf v)
          shadow := j.shadow ++ [v] } ∧
      Follows t { who := .load, write := false, adr := memAdr (s.base + 0x100 + 4 * (j.index + 1))
                  be := 0xF, data := 0, urgent := false } ∧
      OthersWait .load s t ∧
      ChangesOnly [.load, .requests, .port, .copyPtr] s t) ∧
  (∀ im : Image,
    im.header =
      { imageLength := ((im.getD 0 0).extractLsb' 0 16).toNat
        windowCount := ((im.getD 2 0).extractLsb' 16 16).toNat
        entryCount := ((im.getD 2 0).extractLsb' 0 16).toNat
        startDelay := ((im.getD 3 0).extractLsb' 0 16).toNat
        ringAddr := (im.getD 4 0).toNat
        capacity := ((im.getD 5 0).extractLsb' 0 16).toNat
        mode := [JMode.off, .continuous, .triggered, .unassigned].getD
          ((im.getD 5 0).extractLsb' 16 2).toNat .off
        full := if (im.getD 5 0).getLsbD 18 = true then .halt else .rollover
        trigger := ((im.getD 5 0).extractLsb' 24 5).toNat
        selected := (im.getD 6 0).extractLsb' 0 18
        mask := (im.getD 7 0).extractLsb' 0 17 }) ∧
  (∀ (im : Image) (k : Fin 16) (b : Nat), b = 8 + 8 * k.val →
    im.windowTable[k] =
      if k.val < im.header.windowCount then
        { enabled := (im.getD b 0).getLsbD 31
          writer := [Writer.host, .i0, .i1, .unassigned].getD
            ((im.getD b 0).extractLsb' 28 2).toNat .host
          mode := if (im.getD b 0).getLsbD 27 = true then .carry else .strict
          policy := [Policy.hold, .neutral, .decay, .unassigned].getD
            ((im.getD b 0).extractLsb' 24 2).toNat .hold
          group := [Group.none, .member 0, .member 1, .member 2, .member 3].getD
            ((im.getD b 0).extractLsb' 20 3).toNat .unassigned
          sizeCode := ((im.getD b 0).extractLsb' 16 3).toFin
          bufferCount := ((im.getD b 0).extractLsb' 8 4).toNat
          decayShift := ((im.getD b 0).extractLsb' 0 3).toNat
          logicalBase := (im.getD (b + 1) 0).toNat
          payloadLength := ((im.getD (b + 2) 0).extractLsb' 0 16).toNat
          timeout := ((im.getD (b + 2) 0).extractLsb' 16 16).toNat
          bufferBase := (im.getD (b + 3) 0).toNat
          neutralAddress := (im.getD (b + 4) 0).toNat }
      else WindowRec.zero) ∧
  (∀ (im : Image) (m : Fin 8) (b : Nat), b = 8 + 8 * im.header.windowCount + 8 * m.val →
    im.laneTable[m] =
      { enabled := (im.getD b 0).getLsbD 31
        timing := if (im.getD b 0).getLsbD 30 = true then .follower else .master
        edge := if (im.getD b 0).getLsbD 29 = true then .falling else .rising
        clock := if (im.getD b 0).getLsbD 28 = true then .gapped else .full
        rate := ((im.getD b 0).extractLsb' 24 2).toFin
        tolerance := ((im.getD b 0).extractLsb' 16 7).toNat
        slots := ((im.getD b 0).extractLsb' 0 7).toNat
        period := ((im.getD (b + 1) 0).extractLsb' 0 20).toNat
        filler := (im.getD (b + 2) 0).extractLsb' 0 16
        first := ((im.getD (b + 3) 0).extractLsb' 16 8).toNat
        count := ((im.getD (b + 3) 0).extractLsb' 0 8).toNat }) ∧
  ∀ (im : Image) (e : Fin 256) (b : Nat), b = 72 + 8 * im.header.windowCount + 3 * e.val →
    im.entryTable[e] =
      if e.val < im.header.entryCount then
        { kind := [EntryKind.pass16, .pass32, .scaleLeft, .scaleRightLogical, .scaleRightFloor,
            .scaleRightRound, .span, .delta, .test, .stamp, .seq, .store16, .store32].getD
            ((im.getD b 0).extractLsb' 28 4).toNat .unassigned
          window := ((im.getD b 0).extractLsb' 24 4).toFin
          high := (im.getD b 0).getLsbD 22
          slot := ((im.getD b 0).extractLsb' 16 6).toNat
          offset := ((im.getD (b + 1) 0).extractLsb' 0 10).toNat
          param := ((im.getD (b + 1) 0).extractLsb' 16 6).toNat
          const := im.getD (b + 2) 0 }
      else EntryRec.zero

/-- R169, R170, R145, R146: checks 1 and 2 on the header; then, on an image that passes them, checks 3 to 12
in order. An image passes when no record fails any of them; otherwise the load error names the first check
that fails and the lowest index that fails it, for check 8 in the first lane of the table that has one.
Which index check 8 names at its corners, and that an area of no bytes overlaps nothing, is the model's
reading (logs 16, 17). -/
def Obligations.TwelveChecksAreTakenInOrder : Prop :=
  (∀ (im : Image) (h : Header), h = im.header →
    im.headerError =
      if (im.getD 0 0).extractLsb' 16 16 ≠ 1 then some { check := 1, index := 0 }
      else if h.windowCount ≤ 16 ∧ h.entryCount ≤ 256 ∧ h.startDelay ≤ 1000 ∧
          h.imageLength = 8 + 8 * h.windowCount + 64 + 3 * h.entryCount then none
      else some { check := 2, index := 0 }) ∧
  ∀ (im : Image) (base : Nat) (crc : Half), im.headerError = none →
    (im.bodyError base crc = none ↔ ∀ c i, ¬ im.Fails base crc c i) ∧
    ∀ e, im.bodyError base crc = some e →
      im.Fails base crc e.check e.index ∧
      (∀ c, c < e.check → ∀ i, ¬ im.Fails base crc c i) ∧
      (e.check ≠ 8 → ∀ i, i < e.index → ¬ im.Fails base crc e.check i) ∧
      (e.check = 8 → ∃ m : Fin 8, im.BadEntry m e.index ∧
        (∀ l : Fin 8, l < m → ∀ i, ¬ im.BadEntry l i) ∧ ∀ i, i < e.index → ¬ im.BadEntry m i)

/-- R169, R171, R172, R24, R126, R161, R190: the last word of the image ends the load, and so does word 7
when a header check fails. With a check failed the device returns to SETUP, the load error names the check
and LOAD_FAILED is raised, and the active profile stays; with every check passed the image becomes the
active profile and every block takes its START values; R87: the group table follows the new window table.
R173: when the start instant is the time base, each enabled MASTER lane starts its first frame. Every
request that waits waits on or is granted (R76), but an old one of the journal, which is withdrawn (R190).
The values of the CRC accumulators outside a frame are the model's (log 6). -/
def Obligations.LoadEndsInSetupOrRun : Prop :=
  (∀ (s : State) (r : Request) (j : LoadJob) (e : LoadError), InProgress s r → r.who = .load →
    r.write = false → s.load = some j → j.phase = .header → j.index = 7 →
    Image.headerError (j.shadow ++ [s.mem.readWord r.adr]) = some e →
    ∃ t, exec .loadReadPerformed s = .next t ∧ t.dev = .setup ∧ t.load = none ∧ t.loadErr = e ∧
      Reported s t .loadFailed none (num e.check) (num e.index) ∧
      OthersWait .load s t ∧
      ChangesOnly [.dev, .load, .loadErr, .flags, .journal, .requests, .port, .copyPtr] s t) ∧
  ∀ (s : State) (r : Request) (j : LoadJob) (v : Word) (im : Image) (crc : Half), InProgress s r →
    r.who = .load → r.write = false → s.load = some j → v = s.mem.readWord r.adr →
    im = j.shadow ++ [v] → j.phase = .body → j.length = some (j.index + 1) → j.index ≠ 1 →
    crc = crcHalf (crcHalf j.crc (hiHalf v)) (loHalf v) →
    (∀ e, im.bodyError s.base crc = some e →
      ∃ t, exec .loadReadPerformed s = .next t ∧ t.dev = .setup ∧ t.load = none ∧ t.loadErr = e ∧
        Reported s t .loadFailed none (num e.check) (num e.index) ∧
        OthersWait .load s t ∧
        ChangesOnly [.dev, .load, .loadErr, .flags, .journal, .requests, .port, .copyPtr] s t) ∧
    (im.bodyError s.base crc = none →
      ∃ t, exec .loadReadPerformed s = .next t ∧ t.dev = .run ∧ t.load = none ∧
        t.loadErr = { check := 0, index := 0 } ∧ t.header = im.header ∧
        t.windows = im.windowTable ∧ t.lanes = im.laneTable ∧ t.entries = im.entryTable ∧
        t.startInstant = startInstantOf s.timeBase im.header.startDelay ∧
        t.startReached = decide (t.startInstant = s.timeBase) ∧
        t.raised .runStarted = true ∧ FlagsKept [.runStarted] s t ∧
        t.sending = Vector.replicate 6 false ∧
        (∀ (g : Fin 4) (w : Fin 16), t.groups[g][w] = true ↔
          (t.win w).enabled = true ∧ (t.win w).group = .member g) ∧
        ((∀ q ∈ s.requests, ∀ w, q.who ≠ .copyJob w) → t.copyPtr = 0) ∧
        (∀ w : Fin 16, (t.pool w).expected = 1 ∧ (t.pool w).nextInbound = 1 ∧
          (t.pool w).lastOutcome = .none ∧ (t.pool w).lastSeq = 0 ∧ (t.pool w).commits = 0 ∧
          (t.pool w).job = none ∧ (t.pool w).ownMark = false ∧ (t.pool w).committed = false ∧
          (t.pool w).timer =
            (if (t.win w).enabled = true ∧ 0 < (t.win w).timeout then
              some (s.timeBase + BitVec.ofNat 32 ((t.win w).timeout * 1000)) else none) ∧
          ∀ k : Fin 8, (t.pool w).bufs[k] =
            if k = 0 ∧ (t.win w).enabled = true ∧ (t.win w).writer = .host then Buffer.allocated
            else { (s.pool w).bufs[k] with st := .free, holders := HolderSet.empty, map := [] }) ∧
        (∀ x : Fin 6, (t.outRec x).enabled = false → t.out x = OutLane.zero) ∧
        (∀ x : Fin 6, (t.outRec x).enabled = true →
          t.startInstant ≠ s.timeBase ∨ (t.outRec x).timing = .follower →
          t.out x = { OutLane.zero with
            st := .waiting
            nextStart := if (t.outRec x).timing = .master then some t.startInstant else none }) ∧
        (∀ x : Fin 6, (t.outRec x).enabled = true → (t.outRec x).timing = .master →
          t.startInstant = s.timeBase →
          (t.out x).st = .sending ∧ (t.out x).begun = 1 ∧ (t.out x).frameNo = 1 ∧
          (t.out x).frameTime = s.timeBase ∧ (t.out x).line = some 1 ∧
          (t.out x).flags = FrameFlags.zero ∧
          (t.out x).nextStart = some (s.timeBase + BitVec.ofNat 32 (t.outRec x).period)) ∧
        (∀ y : Fin 2, t.inl y =
          if (t.inRec y).enabled = true then { InLane.zero with st := .listening }
          else InLane.zero) ∧
        t.entryState = Vector.replicate 256 EntryState.zero ∧
        (t.header.mode = .off → t.journal = Journal.zero) ∧
        (t.header.mode = .continuous → t.journal = { Journal.zero with
          st := .recording
          queue := if t.header.selected.getLsbD 13 = true then
            [{ kind := .runStarted, source := none, time := s.timeBase
               detail1 := t.startInstant, detail2 := num im.header.imageLength }] else [] }) ∧
        (t.header.mode = .triggered → t.journal =
          if t.header.trigger = 13 then { Journal.zero with
            st := .recording
            queue := [{ kind := .runStarted, source := none, time := s.timeBase
                        detail1 := t.startInstant, detail2 := num im.header.imageLength }] }
          else { Journal.zero with st := .awaiting }) ∧
        (∀ e, t.journal.queue = [e] →
          Follows t { who := .journal, write := true, adr := memAdr t.header.ringAddr, be := 0xF
                      data := e.word 0, urgent := false }) ∧
        (∀ q ∈ s.requests, q.who ≠ .journal → Follows t q) ∧
        (∀ q, Follows t q → q.who ≠ .journal → q ∈ s.requests ∨ ∃ x, q.who = .outLane x) ∧
        (∀ q, Follows t q → q.who = .journal → ∃ e, t.journal.queue = [e] ∧
          q = { who := .journal, write := true, adr := memAdr t.header.ringAddr, be := 0xF
                data := e.word 0, urgent := false }) ∧
        ChangesOnly [.dev, .load, .loadErr, .header, .windows, .lanes, .entries, .startInstant,
          .startReached, .sending, .pools, .groups, .outs, .entryState, .ins, .flags, .journal,
          .requests, .port, .copyPtr] s t)

/-- R187, R188: a journal word performed raises the word count; word 3 takes the entry out of the queue
and advances the write index, which rolls over or halts the journal at the capacity, and word 0 of the next
entry is requested. Every other request waits on or is granted (R76). That a DRAINING journal halts too is
the model's reading (log 18). -/
def Obligations.JournalWordIsPerformed : Prop :=
  ∀ (s : State) (r : Request) (e : JEntry) (es : List JEntry), InProgress s r → r.who = .journal →
    s.journal.queue = e :: es →
    ∃ t, exec .journalWordPerformed s = .next t ∧
      (s.journal.wordCount < 3 →
        t.journal = { s.journal with wordCount := s.journal.wordCount + 1 } ∧ t.flags = s.flags ∧
        Follows t
          { who := .journal, write := true
            adr := memAdr (s.header.ringAddr + 16 * s.journal.writeIndex +
              4 * (s.journal.wordCount + 1))
            be := 0xF, data := e.word (s.journal.wordCount + 1), urgent := false }) ∧
      (3 ≤ s.journal.wordCount → s.journal.writeIndex + 1 ≠ s.header.capacity →
        t.journal = { s.journal with
          queue := es, wordCount := 0, writeIndex := s.journal.writeIndex + 1
          st := if es = [] ∧ s.journal.st = .draining then .ended else s.journal.st } ∧
        t.flags = s.flags) ∧
      (3 ≤ s.journal.wordCount → s.journal.writeIndex + 1 = s.header.capacity →
        s.header.full = .rollover →
        t.journal = { s.journal with
          queue := es, wordCount := 0, writeIndex := 0
          wrap := if s.journal.wrap = 65535 then 65535 else s.journal.wrap + 1
          st := if es = [] ∧ s.journal.st = .draining then .ended else s.journal.st } ∧
        t.flags = s.flags) ∧
      (3 ≤ s.journal.wordCount →
        s.journal.writeIndex + 1 ≠ s.header.capacity ∨ s.header.full = .rollover →
        (es = [] → Regranted s t) ∧
        ∀ e2 rest, es = e2 :: rest → Follows t
          { who := .journal, write := true
            adr := memAdr (s.header.ringAddr + 16 * t.journal.writeIndex)
            be := 0xF, data := e2.word 0, urgent := false }) ∧
      (3 ≤ s.journal.wordCount → s.journal.writeIndex + 1 = s.header.capacity →
        s.header.full = .halt →
        t.journal = { s.journal with
          st := .halted, queue := [], wordCount := 0, writeIndex := 0, lost := t.journal.lost } ∧
        t.raised .journalFull = true ∧
        t.journal.lost.toNat =
          (if es = [] then s.journal.lost.toNat
           else min 65535 (s.journal.lost.toNat + es.length)) ∧
        (es ≠ [] → t.raised .journalLost = true) ∧
        FlagsKept (if es = [] then [.journalFull] else [.journalFull, .journalLost]) s t ∧
        Regranted s t) ∧
      OthersWait .journal s t ∧
      ChangesOnly [.journal, .flags, .mem, .requests, .port, .copyPtr] s t

/-- R185–R188: what JW makes of an offer, by its state and whether the kind is selected or the trigger, of
COMMIT as of every other kind: ignored, accepted, which requests the entry's word 0 where it finds the queue
empty, or lost. R179: a raise raises its flag, and no other but JOURNAL_LOST, and offers its entry; COMMIT,
which WU offers, has no flag (R40). R189: the STOPPED offer also ends the run's journal, or makes it drain.
R181, R177: ATN# is asserted exactly while a raised flag is enabled in the mask, and never under RST#. R200,
R193: the words of an entry, and the codes of the kinds. That a HALTED journal loses the offer of a failed
START like any other is the model's reading (log 25). -/
def Obligations.RaiseOffersAnEntryToTheJournal : Prop :=
  (∀ (s : State) (e : JEntry),
    let t := s.offer e
    FlagsKept [.journalLost] s t ∧ ChangesOnly [.flags, .journal, .requests] s t ∧
    (e.kind = .journalLost ∨ e.kind = .journalFull → t = s) ∧
    (s.journal.st = .off ∨ s.journal.st = .draining ∨ s.journal.st = .ended → t = s) ∧
    (e.kind ≠ .journalLost → e.kind ≠ .journalFull →
      (s.journal.st = .recording ∨ s.journal.st = .halted →
        s.header.selected.getLsbD e.kind.code = false → t = s) ∧
      (s.journal.st = .recording → s.header.selected.getLsbD e.kind.code = true →
        EntryAccepted .recording e s t) ∧
      (s.journal.st = .awaiting → s.header.trigger ≠ e.kind.code → t = s) ∧
      (s.journal.st = .awaiting → s.header.trigger = e.kind.code → EntryAccepted .recording e s t) ∧
      (s.journal.st = .halted → s.header.selected.getLsbD e.kind.code = true →
        EntryLost .halted s t))) ∧
  (∀ (s : State) (k : Kind) (source : Option Nat) (d1 d2 : Word), k ≠ .commit →
    let t := s.raise k source d1 d2
    let u := s.offer { kind := k, source := source, time := s.timeBase, detail1 := d1, detail2 := d2 }
    t.raised k = true ∧ (∀ j, j ≠ k → t.raised j = u.raised j) ∧ t.journal = u.journal ∧
    t.requests = u.requests ∧ ChangesOnly [.flags, .journal, .requests] s t) ∧
  (∀ (s : State) (d1 d2 : Word),
    let t := s.raiseStopped d1 d2
    let e : JEntry :=
      { kind := .stopped, source := none, time := s.timeBase, detail1 := d1, detail2 := d2 }
    t.raised .stopped = true ∧ FlagsKept [.stopped, .journalLost] s t ∧
    t.requests = (s.offer e).requests ∧
    (s.journal.st = .off ∨ s.journal.st = .draining ∨ s.journal.st = .ended →
      t.journal = s.journal) ∧
    (s.journal.st = .halted → t.journal =
      if s.header.selected.getLsbD 14 = true then { s.journal with
        lost := if s.journal.lost = 65535 then 65535 else s.journal.lost + 1 }
      else s.journal) ∧
    (s.journal.st = .recording → s.header.selected.getLsbD 14 = false →
      t.journal = { s.journal with st := if s.journal.queue = [] then .ended else .draining }) ∧
    (s.journal.st = .recording → s.header.selected.getLsbD 14 = true →
      t.journal =
        if s.journal.queue.length < 8 then
          { s.journal with st := .draining, queue := s.journal.queue ++ [e] }
        else { s.journal with
          st := .draining
          lost := if s.journal.lost = 65535 then 65535 else s.journal.lost + 1 }) ∧
    (s.journal.st = .awaiting → s.header.trigger ≠ 14 →
      t.journal = { s.journal with st := .ended }) ∧
    (s.journal.st = .awaiting → s.header.trigger = 14 → s.journal.queue.length < 8 →
      t.journal = { s.journal with st := .draining, queue := s.journal.queue ++ [e] }) ∧
    ChangesOnly [.flags, .journal, .requests] s t) ∧
  (∀ s : State, s.atn = true ↔
    s.rst = false ∧ ∃ k : Kind, s.raised k = true ∧ s.header.mask.getLsbD k.code = true) ∧
  (∀ e : JEntry, (∀ n, e.source = some n → n < 256) →
    (e.word 0).toNat = e.kind.code + 2 ^ 8 * e.source.getD 0xFF ∧
    e.word 1 = e.time ∧ e.word 2 = e.detail1 ∧ e.word 3 = e.detail2) ∧
  [Kind.closeRefused, .writeRefused, .timedOut, .resumed, .underrun, .pulseDrift, .flywheel,
    .pulseEarly, .inboundCrc, .inboundCut, .inboundGap, .inboundNoBuffer, .loadFailed, .runStarted,
    .stopped, .journalFull, .journalLost, .commit].map Kind.code = List.range 18

/-- R76, R77: MA grants a request of the first order that has one, and within the order the lane of the
lowest number, or the copy-forward job next from the copy pointer; a copy-forward grant moves the pointer
to the window after. The granted request leaves the list, and every other request stays. -/
def Obligations.GrantTakesTheFirstOrder : Prop :=
  ∀ (s : State) (l : List Request),
    (l = [] ↔ s.choose l = none) ∧
    (∀ r, (s.grant r).port = some { req := r, withdrawn := false } ∧
      (s.grant r).requests = s.requests.erase r) ∧
    (∀ r, s.choose l = some r → r ∈ l ∧
      ∀ q ∈ l, s.orderOf r < s.orderOf q ∨ s.orderOf r = s.orderOf q ∧ s.placeOf r ≤ s.placeOf q) ∧
    (∀ r : Request,
      (∀ x, r.who = .outLane x →
        s.orderOf r = (if r.urgent = true then 1 else 5) ∧ s.placeOf r = x.val) ∧
      (∀ y, r.who = .inLane y →
        s.orderOf r = (if 8 ≤ (s.inl y).halves.length then 2 else 4) ∧ s.placeOf r = y.val) ∧
      (∀ w, r.who = .copyJob w →
        s.orderOf r = 6 ∧ (s.placeOf r + s.copyPtr.val) % 16 = w.val ∧ s.placeOf r < 16 ∧
        (s.grant r).copyPtr.val = (w.val + 1) % 16) ∧
      (r.who = .host → s.orderOf r = 3) ∧ (r.who = .load → s.orderOf r = 7) ∧
      (r.who = .journal → s.orderOf r = 8) ∧
      ((∀ w, r.who ≠ .copyJob w) → (s.grant r).copyPtr = s.copyPtr))

/-! ### Staleness and time (chapters 5, 9) -/

/-- R91: the cue state of a window. -/
def Obligations.CueStateIsDerivedFromTheMarks : Prop :=
  ∀ (s : State) (w : Fin 16), (s.win w).enabled = true →
    s.cueState w =
      if (s.pool w).committed = false then .empty
      else if (s.pool w).ownMark = true ∨
          ∃ (g : Fin 4) (v : Fin 16), s.groups[g][w] = true ∧ s.groups[g][v] = true ∧
            (s.pool v).ownMark = true then .stale
      else .live

/-- R89: at a timer's deadline the timer stops, the own mark is set, every committed window of the group
is STALE, and TIMED_OUT is raised with the window's last sequence and the number of windows that went
from LIVE to STALE. Nothing else changes: every request and an access in progress stay, and only JW's
request for the first word of the entry may join them. -/
def Obligations.TimerExpiryMakesTheGroupStale : Prop :=
  ∀ (s : State) (w : Fin 16), s.rst = false → NoGrantDue s → (s.pool w).timer = some s.timeBase →
    ∃ t, exec (.timerExpiry w) s = .next t ∧ OtherPools w s t ∧
      t.pool w = { s.pool w with timer := none, ownMark := true } ∧
      (∀ v : Fin 16, v = w ∨ s.sameGroup v w = true → (s.win v).enabled = true →
        (s.pool v).committed = true → t.cueState v = .stale) ∧
      ReportedAlone s t .timedOut (some w.val) ((s.pool w).lastSeq.setWidth 32)
        (num ((allWindows.filter fun v =>
          decide (s.cueState v = .live ∧ t.cueState v = .stale)).length)) ∧
      ChangesOnly [.pools, .flags, .journal, .requests, .port] s t

/-- R173: the start instant is the smallest multiple of 1,000 at or after the time base plus the start
delay, reduced modulo 2^32; when the time base reaches it in RUN, start reached becomes yes and nothing
else changes. -/
def Obligations.StartInstantIsTheNextWholeMillisecond : Prop :=
  (∀ (now : Word) (delay : Nat), ∃ n : Nat, n % 1000 = 0 ∧ now.toNat + delay * 1000 ≤ n ∧
    n < now.toNat + delay * 1000 + 1000 ∧ (startInstantOf now delay).toNat = n % 2 ^ 32) ∧
  ∀ s : State, s.rst = false → s.dev = .run → s.startReached = false →
    s.timeBase = s.startInstant → exec .startInstantReached s = .next { s with startReached := true }

/-- R176: with RST# released the time base rises by 1, from FFFF_FFFFh to 0, and nothing else changes;
while RST# is asserted it stays. No other command but the reset pin's two changes it. -/
def Obligations.TimeBaseCountsTicks : Prop :=
  ∀ s : State,
    (s.rst = false →
      exec .timeBaseTick s = .next { s with timeBase := s.timeBase + 1 } ∧
      (s.timeBase = 0xFFFFFFFF → s.timeBase + 1 = 0)) ∧
    (s.rst = true → exec .timeBaseTick s = .next s) ∧
    ∀ (c : Instr) (t : State), c ≠ .timeBaseTick → c ≠ .resetPin → (∀ p, c ≠ .resetRelease p) →
      exec c s = .next t → t.timeBase = s.timeBase

/-! ### Outbound lanes (chapters 6, 7) -/

/-- R97, R15: what a window draws on by its cue state and stale policy. R129, R130: a lane's slot order and
the windows it carries, in the order of their first entries. R109, R111–R114: a MASTER lane takes a frame
start when the time base reaches its next start, which advances by one period; it holds the buffers it
draws on and no other buffer changes, its plan lists the words its entries need, and it requests the first.
R118: its FP line is active from then until position 1 begins, and that of no lane is active otherwise.
That the start instant is taken before the first starts is the model's reading (log 19). -/
def Obligations.MasterStartsItsFrameOnSchedule : Prop :=
  (∀ (s : State) (w : Fin 16) (k : Fin 8), (s.pool w).find .ready = some k →
    (s.cueState w = .live → s.drawFor w =
      { window := w, draw := .buffer k (s.pool w).bufs[k].seq (s.pool w).bufs[k].time
        stale := false }) ∧
    (s.cueState w = .stale → (s.win w).policy = .hold → s.drawFor w =
      { window := w, draw := .buffer k (s.pool w).bufs[k].seq (s.pool w).bufs[k].time
        stale := true })) ∧
  (∀ (s : State) (w : Fin 16),
    (s.cueState w = .empty → s.drawFor w = { window := w, draw := .neutral, stale := false }) ∧
    (s.cueState w = .stale → (s.win w).policy = .neutral →
      s.drawFor w = { window := w, draw := .neutral, stale := true }) ∧
    (s.cueState w = .stale → (s.win w).policy = .decay →
      s.drawFor w = { window := w, draw := .decay, stale := true })) ∧
  (∀ (s : State) (x : Fin 6),
    (s.slotOrder x).Perm (s.outRec x).run ∧
    (s.slotOrder x).Pairwise (fun e f => (s.entry e).slot ≤ (s.entry f).slot) ∧
    s.carried x = ((s.slotOrder x).map fun e => (s.entry e).window).eraseDups) ∧
  (∀ (s : State) (x : Fin 6), s.fpActive x = true ↔
    (s.outRec x).timing = .master ∧ (s.out x).st = .sending ∧ (s.out x).begun = 1) ∧
  ∀ (s : State) (x : Fin 6), s.rst = false → NoGrantDue s → s.dev = .run → s.startReached = true →
    (s.outRec x).timing = .master → (s.out x).nextStart = some s.timeBase →
    (s.out x).st = .waiting ∨ (s.out x).st = .between →
    ∃ t, exec (.masterScheduledStart x) s = .next t ∧ OtherOuts x s t ∧
      t.out x = { s.out x with
        st := .sending, frameNo := (s.out x).frameNo + 1, frameTime := s.timeBase
        nextStart := some (s.timeBase + BitVec.ofNat 32 (s.outRec x).period)
        flags := { flywheel := false, prevCut := (s.out x).cutMark, prevUnder := (s.out x).underMark }
        cutMark := false, underMark := false, begun := 1
        draws := (s.carried x).map s.drawFor, plan := (t.out x).plan, asked := (t.out x).asked
        fetch := [], crc := crcHalf 0xFFFF ((s.out x).frameNo + 1)
        line := some ((s.out x).frameNo + 1), tail := none } ∧
      t.fpActive x = true ∧ HoldsTaken x id s t ∧
      (Requester.outLane x ∉ s.requests.map Request.who → FetchPlanned x s t) ∧
      OnlyRequestsOf (.outLane x) s t ∧
      ChangesOnly [.outs, .pools, .requests, .port] s t

/-- R110, R121, R123: what an active edge does to a FOLLOWER lane that takes it: a first frame start in
WAITING after the start instant, a frame start in BETWEEN, and in SENDING a cut followed by a frame
start; the last pulse time and the flywheel deadline are set from the edge. A cut releases every hold of
the old frame and withdraws its fetch, and that of a flywheel frame ends the flywheel run. The new frame
takes its holds and plans its fetches (R111). An edge that both drifts and cuts raises PULSE_DRIFT and then
PULSE_EARLY, since the check comes before the cut. In IDLE, in WAITING before the start instant, and in
SENDING in STOPPING, an edge has no effect. -/
def Obligations.ActiveEdgeStartsOrCutsAFrame : Prop :=
  (∀ (s : State) (x : Fin 6) (edge : PulseEdge),
    (s.out x).st = .idle ∨ (s.out x).st = .waiting ∧ s.startReached = false ∨
      (s.out x).st = .sending ∧ s.dev = .stopping →
    exec (.outboundActiveEdge x edge) s = .next s) ∧
  ∀ (s : State) (x : Fin 6), s.rst = false → NoGrantDue s → s.dev = .run →
    (s.outRec x).timing = .follower →
    (s.out x).st = .waiting ∧ s.startReached = true ∨ (s.out x).st = .between ∨
      (s.out x).st = .sending →
    ∃ t, exec (.outboundActiveEdge x (s.outRec x).edge) s = .next t ∧ OtherOuts x s t ∧
      t.out x = { s.out x with
        st := .sending, frameNo := (s.out x).frameNo + 1, frameTime := s.timeBase
        flags := { flywheel := false
                   prevCut := decide ((s.out x).st = .sending) || (s.out x).cutMark
                   prevUnder := (s.out x).underMark }
        cutMark := false, underMark := false, begun := 1
        earlies :=
          if (s.out x).st = .sending then sat8 (s.out x).earlies else (s.out x).earlies
        drifts := (t.out x).drifts
        pulse := { last := some s.timeBase, checked := true
                   deadline := some (s.timeBase +
                     BitVec.ofNat 32 ((s.outRec x).period + (s.outRec x).period / 4))
                   inRun := (s.out x).pulse.inRun && !((s.out x).st == .between ||
                     (s.out x).st == .sending && (s.out x).flags.flywheel) }
        draws := (s.carried x).map s.drawFor, plan := (t.out x).plan, asked := (t.out x).asked
        fetch := [], crc := crcHalf 0xFFFF ((s.out x).frameNo + 1)
        line := some ((s.out x).frameNo + 1), tail := none } ∧
      ((s.out x).st ≠ .sending →
        HoldsTaken x id s t ∧
        (Requester.outLane x ∉ s.requests.map Request.who → FetchPlanned x s t)) ∧
      ((s.out x).st = .sending →
        HoldsTaken x (Buffer.without (.lane x)) s t ∧ FetchPlanned x s t ∧
        t.raised .pulseEarly = true ∧
        (∀ r ∈ t.requests, r.who = .outLane x →
          ∃ p, (t.out x).asked = some p ∧ r = fetchOf x p false) ∧
        ∀ a, s.port = some a → a.req.who = .outLane x →
          t.port = some { req := a.req, withdrawn := true }) ∧
      ((s.out x).st = .waiting ∨ (s.out x).pulse.checked = false →
        (t.out x).drifts = (s.out x).drifts ∧
        ((s.out x).st ≠ .sending → t.flags = s.flags ∧ t.journal = s.journal) ∧
        ((s.out x).st = .sending → Reported s t .pulseEarly (some x.val)
          ((s.out x).frameNo.setWidth 32) (num (s.out x).begun))) ∧
      (∀ p, (s.out x).pulse.last = some p → (s.out x).pulse.checked = true →
        (s.out x).st ≠ .waiting →
        ((s.timeBase - p).toNat + (s.outRec x).period * (s.outRec x).tolerance / 100 <
            (s.outRec x).period ∨
          (s.outRec x).period + (s.outRec x).period * (s.outRec x).tolerance / 100 <
            (s.timeBase - p).toNat →
          t.raised .pulseDrift = true ∧ (t.out x).drifts = sat8 (s.out x).drifts ∧
          ((s.out x).st = .between → Reported s t .pulseDrift (some x.val)
            (((s.out x).frameNo + 1).setWidth 32) (s.timeBase - p)) ∧
          ((s.out x).st = .sending →
            Reported
              (s.raise .pulseDrift (some x.val) (((s.out x).frameNo + 1).setWidth 32) (s.timeBase - p))
              t .pulseEarly (some x.val) ((s.out x).frameNo.setWidth 32) (num (s.out x).begun))) ∧
        (¬ ((s.timeBase - p).toNat + (s.outRec x).period * (s.outRec x).tolerance / 100 <
            (s.outRec x).period) →
          ¬ ((s.outRec x).period + (s.outRec x).period * (s.outRec x).tolerance / 100 <
            (s.timeBase - p).toNat) →
          (t.out x).drifts = (s.out x).drifts ∧
          ((s.out x).st = .between → t.flags = s.flags ∧ t.journal = s.journal) ∧
          ((s.out x).st = .sending → Reported s t .pulseEarly (some x.val)
            ((s.out x).frameNo.setWidth 32) (num (s.out x).begun)))) ∧
      FlagsKept [.pulseDrift, .pulseEarly, .journalLost] s t ∧
      OnlyRequestsOf (.outLane x) s t ∧
      ChangesOnly [.outs, .pools, .flags, .journal, .requests, .port] s t

/-- R122: when the time base reaches the flywheel deadline with the lane BETWEEN, it takes a flywheel
start; the first of a run clears pulse checked and raises FLYWHEEL. The frame takes its holds and plans its
fetches as any other (R111). -/
def Obligations.FlywheelStartsAFrameAtTheDeadline : Prop :=
  ∀ (s : State) (x : Fin 6), s.rst = false → NoGrantDue s → s.dev = .run →
    (s.outRec x).timing = .follower → (s.out x).st = .between →
    (s.out x).pulse.deadline = some s.timeBase →
    ∃ t, exec (.flywheelStart x) s = .next t ∧ OtherOuts x s t ∧
      t.out x = { s.out x with
        st := .sending, frameNo := (s.out x).frameNo + 1, frameTime := s.timeBase
        flags := { flywheel := true, prevCut := (s.out x).cutMark, prevUnder := (s.out x).underMark }
        cutMark := false, underMark := false, begun := 1
        flywheels := sat8 (s.out x).flywheels
        pulse := { last := (s.out x).pulse.last
                   checked := (s.out x).pulse.inRun && (s.out x).pulse.checked
                   deadline := some (s.timeBase + BitVec.ofNat 32 (s.outRec x).period)
                   inRun := true }
        draws := (s.carried x).map s.drawFor, plan := (t.out x).plan, asked := (t.out x).asked
        fetch := [], crc := crcHalf 0xFFFF ((s.out x).frameNo + 1)
        line := some ((s.out x).frameNo + 1), tail := none } ∧
      HoldsTaken x id s t ∧
      (Requester.outLane x ∉ s.requests.map Request.who → FetchPlanned x s t) ∧
      ((s.out x).pulse.inRun = true → t.flags = s.flags ∧ t.journal = s.journal) ∧
      (∀ p, (s.out x).pulse.inRun = false → (s.out x).pulse.last = some p →
        Reported s t .flywheel (some x.val) (((s.out x).frameNo + 1).setWidth 32) (s.timeBase - p)) ∧
      OnlyRequestsOf (.outLane x) s t ∧
      ChangesOnly [.outs, .pools, .flags, .journal, .requests, .port] s t

/-- R106, R114–R117, R198: the header halves, the empty data positions, the second half of a two-slot
value and the trailer; a half on the line is fed to the CRC, the trailer's is not. A slot takes the time of
16 bits at the lane's bit rate. R78, R113: the lane's request that waits turns urgent in the slot before its
entry's first slot, and fetching goes on. R118: the lane's FP line is not active in these
positions. -/
def Obligations.SlotsWithoutAnEntryStart : Prop :=
  (∀ r : LaneRec, r.slotTime * 2 ^ r.rate.val = 16) ∧
  ∀ (s : State) (x : Fin 6) (j : Nat), s.rst = false → NoGrantDue s →
    (s.out x).st = .sending →
    (s.out x).begun = j → 1 ≤ j → j < (s.outRec x).slots + 5 →
    s.timeBase = (s.out x).frameTime + BitVec.ofNat 32 (j * (s.outRec x).slotTime) →
    (4 ≤ j → j < (s.outRec x).slots + 4 → (s.out x).tail = none → s.entryAt x (j - 4) = none) →
    ∃ t, exec (.slotBegin x) s = .next t ∧ OtherOuts x s t ∧ FetchGoesOn x s t ∧
      (∀ h, (j = 1 ∧ h = hiHalf (s.out x).frameTime ∨ j = 2 ∧ h = loHalf (s.out x).frameTime ∨
          j = 3 ∧ h = (s.out x).h3) →
        t.out x = { s.out x with
          begun := j + 1, line := some h, crc := crcHalf (s.out x).crc h
          plan := (t.out x).plan, asked := (t.out x).asked }) ∧
      (∀ h, 4 ≤ j → j < (s.outRec x).slots + 4 → (s.out x).tail = some h →
        t.out x = { s.out x with
          begun := j + 1, line := some h, crc := crcHalf (s.out x).crc h, tail := none
          plan := (t.out x).plan, asked := (t.out x).asked }) ∧
      (4 ≤ j → j < (s.outRec x).slots + 4 → (s.out x).tail = none → (s.outRec x).clock = .full →
        t.out x = { s.out x with
          begun := j + 1, line := some (s.outRec x).filler
          crc := crcHalf (s.out x).crc (s.outRec x).filler
          plan := (t.out x).plan, asked := (t.out x).asked }) ∧
      (4 ≤ j → j < (s.outRec x).slots + 4 → (s.out x).tail = none → (s.outRec x).clock = .gapped →
        t.out x = { s.out x with
          begun := j + 1, line := none, plan := (t.out x).plan, asked := (t.out x).asked }) ∧
      (j = (s.outRec x).slots + 4 → t.out x = { s.out x with
        begun := j + 1, line := some (s.out x).crc
        plan := (t.out x).plan, asked := (t.out x).asked }) ∧
      (∀ k : Nat, k < 8 → (s.out x).h3.getLsbD (8 + k) =
        (((s.out x).draws[k]?).any fun c => c.stale)) ∧
      ((s.out x).h3.getLsbD 0 = (s.out x).flags.flywheel) ∧
      ((s.out x).h3.getLsbD 1 = (s.out x).flags.prevCut) ∧
      ((s.out x).h3.getLsbD 2 = (s.out x).flags.prevUnder) ∧
      (∀ k : Nat, 3 ≤ k → k < 8 → (s.out x).h3.getLsbD k = false) ∧ t.fpActive x = false ∧
      OnlyRequestsOf (.outLane x) s t ∧
      ChangesOnly [.outs, .requests, .port] s t

/-- R115, R132, R142, R120: at an entry's first slot, with its words in the fetch buffer, the value is
formed, sent and kept in the entry state, and fetching goes on (R78, R113); without them the entry
underruns: filler is sent, the entry state stays, the entry's request is withdrawn, the underrun is
counted, and UNDERRUN is raised at the frame's first. The next word of the plan is requested in the same
event, whether or not a word of the entry was asked for, unless an access of the lane is still at the port
or the fetch buffer is full. R124: a lane's counts rise by 1 and stay at 255. -/
def Obligations.EntrySendsItsValueOrUnderruns : Prop :=
  (∀ c : BitVec 8, sat8 c = if c = 255 then 255 else c + 1) ∧
  ∀ (s : State) (x : Fin 6) (d e : Nat) (words : List (Nat × Word)) (v : Formed), s.rst = false → NoGrantDue s →
    (s.out x).st = .sending → (s.out x).begun = d + 4 → d < (s.outRec x).slots →
    s.timeBase = (s.out x).frameTime + BitVec.ofNat 32 ((d + 4) * (s.outRec x).slotTime) →
    (s.out x).tail = none → s.entryAt x d = some e → e < 256 →
    words = (s.out x).fetch.take ((s.entry e).kind.words ((s.out x).drawOf (s.entry e).window)) →
    v = (s.entry e).form ((s.out x).drawOf (s.entry e).window) (words.map fun p => p.2) (s.entrySt e)
      (s.win (s.entry e).window).decayShift →
    (words.length = (s.entry e).kind.words ((s.out x).drawOf (s.entry e).window) →
      (∀ p ∈ words, p.1 = e) →
      ∃ t, exec (.slotBegin x) s = .next t ∧ OtherOuts x s t ∧ t.entrySt e = v.state ∧
        (∀ f, f ≠ e → t.entrySt f = s.entrySt f) ∧
        t.out x = { s.out x with
          begun := d + 5
          line := some (if (s.entry e).kind.slots = 2 then hiHalf v.value else loHalf v.value)
          tail := if (s.entry e).kind.slots = 2 then some (loHalf v.value) else none
          saturations :=
            if v.sat = true then sat8 (s.out x).saturations else (s.out x).saturations
          fetch := (s.out x).fetch.drop words.length
          crc := crcHalf (s.out x).crc
            (if (s.entry e).kind.slots = 2 then hiHalf v.value else loHalf v.value)
          plan := (t.out x).plan, asked := (t.out x).asked } ∧
        FetchGoesOn x s t ∧
        OnlyRequestsOf (.outLane x) s t ∧
        ChangesOnly [.outs, .entryState, .requests, .port] s t) ∧
    (¬ (words.length = (s.entry e).kind.words ((s.out x).drawOf (s.entry e).window) ∧
        ∀ p ∈ words, p.1 = e) →
      ∃ t, exec (.slotBegin x) s = .next t ∧ OtherOuts x s t ∧
        t.out x = { s.out x with
          begun := d + 5
          line := some (s.outRec x).filler
          tail := if (s.entry e).kind.slots = 2 then some (s.outRec x).filler else none
          underruns := sat8 (s.out x).underruns
          underMark := true
          fetch := (s.out x).fetch.filter (fun p => p.1 != e)
          crc := crcHalf (s.out x).crc (s.outRec x).filler
          plan := (t.out x).plan, asked := (t.out x).asked } ∧
        (∀ p ∈ (t.out x).plan, p.entry ≠ e) ∧
        FetchAfterUnderrun x e s t ∧
        ((s.out x).underMark = true → t.flags = s.flags ∧ t.journal = s.journal) ∧
        ((s.out x).underMark = false → Reported s t .underrun (some x.val)
          ((s.out x).frameNo.setWidth 32) (num (s.entry e).slot)) ∧
        OnlyRequestsOf (.outLane x) s t ∧
        ChangesOnly [.outs, .flags, .journal, .requests, .port] s t)

/-- R119, R16, R125: at the frame end every hold of the lane is released, and nothing else of a buffer
changes but that a RETIRED one left without holders is FREE; the lane is BETWEEN in RUN; in STOPPING it is
IDLE and leaves the sending set, and the last one brings SETUP and STOPPED, with the device state RUN. That
the CRC accumulator keeps its value until the next frame start is the model's choice (log 6). -/
def Obligations.FrameEndReleasesEveryHold : Prop :=
  ∀ (s : State) (x : Fin 6), s.rst = false → NoGrantDue s → (s.out x).st = .sending →
    (s.out x).begun = (s.outRec x).slots + 5 →
    s.timeBase =
      (s.out x).frameTime + BitVec.ofNat 32 (((s.outRec x).slots + 5) * (s.outRec x).slotTime) →
    ∃ t, exec (.frameEnd x) s = .next t ∧ OtherOuts x s t ∧
      t.out x = { s.out x with
        st := if s.dev = .stopping then .idle else .between
        begun := 0, draws := [], plan := [], asked := none, fetch := [], line := none, tail := none } ∧
      (∀ (w : Fin 16) (k : Fin 8), (t.pool w).bufs[k].holders.has (.lane x) = false) ∧
      (∀ w : Fin 16, OnlyBuffers w s t) ∧
      (s.dev ≠ .stopping ∨ (∃ z : Fin 6, z ≠ x ∧ s.sending[z] = true) →
        ∀ (w : Fin 16) (k : Fin 8), (t.pool w).bufs[k] = (s.pool w).bufs[k].without (.lane x)) ∧
      (s.dev ≠ .stopping → ChangesOnly [.outs, .pools] s t) ∧
      (s.dev = .stopping → (∃ z : Fin 6, z ≠ x ∧ s.sending[z] = true) →
        t.dev = .stopping ∧ t.sending = s.sending.set x false ∧
        ChangesOnly [.outs, .pools, .sending] s t) ∧
      (s.dev = .stopping → (∀ z : Fin 6, z ≠ x → s.sending[z] = false) →
        t.dev = .setup ∧ t.startReached = false ∧
        ReportedStopped s t 2 (num s.stopLanes) ∧
        (∀ (w : Fin 16) (k : Fin 8), (t.pool w).bufs[k] =
          if ((s.pool w).bufs[k].without (.lane x)).st = .ready ∨
              ((s.pool w).bufs[k].without (.lane x)).st = .retired then
            { (s.pool w).bufs[k].without (.lane x) with st := .free, holders := HolderSet.empty }
          else (s.pool w).bufs[k].without (.lane x)) ∧
        FlagsKept [.stopped, .journalLost] s t ∧
        OnlyRequestsOf .journal s t ∧
        ChangesOnly [.dev, .startReached, .outs, .pools, .sending, .flags, .journal, .requests,
          .port] s t)

/-! ### Values of slot entries (chapters 5, 7) -/

/-- R135, R136: the four SCALE kinds: the exact value, saturated to its range. R134, R137, R139: PASS16,
PASS32, SPAN and TEST. R138, R140, R141: DELTA, STAMP and SEQ on a held buffer, and without one; R132, R141:
on a buffer and on the neutral record every other kind forms its transform, and every value sent is kept as
last output with the sent mark. R133, R134, R140, R143: the words and the slots of each kind; one slot for
an unassigned kind is the model's choice (log 16), and so is one word for an inbound or an unassigned kind,
with what it forms (log 31). -/
def Obligations.OutboundKindsFormTheirValues : Prop :=
  (∀ (e : EntryRec) (w : Word) (ws : List Word),
    (e.kind = .scaleLeft → ∃ v : Int, v = w.toInt * 2 ^ e.param ∧
      ((e.transform (w :: ws)).1.setWidth 16).toInt = max (-32768) (min 32767 v) ∧
      ((e.transform (w :: ws)).2 = true ↔ v < -32768 ∨ 32767 < v)) ∧
    (e.kind = .scaleRightLogical → ∃ v : Nat, v = w.toNat / 2 ^ e.param ∧
      (e.transform (w :: ws)).1.toNat = min 65535 v ∧
      ((e.transform (w :: ws)).2 = true ↔ 65535 < v)) ∧
    (e.kind = .scaleRightFloor → ∃ v : Int, v = w.toInt / 2 ^ e.param ∧
      ((e.transform (w :: ws)).1.setWidth 16).toInt = max (-32768) (min 32767 v) ∧
      ((e.transform (w :: ws)).2 = true ↔ v < -32768 ∨ 32767 < v)) ∧
    (e.kind = .scaleRightRound → ∃ v : Int,
      v = w.toInt / 2 ^ e.param +
        (if 1 ≤ e.param ∧ w.getLsbD (e.param - 1) = true then 1 else 0) ∧
      ((e.transform (w :: ws)).1.setWidth 16).toInt = max (-32768) (min 32767 v) ∧
      ((e.transform (w :: ws)).2 = true ↔ v < -32768 ∨ 32767 < v))) ∧
  (∀ k : EntryKind,
    k.slots = (if k = .pass32 ∨ k = .stamp ∨ k = .store32 then 2 else 1) ∧
    ∀ (b : Fin 8) (seq : Half) (time : Word),
      k.words (.buffer b seq time) =
        (if k = .span then 2 else if k = .stamp ∨ k = .seq then 0 else 1) ∧
      k.words .neutral =
        (if k = .span then 2 else if k = .delta ∨ k = .stamp ∨ k = .seq then 0 else 1) ∧
      k.words .decay = k.words .neutral) ∧
  (∀ (e : EntryRec) (b : Fin 8) (seq : Half) (time : Word) (ws : List Word) (st : EntryState)
      (shift : Nat) (d : Draw),
    e.kind ≠ .delta → e.kind ≠ .stamp → e.kind ≠ .seq → d = .buffer b seq time ∨ d = .neutral →
    e.form d ws st shift =
      { value := (e.transform ws).1, sat := (e.transform ws).2
        state := { st with lastOutput := (e.transform ws).1, sent := true } }) ∧
  (∀ (e : EntryRec) (lo : Word) (ws : List Word),
    (e.kind = .pass16 → e.transform (lo :: ws) =
      ((if e.high then hiHalf lo else loHalf lo).setWidth 32, false)) ∧
    (e.kind = .pass32 → e.transform (lo :: ws) = (lo, false)) ∧
    (∀ hi rest, ws = hi :: rest → e.kind = .span →
      (e.transform (lo :: ws)).1.toNat =
        (hi.toNat * 2 ^ 32 + lo.toNat) / 2 ^ e.param % 2 ^ 16 ∧ (e.transform (lo :: ws)).2 = false) ∧
    (e.kind = .test → (e.transform (lo :: ws)).2 = false ∧
      (∀ c : Prop, (e.param = 0 ∧ c = (lo = e.const) ∨ e.param = 1 ∧ c = (lo ≠ e.const) ∨
          e.param = 2 ∧ c = (lo.toInt < e.const.toInt) ∨
          e.param = 3 ∧ c = (lo.toInt ≤ e.const.toInt) ∨
          e.param = 4 ∧ c = (e.const.toInt < lo.toInt) ∨
          e.param = 5 ∧ c = (e.const.toInt ≤ lo.toInt) ∨
          e.param = 6 ∧ c = (lo.toNat < e.const.toNat) ∨
          e.param = 7 ∧ c = (e.const.toNat < lo.toNat)) →
        (c → (e.transform (lo :: ws)).1 = 1) ∧ (¬ c → (e.transform (lo :: ws)).1 = 0)))) ∧
  ∀ (e : EntryRec) (k : Fin 8) (seq : Half) (time : Word) (w : Word) (st : EntryState) (shift : Nat),
    (e.kind = .delta → ∀ h, h = (if e.high then hiHalf w else loHalf w) →
      (e.form (.buffer k seq time) [w] st shift).state.primed = true ∧
      (e.form (.buffer k seq time) [w] st shift).state.lastSource = h ∧
      (st.primed = false → (e.form (.buffer k seq time) [w] st shift).value = 0 ∧
        (e.form (.buffer k seq time) [w] st shift).sat = false) ∧
      (st.primed = true →
        ((e.form (.buffer k seq time) [w] st shift).value.setWidth 16).toInt =
          max (-32768) (min 32767 (h.toInt - st.lastSource.toInt)) ∧
        ((e.form (.buffer k seq time) [w] st shift).sat = true ↔
          h.toInt - st.lastSource.toInt < -32768 ∨ 32767 < h.toInt - st.lastSource.toInt)) ∧
      (e.form .neutral [] st shift).value = 0 ∧
      (e.form .neutral [] st shift).state.primed = false ∧
      (e.form .neutral [] st shift).state.lastSource = st.lastSource) ∧
    (e.kind = .stamp → (e.form (.buffer k seq time) [] st shift).value = time ∧
      (e.form .neutral [] st shift).value = 0) ∧
    (e.kind = .seq → (e.form (.buffer k seq time) [] st shift).value = seq.setWidth 32 ∧
      (e.form .neutral [] st shift).value = 0) ∧
    (∀ d ws, (e.form d ws st shift).state.sent = true ∧
      (e.form d ws st shift).state.lastOutput = (e.form d ws st shift).value)

/-- R100: a decay step lies between the last output and the target, inclusive, and moves: it is the
target itself, or it differs from the last output. R101, R102, R141: under DECAY an entry sends its target
while its sent mark is clear, and otherwise the step from its last output, both taken as the numbers its
kind produces; its target's saturation is counted, and DELTA, whose target is 0 as that of STAMP and SEQ,
loses its primed state. -/
def Obligations.DecayStepApproachesTheTarget : Prop :=
  (∀ (last target : Int) (shift : Nat), 1 ≤ shift → shift ≤ 7 →
    (min last target ≤ decayStep last target shift ∧ decayStep last target shift ≤ max last target) ∧
    (last ≠ target → decayStep last target shift ≠ last) ∧
    (last - (last - target) / 2 ^ shift ≠ last →
      decayStep last target shift = last - (last - target) / 2 ^ shift) ∧
    (last - (last - target) / 2 ^ shift = last → decayStep last target shift = target)) ∧
  ∀ (e : EntryRec) (ws : List Word) (st : EntryState) (shift : Nat) (target : Word),
    target = (if e.kind = .delta ∨ e.kind = .stamp ∨ e.kind = .seq then 0 else (e.transform ws).1) →
    (e.form .decay ws st shift).sat =
      (if e.kind = .delta ∨ e.kind = .stamp ∨ e.kind = .seq then false else (e.transform ws).2) ∧
    (e.form .decay ws st shift).state =
      { st with
        primed := st.primed && e.kind != .delta
        lastOutput := (e.form .decay ws st shift).value, sent := true } ∧
    (st.sent = false → (e.form .decay ws st shift).value = target) ∧
    (st.sent = true →
      (e.kind = .pass32 → (e.form .decay ws st shift).value =
        BitVec.ofInt 32 (decayStep st.lastOutput.toInt target.toInt shift)) ∧
      (e.kind = .stamp → (e.form .decay ws st shift).value =
        BitVec.ofInt 32 (decayStep st.lastOutput.toNat target.toNat shift)) ∧
      (e.kind = .scaleRightLogical ∨ e.kind = .test ∨ e.kind = .seq →
        (e.form .decay ws st shift).value =
          (BitVec.ofInt 16
            (decayStep (loHalf st.lastOutput).toNat (loHalf target).toNat shift)).setWidth 32) ∧
      (e.kind = .pass16 ∨ e.kind = .span ∨ e.kind = .scaleLeft ∨ e.kind = .scaleRightFloor ∨
          e.kind = .scaleRightRound ∨ e.kind = .delta →
        (e.form .decay ws st shift).value =
          (BitVec.ofInt 16
            (decayStep (loHalf st.lastOutput).toInt (loHalf target).toInt shift)).setWidth 32))

/-- R199: the CRC register's step, its initial value, that a half is fed from bit 15 down to bit 0, its
linearity, and that the CRC fed behind what it covers leaves 0. -/
def Obligations.CrcOfAFrameWithItsCrcIsZero : Prop :=
  (∀ (r : Half) (b : Bool),
    crcBit r b = if (b ^^ r.getLsbD 15) = true then (r <<< 1) ^^^ 0x1021 else r <<< 1) ∧
  (∀ r h : Half,
    crcHalf r h = (List.range 16).foldl (fun q j => crcBit q (h.getLsbD (15 - j))) r) ∧
  crcInit = 0xFFFF ∧
  (∀ r r' h h' : Half, crcHalf (r ^^^ r') (h ^^^ h') = crcHalf r h ^^^ crcHalf r' h') ∧
  ∀ l : List Half, (l ++ [l.foldl crcHalf crcInit]).foldl crcHalf crcInit = 0

/-! ### Inbound lanes (chapter 8) -/

/-- R152, R153, R159: an active edge taken by an inbound lane opens a frame with the time base as its
frame time; in RECEIVING it first truncates the current frame. With no frame in hand the new frame asks
for the lowest FREE buffer; without one it is refused. Behind other frames it waits, and a frame truncated
behind others leaves at once. -/
def Obligations.InboundEdgeOpensAFrame : Prop :=
  (∀ (s : State) (y : Fin 2) (edge : PulseEdge),
    (s.inl y).st = .idle ∨ (s.inl y).st = .listening ∧ s.startReached = false →
    exec (.inboundActiveEdge y edge) s = .next s) ∧
  (∀ (s : State) (y : Fin 2), s.rst = false → NoGrantDue s →
    (s.inl y).st = .listening ∧ s.startReached = true ∨ (s.inl y).st = .discarding →
    (s.inl y).frames ≠ [] →
    ∃ t, exec (.inboundActiveEdge y (s.inRec y).edge) s = .next t ∧ OtherIns y s t ∧
      t.inl y = { s.inl y with
        st := .receiving, slot := some 0, crc := 0xFFFF
        frames := (s.inl y).frames ++ [{ time := s.timeBase, number := none, buffer := none
                                         outcome := .opened, halves := [] }] } ∧
      ChangesOnly [.ins] s t) ∧
  (∀ (s : State) (y : Fin 2) (fs : List InFrame) (f : InFrame), s.rst = false → NoGrantDue s →
    (s.inl y).st = .receiving → (s.inl y).frames = fs ++ [f] → fs ≠ [] → f.buffer = none →
    ∃ t, exec (.inboundActiveEdge y (s.inRec y).edge) s = .next t ∧ OtherIns y s t ∧
      t.inl y = { s.inl y with
        st := .receiving, slot := some 0, crc := 0xFFFF, cuts := sat8 (s.inl y).cuts
        frames := fs ++ [s.openedFrame none] } ∧
      ReportedAlone s t .inboundCut (some y.val) ((f.number.getD 0).setWidth 32) 2 ∧
      ChangesOnly [.ins, .flags, .journal, .requests, .port] s t) ∧
  (∀ (s : State) (y : Fin 2) (w : Fin 16) (k : Fin 8) (f : InFrame), s.rst = false → NoGrantDue s →
    s.inWindow y = some w → (s.inl y).st = .receiving → (s.inl y).frames = [f] → f.buffer = some k →
    (s.inProgress (.inLane y) = true →
      ∃ t, exec (.inboundActiveEdge y (s.inRec y).edge) s = .next t ∧ OtherIns y s t ∧
        t.inl y = { s.inl y with
          st := .receiving, slot := some 0, crc := 0xFFFF, cuts := sat8 (s.inl y).cuts
          frames := [{ f with outcome := .discard, halves := [] },
            { time := s.timeBase, number := none, buffer := none, outcome := .opened, halves := [] }] } ∧
        Reported s t .inboundCut (some y.val) ((f.number.getD 0).setWidth 32) 2 ∧
        (∀ r ∈ t.requests, r.who ≠ .inLane y) ∧
        OnlyRequestsOf (.inLane y) s t ∧
        ChangesOnly [.ins, .flags, .journal, .requests] s t) ∧
    (s.inProgress (.inLane y) = false → k.val < (s.win w).bufferCount →
      (∀ c : Fin 8, c ≠ k → (s.pool w).bufs[c].st ≠ .filling) →
      ∃ t c, exec (.inboundActiveEdge y (s.inRec y).edge) s = .next t ∧ OtherIns y s t ∧
        OtherPools w s t ∧ (c = k ∨ (s.pool w).bufs[c].st = .free) ∧ c.val < (s.win w).bufferCount ∧
        (∀ d : Fin 8, d < c → d ≠ k ∧ (s.pool w).bufs[d].st ≠ .free) ∧
        t.inl y = { s.inl y with
          st := .receiving, slot := some 0, crc := 0xFFFF, cuts := sat8 (s.inl y).cuts
          frames := [{ time := s.timeBase, number := none, buffer := some c, outcome := .opened
                       halves := [] }] } ∧
        t.pool w = { s.pool w with
          bufs := ((s.pool w).bufs.set k (Buffer.discard (s.pool w).bufs[k])).set c
            { st := .filling, holders := HolderSet.empty, seq := 0, time := 0, map := [] } } ∧
        Reported s t .inboundCut (some y.val) ((f.number.getD 0).setWidth 32) 2 ∧
        (∀ r ∈ t.requests, r.who ≠ .inLane y) ∧
        OnlyRequestsOf (.inLane y) s t ∧
        ChangesOnly [.ins, .pools, .flags, .journal, .requests, .port] s t)) ∧
  ∀ (s : State) (y : Fin 2) (w : Fin 16), s.rst = false → NoGrantDue s → s.inWindow y = some w →
    (s.inl y).st = .listening ∧ s.startReached = true ∨ (s.inl y).st = .discarding →
    (s.inl y).frames = [] → (s.pool w).find .filling = none →
    (∀ k, s.freeBuffer w = some k →
      ∃ t, exec (.inboundActiveEdge y (s.inRec y).edge) s = .next t ∧ OtherIns y s t ∧
        OtherPools w s t ∧
        t.inl y = { s.inl y with
          st := .receiving, slot := some 0, crc := 0xFFFF
          frames := [{ time := s.timeBase, number := none, buffer := some k, outcome := .opened
                       halves := [] }] } ∧
        t.pool w = { s.pool w with
          bufs := (s.pool w).bufs.set k
            { st := .filling, holders := HolderSet.empty, seq := 0, time := 0, map := [] } } ∧
        ChangesOnly [.ins, .pools] s t) ∧
    (s.freeBuffer w = none →
      ∃ t, exec (.inboundActiveEdge y (s.inRec y).edge) s = .next t ∧ OtherIns y s t ∧
        t.inl y = { s.inl y with
          st := .discarding, slot := some 0, crc := 0xFFFF, frames := []
          noBuffers := sat8 (s.inl y).noBuffers } ∧
        ReportedAlone s t .inboundNoBuffer (some y.val) 0 (num (s.pool w).retiredCount) ∧
        ChangesOnly [.ins, .flags, .journal, .requests, .port] s t)

/-- R154, R156–R158: a frame that ends without a commit (malformed, with a wrong CRC, or overrun) is counted
and reported with its cause, and discarded: alone in hand with no write under way it gives its buffer back
at once, with an empty map; with a write under way it waits for that; behind other frames it leaves at
once. -/
def Obligations.DiscardedFrameFreesItsBuffer : Prop :=
  ∀ (s : State) (y : Fin 2) (w : Fin 16) (fs : List InFrame) (f : InFrame) (h : Half),
    s.rst = false → NoGrantDue s → s.inWindow y = some w → (s.inl y).frames = fs ++ [f] →
    (fs = [] ↔ f.buffer ≠ none) → (s.inl y).st = .receiving →
    ((s.inl y).slot = some 1 → h.toNat ≠ (s.inRec y).slots →
      ∃ t, exec (.inboundH1Received y h) s = .next t ∧ OtherIns y s t ∧
        t.inl y = { s.inl y with
          st := .discarding, slot := none, crc := crcHalf (s.inl y).crc h
          cuts := sat8 (s.inl y).cuts, frames := (t.inl y).frames } ∧
        FrameDiscarded y w fs f s t ∧
        Reported s t .inboundCut (some y.val) ((f.number.getD 0).setWidth 32) 0 ∧
        OnlyRequestsOf (.inLane y) s t ∧
        ChangesOnly [.ins, .pools, .flags, .journal, .requests, .port] s t) ∧
    ((s.inl y).slot = some ((s.inRec y).slots + 2) → h ≠ (s.inl y).crc →
      ∃ t, exec (.inboundCrcSlotReceived y h) s = .next t ∧ OtherIns y s t ∧
        t.inl y = { s.inl y with
          st := .listening, slot := none, crcErrors := sat8 (s.inl y).crcErrors
          frames := (t.inl y).frames } ∧
        FrameDiscarded y w fs f s t ∧
        Reported s t .inboundCrc (some y.val) ((f.number.getD 0).setWidth 32)
          ((sat8 (s.inl y).crcErrors).setWidth 32) ∧
        OnlyRequestsOf (.inLane y) s t ∧
        ChangesOnly [.ins, .pools, .flags, .journal, .requests, .port] s t) ∧
    (∀ (d : Nat) (p : Nat × Bool), (s.inl y).slot = some (d + 2) → d < (s.inRec y).slots →
      s.rxPlace y d = some p → 16 ≤ (s.inl y).halves.length →
      ∃ t, exec (.inboundDataSlotReceived y h) s = .next t ∧ OtherIns y s t ∧
        t.inl y = { s.inl y with
          st := .discarding, slot := none, crc := crcHalf (s.inl y).crc h
          cuts := sat8 (s.inl y).cuts, frames := (t.inl y).frames } ∧
        FrameDiscarded y w fs f s t ∧
        Reported s t .inboundCut (some y.val) ((f.number.getD 0).setWidth 32) 1 ∧
        OnlyRequestsOf (.inLane y) s t ∧
        ChangesOnly [.ins, .pools, .flags, .journal, .requests, .port] s t)

/-- R153, R158: the settlement of the head frame, by the performance of the last write it waited for, gives
the next frame in hand its buffer in the same event: the lowest FREE one, after a GOOD head's commit or a
discarded head's release of its own. At the commit the timer takes its new deadline, RESUMED is raised
exactly if a window goes from STALE to LIVE, and JW is offered each RESUMED and then COMMIT (R42, R88, R90,
R185). When none is FREE after a commit, the next frame is refused, GOOD or still arriving, and so in turn
is every frame behind it, each counted and raised as INBOUND_NO_BUFFER, whose entries are offered after
those of the commit; the lane ignores the rest of the one still arriving. A GOOD head whose map is not full
is cut as MALFORMED, and the next frame asks after that. Every other request waits on or is granted (R76).
That the map of the committed buffer is empty is the model's reading (log 15), and that the bytes of a half
write without an enable carry 0 is its choice (log 29). -/
def Obligations.SettlementAllocatesTheNextFrame : Prop :=
  ∀ (s : State) (r : Request) (y : Fin 2) (w : Fin 16) (k : Fin 8) (f g : InFrame) (gs : List InFrame)
    (after : Fin 8 → Buffer), InProgress s r → r.who = .inLane y → r.write = true →
    Requester.inLane y ∉ s.requests.map Request.who → s.inWindow y = some w →
    (s.inl y).frames = f :: g :: gs → f.buffer = some k → g.buffer = none →
    (g.outcome = .opened ∨ g.outcome = .good ∧ g.halves ≠ []) →
    (∀ c : Fin 8, (s.pool w).bufs[c].st = .filling ↔ c = k) →
    (∀ h, f.outcome = .good → f.halves = [h] →
      (((s.pool w).bufs[k].map).add h.word h.enables).full (s.win w).payloadLength = true →
      after = (fun c => if c = k then
          { st := .ready, holders := HolderSet.empty, seq := (s.pool w).nextInbound, time := f.time
            map := [] }
        else Buffer.afterCommit (decide ((s.pool w).find .ready = some c)) (s.pool w).bufs[c]) →
      ((∃ c : Fin 8, c.val < (s.win w).bufferCount ∧ (after c).st = .free) →
        ∃ t, exec .inboundWritePerformed s = .next t ∧ OtherIns y s t ∧ OtherPools w s t ∧
          NextAllocated y w g gs after s t ∧
          (t.pool w).nextInbound = (s.pool w).nextInbound + 1 ∧
          (t.pool w).expected = (s.pool w).expected ∧
          (t.pool w).lastOutcome = (s.pool w).lastOutcome ∧ (t.pool w).job = (s.pool w).job ∧
          CommitNoticed w (s.pool w).nextInbound 0 [] s t ∧
          t.inl y = { s.inl y with frames := (t.inl y).frames } ∧
          FlagsKept [.resumed, .journalLost] s t ∧
          OthersWait (.inLane y) s t ∧
          ChangesOnly [.ins, .pools, .flags, .journal, .mem, .requests, .port, .copyPtr] s t) ∧
      ((∀ c : Fin 8, c.val < (s.win w).bufferCount → (after c).st ≠ .free) →
        (∀ b ∈ (g :: gs).dropLast, b.outcome = .good) →
        (∀ b ∈ gs, b.buffer = none ∧ b.outcome ≠ .discard) →
        ∀ last, (g :: gs).getLast? = some last →
        ∃ t, exec .inboundWritePerformed s = .next t ∧ OtherIns y s t ∧ OtherPools w s t ∧
          (∀ c, (t.pool w).bufs[c] = after c) ∧
          (t.pool w).nextInbound = (s.pool w).nextInbound + 1 ∧
          (t.pool w).expected = (s.pool w).expected ∧
          (t.pool w).lastOutcome = (s.pool w).lastOutcome ∧ (t.pool w).job = (s.pool w).job ∧
          CommitNoticed w (s.pool w).nextInbound 0
            ((g :: gs).map fun b =>
              { kind := .inboundNoBuffer, source := some y.val, time := s.timeBase
                detail1 := (b.number.getD 0).setWidth 32
                detail2 := num (t.pool w).retiredCount }) s t ∧
          t.inl y = { s.inl y with
            st := if last.outcome = .opened then .discarding else (s.inl y).st
            frames := []
            noBuffers := (g :: gs).foldl (fun n _ => sat8 n) (s.inl y).noBuffers
            slot :=
              if last.outcome = .opened then (if last.number = none then some 0 else none)
              else (s.inl y).slot } ∧
          t.raised .inboundNoBuffer = true ∧
          FlagsKept [.resumed, .inboundNoBuffer, .journalLost] s t ∧
          OthersWait (.inLane y) s t ∧
          ChangesOnly [.ins, .pools, .flags, .journal, .mem, .requests, .port, .copyPtr] s t)) ∧
    (∀ h, f.outcome = .good → f.halves = [h] → k.val < (s.win w).bufferCount →
      (((s.pool w).bufs[k].map).add h.word h.enables).full (s.win w).payloadLength = false →
      after = (fun c => if c = k then
          { (s.pool w).bufs[k] with st := .free, holders := HolderSet.empty, map := [] }
        else (s.pool w).bufs[c]) →
      ∃ t, exec .inboundWritePerformed s = .next t ∧ OtherIns y s t ∧ OtherPools w s t ∧
        NextAllocated y w g gs after s t ∧ OnlyBuffers w s t ∧
        t.inl y = { s.inl y with frames := (t.inl y).frames, cuts := sat8 (s.inl y).cuts } ∧
        Reported s t .inboundCut (some y.val) ((f.number.getD 0).setWidth 32) 0 ∧
        OthersWait (.inLane y) s t ∧
        ChangesOnly [.ins, .pools, .flags, .journal, .mem, .requests, .port, .copyPtr] s t) ∧
    (f.outcome = .discard → k.val < (s.win w).bufferCount →
      after = (fun c => if c = k then
          { (s.pool w).bufs[k] with st := .free, holders := HolderSet.empty, map := [] }
        else (s.pool w).bufs[c]) →
      ∃ t, exec .inboundWritePerformed s = .next t ∧ OtherIns y s t ∧ OtherPools w s t ∧
        NextAllocated y w g gs after s t ∧ OnlyBuffers w s t ∧
        t.inl y = { s.inl y with frames := (t.inl y).frames } ∧
        OthersWait (.inLane y) s t ∧
        ChangesOnly [.ins, .pools, .mem, .requests, .port, .copyPtr] s t)

/-- R154: H0 gives the current frame its number and is checked against the last one; H1 that equals the data
slot count lets the frame go on. Both are fed to the CRC. R157: a CRC slot that equals the accumulator makes
the frame GOOD and the lane LISTENING, and while halves of the frame wait, with a write of it on the
arbiter's list or in progress, nothing else changes; with every half written and a full map, the buffer
commits at once (R158, R42): the timer takes its new deadline, RESUMED is raised exactly if a window goes
from STALE to LIVE, and JW is offered each RESUMED and then COMMIT (R88, R90, R185). With a map that is not
full it is discarded and reported as MALFORMED. Behind other frames a GOOD frame waits. A frame refused for
lack of a buffer still takes the number check on its H0 (R153), which is fed to the CRC like every slot
received (R151). That the map of the committed buffer is empty is the model's reading (log 15). -/
def Obligations.HeaderAndCrcSlotsAreReceived : Prop :=
  (∀ (s : State) (y : Fin 2) (h : Half), s.rst = false → NoGrantDue s →
    (s.inl y).st = .discarding → (s.inl y).slot = some 0 →
    ∃ t, exec (.inboundH0Received y h) s = .next t ∧ OtherIns y s t ∧
      t.inl y = { s.inl y with
        crc := crcHalf (s.inl y).crc h, slot := none, lastNo := h, seen := true
        gaps := if (s.inl y).seen = true ∧ h ≠ (s.inl y).lastNo + 1 then sat8 (s.inl y).gaps
          else (s.inl y).gaps } ∧
      ((s.inl y).seen = true ∧ h ≠ (s.inl y).lastNo + 1 →
        ReportedAlone s t .inboundGap (some y.val) (h.setWidth 32)
          ((h - (s.inl y).lastNo - 1).setWidth 32)) ∧
      ((s.inl y).seen = false ∨ h = (s.inl y).lastNo + 1 →
        t.flags = s.flags ∧ t.journal = s.journal) ∧
      ChangesOnly [.ins, .flags, .journal, .requests, .port] s t) ∧
  (∀ (s : State) (y : Fin 2) (w : Fin 16) (k : Fin 8) (f : InFrame), s.rst = false → NoGrantDue s →
    s.inWindow y = some w → (s.inl y).st = .receiving → (s.inl y).frames = [f] →
    (s.inl y).slot = some ((s.inRec y).slots + 2) → f.buffer = some k → f.halves = [] →
    ((s.pool w).bufs[k].map).full (s.win w).payloadLength = true →
    ∃ t, exec (.inboundCrcSlotReceived y (s.inl y).crc) s = .next t ∧ OtherIns y s t ∧
      OtherPools w s t ∧
      t.inl y = { s.inl y with st := .listening, slot := none, frames := [] } ∧
      (t.pool w).bufs[k] =
        { st := .ready, holders := HolderSet.empty, seq := (s.pool w).nextInbound, time := f.time
          map := [] } ∧
      (∀ c, c ≠ k →
        (t.pool w).bufs[c] =
          if (s.pool w).find .ready = some c then
            { (s.pool w).bufs[c] with
              st := if (s.pool w).bufs[c].holders = HolderSet.empty then .free else .retired }
          else (s.pool w).bufs[c]) ∧
      (t.pool w).nextInbound = (s.pool w).nextInbound + 1 ∧
      (t.pool w).expected = (s.pool w).expected ∧
      (t.pool w).lastOutcome = (s.pool w).lastOutcome ∧ (t.pool w).job = (s.pool w).job ∧
      CommitNoticed w (s.pool w).nextInbound 0 [] s t ∧ FlagsKept [.resumed, .journalLost] s t ∧
      OnlyRequestsOf (.inLane y) s t ∧
      ChangesOnly [.ins, .pools, .flags, .journal, .requests, .port] s t) ∧
  (∀ (s : State) (y : Fin 2) (w : Fin 16) (k : Fin 8) (f : InFrame), s.rst = false → NoGrantDue s →
    s.inWindow y = some w → (s.inl y).st = .receiving → (s.inl y).frames = [f] →
    (s.inl y).slot = some ((s.inRec y).slots + 2) → f.buffer = some k → f.halves = [] →
    ((s.pool w).bufs[k].map).full (s.win w).payloadLength = false →
    ∃ t, exec (.inboundCrcSlotReceived y (s.inl y).crc) s = .next t ∧ OtherIns y s t ∧
      OtherPools w s t ∧ OnlyBuffers w s t ∧
      t.inl y = { s.inl y with
        st := .listening, slot := none, frames := [], cuts := sat8 (s.inl y).cuts } ∧
      (∀ c, c ≠ k → (t.pool w).bufs[c] = (s.pool w).bufs[c]) ∧
      (t.pool w).bufs[k] =
        { (s.pool w).bufs[k] with st := .free, holders := HolderSet.empty, map := [] } ∧
      Reported s t .inboundCut (some y.val) ((f.number.getD 0).setWidth 32) 0 ∧
      OnlyRequestsOf (.inLane y) s t ∧
      ChangesOnly [.ins, .pools, .flags, .journal, .requests, .port] s t) ∧
  ∀ (s : State) (y : Fin 2) (h : Half) (fs : List InFrame) (f : InFrame), s.rst = false →
    NoGrantDue s → (s.inl y).st = .receiving → (s.inl y).frames = fs ++ [f] →
    ((s.inl y).slot = some 0 →
      ∃ t, exec (.inboundH0Received y h) s = .next t ∧ OtherIns y s t ∧
        t.inl y = { s.inl y with
          frames := fs ++ [{ f with number := some h }], crc := crcHalf (s.inl y).crc h
          slot := some 1, lastNo := h, seen := true
          gaps := if (s.inl y).seen = true ∧ h ≠ (s.inl y).lastNo + 1 then sat8 (s.inl y).gaps
            else (s.inl y).gaps } ∧
        ((s.inl y).seen = true ∧ h ≠ (s.inl y).lastNo + 1 →
          ReportedAlone s t .inboundGap (some y.val) (h.setWidth 32)
            ((h - (s.inl y).lastNo - 1).setWidth 32)) ∧
        ((s.inl y).seen = false ∨ h = (s.inl y).lastNo + 1 →
          t.flags = s.flags ∧ t.journal = s.journal) ∧
        ChangesOnly [.ins, .flags, .journal, .requests, .port] s t) ∧
    ((s.inl y).slot = some 1 → h.toNat = (s.inRec y).slots →
      ∃ t, exec (.inboundH1Received y h) s = .next t ∧ OtherIns y s t ∧
        t.inl y = { s.inl y with crc := crcHalf (s.inl y).crc h, slot := some 2 } ∧
        ChangesOnly [.ins] s t) ∧
    (∀ g gs, (s.inl y).slot = some ((s.inRec y).slots + 2) → h = (s.inl y).crc → fs = g :: gs →
      g.buffer ≠ none →
      (g.outcome = .good ∧ g.halves ≠ [] ∧
          (s.inProgress (.inLane y) = true ∨ Requester.inLane y ∈ s.requests.map Request.who) ∨
        g.outcome = .discard ∧ s.inProgress (.inLane y) = true) →
      ∃ t, exec (.inboundCrcSlotReceived y h) s = .next t ∧ OtherIns y s t ∧
        t.inl y = { s.inl y with
          st := .listening, slot := none, frames := fs ++ [{ f with outcome := .good }] } ∧
        ChangesOnly [.ins] s t) ∧
    (∀ k, (s.inl y).slot = some ((s.inRec y).slots + 2) → h = (s.inl y).crc → fs = [] →
      f.buffer = some k → f.halves ≠ [] →
      s.inProgress (.inLane y) = true ∨ Requester.inLane y ∈ s.requests.map Request.who →
      ∃ t, exec (.inboundCrcSlotReceived y h) s = .next t ∧ OtherIns y s t ∧
        t.inl y = { s.inl y with
          st := .listening, slot := none, frames := [{ f with outcome := .good }] } ∧
        ChangesOnly [.ins] s t)

/-- R143, R155: which payload word and half a data slot goes to, by the entry of the lane's run that names
it. R155, R144, R151: a data half is fed to the CRC; named by an entry, with room in the receive buffer,
it joins the tail with its payload word and half, and at the head of the buffer its write is requested; not
named, it goes no further. That the bytes of a half write without an enable carry 0 is the model's choice
(log 29). -/
def Obligations.DataHalfJoinsTheReceiveBuffer : Prop :=
  (∀ (s : State) (y : Fin 2) (d : Nat),
    (∀ p, s.rxPlace y d = some p → ∃ e ∈ (s.inRec y).run, (s.entry e).names d p) ∧
    (s.rxPlace y d = none → ∀ e ∈ (s.inRec y).run, ∀ p, ¬ (s.entry e).names d p)) ∧
  ∀ (s : State) (y : Fin 2) (h : Half) (d : Nat) (fs : List InFrame) (f : InFrame), s.rst = false →
    NoGrantDue s → (s.inl y).st = .receiving → (s.inl y).slot = some (d + 2) →
    d < (s.inRec y).slots → (s.inl y).frames = fs ++ [f] →
    (s.rxPlace y d = none →
      ∃ t, exec (.inboundDataSlotReceived y h) s = .next t ∧ OtherIns y s t ∧
        t.inl y = { s.inl y with crc := crcHalf (s.inl y).crc h, slot := some (d + 3) } ∧
        ChangesOnly [.ins] s t) ∧
    (∀ p, s.rxPlace y d = some p → (s.inl y).halves.length < 16 →
      ∃ t, exec (.inboundDataSlotReceived y h) s = .next t ∧ OtherIns y s t ∧
        t.inl y = { s.inl y with
          crc := crcHalf (s.inl y).crc h, slot := some (d + 3)
          frames := fs ++ [{ f with
            halves := f.halves ++ [{ word := p.1, high := p.2, data := h }] }] } ∧
        (∀ w k, s.inWindow y = some w → fs = [] → f.buffer = some k → f.halves = [] →
          s.inProgress (.inLane y) = false → Requester.inLane y ∉ s.requests.map Request.who →
          Requested s t (s.halfWrite y w k { word := p.1, high := p.2, data := h })) ∧
        OnlyRequestsOf (.inLane y) s t ∧
        ChangesOnly [.ins, .requests, .port] s t)

/-! ### Reset (chapter 9) -/

/-- R177, R52, R85, R163: the assertion of RST# gives every block its reset values, keeps the profile base,
and leaves cue memory as it is apart from a write in progress, which it completes. At the release the
straps are sampled, the time base begins from 0, and a write presented meanwhile joins the queue. That a
write in progress completes within the event of the assertion is the model's reading (log 7). Where the
manual gives no reset value, the one in State.reset is the model's: the word of the latest answer (log 5),
the CRC accumulators and the count of lanes at a STOP (log 6), the sequence and frame time of a buffer
(log 15), and the journal settings of the header besides OFF (log 26). -/
def Obligations.ResetPinAndRelease : Prop :=
  (∀ s : State, s.rst = false →
    ∃ t, exec .resetPin s = .next t ∧
      t = { State.reset with
        pending := s.pending, rst := true, straps := s.straps, readData := t.readData, mem := t.mem } ∧
      ((∀ a, s.port = some a → a.req.write = false) → t.mem = s.mem) ∧
      (∀ a, s.port = some a → a.req.write = true →
        t.mem = s.mem.writeWord a.req.adr a.req.be a.req.data) ∧
      (s.readHeld = true → t.readData = 0)) ∧
  ∀ (s : State) (straps : BitVec 2), s.rst = true →
    ∃ t, exec (.resetRelease straps) s = .next t ∧ t.rst = false ∧ t.straps = straps ∧
      t.timeBase = 0 ∧ t.base = straps.toNat * 0x80000 ∧
      (∀ x, s.waiting = some (.write x) → t.queue = s.queue ++ [x] ∧ t.waiting = none) ∧
      ((∀ x, s.waiting ≠ some (.write x)) → t.queue = s.queue ∧ t.waiting = s.waiting) ∧
      ChangesOnly [.rst, .straps, .timeBase, .queue, .waiting] s t

/-- The values after the reset pin: of run control with an empty queue at the host port and an idle arbiter
(R164, R52, R85), the window, lane and entry tables (R1, R105, R128), each window's pool, run record, job
and staleness record (R9, R12, R26, R41, R86), the groups (R87), the outbound lanes with their entry states
(R107, R108, R131), the inbound lanes (R149, R150), the flags, the mask and the journal (R182, R183); and
the laws that every step keeps hold in State.reset. That it is the machine after the first release is the
model's choice (log 4). Where the manual gives no value, the one here is the model's: the CRC accumulators
(log 6), the sequence and frame time of a buffer (log 15). -/
def Obligations.ResetStateHoldsItsValuesAndTheLaws : Prop :=
  State.reset.dev = .setup ∧ State.reset.outcome = .none ∧ State.reset.load = none ∧
  State.reset.loadErr = { check := 0, index := 0 } ∧ State.reset.startInstant = 0 ∧
  State.reset.startReached = false ∧ State.reset.timeBase = 0 ∧
  (∀ x : Fin 6, State.reset.sending[x] = false) ∧
  State.reset.header.imageLength = 0 ∧ State.reset.header.windowCount = 0 ∧
  State.reset.header.entryCount = 0 ∧ State.reset.header.startDelay = 0 ∧
  State.reset.header.mode = .off ∧ State.reset.header.mask = BitVec.allOnes 17 ∧
  State.reset.queue = [] ∧ State.reset.waiting = none ∧ State.reset.su = .free ∧
  State.reset.requests = [] ∧ State.reset.port = none ∧ State.reset.copyPtr = 0 ∧
  (∀ w : Fin 16, State.reset.win w =
    { enabled := false, writer := .host, mode := .strict, policy := .hold, group := .none
      sizeCode := 0, bufferCount := 0, decayShift := 0, logicalBase := 0, payloadLength := 0
      timeout := 0, bufferBase := 0, neutralAddress := 0 }) ∧
  (∀ m : Fin 8, State.reset.lanes[m] =
    { enabled := false, timing := .master, edge := .rising, clock := .full, rate := 0
      tolerance := 0, slots := 0, period := 0, filler := 0, first := 0, count := 0 }) ∧
  (∀ e : Fin 256, State.reset.entries[e] =
    { kind := .pass16, window := 0, high := false, slot := 0, offset := 0, param := 0
      const := 0 }) ∧
  (∀ w : Fin 16, State.reset.cueState w = .empty ∧ State.reset.pool w =
    { bufs := Vector.replicate 8
        { st := .free, holders := HolderSet.empty, seq := 0, time := 0, map := [] }
      expected := 1, nextInbound := 1, lastOutcome := .none, lastSeq := 0, commits := 0
      job := none, timer := none, ownMark := false, committed := false }) ∧
  (∀ (g : Fin 4) (w : Fin 16), State.reset.groups[g][w] = false) ∧
  (∀ x : Fin 6, State.reset.out x =
    { st := .idle, frameNo := 0, frameTime := 0, nextStart := none, cutMark := false
      underMark := false
      pulse := { last := none, checked := false, deadline := none, inRun := false }
      underruns := 0, earlies := 0, flywheels := 0, drifts := 0, saturations := 0, begun := 0
      flags := { flywheel := false, prevCut := false, prevUnder := false }
      draws := [], plan := [], asked := none, fetch := [], crc := 0, line := none, tail := none }) ∧
  (∀ e : Fin 256, State.reset.entryState[e] =
    { primed := false, lastSource := 0, lastOutput := 0, sent := false }) ∧
  (∀ y : Fin 2, State.reset.inl y =
    { st := .idle, frames := [], crc := 0, slot := none, lastNo := 0, seen := false
      crcErrors := 0, cuts := 0, gaps := 0, noBuffers := 0 }) ∧
  State.reset.flags = 0 ∧
  State.reset.journal =
    { st := .off, queue := [], wordCount := 0, writeIndex := 0, wrap := 0, lost := 0 } ∧
  MemoryLaw State.reset ∧ QueueLaw State.reset ∧ JournalLaw State.reset ∧ RequestLaw State.reset ∧
  FrameLaw State.reset ∧ FetchLaw State.reset ∧ MapLaw State.reset ∧ FillingLaw State.reset ∧ RunLaw State.reset

/-! ### What every step keeps -/

/-- Cue memory keeps its canonical form, and no command changes it but a performance at the port or the
assertion of RST#. -/
def Obligations.EveryStepKeepsCueMemory : Prop :=
  (∀ s t : State, MemoryLaw s → step s = .next t → MemoryLaw t) ∧
  ∀ (c : Instr) (s t : State), (∀ r, performs c r = false) → c ≠ .resetPin → exec c s = .next t →
    t.mem = s.mem

/-- R50, R52, R183, R187: the posted-write queue never holds more than four writes, and the journal queue,
the word count and the write index stay in their ranges. -/
def Obligations.EveryStepKeepsTheQueueAndJournalLaws : Prop :=
  (∀ s t : State, QueueLaw s → step s = .next t → QueueLaw t) ∧
  ∀ s t : State, JournalLaw s → step s = .next t → JournalLaw t

/-- R73–R76: the request list keeps its law: no request is without the work it serves, and no work is
without its request or access (R36, R37, R50, R61, R155, R168, R187). So do the frames an inbound lane has
in hand (R153, R158), and the fetching of the outbound lanes (R113, R119, R120). That a job has a
COMMITTING target, so that a close meeting it is BUSY, and that the device state fits the work of the
blocks, is the law of the pools (R35, R165). -/
def Obligations.EveryStepKeepsTheRequestLaw : Prop :=
  (∀ s t : State, RequestLaw s → FrameLaw s → RunLaw s → step s = .next t →
    RequestLaw t ∧ FrameLaw t) ∧
  ∀ s t : State, FetchLaw s → RequestLaw s → RunLaw s → step s = .next t → FetchLaw t

/-- R165, R107, R149, R167, R174: the device state, the load job, the sending set and the lane states keep
together, and the device state changes only as the table of R165 says. -/
def Obligations.EveryStepKeepsTheDeviceLaw : Prop :=
  ∀ s t : State, DeviceLaw s → step s = .next t →
    DeviceLaw t ∧
    (t.dev = s.dev ∨ (s.dev, t.dev) ∈
      [(DevState.setup, DevState.loading), (.loading, .run), (.loading, .setup), (.run, .stopping),
       (.stopping, .setup), (.run, .setup)])

/-- R11, R14: the law of the buffer pools. R29: the written maps keep their form. -/
def Obligations.EveryStepKeepsThePoolLaw : Prop :=
  (∀ s t : State, PoolLaw s → step s = .next t → PoolLaw t) ∧
  ∀ s t : State, MapLaw s → step s = .next t → MapLaw t

/-- R32: a host window in RUN always has a FILLING buffer, and so no step ends in a fault. -/
def Obligations.HostWindowsAlwaysHaveAFillingBuffer : Prop :=
  ∀ s : State, FillingLaw s →
    (∃ t, step s = .next t) ∧ ∀ t, step s = .next t → FillingLaw t

/-- R9, R10, R11, R13, R14: the buffer pools and their holders, in every device state. That a map is empty
outside FILLING and COMMITTING is the model's reading of a map out of use (log 15). -/
def Obligations.EveryStepKeepsTheRunLaw : Prop :=
  ∀ s t : State, RunLaw s → step s = .next t → RunLaw t

/-- R180, R1, R105, R128, R87: a flag is cleared by an acknowledge or the reset pin only, and the active
profile and the group table change at the end of a load or at the reset pin only. -/
def Obligations.FlagsAndProfileChangeOnlyWhereStated : Prop :=
  ∀ (c : Instr) (s t : State), exec c s = .next t → c ≠ .resetPin →
    (c ≠ .acknowledge → ∀ k : Kind, s.raised k = true → t.raised k = true) ∧
    (c ≠ .loadReadPerformed → t.windows = s.windows ∧ t.lanes = s.lanes ∧ t.entries = s.entries ∧
      t.header = s.header ∧ t.groups = s.groups)
end

