-- ==== Sys2Proof/Laws/State.lean ====
section
/-! SUPPORT. What each update of State leaves in each field. -/

namespace Sys2Proof.Machine

set_option Elab.async false

variable (s : State)

@[simp] theorem State.modPool_pending (w : Fin 16) (f : Pool → Pool) :
    (s.modPool w f).pending = s.pending := rfl
@[simp] theorem State.modPool_rst (w : Fin 16) (f : Pool → Pool) :
    (s.modPool w f).rst = s.rst := rfl
@[simp] theorem State.modPool_straps (w : Fin 16) (f : Pool → Pool) :
    (s.modPool w f).straps = s.straps := rfl
@[simp] theorem State.modPool_timeBase (w : Fin 16) (f : Pool → Pool) :
    (s.modPool w f).timeBase = s.timeBase := rfl
@[simp] theorem State.modPool_dev (w : Fin 16) (f : Pool → Pool) :
    (s.modPool w f).dev = s.dev := rfl
@[simp] theorem State.modPool_outcome (w : Fin 16) (f : Pool → Pool) :
    (s.modPool w f).outcome = s.outcome := rfl
@[simp] theorem State.modPool_load (w : Fin 16) (f : Pool → Pool) :
    (s.modPool w f).load = s.load := rfl
@[simp] theorem State.modPool_loadErr (w : Fin 16) (f : Pool → Pool) :
    (s.modPool w f).loadErr = s.loadErr := rfl
@[simp] theorem State.modPool_header (w : Fin 16) (f : Pool → Pool) :
    (s.modPool w f).header = s.header := rfl
@[simp] theorem State.modPool_startInstant (w : Fin 16) (f : Pool → Pool) :
    (s.modPool w f).startInstant = s.startInstant := rfl
@[simp] theorem State.modPool_startReached (w : Fin 16) (f : Pool → Pool) :
    (s.modPool w f).startReached = s.startReached := rfl
@[simp] theorem State.modPool_sending (w : Fin 16) (f : Pool → Pool) :
    (s.modPool w f).sending = s.sending := rfl
@[simp] theorem State.modPool_stopLanes (w : Fin 16) (f : Pool → Pool) :
    (s.modPool w f).stopLanes = s.stopLanes := rfl
@[simp] theorem State.modPool_windows (w : Fin 16) (f : Pool → Pool) :
    (s.modPool w f).windows = s.windows := rfl
@[simp] theorem State.modPool_lanes (w : Fin 16) (f : Pool → Pool) :
    (s.modPool w f).lanes = s.lanes := rfl
@[simp] theorem State.modPool_entries (w : Fin 16) (f : Pool → Pool) :
    (s.modPool w f).entries = s.entries := rfl
@[simp] theorem State.modPool_pools (w : Fin 16) (f : Pool → Pool) :
    (s.modPool w f).pools = s.pools.set w (f s.pools[w]) := rfl
@[simp] theorem State.modPool_groups (w : Fin 16) (f : Pool → Pool) :
    (s.modPool w f).groups = s.groups := rfl
@[simp] theorem State.modPool_outs (w : Fin 16) (f : Pool → Pool) :
    (s.modPool w f).outs = s.outs := rfl
@[simp] theorem State.modPool_entryState (w : Fin 16) (f : Pool → Pool) :
    (s.modPool w f).entryState = s.entryState := rfl
@[simp] theorem State.modPool_ins (w : Fin 16) (f : Pool → Pool) :
    (s.modPool w f).ins = s.ins := rfl
@[simp] theorem State.modPool_queue (w : Fin 16) (f : Pool → Pool) :
    (s.modPool w f).queue = s.queue := rfl
@[simp] theorem State.modPool_waiting (w : Fin 16) (f : Pool → Pool) :
    (s.modPool w f).waiting = s.waiting := rfl
@[simp] theorem State.modPool_su (w : Fin 16) (f : Pool → Pool) : (s.modPool w f).su = s.su := rfl
@[simp] theorem State.modPool_readData (w : Fin 16) (f : Pool → Pool) :
    (s.modPool w f).readData = s.readData := rfl
@[simp] theorem State.modPool_requests (w : Fin 16) (f : Pool → Pool) :
    (s.modPool w f).requests = s.requests := rfl
@[simp] theorem State.modPool_port (w : Fin 16) (f : Pool → Pool) :
    (s.modPool w f).port = s.port := rfl
@[simp] theorem State.modPool_copyPtr (w : Fin 16) (f : Pool → Pool) :
    (s.modPool w f).copyPtr = s.copyPtr := rfl
@[simp] theorem State.modPool_flags (w : Fin 16) (f : Pool → Pool) :
    (s.modPool w f).flags = s.flags := rfl
@[simp] theorem State.modPool_journal (w : Fin 16) (f : Pool → Pool) :
    (s.modPool w f).journal = s.journal := rfl
@[simp] theorem State.modPool_mem (w : Fin 16) (f : Pool → Pool) :
    (s.modPool w f).mem = s.mem := rfl

@[simp] theorem State.mapPools_pending (f : Fin 16 → Pool → Pool) :
    (s.mapPools f).pending = s.pending := by simp only [State.mapPools]
@[simp] theorem State.mapPools_rst (f : Fin 16 → Pool → Pool) :
    (s.mapPools f).rst = s.rst := by simp only [State.mapPools]
@[simp] theorem State.mapPools_straps (f : Fin 16 → Pool → Pool) :
    (s.mapPools f).straps = s.straps := by simp only [State.mapPools]
@[simp] theorem State.mapPools_timeBase (f : Fin 16 → Pool → Pool) :
    (s.mapPools f).timeBase = s.timeBase := by simp only [State.mapPools]
@[simp] theorem State.mapPools_dev (f : Fin 16 → Pool → Pool) :
    (s.mapPools f).dev = s.dev := by simp only [State.mapPools]
@[simp] theorem State.mapPools_outcome (f : Fin 16 → Pool → Pool) :
    (s.mapPools f).outcome = s.outcome := by simp only [State.mapPools]
@[simp] theorem State.mapPools_load (f : Fin 16 → Pool → Pool) :
    (s.mapPools f).load = s.load := by simp only [State.mapPools]
@[simp] theorem State.mapPools_loadErr (f : Fin 16 → Pool → Pool) :
    (s.mapPools f).loadErr = s.loadErr := by simp only [State.mapPools]
@[simp] theorem State.mapPools_header (f : Fin 16 → Pool → Pool) :
    (s.mapPools f).header = s.header := by simp only [State.mapPools]
@[simp] theorem State.mapPools_startInstant (f : Fin 16 → Pool → Pool) :
    (s.mapPools f).startInstant = s.startInstant := by simp only [State.mapPools]
@[simp] theorem State.mapPools_startReached (f : Fin 16 → Pool → Pool) :
    (s.mapPools f).startReached = s.startReached := by simp only [State.mapPools]
@[simp] theorem State.mapPools_sending (f : Fin 16 → Pool → Pool) :
    (s.mapPools f).sending = s.sending := by simp only [State.mapPools]
@[simp] theorem State.mapPools_stopLanes (f : Fin 16 → Pool → Pool) :
    (s.mapPools f).stopLanes = s.stopLanes := by simp only [State.mapPools]
@[simp] theorem State.mapPools_windows (f : Fin 16 → Pool → Pool) :
    (s.mapPools f).windows = s.windows := by simp only [State.mapPools]
@[simp] theorem State.mapPools_lanes (f : Fin 16 → Pool → Pool) :
    (s.mapPools f).lanes = s.lanes := by simp only [State.mapPools]
@[simp] theorem State.mapPools_entries (f : Fin 16 → Pool → Pool) :
    (s.mapPools f).entries = s.entries := by simp only [State.mapPools]
@[simp] theorem State.mapPools_pools (f : Fin 16 → Pool → Pool) :
    (s.mapPools f).pools = Vector.ofFn fun w : Fin 16 => f w s.pools[w] := rfl
@[simp] theorem State.mapPools_groups (f : Fin 16 → Pool → Pool) :
    (s.mapPools f).groups = s.groups := by simp only [State.mapPools]
@[simp] theorem State.mapPools_outs (f : Fin 16 → Pool → Pool) :
    (s.mapPools f).outs = s.outs := by simp only [State.mapPools]
@[simp] theorem State.mapPools_entryState (f : Fin 16 → Pool → Pool) :
    (s.mapPools f).entryState = s.entryState := by simp only [State.mapPools]
@[simp] theorem State.mapPools_ins (f : Fin 16 → Pool → Pool) :
    (s.mapPools f).ins = s.ins := by simp only [State.mapPools]
@[simp] theorem State.mapPools_queue (f : Fin 16 → Pool → Pool) :
    (s.mapPools f).queue = s.queue := by simp only [State.mapPools]
@[simp] theorem State.mapPools_waiting (f : Fin 16 → Pool → Pool) :
    (s.mapPools f).waiting = s.waiting := by simp only [State.mapPools]
@[simp] theorem State.mapPools_su (f : Fin 16 → Pool → Pool) :
    (s.mapPools f).su = s.su := by simp only [State.mapPools]
@[simp] theorem State.mapPools_readData (f : Fin 16 → Pool → Pool) :
    (s.mapPools f).readData = s.readData := by simp only [State.mapPools]
@[simp] theorem State.mapPools_requests (f : Fin 16 → Pool → Pool) :
    (s.mapPools f).requests = s.requests := by simp only [State.mapPools]
@[simp] theorem State.mapPools_port (f : Fin 16 → Pool → Pool) :
    (s.mapPools f).port = s.port := by simp only [State.mapPools]
@[simp] theorem State.mapPools_copyPtr (f : Fin 16 → Pool → Pool) :
    (s.mapPools f).copyPtr = s.copyPtr := by simp only [State.mapPools]
@[simp] theorem State.mapPools_flags (f : Fin 16 → Pool → Pool) :
    (s.mapPools f).flags = s.flags := by simp only [State.mapPools]
@[simp] theorem State.mapPools_journal (f : Fin 16 → Pool → Pool) :
    (s.mapPools f).journal = s.journal := by simp only [State.mapPools]
@[simp] theorem State.mapPools_mem (f : Fin 16 → Pool → Pool) :
    (s.mapPools f).mem = s.mem := by simp only [State.mapPools]

@[simp] theorem State.modOut_pending (x : Fin 6) (f : OutLane → OutLane) :
    (s.modOut x f).pending = s.pending := rfl
@[simp] theorem State.modOut_rst (x : Fin 6) (f : OutLane → OutLane) :
    (s.modOut x f).rst = s.rst := rfl
@[simp] theorem State.modOut_straps (x : Fin 6) (f : OutLane → OutLane) :
    (s.modOut x f).straps = s.straps := rfl
@[simp] theorem State.modOut_timeBase (x : Fin 6) (f : OutLane → OutLane) :
    (s.modOut x f).timeBase = s.timeBase := rfl
@[simp] theorem State.modOut_dev (x : Fin 6) (f : OutLane → OutLane) :
    (s.modOut x f).dev = s.dev := rfl
@[simp] theorem State.modOut_outcome (x : Fin 6) (f : OutLane → OutLane) :
    (s.modOut x f).outcome = s.outcome := rfl
@[simp] theorem State.modOut_load (x : Fin 6) (f : OutLane → OutLane) :
    (s.modOut x f).load = s.load := rfl
@[simp] theorem State.modOut_loadErr (x : Fin 6) (f : OutLane → OutLane) :
    (s.modOut x f).loadErr = s.loadErr := rfl
@[simp] theorem State.modOut_header (x : Fin 6) (f : OutLane → OutLane) :
    (s.modOut x f).header = s.header := rfl
@[simp] theorem State.modOut_startInstant (x : Fin 6) (f : OutLane → OutLane) :
    (s.modOut x f).startInstant = s.startInstant := rfl
@[simp] theorem State.modOut_startReached (x : Fin 6) (f : OutLane → OutLane) :
    (s.modOut x f).startReached = s.startReached := rfl
@[simp] theorem State.modOut_sending (x : Fin 6) (f : OutLane → OutLane) :
    (s.modOut x f).sending = s.sending := rfl
@[simp] theorem State.modOut_stopLanes (x : Fin 6) (f : OutLane → OutLane) :
    (s.modOut x f).stopLanes = s.stopLanes := rfl
@[simp] theorem State.modOut_windows (x : Fin 6) (f : OutLane → OutLane) :
    (s.modOut x f).windows = s.windows := rfl
@[simp] theorem State.modOut_lanes (x : Fin 6) (f : OutLane → OutLane) :
    (s.modOut x f).lanes = s.lanes := rfl
@[simp] theorem State.modOut_entries (x : Fin 6) (f : OutLane → OutLane) :
    (s.modOut x f).entries = s.entries := rfl
@[simp] theorem State.modOut_pools (x : Fin 6) (f : OutLane → OutLane) :
    (s.modOut x f).pools = s.pools := rfl
@[simp] theorem State.modOut_groups (x : Fin 6) (f : OutLane → OutLane) :
    (s.modOut x f).groups = s.groups := rfl
@[simp] theorem State.modOut_outs (x : Fin 6) (f : OutLane → OutLane) :
    (s.modOut x f).outs = s.outs.set x (f s.outs[x]) := rfl
@[simp] theorem State.modOut_entryState (x : Fin 6) (f : OutLane → OutLane) :
    (s.modOut x f).entryState = s.entryState := rfl
@[simp] theorem State.modOut_ins (x : Fin 6) (f : OutLane → OutLane) :
    (s.modOut x f).ins = s.ins := rfl
@[simp] theorem State.modOut_queue (x : Fin 6) (f : OutLane → OutLane) :
    (s.modOut x f).queue = s.queue := rfl
@[simp] theorem State.modOut_waiting (x : Fin 6) (f : OutLane → OutLane) :
    (s.modOut x f).waiting = s.waiting := rfl
@[simp] theorem State.modOut_su (x : Fin 6) (f : OutLane → OutLane) :
    (s.modOut x f).su = s.su := rfl
@[simp] theorem State.modOut_readData (x : Fin 6) (f : OutLane → OutLane) :
    (s.modOut x f).readData = s.readData := rfl
@[simp] theorem State.modOut_requests (x : Fin 6) (f : OutLane → OutLane) :
    (s.modOut x f).requests = s.requests := rfl
@[simp] theorem State.modOut_port (x : Fin 6) (f : OutLane → OutLane) :
    (s.modOut x f).port = s.port := rfl
@[simp] theorem State.modOut_copyPtr (x : Fin 6) (f : OutLane → OutLane) :
    (s.modOut x f).copyPtr = s.copyPtr := rfl
@[simp] theorem State.modOut_flags (x : Fin 6) (f : OutLane → OutLane) :
    (s.modOut x f).flags = s.flags := rfl
@[simp] theorem State.modOut_journal (x : Fin 6) (f : OutLane → OutLane) :
    (s.modOut x f).journal = s.journal := rfl
@[simp] theorem State.modOut_mem (x : Fin 6) (f : OutLane → OutLane) :
    (s.modOut x f).mem = s.mem := rfl

@[simp] theorem State.modIn_pending (y : Fin 2) (f : InLane → InLane) :
    (s.modIn y f).pending = s.pending := rfl
@[simp] theorem State.modIn_rst (y : Fin 2) (f : InLane → InLane) : (s.modIn y f).rst = s.rst := rfl
@[simp] theorem State.modIn_straps (y : Fin 2) (f : InLane → InLane) :
    (s.modIn y f).straps = s.straps := rfl
@[simp] theorem State.modIn_timeBase (y : Fin 2) (f : InLane → InLane) :
    (s.modIn y f).timeBase = s.timeBase := rfl
@[simp] theorem State.modIn_dev (y : Fin 2) (f : InLane → InLane) : (s.modIn y f).dev = s.dev := rfl
@[simp] theorem State.modIn_outcome (y : Fin 2) (f : InLane → InLane) :
    (s.modIn y f).outcome = s.outcome := rfl
@[simp] theorem State.modIn_load (y : Fin 2) (f : InLane → InLane) :
    (s.modIn y f).load = s.load := rfl
@[simp] theorem State.modIn_loadErr (y : Fin 2) (f : InLane → InLane) :
    (s.modIn y f).loadErr = s.loadErr := rfl
@[simp] theorem State.modIn_header (y : Fin 2) (f : InLane → InLane) :
    (s.modIn y f).header = s.header := rfl
@[simp] theorem State.modIn_startInstant (y : Fin 2) (f : InLane → InLane) :
    (s.modIn y f).startInstant = s.startInstant := rfl
@[simp] theorem State.modIn_startReached (y : Fin 2) (f : InLane → InLane) :
    (s.modIn y f).startReached = s.startReached := rfl
@[simp] theorem State.modIn_sending (y : Fin 2) (f : InLane → InLane) :
    (s.modIn y f).sending = s.sending := rfl
@[simp] theorem State.modIn_stopLanes (y : Fin 2) (f : InLane → InLane) :
    (s.modIn y f).stopLanes = s.stopLanes := rfl
@[simp] theorem State.modIn_windows (y : Fin 2) (f : InLane → InLane) :
    (s.modIn y f).windows = s.windows := rfl
@[simp] theorem State.modIn_lanes (y : Fin 2) (f : InLane → InLane) :
    (s.modIn y f).lanes = s.lanes := rfl
@[simp] theorem State.modIn_entries (y : Fin 2) (f : InLane → InLane) :
    (s.modIn y f).entries = s.entries := rfl
@[simp] theorem State.modIn_pools (y : Fin 2) (f : InLane → InLane) :
    (s.modIn y f).pools = s.pools := rfl
@[simp] theorem State.modIn_groups (y : Fin 2) (f : InLane → InLane) :
    (s.modIn y f).groups = s.groups := rfl
@[simp] theorem State.modIn_outs (y : Fin 2) (f : InLane → InLane) :
    (s.modIn y f).outs = s.outs := rfl
@[simp] theorem State.modIn_entryState (y : Fin 2) (f : InLane → InLane) :
    (s.modIn y f).entryState = s.entryState := rfl
@[simp] theorem State.modIn_ins (y : Fin 2) (f : InLane → InLane) :
    (s.modIn y f).ins = s.ins.set y (f s.ins[y]) := rfl
@[simp] theorem State.modIn_queue (y : Fin 2) (f : InLane → InLane) :
    (s.modIn y f).queue = s.queue := rfl
@[simp] theorem State.modIn_waiting (y : Fin 2) (f : InLane → InLane) :
    (s.modIn y f).waiting = s.waiting := rfl
@[simp] theorem State.modIn_su (y : Fin 2) (f : InLane → InLane) : (s.modIn y f).su = s.su := rfl
@[simp] theorem State.modIn_readData (y : Fin 2) (f : InLane → InLane) :
    (s.modIn y f).readData = s.readData := rfl
@[simp] theorem State.modIn_requests (y : Fin 2) (f : InLane → InLane) :
    (s.modIn y f).requests = s.requests := rfl
@[simp] theorem State.modIn_port (y : Fin 2) (f : InLane → InLane) :
    (s.modIn y f).port = s.port := rfl
@[simp] theorem State.modIn_copyPtr (y : Fin 2) (f : InLane → InLane) :
    (s.modIn y f).copyPtr = s.copyPtr := rfl
@[simp] theorem State.modIn_flags (y : Fin 2) (f : InLane → InLane) :
    (s.modIn y f).flags = s.flags := rfl
@[simp] theorem State.modIn_journal (y : Fin 2) (f : InLane → InLane) :
    (s.modIn y f).journal = s.journal := rfl
@[simp] theorem State.modIn_mem (y : Fin 2) (f : InLane → InLane) : (s.modIn y f).mem = s.mem := rfl

@[simp] theorem State.setEntrySt_pending (i : Nat) (e : EntryState) :
    (s.setEntrySt i e).pending = s.pending := by unfold State.setEntrySt; split <;> rfl
@[simp] theorem State.setEntrySt_rst (i : Nat) (e : EntryState) :
    (s.setEntrySt i e).rst = s.rst := by unfold State.setEntrySt; split <;> rfl
@[simp] theorem State.setEntrySt_straps (i : Nat) (e : EntryState) :
    (s.setEntrySt i e).straps = s.straps := by unfold State.setEntrySt; split <;> rfl
@[simp] theorem State.setEntrySt_timeBase (i : Nat) (e : EntryState) :
    (s.setEntrySt i e).timeBase = s.timeBase := by unfold State.setEntrySt; split <;> rfl
@[simp] theorem State.setEntrySt_dev (i : Nat) (e : EntryState) :
    (s.setEntrySt i e).dev = s.dev := by unfold State.setEntrySt; split <;> rfl
@[simp] theorem State.setEntrySt_outcome (i : Nat) (e : EntryState) :
    (s.setEntrySt i e).outcome = s.outcome := by unfold State.setEntrySt; split <;> rfl
@[simp] theorem State.setEntrySt_load (i : Nat) (e : EntryState) :
    (s.setEntrySt i e).load = s.load := by unfold State.setEntrySt; split <;> rfl
@[simp] theorem State.setEntrySt_loadErr (i : Nat) (e : EntryState) :
    (s.setEntrySt i e).loadErr = s.loadErr := by unfold State.setEntrySt; split <;> rfl
@[simp] theorem State.setEntrySt_header (i : Nat) (e : EntryState) :
    (s.setEntrySt i e).header = s.header := by unfold State.setEntrySt; split <;> rfl
@[simp] theorem State.setEntrySt_startInstant (i : Nat) (e : EntryState) :
    (s.setEntrySt i e).startInstant = s.startInstant := by unfold State.setEntrySt; split <;> rfl
@[simp] theorem State.setEntrySt_startReached (i : Nat) (e : EntryState) :
    (s.setEntrySt i e).startReached = s.startReached := by unfold State.setEntrySt; split <;> rfl
@[simp] theorem State.setEntrySt_sending (i : Nat) (e : EntryState) :
    (s.setEntrySt i e).sending = s.sending := by unfold State.setEntrySt; split <;> rfl
@[simp] theorem State.setEntrySt_stopLanes (i : Nat) (e : EntryState) :
    (s.setEntrySt i e).stopLanes = s.stopLanes := by unfold State.setEntrySt; split <;> rfl
@[simp] theorem State.setEntrySt_windows (i : Nat) (e : EntryState) :
    (s.setEntrySt i e).windows = s.windows := by unfold State.setEntrySt; split <;> rfl
@[simp] theorem State.setEntrySt_lanes (i : Nat) (e : EntryState) :
    (s.setEntrySt i e).lanes = s.lanes := by unfold State.setEntrySt; split <;> rfl
@[simp] theorem State.setEntrySt_entries (i : Nat) (e : EntryState) :
    (s.setEntrySt i e).entries = s.entries := by unfold State.setEntrySt; split <;> rfl
@[simp] theorem State.setEntrySt_pools (i : Nat) (e : EntryState) :
    (s.setEntrySt i e).pools = s.pools := by unfold State.setEntrySt; split <;> rfl
@[simp] theorem State.setEntrySt_groups (i : Nat) (e : EntryState) :
    (s.setEntrySt i e).groups = s.groups := by unfold State.setEntrySt; split <;> rfl
@[simp] theorem State.setEntrySt_outs (i : Nat) (e : EntryState) :
    (s.setEntrySt i e).outs = s.outs := by unfold State.setEntrySt; split <;> rfl
@[simp] theorem State.setEntrySt_ins (i : Nat) (e : EntryState) :
    (s.setEntrySt i e).ins = s.ins := by unfold State.setEntrySt; split <;> rfl
@[simp] theorem State.setEntrySt_queue (i : Nat) (e : EntryState) :
    (s.setEntrySt i e).queue = s.queue := by unfold State.setEntrySt; split <;> rfl
@[simp] theorem State.setEntrySt_waiting (i : Nat) (e : EntryState) :
    (s.setEntrySt i e).waiting = s.waiting := by unfold State.setEntrySt; split <;> rfl
@[simp] theorem State.setEntrySt_su (i : Nat) (e : EntryState) :
    (s.setEntrySt i e).su = s.su := by unfold State.setEntrySt; split <;> rfl
@[simp] theorem State.setEntrySt_readData (i : Nat) (e : EntryState) :
    (s.setEntrySt i e).readData = s.readData := by unfold State.setEntrySt; split <;> rfl
@[simp] theorem State.setEntrySt_requests (i : Nat) (e : EntryState) :
    (s.setEntrySt i e).requests = s.requests := by unfold State.setEntrySt; split <;> rfl
@[simp] theorem State.setEntrySt_port (i : Nat) (e : EntryState) :
    (s.setEntrySt i e).port = s.port := by unfold State.setEntrySt; split <;> rfl
@[simp] theorem State.setEntrySt_copyPtr (i : Nat) (e : EntryState) :
    (s.setEntrySt i e).copyPtr = s.copyPtr := by unfold State.setEntrySt; split <;> rfl
@[simp] theorem State.setEntrySt_flags (i : Nat) (e : EntryState) :
    (s.setEntrySt i e).flags = s.flags := by unfold State.setEntrySt; split <;> rfl
@[simp] theorem State.setEntrySt_journal (i : Nat) (e : EntryState) :
    (s.setEntrySt i e).journal = s.journal := by unfold State.setEntrySt; split <;> rfl
@[simp] theorem State.setEntrySt_mem (i : Nat) (e : EntryState) :
    (s.setEntrySt i e).mem = s.mem := by unfold State.setEntrySt; split <;> rfl

@[simp] theorem State.modJournal_pending (f : Journal → Journal) :
    (s.modJournal f).pending = s.pending := rfl
@[simp] theorem State.modJournal_rst (f : Journal → Journal) : (s.modJournal f).rst = s.rst := rfl
@[simp] theorem State.modJournal_straps (f : Journal → Journal) :
    (s.modJournal f).straps = s.straps := rfl
@[simp] theorem State.modJournal_timeBase (f : Journal → Journal) :
    (s.modJournal f).timeBase = s.timeBase := rfl
@[simp] theorem State.modJournal_dev (f : Journal → Journal) : (s.modJournal f).dev = s.dev := rfl
@[simp] theorem State.modJournal_outcome (f : Journal → Journal) :
    (s.modJournal f).outcome = s.outcome := rfl
@[simp] theorem State.modJournal_load (f : Journal → Journal) :
    (s.modJournal f).load = s.load := rfl
@[simp] theorem State.modJournal_loadErr (f : Journal → Journal) :
    (s.modJournal f).loadErr = s.loadErr := rfl
@[simp] theorem State.modJournal_header (f : Journal → Journal) :
    (s.modJournal f).header = s.header := rfl
@[simp] theorem State.modJournal_startInstant (f : Journal → Journal) :
    (s.modJournal f).startInstant = s.startInstant := rfl
@[simp] theorem State.modJournal_startReached (f : Journal → Journal) :
    (s.modJournal f).startReached = s.startReached := rfl
@[simp] theorem State.modJournal_sending (f : Journal → Journal) :
    (s.modJournal f).sending = s.sending := rfl
@[simp] theorem State.modJournal_stopLanes (f : Journal → Journal) :
    (s.modJournal f).stopLanes = s.stopLanes := rfl
@[simp] theorem State.modJournal_windows (f : Journal → Journal) :
    (s.modJournal f).windows = s.windows := rfl
@[simp] theorem State.modJournal_lanes (f : Journal → Journal) :
    (s.modJournal f).lanes = s.lanes := rfl
@[simp] theorem State.modJournal_entries (f : Journal → Journal) :
    (s.modJournal f).entries = s.entries := rfl
@[simp] theorem State.modJournal_pools (f : Journal → Journal) :
    (s.modJournal f).pools = s.pools := rfl
@[simp] theorem State.modJournal_groups (f : Journal → Journal) :
    (s.modJournal f).groups = s.groups := rfl
@[simp] theorem State.modJournal_outs (f : Journal → Journal) :
    (s.modJournal f).outs = s.outs := rfl
@[simp] theorem State.modJournal_entryState (f : Journal → Journal) :
    (s.modJournal f).entryState = s.entryState := rfl
@[simp] theorem State.modJournal_ins (f : Journal → Journal) : (s.modJournal f).ins = s.ins := rfl
@[simp] theorem State.modJournal_queue (f : Journal → Journal) :
    (s.modJournal f).queue = s.queue := rfl
@[simp] theorem State.modJournal_waiting (f : Journal → Journal) :
    (s.modJournal f).waiting = s.waiting := rfl
@[simp] theorem State.modJournal_su (f : Journal → Journal) : (s.modJournal f).su = s.su := rfl
@[simp] theorem State.modJournal_readData (f : Journal → Journal) :
    (s.modJournal f).readData = s.readData := rfl
@[simp] theorem State.modJournal_requests (f : Journal → Journal) :
    (s.modJournal f).requests = s.requests := rfl
@[simp] theorem State.modJournal_port (f : Journal → Journal) :
    (s.modJournal f).port = s.port := rfl
@[simp] theorem State.modJournal_copyPtr (f : Journal → Journal) :
    (s.modJournal f).copyPtr = s.copyPtr := rfl
@[simp] theorem State.modJournal_flags (f : Journal → Journal) :
    (s.modJournal f).flags = s.flags := rfl
@[simp] theorem State.modJournal_journal (f : Journal → Journal) :
    (s.modJournal f).journal = f s.journal := rfl
@[simp] theorem State.modJournal_mem (f : Journal → Journal) : (s.modJournal f).mem = s.mem := rfl

@[simp] theorem State.setFlag_pending (k : Kind) : (s.setFlag k).pending = s.pending := rfl
@[simp] theorem State.setFlag_rst (k : Kind) : (s.setFlag k).rst = s.rst := rfl
@[simp] theorem State.setFlag_straps (k : Kind) : (s.setFlag k).straps = s.straps := rfl
@[simp] theorem State.setFlag_timeBase (k : Kind) : (s.setFlag k).timeBase = s.timeBase := rfl
@[simp] theorem State.setFlag_dev (k : Kind) : (s.setFlag k).dev = s.dev := rfl
@[simp] theorem State.setFlag_outcome (k : Kind) : (s.setFlag k).outcome = s.outcome := rfl
@[simp] theorem State.setFlag_load (k : Kind) : (s.setFlag k).load = s.load := rfl
@[simp] theorem State.setFlag_loadErr (k : Kind) : (s.setFlag k).loadErr = s.loadErr := rfl
@[simp] theorem State.setFlag_header (k : Kind) : (s.setFlag k).header = s.header := rfl
@[simp] theorem State.setFlag_startInstant (k : Kind) :
    (s.setFlag k).startInstant = s.startInstant := rfl
@[simp] theorem State.setFlag_startReached (k : Kind) :
    (s.setFlag k).startReached = s.startReached := rfl
@[simp] theorem State.setFlag_sending (k : Kind) : (s.setFlag k).sending = s.sending := rfl
@[simp] theorem State.setFlag_stopLanes (k : Kind) : (s.setFlag k).stopLanes = s.stopLanes := rfl
@[simp] theorem State.setFlag_windows (k : Kind) : (s.setFlag k).windows = s.windows := rfl
@[simp] theorem State.setFlag_lanes (k : Kind) : (s.setFlag k).lanes = s.lanes := rfl
@[simp] theorem State.setFlag_entries (k : Kind) : (s.setFlag k).entries = s.entries := rfl
@[simp] theorem State.setFlag_pools (k : Kind) : (s.setFlag k).pools = s.pools := rfl
@[simp] theorem State.setFlag_groups (k : Kind) : (s.setFlag k).groups = s.groups := rfl
@[simp] theorem State.setFlag_outs (k : Kind) : (s.setFlag k).outs = s.outs := rfl
@[simp] theorem State.setFlag_entryState (k : Kind) : (s.setFlag k).entryState = s.entryState := rfl
@[simp] theorem State.setFlag_ins (k : Kind) : (s.setFlag k).ins = s.ins := rfl
@[simp] theorem State.setFlag_queue (k : Kind) : (s.setFlag k).queue = s.queue := rfl
@[simp] theorem State.setFlag_waiting (k : Kind) : (s.setFlag k).waiting = s.waiting := rfl
@[simp] theorem State.setFlag_su (k : Kind) : (s.setFlag k).su = s.su := rfl
@[simp] theorem State.setFlag_readData (k : Kind) : (s.setFlag k).readData = s.readData := rfl
@[simp] theorem State.setFlag_requests (k : Kind) : (s.setFlag k).requests = s.requests := rfl
@[simp] theorem State.setFlag_port (k : Kind) : (s.setFlag k).port = s.port := rfl
@[simp] theorem State.setFlag_copyPtr (k : Kind) : (s.setFlag k).copyPtr = s.copyPtr := rfl
@[simp] theorem State.setFlag_flags (k : Kind) :
    (s.setFlag k).flags = s.flags ||| (1#17 <<< k.code) := rfl
@[simp] theorem State.setFlag_journal (k : Kind) : (s.setFlag k).journal = s.journal := rfl
@[simp] theorem State.setFlag_mem (k : Kind) : (s.setFlag k).mem = s.mem := rfl

@[simp] theorem State.join_pending (r : Request) : (s.join r).pending = s.pending := rfl
@[simp] theorem State.join_rst (r : Request) : (s.join r).rst = s.rst := rfl
@[simp] theorem State.join_straps (r : Request) : (s.join r).straps = s.straps := rfl
@[simp] theorem State.join_timeBase (r : Request) : (s.join r).timeBase = s.timeBase := rfl
@[simp] theorem State.join_dev (r : Request) : (s.join r).dev = s.dev := rfl
@[simp] theorem State.join_outcome (r : Request) : (s.join r).outcome = s.outcome := rfl
@[simp] theorem State.join_load (r : Request) : (s.join r).load = s.load := rfl
@[simp] theorem State.join_loadErr (r : Request) : (s.join r).loadErr = s.loadErr := rfl
@[simp] theorem State.join_header (r : Request) : (s.join r).header = s.header := rfl
@[simp] theorem State.join_startInstant (r : Request) :
    (s.join r).startInstant = s.startInstant := rfl
@[simp] theorem State.join_startReached (r : Request) :
    (s.join r).startReached = s.startReached := rfl
@[simp] theorem State.join_sending (r : Request) : (s.join r).sending = s.sending := rfl
@[simp] theorem State.join_stopLanes (r : Request) : (s.join r).stopLanes = s.stopLanes := rfl
@[simp] theorem State.join_windows (r : Request) : (s.join r).windows = s.windows := rfl
@[simp] theorem State.join_lanes (r : Request) : (s.join r).lanes = s.lanes := rfl
@[simp] theorem State.join_entries (r : Request) : (s.join r).entries = s.entries := rfl
@[simp] theorem State.join_pools (r : Request) : (s.join r).pools = s.pools := rfl
@[simp] theorem State.join_groups (r : Request) : (s.join r).groups = s.groups := rfl
@[simp] theorem State.join_outs (r : Request) : (s.join r).outs = s.outs := rfl
@[simp] theorem State.join_entryState (r : Request) : (s.join r).entryState = s.entryState := rfl
@[simp] theorem State.join_ins (r : Request) : (s.join r).ins = s.ins := rfl
@[simp] theorem State.join_queue (r : Request) : (s.join r).queue = s.queue := rfl
@[simp] theorem State.join_waiting (r : Request) : (s.join r).waiting = s.waiting := rfl
@[simp] theorem State.join_su (r : Request) : (s.join r).su = s.su := rfl
@[simp] theorem State.join_readData (r : Request) : (s.join r).readData = s.readData := rfl
@[simp] theorem State.join_requests (r : Request) : (s.join r).requests = s.requests ++ [r] := rfl
@[simp] theorem State.join_port (r : Request) : (s.join r).port = s.port := rfl
@[simp] theorem State.join_copyPtr (r : Request) : (s.join r).copyPtr = s.copyPtr := rfl
@[simp] theorem State.join_flags (r : Request) : (s.join r).flags = s.flags := rfl
@[simp] theorem State.join_journal (r : Request) : (s.join r).journal = s.journal := rfl
@[simp] theorem State.join_mem (r : Request) : (s.join r).mem = s.mem := rfl

@[simp] theorem State.unlist_pending (q : Requester) : (s.unlist q).pending = s.pending := rfl
@[simp] theorem State.unlist_rst (q : Requester) : (s.unlist q).rst = s.rst := rfl
@[simp] theorem State.unlist_straps (q : Requester) : (s.unlist q).straps = s.straps := rfl
@[simp] theorem State.unlist_timeBase (q : Requester) : (s.unlist q).timeBase = s.timeBase := rfl
@[simp] theorem State.unlist_dev (q : Requester) : (s.unlist q).dev = s.dev := rfl
@[simp] theorem State.unlist_outcome (q : Requester) : (s.unlist q).outcome = s.outcome := rfl
@[simp] theorem State.unlist_load (q : Requester) : (s.unlist q).load = s.load := rfl
@[simp] theorem State.unlist_loadErr (q : Requester) : (s.unlist q).loadErr = s.loadErr := rfl
@[simp] theorem State.unlist_header (q : Requester) : (s.unlist q).header = s.header := rfl
@[simp] theorem State.unlist_startInstant (q : Requester) :
    (s.unlist q).startInstant = s.startInstant := rfl
@[simp] theorem State.unlist_startReached (q : Requester) :
    (s.unlist q).startReached = s.startReached := rfl
@[simp] theorem State.unlist_sending (q : Requester) : (s.unlist q).sending = s.sending := rfl
@[simp] theorem State.unlist_stopLanes (q : Requester) : (s.unlist q).stopLanes = s.stopLanes := rfl
@[simp] theorem State.unlist_windows (q : Requester) : (s.unlist q).windows = s.windows := rfl
@[simp] theorem State.unlist_lanes (q : Requester) : (s.unlist q).lanes = s.lanes := rfl
@[simp] theorem State.unlist_entries (q : Requester) : (s.unlist q).entries = s.entries := rfl
@[simp] theorem State.unlist_pools (q : Requester) : (s.unlist q).pools = s.pools := rfl
@[simp] theorem State.unlist_groups (q : Requester) : (s.unlist q).groups = s.groups := rfl
@[simp] theorem State.unlist_outs (q : Requester) : (s.unlist q).outs = s.outs := rfl
@[simp] theorem State.unlist_entryState (q : Requester) :
    (s.unlist q).entryState = s.entryState := rfl
@[simp] theorem State.unlist_ins (q : Requester) : (s.unlist q).ins = s.ins := rfl
@[simp] theorem State.unlist_queue (q : Requester) : (s.unlist q).queue = s.queue := rfl
@[simp] theorem State.unlist_waiting (q : Requester) : (s.unlist q).waiting = s.waiting := rfl
@[simp] theorem State.unlist_su (q : Requester) : (s.unlist q).su = s.su := rfl
@[simp] theorem State.unlist_readData (q : Requester) : (s.unlist q).readData = s.readData := rfl
@[simp] theorem State.unlist_requests (q : Requester) :
    (s.unlist q).requests = s.requests.filter fun r => r.who != q := rfl
@[simp] theorem State.unlist_port (q : Requester) : (s.unlist q).port = s.port := rfl
@[simp] theorem State.unlist_copyPtr (q : Requester) : (s.unlist q).copyPtr = s.copyPtr := rfl
@[simp] theorem State.unlist_flags (q : Requester) : (s.unlist q).flags = s.flags := rfl
@[simp] theorem State.unlist_journal (q : Requester) : (s.unlist q).journal = s.journal := rfl
@[simp] theorem State.unlist_mem (q : Requester) : (s.unlist q).mem = s.mem := rfl

@[simp] theorem State.withdrawBy_pending (p : Requester → Bool) :
    (s.withdrawBy p).pending = s.pending := rfl
@[simp] theorem State.withdrawBy_rst (p : Requester → Bool) : (s.withdrawBy p).rst = s.rst := rfl
@[simp] theorem State.withdrawBy_straps (p : Requester → Bool) :
    (s.withdrawBy p).straps = s.straps := rfl
@[simp] theorem State.withdrawBy_timeBase (p : Requester → Bool) :
    (s.withdrawBy p).timeBase = s.timeBase := rfl
@[simp] theorem State.withdrawBy_dev (p : Requester → Bool) : (s.withdrawBy p).dev = s.dev := rfl
@[simp] theorem State.withdrawBy_outcome (p : Requester → Bool) :
    (s.withdrawBy p).outcome = s.outcome := rfl
@[simp] theorem State.withdrawBy_load (p : Requester → Bool) : (s.withdrawBy p).load = s.load := rfl
@[simp] theorem State.withdrawBy_loadErr (p : Requester → Bool) :
    (s.withdrawBy p).loadErr = s.loadErr := rfl
@[simp] theorem State.withdrawBy_header (p : Requester → Bool) :
    (s.withdrawBy p).header = s.header := rfl
@[simp] theorem State.withdrawBy_startInstant (p : Requester → Bool) :
    (s.withdrawBy p).startInstant = s.startInstant := rfl
@[simp] theorem State.withdrawBy_startReached (p : Requester → Bool) :
    (s.withdrawBy p).startReached = s.startReached := rfl
@[simp] theorem State.withdrawBy_sending (p : Requester → Bool) :
    (s.withdrawBy p).sending = s.sending := rfl
@[simp] theorem State.withdrawBy_stopLanes (p : Requester → Bool) :
    (s.withdrawBy p).stopLanes = s.stopLanes := rfl
@[simp] theorem State.withdrawBy_windows (p : Requester → Bool) :
    (s.withdrawBy p).windows = s.windows := rfl
@[simp] theorem State.withdrawBy_lanes (p : Requester → Bool) :
    (s.withdrawBy p).lanes = s.lanes := rfl
@[simp] theorem State.withdrawBy_entries (p : Requester → Bool) :
    (s.withdrawBy p).entries = s.entries := rfl
@[simp] theorem State.withdrawBy_pools (p : Requester → Bool) :
    (s.withdrawBy p).pools = s.pools := rfl
@[simp] theorem State.withdrawBy_groups (p : Requester → Bool) :
    (s.withdrawBy p).groups = s.groups := rfl
@[simp] theorem State.withdrawBy_outs (p : Requester → Bool) : (s.withdrawBy p).outs = s.outs := rfl
@[simp] theorem State.withdrawBy_entryState (p : Requester → Bool) :
    (s.withdrawBy p).entryState = s.entryState := rfl
@[simp] theorem State.withdrawBy_ins (p : Requester → Bool) : (s.withdrawBy p).ins = s.ins := rfl
@[simp] theorem State.withdrawBy_queue (p : Requester → Bool) :
    (s.withdrawBy p).queue = s.queue := rfl
@[simp] theorem State.withdrawBy_waiting (p : Requester → Bool) :
    (s.withdrawBy p).waiting = s.waiting := rfl
@[simp] theorem State.withdrawBy_su (p : Requester → Bool) : (s.withdrawBy p).su = s.su := rfl
@[simp] theorem State.withdrawBy_readData (p : Requester → Bool) :
    (s.withdrawBy p).readData = s.readData := rfl
@[simp] theorem State.withdrawBy_requests (p : Requester → Bool) :
    (s.withdrawBy p).requests = s.requests.filter fun r => !p r.who := rfl
@[simp] theorem State.withdrawBy_copyPtr (p : Requester → Bool) :
    (s.withdrawBy p).copyPtr = s.copyPtr := rfl
@[simp] theorem State.withdrawBy_flags (p : Requester → Bool) :
    (s.withdrawBy p).flags = s.flags := rfl
@[simp] theorem State.withdrawBy_journal (p : Requester → Bool) :
    (s.withdrawBy p).journal = s.journal := rfl
@[simp] theorem State.withdrawBy_mem (p : Requester → Bool) : (s.withdrawBy p).mem = s.mem := rfl

@[simp] theorem State.grant_pending (r : Request) : (s.grant r).pending = s.pending := rfl
@[simp] theorem State.grant_rst (r : Request) : (s.grant r).rst = s.rst := rfl
@[simp] theorem State.grant_straps (r : Request) : (s.grant r).straps = s.straps := rfl
@[simp] theorem State.grant_timeBase (r : Request) : (s.grant r).timeBase = s.timeBase := rfl
@[simp] theorem State.grant_dev (r : Request) : (s.grant r).dev = s.dev := rfl
@[simp] theorem State.grant_outcome (r : Request) : (s.grant r).outcome = s.outcome := rfl
@[simp] theorem State.grant_load (r : Request) : (s.grant r).load = s.load := rfl
@[simp] theorem State.grant_loadErr (r : Request) : (s.grant r).loadErr = s.loadErr := rfl
@[simp] theorem State.grant_header (r : Request) : (s.grant r).header = s.header := rfl
@[simp] theorem State.grant_startInstant (r : Request) :
    (s.grant r).startInstant = s.startInstant := rfl
@[simp] theorem State.grant_startReached (r : Request) :
    (s.grant r).startReached = s.startReached := rfl
@[simp] theorem State.grant_sending (r : Request) : (s.grant r).sending = s.sending := rfl
@[simp] theorem State.grant_stopLanes (r : Request) : (s.grant r).stopLanes = s.stopLanes := rfl
@[simp] theorem State.grant_windows (r : Request) : (s.grant r).windows = s.windows := rfl
@[simp] theorem State.grant_lanes (r : Request) : (s.grant r).lanes = s.lanes := rfl
@[simp] theorem State.grant_entries (r : Request) : (s.grant r).entries = s.entries := rfl
@[simp] theorem State.grant_pools (r : Request) : (s.grant r).pools = s.pools := rfl
@[simp] theorem State.grant_groups (r : Request) : (s.grant r).groups = s.groups := rfl
@[simp] theorem State.grant_outs (r : Request) : (s.grant r).outs = s.outs := rfl
@[simp] theorem State.grant_entryState (r : Request) : (s.grant r).entryState = s.entryState := rfl
@[simp] theorem State.grant_ins (r : Request) : (s.grant r).ins = s.ins := rfl
@[simp] theorem State.grant_queue (r : Request) : (s.grant r).queue = s.queue := rfl
@[simp] theorem State.grant_waiting (r : Request) : (s.grant r).waiting = s.waiting := rfl
@[simp] theorem State.grant_su (r : Request) : (s.grant r).su = s.su := rfl
@[simp] theorem State.grant_readData (r : Request) : (s.grant r).readData = s.readData := rfl
@[simp] theorem State.grant_requests (r : Request) :
    (s.grant r).requests = s.requests.erase r := rfl
@[simp] theorem State.grant_port (r : Request) :
    (s.grant r).port = some { req := r, withdrawn := false } := rfl
@[simp] theorem State.grant_flags (r : Request) : (s.grant r).flags = s.flags := rfl
@[simp] theorem State.grant_journal (r : Request) : (s.grant r).journal = s.journal := rfl
@[simp] theorem State.grant_mem (r : Request) : (s.grant r).mem = s.mem := rfl

@[simp] theorem State.complete_pending (r : Request) : (s.complete r).pending = s.pending := rfl
@[simp] theorem State.complete_rst (r : Request) : (s.complete r).rst = s.rst := rfl
@[simp] theorem State.complete_straps (r : Request) : (s.complete r).straps = s.straps := rfl
@[simp] theorem State.complete_timeBase (r : Request) : (s.complete r).timeBase = s.timeBase := rfl
@[simp] theorem State.complete_dev (r : Request) : (s.complete r).dev = s.dev := rfl
@[simp] theorem State.complete_outcome (r : Request) : (s.complete r).outcome = s.outcome := rfl
@[simp] theorem State.complete_load (r : Request) : (s.complete r).load = s.load := rfl
@[simp] theorem State.complete_loadErr (r : Request) : (s.complete r).loadErr = s.loadErr := rfl
@[simp] theorem State.complete_header (r : Request) : (s.complete r).header = s.header := rfl
@[simp] theorem State.complete_startInstant (r : Request) :
    (s.complete r).startInstant = s.startInstant := rfl
@[simp] theorem State.complete_startReached (r : Request) :
    (s.complete r).startReached = s.startReached := rfl
@[simp] theorem State.complete_sending (r : Request) : (s.complete r).sending = s.sending := rfl
@[simp] theorem State.complete_stopLanes (r : Request) :
    (s.complete r).stopLanes = s.stopLanes := rfl
@[simp] theorem State.complete_windows (r : Request) : (s.complete r).windows = s.windows := rfl
@[simp] theorem State.complete_lanes (r : Request) : (s.complete r).lanes = s.lanes := rfl
@[simp] theorem State.complete_entries (r : Request) : (s.complete r).entries = s.entries := rfl
@[simp] theorem State.complete_pools (r : Request) : (s.complete r).pools = s.pools := rfl
@[simp] theorem State.complete_groups (r : Request) : (s.complete r).groups = s.groups := rfl
@[simp] theorem State.complete_outs (r : Request) : (s.complete r).outs = s.outs := rfl
@[simp] theorem State.complete_entryState (r : Request) :
    (s.complete r).entryState = s.entryState := rfl
@[simp] theorem State.complete_ins (r : Request) : (s.complete r).ins = s.ins := rfl
@[simp] theorem State.complete_queue (r : Request) : (s.complete r).queue = s.queue := rfl
@[simp] theorem State.complete_waiting (r : Request) : (s.complete r).waiting = s.waiting := rfl
@[simp] theorem State.complete_su (r : Request) : (s.complete r).su = s.su := rfl
@[simp] theorem State.complete_readData (r : Request) : (s.complete r).readData = s.readData := rfl
@[simp] theorem State.complete_requests (r : Request) : (s.complete r).requests = s.requests := rfl
@[simp] theorem State.complete_port (r : Request) : (s.complete r).port = none := rfl
@[simp] theorem State.complete_copyPtr (r : Request) : (s.complete r).copyPtr = s.copyPtr := rfl
@[simp] theorem State.complete_flags (r : Request) : (s.complete r).flags = s.flags := rfl
@[simp] theorem State.complete_journal (r : Request) : (s.complete r).journal = s.journal := rfl
@[simp] theorem State.complete_mem (r : Request) : (s.complete r).mem = s.mem.perform r := rfl

@[simp] theorem State.answer_pending (v : Word) : (s.answer v).pending = s.pending := rfl
@[simp] theorem State.answer_rst (v : Word) : (s.answer v).rst = s.rst := rfl
@[simp] theorem State.answer_straps (v : Word) : (s.answer v).straps = s.straps := rfl
@[simp] theorem State.answer_timeBase (v : Word) : (s.answer v).timeBase = s.timeBase := rfl
@[simp] theorem State.answer_dev (v : Word) : (s.answer v).dev = s.dev := rfl
@[simp] theorem State.answer_outcome (v : Word) : (s.answer v).outcome = s.outcome := rfl
@[simp] theorem State.answer_load (v : Word) : (s.answer v).load = s.load := rfl
@[simp] theorem State.answer_loadErr (v : Word) : (s.answer v).loadErr = s.loadErr := rfl
@[simp] theorem State.answer_header (v : Word) : (s.answer v).header = s.header := rfl
@[simp] theorem State.answer_startInstant (v : Word) :
    (s.answer v).startInstant = s.startInstant := rfl
@[simp] theorem State.answer_startReached (v : Word) :
    (s.answer v).startReached = s.startReached := rfl
@[simp] theorem State.answer_sending (v : Word) : (s.answer v).sending = s.sending := rfl
@[simp] theorem State.answer_stopLanes (v : Word) : (s.answer v).stopLanes = s.stopLanes := rfl
@[simp] theorem State.answer_windows (v : Word) : (s.answer v).windows = s.windows := rfl
@[simp] theorem State.answer_lanes (v : Word) : (s.answer v).lanes = s.lanes := rfl
@[simp] theorem State.answer_entries (v : Word) : (s.answer v).entries = s.entries := rfl
@[simp] theorem State.answer_pools (v : Word) : (s.answer v).pools = s.pools := rfl
@[simp] theorem State.answer_groups (v : Word) : (s.answer v).groups = s.groups := rfl
@[simp] theorem State.answer_outs (v : Word) : (s.answer v).outs = s.outs := rfl
@[simp] theorem State.answer_entryState (v : Word) : (s.answer v).entryState = s.entryState := rfl
@[simp] theorem State.answer_ins (v : Word) : (s.answer v).ins = s.ins := rfl
@[simp] theorem State.answer_queue (v : Word) : (s.answer v).queue = s.queue := rfl
@[simp] theorem State.answer_waiting (v : Word) : (s.answer v).waiting = none := rfl
@[simp] theorem State.answer_su (v : Word) : (s.answer v).su = .free := rfl
@[simp] theorem State.answer_readData (v : Word) : (s.answer v).readData = v := rfl
@[simp] theorem State.answer_requests (v : Word) : (s.answer v).requests = s.requests := rfl
@[simp] theorem State.answer_port (v : Word) : (s.answer v).port = s.port := rfl
@[simp] theorem State.answer_copyPtr (v : Word) : (s.answer v).copyPtr = s.copyPtr := rfl
@[simp] theorem State.answer_flags (v : Word) : (s.answer v).flags = s.flags := rfl
@[simp] theorem State.answer_journal (v : Word) : (s.answer v).journal = s.journal := rfl
@[simp] theorem State.answer_mem (v : Word) : (s.answer v).mem = s.mem := rfl

@[simp] theorem State.issueRead_pending (p : ReadPart) (rest : List ReadPart) (acc : Word) :
    (s.issueRead p rest acc).pending = s.pending := rfl
@[simp] theorem State.issueRead_rst (p : ReadPart) (rest : List ReadPart) (acc : Word) :
    (s.issueRead p rest acc).rst = s.rst := rfl
@[simp] theorem State.issueRead_straps (p : ReadPart) (rest : List ReadPart) (acc : Word) :
    (s.issueRead p rest acc).straps = s.straps := rfl
@[simp] theorem State.issueRead_timeBase (p : ReadPart) (rest : List ReadPart) (acc : Word) :
    (s.issueRead p rest acc).timeBase = s.timeBase := rfl
@[simp] theorem State.issueRead_dev (p : ReadPart) (rest : List ReadPart) (acc : Word) :
    (s.issueRead p rest acc).dev = s.dev := rfl
@[simp] theorem State.issueRead_outcome (p : ReadPart) (rest : List ReadPart) (acc : Word) :
    (s.issueRead p rest acc).outcome = s.outcome := rfl
@[simp] theorem State.issueRead_load (p : ReadPart) (rest : List ReadPart) (acc : Word) :
    (s.issueRead p rest acc).load = s.load := rfl
@[simp] theorem State.issueRead_loadErr (p : ReadPart) (rest : List ReadPart) (acc : Word) :
    (s.issueRead p rest acc).loadErr = s.loadErr := rfl
@[simp] theorem State.issueRead_header (p : ReadPart) (rest : List ReadPart) (acc : Word) :
    (s.issueRead p rest acc).header = s.header := rfl
@[simp] theorem State.issueRead_startInstant (p : ReadPart) (rest : List ReadPart) (acc : Word) :
    (s.issueRead p rest acc).startInstant = s.startInstant := rfl
@[simp] theorem State.issueRead_startReached (p : ReadPart) (rest : List ReadPart) (acc : Word) :
    (s.issueRead p rest acc).startReached = s.startReached := rfl
@[simp] theorem State.issueRead_sending (p : ReadPart) (rest : List ReadPart) (acc : Word) :
    (s.issueRead p rest acc).sending = s.sending := rfl
@[simp] theorem State.issueRead_stopLanes (p : ReadPart) (rest : List ReadPart) (acc : Word) :
    (s.issueRead p rest acc).stopLanes = s.stopLanes := rfl
@[simp] theorem State.issueRead_windows (p : ReadPart) (rest : List ReadPart) (acc : Word) :
    (s.issueRead p rest acc).windows = s.windows := rfl
@[simp] theorem State.issueRead_lanes (p : ReadPart) (rest : List ReadPart) (acc : Word) :
    (s.issueRead p rest acc).lanes = s.lanes := rfl
@[simp] theorem State.issueRead_entries (p : ReadPart) (rest : List ReadPart) (acc : Word) :
    (s.issueRead p rest acc).entries = s.entries := rfl
@[simp] theorem State.issueRead_pools (p : ReadPart) (rest : List ReadPart) (acc : Word) :
    (s.issueRead p rest acc).pools = s.pools := rfl
@[simp] theorem State.issueRead_groups (p : ReadPart) (rest : List ReadPart) (acc : Word) :
    (s.issueRead p rest acc).groups = s.groups := rfl
@[simp] theorem State.issueRead_outs (p : ReadPart) (rest : List ReadPart) (acc : Word) :
    (s.issueRead p rest acc).outs = s.outs := rfl
@[simp] theorem State.issueRead_entryState (p : ReadPart) (rest : List ReadPart) (acc : Word) :
    (s.issueRead p rest acc).entryState = s.entryState := rfl
@[simp] theorem State.issueRead_ins (p : ReadPart) (rest : List ReadPart) (acc : Word) :
    (s.issueRead p rest acc).ins = s.ins := rfl
@[simp] theorem State.issueRead_queue (p : ReadPart) (rest : List ReadPart) (acc : Word) :
    (s.issueRead p rest acc).queue = s.queue := rfl
@[simp] theorem State.issueRead_waiting (p : ReadPart) (rest : List ReadPart) (acc : Word) :
    (s.issueRead p rest acc).waiting = s.waiting := rfl
@[simp] theorem State.issueRead_su (p : ReadPart) (rest : List ReadPart) (acc : Word) :
    (s.issueRead p rest acc).su = .reading p rest acc := rfl
@[simp] theorem State.issueRead_readData (p : ReadPart) (rest : List ReadPart) (acc : Word) :
    (s.issueRead p rest acc).readData = s.readData := rfl
@[simp] theorem State.issueRead_port (p : ReadPart) (rest : List ReadPart) (acc : Word) :
    (s.issueRead p rest acc).port = s.port := rfl
@[simp] theorem State.issueRead_copyPtr (p : ReadPart) (rest : List ReadPart) (acc : Word) :
    (s.issueRead p rest acc).copyPtr = s.copyPtr := rfl
@[simp] theorem State.issueRead_flags (p : ReadPart) (rest : List ReadPart) (acc : Word) :
    (s.issueRead p rest acc).flags = s.flags := rfl
@[simp] theorem State.issueRead_journal (p : ReadPart) (rest : List ReadPart) (acc : Word) :
    (s.issueRead p rest acc).journal = s.journal := rfl
@[simp] theorem State.issueRead_mem (p : ReadPart) (rest : List ReadPart) (acc : Word) :
    (s.issueRead p rest acc).mem = s.mem := rfl

@[simp] theorem State.takeHead_pending :
    (s.takeHead).pending = s.pending := by unfold State.takeHead; split <;> rfl
@[simp] theorem State.takeHead_rst :
    (s.takeHead).rst = s.rst := by unfold State.takeHead; split <;> rfl
@[simp] theorem State.takeHead_straps :
    (s.takeHead).straps = s.straps := by unfold State.takeHead; split <;> rfl
@[simp] theorem State.takeHead_timeBase :
    (s.takeHead).timeBase = s.timeBase := by unfold State.takeHead; split <;> rfl
@[simp] theorem State.takeHead_dev :
    (s.takeHead).dev = s.dev := by unfold State.takeHead; split <;> rfl
@[simp] theorem State.takeHead_outcome :
    (s.takeHead).outcome = s.outcome := by unfold State.takeHead; split <;> rfl
@[simp] theorem State.takeHead_load :
    (s.takeHead).load = s.load := by unfold State.takeHead; split <;> rfl
@[simp] theorem State.takeHead_loadErr :
    (s.takeHead).loadErr = s.loadErr := by unfold State.takeHead; split <;> rfl
@[simp] theorem State.takeHead_header :
    (s.takeHead).header = s.header := by unfold State.takeHead; split <;> rfl
@[simp] theorem State.takeHead_startInstant :
    (s.takeHead).startInstant = s.startInstant := by unfold State.takeHead; split <;> rfl
@[simp] theorem State.takeHead_startReached :
    (s.takeHead).startReached = s.startReached := by unfold State.takeHead; split <;> rfl
@[simp] theorem State.takeHead_sending :
    (s.takeHead).sending = s.sending := by unfold State.takeHead; split <;> rfl
@[simp] theorem State.takeHead_stopLanes :
    (s.takeHead).stopLanes = s.stopLanes := by unfold State.takeHead; split <;> rfl
@[simp] theorem State.takeHead_windows :
    (s.takeHead).windows = s.windows := by unfold State.takeHead; split <;> rfl
@[simp] theorem State.takeHead_lanes :
    (s.takeHead).lanes = s.lanes := by unfold State.takeHead; split <;> rfl
@[simp] theorem State.takeHead_entries :
    (s.takeHead).entries = s.entries := by unfold State.takeHead; split <;> rfl
@[simp] theorem State.takeHead_pools :
    (s.takeHead).pools = s.pools := by unfold State.takeHead; split <;> rfl
@[simp] theorem State.takeHead_groups :
    (s.takeHead).groups = s.groups := by unfold State.takeHead; split <;> rfl
@[simp] theorem State.takeHead_outs :
    (s.takeHead).outs = s.outs := by unfold State.takeHead; split <;> rfl
@[simp] theorem State.takeHead_entryState :
    (s.takeHead).entryState = s.entryState := by unfold State.takeHead; split <;> rfl
@[simp] theorem State.takeHead_ins :
    (s.takeHead).ins = s.ins := by unfold State.takeHead; split <;> rfl
@[simp] theorem State.takeHead_su :
    (s.takeHead).su = s.su := by unfold State.takeHead; split <;> rfl
@[simp] theorem State.takeHead_readData :
    (s.takeHead).readData = s.readData := by unfold State.takeHead; split <;> rfl
@[simp] theorem State.takeHead_requests :
    (s.takeHead).requests = s.requests := by unfold State.takeHead; split <;> rfl
@[simp] theorem State.takeHead_port :
    (s.takeHead).port = s.port := by unfold State.takeHead; split <;> rfl
@[simp] theorem State.takeHead_copyPtr :
    (s.takeHead).copyPtr = s.copyPtr := by unfold State.takeHead; split <;> rfl
@[simp] theorem State.takeHead_flags :
    (s.takeHead).flags = s.flags := by unfold State.takeHead; split <;> rfl
@[simp] theorem State.takeHead_journal :
    (s.takeHead).journal = s.journal := by unfold State.takeHead; split <;> rfl
@[simp] theorem State.takeHead_mem :
    (s.takeHead).mem = s.mem := by unfold State.takeHead; split <;> rfl

end Sys2Proof.Machine
end

