-- ==== Sys2Proof/Laws/Frame.lean ====
section
/-! SUPPORT. The frame of every shared operation: which parts of State it can change. -/

namespace Sys2Proof.Machine

set_option Elab.async false

variable {s t u : State} {l l' : List Item}

/-! ### Frames compose -/

theorem ChangesOnly.refl (l : List Item) (s : State) : ChangesOnly l s s := by
  intro f _; cases f <;> rfl

theorem ChangesOnly.mono (h : ChangesOnly l s t) (hl : ∀ f ∈ l, f ∈ l') : ChangesOnly l' s t :=
  fun f hf => h f fun hm => hf (hl f hm)

theorem State.sameAt_trans {f : Item} (h : s.sameAt t f) (h' : t.sameAt u f) : s.sameAt u f := by
  cases f <;> exact Eq.trans h' h

theorem ChangesOnly.trans (h : ChangesOnly l s t) (h' : ChangesOnly l t u) : ChangesOnly l s u :=
  fun f hf => State.sameAt_trans (h f hf) (h' f hf)

/-- Two frames in a row, within a common list. -/
theorem ChangesOnly.andThen {m : List Item} (h : ChangesOnly l s t) (h' : ChangesOnly l' t u)
    (hl : ∀ f ∈ l, f ∈ m := by decide) (hl' : ∀ f ∈ l', f ∈ m := by decide) :
    ChangesOnly m s u :=
  (h.mono hl).trans (h'.mono hl')

theorem ChangesOnly.foldl {α : Type} (step : State → α → State)
    (h : ∀ t a, ChangesOnly l t (step t a)) (as : List α) (s : State) :
    ChangesOnly l s (as.foldl step s) := by
  induction as generalizing s with
  | nil => exact .refl l s
  | cons a as ih => exact (h s a).trans (ih _)

/-! ### Updates of one part -/

theorem modPool_frame (s : State) (w : Fin 16) (f : Pool → Pool) :
    ChangesOnly [.pools] s (s.modPool w f) := by
  intro g hg; cases g <;> first | exact absurd (by decide) hg | rfl

theorem mapPools_frame (s : State) (f : Fin 16 → Pool → Pool) :
    ChangesOnly [.pools] s (s.mapPools f) := by
  intro g hg; cases g <;> first | exact absurd (by decide) hg | simp [State.sameAt]

theorem modOut_frame (s : State) (x : Fin 6) (f : OutLane → OutLane) :
    ChangesOnly [.outs] s (s.modOut x f) := by
  intro g hg; cases g <;> first | exact absurd (by decide) hg | rfl

theorem modIn_frame (s : State) (y : Fin 2) (f : InLane → InLane) :
    ChangesOnly [.ins] s (s.modIn y f) := by
  intro g hg; cases g <;> first | exact absurd (by decide) hg | rfl

theorem setEntrySt_frame (s : State) (i : Nat) (e : EntryState) :
    ChangesOnly [.entryState] s (s.setEntrySt i e) := by
  unfold State.setEntrySt
  split
  · intro g hg; cases g <;> first | exact absurd (by decide) hg | rfl
  · exact .refl _ _

theorem modJournal_frame (s : State) (f : Journal → Journal) :
    ChangesOnly [.journal] s (s.modJournal f) := by
  intro g hg; cases g <;> first | exact absurd (by decide) hg | rfl

theorem setFlag_frame (s : State) (k : Kind) : ChangesOnly [.flags] s (s.setFlag k) := by
  intro g hg; cases g <;> first | exact absurd (by decide) hg | rfl

theorem join_frame (s : State) (r : Request) : ChangesOnly [.requests] s (s.join r) := by
  intro g hg; cases g <;> first | exact absurd (by decide) hg | rfl

theorem unlist_frame (s : State) (q : Requester) : ChangesOnly [.requests] s (s.unlist q) := by
  intro g hg; cases g <;> first | exact absurd (by decide) hg | rfl

theorem withdrawBy_frame (s : State) (p : Requester → Bool) :
    ChangesOnly [.requests, .port] s (s.withdrawBy p) := by
  intro g hg; cases g <;> first | exact absurd (by decide) hg | rfl

theorem withdraw_frame (s : State) (q : Requester) :
    ChangesOnly [.requests, .port] s (s.withdraw q) := withdrawBy_frame s _

theorem complete_frame (s : State) (r : Request) : ChangesOnly [.port, .mem] s (s.complete r) := by
  intro g hg; cases g <;> first | exact absurd (by decide) hg | rfl

theorem answer_frame (s : State) (v : Word) :
    ChangesOnly [.waiting, .su, .readData] s (s.answer v) := by
  intro g hg; cases g <;> first | exact absurd (by decide) hg | rfl

theorem issueRead_frame (s : State) (p : ReadPart) (rest : List ReadPart) (acc : Word) :
    ChangesOnly [.su, .requests] s (s.issueRead p rest acc) := by
  intro g hg; cases g <;> first | exact absurd (by decide) hg | rfl

theorem takeHead_frame (s : State) : ChangesOnly [.queue, .waiting] s s.takeHead := by
  unfold State.takeHead
  split <;> (intro g hg; cases g <;> first | exact absurd (by decide) hg | rfl)

/-! ### The memory arbiter -/

theorem grant_frame (s : State) (r : Request) :
    ChangesOnly [.requests, .port, .copyPtr] s (s.grant r) := by
  intro g hg; cases g <;> first | exact absurd (by decide) hg | rfl

theorem arrivals_frame (s : State) : ChangesOnly [.requests, .port, .copyPtr] s s.arrivals := by
  unfold State.arrivals
  split
  · exact grant_frame _ _
  · exact .refl _ _

theorem regrant_frame (s : State) : ChangesOnly [.requests, .port, .copyPtr] s s.regrant := by
  unfold State.regrant
  split
  · exact grant_frame _ _
  · exact .refl _ _

/-! ### Flags and journal -/

theorem requestJournal_frame (s : State) : ChangesOnly [.requests] s s.requestJournal := by
  unfold State.requestJournal
  split
  · exact .refl _ _
  · exact join_frame _ _

theorem loseEntries_frame (s : State) (n : Nat) :
    ChangesOnly [.flags, .journal] s (s.loseEntries n) :=
  (modJournal_frame s _).andThen (setFlag_frame _ _)

theorem acceptEntry_frame (s : State) (e : JEntry) :
    ChangesOnly [.flags, .journal, .requests] s (s.acceptEntry e) := by
  unfold State.acceptEntry
  split
  · dsimp only
    split
    · exact (modJournal_frame s _).andThen (requestJournal_frame _)
    · exact (modJournal_frame s _).mono (by decide)
  · exact (loseEntries_frame s 1).mono (by decide)

theorem offer_frame (s : State) (e : JEntry) :
    ChangesOnly [.flags, .journal, .requests] s (s.offer e) := by
  unfold State.offer
  split
  · exact .refl _ _
  · split
    · exact .refl _ _
    · exact .refl _ _
    · exact .refl _ _
    · split
      · exact (modJournal_frame s _).andThen (acceptEntry_frame _ _)
      · exact .refl _ _
    · split
      · exact acceptEntry_frame _ _
      · exact .refl _ _
    · split
      · exact (loseEntries_frame s 1).mono (by decide)
      · exact .refl _ _

theorem offerStopped_frame (s : State) (e : JEntry) :
    ChangesOnly [.flags, .journal, .requests] s (s.offerStopped e) := by
  unfold State.offerStopped
  dsimp only
  split
  · exact (offer_frame s e).andThen (modJournal_frame _ _)
  · split
    · exact (offer_frame s e).andThen (modJournal_frame _ _)
    · exact (offer_frame s e).andThen (modJournal_frame _ _)
  all_goals exact offer_frame s e

theorem raise_frame (s : State) (k : Kind) (source : Option Nat) (d1 d2 : Word) :
    ChangesOnly [.flags, .journal, .requests] s (s.raise k source d1 d2) :=
  (setFlag_frame s k).andThen (offer_frame _ _)

theorem raiseStopped_frame (s : State) (d1 d2 : Word) :
    ChangesOnly [.flags, .journal, .requests] s (s.raiseStopped d1 d2) :=
  (setFlag_frame s .stopped).andThen (offerStopped_frame _ _)

theorem haltJournal_frame (s : State) : ChangesOnly [.flags, .journal] s s.haltJournal := by
  unfold State.haltJournal
  dsimp only
  split
  · exact (modJournal_frame s _).andThen (setFlag_frame _ _)
  · exact ((modJournal_frame s _).andThen (loseEntries_frame _ _) (m := [.flags, .journal])).andThen
      (setFlag_frame _ _)

theorem nextEntry_frame (s : State) : ChangesOnly [.journal, .requests] s s.nextEntry := by
  unfold State.nextEntry
  split
  · split
    · exact (modJournal_frame s _).mono (by decide)
    · exact .refl _ _
  · exact (requestJournal_frame s).mono (by decide)

theorem entryWritten_frame (s : State) :
    ChangesOnly [.flags, .journal, .requests] s s.entryWritten := by
  unfold State.entryWritten
  dsimp only
  have hm := modJournal_frame s fun j => { j with queue := j.queue.tail, wordCount := 0 }
  split
  · split
    · exact (hm.andThen (modJournal_frame _ _) (m := [.journal])).andThen (nextEntry_frame _)
    · exact hm.andThen (haltJournal_frame _)
  · exact (hm.andThen (modJournal_frame _ _) (m := [.journal])).andThen (nextEntry_frame _)

theorem journalWord_frame (s : State) :
    ChangesOnly [.flags, .journal, .requests] s s.journalWord := by
  unfold State.journalWord
  split
  · exact .refl _ _
  · split
    · exact (modJournal_frame s _).andThen (requestJournal_frame _)
    · exact entryWritten_frame s

theorem startJournal_frame (s : State) :
    ChangesOnly [.journal, .requests, .port] s s.startJournal :=
  (withdraw_frame s .journal).andThen (modJournal_frame _ _)

/-! ### Commits, copy-forward and closes -/

theorem noticeRecord_frame (s : State) (w : Fin 16) : ChangesOnly [.pools] s (s.noticeRecord w) :=
  modPool_frame s w _

theorem raiseResumed_frame (s before : State) (w : Fin 16) :
    ChangesOnly [.flags, .journal, .requests] s (s.raiseResumed before w) := by
  unfold State.raiseResumed
  refine ChangesOnly.foldl _ (fun t v => ?_) _ _
  split
  · exact raise_frame _ _ _ _ _
  · exact .refl _ _

theorem commit_frame (s : State) (w : Fin 16) (k : Fin 8) (seq : Half) (time : Word)
    (source : Option (Fin 8)) (copied : Nat) :
    ChangesOnly [.pools, .flags, .journal, .requests] s (s.commit w k seq time source copied) :=
  (((modPool_frame s w _).andThen (noticeRecord_frame _ w) (m := [.pools])).andThen
    (raiseResumed_frame _ s w) (m := [.pools, .flags, .journal, .requests])).andThen (offer_frame _ _)

theorem expire_frame (s : State) (w : Fin 16) :
    ChangesOnly [.pools, .flags, .journal, .requests] s (s.expire w) :=
  (modPool_frame s w _).andThen (raise_frame _ _ _ _ _)

theorem endJob_frame (s : State) (w : Fin 16) (j : CopyJob) :
    ChangesOnly [.pools, .flags, .journal, .requests] s (s.endJob w j) :=
  (modPool_frame s w _).andThen (commit_frame _ _ _ _ _ _ _)

theorem seek_frame (s : State) (w : Fin 16) (j : CopyJob) :
    ChangesOnly [.pools, .flags, .journal, .requests] s (s.seek w j) := by
  unfold State.seek
  split
  · exact (modPool_frame s w _).andThen (join_frame _ _)
  · exact endJob_frame s w j

theorem copyRead_frame (s : State) (w : Fin 16) (word : Word) :
    ChangesOnly [.pools, .requests] s (s.copyRead w word) := by
  unfold State.copyRead
  split
  · exact .refl _ _
  · exact (modPool_frame s w _).andThen (join_frame _ _)

theorem copyWrite_frame (s : State) (w : Fin 16) (be : Enables) :
    ChangesOnly [.pools, .flags, .journal, .requests] s (s.copyWrite w be) := by
  unfold State.copyWrite
  split
  · exact .refl _ _
  · exact (modPool_frame s w _).andThen (seek_frame _ _ _)

theorem refuseClose_frame (s : State) (w : Fin 16) (x : HostWrite) (o : CloseOutcome) :
    ChangesOnly [.pools, .flags, .journal, .requests] s (s.refuseClose w x o) :=
  (modPool_frame s w _).andThen (raise_frame _ _ _ _ _)

theorem acceptClose_frame (s : State) (w : Fin 16) (k0 k1 : Fin 8) (seq : Half) :
    ChangesOnly [.pools] s (s.acceptClose w k0 k1 seq) := modPool_frame s w _

theorem startJob_frame (s : State) (w : Fin 16) (k0 : Fin 8) (seq : Half) (time : Word) :
    ChangesOnly [.pools, .flags, .journal, .requests] s (s.startJob w k0 seq time) := by
  unfold State.startJob
  dsimp only
  split
  · exact ((modPool_frame s w _).andThen (modPool_frame _ w _) (m := [.pools])).andThen
      (seek_frame _ _ _)
  · exact (modPool_frame s w _).andThen (seek_frame _ _ _)

theorem decideClose_frame (s : State) (w : Fin 16) (x : HostWrite) :
    ChangesOnly [.pools, .flags, .journal, .requests] s (s.decideClose w x) := by
  unfold State.decideClose
  split
  · dsimp only
    split
    · exact (acceptClose_frame _ _ _ _ _).andThen (commit_frame _ _ _ _ _ _ _)
    · exact (acceptClose_frame _ _ _ _ _).andThen (startJob_frame _ _ _ _ _)
  · exact .refl _ _
  · exact refuseClose_frame _ _ _ _

/-! ### Outbound lanes -/

theorem holdFor_frame (s : State) (x : Fin 6) (c : Carried) : ChangesOnly [.pools] s (s.holdFor x c) := by
  unfold State.holdFor
  split
  · exact modPool_frame _ _ _
  · exact .refl _ _
  · exact .refl _ _

theorem tryFetch_frame (s : State) (x : Fin 6) : ChangesOnly [.outs, .requests] s (s.tryFetch x) := by
  unfold State.tryFetch
  dsimp only
  split
  · exact .refl _ _
  · split
    · exact (modOut_frame s x _).andThen (join_frame _ _)
    · exact .refl _ _

theorem markUrgent_frame (s : State) (x : Fin 6) : ChangesOnly [.requests] s (s.markUrgent x) := by
  unfold State.markUrgent
  split
  · split
    · intro g hg; cases g <;> first | exact absurd (by decide) hg | rfl
    · exact .refl _ _
  · exact .refl _ _

theorem laneWord_frame (s : State) (x : Fin 6) (v : Word) :
    ChangesOnly [.outs, .requests] s (s.laneWord x v) := by
  unfold State.laneWord
  split
  · exact (modOut_frame s x _).andThen (tryFetch_frame _ _)
  · exact tryFetch_frame _ _

theorem frameStart_frame (s : State) (x : Fin 6) (fly : Bool) :
    ChangesOnly [.outs, .pools, .requests] s (s.frameStart x fly) := by
  unfold State.frameStart
  dsimp only
  refine ChangesOnly.andThen (l := [.outs, .pools]) ?_ (tryFetch_frame _ _)
  refine ChangesOnly.andThen (l := [.outs, .pools]) ?_ (modOut_frame _ _ _)
  refine ChangesOnly.andThen (l := [.outs, .pools]) ?_ (modOut_frame _ _ _)
  exact (modOut_frame s x _).andThen (ChangesOnly.foldl _ (fun t c => holdFor_frame t x c) _ _)

theorem releaseLane_frame (s : State) (x : Fin 6) : ChangesOnly [.pools] s (s.releaseLane x) :=
  mapPools_frame s _

theorem emptySlot_frame (s : State) (x : Fin 6) : ChangesOnly [.outs] s (s.emptySlot x) := by
  unfold State.emptySlot
  split <;> exact modOut_frame _ _ _

theorem sendEntry_frame (s : State) (x : Fin 6) (e : Nat) (words : List Word) :
    ChangesOnly [.outs, .entryState] s (s.sendEntry x e words) :=
  (setEntrySt_frame s e _).andThen (modOut_frame _ _ _)

theorem underrun_frame (s : State) (x : Fin 6) (e : Nat) :
    ChangesOnly [.outs, .flags, .journal, .requests, .port] s (s.underrun x e) := by
  unfold State.underrun
  dsimp only
  have h1 : ChangesOnly [.requests, .port] s
      (if ((s.out x).asked.any fun p => p.entry == e) = true then s.withdraw (.outLane x) else s) := by
    split
    · exact withdraw_frame _ _
    · exact .refl _ _
  split
  · exact h1.andThen (modOut_frame _ _ _)
  · exact (h1.andThen (modOut_frame _ _ _) (m := [.outs, .requests, .port])).andThen
      (raise_frame _ _ _ _ _)

theorem dataSlot_frame (s : State) (x : Fin 6) (d : Nat) :
    ChangesOnly [.outs, .entryState, .flags, .journal, .requests, .port] s (s.dataSlot x d) := by
  unfold State.dataSlot
  dsimp only
  split
  · exact (modOut_frame s x _).mono (by decide)
  · split
    · exact (emptySlot_frame s x).mono (by decide)
    · split
      · exact (sendEntry_frame s x _ _).mono (by decide)
      · exact (underrun_frame s x _).mono (by decide)

theorem position_frame (s : State) (x : Fin 6) (j : Nat) :
    ChangesOnly [.outs, .entryState, .flags, .journal, .requests, .port] s (s.position x j) := by
  unfold State.position
  split
  · exact (modOut_frame s x _).mono (by decide)
  · split
    · exact dataSlot_frame s x _
    · exact (modOut_frame s x _).mono (by decide)

theorem slotBegin_frame (s : State) (x : Fin 6) :
    ChangesOnly [.outs, .entryState, .flags, .journal, .requests, .port] s (s.slotBegin x) :=
  (((modOut_frame s x _).andThen (position_frame _ x _)
    (m := [.outs, .entryState, .flags, .journal, .requests, .port])).andThen (markUrgent_frame _ x)
    (m := [.outs, .entryState, .flags, .journal, .requests, .port])).andThen (tryFetch_frame _ x)

theorem masterStart_frame (s : State) (x : Fin 6) :
    ChangesOnly [.outs, .pools, .requests] s (s.masterStart x) :=
  (modOut_frame s x _).andThen (frameStart_frame _ _ _)

theorem cutFrame_frame (s : State) (x : Fin 6) :
    ChangesOnly [.outs, .pools, .flags, .journal, .requests, .port] s (s.cutFrame x) :=
  (((withdraw_frame s _).andThen (releaseLane_frame _ x) (m := [.pools, .requests, .port])).andThen
    (modOut_frame _ x _) (m := [.outs, .pools, .requests, .port])).andThen (raise_frame _ _ _ _ _)

theorem pulseCheck_frame (s : State) (x : Fin 6) :
    ChangesOnly [.outs, .flags, .journal, .requests] s (s.pulseCheck x) := by
  unfold State.pulseCheck
  dsimp only
  split
  · exact (modOut_frame s x _).andThen (raise_frame _ _ _ _ _)
  · exact (modOut_frame s x _).mono (by decide)

theorem edgeStart_frame (s : State) (x : Fin 6) :
    ChangesOnly [.outs, .pools, .requests] s (s.edgeStart x) :=
  (modOut_frame s x _).andThen (frameStart_frame _ _ _)

theorem activeEdge_frame (s : State) (x : Fin 6) :
    ChangesOnly [.outs, .pools, .flags, .journal, .requests, .port] s (s.activeEdge x) := by
  unfold State.activeEdge
  split
  · exact .refl _ _
  · split
    · exact (modOut_frame s x _).andThen (edgeStart_frame _ x)
    · exact .refl _ _
  · exact ((pulseCheck_frame s x).andThen (modOut_frame _ x _)
      (m := [.outs, .flags, .journal, .requests])).andThen (edgeStart_frame _ x)
  · split
    · exact ((pulseCheck_frame s x).andThen (cutFrame_frame _ x)
        (m := [.outs, .pools, .flags, .journal, .requests, .port])).andThen (edgeStart_frame _ x)
    · exact .refl _ _

theorem flywheel_frame (s : State) (x : Fin 6) :
    ChangesOnly [.outs, .pools, .flags, .journal, .requests] s (s.flywheel x) := by
  unfold State.flywheel
  dsimp only
  split
  · exact ((modOut_frame s x _).andThen (frameStart_frame _ x true)
      (m := [.outs, .pools, .requests])).andThen (raise_frame _ _ _ _ _)
  · exact (modOut_frame s x _).andThen (frameStart_frame _ x true)

/-! ### Inbound lanes -/

theorem tryWrite_frame (s : State) (y : Fin 2) : ChangesOnly [.requests] s (s.tryWrite y) := by
  unfold State.tryWrite
  split
  · split
    · split
      · exact join_frame _ _
      · exact .refl _ _
    · exact .refl _ _
  · exact .refl _ _

theorem raiseCut_frame (s : State) (y : Fin 2) (n : Option Half) (r : CutReason) :
    ChangesOnly [.ins, .flags, .journal, .requests] s (s.raiseCut y n r) :=
  (modIn_frame s y _).andThen (raise_frame _ _ _ _ _)

theorem refuseFrame_frame (s : State) (y : Fin 2) (f : InFrame) :
    ChangesOnly [.ins, .flags, .journal, .requests] s (s.refuseFrame y f) :=
  (raise_frame s _ _ _ _).andThen (modIn_frame _ y _)

theorem allocateHead_frame (s : State) (y : Fin 2) (f : InFrame) :
    ChangesOnly [.ins, .pools, .flags, .journal, .requests] s (s.allocateHead y f) := by
  unfold State.allocateHead
  split
  · exact (refuseFrame_frame s y f).mono (by decide)
  · split
    · exact (refuseFrame_frame s y f).mono (by decide)
    · exact (modPool_frame s _ _).andThen (modIn_frame _ y _)

theorem discardHead_frame (s : State) (y : Fin 2) (f : InFrame) :
    ChangesOnly [.ins, .pools] s (s.discardHead y f) := by
  unfold State.discardHead
  split
  · exact (modPool_frame s _ _).andThen (modIn_frame _ y _)
  · exact (modIn_frame _ y _).mono (by decide)

theorem commitHead_frame (s : State) (y : Fin 2) (f : InFrame) (k : Fin 8) :
    ChangesOnly [.ins, .pools, .flags, .journal, .requests] s (s.commitHead y f k) := by
  unfold State.commitHead
  split
  · exact (modIn_frame s y _).mono (by decide)
  · split
    · exact ((modPool_frame s _ _).andThen (commit_frame _ _ _ _ _ _ _)
        (m := [.pools, .flags, .journal, .requests])).andThen (modIn_frame _ y _)
    · exact (discardHead_frame s y f).andThen (raiseCut_frame _ y _ _)

theorem settleOnce_frame (s t : State) (y : Fin 2) (h : s.settleOnce y = some t) :
    ChangesOnly [.ins, .pools, .flags, .journal, .requests] s t := by
  unfold State.settleOnce at h
  split at h
  · cases h
  · split at h
    · split at h
      · cases h
      · cases h; exact (discardHead_frame s y _).mono (by decide)
    · cases h; exact allocateHead_frame s y _
    · split at h
      · cases h; exact commitHead_frame s y _ _
      · cases h
    · cases h

theorem settleLoop_frame (n : Nat) (y : Fin 2) (s : State) :
    ChangesOnly [.ins, .pools, .flags, .journal, .requests] s (State.settleLoop n y s) := by
  induction n generalizing s with
  | zero => exact .refl _ _
  | succ n ih =>
    unfold State.settleLoop
    split
    · exact .refl _ _
    · next t h => exact (settleOnce_frame s t y h).trans (ih t)

theorem settle_frame (s : State) (y : Fin 2) :
    ChangesOnly [.ins, .pools, .flags, .journal, .requests] s (s.settle y) :=
  (settleLoop_frame _ y s).andThen (tryWrite_frame _ y)

theorem discardCurrent_frame (s : State) (y : Fin 2) :
    ChangesOnly [.ins, .pools, .flags, .journal, .requests] s (s.discardCurrent y) := by
  unfold State.discardCurrent
  split
  · exact .refl _ _
  · split
    · exact (modIn_frame s y _).mono (by decide)
    · exact ((unlist_frame s _).andThen (modIn_frame _ y _) (m := [.ins, .requests])).andThen
        (settle_frame _ y)

theorem inFrameStart_frame (s : State) (y : Fin 2) :
    ChangesOnly [.ins, .pools, .flags, .journal, .requests] s (s.inFrameStart y) := by
  unfold State.inFrameStart
  dsimp only
  split
  · exact (modIn_frame s y _).andThen (settle_frame _ y)
  · exact (modIn_frame s y _).mono (by decide)

theorem truncate_frame (s : State) (y : Fin 2) :
    ChangesOnly [.ins, .pools, .flags, .journal, .requests] s (s.truncate y) :=
  (raiseCut_frame s y _ _).andThen (discardCurrent_frame _ y)

theorem inActiveEdge_frame (s : State) (y : Fin 2) :
    ChangesOnly [.ins, .pools, .flags, .journal, .requests] s (s.inActiveEdge y) := by
  unfold State.inActiveEdge
  split
  · exact .refl _ _
  · split
    · exact inFrameStart_frame s y
    · exact .refl _ _
  · exact (truncate_frame s y).trans (inFrameStart_frame _ y)
  · exact inFrameStart_frame s y

theorem checkNumber_frame (s : State) (y : Fin 2) (h : Half) :
    ChangesOnly [.ins, .flags, .journal, .requests] s (s.checkNumber y h) := by
  unfold State.checkNumber
  dsimp only
  split
  · exact ((modIn_frame s y _).andThen (modIn_frame _ y _) (m := [.ins])).andThen
      (raise_frame _ _ _ _ _)
  · exact (modIn_frame s y _).mono (by decide)

theorem inH0_frame (s : State) (y : Fin 2) (h : Half) :
    ChangesOnly [.ins, .flags, .journal, .requests] s (s.inH0 y h) := by
  unfold State.inH0
  split
  · exact (modIn_frame s y _).andThen (checkNumber_frame _ y h)
  · split
    · exact (modIn_frame s y _).andThen (checkNumber_frame _ y h)
    · exact .refl _ _

theorem toDiscarding_frame (s : State) (y : Fin 2) : ChangesOnly [.ins] s (s.toDiscarding y) :=
  modIn_frame s y _

theorem inH1_frame (s : State) (y : Fin 2) (h : Half) :
    ChangesOnly [.ins, .pools, .flags, .journal, .requests] s (s.inH1 y h) := by
  unfold State.inH1
  split
  · dsimp only
    split
    · exact (modIn_frame s y _).mono (by decide)
    · refine ChangesOnly.andThen (l := [.ins, .pools, .flags, .journal, .requests]) ?_
        (toDiscarding_frame _ y)
      refine ChangesOnly.andThen (l := [.ins, .flags, .journal, .requests]) ?_
        (discardCurrent_frame _ y)
      exact (modIn_frame s y _).andThen (raiseCut_frame _ y _ _)
  · exact .refl _ _

theorem rxHalf_frame (s : State) (y : Fin 2) (p : Nat × Bool) (h : Half) :
    ChangesOnly [.ins, .pools, .flags, .journal, .requests] s (s.rxHalf y p h) := by
  unfold State.rxHalf
  split
  · exact ((raiseCut_frame s y _ _).andThen (discardCurrent_frame _ y)
      (m := [.ins, .pools, .flags, .journal, .requests])).andThen (toDiscarding_frame _ y)
  · exact (modIn_frame s y _).andThen (tryWrite_frame _ y)

theorem inData_frame (s : State) (y : Fin 2) (h : Half) :
    ChangesOnly [.ins, .pools, .flags, .journal, .requests] s (s.inData y h) := by
  unfold State.inData
  split
  · exact .refl _ _
  · dsimp only
    split
    · exact (modIn_frame s y _).mono (by decide)
    · exact (modIn_frame s y _).andThen (rxHalf_frame _ y _ h)

theorem inCrc_frame (s : State) (y : Fin 2) (h : Half) :
    ChangesOnly [.ins, .pools, .flags, .journal, .requests] s (s.inCrc y h) := by
  unfold State.inCrc
  split
  · dsimp only
    split
    · exact ((modIn_frame s y _).andThen (modIn_frame _ y _) (m := [.ins])).andThen (settle_frame _ y)
    · exact (((modIn_frame s y _).andThen (modIn_frame _ y _) (m := [.ins])).andThen
        (raise_frame _ _ _ _ _) (m := [.ins, .flags, .journal, .requests])).andThen
        (discardCurrent_frame _ y)
  · exact .refl _ _

theorem halfWritten_frame (s : State) (y : Fin 2) :
    ChangesOnly [.ins, .pools, .flags, .journal, .requests] s (s.halfWritten y) := by
  unfold State.halfWritten
  refine ChangesOnly.andThen (l := [.ins, .pools]) ?_ (settle_frame _ y)
  split
  · split
    · exact .refl _ _
    · exact (modPool_frame s _ _).andThen (modIn_frame _ y _)
    · exact .refl _ _
  · exact .refl _ _

/-! ### Run control -/

theorem setupEntry_frame (s : State) :
    ChangesOnly [.dev, .startReached, .pools, .flags, .journal, .requests] s s.setupEntry := by
  unfold State.setupEntry
  refine ChangesOnly.andThen (l := [.dev, .startReached, .pools]) ?_ (raiseStopped_frame _ _ _)
  intro g hg; cases g <;> first | exact absurd (by decide) hg | simp [State.sameAt]

theorem stopBlocks_frame (s : State) :
    ChangesOnly [.dev, .sending, .stopLanes, .pools, .outs, .ins, .requests, .port] s s.stopBlocks := by
  intro g hg
  cases g <;> first | exact absurd (by decide) hg | simp [State.sameAt, State.stopBlocks]

theorem stopRun_frame (s : State) :
    ChangesOnly [.dev, .sending, .stopLanes, .startReached, .pools, .outs, .ins, .requests, .port,
      .flags, .journal] s s.stopRun := by
  unfold State.stopRun
  split
  · exact (stopBlocks_frame s).andThen (setupEntry_frame _)
  · exact (stopBlocks_frame s).mono (by decide)

theorem stopLoad_frame (s : State) :
    ChangesOnly [.load, .dev, .flags, .journal, .requests, .port] s s.stopLoad := by
  unfold State.stopLoad
  refine ChangesOnly.andThen (l := [.load, .dev, .requests, .port]) ?_ (raiseStopped_frame _ _ _)
  intro g hg; cases g <;> first | exact absurd (by decide) hg | rfl

theorem stop_frame (s : State) :
    ChangesOnly [.outcome, .load, .dev, .sending, .stopLanes, .startReached, .pools, .outs, .ins,
      .requests, .port, .flags, .journal] s s.stop := by
  have h : ChangesOnly [.outcome] s { s with outcome := .done } := by
    intro g hg; cases g <;> first | exact absurd (by decide) hg | rfl
  unfold State.stop
  dsimp only
  split
  · exact h.andThen (stopRun_frame _)
  · exact h.andThen (stopLoad_frame _)
  · exact h.mono (by decide)
  · exact h.mono (by decide)

theorem start_frame (s : State) : ChangesOnly [.outcome, .dev, .load, .requests] s s.start := by
  unfold State.start
  split
  · intro g hg; cases g <;> first | exact absurd (by decide) hg | rfl
  · intro g hg; cases g <;> first | exact absurd (by decide) hg | rfl

theorem loadFailed_frame (s : State) (e : LoadError) :
    ChangesOnly [.dev, .load, .loadErr, .flags, .journal, .requests] s (s.loadFailed e) := by
  unfold State.loadFailed
  refine ChangesOnly.andThen (l := [.dev, .load, .loadErr]) ?_ (raise_frame _ _ _ _ _)
  intro g hg; cases g <;> first | exact absurd (by decide) hg | rfl

theorem adopt_frame (s : State) (im : Image) :
    ChangesOnly [.dev, .load, .loadErr, .header, .windows, .lanes, .entries, .startInstant,
      .startReached, .sending] s (s.adopt im) := by
  intro g hg; cases g <;> first | exact absurd (by decide) hg | rfl

theorem startBlocks_frame (s : State) :
    ChangesOnly [.pools, .groups, .outs, .entryState, .ins, .journal, .requests, .port, .copyPtr]
      s s.startBlocks := by
  unfold State.startBlocks
  refine ChangesOnly.andThen (l := [.pools, .groups, .outs, .entryState, .ins, .copyPtr]) ?_
    (startJournal_frame _)
  intro g hg; cases g <;> first | exact absurd (by decide) hg | simp only [State.sameAt]

theorem startAtEntry_frame (s : State) :
    ChangesOnly [.startReached, .outs, .pools, .requests] s s.startAtEntry := by
  unfold State.startAtEntry
  split
  · refine ChangesOnly.andThen (l := [.startReached]) ?_
      (ChangesOnly.foldl (l := [.outs, .pools, .requests]) _ (fun t x => ?_) _ _)
    · intro g hg; cases g <;> first | exact absurd (by decide) hg | rfl
    · split
      · exact masterStart_frame _ _
      · exact .refl _ _
  · exact .refl _ _

theorem runEntry_frame (s : State) (im : Image) :
    ChangesOnly [.dev, .load, .loadErr, .header, .windows, .lanes, .entries, .startInstant,
      .startReached, .sending, .pools, .groups, .outs, .entryState, .ins, .flags, .journal,
      .requests, .port, .copyPtr] s (s.runEntry im) := by
  unfold State.runEntry
  dsimp only
  refine ChangesOnly.andThen (l := [.dev, .load, .loadErr, .header, .windows, .lanes, .entries,
    .startInstant, .startReached, .sending, .pools, .groups, .outs, .entryState, .ins, .flags, .journal,
    .requests, .port, .copyPtr]) ?_ (startAtEntry_frame _)
  refine ChangesOnly.andThen (l := [.dev, .load, .loadErr, .header, .windows, .lanes, .entries,
    .startInstant, .startReached, .sending, .pools, .groups, .outs, .entryState, .ins, .journal,
    .requests, .port, .copyPtr]) ?_ (raise_frame _ _ _ _ _)
  exact (adopt_frame s im).andThen (startBlocks_frame _)

theorem loadWord_frame (s : State) (v : Word) :
    ChangesOnly [.dev, .load, .loadErr, .header, .windows, .lanes, .entries, .startInstant,
      .startReached, .sending, .pools, .groups, .outs, .entryState, .ins, .flags, .journal,
      .requests, .port, .copyPtr] s (s.loadWord v) := by
  have next : ∀ (j : LoadJob) (n : Nat),
      ChangesOnly [.load, .requests] s ({ s with load := some j }.requestImage n) := by
    intro j n g hg; cases g <;> first | exact absurd (by decide) hg | rfl
  unfold State.loadWord
  split
  · exact .refl _ _
  · dsimp only
    split
    · split
      · exact (next _ _).mono (by decide)
      · split
        · exact (loadFailed_frame s _).mono (by decide)
        · exact (next _ _).mono (by decide)
    · split
      · exact (next _ _).mono (by decide)
      · split
        · exact (loadFailed_frame s _).mono (by decide)
        · exact runEntry_frame s _

theorem laneIdle_frame (s : State) (x : Fin 6) :
    ChangesOnly [.sending, .dev, .startReached, .pools, .flags, .journal, .requests] s
      (s.laneIdle x) := by
  have h : ChangesOnly [.sending] s { s with sending := s.sending.set x false } := by
    intro g hg; cases g <;> first | exact absurd (by decide) hg | rfl
  unfold State.laneIdle
  dsimp only
  split
  · exact h.andThen (setupEntry_frame _)
  · exact h.mono (by decide)

theorem frameEnd_frame (s : State) (x : Fin 6) :
    ChangesOnly [.outs, .sending, .dev, .startReached, .pools, .flags, .journal, .requests] s
      (s.frameEnd x) := by
  have h : ∀ f, ChangesOnly [.outs, .pools] s ((s.releaseLane x).modOut x f) := fun f =>
    (releaseLane_frame s x).andThen (modOut_frame _ x f)
  unfold State.frameEnd
  dsimp only
  split
  · exact (h _).andThen (laneIdle_frame _ x)
  · exact (h _).mono (by decide)

/-! ### The host port -/

theorem handWrite_frame (s : State) (x : HostWrite) (a : MemAdr) (m : Option PayloadRef) :
    ChangesOnly [.su, .requests, .port, .copyPtr] s (s.handWrite x a m) := by
  unfold State.handWrite
  refine ChangesOnly.andThen (l := [.su, .requests]) ?_ (arrivals_frame _)
  intro g hg; cases g <;> first | exact absurd (by decide) hg | rfl

theorem viewMove_frame (s : State) (w : Fin 16) :
    ChangesOnly [.waiting, .su, .readData, .pools] s (s.viewMove w) :=
  (modPool_frame s w _).andThen (answer_frame _ _)

theorem markPayload_frame (s : State) (m : Option PayloadRef) (be : Enables) :
    ChangesOnly [.pools] s (s.markPayload m be) := by
  unfold State.markPayload
  split
  · exact modPool_frame _ _ _
  · exact .refl _ _

theorem hostWord_frame (s : State) (r : Request) :
    ChangesOnly [.su, .waiting, .readData, .pools, .requests] s (s.hostWord r) := by
  unfold State.hostWord
  split
  · exact .refl _ _
  · next m _ =>
    refine ChangesOnly.andThen (l := [.pools]) (l' := [.su]) (markPayload_frame s m r.be) ?_
    intro g hg; cases g <;> first | exact absurd (by decide) hg | rfl
  · dsimp only
    split
    · exact (answer_frame s _).mono (by decide)
    · exact (issueRead_frame s _ _ _).mono (by decide)

end Sys2Proof.Machine
end

