-- ==== Sys2Proof/Laws/Memory.lean ====
section
/-! SUPPORT. Cue memory and written maps: reads after writes, and the canonical forms kept. -/

namespace Sys2Proof.Machine

set_option Elab.async false

/-! ### Bytes of cue memory -/

@[simp] theorem Memory.readByte_nil (a : Nat) : Memory.readByte [] a = Config.unlisted := rfl

theorem Memory.readByte_below (m : Memory) (a : Nat) (h : ∀ c ∈ m, a < c.1) :
    m.readByte a = Config.unlisted := by
  induction m with
  | nil => rfl
  | cons c m ih =>
    obtain ⟨k, b⟩ := c
    have hk : a < k := h (k, b) (by simp)
    have := ih fun d hd => h d (by simp [hd])
    simp [Memory.readByte, this, Nat.ne_of_lt hk]

/-- A byte written reads back, and every other byte reads as before (R73). -/
theorem Memory.readByte_writeByte (m : Memory) (a : Nat) (b : Byte) (n : Nat)
    (hm : m.Pairwise fun c d => c.1 < d.1) :
    (m.writeByte a b).readByte n = if n = a then b else m.readByte n := by
  induction m with
  | nil =>
    by_cases hb : b = Config.unlisted
    · simp [Memory.writeByte, hb]
    · simp [Memory.writeByte, hb, Memory.readByte]
  | cons c m ih =>
    obtain ⟨k, d⟩ := c
    obtain ⟨hk, hm⟩ := List.pairwise_cons.1 hm
    have low : ∀ j, j ≤ k → Memory.readByte m j = Config.unlisted := fun j hj =>
      Memory.readByte_below m j fun c hc => Nat.lt_of_le_of_lt hj (hk c hc)
    have ih := ih hm
    unfold Memory.writeByte
    by_cases hak : a < k
    · by_cases hb : b = Config.unlisted
      · simp only [if_pos hak, if_pos hb]
        by_cases hn : n = a
        · subst hn
          simp [Memory.readByte, Nat.ne_of_lt hak, low n (Nat.le_of_lt hak), hb]
        · simp [hn]
      · simp [if_pos hak, if_neg hb, Memory.readByte]
    · by_cases hae : a = k
      · subst hae
        by_cases hb : b = Config.unlisted
        · by_cases hn : n = a
          · subst hn; simp [hb, low n (Nat.le_refl n)]
          · simp [hb, Memory.readByte, hn]
        · by_cases hn : n = a
          · simp [hb, Memory.readByte, hn]
          · simp [hb, Memory.readByte, hn]
      · by_cases hn : n = k
        · subst hn
          simp [if_neg hak, if_neg hae, Memory.readByte, Ne.symm hae]
        · simp [if_neg hak, if_neg hae, Memory.readByte, hn, ih]

/-- Storing a byte adds no address but its own. -/
theorem Memory.mem_writeByte (m : Memory) (a : Nat) (b : Byte) (c : Host.Cell)
    (h : c ∈ m.writeByte a b) : c ∈ m ∨ (c = (a, b) ∧ b ≠ Config.unlisted) := by
  induction m with
  | nil =>
    unfold Memory.writeByte at h
    split at h
    · cases h
    · exact .inr ⟨by simpa using h, by assumption⟩
  | cons d m ih =>
    unfold Memory.writeByte at h
    split at h
    · split at h
      · exact .inl h
      · rcases List.mem_cons.1 h with h | h
        · exact .inr ⟨h, by assumption⟩
        · exact .inl h
    · split at h
      · split at h
        · exact .inl (List.mem_cons_of_mem _ h)
        · rcases List.mem_cons.1 h with h | h
          · exact .inr ⟨h, by assumption⟩
          · exact .inl (List.mem_cons_of_mem _ h)
      · rcases List.mem_cons.1 h with h | h
        · exact .inl (h ▸ List.mem_cons_self)
        · exact (ih h).imp (List.mem_cons_of_mem _) id

theorem Memory.pairwise_writeByte (m : Memory) (a : Nat) (b : Byte)
    (hm : m.Pairwise fun c d => c.1 < d.1) :
    (m.writeByte a b).Pairwise fun c d => c.1 < d.1 := by
  induction m with
  | nil => unfold Memory.writeByte; split <;> simp
  | cons c m ih =>
    obtain ⟨k, d⟩ := c
    obtain ⟨hk, hm'⟩ := List.pairwise_cons.1 hm
    unfold Memory.writeByte
    split
    · next hak =>
      split
      · exact hm
      · refine List.pairwise_cons.2 ⟨fun e he => ?_, hm⟩
        rcases List.mem_cons.1 he with rfl | he
        · exact hak
        · exact Nat.lt_trans hak (hk e he)
    · next hak =>
      split
      · next hae =>
        split
        · exact hm'
        · exact List.pairwise_cons.2 ⟨fun e he => hae ▸ hk e he, hm'⟩
      · next hae =>
        refine List.pairwise_cons.2 ⟨fun e he => ?_, ih hm'⟩
        rcases Memory.mem_writeByte m a b e he with he | ⟨rfl, _⟩
        · exact hk e he
        · exact Nat.lt_of_le_of_ne (Nat.le_of_not_lt hak) (Ne.symm hae)

/-- Storing a byte inside cue memory keeps the canonical form. -/
theorem Memory.wf_writeByte (m : Memory) (a : Nat) (b : Byte) (hm : m.wf) (ha : a < Config.memSpace) :
    (m.writeByte a b).wf := by
  refine ⟨Memory.pairwise_writeByte m a b hm.1, fun c hc => ?_⟩
  rcases Memory.mem_writeByte m a b c hc with hc | ⟨rfl, hb⟩
  · exact hm.2 c hc
  · exact ⟨ha, hb⟩

/-! ### Words of cue memory -/

theorem MemAdr.byte_lt (a : MemAdr) (j : Nat) (hj : j < 4) : MemAdr.byte a + j < Config.memSpace := by
  have h := a.isLt
  unfold MemAdr.byte Config.memSpace
  omega

theorem Memory.wf_putByte (m : Memory) (a : MemAdr) (be : Enables) (data : Word) (j : Nat) (hj : j < 4)
    (hm : m.wf) : (m.putByte a be data j).wf := by
  unfold Memory.putByte
  split
  · exact Memory.wf_writeByte m _ _ hm (MemAdr.byte_lt a j hj)
  · exact hm

theorem Memory.wf_writeWord (m : Memory) (a : MemAdr) (be : Enables) (data : Word) (hm : m.wf) :
    (m.writeWord a be data).wf := by
  unfold Memory.writeWord
  have h := fun (m : Memory) j hj hm => Memory.wf_putByte m a be data j hj hm
  exact h _ 3 (by decide) (h _ 2 (by decide) (h _ 1 (by decide) (h _ 0 (by decide) hm)))

/-- Every access keeps the canonical form. -/
theorem Memory.wf_perform (m : Memory) (r : Request) (hm : m.wf) : (m.perform r).wf := by
  unfold Memory.perform
  split
  · exact Memory.wf_writeWord m _ _ _ hm
  · exact hm

theorem Memory.readByte_putByte (m : Memory) (a : MemAdr) (be : Enables) (data : Word) (j n : Nat)
    (hm : m.wf) : (m.putByte a be data j).readByte n =
      if n = MemAdr.byte a + j ∧ be.getLsbD j = true then byteOf data j else m.readByte n := by
  unfold Memory.putByte
  split
  · next h => simp [Memory.readByte_writeByte m _ _ n hm.1, h]
  · next h => simp [h]

/-- A word write stores exactly its enabled bytes (R73). -/
theorem Memory.readByte_writeWord (m : Memory) (a : MemAdr) (be : Enables) (data : Word) (n : Nat)
    (hm : m.wf) : (m.writeWord a be data).readByte n =
      if MemAdr.byte a ≤ n ∧ n < MemAdr.byte a + 4 ∧ be.getLsbD (n - MemAdr.byte a) = true then
        byteOf data (n - MemAdr.byte a)
      else m.readByte n := by
  have w0 := Memory.wf_putByte m a be data 0 (by decide) hm
  have w1 := Memory.wf_putByte _ a be data 1 (by decide) w0
  have w2 := Memory.wf_putByte _ a be data 2 (by decide) w1
  unfold Memory.writeWord
  rw [Memory.readByte_putByte _ a be data 3 n w2, Memory.readByte_putByte _ a be data 2 n w1,
    Memory.readByte_putByte _ a be data 1 n w0, Memory.readByte_putByte _ a be data 0 n hm]
  by_cases hr : MemAdr.byte a ≤ n ∧ n < MemAdr.byte a + 4
  · obtain ⟨j, hj, rfl⟩ : ∃ j, j < 4 ∧ n = MemAdr.byte a + j := ⟨n - MemAdr.byte a, by omega, by omega⟩
    rcases (by omega : j = 0 ∨ j = 1 ∨ j = 2 ∨ j = 3) with rfl | rfl | rfl | rfl <;> simp
  · have h : ∀ j, j < 4 → ¬ n = MemAdr.byte a + j := by omega
    have hr' : ¬ (MemAdr.byte a ≤ n ∧ n < MemAdr.byte a + 4 ∧
      be.getLsbD (n - MemAdr.byte a) = true) := fun g => hr ⟨g.1, g.2.1⟩
    rw [if_neg hr', if_neg (fun g => h 3 (by decide) g.1), if_neg (fun g => h 2 (by decide) g.1),
      if_neg (fun g => h 1 (by decide) g.1), if_neg (fun g => h 0 (by decide) g.1)]

/-- The bytes of four bytes joined. -/
theorem byteOf_append (a b c d : Byte) (j : Nat) (hj : j < 4) :
    byteOf (a ++ b ++ c ++ d) j =
      if j = 0 then d else if j = 1 then c else if j = 2 then b else a := by
  unfold byteOf
  refine BitVec.eq_of_getLsbD_eq fun i hi => ?_
  have h2 : ¬ 16 + i < 8 := by omega
  have h3 : ¬ 24 + i < 8 := by omega
  have h21 : ¬ 16 + i - 8 < 8 := by omega
  have h31 : ¬ 24 + i - 8 < 8 := by omega
  have h32 : ¬ 24 + i - 8 - 8 < 8 := by omega
  have e2 : 16 + i - 8 - 8 = i := by omega
  have e3 : 24 + i - 8 - 8 - 8 = i := by omega
  rcases (by omega : j = 0 ∨ j = 1 ∨ j = 2 ∨ j = 3) with rfl | rfl | rfl | rfl <;>
    simp only [BitVec.getLsbD_extractLsb', BitVec.getLsbD_append] <;>
    simp [hi, h2, h3, h21, h31, h32, e2, e3]

/-- Byte `j` of a merged word (R61). -/
theorem byteOf_mergeBytes (old new : Word) (keep : Enables) (j : Nat) (hj : j < 4) :
    byteOf (mergeBytes old new keep) j = if keep.getLsbD j then byteOf new j else byteOf old j := by
  unfold mergeBytes
  rw [byteOf_append _ _ _ _ j hj]
  rcases (by omega : j = 0 ∨ j = 1 ∨ j = 2 ∨ j = 3) with rfl | rfl | rfl | rfl <;> simp

/-- Byte `j` of a word of cue memory. -/
theorem byteOf_readWord (m : Memory) (a : MemAdr) (j : Nat) (hj : j < 4) :
    byteOf (m.readWord a) j = m.readByte (MemAdr.byte a + j) := by
  unfold Memory.readWord
  rw [byteOf_append _ _ _ _ j hj]
  rcases (by omega : j = 0 ∨ j = 1 ∨ j = 2 ∨ j = 3) with rfl | rfl | rfl | rfl <;> simp

/-! ### Written maps -/

theorem WMap.get_below (m : WMap) (i : Nat) (h : ∀ p ∈ m, i < p.1) : m.get i = 0 := by
  induction m with
  | nil => rfl
  | cons p m ih =>
    obtain ⟨k, e⟩ := p
    have hk : i < k := h (k, e) (by simp)
    simp [WMap.get, Nat.ne_of_lt hk, ih fun q hq => h q (by simp [hq])]

/-- Adding bytes to a payload word changes that word's set only (R29). -/
theorem WMap.get_add (m : WMap) (i : Nat) (e : Enables) (n : Nat)
    (hm : m.Pairwise fun c d => c.1 < d.1) :
    (m.add i e).get n = if n = i then m.get n ||| e else m.get n := by
  induction m with
  | nil =>
    unfold WMap.add
    split
    · next he => simp [he, WMap.get]
    · by_cases hn : n = i <;> simp [WMap.get, hn]
  | cons p m ih =>
    obtain ⟨k, d⟩ := p
    obtain ⟨hk, hm⟩ := List.pairwise_cons.1 hm
    have low : ∀ j, j ≤ k → WMap.get m j = 0 := fun j hj =>
      WMap.get_below m j fun c hc => Nat.lt_of_le_of_lt hj (hk c hc)
    have ih := ih hm
    unfold WMap.add
    split
    · next hik =>
      split
      · next he => simp [he]
      · by_cases hn : n = i
        · subst hn
          simp [WMap.get, Nat.ne_of_lt hik, low n (Nat.le_of_lt hik)]
        · simp [WMap.get, hn]
    · split
      · next hie =>
        subst hie
        by_cases hn : n = i <;> simp [WMap.get, hn]
      · next hie =>
        by_cases hn : n = k
        · subst hn
          simp [WMap.get, Ne.symm hie]
        · simp [WMap.get, hn, ih]

end Sys2Proof.Machine
end

