-- ==== Sys2Proof/Laws/Access.lean ====
section
/-! SUPPORT. Reading one pool, lane or buffer after an update, and the searches over buffers and
windows. -/

namespace Sys2Proof.Machine

set_option Elab.async false

variable (s : State)

/-! ### One pool, one lane -/

@[simp] theorem State.pool_modPool (w v : Fin 16) (f : Pool → Pool) :
    (s.modPool w f).pool v = if v = w then f (s.pool w) else s.pool v := by
  by_cases h : v = w
  · subst h; simp [State.pool]
  · have : w.val ≠ v.val := fun e => h (Fin.ext e.symm)
    simp [State.pool, h, this]

@[simp] theorem State.pool_mapPools (w : Fin 16) (f : Fin 16 → Pool → Pool) :
    (s.mapPools f).pool w = f w (s.pool w) := by
  simp [State.pool]

@[simp] theorem State.out_modOut (x z : Fin 6) (f : OutLane → OutLane) :
    (s.modOut x f).out z = if z = x then f (s.out x) else s.out z := by
  by_cases h : z = x
  · subst h; simp [State.out]
  · have : x.val ≠ z.val := fun e => h (Fin.ext e.symm)
    simp [State.out, h, this]

@[simp] theorem State.inl_modIn (y z : Fin 2) (f : InLane → InLane) :
    (s.modIn y f).inl z = if z = y then f (s.inl y) else s.inl z := by
  by_cases h : z = y
  · subst h; simp [State.inl]
  · have : y.val ≠ z.val := fun e => h (Fin.ext e.symm)
    simp [State.inl, h, this]

theorem State.pool_congr {s t : State} (h : t.pools = s.pools) (w : Fin 16) : t.pool w = s.pool w := by
  simp [State.pool, h]

theorem State.out_congr {s t : State} (h : t.outs = s.outs) (x : Fin 6) : t.out x = s.out x := by
  simp [State.out, h]

theorem State.inl_congr {s t : State} (h : t.ins = s.ins) (y : Fin 2) : t.inl y = s.inl y := by
  simp [State.inl, h]

theorem State.win_congr {s t : State} (h : t.windows = s.windows) (w : Fin 16) : t.win w = s.win w := by
  simp [State.win, h]

theorem State.outRec_congr {s t : State} (h : t.lanes = s.lanes) (x : Fin 6) :
    t.outRec x = s.outRec x := by
  simp [State.outRec, h]

theorem State.inRec_congr {s t : State} (h : t.lanes = s.lanes) (y : Fin 2) :
    t.inRec y = s.inRec y := by
  simp [State.inRec, h]

theorem State.entry_congr {s t : State} (h : t.entries = s.entries) (e : Nat) :
    t.entry e = s.entry e := by
  simp [State.entry, h]

/-! ### One buffer -/

theorem Pool.bufs_modBuf (p : Pool) (k j : Fin 8) (f : Buffer → Buffer) :
    (p.modBuf k f).bufs[j] = if j = k then f p.bufs[k] else p.bufs[j] := by
  by_cases h : j = k
  · subst h; simp [Pool.modBuf]
  · have : k.val ≠ j.val := fun e => h (Fin.ext e.symm)
    simp [Pool.modBuf, h, this]

theorem Pool.bufs_mapBufs (p : Pool) (j : Fin 8) (f : Buffer → Buffer) :
    (p.mapBufs f).bufs[j] = f p.bufs[j] := by
  simp [Pool.mapBufs]

/-- The same in simp's normal form, where a buffer is read at its number. -/
@[simp] theorem Pool.bufs_modBuf_val (p : Pool) (k j : Fin 8) (f : Buffer → Buffer) :
    (p.modBuf k f).bufs[j.val] = if j = k then f p.bufs[k.val] else p.bufs[j.val] :=
  Pool.bufs_modBuf p k j f

@[simp] theorem Pool.bufs_mapBufs_val (p : Pool) (j : Fin 8) (f : Buffer → Buffer) :
    (p.mapBufs f).bufs[j.val] = f p.bufs[j.val] :=
  Pool.bufs_mapBufs p j f

/-- A change of one buffer leaves the rest of the pool record. -/
theorem Pool.modBuf_rest (p : Pool) (k : Fin 8) (f : Buffer → Buffer) :
    p.modBuf k f = { p with bufs := (p.modBuf k f).bufs } := rfl

theorem Pool.mapBufs_rest (p : Pool) (f : Buffer → Buffer) :
    p.mapBufs f = { p with bufs := (p.mapBufs f).bufs } := rfl

theorem mem_allBufs (k : Fin 8) : k ∈ allBufs := by revert k; decide

theorem mem_allWindows (w : Fin 16) : w ∈ allWindows := by revert w; decide

theorem mem_allOuts (x : Fin 6) : x ∈ allOuts := by revert x; decide

theorem Pool.find_some {p : Pool} {st : BufState} {k : Fin 8} (h : p.find st = some k) :
    p.bufs[k].st = st := by
  have := List.find?_some h
  simpa using this

theorem Pool.find_none {p : Pool} {st : BufState} :
    p.find st = none ↔ ∀ k : Fin 8, p.bufs[k].st ≠ st := by
  simp [Pool.find, List.find?_eq_none, mem_allBufs]

/-- With one buffer in a state, the search finds it. -/
theorem Pool.find_eq {p : Pool} {st : BufState} {k : Fin 8} (hk : p.bufs[k].st = st)
    (one : ∀ j : Fin 8, p.bufs[j].st = st → j = k) : p.find st = some k := by
  cases h : p.find st with
  | none => exact absurd hk (Pool.find_none.1 h k)
  | some j => rw [one j (Pool.find_some h)]

theorem Pool.find_congr {p q : Pool} (h : ∀ k : Fin 8, q.bufs[k].st = p.bufs[k].st) (st : BufState) :
    q.find st = p.find st := by
  unfold Pool.find
  congr 1
  funext k
  rw [h k]

theorem Pool.holding_some {p : Pool} {h : Holder} {k : Fin 8} (e : p.holding h = some k) :
    p.bufs[k].holders.has h = true := by
  simpa using List.find?_some e

theorem Pool.holding_none {p : Pool} {h : Holder} :
    p.holding h = none ↔ ∀ k : Fin 8, p.bufs[k].holders.has h = false := by
  simp [Pool.holding, List.find?_eq_none, mem_allBufs]

theorem State.freeBuffer_some {s : State} {w : Fin 16} {k : Fin 8} (h : s.freeBuffer w = some k) :
    k.val < (s.win w).bufferCount ∧ (s.pool w).bufs[k].st = .free := by
  simpa using List.find?_some h

theorem State.freeBuffer_none {s : State} {w : Fin 16} :
    s.freeBuffer w = none ↔
      ∀ k : Fin 8, k.val < (s.win w).bufferCount → (s.pool w).bufs[k].st ≠ .free := by
  simp [State.freeBuffer, List.find?_eq_none, mem_allBufs]

/-! ### Holder sets -/

theorem HolderSet.has_empty (h : Holder) : HolderSet.empty.has h = false := by
  cases h <;> simp [HolderSet.has, HolderSet.empty]

theorem HolderSet.has_put (hs : HolderSet) (h g : Holder) (b : Bool) :
    (hs.put h b).has g = if g = h then b else hs.has g := by
  cases h with
  | lane x =>
    cases g with
    | lane z =>
      by_cases e : z = x
      · subst e; simp [HolderSet.put, HolderSet.has]
      · have : x.val ≠ z.val := fun q => e (Fin.ext q.symm)
        simp [HolderSet.put, HolderSet.has, e, this]
    | view => simp [HolderSet.put, HolderSet.has]
    | copySource => simp [HolderSet.put, HolderSet.has]
  | view => cases g <;> simp [HolderSet.put, HolderSet.has]
  | copySource => cases g <;> simp [HolderSet.put, HolderSet.has]

theorem HolderSet.ext_has {a b : HolderSet} (h : ∀ g, a.has g = b.has g) : a = b := by
  obtain ⟨la, va, ca⟩ := a
  obtain ⟨lb, vb, cb⟩ := b
  have hv : va = vb := h .view
  have hc : ca = cb := h .copySource
  have hl : la = lb := Vector.ext fun i hi => h (.lane ⟨i, hi⟩)
  rw [hv, hc, hl]

theorem HolderSet.eq_empty_iff (a : HolderSet) : a = HolderSet.empty ↔ ∀ g, a.has g = false :=
  ⟨fun h g => h ▸ HolderSet.has_empty g,
    fun h => HolderSet.ext_has fun g => by rw [h g, HolderSet.has_empty]⟩

theorem HolderSet.put_true_ne_empty (a : HolderSet) (h : Holder) : a.put h true ≠ HolderSet.empty := by
  intro e
  have := (HolderSet.eq_empty_iff _).1 e h
  simp [HolderSet.has_put] at this

end Sys2Proof.Machine
end

