-- ==== Sys2Proof/Laws/Arbiter.lean ====
section
/-! SUPPORT. The memory arbiter: the request it chooses, its grants, and the shape of a performance. -/

namespace Sys2Proof.Machine

set_option Elab.async false

/-- The request chosen is on the list and of the least rank (R76, R77). -/
theorem State.choose_some (s : State) {l : List Request} {r : Request} (h : s.choose l = some r) :
    r ∈ l ∧ ∀ q ∈ l, s.rank r ≤ s.rank q := by
  induction l generalizing r with
  | nil => cases h
  | cons a l ih =>
    unfold State.choose at h
    split at h
    · next hn =>
      cases h
      cases l with
      | nil => simp
      | cons b l =>
        unfold State.choose at hn
        split at hn
        · cases hn
        · split at hn <;> cases hn
    · next q hq =>
      obtain ⟨hm, hle⟩ := ih hq
      split at h
      · cases h
        refine ⟨by simp, fun c hc => ?_⟩
        rcases List.mem_cons.1 hc with rfl | hc
        · exact Nat.le_refl _
        · exact Nat.le_trans (by assumption) (hle c hc)
      · cases h
        refine ⟨List.mem_cons_of_mem _ hm, fun c hc => ?_⟩
        rcases List.mem_cons.1 hc with rfl | hc
        · omega
        · exact hle c hc

theorem State.choose_none (s : State) (l : List Request) : s.choose l = none ↔ l = [] := by
  cases l with
  | nil => simp [State.choose]
  | cons a l =>
    unfold State.choose
    split
    · simp
    · split <;> simp

/-- An arrival at a waiting port is granted; otherwise nothing happens (R73). -/
theorem State.arrivals_cases (s : State) :
    (s.arrivals = s ∧ (s.port = none → s.requests = [])) ∨
    ∃ r rs, s.port = none ∧ s.requests = r :: rs ∧ s.arrivals = s.grant r := by
  unfold State.arrivals
  cases hp : s.port with
  | some a => exact .inl ⟨rfl, nofun⟩
  | none =>
    cases hr : s.requests with
    | nil => exact .inl ⟨rfl, fun _ => rfl⟩
    | cons r rs => exact .inr ⟨r, rs, rfl, rfl, rfl⟩

/-- With no grant due there is nothing to grant on arrival. -/
theorem State.arrivals_of_noGrantDue {s : State} (h : NoGrantDue s) : s.arrivals = s := by
  rcases s.arrivals_cases with ⟨e, _⟩ | ⟨r, rs, hp, hr, _⟩
  · exact e
  · rw [h hp] at hr; cases hr

/-- At the end of a performance MA grants the request it chooses, if there is one (R73, R76). -/
theorem State.regrant_cases (s : State) :
    (s.regrant = s ∧ (s.port = none → s.requests = [])) ∨
    ∃ r, s.port = none ∧ s.choose s.requests = some r ∧ s.regrant = s.grant r := by
  unfold State.regrant
  cases hp : s.port with
  | some a => exact .inl ⟨rfl, nofun⟩
  | none =>
    cases hc : s.choose s.requests with
    | none => exact .inl ⟨rfl, fun _ => (s.choose_none _).1 hc⟩
    | some r => exact .inr ⟨r, rfl, rfl, rfl⟩

theorem State.regrant_of_choose {s : State} {r : Request} (hp : s.port = none)
    (hc : s.choose s.requests = some r) : s.regrant = s.grant r := by
  simp [State.regrant, hp, hc]

/-- After a performance's regrant, no grant is due. -/
theorem State.noGrantDue_regrant (s : State) : NoGrantDue s.regrant := by
  rcases s.regrant_cases with ⟨e, h⟩ | ⟨r, _, _, e⟩
  · rw [e]; exact h
  · rw [e]; intro h; cases h

/-- After the arrivals of an event that is no performance, no grant is due. -/
theorem State.noGrantDue_arrivals (s : State) : NoGrantDue s.arrivals := by
  rcases s.arrivals_cases with ⟨e, h⟩ | ⟨r, rs, _, _, e⟩
  · rw [e]; exact h
  · rw [e]; intro h; cases h

/-- A request on the list follows its regrant: it is listed still, or granted. -/
theorem State.follows_regrant {s : State} {r : Request} (h : r ∈ s.requests) : Follows s.regrant r := by
  rcases s.regrant_cases with ⟨e, _⟩ | ⟨q, _, _, e⟩
  · rw [e]; exact .inl h
  · rw [e]
    by_cases hq : r = q
    · subst hq; exact .inr rfl
    · exact .inl ((List.mem_erase_of_ne hq).2 h)

/-- A performance whose reaction leaves the port FREE and the requests that waited on the list, and adds
none but of `q` and of JW, leaves the others waiting or granted (R73, R76). -/
theorem State.othersWait_regrant {s u : State} {q : Requester} (hp : u.port = none)
    (hk : ∀ r ∈ s.requests, r ∈ u.requests)
    (hn : ∀ r ∈ u.requests, r ∈ s.requests ∨ r.who = q ∨ r.who = .journal) :
    OthersWait q s u.regrant := by
  refine ⟨fun r hr => State.follows_regrant (hk r hr), ?_⟩
  rcases u.regrant_cases with ⟨e, _⟩ | ⟨r, _, hc, e⟩
  · rw [e, hp]
    exact ⟨hn, nofun⟩
  · rw [e]
    refine ⟨fun p hr => hn p (List.mem_of_mem_erase hr), fun a ha => ?_⟩
    cases ha
    exact ⟨rfl, hn r (u.choose_some hc).1⟩

/-- Everything a performance can do (R73, R80): nothing, when its access is not the one in progress, and
otherwise complete the access, let the requester react, and grant again. -/
theorem State.performance_cases (s : State) (about : Request → Bool)
    (react drop : Request → State → State) :
    s.performance about react drop = .next s ∨
    ∃ a, s.port = some a ∧ s.rst = false ∧ about a.req = true ∧
      s.performance about react drop = .next
        ((if a.withdrawn then drop a.req (s.complete a.req)
          else react a.req (s.complete a.req)).regrant) := by
  unfold State.performance
  cases hp : s.port with
  | none => exact .inl rfl
  | some a =>
    by_cases h : (!s.rst && about a.req) = true
    · refine .inr ⟨a, rfl, ?_, ?_, ?_⟩
      · simp only [Bool.and_eq_true, Bool.not_eq_true'] at h; exact h.1
      · simp only [Bool.and_eq_true] at h; exact h.2
      · simp only [h, if_true]
    · simp only [h]; exact .inl rfl

/-- The frame of a performance. -/
theorem State.performance_frame {s t : State} {about : Request → Bool}
    {react drop : Request → State → State} {l : List Item}
    (hr : ∀ r u, ChangesOnly l u (react r u)) (hd : ∀ r u, ChangesOnly l u (drop r u))
    (h : s.performance about react drop = .next t) :
    ChangesOnly (.mem :: .port :: .requests :: .copyPtr :: l) s t := by
  rcases s.performance_cases about react drop with e | ⟨a, _, _, _, e⟩
  · rw [e] at h; cases h; exact .refl _ _
  · rw [e] at h
    cases h
    refine ChangesOnly.andThen ?_ (regrant_frame _) ?_ ?_ (l := .mem :: .port :: l)
    · refine ChangesOnly.andThen (complete_frame s a.req) (l' := l) ?_ ?_ ?_
      · split
        · exact hd _ _
        · exact hr _ _
      · simp
      · intro f hf; simp [hf]
    · intro f hf
      simp only [List.mem_cons] at hf ⊢
      rcases hf with h | h | h <;> simp [h]
    · intro f hf
      simp only [List.mem_cons, List.not_mem_nil, or_false] at hf
      rcases hf with h | h | h <;> simp [h]

/-- A performance completes its access: what it leaves in cue memory (R73). -/
theorem State.performance_mem {s t : State} {about : Request → Bool}
    {react drop : Request → State → State} {l : List Item} (hm : .mem ∉ l)
    (hr : ∀ r u, ChangesOnly l u (react r u)) (hd : ∀ r u, ChangesOnly l u (drop r u))
    (h : s.performance about react drop = .next t) :
    t.mem = s.mem ∨ ∃ a, s.port = some a ∧ about a.req = true ∧ t.mem = s.mem.perform a.req := by
  rcases s.performance_cases about react drop with e | ⟨a, hp, _, ha, e⟩
  · rw [e] at h; cases h; exact .inl rfl
  · rw [e] at h
    cases h
    refine .inr ⟨a, hp, ha, ?_⟩
    refine (regrant_frame _ .mem (by decide)).trans ?_
    split
    · exact hd _ _ .mem hm
    · exact hr _ _ .mem hm

end Sys2Proof.Machine
end

