-- ==== Sys2Proof/Laws/Commands.lean ====
section
/-! SUPPORT. The frame of every command: which parts of State it can change when it answers a next
state. -/

namespace Sys2Proof.Machine

set_option Elab.async false

variable {s t : State}

/-- A command that is an operation with the arrivals after it, or nothing. -/
theorem guarded_frame {b : Bool} {u : State} {l m : List Item}
    (h : (if b then (.next u.arrivals : Out) else .next s) = .next t) (hu : ChangesOnly l s u)
    (hl : ∀ f ∈ l, f ∈ m := by decide) (ha : ∀ f ∈ [Item.requests, .port, .copyPtr], f ∈ m := by decide) :
    ChangesOnly m s t := by
  split at h
  · cases h; exact hu.andThen (arrivals_frame u) hl ha
  · cases h; exact .refl _ _

/-! ### Host port and steering unit -/

theorem execHostWritePresented_frame {a : BitVec 21} {be : Enables} {d : Word}
    (h : execHostWritePresented a be d s = .next t) : ChangesOnly [.queue, .waiting] s t := by
  unfold execHostWritePresented State.presentWrite at h
  split at h
  · split at h <;> cases h <;>
      (intro g hg; cases g <;> first | exact absurd (by decide) hg | rfl)
  · cases h; exact .refl _ _

theorem execHostReadPresented_frame {a : BitVec 21} {be : Enables}
    (h : execHostReadPresented a be s = .next t) : ChangesOnly [.waiting] s t := by
  unfold execHostReadPresented at h
  split at h
  · cases h; intro g hg; cases g <;> first | exact absurd (by decide) hg | rfl
  · cases h; exact .refl _ _

theorem execPassThroughWrite_frame (h : execPassThroughWrite s = .next t) :
    ChangesOnly [.queue, .waiting, .su, .requests, .port, .copyPtr] s t := by
  unfold execPassThroughWrite at h
  split at h
  · split at h
    · cases h; exact (takeHead_frame s).andThen (handWrite_frame _ _ _ _)
    · cases h; exact .refl _ _
  · cases h; exact .refl _ _

theorem execPayloadWriteSteered_frame (h : execPayloadWriteSteered s = .next t) :
    ChangesOnly [.queue, .waiting, .su, .requests, .port, .copyPtr] s t := by
  unfold execPayloadWriteSteered at h
  split at h
  · split at h
    · split at h
      · cases h; exact (takeHead_frame s).andThen (handWrite_frame _ _ _ _)
      · cases h
    · cases h; exact .refl _ _
  · cases h; exact .refl _ _

theorem execRefusedWrite_frame (h : execRefusedWrite s = .next t) :
    ChangesOnly [.queue, .waiting, .flags, .journal, .requests, .port, .copyPtr] s t := by
  unfold execRefusedWrite at h
  split at h
  · split at h
    · cases h
      exact ((takeHead_frame s).andThen (raise_frame _ _ _ _ _)
        (m := [.queue, .waiting, .flags, .journal, .requests])).andThen (arrivals_frame _)
    · cases h; exact .refl _ _
  · cases h; exact .refl _ _

theorem execCloseRequest_frame (h : execCloseRequest s = .next t) :
    ChangesOnly [.queue, .waiting, .pools, .flags, .journal, .requests, .port, .copyPtr] s t := by
  unfold execCloseRequest at h
  split at h
  · split at h
    · cases h
      exact ((takeHead_frame s).andThen (decideClose_frame _ _ _)
        (m := [.queue, .waiting, .pools, .flags, .journal, .requests])).andThen (arrivals_frame _)
    · cases h; exact .refl _ _
  · cases h; exact .refl _ _

theorem execStart_frame (h : execStart s = .next t) :
    ChangesOnly [.queue, .waiting, .outcome, .dev, .load, .requests, .port, .copyPtr] s t := by
  unfold execStart at h
  split at h
  · split at h
    · cases h
      exact ((takeHead_frame s).andThen (start_frame _)
        (m := [.queue, .waiting, .outcome, .dev, .load, .requests])).andThen (arrivals_frame _)
    · cases h; exact .refl _ _
  · cases h; exact .refl _ _

theorem execStop_frame (h : execStop s = .next t) :
    ChangesOnly [.queue, .waiting, .outcome, .load, .dev, .sending, .stopLanes, .startReached, .pools,
      .outs, .ins, .requests, .port, .copyPtr, .flags, .journal] s t := by
  unfold execStop at h
  split at h
  · split at h
    · cases h
      exact ((takeHead_frame s).andThen (stop_frame _)
        (m := [.queue, .waiting, .outcome, .load, .dev, .sending, .stopLanes, .startReached, .pools,
          .outs, .ins, .requests, .port, .flags, .journal])).andThen (arrivals_frame _)
    · cases h; exact .refl _ _
  · cases h; exact .refl _ _

theorem execUnknownRequest_frame (h : execUnknownRequest s = .next t) :
    ChangesOnly [.queue, .waiting, .outcome] s t := by
  unfold execUnknownRequest at h
  split at h
  · split at h
    · cases h
      refine (takeHead_frame s).andThen (l' := [.outcome]) ?_
      intro g hg; cases g <;> first | exact absurd (by decide) hg | rfl
    · cases h; exact .refl _ _
  · cases h; exact .refl _ _

theorem execAcknowledge_frame (h : execAcknowledge s = .next t) :
    ChangesOnly [.queue, .waiting, .flags] s t := by
  unfold execAcknowledge at h
  split at h
  · split at h
    · cases h
      refine (takeHead_frame s).andThen (l' := [.flags]) ?_
      intro g hg; cases g <;> first | exact absurd (by decide) hg | rfl
    · cases h; exact .refl _ _
  · cases h; exact .refl _ _

theorem execControlWriteDropped_frame (h : execControlWriteDropped s = .next t) :
    ChangesOnly [.queue, .waiting] s t := by
  unfold execControlWriteDropped at h
  split at h
  · split at h
    · cases h; exact takeHead_frame s
    · cases h; exact .refl _ _
  · cases h; exact .refl _ _

theorem execHostReadTaken_frame (h : execHostReadTaken s = .next t) :
    ChangesOnly [.waiting, .su, .readData, .requests, .port, .copyPtr] s t := by
  unfold execHostReadTaken at h
  split at h
  · split at h
    · cases h; exact (answer_frame s _).mono (by decide)
    · cases h
      refine ChangesOnly.andThen (l := [.waiting, .su, .requests]) ?_ (arrivals_frame _)
      refine ChangesOnly.andThen (l := [.waiting]) ?_ (issueRead_frame _ _ _ _)
      intro g hg; cases g <;> first | exact absurd (by decide) hg | rfl
    · cases h; exact .refl _ _
  · cases h; exact .refl _ _

theorem execHeadWordReadViewMove_frame (h : execHeadWordReadViewMove s = .next t) :
    ChangesOnly [.waiting, .su, .readData, .pools] s t := by
  unfold execHeadWordReadViewMove at h
  split at h
  · split at h
    · cases h; exact viewMove_frame _ _
    · cases h; exact .refl _ _
    · cases h; exact .refl _ _
  · cases h; exact .refl _ _

/-! ### The memory port -/

theorem execHostAccessPerformed_frame (h : execHostAccessPerformed s = .next t) :
    ChangesOnly [.mem, .port, .requests, .copyPtr, .su, .waiting, .readData, .pools, .requests] s t :=
  s.performance_frame (fun r u => hostWord_frame u r) (fun _ u => .refl _ u) h

theorem laneReact_frame (r : Request) (b : Bool) (s : State) :
    ChangesOnly [.outs, .requests] s (r.laneReact b s) := by
  unfold Request.laneReact
  split
  · split
    · exact tryFetch_frame _ _
    · exact laneWord_frame _ _ _
  · exact .refl _ _

theorem execLaneFetchPerformed_frame (h : execLaneFetchPerformed s = .next t) :
    ChangesOnly [.mem, .port, .requests, .copyPtr, .outs, .requests] s t :=
  s.performance_frame (fun r u => laneReact_frame r false u) (fun r u => laneReact_frame r true u) h

theorem inboundReact_frame (r : Request) (s : State) :
    ChangesOnly [.ins, .pools, .flags, .journal, .requests] s (r.inboundReact s) := by
  unfold Request.inboundReact
  split
  · exact halfWritten_frame _ _
  · exact .refl _ _

theorem execInboundWritePerformed_frame (h : execInboundWritePerformed s = .next t) :
    ChangesOnly [.mem, .port, .requests, .copyPtr, .ins, .pools, .flags, .journal, .requests] s t :=
  s.performance_frame inboundReact_frame (fun _ u => .refl _ u) h

theorem copyReadReact_frame (r : Request) (s : State) :
    ChangesOnly [.pools, .requests] s (r.copyReadReact s) := by
  unfold Request.copyReadReact
  split
  · exact copyRead_frame _ _ _
  · exact .refl _ _

theorem execCopyReadPerformed_frame (h : execCopyReadPerformed s = .next t) :
    ChangesOnly [.mem, .port, .requests, .copyPtr, .pools, .requests] s t :=
  s.performance_frame copyReadReact_frame (fun _ u => .refl _ u) h

theorem copyWriteReact_frame (r : Request) (s : State) :
    ChangesOnly [.pools, .flags, .journal, .requests] s (r.copyWriteReact s) := by
  unfold Request.copyWriteReact
  split
  · exact copyWrite_frame _ _ _
  · exact .refl _ _

theorem execCopyWritePerformed_frame (h : execCopyWritePerformed s = .next t) :
    ChangesOnly [.mem, .port, .requests, .copyPtr, .pools, .flags, .journal, .requests] s t :=
  s.performance_frame copyWriteReact_frame (fun _ u => .refl _ u) h

theorem execLoadReadPerformed_frame (h : execLoadReadPerformed s = .next t) :
    ChangesOnly [.mem, .port, .requests, .copyPtr, .dev, .load, .loadErr, .header, .windows, .lanes,
      .entries, .startInstant, .startReached, .sending, .pools, .groups, .outs, .entryState, .ins,
      .flags, .journal, .requests, .port, .copyPtr] s t :=
  s.performance_frame (fun _ u => loadWord_frame u _) (fun _ u => .refl _ u) h

theorem execJournalWordPerformed_frame (h : execJournalWordPerformed s = .next t) :
    ChangesOnly [.mem, .port, .requests, .copyPtr, .flags, .journal, .requests] s t :=
  s.performance_frame (fun _ u => journalWord_frame u) (fun _ u => .refl _ u) h

/-! ### Timed events and lanes -/

theorem execTimerExpiry_frame {w : Fin 16} (h : execTimerExpiry w s = .next t) :
    ChangesOnly [.pools, .flags, .journal, .requests, .port, .copyPtr] s t := by
  unfold execTimerExpiry at h
  exact guarded_frame h (expire_frame s w)

theorem execStartInstantReached_frame (h : execStartInstantReached s = .next t) :
    ChangesOnly [.startReached] s t := by
  unfold execStartInstantReached at h
  split at h
  · cases h; intro g hg; cases g <;> first | exact absurd (by decide) hg | rfl
  · cases h; exact .refl _ _

theorem execMasterScheduledStart_frame {x : Fin 6} (h : execMasterScheduledStart x s = .next t) :
    ChangesOnly [.outs, .pools, .requests, .port, .copyPtr] s t := by
  unfold execMasterScheduledStart at h
  exact guarded_frame h (masterStart_frame s x)

theorem execOutboundActiveEdge_frame {x : Fin 6} {e : PulseEdge}
    (h : execOutboundActiveEdge x e s = .next t) :
    ChangesOnly [.outs, .pools, .flags, .journal, .requests, .port, .copyPtr] s t := by
  unfold execOutboundActiveEdge at h
  exact guarded_frame h (activeEdge_frame s x)

theorem execFlywheelStart_frame {x : Fin 6} (h : execFlywheelStart x s = .next t) :
    ChangesOnly [.outs, .pools, .flags, .journal, .requests, .port, .copyPtr] s t := by
  unfold execFlywheelStart at h
  exact guarded_frame h (flywheel_frame s x)

theorem execSlotBegin_frame {x : Fin 6} (h : execSlotBegin x s = .next t) :
    ChangesOnly [.outs, .entryState, .flags, .journal, .requests, .port, .copyPtr] s t := by
  unfold execSlotBegin at h
  exact guarded_frame h (slotBegin_frame s x)

theorem execFrameEnd_frame {x : Fin 6} (h : execFrameEnd x s = .next t) :
    ChangesOnly [.outs, .sending, .dev, .startReached, .pools, .flags, .journal, .requests, .port,
      .copyPtr] s t := by
  unfold execFrameEnd at h
  exact guarded_frame h (frameEnd_frame s x)

theorem execInboundActiveEdge_frame {y : Fin 2} {e : PulseEdge}
    (h : execInboundActiveEdge y e s = .next t) :
    ChangesOnly [.ins, .pools, .flags, .journal, .requests, .port, .copyPtr] s t := by
  unfold execInboundActiveEdge at h
  exact guarded_frame h (inActiveEdge_frame s y)

theorem execInboundH0Received_frame {y : Fin 2} {v : Half}
    (h : execInboundH0Received y v s = .next t) :
    ChangesOnly [.ins, .flags, .journal, .requests, .port, .copyPtr] s t := by
  unfold execInboundH0Received at h
  exact guarded_frame h (inH0_frame s y v)

theorem execInboundH1Received_frame {y : Fin 2} {v : Half}
    (h : execInboundH1Received y v s = .next t) :
    ChangesOnly [.ins, .pools, .flags, .journal, .requests, .port, .copyPtr] s t := by
  unfold execInboundH1Received at h
  exact guarded_frame h (inH1_frame s y v)

theorem execInboundDataSlotReceived_frame {y : Fin 2} {v : Half}
    (h : execInboundDataSlotReceived y v s = .next t) :
    ChangesOnly [.ins, .pools, .flags, .journal, .requests, .port, .copyPtr] s t := by
  unfold execInboundDataSlotReceived at h
  exact guarded_frame h (inData_frame s y v)

theorem execInboundCrcSlotReceived_frame {y : Fin 2} {v : Half}
    (h : execInboundCrcSlotReceived y v s = .next t) :
    ChangesOnly [.ins, .pools, .flags, .journal, .requests, .port, .copyPtr] s t := by
  unfold execInboundCrcSlotReceived at h
  exact guarded_frame h (inCrc_frame s y v)

/-! ### Reset and time -/

theorem execResetRelease_frame {p : BitVec 2} (h : execResetRelease p s = .next t) :
    ChangesOnly [.rst, .straps, .timeBase, .queue, .waiting] s t := by
  unfold execResetRelease State.release at h
  split at h
  · split at h <;> cases h <;>
      (intro g hg; cases g <;> first | exact absurd (by decide) hg | rfl)
  · cases h; exact .refl _ _

theorem execTimeBaseTick_frame (h : execTimeBaseTick s = .next t) : ChangesOnly [.timeBase] s t := by
  unfold execTimeBaseTick at h
  split at h
  · cases h; exact .refl _ _
  · cases h; intro g hg; cases g <;> first | exact absurd (by decide) hg | rfl

end Sys2Proof.Machine
end

