-- ==== Sys2Proof/Laws/Steering.lean ====
section
/-! SUPPORT. The steering unit's commands: what each can do, by the transfer it finds. -/

namespace Sys2Proof.Machine

set_option Elab.async false

/-! ### Taking the head of the queue, and the read at the port -/

theorem State.headWrite_of_atHead {s : State} {x : HostWrite} (h : AtHead s x) :
    s.headWrite = some x := by
  simp [State.headWrite, h.1, h.2.1, h.2.2]

theorem State.headWrite_cases (s : State) :
    s.headWrite = none ∨ ∃ x, s.headWrite = some x ∧ AtHead s x := by
  unfold State.headWrite AtHead
  split
  · exact .inl rfl
  · next hr =>
    split
    · next hs =>
      cases hq : s.queue.head? with
      | none => exact .inl rfl
      | some x => exact .inr ⟨x, rfl, by simpa using hr, hs, rfl⟩
    · exact .inl rfl

theorem State.waitingRead_of_atRead {s : State} {a : HostAdr} {be : Enables} (h : AtRead s a be) :
    s.waitingRead = some (a, be) := by
  simp [State.waitingRead, h.1, h.2.1, h.2.2.1, h.2.2.2]

theorem State.waitingRead_cases (s : State) :
    s.waitingRead = none ∨ ∃ a be, s.waitingRead = some (a, be) ∧ AtRead s a be := by
  unfold State.waitingRead AtRead
  split
  · next a be hw =>
    split
    · next h => exact .inr ⟨a, be, rfl, h.1, h.2.1, h.2.2, hw⟩
    · exact .inl rfl
  · exact .inl rfl

/-- The head entry leaves the queue, and a waiting write joins its tail (R49, R50). -/
theorem State.takeHead_taken (s : State) : HeadTaken s s.takeHead := by
  unfold HeadTaken State.takeHead
  split
  · next y hw => simp [hw]
  · next w hw =>
    split
    · next y hw' => exact absurd hw' (hw y)
    · exact ⟨rfl, rfl⟩

theorem HeadTaken.of_eq {s t u : State} (h : HeadTaken s t) (hq : u.queue = t.queue)
    (hw : u.waiting = t.waiting) : HeadTaken s u := by
  unfold HeadTaken at h ⊢
  split
  · next y e => rw [e] at h; exact ⟨hq.trans h.1, hw.trans h.2⟩
  · next w e =>
    split at h
    · next y e' => exact absurd e' (e y)
    · exact ⟨hq.trans h.1, hw.trans h.2⟩

theorem NoGrantDue.of_eq {s t : State} (h : NoGrantDue s) (hp : t.port = s.port)
    (hr : t.requests = s.requests) : NoGrantDue t := fun e => hr.trans (h (hp ▸ e))

/-- A request that joins where no grant is due is granted at once if the port waits, and stays on the
list otherwise (R73, R75). -/
theorem State.requested_join {s : State} (h : NoGrantDue s) (r : Request) :
    Requested s (s.join r).arrivals r := by
  unfold Requested
  split
  · next hp =>
    have hr := h hp
    simp [State.arrivals, State.join, State.grant, hp, hr]
  · next hp =>
    cases hq : s.port with
    | none => exact absurd hq hp
    | some a => simp [State.arrivals, State.join, hq]

/-- SU hands a write to the arbiter (R50). -/
theorem State.handWrite_spec {s : State} (h : NoGrantDue s) (x : HostWrite) (a : MemAdr)
    (m : Option PayloadRef) :
    (s.handWrite x a m).su = .writing m ∧
      Requested s (s.handWrite x a m)
        { who := .host, write := true, adr := a, be := x.be, data := x.data, urgent := false } :=
  ⟨arrivals_frame _ .su (by decide),
    State.requested_join (s := { s with su := .writing m }) h _⟩

/-! ### The commands on a write -/

section
variable (s : State)

theorem execPassThroughWrite_cases : execPassThroughWrite s = .next s ∨
    ∃ x, AtHead s x ∧ s.treatment x = .passThrough ∧
      execPassThroughWrite s = .next (s.takeHead.handWrite x (physical x.adr) none) := by
  unfold execPassThroughWrite
  rcases s.headWrite_cases with e | ⟨x, e, ha⟩
  · rw [e]; exact .inl rfl
  · rw [e]
    dsimp only
    split
    · exact .inr ⟨x, ha, by assumption, rfl⟩
    · exact .inl rfl

theorem execPayloadWriteSteered_cases : execPayloadWriteSteered s = .next s ∨
    ∃ x w i, AtHead s x ∧ s.treatment x = .steered w i ∧
      ((∃ k, (s.pool w).find .filling = some k ∧
          execPayloadWriteSteered s = .next (s.takeHead.handWrite x ((s.win w).payloadAdr k i)
            (some { w := w, k := k, i := i }))) ∨
        ((s.pool w).find .filling = none ∧
          execPayloadWriteSteered s = .fault .noFillingBuffer)) := by
  unfold execPayloadWriteSteered
  rcases s.headWrite_cases with e | ⟨x, e, ha⟩
  · rw [e]; exact .inl rfl
  · rw [e]
    dsimp only
    cases ht : s.treatment x with
    | steered w i =>
      refine .inr ⟨x, w, i, ha, ht, ?_⟩
      dsimp only
      cases hk : (s.pool w).find .filling with
      | some k => exact .inl ⟨k, rfl, rfl⟩
      | none => exact .inr ⟨rfl, rfl⟩
    | _ => exact .inl rfl

theorem execRefusedWrite_cases : execRefusedWrite s = .next s ∨
    ∃ x r source, AtHead s x ∧ s.treatment x = .refused r source ∧
      execRefusedWrite s = .next (s.takeHead.raise .writeRefused source (num (HostAdr.byte x.adr))
        (num r.code)).arrivals := by
  unfold execRefusedWrite
  rcases s.headWrite_cases with e | ⟨x, e, ha⟩
  · rw [e]; exact .inl rfl
  · rw [e]
    dsimp only
    cases ht : s.treatment x with
    | refused r source => exact .inr ⟨x, r, source, ha, ht, rfl⟩
    | _ => exact .inl rfl

theorem execCloseRequest_cases : execCloseRequest s = .next s ∨
    ∃ x w, AtHead s x ∧ s.treatment x = .close w ∧
      execCloseRequest s = .next (s.takeHead.decideClose w x).arrivals := by
  unfold execCloseRequest
  rcases s.headWrite_cases with e | ⟨x, e, ha⟩
  · rw [e]; exact .inl rfl
  · rw [e]
    dsimp only
    cases ht : s.treatment x with
    | close w => exact .inr ⟨x, w, ha, ht, rfl⟩
    | _ => exact .inl rfl

theorem execStart_cases : execStart s = .next s ∨
    ∃ x, AtHead s x ∧ s.treatment x = .start ∧ execStart s = .next s.takeHead.start.arrivals := by
  unfold execStart
  rcases s.headWrite_cases with e | ⟨x, e, ha⟩
  · rw [e]; exact .inl rfl
  · rw [e]
    dsimp only
    split
    · exact .inr ⟨x, ha, by assumption, rfl⟩
    · exact .inl rfl

theorem execStop_cases : execStop s = .next s ∨
    ∃ x, AtHead s x ∧ s.treatment x = .stop ∧ execStop s = .next s.takeHead.stop.arrivals := by
  unfold execStop
  rcases s.headWrite_cases with e | ⟨x, e, ha⟩
  · rw [e]; exact .inl rfl
  · rw [e]
    dsimp only
    split
    · exact .inr ⟨x, ha, by assumption, rfl⟩
    · exact .inl rfl

theorem execHostReadTaken_cases : execHostReadTaken s = .next s ∨
    ∃ a be, AtRead s a be ∧
      ((∃ v, s.readAnswer a be = .word v ∧ execHostReadTaken s = .next (s.answer v)) ∨
        ∃ p ps, s.readAnswer a be = .memory p ps ∧
          execHostReadTaken s = .next ({ s with waiting := none }.issueRead p ps 0).arrivals) := by
  unfold execHostReadTaken
  rcases s.waitingRead_cases with e | ⟨a, be, e, ha⟩
  · rw [e]; exact .inl rfl
  · rw [e]
    dsimp only
    cases hr : s.readAnswer a be with
    | word v => exact .inr ⟨a, be, ha, .inl ⟨v, hr, rfl⟩⟩
    | memory p ps => exact .inr ⟨a, be, ha, .inr ⟨p, ps, hr, rfl⟩⟩
    | moveView w => exact .inl rfl

theorem execHeadWordReadViewMove_cases : execHeadWordReadViewMove s = .next s ∨
    ∃ a be w, AtRead s a be ∧ s.readAnswer a be = .moveView w ∧
      execHeadWordReadViewMove s = .next (s.viewMove w) := by
  unfold execHeadWordReadViewMove
  rcases s.waitingRead_cases with e | ⟨a, be, e, ha⟩
  · rw [e]; exact .inl rfl
  · rw [e]
    dsimp only
    cases hr : s.readAnswer a be with
    | moveView w => exact .inr ⟨a, be, w, ha, hr, rfl⟩
    | word v => exact .inl rfl
    | memory p ps => exact .inl rfl

end

/-! ### Which treatment, and which window -/

theorem State.treatment_of_controlWord {s : State} {x : HostWrite} {j : Nat}
    (h : s.controlWord x.adr = some j) :
    s.treatment x = if j = 0 then requestOf x else if j = 1 then .acknowledge else .dropped := by
  unfold State.treatment
  rw [h]
  rcases j with _ | _ | j <;> simp

/-- Only a host window in RUN is written by the steering unit (R59). -/
theorem State.steered_facts {s : State} {x : HostWrite} {w : Fin 16} {i : Nat}
    (h : s.treatment x = .steered w i) :
    s.dev = .run ∧ (s.win w).enabled = true ∧ (s.win w).writer = .host ∧
      s.partAt w x.adr = .payload i := by
  unfold State.treatment at h
  cases hc : s.controlWord x.adr with
  | some j =>
    rw [hc] at h
    rcases j with _ | _ | j
    · simp only [requestOf] at h
      repeat' (split at h)
      all_goals cases h
    · cases h
    · cases h
  | none =>
    rw [hc] at h
    dsimp only at h
    split at h
    · next hs =>
      cases hw : s.windowAt x.adr with
      | none =>
        rw [hw] at h
        dsimp only at h
        cases hp : s.protectedAt x.adr with
        | none => rw [hp] at h; cases h
        | some p => rw [hp] at h; cases h
      | some v =>
        rw [hw] at h
        simp only [State.windowWrite] at h
        cases hpart : s.partAt v x.adr with
        | head => rw [hpart] at h; cases h
        | close => rw [hpart] at h; cases h
        | outside => rw [hpart] at h; cases h
        | payload n =>
          rw [hpart] at h
          dsimp only at h
          split at h
          · cases h
          · next hwr =>
            split at h
            · cases h
            · next hst =>
              cases h
              have hen := List.find?_some hw
              simp only [Bool.and_eq_true] at hen
              refine ⟨?_, hen.1, by simpa using hwr, hpart⟩
              simp only [State.steering, Bool.or_eq_true, beq_iff_eq] at hs
              exact hs.resolve_right hst
    · cases h

end Sys2Proof.Machine
end

