-- ==== Sys2Proof/Laws/Journal.lean ====
section
/-! SUPPORT. Event flags and the journal: flags only rise at a raise, what an event does at the arbiter when
it raises an entry or concerns one requester, and the journal record keeps its ranges. -/

namespace Sys2Proof.Machine

set_option Elab.async false

/-! ### Flags -/

/-- Every flag raised in `s` is raised in `t`. -/
def FlagsGrow (s t : State) : Prop := ∀ k, s.raised k = true → t.raised k = true

theorem FlagsGrow.refl (s : State) : FlagsGrow s s := fun _ h => h

theorem FlagsGrow.trans {s t u : State} (h : FlagsGrow s t) (h' : FlagsGrow t u) : FlagsGrow s u :=
  fun k hk => h' k (h k hk)

theorem FlagsGrow.of_eq {s t : State} (h : t.flags = s.flags) : FlagsGrow s t := fun k hk => by
  unfold State.raised at hk ⊢; rwa [h]

theorem FlagsKept.of_eq {l : List Kind} {s t : State} (h : t.flags = s.flags) : FlagsKept l s t :=
  fun k _ => by unfold State.raised; rw [h]

theorem FlagsKept.trans {l : List Kind} {s t u : State} (h : FlagsKept l s t)
    (h' : FlagsKept l t u) : FlagsKept l s u := fun k hk => (h' k hk).trans (h k hk)

theorem FlagsKept.mono {l m : List Kind} {s t : State} (h : FlagsKept l s t)
    (hl : ∀ k ∈ l, k ∈ m) : FlagsKept m s t := fun k hk => h k fun hm => hk (hl k hm)

theorem Kind.code_inj {j k : Kind} (h : j.code = k.code) : j = k := by
  cases j <;> cases k <;> first | rfl | cases h

theorem Kind.code_lt {k : Kind} (h : k ≠ .commit) : k.code < 17 := by
  cases k <;> first | decide | exact absurd rfl h

/-- A raise of a kind raises its own flag and no other (R179). -/
theorem State.raised_setFlag (s : State) (k j : Kind) :
    (s.setFlag k).raised j = (s.raised j || (decide (j = k) && decide (k ≠ .commit))) := by
  unfold State.raised State.setFlag
  cases k <;> cases j <;> simp [Kind.code]

theorem State.setFlag_grow (s : State) (k : Kind) : FlagsGrow s (s.setFlag k) := fun j hj => by
  rw [State.raised_setFlag, hj]; rfl

theorem State.setFlag_kept (s : State) (k : Kind) : FlagsKept [k] s (s.setFlag k) := fun j hj => by
  have : j ≠ k := fun e => hj (e ▸ List.mem_singleton.2 rfl)
  simp [State.raised_setFlag, this]

theorem State.loseEntries_kept (s : State) (n : Nat) :
    FlagsKept [.journalLost] s (s.loseEntries n) :=
  FlagsKept.trans (FlagsKept.of_eq rfl) (State.setFlag_kept _ _)

theorem State.loseEntries_grow (s : State) (n : Nat) : FlagsGrow s (s.loseEntries n) :=
  FlagsGrow.trans (FlagsGrow.of_eq rfl) (State.setFlag_grow _ _)

/-- An accepted entry leaves every flag, or raises JOURNAL_LOST when it is dropped (R186). -/
theorem State.acceptEntry_flags (s : State) (e : JEntry) :
    FlagsKept [.journalLost] s (s.acceptEntry e) ∧ FlagsGrow s (s.acceptEntry e) := by
  unfold State.acceptEntry
  split
  · dsimp only
    split
    · have h : (s.modJournal fun j => { j with queue := j.queue ++ [e] }).requestJournal.flags =
          s.flags := requestJournal_frame _ .flags (by decide)
      exact ⟨.of_eq h, .of_eq h⟩
    · exact ⟨.of_eq rfl, .of_eq rfl⟩
  · exact ⟨s.loseEntries_kept 1, s.loseEntries_grow 1⟩

/-- An offer raises at most JOURNAL_LOST (R185, R186, R188). -/
theorem State.offer_flags (s : State) (e : JEntry) :
    FlagsKept [.journalLost] s (s.offer e) ∧ FlagsGrow s (s.offer e) := by
  have same : FlagsKept [.journalLost] s s ∧ FlagsGrow s s := ⟨.of_eq rfl, .refl s⟩
  unfold State.offer
  split
  · exact same
  · split
    · exact same
    · exact same
    · exact same
    · split
      · have h := (s.modJournal fun j => { j with st := .recording }).acceptEntry_flags e
        exact ⟨FlagsKept.trans (.of_eq rfl) h.1, FlagsGrow.trans (.of_eq rfl) h.2⟩
      · exact same
    · split
      · exact s.acceptEntry_flags e
      · exact same
    · split
      · exact ⟨s.loseEntries_kept 1, s.loseEntries_grow 1⟩
      · exact same

/-- A raise raises its own flag, and no other but JOURNAL_LOST (R179, R186). -/
theorem State.raise_flags (s : State) (k : Kind) (source : Option Nat) (d1 d2 : Word)
    (hk : k ≠ .commit) :
    (s.raise k source d1 d2).raised k = true ∧ FlagsKept [k, .journalLost] s (s.raise k source d1 d2) ∧
      FlagsGrow s (s.raise k source d1 d2) := by
  have h := (s.setFlag k).offer_flags
    { kind := k, source := source, time := s.timeBase, detail1 := d1, detail2 := d2 }
  refine ⟨h.2 k ?_, ?_, (s.setFlag_grow k).trans h.2⟩
  · simp [State.raised_setFlag, hk]
  · exact ((s.setFlag_kept k).mono (by simp)).trans (h.1.mono (by simp))

/-! ### What an entry does at the arbiter -/

/-- What an entry offered asks of the arbiter (R185, R187): its first word, where it finds the queue empty
and joins it; otherwise nothing. -/
def OfferAsks (e : JEntry) (s t : State) : Prop :=
  t.port = s.port ∧
    (t.requests = s.requests ∧ (s.journal.queue = [] → t.journal.queue = []) ∨
      s.journal.queue = [] ∧ t.journal.queue ≠ [] ∧ ∃ r : Request, r.who = .journal ∧
        (s.journal.wordCount = 0 → r = s.firstWrite e) ∧ t.requests = s.requests ++ [r])

theorem OfferAsks.of_same {e : JEntry} {s t : State} (hp : t.port = s.port)
    (hr : t.requests = s.requests) (hj : s.journal.queue = [] → t.journal.queue = []) :
    OfferAsks e s t := ⟨hp, .inl ⟨hr, hj⟩⟩

theorem State.requestJournal_cons {s : State} {e : JEntry} {es : List JEntry}
    (h : s.journal.queue = e :: es) : s.requestJournal = s.join
      { who := .journal, write := true
        adr := memAdr (s.header.ringAddr + 16 * s.journal.writeIndex + 4 * s.journal.wordCount)
        be := 0xF, data := e.word s.journal.wordCount, urgent := false } := by
  unfold State.requestJournal
  rw [h]

theorem State.acceptEntry_asks (s : State) (e : JEntry) : OfferAsks e s (s.acceptEntry e) := by
  unfold State.acceptEntry
  by_cases hq : s.journal.queue = []
  · rw [if_pos (by simp [hq, Config.journalPlaces])]
    dsimp only
    rw [if_pos hq, State.requestJournal_cons (e := e) (es := []) (by simp [State.modJournal, hq])]
    refine ⟨rfl, .inr ⟨hq, by simp [State.modJournal, State.join], _, rfl, fun h0 => ?_, rfl⟩⟩
    simp [State.firstWrite, State.modJournal, h0]
  · split
    · exact .of_same rfl rfl fun h => absurd h hq
    · exact .of_same rfl rfl fun h => absurd h hq

/-- What an offer does at the arbiter (R185, R187). -/
theorem State.offer_asks (s : State) (e : JEntry) : OfferAsks e s (s.offer e) := by
  have same : OfferAsks e s s := .of_same rfl rfl id
  unfold State.offer
  split
  · exact same
  · split
    · exact same
    · exact same
    · exact same
    · split
      · exact (s.modJournal fun j => { j with st := .recording }).acceptEntry_asks e
      · exact same
    · split
      · exact s.acceptEntry_asks e
      · exact same
    · split
      · exact .of_same rfl rfl id
      · exact same

/-- A raise of one entry in an event that makes no other request does at the arbiter what
`OnlyJournalRequests` says (R73, R179, R187). -/
theorem State.raise_onlyJournalRequests {s u : State} (h : NoGrantDue s) (hj : u.journal = s.journal)
    (hh : u.header = s.header) (ht : u.timeBase = s.timeBase) (hp : u.port = s.port)
    (hr : u.requests = s.requests) (k : Kind) (source : Option Nat) (d1 d2 : Word) :
    OnlyJournalRequests
      { kind := k, source := source, time := s.timeBase, detail1 := d1, detail2 := d2 } s
      (u.raise k source d1 d2).arrivals := by
  have ha := (u.setFlag k).offer_asks
    { kind := k, source := source, time := u.timeBase, detail1 := d1, detail2 := d2 }
  have hj' : (u.raise k source d1 d2).arrivals.journal = (u.raise k source d1 d2).journal :=
    arrivals_frame _ .journal (by decide)
  unfold OnlyJournalRequests
  rw [hj']
  obtain ⟨hport, ⟨hreq, hq⟩ | ⟨hq, hq', r, hw, hf, hreq⟩⟩ := ha
  · have hn : NoGrantDue (u.raise k source d1 d2) :=
      h.of_eq (hport.trans hp) (hreq.trans hr)
    rw [State.arrivals_of_noGrantDue hn, if_neg fun c => c.2 (hq (hj ▸ c.1))]
    exact ⟨hport.trans hp, hreq.trans hr⟩
  · rw [if_pos ⟨hj ▸ hq, hq'⟩]
    refine ⟨r, hw, fun h0 => ?_, ?_⟩
    · rw [hf (by show u.journal.wordCount = 0; rw [hj]; exact h0)]
      unfold State.firstWrite
      rw [show (u.setFlag k).header = s.header from hh, show (u.setFlag k).journal = s.journal from hj,
        ht]
    · have hn : NoGrantDue { u.raise k source d1 d2 with requests := u.requests } :=
        h.of_eq (hport.trans hp) hr
      have he : u.raise k source d1 d2 =
          State.join { u.raise k source d1 d2 with requests := u.requests } r := by
        show _ = { u.raise k source d1 d2 with requests := u.requests ++ [r] }
        rw [← show (u.raise k source d1 d2).requests = u.requests ++ [r] from hreq]
      have hq := State.requested_join hn r
      rw [← he] at hq
      unfold Requested at hq ⊢
      have hport' : (u.raise k source d1 d2).port = s.port := hport.trans hp
      simpa only [hport', hr] using hq
/-! ### What one requester does at the arbiter -/

theorem OnlyRequestsOf.refl (q : Requester) (s : State) : OnlyRequestsOf q s s :=
  ⟨fun _ h _ => h, fun _ h => .inl h, fun _ h _ => h⟩

theorem OnlyRequestsOf.trans {q : Requester} {s t u : State} (h : OnlyRequestsOf q s t)
    (h' : OnlyRequestsOf q t u) : OnlyRequestsOf q s u :=
  ⟨fun r hr hw => h'.1 r (h.1 r hr hw) hw,
   fun r hr => (h'.2.1 r hr).elim (h.2.1 r) .inr,
   fun a ha hw => h'.2.2 a (h.2.2 a ha hw) hw⟩

theorem OnlyRequestsOf.of_eq {q : Requester} {s t : State} (hr : t.requests = s.requests)
    (hp : t.port = s.port) : OnlyRequestsOf q s t :=
  ⟨fun _ h _ => hr ▸ h, fun _ h => .inl (hr ▸ h), fun _ h _ => hp ▸ h⟩

theorem State.join_onlyRequestsOf {q : Requester} (s : State) {r : Request}
    (h : r.who = q ∨ r.who = .journal) : OnlyRequestsOf q s (s.join r) :=
  ⟨fun _ hm _ => List.mem_append_left _ hm,
   fun p hm => (List.mem_append.1 hm).imp id fun e => by rw [List.mem_singleton.1 e]; exact h,
   fun _ ha _ => ha⟩

theorem State.withdraw_onlyRequestsOf (s : State) (q : Requester) :
    OnlyRequestsOf q s (s.withdraw q) := by
  refine ⟨fun r hm hw => ?_, fun r hm => ?_, fun a ha hw => ?_⟩
  · exact List.mem_filter.2 ⟨hm, by simp [hw]⟩
  · exact .inl (List.mem_filter.1 hm).1
  · simp [State.withdraw, State.withdrawBy, ha, hw]

theorem State.offer_onlyRequestsOf (s : State) (q : Requester) (e : JEntry) :
    OnlyRequestsOf q s (s.offer e) := by
  obtain ⟨hp, ⟨hr, _⟩ | ⟨_, _, r, hw, _, hr⟩⟩ := s.offer_asks e
  · exact .of_eq hr hp
  · exact ((s.join_onlyRequestsOf (r := r) (.inr hw)).trans (.of_eq hr hp))

theorem State.raise_onlyRequestsOf (s : State) (q : Requester) (k : Kind) (source : Option Nat)
    (d1 d2 : Word) : OnlyRequestsOf q s (s.raise k source d1 d2) :=
  (s.setFlag k).offer_onlyRequestsOf q _

/-- The arrivals at the end of an event: a grant takes no request that was there before (R73). -/
theorem OnlyRequestsOf.arrivals {q : Requester} {s u : State} (h : OnlyRequestsOf q s u)
    (hn : NoGrantDue s) (hp : u.port = none → s.port = none) : OnlyRequestsOf q s u.arrivals := by
  rcases u.arrivals_cases with ⟨e, _⟩ | ⟨r, rs, hu, hr, e⟩
  · rw [e]; exact h
  · rw [e]
    refine ⟨fun p hm _ => ?_, fun p hm => h.2.1 p (List.mem_of_mem_erase hm), fun a ha _ => ?_⟩
    · rw [hn (hp hu)] at hm; cases hm
    · rw [hp hu] at ha; cases ha

/-! ### Ranges of the journal record -/

/-- The law of the journal record, for a ring of a given capacity. -/
def Journal.inRange (j : Journal) (capacity : Nat) : Prop :=
  j.queue.length ≤ 8 ∧ j.wordCount ≤ 3 ∧
    (j.st = .off ∧ j.queue = [] ∨ j.writeIndex < capacity) ∧ (j.queue = [] → j.wordCount = 0)

theorem journalLaw_iff (s : State) : JournalLaw s ↔ s.journal.inRange s.header.capacity := Iff.rfl

theorem JournalLaw.of_eq {s t : State} (h : JournalLaw s) (hj : t.journal = s.journal)
    (hh : t.header = s.header) : JournalLaw t := by
  rw [journalLaw_iff, hj, hh]; exact h

theorem State.loseEntries_law {s : State} (h : JournalLaw s) (n : Nat) : JournalLaw (s.loseEntries n) :=
  h

theorem State.requestJournal_law {s : State} (h : JournalLaw s) : JournalLaw s.requestJournal :=
  h.of_eq (requestJournal_frame s .journal (by decide)) (requestJournal_frame s .header (by decide))

theorem State.acceptEntry_law {s : State} (h : JournalLaw s) (hst : s.journal.st ≠ .off) (e : JEntry) :
    JournalLaw (s.acceptEntry e) := by
  have idx : s.journal.writeIndex < s.header.capacity := h.2.2.1.resolve_left fun o => hst o.1
  unfold State.acceptEntry
  split
  · next hl =>
    have h1 : JournalLaw (s.modJournal fun j => { j with queue := j.queue ++ [e] }) := by
      refine ⟨?_, h.2.1, .inr idx, fun he => absurd he (by simp)⟩
      have hl' : s.journal.queue.length < 8 := hl
      simp; omega
    dsimp only
    split
    · exact State.requestJournal_law h1
    · exact h1
  · exact h

/-- An offer keeps the journal's ranges (R185). -/
theorem State.offer_law {s : State} (h : JournalLaw s) (e : JEntry) : JournalLaw (s.offer e) := by
  unfold State.offer
  split
  · exact h
  · split
    · exact h
    · exact h
    · exact h
    · next hst =>
      split
      · have idx : s.journal.writeIndex < s.header.capacity :=
          h.2.2.1.resolve_left fun o => by rw [hst] at o; cases o.1
        have h1 : JournalLaw (s.modJournal fun j => { j with st := .recording }) :=
          ⟨h.1, h.2.1, .inr idx, h.2.2.2⟩
        exact State.acceptEntry_law h1 (fun o => by cases o) e
      · exact h
    · next hst =>
      split
      · exact State.acceptEntry_law h (by rw [hst]; nofun) e
      · exact h
    · split
      · exact h
      · exact h

/-- A raise keeps the journal's ranges. -/
theorem State.raise_law {s : State} (h : JournalLaw s) (k : Kind) (source : Option Nat) (d1 d2 : Word) :
    JournalLaw (s.raise k source d1 d2) :=
  State.offer_law (s := s.setFlag k) h _

end Sys2Proof.Machine
end

