-- ==== Sys2Proof/Laws/Pools.lean ====
section
/-! SUPPORT. The buffer pools: every operation on a pool keeps the law of R11 and R14. -/

namespace Sys2Proof.Machine

set_option Elab.async false

/-! ### Single buffers -/

theorem Buffer.release_st (h : Holder) (b : Buffer) :
    (b.release h).st = b.st ∨ b.st = .retired ∧ (b.release h).st = .free := by
  unfold Buffer.release
  split
  · dsimp only
    split
    · next c => exact .inr ⟨c.1, rfl⟩
    · exact .inl rfl
  · exact .inl rfl

theorem Buffer.release_has (h g : Holder) (b : Buffer) :
    (b.release h).holders.has g = (decide (g ≠ h) && b.holders.has g) := by
  unfold Buffer.release
  split
  · simp only [HolderSet.has_put]
    by_cases e : g = h <;> simp [e]
  · next c =>
    by_cases e : g = h
    · subst e; simp [c]
    · simp [e]

theorem Buffer.release_empty (h : Holder) (b : Buffer) (hb : b.holders = HolderSet.empty) :
    b.release h = b := by
  unfold Buffer.release
  simp [hb, HolderSet.has_empty]

/-- A buffer by itself keeps R14: with a holder it is READY or RETIRED, and RETIRED it has a holder. -/
def Buffer.held (b : Buffer) : Prop :=
  (b.holders ≠ HolderSet.empty → b.st = .ready ∨ b.st = .retired) ∧
    (b.st = .retired → b.holders ≠ HolderSet.empty)

theorem Buffer.held_release (h : Holder) {b : Buffer} (hb : b.held) : (b.release h).held := by
  by_cases he : b.holders = HolderSet.empty
  · rw [Buffer.release_empty h b he]; exact hb
  · unfold Buffer.release
    split
    · refine ⟨fun hn => ?_, fun hr => ?_⟩
      · dsimp only at hn ⊢
        have := hb.1 he
        simp only [hn, and_false, if_false]
        exact this
      · dsimp only at hr ⊢
        intro hn
        simp only [hn, and_true] at hr
        split at hr
        · cases hr
        · next c => exact c hr
    · exact hb

theorem Buffer.held_of_empty {b : Buffer} (he : b.holders = HolderSet.empty) (hr : b.st ≠ .retired) :
    b.held := ⟨fun h => absurd he h, fun h => absurd h hr⟩

theorem Buffer.held_supersede (b : Buffer) : b.supersede.held := by
  unfold Buffer.supersede
  by_cases he : b.holders = HolderSet.empty
  · exact Buffer.held_of_empty he (by simp [he])
  · exact ⟨fun _ => .inr (by simp [he]), fun _ => he⟩

theorem Buffer.supersede_st (b : Buffer) : b.supersede.st = .free ∨ b.supersede.st = .retired := by
  unfold Buffer.supersede
  dsimp only
  split
  · exact .inl rfl
  · exact .inr rfl

/-! ### Pools -/

/-- At most one buffer of the pool is in the state (R11). -/
def Pool.oneIn (p : Pool) (st : BufState) : Prop :=
  ∀ j k : Fin 8, p.bufs[j].st = st → p.bufs[k].st = st → j = k

theorem Pool.lawful_iff (p : Pool) : p.lawful ↔
    p.oneIn .filling ∧ p.oneIn .committing ∧ p.oneIn .ready ∧ ∀ k : Fin 8, p.bufs[k].held := by
  unfold Pool.lawful Pool.oneIn Buffer.held
  constructor
  · rintro ⟨f, c, r, h, t⟩; exact ⟨f, c, r, fun k => ⟨h k, t k⟩⟩
  · rintro ⟨f, c, r, h⟩; exact ⟨f, c, r, fun k => (h k).1, fun k => (h k).2⟩

theorem Pool.lawful_of_bufs {p q : Pool} (h : p.lawful) (e : q.bufs = p.bufs) : q.lawful := by
  unfold Pool.lawful at h ⊢; rw [e]; exact h

/-- A change of every buffer that puts none into FILLING, COMMITTING or READY keeps the law. -/
theorem Pool.lawful_of_all {p q : Pool} (h : p.lawful)
    (st : ∀ k : Fin 8, q.bufs[k].st = p.bufs[k].st ∨ q.bufs[k].st = .free ∨ q.bufs[k].st = .retired)
    (held : ∀ k : Fin 8, q.bufs[k].held) : q.lawful := by
  rw [Pool.lawful_iff] at h ⊢
  have back : ∀ (c : BufState), c ≠ .free → c ≠ .retired → ∀ k : Fin 8, q.bufs[k].st = c →
      p.bufs[k].st = c := fun c h1 h2 k hk => by
    rcases st k with e | e | e
    · exact e ▸ hk
    · exact absurd (hk.symm.trans e) h1
    · exact absurd (hk.symm.trans e) h2
  have keep : ∀ c : BufState, c ≠ .free → c ≠ .retired → p.oneIn c → q.oneIn c :=
    fun c h1 h2 hp j k hj hk => hp j k (back c h1 h2 j hj) (back c h1 h2 k hk)
  exact ⟨keep .filling nofun nofun h.1, keep .committing nofun nofun h.2.1,
    keep .ready nofun nofun h.2.2.1, held⟩

/-- A change of one buffer that does not put it into FILLING, COMMITTING or READY keeps the law. -/
theorem Pool.lawful_modBuf {p : Pool} (h : p.lawful) (k : Fin 8) (f : Buffer → Buffer)
    (st : (f p.bufs[k]).st = p.bufs[k].st ∨ (f p.bufs[k]).st = .free ∨ (f p.bufs[k]).st = .retired)
    (held : (f p.bufs[k]).held) : (p.modBuf k f).lawful := by
  refine Pool.lawful_of_all h (fun j => ?_) (fun j => ?_)
  · rw [Pool.bufs_modBuf]
    split
    · next e => subst e; exact st
    · exact .inl rfl
  · rw [Pool.bufs_modBuf]
    split
    · exact held
    · exact ((Pool.lawful_iff p).1 h).2.2.2 j

/-- Placing a holder on a READY buffer keeps the law (R15, R17, R19). -/
theorem Pool.lawful_hold {p : Pool} (h : p.lawful) {k : Fin 8} (hk : p.bufs[k].st = .ready)
    (g : Holder) : (p.modBuf k (Buffer.hold g)).lawful :=
  Pool.lawful_modBuf h k _ (.inl rfl)
    ⟨fun _ => .inl hk, fun e => by rw [show (Buffer.hold g p.bufs[k]).st = p.bufs[k].st from rfl, hk] at e; cases e⟩

/-- Releasing a holder everywhere keeps the law (R16). -/
theorem Pool.lawful_release {p : Pool} (h : p.lawful) (g : Holder) : (p.release g).lawful := by
  refine Pool.lawful_of_all h (fun k => ?_) (fun k => ?_)
  · unfold Pool.release
    rw [Pool.bufs_mapBufs]
    rcases Buffer.release_st g p.bufs[k] with e | ⟨_, e⟩
    · exact .inl e
    · exact .inr (.inl e)
  · unfold Pool.release
    rw [Pool.bufs_mapBufs]
    exact Buffer.held_release g (((Pool.lawful_iff p).1 h).2.2.2 k)

/-- Moving the host view keeps the law (R17). -/
theorem Pool.lawful_moveView {p : Pool} (h : p.lawful) : p.moveView.lawful := by
  unfold Pool.moveView
  split
  · next k hk => exact Pool.lawful_hold (Pool.lawful_release h _) (Pool.find_some hk) _
  · exact Pool.lawful_release h _

/-- The STOP teardown of a pool keeps the law (R25). -/
theorem Pool.lawful_stop {p : Pool} (h : p.lawful) : p.stop.lawful := by
  have hh := ((Pool.lawful_iff p).1 h).2.2.2
  refine Pool.lawful_of_bufs (p := p.mapBufs fun b =>
    if b.st = .filling ∨ b.st = .committing then b.discard else b.release .copySource) ?_ rfl
  refine Pool.lawful_of_all h (fun k => ?_) (fun k => ?_)
  · rw [Pool.bufs_mapBufs]
    split
    · exact .inr (.inl rfl)
    · rcases Buffer.release_st .copySource p.bufs[k] with e | ⟨_, e⟩
      · exact .inl e
      · exact .inr (.inl e)
  · rw [Pool.bufs_mapBufs]
    split
    · exact Buffer.held_of_empty rfl nofun
    · exact Buffer.held_release _ (hh k)

/-- The SETUP entry teardown of a pool keeps the law (R25). -/
theorem Pool.lawful_teardown {p : Pool} (h : p.lawful) : p.teardown.lawful := by
  have hh := ((Pool.lawful_iff p).1 h).2.2.2
  refine Pool.lawful_of_all h (fun k => ?_) (fun k => ?_)
  · unfold Pool.teardown
    rw [Pool.bufs_mapBufs]
    split
    · exact .inr (.inl rfl)
    · exact .inl rfl
  · unfold Pool.teardown
    rw [Pool.bufs_mapBufs]
    split
    · exact Buffer.held_of_empty rfl nofun
    · exact hh k

/-- Allocating a FILLING buffer keeps the law when the pool has none (R11, R20). -/
theorem Pool.lawful_allocate {p : Pool} (h : p.lawful) (hf : ∀ j : Fin 8, p.bufs[j].st ≠ .filling)
    (k : Fin 8) : (p.modBuf k Buffer.allocate).lawful := by
  rw [Pool.lawful_iff] at h ⊢
  have other : ∀ (c : BufState), c ≠ .filling → ∀ j : Fin 8,
      (p.modBuf k Buffer.allocate).bufs[j].st = c → p.bufs[j].st = c := fun c hc j hj => by
    rw [Pool.bufs_modBuf] at hj
    split at hj
    · exact absurd hj.symm hc
    · exact hj
  refine ⟨fun i j hi hj => ?_, fun i j hi hj => ?_, fun i j hi hj => ?_, fun j => ?_⟩
  · have is : ∀ j : Fin 8, (p.modBuf k Buffer.allocate).bufs[j].st = .filling → j = k := fun j hj => by
      rw [Pool.bufs_modBuf] at hj
      split at hj
      · assumption
      · exact absurd hj (hf j)
    rw [is i hi, is j hj]
  · exact h.2.1 i j (other .committing nofun i hi) (other .committing nofun j hj)
  · exact h.2.2.1 i j (other .ready nofun i hi) (other .ready nofun j hj)
  · rw [Pool.bufs_modBuf]
    split
    · exact Buffer.held_of_empty rfl nofun
    · exact h.2.2.2 j

/-- What a commit leaves of each buffer (R21): the committed buffer is READY with no holder, and every
other one keeps its state or leaves READY, or leaves RETIRED with its copy source. -/
theorem Pool.commit_bufs (p : Pool) (k : Fin 8) (seq : Half) (time : Word) (source : Option (Fin 8)) :
    (p.commit k seq time source).bufs[k] =
      { st := .ready, holders := HolderSet.empty, seq := seq, time := time, map := [] } ∧
    ∀ j : Fin 8, j ≠ k →
      (p.commit k seq time source).bufs[j] =
        (if p.find .ready = some j then Buffer.supersede else id)
          (if source = some j then p.bufs[j].release .copySource else p.bufs[j]) := by
  have e1 : Buffer.release .copySource
      { st := .ready, holders := HolderSet.empty, seq := seq, time := time, map := [] } =
      { st := .ready, holders := HolderSet.empty, seq := seq, time := time, map := [] } :=
    Buffer.release_empty _ _ rfl
  refine ⟨?_, fun j hj => ?_⟩
  · unfold Pool.commit
    cases source with
    | none =>
      cases hr : p.find .ready with
      | none => simp
      | some r =>
        by_cases hk : r = k
        · simp [hk]
        · have hk' : k ≠ r := fun e => hk e.symm
          simp [hk, hk']
    | some c =>
      cases hr : p.find .ready with
      | none => by_cases hc : k = c <;> simp [hc, e1]
      | some r =>
        by_cases hk : r = k
        · by_cases hc : k = c <;> simp [hk, hc, e1]
        · have hk' : k ≠ r := fun e => hk e.symm
          by_cases hc : k = c
          · subst hc; simp [hk, hk', e1]
          · simp [hk, hk', hc]
  · unfold Pool.commit
    cases source with
    | none =>
      cases hr : p.find .ready with
      | none => simp [hj]
      | some r =>
        by_cases hk : r = k
        · subst hk; simp [hj, Ne.symm hj]
        · by_cases hjr : j = r
          · subst hjr; simp [hj]
          · simp [hk, hj, hjr, Ne.symm hjr]
    | some c =>
      cases hr : p.find .ready with
      | none =>
        by_cases hc : j = c
        · subst hc; simp [hj]
        · simp [hj, hc, Ne.symm hc]
      | some r =>
        by_cases hk : r = k
        · subst hk
          by_cases hc : j = c
          · subst hc; simp [hj, Ne.symm hj]
          · simp [hj, Ne.symm hj, hc, Ne.symm hc]
        · by_cases hjr : j = r
          · subst hjr
            by_cases hc : j = c
            · subst hc; simp [hj]
            · simp [hj, hc, Ne.symm hc]
          · by_cases hc : j = c
            · subst hc; simp [hk, hj, hjr, Ne.symm hjr]
            · simp [hk, hj, hjr, Ne.symm hjr, hc, Ne.symm hc]

/-- A commit of buffer `k` gives a lawful pool, when the pool is lawful apart from `k` (R21). -/
theorem Pool.lawful_commit {p : Pool} (k : Fin 8) (seq : Half) (time : Word) (source : Option (Fin 8))
    (filling : ∀ i j : Fin 8, i ≠ k → j ≠ k → p.bufs[i].st = .filling → p.bufs[j].st = .filling → i = j)
    (committing : ∀ i j : Fin 8, i ≠ k → j ≠ k → p.bufs[i].st = .committing →
      p.bufs[j].st = .committing → i = j)
    (ready : p.oneIn .ready) (held : ∀ j : Fin 8, j ≠ k → p.bufs[j].held) :
    (p.commit k seq time source).lawful := by
  obtain ⟨hk, ho⟩ := Pool.commit_bufs p k seq time source
  have hkst : (p.commit k seq time source).bufs[k].st = .ready := by rw [hk]
  have other : ∀ j : Fin 8, j ≠ k →
      ((p.commit k seq time source).bufs[j].st = p.bufs[j].st ∨
        (p.commit k seq time source).bufs[j].st = .free ∨
        (p.commit k seq time source).bufs[j].st = .retired) ∧
      (p.commit k seq time source).bufs[j].held := fun j hj => by
    have inner : ∀ b : Buffer, b = (if source = some j then p.bufs[j].release .copySource
        else p.bufs[j]) → (b.st = p.bufs[j].st ∨ b.st = .free) ∧ b.held := fun b hb => by
      subst hb
      split
      · exact ⟨(Buffer.release_st _ _).imp_right And.right, Buffer.held_release _ (held j hj)⟩
      · exact ⟨.inl rfl, held j hj⟩
    obtain ⟨hs, hh⟩ := inner _ rfl
    rw [ho j hj]
    by_cases hr : p.find .ready = some j
    · simp only [hr, if_true]
      exact ⟨.inr (Buffer.supersede_st _), Buffer.held_supersede _⟩
    · simp only [hr, if_false, id]
      exact ⟨hs.imp_right .inl, hh⟩
  have back : ∀ (c : BufState), c ≠ .free → c ≠ .retired → ∀ j : Fin 8, j ≠ k →
      (p.commit k seq time source).bufs[j].st = c → p.bufs[j].st = c := fun c h1 h2 j hj hc => by
    rcases (other j hj).1 with e | e | e
    · exact e ▸ hc
    · exact absurd (hc.symm.trans e) h1
    · exact absurd (hc.symm.trans e) h2
  have notk : ∀ (c : BufState), c ≠ .ready → ∀ j : Fin 8,
      (p.commit k seq time source).bufs[j].st = c → j ≠ k := fun c hc j hj e => by
    subst e; exact hc (hj.symm.trans hkst)
  rw [Pool.lawful_iff]
  refine ⟨fun i j hi hj => ?_, fun i j hi hj => ?_, fun i j hi hj => ?_, fun j => ?_⟩
  · have ni := notk .filling nofun i hi
    have nj := notk .filling nofun j hj
    exact filling i j ni nj (back .filling nofun nofun i ni hi) (back .filling nofun nofun j nj hj)
  · have ni := notk .committing nofun i hi
    have nj := notk .committing nofun j hj
    exact committing i j ni nj (back .committing nofun nofun i ni hi) (back .committing nofun nofun j nj hj)
  · -- a READY buffer other than `k` would be the one the commit superseded
    have is : ∀ j : Fin 8, (p.commit k seq time source).bufs[j].st = .ready → j = k := fun j hj => by
      by_cases e : j = k
      · exact e
      · have hr := back .ready nofun nofun j e hj
        have hf : p.find .ready = some j := Pool.find_eq hr fun i hi => ready i j hi hr
        rw [ho j e] at hj
        simp only [hf, if_true] at hj
        rcases Buffer.supersede_st (if source = some j then p.bufs[j].release .copySource
          else p.bufs[j]) with c | c <;> rw [c] at hj <;> cases hj
    rw [is i hi, is j hj]
  · by_cases e : j = k
    · subst e
      rw [hk]
      exact Buffer.held_of_empty rfl nofun
    · exact (other j e).2

/-- A commit in a lawful pool keeps the law. -/
theorem Pool.lawful_commit_of_lawful {p : Pool} (h : p.lawful) (k : Fin 8) (seq : Half) (time : Word)
    (source : Option (Fin 8)) : (p.commit k seq time source).lawful := by
  have l := (Pool.lawful_iff p).1 h
  exact Pool.lawful_commit k seq time source (fun i j _ _ => l.1 i j) (fun i j _ _ => l.2.1 i j) l.2.2.1
    fun j _ => l.2.2.2 j

end Sys2Proof.Machine
end

