-- ==== Sys2Proof/Laws/PoolLaw.lean ====
section
/-! SUPPORT. The law of the buffer pools at the level of State: every shared operation keeps it. -/

namespace Sys2Proof.Machine

set_option Elab.async false

variable {s : State}

theorem PoolLaw.of_eq {t : State} (h : PoolLaw s) (e : t.pools = s.pools) : PoolLaw t := fun w => by
  rw [State.pool_congr e w]; exact h w

theorem PoolLaw.modPool (h : PoolLaw s) (w : Fin 16) (f : Pool → Pool) (hf : (f (s.pool w)).lawful) :
    PoolLaw (s.modPool w f) := fun v => by
  rw [State.pool_modPool]
  split
  · exact hf
  · exact h v

/-- A change of the rest of a pool record keeps the law. -/
theorem PoolLaw.modRecord (h : PoolLaw s) (w : Fin 16) (f : Pool → Pool)
    (hf : (f (s.pool w)).bufs = (s.pool w).bufs) : PoolLaw (s.modPool w f) :=
  h.modPool w f (Pool.lawful_of_bufs (h w) hf)

theorem PoolLaw.mapPools (h : PoolLaw s) (f : Fin 16 → Pool → Pool)
    (hf : ∀ w p, p.lawful → (f w p).lawful) : PoolLaw (s.mapPools f) := fun w => by
  rw [State.pool_mapPools]; exact hf w _ (h w)

theorem PoolLaw.modOut (h : PoolLaw s) (x : Fin 6) (f : OutLane → OutLane) : PoolLaw (s.modOut x f) :=
  h.of_eq rfl

theorem PoolLaw.modIn (h : PoolLaw s) (y : Fin 2) (f : InLane → InLane) : PoolLaw (s.modIn y f) :=
  h.of_eq rfl

theorem PoolLaw.join (h : PoolLaw s) (r : Request) : PoolLaw (s.join r) := h.of_eq rfl

theorem PoolLaw.raise (h : PoolLaw s) (k : Kind) (source : Option Nat) (d1 d2 : Word) :
    PoolLaw (s.raise k source d1 d2) := h.of_eq (raise_frame s _ _ _ _ .pools (by decide))

/-! ### Commits, copy-forward and closes -/

theorem State.commit_pools (s : State) (w : Fin 16) (k : Fin 8) (seq : Half) (time : Word)
    (source : Option (Fin 8)) (copied : Nat) :
    (s.commit w k seq time source copied).pools =
      ((s.modPool w fun p => p.commit k seq time source).noticeRecord w).pools := by
  unfold State.commit
  exact (offer_frame _ _ .pools (by decide)).trans (raiseResumed_frame _ _ _ .pools (by decide))

/-- A commit keeps the law when the pool it leaves is lawful (R21, R40, R42). -/
theorem PoolLaw.commit (h : ∀ v, v ≠ w → (s.pool v).lawful) {k : Fin 8} {seq : Half} {time : Word}
    {source : Option (Fin 8)} {copied : Nat} (hc : ((s.pool w).commit k seq time source).lawful) :
    PoolLaw (s.commit w k seq time source copied) := by
  refine PoolLaw.of_eq (s := (s.modPool w fun p => p.commit k seq time source).noticeRecord w) ?_
    (State.commit_pools s w k seq time source copied)
  intro v
  unfold State.noticeRecord
  rw [State.pool_modPool, State.pool_modPool, State.pool_modPool]
  by_cases e : v = w
  · simp only [e, if_true]
    exact Pool.lawful_of_bufs hc rfl
  · simp only [e, if_false]
    exact h v e

theorem PoolLaw.endJob (h : PoolLaw s) (w : Fin 16) (j : CopyJob) : PoolLaw (s.endJob w j) := by
  unfold State.endJob
  have h1 : PoolLaw (s.modPool w fun p => { p with job := none }) := h.modRecord w _ rfl
  exact PoolLaw.commit (fun v _ => h1 v) (Pool.lawful_commit_of_lawful (h1 w) _ _ _ _)

theorem PoolLaw.seek (h : PoolLaw s) (w : Fin 16) (j : CopyJob) : PoolLaw (s.seek w j) := by
  unfold State.seek
  split
  · exact (h.modRecord w _ rfl).join _
  · exact h.endJob w j

theorem PoolLaw.copyRead (h : PoolLaw s) (w : Fin 16) (v : Word) : PoolLaw (s.copyRead w v) := by
  unfold State.copyRead
  split
  · exact h
  · exact (h.modRecord w _ rfl).join _

theorem Pool.lawful_mark {p : Pool} (h : p.lawful) (k : Fin 8) (i : Nat) (e : Enables) :
    (p.modBuf k (Buffer.mark i e)).lawful :=
  Pool.lawful_modBuf h k _ (.inl rfl) (((Pool.lawful_iff p).1 h).2.2.2 k)

theorem PoolLaw.copyWrite (h : PoolLaw s) (w : Fin 16) (be : Enables) : PoolLaw (s.copyWrite w be) := by
  unfold State.copyWrite
  split
  · exact h
  · exact PoolLaw.seek (h.modPool w _ (Pool.lawful_mark (h w) _ _ _)) w _

theorem PoolLaw.markPayload (h : PoolLaw s) (m : Option PayloadRef) (be : Enables) :
    PoolLaw (s.markPayload m be) := by
  unfold State.markPayload
  split
  · exact h.modPool _ _ (Pool.lawful_mark (h _) _ _ _)
  · exact h

theorem PoolLaw.viewMove (h : PoolLaw s) (w : Fin 16) : PoolLaw (s.viewMove w) :=
  PoolLaw.of_eq (h.modPool w Pool.moveView (Pool.lawful_moveView (h w)))
    (answer_frame _ _ .pools (by decide))

/-! ### Lanes -/

theorem State.readyDraw_ready {s : State} {w : Fin 16} {k : Fin 8} {seq : Half} {time : Word}
    (h : s.readyDraw w = .buffer k seq time) : (s.pool w).bufs[k].st = .ready := by
  unfold State.readyDraw at h
  split at h
  · next j hj => cases h; exact Pool.find_some hj
  · cases h

/-- A decision that draws on a buffer draws on the READY one (R97, R15). -/
theorem State.drawFor_ready {s : State} {w : Fin 16} {k : Fin 8} {seq : Half} {time : Word}
    (h : (s.drawFor w).draw = .buffer k seq time) : (s.pool w).bufs[k].st = .ready := by
  unfold State.drawFor at h
  repeat' (split at h)
  all_goals first | exact State.readyDraw_ready h | cases h

theorem State.drawFor_window (s : State) (w : Fin 16) : (s.drawFor w).window = w := by
  unfold State.drawFor
  repeat' split
  all_goals rfl

/-- Holds change no buffer's state (R15). -/
theorem State.holdFor_st (s : State) (x : Fin 6) (c : Carried) (w : Fin 16) (k : Fin 8) :
    ((s.holdFor x c).pool w).bufs[k].st = (s.pool w).bufs[k].st := by
  unfold State.holdFor
  split
  · rw [State.pool_modPool]
    split
    · next e =>
      subst e
      rw [Pool.bufs_modBuf]
      split
      · next e => subst e; rfl
      · rfl
    · rfl
  · rfl
  · rfl

theorem PoolLaw.holdFor (h : PoolLaw s) (x : Fin 6) (c : Carried)
    (hc : ∀ k seq time, c.draw = .buffer k seq time → (s.pool c.window).bufs[k].st = .ready) :
    PoolLaw (s.holdFor x c) := by
  unfold State.holdFor
  split
  · next k seq time e => exact h.modPool _ _ (Pool.lawful_hold (h _) (hc k seq time e) _)
  · exact h
  · exact h

theorem PoolLaw.holds (x : Fin 6) (cs : List Carried) {s : State} (h : PoolLaw s)
    (hc : ∀ c ∈ cs, ∀ k seq time, c.draw = .buffer k seq time →
      (s.pool c.window).bufs[k].st = .ready) :
    PoolLaw (cs.foldl (fun t c => t.holdFor x c) s) ∧
      ∀ (w : Fin 16) (k : Fin 8), ((cs.foldl (fun t c => t.holdFor x c) s).pool w).bufs[k].st =
        (s.pool w).bufs[k].st := by
  induction cs generalizing s with
  | nil => exact ⟨h, fun _ _ => rfl⟩
  | cons c cs ih =>
    have h1 := h.holdFor x c (hc c (by simp))
    obtain ⟨hl, hst⟩ := ih h1 fun d hd k seq time e => by
      rw [State.holdFor_st]; exact hc d (by simp [hd]) k seq time e
    exact ⟨hl, fun w k => by rw [List.foldl_cons, hst, State.holdFor_st]⟩

/-- A frame start keeps the law, and changes no buffer's state (R111, R15). -/
theorem PoolLaw.frameStart (h : PoolLaw s) (x : Fin 6) (fly : Bool) :
    PoolLaw (s.frameStart x fly) ∧
      ∀ (w : Fin 16) (k : Fin 8), ((s.frameStart x fly).pool w).bufs[k].st =
        (s.pool w).bufs[k].st := by
  have h1 : PoolLaw (s.modOut x (OutLane.openFrame s.timeBase fly)) := h.modOut x _
  obtain ⟨hl, hst⟩ := PoolLaw.holds x
    (((s.modOut x (OutLane.openFrame s.timeBase fly)).carried x).map
      (s.modOut x (OutLane.openFrame s.timeBase fly)).drawFor) h1 fun c hc k seq time e => by
    obtain ⟨w, _, rfl⟩ := List.mem_map.1 hc
    rw [State.drawFor_window]
    exact State.drawFor_ready e
  have e : (s.frameStart x fly).pools = ((((s.modOut x (OutLane.openFrame s.timeBase fly)).carried x).map
      (s.modOut x (OutLane.openFrame s.timeBase fly)).drawFor).foldl (fun t c => t.holdFor x c)
      (s.modOut x (OutLane.openFrame s.timeBase fly))).pools := by
    unfold State.frameStart
    refine (tryFetch_frame _ _ .pools (by decide)).trans ?_
    rw [State.modOut_pools, State.modOut_pools]
  refine ⟨hl.of_eq e, fun w k => ?_⟩
  rw [State.pool_congr e w, hst w k]
  rfl

theorem PoolLaw.releaseLane (h : PoolLaw s) (x : Fin 6) : PoolLaw (s.releaseLane x) :=
  h.mapPools _ fun _ _ hp => Pool.lawful_release hp _

theorem PoolLaw.cutFrame (h : PoolLaw s) (x : Fin 6) : PoolLaw (s.cutFrame x) := by
  unfold State.cutFrame
  refine PoolLaw.raise (PoolLaw.modOut (PoolLaw.releaseLane (PoolLaw.of_eq h ?_) x) x _) _ _ _ _
  exact withdraw_frame s _ .pools (by decide)

theorem PoolLaw.edgeStart (h : PoolLaw s) (x : Fin 6) : PoolLaw (s.edgeStart x) :=
  (PoolLaw.frameStart (h.modOut x _) x false).1

theorem PoolLaw.masterStart (h : PoolLaw s) (x : Fin 6) : PoolLaw (s.masterStart x) :=
  (PoolLaw.frameStart (h.modOut x _) x false).1

theorem PoolLaw.pulseCheck (h : PoolLaw s) (x : Fin 6) : PoolLaw (s.pulseCheck x) :=
  h.of_eq (pulseCheck_frame s x .pools (by decide))

theorem PoolLaw.activeEdge (h : PoolLaw s) (x : Fin 6) : PoolLaw (s.activeEdge x) := by
  unfold State.activeEdge
  split
  · exact h
  · split
    · exact (h.modOut x _).edgeStart x
    · exact h
  · exact ((h.pulseCheck x).modOut x _).edgeStart x
  · split
    · exact ((h.pulseCheck x).cutFrame x).edgeStart x
    · exact h

theorem PoolLaw.flywheel (h : PoolLaw s) (x : Fin 6) : PoolLaw (s.flywheel x) := by
  unfold State.flywheel
  dsimp only
  split
  · exact (PoolLaw.frameStart (h.modOut x _) x true).1.raise _ _ _ _
  · exact (PoolLaw.frameStart (h.modOut x _) x true).1

/-! ### Inbound lanes -/

theorem State.inboundFree_some {s : State} {w : Fin 16} {k : Fin 8} (h : s.inboundFree w = some k) :
    (∀ j : Fin 8, (s.pool w).bufs[j].st ≠ .filling) ∧ s.freeBuffer w = some k := by
  unfold State.inboundFree at h
  split at h
  · cases h
  · next hn => exact ⟨Pool.find_none.1 hn, h⟩

theorem Pool.lawful_discard {p : Pool} (h : p.lawful) (k : Fin 8) :
    (p.modBuf k Buffer.discard).lawful :=
  Pool.lawful_modBuf h k _ (.inr (.inl rfl)) (Buffer.held_of_empty rfl nofun)

theorem PoolLaw.allocateHead (h : PoolLaw s) (y : Fin 2) (f : InFrame) :
    PoolLaw (s.allocateHead y f) := by
  unfold State.allocateHead
  split
  · exact h.of_eq (refuseFrame_frame s y f .pools (by decide))
  · split
    · exact h.of_eq (refuseFrame_frame s y f .pools (by decide))
    · next hk =>
      exact (h.modPool _ _ (Pool.lawful_allocate (h _) (State.inboundFree_some hk).1 _)).modIn y _

theorem PoolLaw.discardHead (h : PoolLaw s) (y : Fin 2) (f : InFrame) : PoolLaw (s.discardHead y f) := by
  unfold State.discardHead
  refine PoolLaw.modIn ?_ y _
  split
  · exact h.modPool _ _ (Pool.lawful_discard (h _) _)
  · exact h

theorem PoolLaw.commitHead (h : PoolLaw s) (y : Fin 2) (f : InFrame) (k : Fin 8) :
    PoolLaw (s.commitHead y f k) := by
  unfold State.commitHead
  split
  · exact h.modIn y _
  · next w hw =>
    split
    · have h1 : PoolLaw (s.modPool w fun p => { p with nextInbound := p.nextInbound + 1 }) :=
        h.modRecord w _ rfl
      exact (PoolLaw.commit (fun v _ => h1 v) (Pool.lawful_commit_of_lawful (h1 w) _ _ _ _)).modIn y _
    · exact PoolLaw.of_eq (h.discardHead y f) (raiseCut_frame _ _ _ _ .pools (by decide))

theorem PoolLaw.settleOnce {t : State} (h : PoolLaw s) {y : Fin 2} (e : s.settleOnce y = some t) :
    PoolLaw t := by
  unfold State.settleOnce at e
  split at e
  · cases e
  · split at e
    · split at e
      · cases e
      · cases e; exact h.discardHead y _
    · cases e; exact h.allocateHead y _
    · split at e
      · cases e; exact h.commitHead y _ _
      · cases e
    · cases e

theorem PoolLaw.settleLoop (n : Nat) (y : Fin 2) {s : State} (h : PoolLaw s) :
    PoolLaw (State.settleLoop n y s) := by
  induction n generalizing s with
  | zero => exact h
  | succ n ih =>
    unfold State.settleLoop
    split
    · exact h
    · next t e => exact ih (h.settleOnce e)

theorem PoolLaw.settle (h : PoolLaw s) (y : Fin 2) : PoolLaw (s.settle y) :=
  (PoolLaw.settleLoop _ y h).of_eq (tryWrite_frame _ y .pools (by decide))

theorem PoolLaw.discardCurrent (h : PoolLaw s) (y : Fin 2) : PoolLaw (s.discardCurrent y) := by
  unfold State.discardCurrent
  split
  · exact h
  · split
    · exact h.modIn y _
    · refine PoolLaw.settle (PoolLaw.modIn ?_ y _) y
      exact h.of_eq (unlist_frame s _ .pools (by decide))

theorem PoolLaw.inFrameStart (h : PoolLaw s) (y : Fin 2) : PoolLaw (s.inFrameStart y) := by
  unfold State.inFrameStart
  dsimp only
  split
  · exact (h.modIn y _).settle y
  · exact h.modIn y _

theorem PoolLaw.raiseCut (h : PoolLaw s) (y : Fin 2) (n : Option Half) (r : CutReason) :
    PoolLaw (s.raiseCut y n r) := h.of_eq (raiseCut_frame s y n r .pools (by decide))

theorem PoolLaw.inActiveEdge (h : PoolLaw s) (y : Fin 2) : PoolLaw (s.inActiveEdge y) := by
  unfold State.inActiveEdge
  split
  · exact h
  · split
    · exact h.inFrameStart y
    · exact h
  · exact ((h.raiseCut y _ _).discardCurrent y).inFrameStart y
  · exact h.inFrameStart y

theorem PoolLaw.inH1 (h : PoolLaw s) (y : Fin 2) (v : Half) : PoolLaw (s.inH1 y v) := by
  unfold State.inH1
  split
  · dsimp only
    split
    · exact h.modIn y _
    · exact ((((h.modIn y _).raiseCut y _ _).discardCurrent y).modIn y _)
  · exact h

theorem PoolLaw.inData (h : PoolLaw s) (y : Fin 2) (v : Half) : PoolLaw (s.inData y v) := by
  unfold State.inData
  split
  · exact h
  · dsimp only
    split
    · exact h.modIn y _
    · unfold State.rxHalf
      split
      · exact ((((h.modIn y _).raiseCut y _ _).discardCurrent y).modIn y _)
      · exact PoolLaw.of_eq ((h.modIn y _).modIn y _) (tryWrite_frame _ y .pools (by decide))

theorem PoolLaw.inCrc (h : PoolLaw s) (y : Fin 2) (v : Half) : PoolLaw (s.inCrc y v) := by
  unfold State.inCrc
  split
  · dsimp only
    split
    · exact ((h.modIn y _).modIn y _).settle y
    · exact (((h.modIn y _).modIn y _).raise _ _ _ _).discardCurrent y
  · exact h

theorem PoolLaw.halfWritten (h : PoolLaw s) (y : Fin 2) : PoolLaw (s.halfWritten y) := by
  unfold State.halfWritten
  refine PoolLaw.settle ?_ y
  split
  · split
    · exact h
    · exact (h.modPool _ _ (Pool.lawful_mark (h _) _ _ _)).modIn y _
    · exact h
  · exact h

end Sys2Proof.Machine
end

