-- ==== Sys2Proof/Laws/Commit.lean ====
section
/-! SUPPORT. Offers to the journal, and what a commit does beside its buffers. -/

namespace Sys2Proof.Machine

set_option Elab.async false

/-! ### Offers (R185–R187) -/

theorem State.requestJournal_journal (s : State) : s.requestJournal.journal = s.journal :=
  requestJournal_frame s .journal (by decide)

/-- What JW makes of an entry it accepts. -/
theorem State.acceptEntry_journal (s : State) (e : JEntry) :
    (s.acceptEntry e).journal =
      if s.journal.queue.length < 8 then { s.journal with queue := s.journal.queue ++ [e] }
      else { s.journal with lost := sat16 s.journal.lost 1 } := by
  unfold State.acceptEntry
  by_cases h : s.journal.queue.length < 8
  · rw [if_pos (show s.journal.queue.length < Config.journalPlaces from h), if_pos h]
    dsimp only
    split
    · rw [State.requestJournal_journal]; rfl
    · rfl
  · rw [if_neg (show ¬ s.journal.queue.length < Config.journalPlaces from h), if_neg h]
    rfl

/-- An accepted entry requests its word 0 exactly where it finds the queue empty (R185, R187). -/
theorem State.acceptEntry_requests (s : State) (e : JEntry) :
    (s.journal.queue ≠ [] → (s.acceptEntry e).requests = s.requests) ∧
    (s.journal.queue = [] → s.journal.wordCount = 0 →
      (s.acceptEntry e).requests = s.requests ++ [s.firstWrite e]) := by
  refine ⟨fun h => ?_, fun h hw => ?_⟩ <;> unfold State.acceptEntry
  · split
    · rfl
    · rfl
  · simp [h, hw, Config.journalPlaces, State.requestJournal, State.modJournal, State.join,
      State.firstWrite]

/-- The journal record after an offer depends on the record, the header and the entry alone. -/
theorem State.offer_journal_congr {s t : State} (hj : t.journal = s.journal) (hh : t.header = s.header)
    (e : JEntry) : (t.offer e).journal = (s.offer e).journal := by
  unfold State.offer State.selects State.triggers
  simp only [hj, hh]
  split
  · exact hj
  · split
    case h_1 => exact hj
    case h_2 => exact hj
    case h_3 => exact hj
    case h_4 =>
      split
      · rw [State.acceptEntry_journal, State.acceptEntry_journal]
        simp only [State.modJournal, hj]
        rfl
      · exact hj
    case h_5 =>
      split
      · rw [State.acceptEntry_journal, State.acceptEntry_journal, hj]
      · exact hj
    case h_6 =>
      split
      · simp only [State.loseEntries, State.modJournal, State.setFlag, hj]
      · exact hj

theorem State.offer_header (s : State) (e : JEntry) : (s.offer e).header = s.header :=
  offer_frame s e .header (by decide)

/-- The same of a list of offers. -/
theorem State.offers_journal_congr (l : List JEntry) {s t : State} (hj : t.journal = s.journal)
    (hh : t.header = s.header) :
    (l.foldl (fun u e => u.offer e) t).journal = (l.foldl (fun u e => u.offer e) s).journal := by
  induction l generalizing s t with
  | nil => exact hj
  | cons e l ih =>
    exact ih (State.offer_journal_congr hj hh e)
      ((State.offer_header t e).trans (hh.trans (State.offer_header s e).symm))

theorem State.offers_header (l : List JEntry) (s : State) :
    (l.foldl (fun u e => u.offer e) s).header = s.header := by
  induction l generalizing s with
  | nil => rfl
  | cons e l ih => exact (ih (s.offer e)).trans (State.offer_header s e)

/-- A raise leaves the journal as the offer of its entry does (R179). -/
theorem State.raise_journal (s : State) (k : Kind) (source : Option Nat) (d1 d2 : Word) :
    (s.raise k source d1 d2).journal =
      (s.offer { kind := k, source := source, time := s.timeBase, detail1 := d1, detail2 := d2 }).journal :=
  State.offer_journal_congr (s := s) (t := s.setFlag k) rfl rfl _

/-! ### Commits (R40, R42, R90) -/

/-- The cue state of a window depends on the windows, the groups and the marks alone (R91). -/
theorem State.cueState_congr {s t : State} (hw : t.windows = s.windows) (hg : t.groups = s.groups)
    (hp : ∀ v : Fin 16, (t.pool v).committed = (s.pool v).committed ∧
      (t.pool v).ownMark = (s.pool v).ownMark) (w : Fin 16) : t.cueState w = s.cueState w := by
  unfold State.cueState State.sameGroup
  simp only [State.win_congr hw, hg, (hp _).1, (hp _).2]

/-- The raises of RESUMED for the windows of a list that satisfy `p`, in its order. -/
theorem State.resumes (l : List (Fin 16)) (p : Fin 16 → Prop) [DecidablePred p] (d1 : Fin 16 → Word)
    (d2 : Word) (s : State) :
    let t := l.foldl (fun u v => if p v then u.raise .resumed (some v.val) (d1 v) d2 else u) s
    t.journal =
      (((l.filter fun v => decide (p v)).map fun v =>
        ({ kind := .resumed, source := some v.val, time := s.timeBase, detail1 := d1 v
           detail2 := d2 } : JEntry)).foldl (fun u e => u.offer e) s).journal ∧
    (t.raised .resumed = true ↔ s.raised .resumed = true ∨ ∃ v ∈ l, p v) ∧
    FlagsKept [.resumed, .journalLost] s t ∧ ChangesOnly [.flags, .journal, .requests] s t := by
  induction l generalizing s with
  | nil => exact ⟨rfl, by simp, fun _ _ => rfl, fun f _ => by cases f <;> exact rfl⟩
  | cons v l ih =>
    by_cases h : p v
    · obtain ⟨hj, hr, hk, hc⟩ := ih (s.raise .resumed (some v.val) (d1 v) d2)
      have hf := raise_frame s .resumed (some v.val) (d1 v) d2
      have ht : (s.raise .resumed (some v.val) (d1 v) d2).timeBase = s.timeBase :=
        hf .timeBase (by decide)
      have hfl := State.raise_flags s .resumed (some v.val) (d1 v) d2 (by decide)
      simp only [List.foldl_cons, h, if_true]
      refine ⟨?_, ?_, ?_, ?_⟩
      · rw [hj, ht]
        simp only [List.filter_cons, h, decide_true, if_true, List.map_cons, List.foldl_cons]
        refine State.offers_journal_congr _ (State.raise_journal s .resumed (some v.val) (d1 v) d2) ?_
        rw [State.offer_header]
        exact hf .header (by decide)
      · rw [hr]
        simp [hfl.1, h]
      · exact FlagsKept.trans (hfl.2.1.mono (by simp)) hk
      · exact hf.trans hc
    · obtain ⟨hj, hr, hk, hc⟩ := ih s
      simp only [List.foldl_cons, h, if_false]
      refine ⟨?_, ?_, hk, hc⟩
      · rw [hj]
        simp [h]
      · rw [hr]
        simp [h]

/-- A commit does what `CommitNoticed` says of it, seen from any earlier state of the event that agrees on
what it reads; of the flags only RESUMED and JOURNAL_LOST may change. -/
theorem State.commit_noticed {s0 s : State} (w : Fin 16) (k : Fin 8) (seq : Half) (time : Word)
    (source : Option (Fin 8)) (copied : Nat)
    (h0 : ChangesOnly [.queue, .waiting, .pools, .ins, .mem, .port] s0 s)
    (hm : ∀ v : Fin 16, (s.pool v).committed = (s0.pool v).committed ∧
      (s.pool v).ownMark = (s0.pool v).ownMark)
    (hc : (s.pool w).commits = (s0.pool w).commits) (ht : (s.pool w).timer = (s0.pool w).timer) :
    CommitNoticed w seq copied [] s0 (s.commit w k seq time source copied) ∧
      FlagsKept [.resumed, .journalLost] s0 (s.commit w k seq time source copied) := by
  have hwin := h0 .windows (by decide)
  have hcue : ∀ v, s.cueState v = s0.cueState v :=
    State.cueState_congr hwin (h0 .groups (by decide)) hm
  unfold State.commit
  dsimp only
  generalize h1 : (s.modPool w fun p => p.commit k seq time source).noticeRecord w = s1
  have f1 : ChangesOnly [.pools] s s1 := by
    rw [← h1]; exact (modPool_frame s w _).andThen (noticeRecord_frame _ w)
  have f01 : ChangesOnly [.queue, .waiting, .pools, .ins, .mem, .port] s0 s1 := h0.andThen f1
  obtain ⟨rj, rr, rk, rc⟩ := State.resumes allWindows
    (fun v => s.cueState v = .stale ∧ s1.cueState v = .live)
    (fun v => (s1.pool v).lastSeq.setWidth 32) (num w.val) s1
  have e2 : s1.raiseResumed s w = allWindows.foldl (fun u v =>
      if s.cueState v = .stale ∧ s1.cueState v = .live then
        u.raise .resumed (some v.val) ((s1.pool v).lastSeq.setWidth 32) (num w.val) else u) s1 := rfl
  rw [← e2] at rj rr rk rc
  generalize h2 : s1.raiseResumed s w = s2 at rj rr rk rc
  generalize he : ({ kind := .commit, source := some w.val, time := s.timeBase
                     detail1 := seq.setWidth 32, detail2 := num copied } : JEntry) = e
  have f2 : ChangesOnly [.flags, .journal, .requests] s1 (s2.offer e) := rc.trans (offer_frame _ _)
  have pool2 : ∀ v, (s2.offer e).pool v = s1.pool v := State.pool_congr (f2 .pools (by decide))
  have cue2 : ∀ v, (s2.offer e).cueState v = s1.cueState v :=
    State.cueState_congr (f2 .windows (by decide)) (f2 .groups (by decide)) fun v => by
      rw [pool2]; exact ⟨rfl, rfl⟩
  have time1 : s1.timeBase = s0.timeBase := f01 .timeBase (by decide)
  have time0 : s.timeBase = s0.timeBase := h0 .timeBase (by decide)
  have pw : s1.pool w =
      { (s.pool w).commit k seq time source with
        timer := if 0 < (s.win w).timeout then some (s.deadline (s.win w).timeout)
          else ((s.pool w).commit k seq time source).timer
        ownMark := false, committed := true } := by
    rw [← h1]
    unfold State.noticeRecord
    rw [State.pool_modPool, if_pos rfl, State.pool_modPool, if_pos rfl]
    rfl
  have rest : ((s.pool w).commit k seq time source).lastSeq = seq ∧
      ((s.pool w).commit k seq time source).commits = (s.pool w).commits + 1 ∧
      ((s.pool w).commit k seq time source).timer = (s.pool w).timer := by
    unfold Pool.commit
    dsimp only
    cases source <;> cases (s.pool w).find .ready <;> dsimp only <;>
      first | exact ⟨rfl, rfl, rfl⟩ | (split <;> exact ⟨rfl, rfl, rfl⟩)
  have flags2 := s2.offer_flags e
  have hoff : (s2.offer e).raised .resumed = s2.raised .resumed := flags2.1 .resumed (by decide)
  have s01 : ∀ j, s1.raised j = s0.raised j := fun j => by
    unfold State.raised; rw [f01 .flags (by decide)]
  refine ⟨⟨?_, ?_, ?_, ?_, ?_, ?_, ?_⟩, ?_⟩
  · rw [pool2, pw]; exact rest.1
  · rw [pool2, pw]; exact rest.2.1.trans (by rw [hc])
  · rw [pool2, pw]
  · rw [pool2, pw]
  · rw [pool2, pw]
    dsimp only
    rw [rest.2.2, ht, State.win_congr hwin]
    unfold State.deadline
    rw [time0]
  · rw [hoff, rr, s01]
    simp only [cue2, hcue, mem_allWindows, true_and]
  · rw [List.append_nil]
    unfold commitOffers
    rw [List.foldl_append]
    simp only [List.foldl_cons, List.foldl_nil, cue2, pool2]
    rw [time0] at he
    rw [he]
    refine State.offer_journal_congr ?_ ?_ e
    · rw [rj, time1]
      simp only [hcue]
      exact State.offers_journal_congr _ (f01 .journal (by decide)) (f01 .header (by decide))
    · rw [State.offers_header]
      exact (rc .header (by decide)).trans (f01 .header (by decide))
  · exact FlagsKept.trans (fun j _ => s01 j) (rk.trans (flags2.1.mono (by simp)))

/-- What `CommitNoticed` says stands through changes of other parts (R158: the frames in hand, an
allocation, a new request). -/
theorem CommitNoticed.of_eq {w : Fin 16} {seq : Half} {copied : Nat} {l : List JEntry} {s t u : State}
    (h : CommitNoticed w seq copied l s t) (hf : u.flags = t.flags) (hj : u.journal = t.journal)
    (hw : u.windows = t.windows) (hg : u.groups = t.groups)
    (hp : ∀ v : Fin 16, (u.pool v).lastSeq = (t.pool v).lastSeq ∧
      (u.pool v).commits = (t.pool v).commits ∧ (u.pool v).timer = (t.pool v).timer ∧
      (u.pool v).committed = (t.pool v).committed ∧ (u.pool v).ownMark = (t.pool v).ownMark) :
    CommitNoticed w seq copied l s u := by
  have hcue : ∀ v, u.cueState v = t.cueState v :=
    State.cueState_congr hw hg fun v => ⟨(hp v).2.2.2.1, (hp v).2.2.2.2⟩
  have ho : commitOffers w seq copied s u = commitOffers w seq copied s t := by
    unfold commitOffers; simp only [hcue, (hp _).1]
  unfold CommitNoticed State.raised at *
  simp only [hcue, ho, hf, hj, (hp w).1, (hp w).2.1, (hp w).2.2.1, (hp w).2.2.2.1, (hp w).2.2.2.2]
  exact h

/-- A raise after a commit in the same event offers its entry after those of the commit. -/
theorem CommitNoticed.raise {w : Fin 16} {seq : Half} {copied : Nat} {l : List JEntry} {s t : State}
    (h : CommitNoticed w seq copied l s t) (hh : t.header = s.header) (k : Kind) (hk : k ≠ .resumed)
    (source : Option Nat) (d1 d2 : Word) :
    CommitNoticed w seq copied
      (l ++ [{ kind := k, source := source, time := t.timeBase, detail1 := d1, detail2 := d2 }]) s
      (t.raise k source d1 d2) := by
  have hf := raise_frame t k source d1 d2
  have hp := State.pool_congr (hf .pools (by decide))
  have hcue : ∀ v, (t.raise k source d1 d2).cueState v = t.cueState v :=
    State.cueState_congr (hf .windows (by decide)) (hf .groups (by decide)) fun v => by
      rw [hp]; exact ⟨rfl, rfl⟩
  have ho : commitOffers w seq copied s (t.raise k source d1 d2) = commitOffers w seq copied s t := by
    unfold commitOffers; simp only [hcue, hp]
  have hr : (t.raise k source d1 d2).raised .resumed = t.raised .resumed := by
    unfold State.raise
    rw [((t.setFlag k).offer_flags _).1 .resumed (by decide), State.raised_setFlag]
    simp [Ne.symm hk]
  obtain ⟨a, b, c, d, e, f, g⟩ := h
  refine ⟨?_, ?_, ?_, ?_, ?_, ?_, ?_⟩
  · rw [hp]; exact a
  · rw [hp]; exact b
  · rw [hp]; exact c
  · rw [hp]; exact d
  · rw [hp]; exact e
  · rw [hr]; simpa only [hcue] using f
  · rw [ho, ← List.append_assoc, List.foldl_append, State.raise_journal]
    refine State.offer_journal_congr g ?_ _
    rw [State.offers_header]; exact hh

end Sys2Proof.Machine
end

