-- ==== Sys2Proof/Laws/Lanes.lean ====
section
/-! SUPPORT. The operations of a lane's run, its frame start and check 8, in the terms of the statements. -/

namespace Sys2Proof.Machine

set_option Elab.async false

/-! ### Buffers -/

theorem HolderSet.put_false {hs : HolderSet} {h : Holder} (hn : hs.has h = false) :
    hs.put h false = hs := by
  obtain ⟨l, v, c⟩ := hs
  cases h with
  | lane x =>
    have e : l[x.val] = false := hn
    simp only [HolderSet.put, ← e]
    congr 1
    exact Vector.set_getElem_self x.isLt
  | view => exact congrArg (HolderSet.mk l · c) hn.symm
  | copySource => exact congrArg (HolderSet.mk l v) hn.symm

theorem Buffer.release_eq_without (h : Holder) (b : Buffer) : b.release h = b.without h := by
  unfold Buffer.release Buffer.without
  cases hb : b.holders.has h
  · simp [HolderSet.put_false hb]
  · simp

theorem Pool.release_bufs (p : Pool) (h : Holder) (k : Fin 8) :
    (p.release h).bufs[k] = (p.bufs[k]).without h := by
  simp [Pool.release, Pool.mapBufs, Buffer.release_eq_without]

theorem Buffer.supersede_eq_afterCommit (b : Buffer) : b.supersede = b.afterCommit true := rfl

theorem Buffer.allocate_eq (b : Buffer) : b.allocate = Buffer.allocated := rfl

/-! ### Slot order and ordinals (R129, R130) -/

theorem State.insertBySlot_perm (s : State) (e : Nat) (l : List Nat) :
    (s.insertBySlot e l).Perm (e :: l) := by
  induction l with
  | nil => exact .refl _
  | cons f fs ih =>
    unfold State.insertBySlot
    split
    · exact .refl _
    · exact (ih.cons f).trans (.swap e f fs)

theorem State.insertBySlot_sorted (s : State) (e : Nat) {l : List Nat}
    (h : l.Pairwise fun a b => (s.entry a).slot ≤ (s.entry b).slot) :
    (s.insertBySlot e l).Pairwise fun a b => (s.entry a).slot ≤ (s.entry b).slot := by
  induction l with
  | nil => exact List.pairwise_singleton _ _
  | cons f fs ih =>
    obtain ⟨hf, hs⟩ := List.pairwise_cons.1 h
    unfold State.insertBySlot
    split
    · rename_i lt
      refine List.pairwise_cons.2 ⟨fun a ha => ?_, h⟩
      rcases List.mem_cons.1 ha with rfl | ha
      · exact Nat.le_of_lt lt
      · exact Nat.le_trans (Nat.le_of_lt lt) (hf a ha)
    · rename_i ge
      refine List.pairwise_cons.2 ⟨fun a ha => ?_, ih hs⟩
      rcases List.mem_cons.1 ((s.insertBySlot_perm e fs).mem_iff.1 ha) with rfl | ha
      · exact Nat.le_of_not_lt ge
      · exact hf a ha

/-- Inserting the entries of a list one by one keeps them all, in slot order. -/
theorem State.foldl_insertBySlot (s : State) (l acc : List Nat)
    (h : acc.Pairwise fun a b => (s.entry a).slot ≤ (s.entry b).slot) :
    (l.foldl (fun m e => s.insertBySlot e m) acc).Perm (acc ++ l) ∧
      (l.foldl (fun m e => s.insertBySlot e m) acc).Pairwise
        fun a b => (s.entry a).slot ≤ (s.entry b).slot := by
  induction l generalizing acc with
  | nil => simpa using h
  | cons e l ih =>
    obtain ⟨hp, hs⟩ := ih (s.insertBySlot e acc) (s.insertBySlot_sorted e h)
    refine ⟨hp.trans ?_, hs⟩
    exact ((s.insertBySlot_perm e acc).append_right l).trans List.perm_middle.symm

/-- The slot order is the lane's run, sorted by slot index (R129). -/
theorem State.slotOrder_spec (s : State) (x : Fin 6) :
    (s.slotOrder x).Perm (s.outRec x).run ∧
      (s.slotOrder x).Pairwise fun a b => (s.entry a).slot ≤ (s.entry b).slot := by
  simpa [State.slotOrder, LaneRec.run, LaneRec.runOf] using
    s.foldl_insertBySlot (s.outRec x).runOf [] List.Pairwise.nil

theorem foldl_addWindow (l acc : List (Fin 16)) :
    l.foldl addWindow acc = List.eraseDupsBy.loop (· == ·) l acc.reverse := by
  induction l generalizing acc with
  | nil => simp [List.eraseDupsBy.loop]
  | cons w l ih =>
    have step : List.eraseDupsBy.loop (· == ·) (w :: l) acc.reverse =
        if w ∈ acc then List.eraseDupsBy.loop (· == ·) l acc.reverse
        else List.eraseDupsBy.loop (· == ·) l (w :: acc.reverse) := by
      rw [List.eraseDupsBy.loop]
      have e : (acc.reverse.any fun b => w == b) = decide (w ∈ acc) := by
        rw [Bool.eq_iff_iff]
        simp
      by_cases h : w ∈ acc <;> simp only [e, h, decide_true, decide_false, if_true, if_false]
    rw [List.foldl_cons, ih, step]
    unfold addWindow
    by_cases h : w ∈ acc <;> simp [h]

/-- The windows a lane carries are those of its entries in slot order, each at its first place (R130). -/
theorem State.carried_eq (s : State) (x : Fin 6) :
    s.carried x = ((s.slotOrder x).map fun e => (s.entry e).window).eraseDups := by
  have h := foldl_addWindow ((s.slotOrder x).map fun e => (s.entry e).window) []
  rw [List.foldl_map] at h
  exact h

/-! ### Check 8 (R146, R170) -/

/-- A lane's run passes check 8: every entry does, and the run ends within the entry count. -/
theorem Image.badRun_none (im : Image) (m : Nat) :
    im.badRun m = none ↔
      (∀ e ∈ (im.lane m).runOf, im.entryOk m e = true) ∧
        (im.lane m).first + (im.lane m).count ≤ im.header.entryCount := by
  unfold Image.badRun
  dsimp only
  split
  · rename_i e h
    have := List.find?_some h
    have hm := List.mem_of_find?_eq_some h
    simp_all only [Bool.not_eq_true', reduceCtorEq, false_iff, not_and]
    intro ok
    simp [ok e hm] at this
  · rename_i h
    simp only [List.find?_eq_none, Bool.not_eq_true', Bool.not_eq_false] at h
    split <;> simp_all

end Sys2Proof.Machine
end

