-- ==== Sys2Proof/Laws/Fetch.lean ====
section
/-! SUPPORT. The words a frame in progress has yet to use, and how they go as its slots begin. -/

namespace Sys2Proof.Machine

set_option Elab.async false

/-- The entries of a list whose first slot is Dd or a later one. -/
def State.fromSlot (s : State) (l : List Nat) (d : Nat) : List Nat :=
  l.filter fun e => decide (d ≤ (s.entry e).slot)

theorem State.mem_slotOrder (s : State) (x : Fin 6) (e : Nat) :
    e ∈ s.slotOrder x ↔ e ∈ (s.outRec x).run := (s.slotOrder_spec x).1.mem_iff

theorem State.slotOrder_nodup (s : State) (x : Fin 6) : (s.slotOrder x).Nodup :=
  (s.slotOrder_spec x).1.nodup_iff.2 List.nodup_range'

/-- No entry begins at Dd: the entries from there on are those from the next slot on. -/
theorem State.fromSlot_skip (s : State) {l : List Nat} {d : Nat} (h : ∀ e ∈ l, (s.entry e).slot ≠ d) :
    s.fromSlot l d = s.fromSlot l (d + 1) := by
  unfold State.fromSlot
  refine List.filter_congr fun e he => ?_
  have := h e he
  simp only [decide_eq_decide]
  omega

/-- The one entry that begins at Dd is the first of those from there on. -/
theorem State.fromSlot_step (s : State) {l : List Nat} {d e : Nat}
    (sorted : l.Pairwise fun a b => (s.entry a).slot ≤ (s.entry b).slot) (nodup : l.Nodup)
    (he : e ∈ l) (hd : (s.entry e).slot = d) (one : ∀ f ∈ l, (s.entry f).slot = d → f = e) :
    s.fromSlot l d = e :: s.fromSlot l (d + 1) := by
  induction l with
  | nil => cases he
  | cons a l ih =>
    obtain ⟨ha, sorted⟩ := List.pairwise_cons.1 sorted
    obtain ⟨na, nodup⟩ := List.nodup_cons.1 nodup
    unfold State.fromSlot at ih ⊢
    by_cases e1 : a = e
    · subst e1
      have skip := s.fromSlot_skip (l := l) (d := d) fun f hf hs =>
        na (one f (by simp [hf]) hs ▸ hf)
      unfold State.fromSlot at skip
      simp [hd, skip]
    · have hl : e ∈ l := (List.mem_cons.1 he).resolve_left (Ne.symm e1)
      have low : (s.entry a).slot < d := by
        have h1 := ha e hl
        have h2 : (s.entry a).slot ≠ d := fun h => e1 (one a (by simp) h)
        omega
      have := ih sorted nodup hl fun f hf => one f (by simp [hf])
      rw [List.filter_cons_of_neg (by simp; omega), List.filter_cons_of_neg (by simp; omega), this]

/-- The words due, by the slot that begins next: with `begun` positions begun that is D(begun - 4). -/
theorem State.wordsDue_eq (s : State) (x : Fin 6) :
    s.wordsDue x = (s.fromSlot (s.slotOrder x) ((s.out x).begun - 4)).flatMap fun e =>
      List.replicate ((s.entry e).kind.words ((s.out x).drawOf (s.entry e).window)) e := by
  unfold State.wordsDue State.fromSlot
  congr 1
  refine List.filter_congr fun e _ => ?_
  simp only [decide_eq_decide]
  omega

/-- Two entries of a run do not begin at one slot (R145). -/
theorem State.slotsApart.one {s : State} {x : Fin 6} (h : s.slotsApart x) {e f : Nat}
    (he : e ∈ (s.outRec x).run) (hf : f ∈ (s.outRec x).run)
    (hs : (s.entry f).slot = (s.entry e).slot) : f = e := by
  have pos : ∀ k : EntryKind, 0 < k.slots := fun k => by cases k <;> decide
  have := pos (s.entry e).kind
  have := pos (s.entry f).kind
  refine Classical.byContradiction fun ne => ?_
  have := h.2 f hf e he ne
  omega

/-- The entry found at Dd is the first of those from there on; without one, none begins there (R115). -/
theorem State.entryAt_spec {s : State} {x : Fin 6} (h : s.slotsApart x) (d : Nat) :
    (∀ e, s.entryAt x d = some e →
      s.fromSlot (s.slotOrder x) d = e :: s.fromSlot (s.slotOrder x) (d + 1)) ∧
    (s.entryAt x d = none →
      s.fromSlot (s.slotOrder x) d = s.fromSlot (s.slotOrder x) (d + 1)) := by
  refine ⟨fun e he => ?_, fun hn => ?_⟩
  · have hm := (s.mem_slotOrder x e).1 (List.mem_of_find?_eq_some he)
    have hd : (s.entry e).slot = d := by simpa using List.find?_some he
    exact s.fromSlot_step (s.slotOrder_spec x).2 (s.slotOrder_nodup x)
      ((s.mem_slotOrder x e).2 hm) hd fun f hf hs =>
        h.one hm ((s.mem_slotOrder x f).1 hf) (hs.trans hd.symm)
  · refine s.fromSlot_skip fun e he hs => ?_
    have := List.find?_eq_none.1 hn e he
    simp [hs] at this

/-- At the frame end no word is due (R119). -/
theorem State.wordsDue_end {s : State} {x : Fin 6} (h : s.slotsApart x)
    (hb : (s.out x).begun = (s.outRec x).slots + 5) : s.wordsDue x = [] := by
  rw [State.wordsDue_eq, hb]
  have : s.fromSlot (s.slotOrder x) ((s.outRec x).slots + 5 - 4) = [] := by
    unfold State.fromSlot
    refine List.filter_eq_nil_iff.2 fun e he => ?_
    have := h.1 e ((s.mem_slotOrder x e).1 he)
    simp only [decide_eq_true_eq]
    omega
  rw [this]
  rfl

/-- The plan of a frame is the words due at its start, while a lane has begun no data slot (R112). -/
theorem State.planOf_entries (s : State) (x : Fin 6) (l : OutLane) :
    (s.planOf x l).map (fun p => p.entry) =
      (s.slotOrder x).flatMap fun e =>
        List.replicate ((s.entry e).kind.words (l.drawOf (s.entry e).window)) e := by
  unfold State.planOf State.entryPlan
  rw [List.map_flatMap]
  congr 1
  funext e
  rw [List.map_map]
  exact List.map_const'.trans (by rw [List.length_range])

end Sys2Proof.Machine
end

