-- ==== Sys2Proof/Laws/MapLaw.lean ====
section
/-! SUPPORT. Written maps: what the touched count counts, and the law of their form, which every shared
operation keeps. -/

namespace Sys2Proof.Machine

set_option Elab.async false

/-! ### One map (R29, R30) -/

/-- The form of a map: its words rise, and each has a written byte. -/
def WMap.rises (m : WMap) : Prop := m.Pairwise (fun c d => c.1 < d.1) ∧ ∀ c ∈ m, c.2 ≠ 0

theorem WMap.rises_nil : WMap.rises [] := ⟨.nil, nofun⟩

/-- The words of a map after an addition are those of the map and the word added. -/
theorem WMap.add_words (m : WMap) (i : Nat) (e : Enables) : ∀ c ∈ m.add i e, c.1 = i ∨ ∃ d ∈ m, d.1 = c.1 := by
  induction m with
  | nil =>
    intro c hc
    unfold WMap.add at hc
    split at hc
    · cases hc
    · left; simp only [List.mem_singleton] at hc; rw [hc]
  | cons p m ih =>
    intro c hc
    unfold WMap.add at hc
    split at hc
    · split at hc
      · exact .inr ⟨c, hc, rfl⟩
      · rcases List.mem_cons.1 hc with h | h
        · left; rw [h]
        · exact .inr ⟨c, h, rfl⟩
    · split at hc
      · rcases List.mem_cons.1 hc with h | h
        · exact .inr ⟨p, by simp, by rw [h]⟩
        · exact .inr ⟨c, by simp [h], rfl⟩
      · rcases List.mem_cons.1 hc with h | h
        · exact .inr ⟨p, by simp, by rw [h]⟩
        · rcases ih c h with h | ⟨d, hd, e⟩
          · exact .inl h
          · exact .inr ⟨d, by simp [hd], e⟩

theorem or_eq_zero_left : ∀ a e : Enables, a ||| e = 0 → a = 0 := by decide

theorem WMap.rises_add {m : WMap} (h : m.rises) (i : Nat) (e : Enables) : (m.add i e).rises := by
  induction m with
  | nil =>
    unfold WMap.add
    split
    · exact h
    · next he => exact ⟨List.pairwise_singleton _ _, by simpa using he⟩
  | cons p m ih =>
    obtain ⟨hp, hn⟩ := h
    obtain ⟨h1, h2⟩ := List.pairwise_cons.1 hp
    have hm : WMap.rises m := ⟨h2, fun c hc => hn c (by simp [hc])⟩
    unfold WMap.add
    split
    · next hi =>
      split
      · exact ⟨hp, hn⟩
      · next he =>
        refine ⟨List.pairwise_cons.2 ⟨fun c hc => ?_, hp⟩, fun c hc => ?_⟩
        · rcases List.mem_cons.1 hc with rfl | hc
          · exact hi
          · exact Nat.lt_trans hi (h1 c hc)
        · rcases List.mem_cons.1 hc with rfl | hc
          · exact he
          · exact hn c hc
    · split
      · refine ⟨List.pairwise_cons.2 ⟨fun c hc => h1 c hc, h2⟩, fun c hc => ?_⟩
        rcases List.mem_cons.1 hc with rfl | hc
        · intro h0
          exact hn p (by simp) (or_eq_zero_left _ _ h0)
        · exact hn c (by simp [hc])
      · next hlt hne =>
        refine ⟨List.pairwise_cons.2 ⟨fun c hc => ?_, (ih hm).1⟩, fun c hc => ?_⟩
        · rcases WMap.add_words m i e c hc with h | ⟨d, hd, h⟩
          · show p.1 < c.1
            omega
          · exact h ▸ h1 d hd
        · rcases List.mem_cons.1 hc with rfl | hc
          · exact hn p (by simp)
          · exact (ih hm).2 c hc

/-- A word of a rising map reads as its set. -/
theorem WMap.get_of_mem {m : WMap} (h : m.Pairwise (fun c d => c.1 < d.1)) {c : Nat × Enables}
    (hc : c ∈ m) : m.get c.1 = c.2 := by
  induction m with
  | nil => cases hc
  | cons p m ih =>
    obtain ⟨h1, h2⟩ := List.pairwise_cons.1 h
    unfold WMap.get
    rcases List.mem_cons.1 hc with rfl | hc
    · simp
    · rw [if_neg (Nat.ne_of_gt (h1 c hc)), ih h2 hc]

theorem WMap.mem_of_get {m : WMap} {i : Nat} (h : m.get i ≠ 0) : (i, m.get i) ∈ m := by
  induction m with
  | nil => exact absurd rfl h
  | cons p m ih =>
    unfold WMap.get at h ⊢
    split
    · next e => subst e; simp
    · next e =>
      rw [if_neg e] at h
      simp [ih h]

/-- The touched count is the number of words with a written byte (R30). -/
theorem WMap.touched_eq {m : WMap} (h : m.Pairwise (fun c d => c.1 < d.1)) {n : Nat}
    (hn : ∀ c ∈ m, c.1 < n) :
    m.touched = ((List.range n).filter fun i => decide (m.get i ≠ 0)).length := by
  unfold WMap.touched
  rw [← List.length_map (f := fun c : Nat × Enables => c.1)]
  refine List.Perm.length_eq ((List.perm_ext_iff_of_nodup ?_ ?_).2 fun i => ?_)
  · have hp : (m.filter fun p => decide (p.2 ≠ 0)).Pairwise (fun c d => c.1 < d.1) := h.filter _
    exact (List.pairwise_map.2 hp).imp Nat.ne_of_lt
  · exact List.nodup_range.filter _
  · simp only [List.mem_map, List.mem_filter, List.mem_range, decide_eq_true_eq]
    constructor
    · rintro ⟨c, ⟨hc, h0⟩, rfl⟩
      exact ⟨hn c hc, by rw [WMap.get_of_mem h hc]; exact h0⟩
    · rintro ⟨_, h0⟩
      exact ⟨(i, m.get i), ⟨WMap.mem_of_get h0, h0⟩, rfl⟩

/-! ### One pool -/

/-- Every map of the pool has the form. -/
def Pool.rises (p : Pool) : Prop := ∀ k : Fin 8, (p.bufs[k].map).rises

theorem Pool.rises_of_maps {p q : Pool} (h : p.rises)
    (e : ∀ k : Fin 8, q.bufs[k].map = [] ∨ q.bufs[k].map = p.bufs[k].map) : q.rises := fun k => by
  rcases e k with e | e <;> rw [e]
  · exact WMap.rises_nil
  · exact h k

theorem Pool.rises_of_bufs {p q : Pool} (h : p.rises) (e : q.bufs = p.bufs) : q.rises :=
  Pool.rises_of_maps h fun _ => .inr (by rw [e])

/-- A change of one buffer that empties its map or leaves it. -/
theorem Pool.rises_modBuf {p : Pool} (h : p.rises) (k : Fin 8) (f : Buffer → Buffer)
    (hf : ∀ b, (f b).map = [] ∨ (f b).map = b.map) : (p.modBuf k f).rises :=
  Pool.rises_of_maps h fun j => by
    rw [Pool.bufs_modBuf]
    split
    · next e => subst e; exact hf _
    · exact .inr rfl

/-- The same of every buffer. -/
theorem Pool.rises_mapBufs {p : Pool} (h : p.rises) (f : Buffer → Buffer)
    (hf : ∀ b, (f b).map = [] ∨ (f b).map = b.map) : (p.mapBufs f).rises :=
  Pool.rises_of_maps h fun j => by rw [Pool.bufs_mapBufs]; exact hf _

theorem Buffer.release_map (h : Holder) (b : Buffer) : (b.release h).map = b.map := by
  unfold Buffer.release; split <;> rfl

theorem Pool.rises_release {p : Pool} (h : p.rises) (g : Holder) : (p.release g).rises :=
  Pool.rises_mapBufs h _ fun b => .inr (b.release_map g)

theorem Pool.rises_moveView {p : Pool} (h : p.rises) : p.moveView.rises := by
  unfold Pool.moveView
  split
  · exact Pool.rises_modBuf (Pool.rises_release h _) _ _ fun _ => .inr rfl
  · exact Pool.rises_release h _

theorem Pool.rises_mark {p : Pool} (h : p.rises) (k : Fin 8) (i : Nat) (e : Enables) :
    (p.modBuf k (Buffer.mark i e)).rises := fun j => by
  rw [Pool.bufs_modBuf]
  split
  · next hj => subst hj; exact WMap.rises_add (h _) _ _
  · exact h j

theorem Pool.rises_commit {p : Pool} (h : p.rises) (k : Fin 8) (seq : Half) (time : Word)
    (source : Option (Fin 8)) : (p.commit k seq time source).rises :=
  Pool.rises_of_maps h fun j => by
    obtain ⟨hk, hj⟩ := p.commit_bufs k seq time source
    by_cases e : j = k
    · subst e; rw [hk]; exact .inl rfl
    · rw [hj j e]
      right
      have : ∀ b : Buffer, ((if p.find .ready = some j then Buffer.supersede else id) b).map = b.map :=
        fun b => by split <;> rfl
      rw [this]
      split
      · exact Buffer.release_map _ _
      · rfl

theorem Pool.rises_stop {p : Pool} (h : p.rises) : p.stop.rises :=
  Pool.rises_of_bufs (Pool.rises_mapBufs h (fun b =>
      if b.st = .filling ∨ b.st = .committing then b.discard else b.release .copySource) fun b => by
    split
    · exact .inl rfl
    · exact .inr (b.release_map _)) rfl

theorem Pool.rises_teardown {p : Pool} (h : p.rises) : p.teardown.rises :=
  Pool.rises_mapBufs h _ fun b => by split <;> exact .inr rfl

/-- A pool at RUN entry has empty maps. -/
theorem Pool.rises_start (p : Pool) (r : WindowRec) (deadline : Word) : (p.start r deadline).rises := by
  have h0 : Pool.rises { Pool.zero with
      bufs := (p.mapBufs Buffer.clear).bufs
      timer := if r.enabled && decide (0 < r.timeout) then some deadline else none } := fun k => by
    have : ((p.mapBufs Buffer.clear).bufs[k]).map = [] := by rw [Pool.bufs_mapBufs]; rfl
    show ((p.mapBufs Buffer.clear).bufs[k]).map.rises
    rw [this]; exact WMap.rises_nil
  unfold Pool.start
  dsimp only
  split
  · exact Pool.rises_modBuf h0 _ _ fun _ => .inl rfl
  · exact h0

/-! ### State -/

variable {s : State}

theorem mapLaw_iff (s : State) : MapLaw s ↔ ∀ w, (s.pool w).rises := Iff.rfl

theorem MapLaw.of_eq {t : State} (h : MapLaw s) (e : t.pools = s.pools) : MapLaw t := fun w => by
  rw [State.pool_congr e w]; exact h w

theorem MapLaw.modPool (h : MapLaw s) (w : Fin 16) (f : Pool → Pool) (hf : (f (s.pool w)).rises) :
    MapLaw (s.modPool w f) := (mapLaw_iff _).2 fun v => by
  rw [State.pool_modPool]
  split
  · exact hf
  · exact h v

/-- A change of the rest of a pool record keeps the law. -/
theorem MapLaw.modRecord (h : MapLaw s) (w : Fin 16) (f : Pool → Pool)
    (hf : (f (s.pool w)).bufs = (s.pool w).bufs) : MapLaw (s.modPool w f) :=
  h.modPool w f (Pool.rises_of_bufs (h w) hf)

theorem MapLaw.mapPools (h : MapLaw s) (f : Fin 16 → Pool → Pool)
    (hf : ∀ w p, p.rises → (f w p).rises) : MapLaw (s.mapPools f) := (mapLaw_iff _).2 fun w => by
  rw [State.pool_mapPools]; exact hf w _ (h w)

theorem MapLaw.modIn (h : MapLaw s) (y : Fin 2) (f : InLane → InLane) : MapLaw (s.modIn y f) :=
  h.of_eq rfl

theorem MapLaw.modOut (h : MapLaw s) (x : Fin 6) (f : OutLane → OutLane) : MapLaw (s.modOut x f) :=
  h.of_eq rfl

theorem MapLaw.join (h : MapLaw s) (r : Request) : MapLaw (s.join r) := h.of_eq rfl

theorem MapLaw.raise (h : MapLaw s) (k : Kind) (source : Option Nat) (d1 d2 : Word) :
    MapLaw (s.raise k source d1 d2) := h.of_eq (raise_frame s _ _ _ _ .pools (by decide))

theorem MapLaw.commit (h : MapLaw s) (w : Fin 16) (k : Fin 8) (seq : Half) (time : Word)
    (source : Option (Fin 8)) (copied : Nat) : MapLaw (s.commit w k seq time source copied) :=
  MapLaw.of_eq ((h.modPool w _ (Pool.rises_commit (h w) k seq time source)).modRecord w _ rfl)
    (State.commit_pools s w k seq time source copied)

theorem MapLaw.seek (h : MapLaw s) (w : Fin 16) (j : CopyJob) : MapLaw (s.seek w j) := by
  unfold State.seek
  split
  · exact (h.modRecord w _ rfl).join _
  · exact (h.modRecord w _ rfl).commit w _ _ _ _ _

theorem MapLaw.copyRead (h : MapLaw s) (w : Fin 16) (v : Word) : MapLaw (s.copyRead w v) := by
  unfold State.copyRead
  split
  · exact h
  · exact (h.modRecord w _ rfl).join _

theorem MapLaw.copyWrite (h : MapLaw s) (w : Fin 16) (be : Enables) : MapLaw (s.copyWrite w be) := by
  unfold State.copyWrite
  split
  · exact h
  · exact MapLaw.seek (h.modPool w _ (Pool.rises_mark (h w) _ _ _)) w _

theorem MapLaw.markPayload (h : MapLaw s) (m : Option PayloadRef) (be : Enables) :
    MapLaw (s.markPayload m be) := by
  unfold State.markPayload
  split
  · exact h.modPool _ _ (Pool.rises_mark (h _) _ _ _)
  · exact h

theorem MapLaw.viewMove (h : MapLaw s) (w : Fin 16) : MapLaw (s.viewMove w) :=
  MapLaw.of_eq (h.modPool w Pool.moveView (Pool.rises_moveView (h w)))
    (answer_frame _ _ .pools (by decide))

/-- A change of one buffer that leaves its map. -/
theorem MapLaw.modBuf (h : MapLaw s) (w : Fin 16) (k : Fin 8) (f : Buffer → Buffer)
    (hf : ∀ b, (f b).map = b.map) : MapLaw (s.modPool w fun p => p.modBuf k f) :=
  h.modPool w _ (Pool.rises_modBuf (h w) k f fun b => .inr (hf b))

theorem MapLaw.acceptClose (h : MapLaw s) (w : Fin 16) (k0 k1 : Fin 8) (seq : Half) :
    MapLaw (s.acceptClose w k0 k1 seq) := by
  unfold State.acceptClose
  refine h.modPool w _ (Pool.rises_of_bufs (p := ((s.pool w).modBuf k0 fun b =>
    { b with seq := seq, time := s.timeBase }).modBuf k1 Buffer.allocate) ?_ rfl)
  refine Pool.rises_modBuf (Pool.rises_modBuf (h w) k0 _ ?_) k1 Buffer.allocate ?_
  · exact fun _ => .inr rfl
  · exact fun _ => .inl rfl

theorem MapLaw.startJob (h : MapLaw s) (w : Fin 16) (k0 : Fin 8) (seq : Half) (time : Word) :
    MapLaw (s.startJob w k0 seq time) := by
  unfold State.startJob
  dsimp only
  refine MapLaw.seek ?_ w _
  have hold : ∀ r, MapLaw (s.modPool w fun p => p.modBuf r (Buffer.hold .copySource)) := fun r =>
    h.modBuf w r _ fun _ => rfl
  have commit : ∀ {t : State}, MapLaw t →
      MapLaw (t.modPool w fun p => p.modBuf k0 fun b => { b with st := .committing }) := fun ht => by
    refine ht.modBuf w k0 _ ?_
    exact fun _ => rfl
  cases (s.pool w).find .ready with
  | some r => exact commit (hold r)
  | none => exact commit h

/-- A close keeps the law (R31–R35). -/
theorem MapLaw.decideClose (h : MapLaw s) (w : Fin 16) (x : HostWrite) : MapLaw (s.decideClose w x) := by
  unfold State.decideClose
  split
  · next k0 k1 _ _ _ =>
    dsimp only
    split
    · exact (h.acceptClose w k0 k1 (closeSeq x)).commit w k0 (closeSeq x) s.timeBase none 0
    · exact (h.acceptClose w k0 k1 (closeSeq x)).startJob w k0 (closeSeq x) s.timeBase
  · exact h
  · exact MapLaw.raise (h.modRecord w _ rfl) _ _ _ _

theorem MapLaw.holdFor (h : MapLaw s) (x : Fin 6) (c : Carried) : MapLaw (s.holdFor x c) := by
  unfold State.holdFor
  split
  · exact h.modPool _ _ (Pool.rises_modBuf (h _) _ _ fun _ => .inr rfl)
  · exact h
  · exact h

theorem MapLaw.holds (x : Fin 6) (cs : List Carried) {s : State} (h : MapLaw s) :
    MapLaw (cs.foldl (fun t c => t.holdFor x c) s) := by
  induction cs generalizing s with
  | nil => exact h
  | cons c cs ih =>
    exact ih (h.holdFor x c)

theorem MapLaw.frameStart (h : MapLaw s) (x : Fin 6) (fly : Bool) : MapLaw (s.frameStart x fly) := by
  unfold State.frameStart
  refine MapLaw.of_eq (MapLaw.modOut ?_ x _) (tryFetch_frame _ x .pools (by decide))
  exact MapLaw.modOut (MapLaw.holds x _ (h.modOut x _)) x _

theorem MapLaw.releaseLane (h : MapLaw s) (x : Fin 6) : MapLaw (s.releaseLane x) :=
  h.mapPools _ fun _ _ hp => Pool.rises_release hp _

theorem MapLaw.cutFrame (h : MapLaw s) (x : Fin 6) : MapLaw (s.cutFrame x) := by
  unfold State.cutFrame
  refine MapLaw.raise (MapLaw.modOut (MapLaw.releaseLane (MapLaw.of_eq h ?_) x) x _) _ _ _ _
  exact withdraw_frame s _ .pools (by decide)

theorem MapLaw.activeEdge (h : MapLaw s) (x : Fin 6) : MapLaw (s.activeEdge x) := by
  have check : MapLaw (s.pulseCheck x) := h.of_eq (pulseCheck_frame s x .pools (by decide))
  unfold State.activeEdge
  split
  · exact h
  · split
    · exact MapLaw.frameStart ((h.modOut x _).modOut x _) x false
    · exact h
  · exact MapLaw.frameStart ((check.modOut x _).modOut x _) x false
  · split
    · exact MapLaw.frameStart ((check.cutFrame x).modOut x _) x false
    · exact h

theorem MapLaw.flywheel (h : MapLaw s) (x : Fin 6) : MapLaw (s.flywheel x) := by
  unfold State.flywheel
  dsimp only
  split
  · exact (MapLaw.frameStart (h.modOut x _) x true).raise _ _ _ _
  · exact MapLaw.frameStart (h.modOut x _) x true

/-! ### Inbound lanes -/

theorem MapLaw.allocateHead (h : MapLaw s) (y : Fin 2) (f : InFrame) :
    MapLaw (s.allocateHead y f) := by
  unfold State.allocateHead
  split
  · exact h.of_eq (refuseFrame_frame s y f .pools (by decide))
  · split
    · exact h.of_eq (refuseFrame_frame s y f .pools (by decide))
    · exact (h.modPool _ _ (Pool.rises_modBuf (h _) _ _ fun _ => .inl rfl)).modIn y _

theorem MapLaw.discardHead (h : MapLaw s) (y : Fin 2) (f : InFrame) : MapLaw (s.discardHead y f) := by
  unfold State.discardHead
  refine MapLaw.modIn ?_ y _
  split
  · exact h.modPool _ _ (Pool.rises_modBuf (h _) _ _ fun _ => .inl rfl)
  · exact h

theorem MapLaw.commitHead (h : MapLaw s) (y : Fin 2) (f : InFrame) (k : Fin 8) :
    MapLaw (s.commitHead y f k) := by
  unfold State.commitHead
  split
  · exact h.modIn y _
  · next w hw =>
    split
    · exact MapLaw.modIn (MapLaw.commit (h.modRecord w _ rfl) w _ _ _ _ _) y _
    · exact MapLaw.of_eq (h.discardHead y f) (raiseCut_frame _ _ _ _ .pools (by decide))

theorem MapLaw.settleOnce {t : State} (h : MapLaw s) {y : Fin 2} (e : s.settleOnce y = some t) :
    MapLaw t := by
  unfold State.settleOnce at e
  split at e
  · cases e
  · split at e
    · split at e
      · cases e
      · cases e; exact h.discardHead y _
    · cases e; exact h.allocateHead y _
    · split at e
      · cases e; exact h.commitHead y _ _
      · cases e
    · cases e

theorem MapLaw.settleLoop (n : Nat) (y : Fin 2) {s : State} (h : MapLaw s) :
    MapLaw (State.settleLoop n y s) := by
  induction n generalizing s with
  | zero => exact h
  | succ n ih =>
    unfold State.settleLoop
    split
    · exact h
    · next t e => exact ih (h.settleOnce e)

theorem MapLaw.settle (h : MapLaw s) (y : Fin 2) : MapLaw (s.settle y) :=
  (MapLaw.settleLoop _ y h).of_eq (tryWrite_frame _ y .pools (by decide))

theorem MapLaw.discardCurrent (h : MapLaw s) (y : Fin 2) : MapLaw (s.discardCurrent y) := by
  unfold State.discardCurrent
  split
  · exact h
  · split
    · exact h.modIn y _
    · refine MapLaw.settle (MapLaw.modIn ?_ y _) y
      exact h.of_eq (unlist_frame s _ .pools (by decide))

theorem MapLaw.inFrameStart (h : MapLaw s) (y : Fin 2) : MapLaw (s.inFrameStart y) := by
  unfold State.inFrameStart
  dsimp only
  split
  · exact (h.modIn y _).settle y
  · exact h.modIn y _

theorem MapLaw.raiseCut (h : MapLaw s) (y : Fin 2) (n : Option Half) (r : CutReason) :
    MapLaw (s.raiseCut y n r) := h.of_eq (raiseCut_frame s y n r .pools (by decide))

theorem MapLaw.inActiveEdge (h : MapLaw s) (y : Fin 2) : MapLaw (s.inActiveEdge y) := by
  unfold State.inActiveEdge
  split
  · exact h
  · split
    · exact h.inFrameStart y
    · exact h
  · exact ((h.raiseCut y _ _).discardCurrent y).inFrameStart y
  · exact h.inFrameStart y

theorem MapLaw.inH1 (h : MapLaw s) (y : Fin 2) (v : Half) : MapLaw (s.inH1 y v) := by
  unfold State.inH1
  split
  · dsimp only
    split
    · exact h.modIn y _
    · exact ((((h.modIn y _).raiseCut y _ _).discardCurrent y).modIn y _)
  · exact h

theorem MapLaw.inData (h : MapLaw s) (y : Fin 2) (v : Half) : MapLaw (s.inData y v) := by
  unfold State.inData
  split
  · exact h
  · dsimp only
    split
    · exact h.modIn y _
    · unfold State.rxHalf
      split
      · exact ((((h.modIn y _).raiseCut y _ _).discardCurrent y).modIn y _)
      · exact MapLaw.of_eq ((h.modIn y _).modIn y _) (tryWrite_frame _ y .pools (by decide))

theorem MapLaw.inCrc (h : MapLaw s) (y : Fin 2) (v : Half) : MapLaw (s.inCrc y v) := by
  unfold State.inCrc
  split
  · dsimp only
    split
    · exact ((h.modIn y _).modIn y _).settle y
    · exact (((h.modIn y _).modIn y _).raise _ _ _ _).discardCurrent y
  · exact h

theorem MapLaw.halfWritten (h : MapLaw s) (y : Fin 2) : MapLaw (s.halfWritten y) := by
  unfold State.halfWritten
  refine MapLaw.settle ?_ y
  split
  · split
    · exact h
    · exact (h.modPool _ _ (Pool.rises_mark (h _) _ _ _)).modIn y _
    · exact h
  · exact h

end Sys2Proof.Machine
end

