-- ==== Sys2Proof/WellFormed.lean ====
section
/-! DEFINITION. The check of a command's operands. -/

namespace Sys2Proof

/-- A host transfer names a word address: a byte address that is a multiple of 4
(00_scope.md §5.1, section 3.2). The other operands are in range by their types. -/
def Instr.wellFormed : Instr → Bool
  | .hostWritePresented adr _ _ => adr.toNat % 4 == 0
  | .hostReadPresented adr _ => adr.toNat % 4 == 0
  | .passThroughWrite => true
  | .payloadWriteSteered => true
  | .refusedWrite => true
  | .closeRequest => true
  | .start => true
  | .stop => true
  | .unknownRequest => true
  | .acknowledge => true
  | .controlWriteDropped => true
  | .hostReadTaken => true
  | .headWordReadViewMove => true
  | .hostAccessPerformed => true
  | .laneFetchPerformed => true
  | .inboundWritePerformed => true
  | .copyReadPerformed => true
  | .copyWritePerformed => true
  | .loadReadPerformed => true
  | .journalWordPerformed => true
  | .timerExpiry _ => true
  | .startInstantReached => true
  | .masterScheduledStart _ => true
  | .outboundActiveEdge _ _ => true
  | .flywheelStart _ => true
  | .slotBegin _ => true
  | .frameEnd _ => true
  | .inboundActiveEdge _ _ => true
  | .inboundH0Received _ _ => true
  | .inboundH1Received _ _ => true
  | .inboundDataSlotReceived _ _ => true
  | .inboundCrcSlotReceived _ _ => true
  | .resetPin => true
  | .resetRelease _ => true
  | .timeBaseTick => true

end Sys2Proof
end

