-- ==== Sys2Proof/Tests/Slice0.lean ====
section
/-! SUPPORT. Tests on small states. Expected values are those of the manual's worked examples, named at
each test by their section, or hand calculations from the rule named. The `test_meets_` theorems show
states that meet the hypotheses of the statement of that name, one for each of its clauses. -/

namespace Sys2Proof.Tests

open Sys2Proof.Machine

set_option Elab.async false

/-- The state a command leads to. -/
def run (c : Instr) (s : State) : Option State :=
  match exec c s with
  | .next t => some t
  | .fault _ => none
  | .refused _ => none

/-! ### A small configuration -/

/-- W0: the CARRY window of section 2.8, and a member of G1 with policy DECAY (5.8). -/
def hostWin : WindowRec :=
  { enabled := true, writer := .host, mode := .carry, policy := .decay, group := .member 1
    sizeCode := 0, bufferCount := 4, decayShift := 2, logicalBase := 0x10000, payloadLength := 4
    timeout := 20, bufferBase := 0x200000, neutralAddress := 0x2000 }

/-- W1: the inbound window of section 8.12, and a member of G1 with policy NEUTRAL (5.8). -/
def inWin : WindowRec :=
  { enabled := true, writer := .i0, mode := .strict, policy := .neutral, group := .member 1
    sizeCode := 0, bufferCount := 3, decayShift := 1, logicalBase := 0x10040, payloadLength := 3
    timeout := 50, bufferBase := 0x200100, neutralAddress := 0x2020 }

/-- O0: the MASTER lane of section 6.12. -/
def masterLane : LaneRec :=
  { LaneRec.zero with
    enabled := true, rate := 1, slots := 6, period := 500, filler := 0x8000, first := 0, count := 4 }

/-- O1: the FOLLOWER lane of section 6.13. -/
def followerLane : LaneRec :=
  { LaneRec.zero with
    enabled := true, timing := .follower, rate := 2, tolerance := 2, slots := 24, period := 16667
    first := 4, count := 1 }

/-- I0: the inbound lane of section 8.12. -/
def inLane : LaneRec := { LaneRec.zero with enabled := true, slots := 7, first := 5, count := 4 }

/-- The entries of 6.12 (O0: 0 to 3), one SEQ entry of O1 (4), and those of 8.12 (I0: 5 to 8). -/
def entryList : List EntryRec :=
  [ { EntryRec.zero with kind := .pass16, slot := 0, offset := 3 },
    { EntryRec.zero with kind := .span, slot := 1, offset := 1, param := 24 },
    { EntryRec.zero with kind := .seq, slot := 3 },
    { EntryRec.zero with kind := .test, window := 1, slot := 4, offset := 0, param := 2 },
    { EntryRec.zero with kind := .seq, slot := 0 },
    { EntryRec.zero with kind := .store32, window := 1, slot := 0, offset := 0 },
    { EntryRec.zero with kind := .store16, window := 1, slot := 2, offset := 1 },
    { EntryRec.zero with kind := .store16, window := 1, high := true, slot := 3, offset := 1 },
    { EntryRec.zero with kind := .store32, window := 1, slot := 4, offset := 2 } ]

/-- A pool with four given buffers. -/
def poolOf (b0 b1 b2 b3 : Buffer) : Pool :=
  { Pool.zero with bufs := #v[b0, b1, b2, b3, Buffer.zero, Buffer.zero, Buffer.zero, Buffer.zero] }

/-- A READY buffer. -/
def readyBuf (seq : Half) : Buffer := { Buffer.zero with st := .ready, seq := seq }

/-- A FILLING buffer. -/
def fillingBuf (m : WMap) : Buffer := { Buffer.zero with st := .filling, map := m }

/-- W0 before the close of section 2.8. -/
def carryPool : Pool :=
  { poolOf Buffer.zero Buffer.zero (readyBuf 6) (fillingBuf [(0, 0xF), (2, 0xC)]) with
    expected := 7, lastSeq := 6, commits := 6, committed := true, lastOutcome := .accepted }

/-- The holder set with one lane. -/
def heldBy (x : Fin 6) : HolderSet := HolderSet.empty.put (.lane x) true

/-- W1 before the events of section 8.12. -/
def boardPool : Pool :=
  { poolOf { readyBuf 4 with holders := heldBy 2 } Buffer.zero Buffer.zero Buffer.zero with
    nextInbound := 5, lastSeq := 4, commits := 4, committed := true }

/-- The windows of the configuration. -/
def wins : Vector WindowRec 16 :=
  ((Vector.replicate 16 WindowRec.zero).set 0 hostWin).set 1 inWin

/-- RUN at time 0004_1000h, with the journal settings of section 10.10. -/
def base : State :=
  { State.reset with
    timeBase := 0x41000, dev := .run, startReached := true, startInstant := 0x1000
    header := { Header.afterReset with
      imageLength := 115, windowCount := 2, entryCount := 9, ringAddr := 0x8000, capacity := 16
      mode := .continuous, full := .halt, selected := 0x00013, mask := 0x1FFEF }
    windows := wins
    groups := groupTable wins
    lanes := (((Vector.replicate 8 LaneRec.zero).set 0 masterLane).set 1 followerLane).set 6 inLane
    entries := Vector.ofFn fun i => entryList.getD i.val EntryRec.zero
    pools := ((Vector.replicate 16 Pool.zero).set 0 carryPool).set 1 boardPool
    ins := #v[{ InLane.zero with st := .listening, lastNo := 39, seen := true }, InLane.zero]
    journal := { Journal.zero with st := .recording } }

/-- A host write at a byte address. -/
def wr (adr : Nat) (be : Enables) (data : Word) : HostWrite :=
  { adr := BitVec.ofNat 19 (adr / 4), be := be, data := data }

/-- The state with one write in the posted-write queue. -/
def posting (s : State) (x : HostWrite) : State := { s with queue := [x] }

/-- The state with a read at the port. -/
def asking (s : State) (adr : Nat) : State :=
  { s with waiting := some (.read (BitVec.ofNat 19 (adr / 4)) 0xF) }

/-- A request of a requester at a byte address. -/
def req (who : Requester) (write : Bool) (adr : Nat) (be : Enables) (data : Word) : Request :=
  { who := who, write := write, adr := memAdr adr, be := be, data := data, urgent := false }

/-- The state with an access in progress. -/
def serving (s : State) (r : Request) : State :=
  { s with port := some { req := r, withdrawn := false } }

/-- The state with words in cue memory. -/
def holding (s : State) (l : List (Nat × Word)) : State :=
  { s with mem := l.foldl (fun m p => m.writeWord (memAdr p.1) 0xF p.2) s.mem }

/-- The states of a window's first four buffers. -/
def bufStates (s : State) (w : Fin 16) : List BufState :=
  [(s.pool w).bufs[0].st, (s.pool w).bufs[1].st, (s.pool w).bufs[2].st, (s.pool w).bufs[3].st]

/-! ### WellFormed -/

/-- A transfer at an address that is no multiple of 4 is not well-formed (00_scope.md §5.1). -/
theorem test_unaligned_write_refused : (Instr.hostWritePresented 0x010002 0xF 0).wellFormed = false := by
  decide

theorem test_unaligned_read_refused : (Instr.hostReadPresented 0x010001 0xF).wellFormed = false := by
  decide

theorem test_aligned_write_accepted : (Instr.hostWritePresented 0x1FFFFC 0x0 0).wellFormed = true := by
  decide

/-! ### The host port and the steering unit -/

/-- R49: the write joins the queue with its word address. -/
theorem test_write_joins_queue :
    (run (.hostWritePresented 0x010008 0xF 0x55555555) base).map (fun t => (t.queue, t.hrdy)) =
      some ([{ adr := 0x04002, be := 0xF, data := 0x55555555 }], true) := by decide

/-- R49: with four writes queued the fifth waits at the port. -/
theorem test_write_waits_at_full_queue :
    (run (.hostWritePresented 0x010008 0xF 1)
        { base with queue := List.replicate 4 (wr 0 0xF 0) }).map
      (fun t => (t.queue.length, t.hrdy)) = some (4, false) := by decide

/-- R51: the host is held until the read is answered. -/
theorem test_read_holds_host :
    (run (.hostReadPresented 0x1FFFFC 0xF) base).map (fun t => (t.waiting, t.hrdy)) =
      some (some (.read 0x7FFFF 0xF), false) := by decide

/-- R56: in SETUP a window address is ordinary memory. -/
theorem test_setup_write_passes_through :
    (run .passThroughWrite (posting { base with dev := .setup } (wr 0x10008 0x3 7))).map
      (fun t => (t.queue, t.port)) =
      some ([], some { req := req .host true 0x10008 0x3 7, withdrawn := false }) := by decide

/-- 2.8: word 2 of the FILLING buffer B3 lies at 200000h + 3 × 64 + 8 + 8. -/
theorem test_payload_write_steered :
    (run .payloadWriteSteered (posting base (wr 0x10010 0xC 0xABCD9999))).map (fun t => t.port) =
      some (some { req := req .host true 0x2000D0 0xC 0xABCD9999, withdrawn := false }) := by
  decide

/-- 3.10: a write to the head word is refused with reason HEAD_WORD and the host address. -/
theorem test_head_word_write_refused :
    (run .refusedWrite (posting base (wr 0x10000 0xF 0))).map (fun t => (t.flags, t.journal.queue)) =
      some (0x00002, [{ kind := .writeRefused, source := some 0, time := 0x41000, detail1 := 0x10000
                        detail2 := 0 }]) := by decide

/-- R66, R187, R200: word 0 of its entry is requested at once, behind an access in progress, and nothing
else is; with an entry queued nothing is. -/
theorem test_refused_write_requests_the_journal :
    let w := req .journal true 0x8000 0xF 0x1
    let r := req .host true 0x10008 0xF 7
    let s := posting base (wr 0x10000 0xF 0)
    let full := { s with journal := { s.journal with queue := [
      { kind := .commit, source := none, time := 0, detail1 := 0, detail2 := 0 }] } }
    (run .refusedWrite s).map (fun t => (t.port.map Access.req, t.requests)) = some (some w, []) ∧
    (run .refusedWrite (serving s r)).map (fun t => (t.port.map Access.req, t.requests)) =
      some (some r, [w]) ∧
    (run .refusedWrite (serving full r)).map (fun t => (t.port.map Access.req, t.requests)) =
      some (some r, []) := by decide +kernel

/-- 2.8: the close of sequence 7 with count 2 is ACCEPTED and starts a copy at word 1. -/
theorem test_carry_close :
    (run .closeRequest (posting base (wr 0x10004 0xF 0x00070002))).map
      (fun t => (bufStates t 0, (t.pool 0).bufs[2].holders.copySource, (t.pool 0).expected,
        (t.pool 0).job.map fun j => (j.index, j.time))) =
      some ([.filling, .free, .ready, .committing], true, 8, some (1, 0x41000)) := by decide

/-- 12.3: a close whose count is one short gives COUNT_MISMATCH, code 7, with the declared count. -/
theorem test_count_mismatch :
    (run .closeRequest (posting base (wr 0x10004 0xF 0x00070001))).map
      (fun t => ((t.pool 0).lastOutcome, (t.pool 0).expected, t.journal.queue)) =
      some (.countMismatch, 7, [{ kind := .closeRefused, source := some 0, time := 0x41000
                                  detail1 := 7, detail2 := 1 }]) := by decide

/-- R166, R167: a START taken in SETUP requests image word 0 at profile base + 100h. -/
theorem test_start_begins_loading :
    (run .start (posting { base with dev := .setup } (wr 0x0 0xF 1))).map
      (fun t => (t.dev, t.outcome, t.port)) =
      some (.loading, .done, some { req := req .load false 0x100 0xF 0, withdrawn := false }) := by
  decide

/-- R166: a START taken in RUN is REFUSED. -/
theorem test_start_refused_in_run :
    (run .start (posting base (wr 0x0 0xF 1))).map (fun t => (t.dev, t.outcome)) =
      some (.run, .refused) := by decide

/-- A lane that is SENDING, with a number of positions begun. -/
def sendingLane (start : Word) (begun : Nat) : OutLane :=
  { OutLane.zero with st := .sending, frameNo := 212, frameTime := start, begun := begun }

/-- 12.8: O0 is SENDING and O1 is BETWEEN. -/
def oneSending : State :=
  (base.modOut 0 fun _ => sendingLane 0x41000 1).modOut 1 fun _ => { OutLane.zero with st := .between }

/-- 12.8: the STOP frees the FILLING buffer, keeps the READY one, and waits for the lane. -/
theorem test_stop_waits_for_sending_lanes :
    (run .stop (posting oneSending (wr 0x0 0xF 2))).map
      (fun t => (t.dev, t.sending.toList, (t.out 1).st, bufStates t 0)) =
      some (.stopping, [true, false, false, false, false, false], .idle,
        [.free, .free, .ready, .free]) := by decide

/-- R175: a STOP taken in LOADING abandons the load and raises STOPPED. -/
theorem test_stop_abandons_load :
    (run .stop (posting { base with dev := .loading, load := some LoadJob.fresh } (wr 0x0 0xF 2))).map
      (fun t => (t.dev, t.load, t.raised .stopped)) = some (.setup, none, true) := by decide

/-- R68: a START that lacks a byte enable is UNKNOWN. -/
theorem test_request_without_enable_unknown :
    (run .unknownRequest (posting base (wr 0x0 0x7 1))).map (fun t => t.outcome) = some .unknown := by
  decide

/-- R69: positions in bytes whose enables are not set name no kind. -/
theorem test_acknowledge_by_byte :
    (run .acknowledge (posting { base with flags := 0x1FFFF } (wr 0x4 0x1 0xFFFFFFFF))).map
      (fun t => t.flags) = some 0x1FF00 := by decide

/-- R70: a write to the time base word is dropped. -/
theorem test_control_write_dropped :
    (run .controlWriteDropped (posting base (wr 0x8 0xF 0))).map (fun t => (t.queue, t.timeBase)) =
      some ([], 0x41000) := by decide

/-- R194: word 0 in RUN after a request that was DONE. -/
theorem test_control_word_zero :
    (run .hostReadTaken (asking { base with outcome := .done } 0x0)).map (fun t => t.readData) =
      some 0x00000102 := by decide

/-- 3.10: W0 while B3 is COMMITTING with words 0, 1 and two bytes of word 2. -/
def committing : State :=
  base.modPool 0 fun p =>
    { p with bufs := #v[fillingBuf [(1, 0x3)], Buffer.zero, readyBuf 6,
        { Buffer.zero with st := .committing, map := [(0, 0xF), (1, 0xF), (2, 0xC)] },
        Buffer.zero, Buffer.zero, Buffer.zero, Buffer.zero] }

/-- 3.10: word 1 takes bytes 0–1 from B0 and bytes 2–3 from B3, in two memory reads. -/
theorem test_merged_read_sources :
    (run .hostReadTaken (asking committing 0x1000C)).map (fun t => t.su) =
      some (.reading { adr := memAdr 0x20000C, be := 0xF, keep := 0x3 }
        [{ adr := memAdr 0x2000CC, be := 0xF, keep := 0xC }] 0) := by decide

/-- 12.7: the view leaves the RETIRED buffer of sequence 48, which becomes FREE, for READY 49. -/
def viewed : State :=
  base.modPool 1 fun p =>
    { p with bufs := #v[readyBuf 49,
        { Buffer.zero with st := .retired, seq := 48, holders := HolderSet.empty.put .view true },
        Buffer.zero, Buffer.zero, Buffer.zero, Buffer.zero, Buffer.zero, Buffer.zero] }

/-- 12.7, R195: LIVE, view present, writer I0, view sequence 49. -/
theorem test_view_moves :
    (run .headWordReadViewMove (asking viewed 0x10040)).map
      (fun t => (t.readData, bufStates t 1, (t.pool 1).bufs[0].holders.view)) =
      some (0x00310019, [.ready, .free, .free, .free], true) := by decide

/-! ### Performances -/

/-- 3.10: bytes 8888h from B0 and 2222h from B3. -/
theorem test_merged_read_answer :
    (run .hostAccessPerformed
        (serving (holding
          { base with su := .reading { adr := memAdr 0x2000CC, be := 0xF, keep := 0xC } [] 0x00008888 }
          [(0x2000CC, 0x22220000)]) (req .host false 0x2000CC 0xF 0))).map
      (fun t => (t.readData, t.su, t.port)) = some (0x22228888, .free, none) := by decide

/-- A steered write of bytes 2 and 3 of word 1 to B3 is at the port. -/
def writing : State :=
  serving { base with su := .writing (some { w := 0, k := 3, i := 1 }) }
    (req .host true 0x2000CC 0xC 0xABCD9999)

/-- 2.8, R29: the enabled bytes join the map, and only they reach memory. -/
theorem test_steered_write_marks_map :
    (run .hostAccessPerformed writing).map
      (fun t => ((t.pool 0).bufs[3].map, t.mem)) =
      some ([(0, 0xF), (1, 0xC), (2, 0xC)], [(0x2000CE, 0xCD), (0x2000CF, 0xAB)]) := by decide

/-- The draws of O0's frame in 6.12: W0 is LIVE on B2, W1 is EMPTY. -/
def draws612 : List Carried :=
  [{ window := 0, draw := .buffer 2 37 0, stale := false }, { window := 1, draw := .neutral, stale := false }]

/-- O0 in 6.12 when D0 has begun: the first word of the SPAN entry is fetched, the second is asked. -/
def lane612 (begun : Nat) : OutLane :=
  { sendingLane 0x41000 begun with
    draws := draws612, fetch := [(1, 0xFFFFA3C0)]
    asked := some { entry := 1, adr := memAdr 0x200090 }
    plan := [{ entry := 3, adr := memAdr 0x2020 }] }

/-- 6.12 at 35 µs: the word joins the fetch buffer and the neutral word is requested, not urgent. -/
theorem test_lane_fetch :
    (run .laneFetchPerformed
        (serving (holding (base.modOut 0 fun _ => lane612 5) [(0x200090, 0x12)])
          (req (.outLane 0) false 0x200090 0xF 0))).map
      (fun t => ((t.out 0).fetch, t.port.map Access.req)) =
      some ([(1, 0xFFFFA3C0), (1, 0x12)], some (req (.outLane 0) false 0x2020 0xF 0)) := by
  decide +kernel

/-- A board frame in hand. -/
def frame (no : Option Half) (k : Option (Fin 8)) (o : FrameOutcome) (hs : List RxHalf) : InFrame :=
  { time := 0x40FC4, number := no, buffer := k, outcome := o, halves := hs }

/-- 8.12 event 9: C is discarded with its write in progress, D waits behind it. -/
def truncated : State :=
  serving
    ((base.modPool 1 fun p =>
        { p with bufs := (p.bufs.set 0 (fillingBuf [])).set 1 (readyBuf 5) }).modIn 0 fun l =>
      { l with st := .receiving, slot := some 0
               frames := [frame (some 43) (some 0) .discard [], frame none none .opened []] })
    (req (.inLane 0) true 0x200108 0xC 0x12340000)

/-- 8.12 event 10: B0 is discarded and goes to frame D with an empty map. -/
theorem test_discard_then_allocation :
    (run .inboundWritePerformed truncated).map
      (fun t => ((t.inl 0).frames.map InFrame.buffer, bufStates t 1, (t.pool 1).bufs[0].map)) =
      some ([some 0], [.filling, .ready, .free, .free], []) := by decide

/-- The copy job of 2.8 at a word. -/
def job28 (i : Nat) (ph : CopyPhase) (copied : Nat) : CopyJob :=
  { target := 3, source := some 2, seq := 7, time := 0x41000, index := i, phase := ph, copied := copied
    held := none }

/-- W0 in 2.8 with its job at a word, B2 held by the job and O3. -/
def copying (m : WMap) (j : CopyJob) : State :=
  base.modPool 0 fun p =>
    { p with
      bufs := #v[fillingBuf [], Buffer.zero,
        { readyBuf 6 with holders := (heldBy 3).put .copySource true },
        { Buffer.zero with st := .committing, seq := 7, time := 0x41000, map := m },
        Buffer.zero, Buffer.zero, Buffer.zero, Buffer.zero]
      expected := 8, job := some j }

/-- 2.8: at word 2 the copy writes bytes 0 and 1 of 3333_0000h. -/
theorem test_copy_read :
    (run .copyReadPerformed (serving (holding
        (copying [(0, 0xF), (1, 0xF), (2, 0xC)] (job28 2 .reading 1)) [(0x200090, 0x33330000)])
        (req (.copyJob 0) false 0x200090 0xF 0))).map (fun t => t.port.map Access.req) =
      some (some (req (.copyJob 0) true 0x2000D0 0x3 0x33330000)) := by decide

/-- 2.8 before the last write of the job. -/
def lastCopy : State :=
  serving (copying [(0, 0xF), (1, 0xF), (2, 0xF)] (job28 3 .writing 2))
    (req (.copyJob 0) true 0x2000D4 0xF 0x44440000)

/-- 2.8: the end of the job commits B3 with sequence 7 and retires B2, which O3 holds. -/
theorem test_copy_ends_with_commit :
    (run .copyWritePerformed lastCopy).map
      (fun t => (bufStates t 0, (t.pool 0).bufs[3].seq, (t.pool 0).bufs[2].holders, (t.pool 0).job)) =
      some ([.filling, .free, .retired, .ready], 7, heldBy 3, none) := by decide

/-- An image with one host window, one enabled lane and one entry, by R196 and R197: its checksum, start
delay in ms, journal word and selected kinds, and of the lane the flags, the period and the run. Its last
word is 0. -/
def imageOf (crc delay mode selected lane period entries : Word) : List Word :=
  [0x00010053, crc, 0x00010001, delay, 0x8000, mode, selected, 0x1FFFF] ++
    [0x88000301, 0x1000, 0x00010001, 0x200000, 0x4000, 0, 0, 0] ++
    [lane, period, 0x1234, entries, 0, 0, 0, 0] ++ List.replicate 56 0 ++ [0, 0, 0]

/-- The image with the journal OFF and a MASTER lane. -/
def image (crc delay period : Word) : List Word := imageOf crc delay 0x00000010 0 0x83050002 period 1

/-- The load has read all words but the last, with the CRC so far; the time base is `now`. -/
def lastLoad (now : Word) (im : List Word) (crc : Half) : State :=
  serving
    { State.reset with
      timeBase := now, dev := .loading
      load := some
        { phase := .body, index := 82, length := some 83, shadow := im.take 82, crc := crc } }
    (req .load false 0x248 0xF 0)

/-- 9.12: RUN entry at 2,311,700 with a start delay of 5 ms gives the start instant 2,317,000; R24 makes
B0 of the host window FILLING. -/
theorem test_run_entry :
    (run .loadReadPerformed (lastLoad 2311700 (image 0xB12C 5 100) 0xF27E)).map
      (fun t => (t.dev, t.startInstant, bufStates t 0, (t.out 0).st, t.raised .runStarted)) =
      some (.run, 2317000, [.filling, .free, .free, .free], .waiting, true) := by decide +kernel

/-- R105, R170: a period of 99 µs lies outside its range: check 10, record 0 for O0. -/
theorem test_load_fails_check_ten :
    (run .loadReadPerformed (lastLoad 0 (image 0xF42F 0 99) 0x24E8)).map
      (fun t => (t.dev, t.loadErr, t.raised .loadFailed)) =
      some (.setup, { check := 10, index := 0 }, true) := by decide +kernel

/-- The image whose lane has no entries and begins above the entry count of 1, with a TRIGGERED journal. -/
def emptyRunImage : List Word := imageOf 0x8AC7 0 0x00020010 0x3FFFF 0x83050002 100 0x20000

/-- R146, R170: that lane fails check 8, with its first entry as index (log 16). -/
theorem test_load_fails_check_eight_on_an_empty_run :
    (run .loadReadPerformed (lastLoad 0 emptyRunImage 0xA74F)).map (fun t => (t.dev, t.loadErr)) =
      some (.setup, { check := 8, index := 2 }) := by decide +kernel

/-- Entries of section 10.10. -/
def jent (k : Kind) : JEntry := { kind := k, source := none, time := 0, detail1 := 0, detail2 := 0 }

/-- 10.10 before B's word 3 is performed. -/
def burst : State :=
  serving
    { base with
      flags := 0x00010
      journal := { Journal.zero with
        st := .recording, queue := [jent .closeRefused, jent .writeRefused, jent .underrun]
        wordCount := 3, writeIndex := 15 } }
    (req .journal true 0x80FC 0xF 0)

/-- 10.10: the index reaches 16: HALTED, two entries lost, JOURNAL_LOST and JOURNAL_FULL raised. -/
theorem test_journal_halts :
    (run .journalWordPerformed burst).map
      (fun t => (t.journal, t.flags, t.atn)) =
      some ({ Journal.zero with st := .halted, lost := 2 }, 0x18010, true) := by decide

/-- 10.10: under ROLLOVER the index goes to 0, the wrap count to 1, and C is written at 0. -/
theorem test_journal_rolls_over :
    (run .journalWordPerformed { burst with header := { burst.header with full := .rollover } }).map
      (fun t => (t.journal.writeIndex, t.journal.wrap, t.journal.lost, t.port.map (fun a => a.req.adr))) =
      some (0, 1, 0, some (memAdr 0x8000)) := by decide

/-! ### Staleness and time -/

/-- 5.8 at 35 ms: W0 is W6 and W1 stands for W7, both LIVE, last sequence 2. -/
def expiring : State :=
  { (base.modPool 0 fun p => { p with timer := some 0x41000, lastSeq := 2 }) with
    header := { base.header with selected := 0x4 } }

/-- 5.8: the expiry turns two LIVE windows STALE. -/
theorem test_expiry_of_a_group :
    (run (.timerExpiry 0) expiring).map
      (fun t => (t.cueState 0, t.cueState 1, (t.pool 0).timer, t.journal.queue)) =
      some (.stale, .stale, none, [{ kind := .timedOut, source := some 0, time := 0x41000, detail1 := 2
                                     detail2 := 2 }]) := by decide

/-- 5.8 at 50 ms: the expiry of an EMPTY window whose group is STALE turns no window. -/
theorem test_expiry_of_an_empty_window :
    (run (.timerExpiry 1)
        { expiring with
          pools := (expiring.pools.set 0 { carryPool with ownMark := true }).set 1
            { Pool.zero with timer := some 0x41000 } }).map
      (fun t => (t.cueState 0, t.cueState 1, t.journal.queue.map fun e => (e.detail1, e.detail2))) =
      some (.stale, .empty, [(0, 0)]) := by decide

/-- R173: the event in RUN at the start instant. -/
theorem test_start_instant :
    (run .startInstantReached { base with startReached := false, startInstant := 0x41000 }).map
      (fun t => t.startReached) = some true := by decide

/-- R176: the time base wraps. -/
theorem test_time_base_wraps :
    (run .timeBaseTick { base with timeBase := 0xFFFFFFFF }).map (fun t => t.timeBase) = some 0 := by
  decide

/-! ### Outbound lanes -/

/-- O0 of 6.12 before frame 212, with W1 EMPTY. -/
def before212 : State :=
  (base.modPool 1 fun p => { p with committed := false }).modOut 0 fun _ =>
    { OutLane.zero with st := .between, frameNo := 211, nextStart := some 0x41000 }

/-- 6.12: frame 212 holds B2, sends H0, asks for word 3 of B2, and plans the other three words. -/
theorem test_master_frame_start :
    (run (.masterScheduledStart 0) before212).map
      (fun t => ((t.out 0).line, (t.pool 0).bufs[2].holders, t.port.map Access.req,
        (t.out 0).plan.map (fun p => p.adr))) =
      some (some 212, heldBy 0, some (req (.outLane 0) false 0x200094 0xF 0),
        [memAdr 0x20008C, memAdr 0x200090, memAdr 0x2020]) := by decide +kernel

/-- R173, R178: before the start instant has been taken no MASTER lane starts (log 19). -/
theorem test_master_waits_for_the_start_instant :
    (run (.masterScheduledStart 0) { before212 with startReached := false }).map
      (fun t => ((t.out 0).st, (t.out 0).frameNo, (t.out 0).nextStart)) =
      some (.between, 211, some 0x41000) := by decide

/-- R109: the next start advances by one period. -/
theorem test_master_schedule :
    (run (.masterScheduledStart 0) before212).map (fun t => (t.out 0).nextStart) =
      some (some (0x41000 + 500)) := by decide +kernel

/-- O1 of 6.13 at time `now` after the start instant, with the lane given. -/
def at613 (now : Word) (l : OutLane) : State := { (base.modOut 1 fun _ => l) with timeBase := now }

/-- O1 before the edge at 88,300: BETWEEN, frame 6, last pulse at 72,050. -/
def before88300 : State :=
  at613 88300
    { OutLane.zero with
      st := .between, frameNo := 6, flywheels := 2, earlies := 1
      pulse := { last := some 72050, checked := true, deadline := some 92883, inRun := false } }

/-- 6.13 at 88,300: the interval 16,250 drifts, frame 7 starts, the deadline is 109,133. -/
theorem test_edge_drift :
    (run (.outboundActiveEdge 1 .rising) before88300).map
      (fun t => ((t.out 1).frameNo, (t.out 1).drifts, (t.out 1).pulse.deadline, t.raised .pulseDrift)) =
      some (7, 1, some 109133, true) := by decide +kernel

/-- O1 before the edge at 72,050: in flywheel frame 5 with 13 positions begun. -/
def before72050 : State :=
  { at613 72050
      { OutLane.zero with
        st := .sending, frameNo := 5, frameTime := 72000, begun := 13, flywheels := 2
        flags := { flywheel := true, prevCut := false, prevUnder := false }
        pulse := { last := some 34500, checked := false, deadline := some 88667, inRun := true } } with
    header := { base.header with selected := 0x80 } }

/-- 6.13 at 72,050: frame 5 is cut after 13 positions, frame 6 carries previous frame cut. -/
theorem test_edge_cuts_frame :
    (run (.outboundActiveEdge 1 .rising) before72050).map
      (fun t => ((t.out 1).frameNo, (t.out 1).h3, (t.out 1).pulse.deadline,
        t.journal.queue.map fun e => (e.detail1, e.detail2))) =
      some (6, 0x0002, some 92883, [(5, 13)]) := by decide +kernel

/-- R121, R123: an edge 16,333 µs after the pulse that cuts frame 6 reports its drift first, with the number
of the frame it starts, and then the cut. -/
theorem test_edge_drifts_and_cuts :
    (run (.outboundActiveEdge 1 .rising)
        { at613 88383
            { OutLane.zero with
              st := .sending, frameNo := 6, begun := 3
              pulse := { last := some 72050, checked := true, deadline := none, inRun := false } } with
          header := { base.header with selected := 0xA0 } }).map
      (fun t => t.journal.queue.map fun e => (e.kind, e.detail1, e.detail2)) =
      some [(.pulseDrift, 7, 16333), (.pulseEarly, 6, 3)] := by decide +kernel

/-- O1 before the deadline at 55,333: frame 3 began with the pulse at 34,500. -/
def before55333 : State :=
  { at613 55333
      { OutLane.zero with
        st := .between, frameNo := 3
        pulse := { last := some 34500, checked := true, deadline := some 55333, inRun := false } } with
    header := { base.header with selected := 0x40 } }

/-- 6.13 at 55,333: flywheel frame 4, the next deadline one period later; detail 2 is 20,833. -/
theorem test_flywheel_start :
    (run (.flywheelStart 1) before55333).map
      (fun t => ((t.out 1).h3, (t.out 1).pulse.deadline, (t.out 1).flywheels,
        t.journal.queue.map fun e => (e.detail1, e.detail2))) =
      some (0x0001, some 72000, 1, [(4, 20833)]) := by decide +kernel

/-- O0 of 6.12 at 40 µs, with the words of the SPAN entry given. -/
def atD1 (fetch : List (Nat × Word)) : State :=
  { (base.modOut 0 fun _ =>
      { sendingLane 0x41000 5 with
        draws := draws612, fetch := fetch, plan := [{ entry := 3, adr := memAdr 0x2020 }] }) with
    timeBase := 0x41028 }

/-- 6.12 at 40 µs with the words of 7.9: D1 sends the SPAN value 12FFh. -/
theorem test_slot_sends_span :
    (run (.slotBegin 0) (atD1 [(1, 0xFFFFA3C0), (1, 0x12)])).map
      (fun t => ((t.out 0).line, (t.out 0).fetch, (t.entrySt 1).lastOutput)) =
      some (some 0x12FF, [], 0x12FF) := by decide +kernel

/-- 6.12, second part: with one word missing the entry underruns, sends 8000h and raises UNDERRUN. -/
theorem test_slot_underruns :
    (run (.slotBegin 0) (atD1 [(1, 0xFFFFA3C0)])).map
      (fun t => ((t.out 0).line, (t.out 0).fetch, (t.out 0).underruns,
        t.journal.queue.map fun e => (e.detail1, e.detail2))) =
      some (some 0x8000, [], 1, [(212, 1)]) := by decide +kernel

/-- O0 of 6.12 at 88 µs, with B2 held. -/
def at88 : State :=
  { ((base.modOut 0 fun _ => { sendingLane 0x41000 11 with draws := draws612 }).modPool 0 fun p =>
      p.modBuf 2 (Buffer.hold (.lane 0))) with
    timeBase := 0x41058 }

/-- 6.12 at 88 µs: the hold on B2 is released and the lane is BETWEEN. -/
theorem test_frame_end :
    (run (.frameEnd 0) at88).map (fun t => ((t.out 0).st, (t.pool 0).bufs[2])) =
      some (.between, readyBuf 6) := by decide

/-- 12.8: the last frame end in STOPPING brings SETUP, frees the pool and raises STOPPED with one lane. -/
theorem test_frame_end_in_stopping :
    (run (.frameEnd 0)
        { at88 with
          dev := .stopping, sending := #v[true, false, false, false, false, false], stopLanes := 1
          header := { base.header with selected := 0x4000 } }).map
      (fun t => (t.dev, (t.pool 0).bufs[2].st, t.journal.st,
        t.journal.queue.map fun e => (e.detail1, e.detail2))) =
      some (.setup, .free, .draining, [(2, 1)]) := by decide

/-! ### Inbound lanes -/

/-- 8.12 event 1: frame A takes B1. -/
theorem test_inbound_edge_allocates :
    (run (.inboundActiveEdge 0 .rising) base).map
      (fun t => ((t.inl 0).st, (t.inl 0).frames.map InFrame.buffer, bufStates t 1)) =
      some (.receiving, [some 1], [.ready, .filling, .free, .free]) := by decide

/-- 8.12 before event 9: C holds B0, the write of D0 is in progress, the D1 half waits. -/
def before9 : State :=
  serving
    { ((base.modPool 1 fun p =>
          { p with bufs := (p.bufs.set 0 (fillingBuf [])).set 1 (readyBuf 5) }).modIn 0 fun l =>
        { l with
          st := .receiving, slot := some 4, lastNo := 43
          frames := [frame (some 43) (some 0) .opened
            [{ word := 0, high := true, data := 0x1234 }, { word := 0, high := false, data := 5 }]] }) with
      header := { base.header with selected := 0x200 } }
    (req (.inLane 0) true 0x200108 0xC 0x12340000)

/-- 8.12 event 9: C is truncated and stays until its write is performed; D is behind it. -/
theorem test_inbound_edge_truncates :
    (run (.inboundActiveEdge 0 .rising) before9).map
      (fun t => ((t.inl 0).frames.map InFrame.outcome, (t.inl 0).halves, (t.inl 0).cuts,
        t.journal.queue.map fun e => (e.detail1, e.detail2))) =
      some ([.discard, .opened], [], 1, [(43, 2)]) := by decide

/-- The inbound lane receiving a slot of a frame that holds B1. -/
def receiving (slot : Nat) (crc : Half) (hs : List RxHalf) : State :=
  { ((base.modPool 1 fun p => { p with bufs := p.bufs.set 1 (fillingBuf []) }).modIn 0 fun l =>
      { l with
        st := .receiving, slot := some slot, crc := crc, lastNo := 40
        frames := [frame (if slot = 0 then none else some 40) (some 1) .opened hs] }) with
    header := { base.header with selected := 0x700 } }

/-- 8.12 event 6: 42 after 40: one frame missing. -/
theorem test_h0_gap :
    (run (.inboundH0Received 0 42) (receiving 0 0xFFFF [])).map
      (fun t => ((t.inl 0).lastNo, (t.inl 0).gaps, (t.inl 0).slot,
        t.journal.queue.map fun e => (e.detail1, e.detail2))) =
      some (42, 1, some 1, [(42, 1)]) := by decide

/-- R151, R153: the H0 of a refused frame is checked and fed to the CRC like any slot received. -/
theorem test_h0_of_a_refused_frame :
    (run (.inboundH0Received 0 0)
        (base.modIn 0 fun l => { l with st := .discarding, slot := some 0, crc := 0xFFFF })).map
      (fun t => ((t.inl 0).lastNo, (t.inl 0).crc, (t.inl 0).slot)) =
      some (0, 0x1D0F, none) := by decide +kernel

/-- R154: a data count that differs from 7 cuts the frame as MALFORMED and frees its buffer. -/
theorem test_h1_malformed :
    (run (.inboundH1Received 0 6) (receiving 1 0xFFFF [])).map
      (fun t => ((t.inl 0).st, (t.inl 0).frames, bufStates t 1, t.raised .inboundCut)) =
      some (.discarding, [], [.ready, .free, .free, .free], true) := by decide

/-- 8.12: D0 is the high half of word 0; its write goes to bytes 2 and 3 of B1's word 0. -/
theorem test_data_half_is_written :
    (run (.inboundDataSlotReceived 0 0x1234) (receiving 2 0xFFFF [])).map
      (fun t => t.port.map Access.req) =
      some (some (req (.inLane 0) true 0x200148 0xC 0x12340000)) := by decide +kernel

/-- 8.12: the spare slot D6 feeds the CRC and joins no buffer. -/
theorem test_spare_slot :
    (run (.inboundDataSlotReceived 0 0x1234) (receiving 8 0xFFFF [])).map
      (fun t => ((t.inl 0).halves, (t.inl 0).slot)) = some ([], some 9) := by decide +kernel

/-- 8.12 event 7: a CRC that differs discards the frame and gives its buffer back. -/
theorem test_crc_differs :
    (run (.inboundCrcSlotReceived 0 0x1111) (receiving 9 0x2222 [])).map
      (fun t => ((t.inl 0).st, (t.inl 0).crcErrors, bufStates t 1,
        t.journal.queue.map fun e => (e.detail1, e.detail2))) =
      some (.listening, 1, [.ready, .free, .free, .free], [(40, 1)]) := by decide

/-- 8.12 event 4: all writes performed and a full map. -/
def written : State :=
  (receiving 9 0x2222 []).modPool 1 fun p =>
    { p with bufs := p.bufs.set 1 (fillingBuf [(0, 0xF), (1, 0xF), (2, 0xF)]) }

/-- 8.12 event 4: the frame commits with sequence 5; B0 stays RETIRED, held by O2. -/
theorem test_crc_good_commits :
    (run (.inboundCrcSlotReceived 0 0x2222) written).map
      (fun t => ((t.inl 0).frames, bufStates t 1, (t.pool 1).bufs[1].seq, (t.pool 1).bufs[1].time,
        (t.pool 1).nextInbound)) =
      some ([], [.retired, .ready, .free, .free], 5, 0x40FC4, 6) := by decide

/-! ### Reset -/

/-- R85, R177: a write in progress is completed; every block takes its reset values. -/
theorem test_reset_pin :
    (run .resetPin writing).map (fun t => (t.rst, t.dev, t.mem, t.windows == State.reset.windows)) =
      some (true, .setup, [(0x2000CE, 0xCD), (0x2000CF, 0xAB)], true) := by decide

/-- R163, R177: the straps high-low select 100000h; a write presented meanwhile joins the queue. -/
theorem test_reset_release :
    (run (.resetRelease 2)
        { State.reset with rst := true, waiting := some (.write (wr 0x100 0xF 1)) }).map
      (fun t => (t.rst, t.base, t.queue, t.waiting)) =
      some (false, 0x100000, [wr 0x100 0xF 1], none) := by decide

/-- The step takes the front command, and idles on an empty queue (log 2). -/
theorem test_step :
    (match step { State.reset with pending := [.timeBaseTick, .resetPin] } with
      | .next t => some (t.timeBase, t.pending)
      | _ => none) = some (1, [.resetPin]) := by decide

/-! ### Operations against the worked examples -/

/-- An entry of a kind with a parameter, on the low half. -/
def entryOf (k : EntryKind) (p : Nat) : EntryRec := { EntryRec.zero with kind := k, param := p }

/-- Section 7.9, entries a to h. -/
theorem test_transforms :
    ((entryOf .pass16 0).transform [0xFFFFA3C0] = (0xA3C0, false)) ∧
    ({ entryOf .pass16 0 with high := true }.transform [0xFFFFA3C0] = (0xFFFF, false)) ∧
    ((entryOf .scaleLeft 1).transform [0xFFFFA3C0] = (0x8000, true)) ∧
    ((entryOf .scaleRightLogical 4).transform [0xFFFFA3C0] = (0xFFFF, true)) ∧
    ((entryOf .scaleRightFloor 7).transform [0xFFFFA3C0] = (0xFF47, false)) ∧
    ((entryOf .scaleRightRound 7).transform [0xFFFFA3C0] = (0xFF48, false)) ∧
    ((entryOf .span 24).transform [0xFFFFA3C0, 0x12] = (0x12FF, false)) ∧
    ((entryOf .test 2).transform [0xFFFFA3C0] = (1, false)) := by decide

/-- Section 7.9, entry i, and section 7.10: DELTA through a stale period. -/
theorem test_delta :
    (formDelta 0xA3C0 { EntryState.zero with primed := true, lastSource := 1000 }).value = 0x9FD8 ∧
    (formDelta 300 EntryState.zero).value = 0 ∧
    (formDelta 340 { EntryState.zero with primed := true, lastSource := 300 }).value = 40 ∧
    ((entryOf .delta 0).form .decay []
      { primed := true, lastSource := 340, lastOutput := 40, sent := true } 2).value = 30 ∧
    ((entryOf .delta 0).form .decay []
      { primed := false, lastSource := 340, lastOutput := 30, sent := true } 2).value = 23 := by decide

/-- Section 5.9: a decay with shift 3 toward 400. -/
theorem test_decay_steps :
    decayStep (-5000) 400 3 = -4325 ∧ decayStep (-4325) 400 3 = -3734 ∧
    decayStep (-3734) 400 3 = -3217 ∧ decayStep (-3217) 400 3 = -2764 ∧
    decayStep 393 400 3 = 394 ∧ decayStep 407 400 3 = 400 := by decide

/-- Section 4.8: I0 holds 8 halves and is urgent; the list before grant 1, and after O1's turn. -/
def crowded : State :=
  { (base.modIn 0 fun l =>
      { l with frames := [frame (some 1) (some 1) .good
          (List.replicate 8 { word := 0, high := false, data := 0 })] }) with
    copyPtr := 3 }

/-- The requests of section 4.8, by requester. -/
def list48 : List Request :=
  [req .journal true 0 0xF 0, req (.copyJob 0) true 0 0xF 0, req (.copyJob 5) true 0 0xF 0,
   req (.outLane 1) false 0 0xF 0, req .host false 0 0xF 0, req (.inLane 0) true 0 0xF 0]

/-- Section 4.8: grants 1, 2, 3, 11 and 12. -/
theorem test_grant_order :
    (crowded.choose list48).map Request.who = some (.inLane 0) ∧
    (base.choose list48).map Request.who = some .host ∧
    (base.choose (list48.map fun r => { r with urgent := decide (r.who = .outLane 1) })).map
      Request.who = some (.outLane 1) ∧
    (crowded.choose (list48.take 3)).map Request.who = some (.copyJob 5) ∧
    (crowded.grant (req (.copyJob 5) true 0 0xF 0)).copyPtr = 6 ∧
    ({ crowded with copyPtr := 6 }.choose (list48.take 2)).map Request.who = some (.copyJob 0) := by
  decide

/-- R199 by hand for one half of zeros: the register after FFFFh and 16 zero bits. -/
theorem test_crc_of_a_zero_half : crcHalf crcInit 0 = 0x1D0F := by decide +kernel

/-! ### States that meet the hypotheses of the statements: host port, closes, requests, reads -/

theorem test_meets_StepRunsTheFrontCommand :
    { base with pending := [Instr.timeBaseTick, .resetPin] }.pending = .timeBaseTick :: [.resetPin] := rfl

theorem test_meets_PresentedTransferJoinsOrWaits :
    let three := { base with queue := List.replicate 3 (wr 0 0xF 0) }
    let four := { base with queue := List.replicate 4 (wr 0 0xF 0) }
    let inReset := { base with rst := true }
    (three.hrdy = true ∧ three.rst = false ∧ three.queue.length < 4) ∧
      (four.hrdy = true ∧ four.rst = false ∧ 4 ≤ four.queue.length) ∧
      (inReset.hrdy = true ∧ inReset.rst = true) ∧ (0x1FFFFC : BitVec 21).toNat % 4 = 0 := by
  decide

/-- The straps low-high put the control area at 080000h. -/
def strapped (d : DevState) : State := { base with straps := 1, dev := d }

theorem test_meets_PassThroughReachesMemoryAtItsOwnAddress :
    (∀ d : DevState, d = .setup ∨ d = .loading →
      ((strapped d).controlWord (wr 0x7FFFC 0 0).adr = none ∧
        (strapped d).controlWord (wr 0x80000 0 0).adr = some 0 ∧
        (strapped d).controlWord (wr 0x800FC 0 0).adr = some 63 ∧
        (strapped d).controlWord (wr 0x80100 0 0).adr = none)) ∧
    AtHead (posting (strapped .setup) (wr 0x80100 0x3 7)) (wr 0x80100 0x3 7) ∧
    NoGrantDue (posting (strapped .setup) (wr 0x80100 0x3 7)) ∧
    (posting (strapped .setup) (wr 0x80100 0x3 7)).treatment (wr 0x80100 0x3 7) = .passThrough := by
  refine ⟨?_, ?_, ?_, ?_⟩
  · intro d h
    cases h with
    | inl h => subst h; decide
    | inr h => subst h; decide
  · unfold AtHead; decide
  · unfold NoGrantDue; decide
  · decide

/-- Payload words 0 and 3, the first and the last, with a FILLING buffer and with none. -/
theorem test_meets_PayloadWriteGoesToTheFillingBuffer :
    let s := posting base (wr 0x10014 0xF 1)
    let t := posting (base.modPool 0 fun _ => Pool.zero) (wr 0x10008 0xF 1)
    (AtHead s (wr 0x10014 0xF 1) ∧ NoGrantDue s ∧ s.dev = .run ∧
      s.controlWord (wr 0x10014 0xF 1).adr = none ∧ s.windowAt (wr 0x10014 0xF 1).adr = some 0 ∧
      (s.win 0).writer = .host ∧ s.partAt 0 (wr 0x10014 0xF 1).adr = .payload 3 ∧
      (s.pool 0).find .filling = some 3) ∧
    (AtHead t (wr 0x10008 0xF 1) ∧ NoGrantDue t ∧ t.dev = .run ∧
      t.controlWord (wr 0x10008 0xF 1).adr = none ∧ t.windowAt (wr 0x10008 0xF 1).adr = some 0 ∧
      (t.win 0).writer = .host ∧ t.partAt 0 (wr 0x10008 0xF 1).adr = .payload 0 ∧
      (t.pool 0).find .filling = none) := by
  unfold AtHead NoGrantDue; decide

theorem test_meets_RefusedWriteIsDroppedAndReported :
    let s := posting base (wr 0x10000 0xF 0)
    AtHead s (wr 0x10000 0xF 0) ∧ NoGrantDue s ∧
      s.treatment (wr 0x10000 0xF 0) = .refused .headWord (some 0) := by
  unfold AtHead NoGrantDue; decide

/-- The last address of each part and range, and the first behind it. -/
theorem test_meets_WriteTreatmentInRunAndStopping :
    (base.dev = .run ∧ base.windowAt (wr 0x10000 0 0).adr = some 0 ∧
      base.partAt 0 (wr 0x10000 0 0).adr = .head ∧ base.partAt 0 (wr 0x10004 0 0).adr = .close ∧
      base.partAt 0 (wr 0x10008 0 0).adr = .payload 0 ∧ base.partAt 0 (wr 0x10014 0 0).adr = .payload 3 ∧
      base.partAt 0 (wr 0x10018 0 0).adr = .outside ∧ base.windowAt (wr 0x1003C 0 0).adr = some 0 ∧
      (base.win 0).writer = .host) ∧
    (base.windowAt (wr 0x10048 0 0).adr = some 1 ∧ base.partAt 1 (wr 0x10048 0 0).adr = .payload 0 ∧
      (base.win 1).writer ≠ .host ∧ { base with dev := .stopping }.dev = .stopping) ∧
    (base.controlWord (wr 0x100 0 0).adr = none ∧ base.windowAt (wr 0x100 0 0).adr = none ∧
      base.windowAt (wr 0x2C8 0 0).adr = none ∧ 0x2CC = base.base + 0x100 + 4 * base.header.imageLength) ∧
    ((strapped .run).controlWord (wr 0x7FFFC 0 0).adr = none ∧
      (strapped .run).windowAt (wr 0x7FFFC 0 0).adr = none ∧ 0x7FFFC < (strapped .run).base + 0x100) ∧
    (base.neutralAt (wr 0x2000 0 0).adr = some 0 ∧ base.neutralAt (wr 0x200C 0 0).adr = some 0 ∧
      base.neutralAt (wr 0x2010 0 0).adr = none ∧ base.header.mode = .continuous ∧
      base.header.ringAddr + 16 * base.header.capacity = 0x8100 ∧
      base.windowAt (wr 0x8100 0 0).adr = none ∧ base.neutralAt (wr 0x8100 0 0).adr = none) := by
  decide

theorem test_meets_CloseOutcomeIsTheFirstCaseThatHolds :
    (base.pool 0).find .filling = some 3 := by decide

/-- A count that is one short, a missing enable, and a missing enable of a window I0 writes. -/
theorem test_meets_RefusedCloseIsRecordedAndReported :
    ∀ x ∈ [wr 0x10004 0xF 0x00070001, wr 0x10004 0x7 0x00070002, wr 0x10004 0xF 0x00070000],
      (AtHead (posting base x) x ∧ NoGrantDue (posting base x) ∧
        (posting base x).treatment x = .close 0 ∧ (posting base x).closeOutcome 0 x ≠ .accepted) ∧
      (posting base (wr 0x10044 0x7 0x00070002)).closeOutcome 1 (wr 0x10044 0x7 0x00070002) =
        .notWriter := by
  unfold AtHead NoGrantDue; decide

/-- W0 with a full map. -/
def fullBase : State :=
  base.modPool 0 fun p =>
    { p with bufs := p.bufs.set 3 (fillingBuf [(0, 0xF), (1, 0xF), (2, 0xF), (3, 0xF)]) }

theorem test_meets_FullCloseCommitsAtOnce :
    let x := wr 0x10004 0xF 0x00070004
    let s := posting fullBase x
    AtHead s x ∧ NoGrantDue s ∧ s.treatment x = .close 0 ∧ s.closeOutcome 0 x = .accepted ∧
      (s.pool 0).find .filling = some 3 ∧ s.freeBuffer 0 = some 0 ∧ s.fillingFull 0 = true := by
  unfold AtHead NoGrantDue; decide

/-- A commit that ends the group's staleness: the timer restarts, and RESUMED and COMMIT are offered in
that order. -/
theorem test_commit_offers :
    let x := wr 0x10004 0xF 0x00070004
    let s := { (fullBase.modPool 0 fun p => { p with ownMark := true }) with
      header := { base.header with selected := 0x20008 } }
    (run .closeRequest (posting s x)).map (fun t =>
      (t.raised .resumed, (t.pool 0).timer,
        t.journal.queue.map fun e => [e.word 0, e.detail1, e.detail2])) =
      some (true, some (0x41000 + 20000), [[0x003, 7, 0], [0x103, 4, 0], [0x011, 7, 0]]) := by
  decide

theorem test_meets_CarryCloseStartsCopyForward :
    let x := wr 0x10004 0xF 0x00070002
    let s := posting base x
    AtHead s x ∧ NoGrantDue s ∧ s.treatment x = .close 0 ∧ s.closeOutcome 0 x = .accepted ∧
      (s.pool 0).find .filling = some 3 ∧ s.freeBuffer 0 = some 0 ∧ s.fillingFull 0 = false := by
  unfold AtHead NoGrantDue; decide

theorem test_meets_StartBeginsALoadInSetupOnly :
    ∀ d ∈ [DevState.setup, .loading, .run, .stopping],
      let x := wr 0x0 0xF 1
      let s := posting { base with dev := d } x
      AtHead s x ∧ NoGrantDue s ∧ s.controlWord x.adr = some 0 ∧ x.be = 0xF ∧ x.data = 1 ∧ s.dev = d := by
  unfold AtHead NoGrantDue; decide

/-- With a lane SENDING, and with none. -/
theorem test_meets_StopInRunTearsDown :
    let x := wr 0x0 0xF 2
    ∀ s ∈ [posting oneSending x, posting base x],
      (AtHead s x ∧ NoGrantDue s ∧ s.controlWord x.adr = some 0 ∧ x.be = 0xF ∧ x.data = 2 ∧ s.dev = .run) ∧
      (oneSending.out 0).st = .sending ∧ ∀ z : Fin 6, (base.out z).st ≠ .sending := by
  unfold AtHead NoGrantDue; decide

/-- A host access in progress, and requests of a lane fetch, a job and the journal on the list. -/
theorem test_meets_StopInRunTearsDown_stay :
    let s := { serving base (req .host true 0 0xF 0) with
      requests := [req (.outLane 0) false 0 0xF 0, req (.copyJob 0) false 0 0xF 0,
        req .journal true 0x8000 0xF 0] }
    NoGrantDue s ∧ (run .stop (posting s (wr 0x0 0xF 2))).map (fun t =>
      (t.port == s.port, t.requests.map Request.who)) =
        some (true, [.outLane 0, .journal]) := by
  unfold NoGrantDue; decide

/-- The load's request waits behind a journal write in progress. -/
theorem test_meets_StopOutsideRun_stay :
    let s := { serving { base with dev := .loading, load := some LoadJob.fresh }
        (req .journal true 0x8000 0xF 0) with
      requests := [req .load false 0x100 0xF 0, req .host false 0 0xF 0] }
    NoGrantDue s ∧ (run .stop (posting s (wr 0x0 0xF 2))).map (fun t =>
      (t.port == s.port, t.requests.map Request.who)) = some (true, [.host]) := by
  unfold NoGrantDue; decide

/-- In LOADING with the load's read at the port, in SETUP and in STOPPING. -/
theorem test_meets_StopOutsideRun :
    let x := wr 0x0 0xF 2
    let loading := serving { base with dev := .loading, load := some LoadJob.fresh }
      (req .load false 0x100 0xF 0)
    ∀ s ∈ [posting loading x, posting { base with dev := .setup } x, posting { base with dev := .stopping } x],
      (AtHead s x ∧ NoGrantDue s ∧ s.controlWord x.adr = some 0 ∧ x.be = 0xF ∧ x.data = 2 ∧ s.dev ≠ .run) ∧
      loading.port.map (fun a => a.req.who) = some .load := by
  unfold AtHead NoGrantDue; decide

theorem test_meets_UnknownRequestIsRecorded :
    ∀ x ∈ [wr 0x0 0x7 1, wr 0x0 0xF 0, wr 0x0 0xF 3],
      AtHead (posting base x) x ∧ (posting base x).controlWord x.adr = some 0 ∧
        (x.be ≠ 0xF ∨ x.data ≠ 1 ∧ x.data ≠ 2) := by
  unfold AtHead; decide

theorem test_meets_AcknowledgeClearsTheNamedFlags :
    let x := wr 0x4 0xF 0xFFFFFFFF
    AtHead (posting base x) x ∧ (posting base x).controlWord x.adr = some 1 := by
  unfold AtHead; decide

theorem test_meets_OtherControlWriteIsDropped :
    ∀ j ∈ [2, 63],
      let x := wr (4 * j) 0xF 0
      AtHead (posting base x) x ∧ (posting base x).controlWord x.adr = some j ∧ 2 ≤ j := by
  unfold AtHead; decide

/-- Words at both ends of their groups, and the two bounded fields at their greatest values. -/
theorem test_meets_ControlReadIsAnswered :
    let s := { base with
      journal := { Journal.zero with writeIndex := 4095 }, loadErr := { check := 12, index := 4095 } }
    (∀ j ∈ [0, 5, 7, 8, 55, 56, 63],
      AtRead (asking base (4 * j)) (wr (4 * j) 0 0).adr 0xF ∧
        (asking base (4 * j)).controlWord (wr (4 * j) 0 0).adr = some j) ∧
    (∀ j ∈ [0, 1, 63], base.controlWord (BitVec.ofNat 19 j) = some j) ∧
    base.controlWord 64 = none ∧
    s.journal.writeIndex < 4096 ∧ s.loadErr.index < 4096 ∧ s.loadErr.check ≤ 12 ∧
      s.control 3 = 0x00000FFF ∧ s.control 4 = 0x0000CFFF := by
  unfold AtRead; decide

/-- The close word, the first word behind the payload, and the head words of a host window and of an
inbound window in STOPPING. -/
theorem test_meets_WindowPartsAreAnswered :
    let st := { base with dev := .stopping }
    (∀ p ∈ [(0x10004, Part.close), (0x10018, .outside), (0x1003C, .outside), (0x10000, .head)],
      AtRead (asking base p.1) (wr p.1 0 0).adr 0xF ∧ (asking base p.1).dev = .run ∧
        (asking base p.1).controlWord (wr p.1 0 0).adr = none ∧
        (asking base p.1).windowAt (wr p.1 0 0).adr = some 0 ∧
        (asking base p.1).partAt 0 (wr p.1 0 0).adr = p.2) ∧
    ((base.win 0).writer = .host ∧ (base.pool 0).fillingTouched = 2) ∧
    (AtRead (asking st 0x10040) (wr 0x10040 0 0).adr 0xF ∧ st.dev = .stopping ∧
      st.controlWord (wr 0x10040 0 0).adr = none ∧ st.windowAt (wr 0x10040 0 0).adr = some 1 ∧
      st.partAt 1 (wr 0x10040 0 0).adr = .head ∧ (st.win 1).writer ≠ .host) := by
  unfold AtRead; decide

/-- The FILLING buffer of W0 in `base`, and a window without one. -/
theorem test_meets_WindowPartsAreAnswered_touched :
    (base.pool 0).bufs[3].st = .filling ∧
    (∀ j : Fin 8, (base.pool 0).bufs[j].st = .filling → j = 3) ∧
    ((base.pool 0).bufs[3].map).Pairwise (fun c d => c.1 < d.1) ∧
    (∀ c ∈ (base.pool 0).bufs[3].map, c.1 < 4) ∧
    ((List.range 4).filter fun i => decide (((base.pool 0).bufs[3].map).get i ≠ 0)).length = 2 ∧
    ∀ k : Fin 8, (base.pool 1).bufs[k].st ≠ .filling := by decide

/-- Word 1 of W0 in 3.10: its bytes come from two sources. -/
theorem test_meets_MergedReadTakesTheFirstSource :
    let s := asking committing 0x1000C
    let a := (wr 0x1000C 0 0).adr
    AtRead s a 0xF ∧ NoGrantDue s ∧ s.dev = .run ∧ s.controlWord a = none ∧ s.windowAt a = some 0 ∧
      s.partAt 0 a = .payload 1 ∧ (s.win 0).writer = .host ∧
      (s.pool 0).find .filling = some 0 ∧ (s.pool 0).find .retired = none ∧
      (viewed.pool 1).holding .view = some 1 ∧ (s.pool 0).holding .view = none := by
  unfold AtRead NoGrantDue; decide

theorem test_meets_HeadWordReadMovesTheView :
    let s := asking viewed 0x10040
    let a := (wr 0x10040 0 0).adr
    AtRead s a 0xF ∧ s.dev = .run ∧ s.controlWord a = none ∧ s.windowAt a = some 1 ∧
      s.partAt 1 a = .head ∧ (s.win 1).writer ≠ .host := by
  unfold AtRead; decide

/-! ### Performances, loads, the journal -/

/-- For every requester a write or read at the port, with the command that reports its performance. -/
theorem test_meets_PerformanceStoresExactlyTheEnabledBytes :
    ∀ p ∈ [(Instr.hostAccessPerformed, req .host true 0x3FFFFC 0x9 7),
        (.laneFetchPerformed, req (.outLane 5) false 0 0xF 0),
        (.inboundWritePerformed, req (.inLane 1) true 0x200148 0xC 7),
        (.copyReadPerformed, req (.copyJob 15) false 0x200090 0xF 0),
        (.copyWritePerformed, req (.copyJob 15) true 0x2000D0 0x3 7),
        (.loadReadPerformed, req .load false 0x100 0xF 0),
        (.journalWordPerformed, req .journal true 0x80FC 0xF 7)],
      performs p.1 p.2 = true ∧ (serving base p.2).rst = false ∧
        (serving base p.2).port = some { req := p.2, withdrawn := false } ∧
        MemoryLaw (serving base p.2) := by
  unfold MemoryLaw; decide

/-- A withdrawn access of a copy-forward job, and of O0 with a word to request, with none in its plan,
and not SENDING. -/
theorem test_meets_PerformanceStoresExactlyTheEnabledBytes_withdrawn :
    let copy := req (.copyJob 0) true 0x2000D0 0x3 7
    let word := req (.outLane 0) false 0x200090 0xF 0
    let of := fun (r : Request) (s : State) => { s with port := some { req := r, withdrawn := true } }
    let lane := fun (plan : List PlanWord) =>
      of word (base.modOut 0 fun _ => { lane612 5 with asked := none, plan := plan })
    let q : PlanWord := { entry := 3, adr := memAdr 0x2020 }
    (performs .copyWritePerformed copy = true ∧ (of copy base).rst = false ∧
      (of copy base).port = some { req := copy, withdrawn := true } ∧ ∀ x, copy.who ≠ .outLane x) ∧
    (∀ s ∈ [lane [q], lane [], of word base],
      performs .laneFetchPerformed word = true ∧ s.rst = false ∧
        s.port = some { req := word, withdrawn := true } ∧
        Requester.outLane 0 ∉ s.requests.map Request.who) ∧
    (((lane [q]).out 0).st = .sending ∧ ((lane [q]).out 0).asked = none ∧
      ((lane [q]).out 0).fetch.length < 8 ∧ ((lane [q]).out 0).plan = [q]) ∧
    ((lane []).out 0).plan = [] ∧ ((of word base).out 0).st ≠ .sending := by decide

/-- A steered write and one that is not, the last read and one with another to follow. -/
theorem test_meets_HostAccessIsPerformed :
    let w := req .host true 0x2000CC 0xC 0xABCD9999
    let r := req .host false 0x2000CC 0xF 0
    let part : ReadPart := { adr := memAdr 0x2000CC, be := 0xF, keep := 0xC }
    (InProgress writing w ∧ w.who = .host ∧ w.write = true ∧
      writing.su = .writing (some { w := 0, k := 3, i := 1 }) ∧
      ((writing.pool 0).bufs[3].map).Pairwise (fun c d => c.1 < d.1)) ∧
    (InProgress (serving { base with su := .writing none } w) w ∧
      (serving { base with su := .writing none } w).su = .writing none) ∧
    (InProgress (serving { base with su := .reading part [] 5 } r) r ∧ r.who = .host ∧ r.write = false ∧
      (serving { base with su := .reading part [] 5 } r).su = .reading part [] 5) ∧
    (InProgress (serving { base with su := .reading part [part] 5 } r) r ∧
      (serving { base with su := .reading part [part] 5 } r).su = .reading part (part :: []) 5) := by
  unfold InProgress; decide

/-- O0 SENDING with a word asked, and a given plan and fetch buffer. -/
def fetching (plan : List PlanWord) (n : Nat) : State :=
  serving
    (base.modOut 0 fun _ =>
      { lane612 5 with plan := plan, fetch := List.replicate n (1, 0) })
    (req (.outLane 0) false 0x200090 0xF 0)

/-- A plan with room for the word (six words fetched), an empty plan, and a buffer that becomes full. -/
theorem test_meets_LaneFetchEntersTheFetchBuffer :
    let r := req (.outLane 0) false 0x200090 0xF 0
    let p : PlanWord := { entry := 1, adr := memAdr 0x200090 }
    let q : PlanWord := { entry := 3, adr := memAdr 0x2020 }
    (∀ s ∈ [fetching [q] 6, fetching [] 6, fetching [q] 7],
      InProgress s r ∧ r.who = .outLane 0 ∧ r.write = false ∧ (s.out 0).asked = some p ∧
        (s.out 0).st = .sending ∧ Requester.outLane 0 ∉ s.requests.map Request.who) ∧
    ((fetching [q] 6).out 0).plan = [q] ∧ ((fetching [q] 6).out 0).fetch.length < 7 ∧
    ((fetching [] 6).out 0).plan = [] ∧ 7 ≤ ((fetching [q] 7).out 0).fetch.length := by
  unfold InProgress; decide

/-- I0's write of a half of B1 is at the port; the frame and the map are given. -/
def storing (o : FrameOutcome) (hs : List RxHalf) (m : WMap) : State :=
  serving
    ((base.modPool 1 fun p => { p with bufs := p.bufs.set 1 (fillingBuf m) }).modIn 0 fun l =>
      { l with st := .receiving, slot := some 4, frames := [frame (some 40) (some 1) o hs] })
    (req (.inLane 0) true 0x200148 0xC 0x12340000)

/-- The high half of payload word 0. -/
def highHalf : RxHalf := { word := 0, high := true, data := 0x1234 }

/-- A half with another behind it, and the last half of a GOOD frame that completes the map. -/
theorem test_meets_InboundWriteIsPerformed :
    let r := req (.inLane 0) true 0x200148 0xC 0x12340000
    let last : WMap := [(0, 0x3), (1, 0xF), (2, 0xF)]
    (∀ s ∈ [storing .opened [highHalf] [], storing .good [highHalf, highHalf] [], storing .good [highHalf] last],
      InProgress s r ∧ r.who = .inLane 0 ∧ r.write = true ∧
        Requester.inLane 0 ∉ s.requests.map Request.who ∧ s.inWindow 0 = some 1) ∧
    ((storing .opened [highHalf] []).inl 0).frames = [frame (some 40) (some 1) .opened [highHalf]] ∧
    ((storing .good [highHalf, highHalf] []).inl 0).frames =
      [frame (some 40) (some 1) .good [highHalf, highHalf]] ∧
    ((storing .good [highHalf] last).inl 0).frames = [frame (some 40) (some 1) .good [highHalf]] ∧
    ((((storing .good [highHalf] last).pool 1).bufs[1].map).add 0 highHalf.enables).full 3 = true ∧
    ((storing .good [highHalf] last).win 1).payloadLength = 3 := by
  unfold InProgress; decide

theorem test_meets_CopyReadIsHeldAndWritten :
    let r := req (.copyJob 0) false 0x200090 0xF 0
    let s := serving (copying [(0, 0xF), (1, 0xF), (2, 0xC)] (job28 2 .reading 1)) r
    InProgress s r ∧ r.who = .copyJob 0 ∧ r.write = false ∧
      (s.pool 0).job = some (job28 2 .reading 1) := by
  unfold InProgress; decide

/-- A word behind which word 3 has a gap, and the last word. -/
theorem test_meets_CopyWriteSeeksOnOrCommits :
    let r := req (.copyJob 0) true 0x2000D0 0x3 0x33330000
    let s := serving (copying [(0, 0xF), (1, 0xF), (2, 0xC)] (job28 2 .writing 1)) r
    let m : WMap := [(0, 0xF), (1, 0xF), (2, 0xF)]
    let e := req (.copyJob 0) true 0x2000D4 0xF 0x44440000
    (InProgress s r ∧ r.who = .copyJob 0 ∧ r.write = true ∧
      (s.pool 0).job = some (job28 2 .writing 1) ∧ ((s.pool 0).bufs[3].map).add 2 r.be = m ∧
      3 < (s.win 0).payloadLength ∧ m.get 3 ≠ 0xF) ∧
    (InProgress lastCopy e ∧ (lastCopy.pool 0).job = some (job28 3 .writing 2) ∧
      3 + 1 = (lastCopy.win 0).payloadLength) := by
  unfold InProgress; decide

/-- The load has read the first words of an image. -/
def loadingAt (ph : LoadPhase) (n : Nat) : State :=
  serving
    (holding
      { State.reset with
        dev := .loading
        load := some
          { phase := ph, index := n, length := if ph = .body then some 83 else none
            shadow := (image 0xB12C 5 100).take n, crc := 0 } }
      [(0x11C, 0x1FFFF)])
    (req .load false (0x100 + 4 * n) 0xF 0)

/-- HEADER words 6 and 7, and the last BODY word that is not the last of the image. -/
theorem test_meets_LoadReadsTheImageWordByWord :
    (∀ p ∈ [(LoadPhase.header, 6), (.header, 7), (.body, 81)],
      InProgress (loadingAt p.1 p.2) (req .load false (0x100 + 4 * p.2) 0xF 0) ∧
        (loadingAt p.1 p.2).load.map (fun j => (j.phase, j.index)) = some p) ∧
    Image.headerError ((image 0xB12C 5 100).take 7 ++ [(loadingAt .header 7).mem.readWord (memAdr 0x11C)]) =
      none ∧
    (loadingAt .body 81).load.bind (fun j => j.length) = some (81 + 1 + 1) := by
  unfold InProgress; decide

/-- The image of `test_run_entry` passes every check; that of `test_load_fails_check_ten` fails one. -/
theorem test_meets_LoadEndsInSetupOrRun :
    let s := lastLoad 2311700 (image 0xB12C 5 100) 0xF27E
    let t := lastLoad 0 (image 0xF42F 0 99) 0x24E8
    let r := req .load false 0x248 0xF 0
    (InProgress s r ∧ r.who = .load ∧ r.write = false ∧ s.mem.readWord r.adr = 0 ∧
      s.load.map (fun j => (j.phase, j.index, j.length)) = some (.body, 82, some (82 + 1)) ∧
      s.load.map (fun j => j.shadow ++ [0]) = some (image 0xB12C 5 100) ∧
      Image.bodyError (image 0xB12C 5 100) s.base (crcHalf (crcHalf 0xF27E 0) 0) = none) ∧
    (InProgress t r ∧ t.mem.readWord r.adr = 0 ∧
      t.load.map (fun j => (j.phase, j.index, j.length)) = some (.body, 82, some (82 + 1)) ∧
      t.load.map (fun j => j.shadow ++ [0]) = some (image 0xF42F 0 99) ∧
      Image.bodyError (image 0xF42F 0 99) t.base (crcHalf (crcHalf 0x24E8 0) 0) =
        some { check := 10, index := 0 }) := by
  unfold InProgress; decide +kernel

/-- RUN entry at the start instant with a MASTER lane; with a FOLLOWER lane and a CONTINUOUS journal that
selects RUN_STARTED; and with TRIGGERED journals, by RUN_STARTED and by another kind. -/
theorem test_meets_LoadEndsInSetupOrRun_start :
    ∀ p ∈ [(image 0xA00E 0 100, (0x98F0 : Half)),
        (imageOf 0x54C0 0 0x00010010 0x3FFFF 0xC3050002 100 1, 0x42D6),
        (imageOf 0x871A 0 0x0D020010 0x3FFFF 0x83050002 100 1, 0xF029),
        (imageOf 0x7661 0 0x00020010 0x3FFFF 0x83050002 100 1, 0xFD85)],
      (lastLoad 0 p.1 p.2).load.map (fun j => j.shadow ++ [0]) = some p.1 ∧
      Image.bodyError p.1 0 (crcHalf (crcHalf p.2 0) 0) = none ∧
      startInstantOf 0 (Image.header p.1).startDelay = (lastLoad 0 p.1 p.2).timeBase ∧
      (∀ q ∈ (lastLoad 0 p.1 p.2).requests, ∀ w, q.who ≠ .copyJob w) := by decide +kernel

/-- An image that passes the checks, one that fails check 10 and one that fails check 8. -/
theorem test_meets_TwelveChecksAreTakenInOrder :
    (∀ im ∈ [image 0xB12C 5 100, image 0xF42F 0 99, emptyRunImage], Image.headerError im = none) ∧
    Image.bodyError (image 0xB12C 5 100) 0 0xB12C = none ∧
    Image.bodyError (image 0xF42F 0 99) 0 0xF42F = some { check := 10, index := 0 } ∧
    Image.bodyError emptyRunImage 0 0x8AC7 = some { check := 8, index := 2 } := by decide +kernel

/-- The image that passes, with words 0, 2, 3 and 4 of its window record given. -/
def windowed (w0 w2 w3 w4 : Word) : List Word :=
  (image 0xB12C 5 100).take 8 ++ [w0, 0x1000, w2, w3, w4, 0, 0, 0] ++ (image 0xB12C 5 100).drop 16

/-- R197: without buffers the buffer base still lies in its range, and without payload the neutral address:
checks 5 and 4; inside their ranges such a record fails check 6 alone. -/
theorem test_empty_areas_begin_in_their_range :
    Image.bodyError (windowed 0x88000001 0x10001 0x1FFFC0 0x4000) 0 0xB12C =
      some { check := 5, index := 0 } ∧
    Image.bodyError (windowed 0x88000001 0x10001 0x400000 0x4000) 0 0xB12C =
      some { check := 5, index := 0 } ∧
    Image.bodyError (windowed 0x88000001 0x10001 0x3FFFC0 0x4000) 0 0xB12C =
      some { check := 6, index := 0 } ∧
    Image.bodyError (windowed 0x88000301 0x10000 0x200000 0x200000) 0 0xB12C =
      some { check := 4, index := 0 } ∧
    Image.bodyError (windowed 0x88000301 0x10000 0x200000 0x1FFFFC) 0 0xB12C =
      some { check := 6, index := 0 } := by decide +kernel

/-- The journal at a word count and a write index, of a ring of 16 entries, with its full policy. -/
def journalAt (n i : Nat) (p : FullPolicy) : State :=
  { burst with
    header := { burst.header with full := p }
    journal := { burst.journal with wordCount := n, writeIndex := i } }

theorem test_meets_JournalWordIsPerformed :
    let r := req .journal true 0x80FC 0xF 0
    (∀ s ∈ [journalAt 2 15 .halt, journalAt 3 14 .halt, journalAt 3 15 .halt, journalAt 3 15 .rollover],
      InProgress s r ∧ r.who = .journal ∧ s.journal.queue.length = 3) ∧
    (journalAt 2 15 .halt).journal.wordCount < 3 ∧
    (journalAt 3 14 .halt).journal.writeIndex + 1 ≠ (journalAt 3 14 .halt).header.capacity ∧
    (journalAt 3 15 .halt).journal.writeIndex + 1 = (journalAt 3 15 .halt).header.capacity ∧
    (journalAt 3 15 .rollover).header.full = .rollover ∧ (journalAt 3 15 .halt).header.full = .halt ∧
    { burst with journal := { burst.journal with queue := [jent .underrun] } }.journal.queue =
      jent .underrun :: [] := by
  unfold InProgress; decide

/-- Kinds 0 and 4 are selected in `base`, kind 2 is not; the trigger is kind 0. -/
theorem test_meets_RaiseOffersAnEntryToTheJournal :
    Kind.underrun ≠ .commit ∧ base.journal.st = .recording ∧
    base.header.selected.getLsbD Kind.underrun.code = true ∧
    base.header.selected.getLsbD Kind.timedOut.code = false ∧
    (∀ n ∈ [7, 8],
      { base with journal := { base.journal with queue := List.replicate n (jent .underrun) } }.journal.queue.length
        = n) ∧
    base.header.trigger = Kind.closeRefused.code ∧ base.header.trigger ≠ Kind.underrun.code ∧
    (∀ j ∈ [JState.off, .awaiting, .recording, .halted, .draining, .ended],
      { base with journal := { Journal.zero with st := j } }.journal.st = j) ∧
    expiring.header.selected.getLsbD 14 = false ∧
    { base with header := { base.header with selected := 0x4000 } }.header.selected.getLsbD 14 = true ∧
    base.header.trigger ≠ 14 ∧
    { base with header := { base.header with trigger := 14 } }.header.trigger = 14 ∧
    ∀ n, { jent .underrun with source := some 255 }.source = some n → n < 256 := by
  decide

/-- COMMIT is accepted as the trigger while it is not selected, and its word 0 is requested; RECORDING, an
unselected COMMIT is ignored, and a selected one finds a full queue. -/
theorem test_meets_RaiseOffersAnEntryToTheJournal_commit :
    let s := { base with
      header := { base.header with trigger := 17 }, journal := { Journal.zero with st := .awaiting } }
    let full := { base with
      header := { base.header with selected := 0x20000 }
      journal := { Journal.zero with
        st := .recording, queue := List.replicate 8 (jent .stopped), lost := 65535 } }
    (s.header.trigger = (jent .commit).kind.code ∧ s.header.selected.getLsbD 17 = false ∧
      s.journal.queue = [] ∧ s.journal.wordCount = 0 ∧
      (s.offer (jent .commit)).requests = [s.firstWrite (jent .commit)] ∧
      (s.offer (jent .commit)).journal.st = .recording) ∧
    base.offer (jent .commit) = base ∧
    (full.header.selected.getLsbD 17 = true ∧ 8 ≤ full.journal.queue.length ∧
      (full.offer (jent .commit)).journal = full.journal ∧
      (full.offer (jent .commit)).raised .journalLost = true) := by
  refine ⟨by decide, rfl, by decide⟩

theorem test_meets_GrantTakesTheFirstOrder :
    (base.choose list48 = some (req .host false 0 0xF 0)) ∧
    (∀ r ∈ list48, r.who = .journal ∨ r.who = .host ∨ r.who = .outLane 1 ∨ r.who = .inLane 0 ∨
      r.who = .copyJob 0 ∨ r.who = .copyJob 5) := by decide

/-! ### Staleness and time -/

theorem test_meets_CueStateIsDerivedFromTheMarks : (base.win 0).enabled = true := by decide

theorem test_meets_TimerExpiryMakesTheGroupStale :
    expiring.rst = false ∧ NoGrantDue expiring ∧ (expiring.pool 0).timer = some expiring.timeBase ∧
      expiring.sameGroup 1 0 = true ∧ (expiring.win 1).enabled = true ∧
      (expiring.pool 1).committed = true := by
  unfold NoGrantDue; decide

theorem test_meets_StartInstantIsTheNextWholeMillisecond :
    let s := { base with startReached := false, startInstant := 0x41000 }
    s.rst = false ∧ s.dev = .run ∧ s.startReached = false ∧ s.timeBase = s.startInstant := by
  decide

theorem test_meets_TimeBaseCountsTicks :
    base.rst = false ∧ { base with rst := true }.rst = true ∧
    { base with timeBase := 0xFFFFFFFF }.timeBase = 0xFFFFFFFF ∧
    exec .startInstantReached base = .next base := ⟨rfl, rfl, rfl, rfl⟩

/-! ### Outbound lanes -/

/-- W0 with a READY buffer and a stale policy, STALE or LIVE. -/
def drawing (p : Policy) (stale : Bool) : State :=
  { (base.modPool 0 fun q => { q with ownMark := stale }) with
    windows := wins.set 0 { hostWin with policy := p } }

/-- A MASTER lane BETWEEN and WAITING, and every row of R97 for W0. -/
theorem test_meets_MasterStartsItsFrameOnSchedule :
    let waiting := before212.modOut 0 fun l => { l with st := .waiting }
    (∀ s ∈ [before212, waiting],
      s.rst = false ∧ NoGrantDue s ∧ s.dev = .run ∧ s.startReached = true ∧
        (s.outRec 0).timing = .master ∧ (s.out 0).nextStart = some s.timeBase ∧
        Requester.outLane 0 ∉ s.requests.map Request.who) ∧
    ((before212.out 0).st = .between ∧ (waiting.out 0).st = .waiting) ∧
    (before212.cueState 1 = .empty ∧ (drawing .hold false).cueState 0 = .live) ∧
    ∀ p ∈ [Policy.hold, .neutral, .decay],
      (drawing p true).cueState 0 = .stale ∧ ((drawing p true).win 0).policy = p ∧
        ((drawing p true).pool 0).find .ready = some 2 := by
  unfold NoGrantDue; decide

/-- O1 in WAITING at its first pulse. -/
def firstPulse : State := at613 1000 { OutLane.zero with st := .waiting }

/-- O1 BETWEEN at an edge `n` µs after the pulse it checks against; the tolerance is 333 µs of 16,667. -/
def edgeAfter (n : Nat) : State :=
  at613 (72050 + BitVec.ofNat 32 n)
    { OutLane.zero with
      st := .between, frameNo := 6
      pulse := { last := some 72050, checked := true, deadline := none, inRun := false } }

/-- WAITING, BETWEEN at both ends of the interval that is no drift and beside them, and SENDING. -/
theorem test_meets_ActiveEdgeStartsOrCutsAFrame :
    (∀ s ∈ [firstPulse, edgeAfter 16333, edgeAfter 16334, edgeAfter 17000, edgeAfter 17001, before72050],
      s.rst = false ∧ NoGrantDue s ∧ s.dev = .run ∧ (s.outRec 1).timing = .follower ∧
        ((s.out 1).st = .waiting ∧ s.startReached = true ∨ (s.out 1).st = .between ∨
          (s.out 1).st = .sending)) ∧
    16333 + 16667 * 2 / 100 < 16667 ∧ ¬ 16334 + 16667 * 2 / 100 < 16667 ∧
    ¬ 16667 + 16667 * 2 / 100 < 17000 ∧ 16667 + 16667 * 2 / 100 < 17001 ∧
    (∀ s ∈ [firstPulse, edgeAfter 16333], Requester.outLane 1 ∉ s.requests.map Request.who) ∧
    ((before72050.out 1).pulse.checked = false ∧ ((edgeAfter 16333).out 1).pulse.checked = true) := by
  unfold NoGrantDue; decide

/-- O1 SENDING at an edge that pulse checked lets it test, in time and too early, its fetch at the port. -/
theorem test_meets_ActiveEdgeStartsOrCutsAFrame_checked :
    ∀ n ∈ [16333, 16334],
      let s := serving
        ((edgeAfter n).modOut 1 fun l => { l with st := .sending, begun := 3 })
        (req (.outLane 1) false 0x200090 0xF 0)
      s.rst = false ∧ NoGrantDue s ∧ s.dev = .run ∧ (s.outRec 1).timing = .follower ∧
        (s.out 1).st = .sending ∧ (s.out 1).pulse.last = some 72050 ∧ (s.out 1).pulse.checked = true ∧
        s.port.map (fun a => a.req.who) = some (.outLane 1) := by
  unfold NoGrantDue; decide

/-- The first flywheel start of a run, and a later one. -/
theorem test_meets_FlywheelStartsAFrameAtTheDeadline :
    let again := before55333.modOut 1 fun l => { l with pulse := { l.pulse with inRun := true } }
    (∀ s ∈ [before55333, again],
      s.rst = false ∧ NoGrantDue s ∧ s.dev = .run ∧ (s.outRec 1).timing = .follower ∧
        (s.out 1).st = .between ∧ (s.out 1).pulse.deadline = some s.timeBase) ∧
    (before55333.out 1).pulse.inRun = false ∧ (before55333.out 1).pulse.last = some 34500 ∧
    (again.out 1).pulse.inRun = true ∧
    (∀ s ∈ [before55333, again], Requester.outLane 1 ∉ s.requests.map Request.who) := by
  unfold NoGrantDue; decide

/-- O0 when position `j` is due; `tail` is the second half of a two-slot value. -/
def atSlot (j : Nat) (tail : Option Half) : State :=
  { (base.modOut 0 fun _ => { sendingLane 0x41000 j with draws := draws612, tail := tail }) with
    timeBase := 0x41000 + BitVec.ofNat 32 (8 * j) }

/-- R118: the FP line of O0 is active from the frame start until position 1 begins; that of O1, a FOLLOWER,
is not driven. -/
theorem test_fp_line :
    (run (.masterScheduledStart 0) before212).map (fun t => t.fpActive 0) = some true ∧
    (atSlot 1 none).fpActive 0 = true ∧
    (run (.slotBegin 0) (atSlot 1 none)).map (fun t => t.fpActive 0) = some false ∧
    (run (.outboundActiveEdge 1 .rising) before72050).map (fun t => t.fpActive 1) = some false := by
  decide +kernel

/-- The header positions, a second half at D2, the empty slots D2 and D5 (the last), and the trailer. -/
theorem test_meets_SlotsWithoutAnEntryStart :
    (∀ p ∈ [(1, none), (2, none), (3, none), (6, some 5), (6, none), (9, none), (10, none)],
      (atSlot p.1 p.2).rst = false ∧ NoGrantDue (atSlot p.1 p.2) ∧
        ((atSlot p.1 p.2).out 0).st = .sending ∧ ((atSlot p.1 p.2).out 0).begun = p.1 ∧ 1 ≤ p.1 ∧
        p.1 < ((atSlot p.1 p.2).outRec 0).slots + 5 ∧
        (atSlot p.1 p.2).timeBase = ((atSlot p.1 p.2).out 0).frameTime +
          BitVec.ofNat 32 (p.1 * ((atSlot p.1 p.2).outRec 0).slotTime) ∧
        (4 ≤ p.1 → p.1 < ((atSlot p.1 p.2).outRec 0).slots + 4 → p.2 = none →
          (atSlot p.1 p.2).entryAt 0 (p.1 - 4) = none)) ∧
    (base.outRec 0).clock = .full ∧
    ({ base with lanes := base.lanes.set 0 { masterLane with clock := .gapped } }.outRec 0).clock = .gapped := by
  unfold NoGrantDue; decide +kernel

/-- The fetching at a slot: a request that waits, one to make, an empty plan, and an access in progress. -/
theorem test_meets_SlotsWithoutAnEntryStart_fetch :
    let q : PlanWord := { entry := 3, adr := memAdr 0x2020 }
    let s := fun (asked : Option PlanWord) (plan : List PlanWord) =>
      (atSlot 6 none).modOut 0 fun l => { l with asked := asked, plan := plan }
    let busy := serving (s none [q]) (req (.outLane 0) false 0x200090 0xF 0)
    ((s (some q) []).out 0).asked = some q ∧
    (((s none [q]).out 0).asked = none ∧ (s none [q]).inProgress (.outLane 0) = false ∧
      Requester.outLane 0 ∉ (s none [q]).requests.map Request.who ∧
      ((s none [q]).out 0).fetch.length < 8 ∧ ((s none [q]).out 0).plan = [q]) ∧
    ((s none []).out 0).plan = [] ∧ busy.inProgress (.outLane 0) = true := by decide

/-- D1's SPAN entry underruns with its word at the port, and with its word on the list behind a host's. -/
theorem test_meets_EntrySendsItsValueOrUnderruns_asked :
    let p : PlanWord := { entry := 1, adr := memAdr 0x200090 }
    let r := req (.outLane 0) false 0x200090 0xF 0
    let s := (atD1 [(1, 0xFFFFA3C0)]).modOut 0 fun l => { l with asked := some p }
    let own := serving s r
    let other := { serving s (req .host false 0 0xF 0) with requests := [r] }
    (∀ u ∈ [own, other],
      NoGrantDue u ∧ (u.out 0).asked = some p ∧ p.entry = 1 ∧ u.entryAt 0 1 = some 1 ∧
        (u.out 0).underMark = false) ∧
    own.port.map (fun a => a.req.who) = some (.outLane 0) ∧
    other.port.map (fun a => a.req.who) = some .host := by
  unfold NoGrantDue; decide +kernel

/-- D1's SPAN entry underruns with no word asked for: its withdrawn access is still in progress; the fetch
buffer is full; the request for a word of the entry behind it is made; nothing is planned behind it. -/
theorem test_meets_EntrySendsItsValueOrUnderruns_not_asked :
    let q : PlanWord := { entry := 3, adr := memAdr 0x200150 }
    let s := fun (fetch : List (Nat × Word)) (plan : List PlanWord) =>
      (atD1 fetch).modOut 0 fun l => { l with asked := none, plan := plan }
    let cut := { s [] [q] with
      port := some { req := req (.outLane 0) false 0x200090 0xF 0, withdrawn := true } }
    let full := s (List.replicate 8 (3, 0)) [q]
    let next := s [(1, 0xFFFFA3C0)] [q]
    let last := s [(1, 0xFFFFA3C0)] []
    (∀ u ∈ [cut, full, next, last],
      u.rst = false ∧ NoGrantDue u ∧ (u.out 0).st = .sending ∧ (u.out 0).begun = 1 + 4 ∧
        1 < (u.outRec 0).slots ∧ (u.out 0).tail = none ∧ u.entryAt 0 1 = some 1 ∧
        u.timeBase = (u.out 0).frameTime + BitVec.ofNat 32 ((1 + 4) * (u.outRec 0).slotTime) ∧
        (u.out 0).asked = none ∧ Requester.outLane 0 ∉ u.requests.map Request.who ∧
        ¬ ((((u.out 0).fetch.take 2).length = 2) ∧ ∀ p ∈ (u.out 0).fetch.take 2, p.1 = 1)) ∧
    cut.inProgress (.outLane 0) = true ∧ next.inProgress (.outLane 0) = false ∧
    (run (.slotBegin 0) cut).map (fun t => ((t.out 0).asked, (t.out 0).plan)) = some (none, [q]) ∧
    (run (.slotBegin 0) full).map (fun t => ((t.out 0).asked, (t.out 0).fetch.length)) = some (none, 8) ∧
    (run (.slotBegin 0) next).map (fun t => ((t.out 0).asked, (t.out 0).plan)) = some (some q, []) := by
  unfold NoGrantDue; decide +kernel

/-- D1's SPAN entry with both its words, and with one. -/
theorem test_meets_EntrySendsItsValueOrUnderruns :
    (∀ f ∈ [[(1, 0xFFFFA3C0), (1, 0x12)], [(1, (0xFFFFA3C0 : Word))]],
      (atD1 f).rst = false ∧ NoGrantDue (atD1 f) ∧ ((atD1 f).out 0).st = .sending ∧
        ((atD1 f).out 0).begun = 1 + 4 ∧ 1 < ((atD1 f).outRec 0).slots ∧
        (atD1 f).timeBase =
          ((atD1 f).out 0).frameTime + BitVec.ofNat 32 ((1 + 4) * ((atD1 f).outRec 0).slotTime) ∧
        ((atD1 f).out 0).tail = none ∧ (atD1 f).entryAt 0 1 = some 1 ∧
        ((atD1 f).entry 1).kind.words (((atD1 f).out 0).drawOf ((atD1 f).entry 1).window) = 2) := by
  unfold NoGrantDue; decide +kernel

/-- In RUN, and in STOPPING with and without another lane in the sending set. -/
theorem test_meets_FrameEndReleasesEveryHold :
    let two := { at88 with dev := .stopping, sending := #v[true, false, true, false, false, false] }
    let one := { at88 with dev := .stopping, sending := #v[true, false, false, false, false, false] }
    (∀ s ∈ [at88, two, one],
      s.rst = false ∧ NoGrantDue s ∧ (s.out 0).st = .sending ∧ (s.out 0).begun = (s.outRec 0).slots + 5 ∧
        s.timeBase = (s.out 0).frameTime +
          BitVec.ofNat 32 (((s.outRec 0).slots + 5) * (s.outRec 0).slotTime)) ∧
    at88.dev ≠ .stopping ∧ (∃ z : Fin 6, z ≠ 0 ∧ two.sending[z] = true) ∧
    ∀ z : Fin 6, z ≠ 0 → one.sending[z] = false := by
  unfold NoGrantDue; decide

/-! ### Values of entries -/

theorem test_meets_OutboundKindsFormTheirValues :
    (∀ k ∈ [EntryKind.pass16, .pass32, .span, .test, .delta, .stamp, .seq], (entryOf k 7).kind = k) ∧
    (∀ k ∈ [EntryKind.scaleLeft, .scaleRightLogical, .scaleRightFloor, .scaleRightRound],
      (entryOf k 1).kind = k ∧ 1 ≤ (entryOf k 1).param ∧
        (0xFFFFA3C1 : Word).getLsbD ((entryOf k 1).param - 1) = true) ∧
    (entryOf .pass16 7).kind ≠ .delta ∧ (entryOf .pass16 7).kind ≠ .stamp ∧
    (entryOf .pass16 7).kind ≠ .seq ∧
    EntryState.zero.primed = false ∧ { EntryState.zero with primed := true }.primed = true ∧
    (entryOf .pass16 7).transform [0x1234A3C0] = (0xA3C0, false) ∧
    (entryOf .pass32 7).transform [0x1234A3C0] = (0x1234A3C0, false) ∧
    ((entryOf .test 0).transform [(entryOf .test 0).const]).1 = 1 ∧
    ∀ p ∈ [0, 1, 2, 3, 4, 5, 6, 7], (entryOf .test p).param = p := by decide

/-- The least and the greatest shift, toward a target the formula reaches and one it does not move to. -/
theorem test_meets_DecayStepApproachesTheTarget :
    (∀ shift ∈ [1, 7], 1 ≤ shift ∧ shift ≤ 7) ∧ (393 : Int) ≠ 400 ∧
    (407 : Int) - (407 - 400) / 2 ^ 3 = 407 ∧ (-5000 : Int) - (-5000 - 400) / 2 ^ 3 ≠ -5000 ∧
    EntryState.zero.sent = false ∧ { EntryState.zero with sent := true }.sent = true ∧
    ∀ k ∈ [EntryKind.pass32, .stamp, .test, .delta], (entryOf k 0).kind = k := by decide

/-! ### Inbound lanes -/

/-- W1 with no FREE buffer. -/
def noFree : State := base.modPool 1 fun p => { p with bufs := Vector.replicate 8 (readyBuf 4) }

/-- LISTENING and DISCARDING with a FREE buffer, and LISTENING without one. -/
theorem test_meets_InboundEdgeOpensAFrame :
    let discarding := base.modIn 0 fun l => { l with st := .discarding }
    (∀ s ∈ [base, discarding, noFree],
      s.rst = false ∧ NoGrantDue s ∧ s.inWindow 0 = some 1 ∧
        ((s.inl 0).st = .listening ∧ s.startReached = true ∨ (s.inl 0).st = .discarding) ∧
        (s.inl 0).frames = [] ∧ (s.pool 1).find .filling = none) ∧
    base.freeBuffer 1 = some 1 ∧ noFree.freeBuffer 1 = none := by
  unfold NoGrantDue; decide

/-- RECEIVING behind a frame whose write is under way. -/
def behindFirst (slot : Nat) (first : InFrame) (g : InFrame) : State :=
  { (serving ((receiving slot 0x2222 []).modIn 0 fun l => { l with frames := [first, g] })
      (req (.inLane 0) true 0x200148 0xC 0x12340000)) with
    requests := [] }

/-- A truncation behind a GOOD frame. -/
theorem test_meets_InboundEdgeOpensAFrame_behind :
    let f := frame (some 39) (some 1) .good [highHalf]
    let g := frame (some 40) none .opened []
    let s := behindFirst 4 f g
    s.rst = false ∧ NoGrantDue s ∧ (s.inl 0).st = .receiving ∧ (s.inl 0).frames = [f] ++ [g] ∧
      [f] ≠ [] ∧ g.buffer = none := by
  unfold NoGrantDue; decide

/-- A frame cut behind another, and a frame alone in hand with a write under way. -/
theorem test_meets_DiscardedFrameFreesItsBuffer_under_way :
    let f := frame (some 39) (some 1) .good [highHalf]
    let g := frame (some 40) none .opened []
    let h := frame (some 40) (some 1) .opened [highHalf]
    let s := behindFirst 9 f g
    let t := serving (receiving 9 0x2222 [highHalf]) (req (.inLane 0) true 0x200148 0xC 0x12340000)
    (s.rst = false ∧ NoGrantDue s ∧ s.inWindow 0 = some 1 ∧ (s.inl 0).frames = [f] ++ [g] ∧
      ([f] = [] ↔ g.buffer ≠ none) ∧ (s.inl 0).st = .receiving ∧
      (s.inl 0).slot = some ((s.inRec 0).slots + 2) ∧ (0x1111 : Half) ≠ (s.inl 0).crc) ∧
    (t.rst = false ∧ NoGrantDue t ∧ (t.inl 0).frames = [] ++ [h] ∧ ([h] ≠ [] ∧ h.buffer ≠ none) ∧
      t.inProgress (.inLane 0) = true) := by
  unfold NoGrantDue; decide

/-- The head frame of two is GOOD with its last write under way, and the next finds a FREE buffer or none;
or the head is discarded. -/
theorem test_meets_SettlementAllocatesTheNextFrame :
    let r := req (.inLane 0) true 0x200148 0xC 0x12340000
    let g := frame (some 41) none .opened []
    let of := fun (o : FrameOutcome) (hs : List RxHalf) (rest : Buffer) =>
      serving
        ((base.modPool 1 fun p => { p with
            bufs := ((Vector.replicate 8 rest).set 0 { rest with st := .retired, holders := heldBy 2 }).set 1
              (fillingBuf [(0, 0x3), (1, 0xF), (2, 0xF)]) }).modIn 0 fun l =>
          { l with st := .receiving, slot := some 3, frames := [frame (some 40) (some 1) o hs, g] }) r
    let free := of .good [highHalf] Buffer.zero
    let full := of .good [highHalf] { Buffer.zero with st := .retired, holders := heldBy 2 }
    let cut := of .discard [] Buffer.zero
    (∀ s ∈ [free, full, cut],
      InProgress s r ∧ r.who = .inLane 0 ∧ r.write = true ∧
        Requester.inLane 0 ∉ s.requests.map Request.who ∧ s.inWindow 0 = some 1 ∧
        (s.inl 0).frames.map InFrame.buffer = [some 1, none] ∧ g.buffer = none ∧ g.outcome = .opened ∧
        ∀ c : Fin 8, (s.pool 1).bufs[c].st = .filling ↔ c = 1) ∧
    ((((free.pool 1).bufs[1].map).add highHalf.word highHalf.enables).full
      (free.win 1).payloadLength = true) ∧
    ((2 : Fin 8).val < (free.win 1).bufferCount ∧ (free.pool 1).bufs[2].st = .free) ∧
    (∀ c : Fin 8, c ≠ 1 → (full.pool 1).bufs[c].st ≠ .free) ∧ 1 < (cut.win 1).bufferCount := by
  unfold InProgress; decide

/-- Behind the head frame stand a GOOD frame and an OPEN one, and W1 has no FREE buffer: both are refused in
the one event (R153). -/
def chained : State :=
  serving
    ((base.modPool 1 fun p => { p with
        bufs := ((Vector.replicate 8 { Buffer.zero with st := .retired, holders := heldBy 2 }).set 1
          (fillingBuf [(0, 0x3), (1, 0xF), (2, 0xF)])) }).modIn 0 fun l =>
      { l with
        st := .receiving, slot := some 3
        frames := [frame (some 40) (some 1) .good [highHalf], frame (some 41) none .good [highHalf],
          frame (some 42) none .opened []] })
    (req (.inLane 0) true 0x200148 0xC 0x12340000)

theorem test_meets_SettlementAllocatesTheNextFrame_chain :
    let g := frame (some 41) none .good [highHalf]
    let last := frame (some 42) none .opened []
    (chained.inl 0).frames = frame (some 40) (some 1) .good [highHalf] :: g :: [last] ∧
    g.outcome = .good ∧ g.halves ≠ [] ∧ (g :: [last]).dropLast = [g] ∧
    (g :: [last]).getLast? = some last ∧ last.buffer = none ∧ last.outcome ≠ .discard ∧
    (∀ c : Fin 8, (chained.pool 1).bufs[c].st = .filling ↔ c = 1) ∧
    (∀ c : Fin 8, c ≠ 1 → (chained.pool 1).bufs[c].st ≠ .free) ∧
    (run .inboundWritePerformed chained).map (fun t =>
      ((t.inl 0).frames, (t.inl 0).st, (t.inl 0).noBuffers, (t.inl 0).slot)) =
        some ([], .discarding, 2, none) := by
  decide +kernel

/-- A GOOD head frame whose last write leaves its map incomplete, with another frame behind it and alone. -/
theorem test_meets_SettlementAllocatesTheNextFrame_cut :
    let r := req (.inLane 0) true 0x200148 0xC 0x12340000
    let alone := storing .good [highHalf] []
    let s := { (alone.modIn 0 fun l => { l with
      frames := [frame (some 40) (some 1) .good [highHalf], frame (some 41) none .opened []] }) with
        requests := [] }
    (∀ u ∈ [alone, s],
      InProgress u r ∧ r.who = .inLane 0 ∧ r.write = true ∧
        Requester.inLane 0 ∉ u.requests.map Request.who ∧ u.inWindow 0 = some 1 ∧
        (((u.pool 1).bufs[1].map).add highHalf.word highHalf.enables).full (u.win 1).payloadLength = false ∧
        1 < (u.win 1).bufferCount ∧ ∀ c : Fin 8, (u.pool 1).bufs[c].st = .filling ↔ c = 1) ∧
    (alone.inl 0).frames = [frame (some 40) (some 1) .good [highHalf]] ∧
    (run .inboundWritePerformed s).map (fun t => ((t.inl 0).frames, (t.inl 0).cuts, t.raised .inboundCut)) =
      some ([frame (some 41) (some 1) .opened []], 1, true) := by
  unfold InProgress; decide +kernel

/-- H1 with a wrong count, a CRC that differs, and a data half that finds sixteen waiting. -/
theorem test_meets_DiscardedFrameFreesItsBuffer :
    let f1 := frame (some 40) (some 1) .opened []
    let f16 := frame (some 40) (some 1) .opened (List.replicate 16 highHalf)
    (∀ p ∈ [(receiving 1 0 [], f1), (receiving 9 0x2222 [], f1),
        (receiving 2 0 (List.replicate 16 highHalf), f16)],
      p.1.rst = false ∧ NoGrantDue p.1 ∧ p.1.inWindow 0 = some 1 ∧ (p.1.inl 0).frames = [p.2] ∧
        p.2.buffer = some 1 ∧ p.1.inProgress (.inLane 0) = false ∧ (p.1.inl 0).st = .receiving) ∧
    (((receiving 1 0 []).inl 0).slot = some 1 ∧ (6 : Half).toNat ≠ (base.inRec 0).slots) ∧
    (((receiving 9 0x2222 []).inl 0).slot = some ((base.inRec 0).slots + 2) ∧
      (0x1111 : Half) ≠ ((receiving 9 0x2222 []).inl 0).crc) ∧
    (((receiving 2 0 []).inl 0).slot = some (0 + 2) ∧ 0 < (base.inRec 0).slots ∧
      (receiving 2 0 []).rxPlace 0 0 = some (0, true) ∧ 16 ≤ f16.halves.length) := by
  unfold NoGrantDue; decide +kernel

/-- H0 behind a number and as the first, a right H1, and a CRC that agrees with a write under way. -/
theorem test_meets_HeaderAndCrcSlotsAreReceived :
    let first := (receiving 0 0xFFFF []).modIn 0 fun l => { l with seen := false }
    let good := serving (receiving 9 0x2222 [highHalf]) (req (.inLane 0) true 0x200148 0xC 0x12340000)
    (∀ p ∈ [(receiving 0 0xFFFF [], frame none (some 1) .opened []),
        (first, frame none (some 1) .opened []),
        (receiving 1 0xFFFF [], frame (some 40) (some 1) .opened []),
        (good, frame (some 40) (some 1) .opened [highHalf])],
      p.1.rst = false ∧ NoGrantDue p.1 ∧ (p.1.inl 0).st = .receiving ∧ (p.1.inl 0).frames = [] ++ [p.2]) ∧
    (((receiving 0 0xFFFF []).inl 0).slot = some 0 ∧ ((receiving 0 0xFFFF []).inl 0).seen = true ∧
      (first.inl 0).seen = false) ∧
    (((receiving 1 0xFFFF []).inl 0).slot = some 1 ∧ (7 : Half).toNat = (base.inRec 0).slots) ∧
    ((good.inl 0).slot = some ((good.inRec 0).slots + 2) ∧ (0x2222 : Half) = (good.inl 0).crc ∧
      good.inProgress (.inLane 0) = true) := by
  unfold NoGrantDue; decide

/-- D0 is named by an entry, with fifteen halves waiting; the last slot D6 is spare. -/
theorem test_meets_DataHalfJoinsTheReceiveBuffer :
    let s := receiving 2 0xFFFF (List.replicate 15 highHalf)
    let t := receiving 8 0xFFFF []
    (s.rst = false ∧ NoGrantDue s ∧ (s.inl 0).st = .receiving ∧ (s.inl 0).slot = some (0 + 2) ∧
      0 < (s.inRec 0).slots ∧
      (s.inl 0).frames = [] ++ [frame (some 40) (some 1) .opened (List.replicate 15 highHalf)] ∧
      s.rxPlace 0 0 = some (0, true) ∧ (s.inl 0).halves.length < 16) ∧
    (t.rst = false ∧ NoGrantDue t ∧ (t.inl 0).st = .receiving ∧ (t.inl 0).slot = some (6 + 2) ∧
      6 < (t.inRec 0).slots ∧ (t.inl 0).frames = [] ++ [frame (some 40) (some 1) .opened []] ∧
      t.rxPlace 0 6 = none) ∧
    ∀ u ∈ [receiving 2 0xFFFF []],
      u.rxPlace 0 0 = some (0, true) ∧ u.inWindow 0 = some 1 ∧ u.inProgress (.inLane 0) = false ∧
        Requester.inLane 0 ∉ u.requests.map Request.who := by
  unfold NoGrantDue; decide +kernel

/-! ### Reset and invariants -/

theorem test_meets_ResetPinAndRelease :
    writing.rst = false ∧ writing.port.map (fun a => a.req.write) = some true ∧ base.port = none ∧
    (asking base 0x0).readHeld = true ∧ { base with rst := true }.rst = true ∧
    { base with rst := true, waiting := some (.write (wr 0x100 0xF 1)) }.waiting =
      some (.write (wr 0x100 0xF 1)) := by decide

/-! ### Further clauses: forms that wait, that stop early, or that have no effect -/

/-- In RUN at an address of no window, and in SETUP at the head word of W0. -/
theorem test_meets_PassThroughReachesMemoryAtItsOwnAddress_read :
    let setup := { base with dev := .setup }
    (AtRead (asking base 0x30000) (wr 0x30000 0 0).adr 0xF ∧ NoGrantDue (asking base 0x30000) ∧
      (asking base 0x30000).controlWord (wr 0x30000 0 0).adr = none ∧
      (asking base 0x30000).windowAt (wr 0x30000 0 0).adr = none) ∧
    (AtRead (asking setup 0x10000) (wr 0x10000 0 0).adr 0xF ∧ NoGrantDue (asking setup 0x10000) ∧
      (asking setup 0x10000).controlWord (wr 0x10000 0 0).adr = none ∧ setup.dev = .setup) := by
  unfold AtRead NoGrantDue; decide

/-- Payload of a host window in STOPPING, and of an inbound window in RUN with a view and without one. -/
theorem test_meets_MergedReadTakesTheFirstSource_single :
    let st := asking { base with dev := .stopping } 0x10008
    (AtRead st (wr 0x10008 0 0).adr 0xF ∧ NoGrantDue st ∧ st.controlWord (wr 0x10008 0 0).adr = none ∧
      st.windowAt (wr 0x10008 0 0).adr = some 0 ∧ st.partAt 0 (wr 0x10008 0 0).adr = .payload 0 ∧
      st.dev = .stopping) ∧
    ∀ s ∈ [asking viewed 0x10050, asking base 0x10050],
      AtRead s (wr 0x10050 0 0).adr 0xF ∧ NoGrantDue s ∧ s.controlWord (wr 0x10050 0 0).adr = none ∧
        s.windowAt (wr 0x10050 0 0).adr = some 1 ∧ s.partAt 1 (wr 0x10050 0 0).adr = .payload 2 ∧
        s.dev = .run ∧ (s.win 1).writer ≠ .host := by
  unfold AtRead NoGrantDue; decide

theorem test_meets_CloseOutcomeIsTheFirstCaseThatHolds_early :
    { base with dev := .stopping }.dev = .stopping ∧ base.dev ≠ .stopping ∧
    (base.win 1).writer ≠ .host := by decide

theorem test_meets_ActiveEdgeStartsOrCutsAFrame_none :
    (base.out 1).st = .idle ∧
    (({ firstPulse with startReached := false }.out 1).st = .waiting ∧
      { firstPulse with startReached := false }.startReached = false) ∧
    (({ before72050 with dev := .stopping }.out 1).st = .sending ∧
      { before72050 with dev := .stopping }.dev = .stopping) := by decide

/-- IDLE, LISTENING too early, behind a GOOD frame, and RECEIVING with and without a write under way. -/
theorem test_meets_InboundEdgeOpensAFrame_others :
    let early := { base with startReached := false }
    let behind := base.modIn 0 fun l => { l with frames := [frame (some 40) (some 1) .good [highHalf]] }
    (base.inl 1).st = .idle ∧ ((early.inl 0).st = .listening ∧ early.startReached = false) ∧
    (behind.rst = false ∧ NoGrantDue behind ∧ (behind.inl 0).st = .listening ∧
      behind.startReached = true ∧ (behind.inl 0).frames ≠ []) ∧
    (before9.rst = false ∧ NoGrantDue before9 ∧ before9.inWindow 0 = some 1 ∧
      (before9.inl 0).st = .receiving ∧ (before9.inl 0).frames.length = 1 ∧
      (before9.inl 0).frames.map InFrame.buffer = [some 0] ∧ before9.inProgress (.inLane 0) = true) ∧
    ((receiving 4 0 []).rst = false ∧ NoGrantDue (receiving 4 0 []) ∧
      (receiving 4 0 []).inWindow 0 = some 1 ∧ ((receiving 4 0 []).inl 0).st = .receiving ∧
      ((receiving 4 0 []).inl 0).frames = [frame (some 40) (some 1) .opened []] ∧
      (receiving 4 0 []).inProgress (.inLane 0) = false ∧ 1 < ((receiving 4 0 []).win 1).bufferCount ∧
      ∀ c : Fin 8, c ≠ 1 → ((receiving 4 0 []).pool 1).bufs[c].st ≠ .filling) := by
  unfold NoGrantDue; decide +kernel

/-- A refused frame before its H0, and a GOOD frame with every half written. -/
theorem test_meets_HeaderAndCrcSlotsAreReceived_others :
    let refused := base.modIn 0 fun l => { l with st := .discarding, slot := some 0 }
    (refused.rst = false ∧ NoGrantDue refused ∧ (refused.inl 0).st = .discarding ∧
      (refused.inl 0).slot = some 0 ∧ (refused.inl 0).seen = true ∧
      (7 : Half) ≠ (refused.inl 0).lastNo + 1) ∧
    (written.rst = false ∧ NoGrantDue written ∧ written.inWindow 0 = some 1 ∧
      (written.inl 0).st = .receiving ∧ (written.inl 0).frames = [frame (some 40) (some 1) .opened []] ∧
      (written.inl 0).slot = some ((written.inRec 0).slots + 2) ∧
      ((written.pool 1).bufs[1].map).full (written.win 1).payloadLength = true) ∧
    ((receiving 9 0x2222 []).rst = false ∧ NoGrantDue (receiving 9 0x2222 []) ∧
      ((receiving 9 0x2222 []).inl 0).slot = some ((base.inRec 0).slots + 2) ∧
      ((receiving 9 0x2222 []).inl 0).frames = [frame (some 40) (some 1) .opened []] ∧
      (((receiving 9 0x2222 []).pool 1).bufs[1].map).full (base.win 1).payloadLength = false) := by
  unfold NoGrantDue; decide

/-- A GOOD frame behind one whose write is under way. -/
theorem test_meets_HeaderAndCrcSlotsAreReceived_behind :
    let f := frame (some 39) (some 1) .good [highHalf]
    let g := frame (some 40) none .opened []
    let s := behindFirst 9 f g
    s.rst = false ∧ NoGrantDue s ∧ (s.inl 0).st = .receiving ∧ (s.inl 0).frames = [f] ++ [g] ∧
      (s.inl 0).slot = some ((s.inRec 0).slots + 2) ∧ (0x2222 : Half) = (s.inl 0).crc ∧
      (f.outcome = .good ∧ f.halves ≠ []) ∧ f.buffer ≠ none ∧ s.inProgress (.inLane 0) = true := by
  unfold NoGrantDue; decide

/-- A GOOD frame alone in hand, whose write waits on the arbiter's list. -/
theorem test_meets_HeaderAndCrcSlotsAreReceived_listed :
    let s := { serving (receiving 9 0x2222 [highHalf]) (req .host false 0 0xF 0) with
      requests := [req (.inLane 0) true 0x200148 0xC 0x12340000] }
    s.rst = false ∧ NoGrantDue s ∧ (s.inl 0).st = .receiving ∧
      (s.inl 0).frames = [] ++ [frame (some 40) (some 1) .opened [highHalf]] ∧
      (s.inl 0).slot = some ((s.inRec 0).slots + 2) ∧ (0x2222 : Half) = (s.inl 0).crc ∧
      s.inProgress (.inLane 0) = false ∧ Requester.inLane 0 ∈ s.requests.map Request.who := by
  unfold NoGrantDue; decide

theorem test_meets_InboundWriteIsPerformed_discard :
    let r := req (.inLane 0) true 0x200148 0xC 0x12340000
    let s := storing .discard [] []
    InProgress s r ∧ r.who = .inLane 0 ∧ r.write = true ∧ s.inWindow 0 = some 1 ∧
      (s.inl 0).frames = [frame (some 40) (some 1) .discard []] := by
  unfold InProgress; decide

/-- Seven zero words: the format version is not 1. -/
theorem test_meets_LoadEndsInSetupOrRun_header :
    let r := req .load false 0x11C 0xF 0
    let s := serving
      { State.reset with
        dev := .loading
        load := some
          { phase := .header, index := 7, length := none, crc := 0, shadow := List.replicate 7 0 } } r
    InProgress s r ∧ r.who = .load ∧ r.write = false ∧
      s.load.map (fun j => (j.phase, j.index)) = some (.header, 7) ∧
      Image.headerError (List.replicate 7 0 ++ [s.mem.readWord r.adr]) = some { check := 1, index := 0 } := by
  unfold InProgress; decide

/-- A state in RUN in which O2 is SENDING and holds B0 of W1, and O0 has begun slot D0 of the frame of 6.12
and fetches the first word of its SPAN, with a tick at the front of the queue. -/
def lawful : State :=
  serving
    { ((base.modOut 2 fun _ => { OutLane.zero with st := .sending }).modOut 0 fun _ =>
        { OutLane.zero with
          st := .sending, begun := 5
          asked := some { entry := 1, adr := memAdr 0x2004 }
          plan := [{ entry := 1, adr := memAdr 0x2008 }, { entry := 3, adr := memAdr 0x2020 }] }) with
      pending := [.timeBaseTick] }
    (req (.outLane 0) false 0x2004 0xF 0)

/-- The step of `lawful` answers a next state. -/
theorem test_lawful_steps :
    step lawful = .next { lawful with pending := [], timeBase := 0x41001 } := rfl

theorem test_meets_EveryStepKeepsCueMemory :
    MemoryLaw lawful ∧ (∀ r, performs .timeBaseTick r = false) ∧ Instr.timeBaseTick ≠ .resetPin := by
  refine ⟨?_, fun _ => rfl, by decide⟩
  unfold MemoryLaw; decide

/-- Four writes are queued, and the journal holds eight entries at the last place of its ring. -/
theorem test_meets_EveryStepKeepsTheQueueAndJournalLaws :
    let s := { lawful with
      queue := List.replicate 4 (wr 0 0xF 0)
      journal := { Journal.zero with
        st := .recording, queue := List.replicate 8 (jent .underrun), wordCount := 3, writeIndex := 15 } }
    QueueLaw s ∧ JournalLaw s := by
  unfold QueueLaw JournalLaw; decide

/-- The device law in RUN, with a lane SENDING. -/
theorem test_meets_EveryStepKeepsTheDeviceLaw : DeviceLaw lawful := by
  unfold DeviceLaw; decide

theorem test_meets_EveryStepKeepsThePoolLaw : PoolLaw lawful := by
  unfold PoolLaw Pool.lawful; decide +kernel

/-- The maps of `lawful`, that of the FILLING buffer of W0 among them. -/
theorem test_meets_EveryStepKeepsThePoolLaw_maps : MapLaw lawful := by
  unfold MapLaw; decide +kernel

theorem test_meets_HostWindowsAlwaysHaveAFillingBuffer : FillingLaw lawful := by
  intro _ w hw
  refine ⟨?_, ?_⟩
  · revert w; decide
  · intro j hj
    have h : ∀ v : Fin 16, (lawful.pool v).job = none := by decide
    rw [h w] at hj
    cases hj

/-- No window of `lawful` has a job. -/
theorem lawful_no_job : ∀ v : Fin 16, (lawful.pool v).job = none := by decide

/-- No inbound lane of `lawful` has a frame in hand. -/
theorem lawful_no_frames : ∀ y : Fin 2, (lawful.inl y).frames = [] := by decide

theorem test_meets_EveryStepKeepsTheRunLaw : RunLaw lawful := by
  refine ⟨test_meets_EveryStepKeepsThePoolLaw, ⟨?_, ?_, ?_, ?_⟩,
    test_meets_EveryStepKeepsTheDeviceLaw, ⟨?_, ?_, by decide +kernel, ?_, ?_, ?_⟩⟩
  · intro w h
    cases h with
    | lane x => revert w x; decide +kernel
    | view => revert w; decide +kernel
    | copySource => revert w; decide +kernel
  · decide +kernel
  · intro w k h
    exact absurd h (by revert w k; decide +kernel)
  · intro w j h
    rw [lawful_no_job w] at h
    cases h
  · intro h
    exact absurd h (by decide)
  · intro h
    exact absurd h (by decide)
  · intro r h
    cases h
  · intro y w f k _ h
    rw [lawful_no_frames y] at h
    cases h
  · intro y f h
    rw [lawful_no_frames y] at h
    cases h

/-- O0's fetch is the one access that a requester of `lawful` waits for. -/
theorem lawful_busy (q : Requester) : lawful.busy q ↔ q = .outLane 0 := by
  constructor
  · rintro (h | ⟨a, ha, _, hw⟩)
    · cases h
    · cases ha
      exact hw.symm
  · intro h
    exact .inr ⟨_, rfl, rfl, h.symm⟩

/-- The law of the request list, with a lane fetch at the port. -/
theorem test_meets_EveryStepKeepsTheRequestLaw : RequestLaw lawful ∧ RunLaw lawful := by
  have noHead (y : Fin 2) :
      ¬ ∃ f ∈ (lawful.inl y).frames.head?, f.buffer ≠ none ∧ (f.outcome = .discard ∨ f.halves ≠ []) := by
    rw [lawful_no_frames y]
    simp
  refine ⟨⟨by decide, ?_, by unfold NoGrantDue; decide, ?_, ?_, ?_, fun w => ?_, fun y => ?_⟩,
    test_meets_EveryStepKeepsTheRunLaw⟩
  · intro _ _ _ h
    cases h
  · exact iff_of_false (fun h => nomatch (lawful_busy _).1 h) (by decide)
  · exact iff_of_false (fun h => nomatch (lawful_busy _).1 h) (by decide)
  · exact iff_of_false (fun h => nomatch (lawful_busy _).1 h) (by decide)
  · exact iff_of_false (fun h => nomatch (lawful_busy _).1 h) (by rw [lawful_no_job w]; decide)
  · exact iff_of_false (fun h => nomatch (lawful_busy _).1 h) (noHead y)

/-- The law of the frames in hand: of `lawful`, which has none; of two frames, the last of them OPEN; of a
head that is discarded while its write is in progress; and of sixteen halves waiting. -/
theorem test_meets_EveryStepKeepsTheRequestLaw_frames :
    let s := fun o hs => serving
      (base.modIn 0 fun l => { l with
        st := .receiving, slot := some 4
        frames := [frame (some 40) (some 1) o hs, frame (some 41) none .opened [highHalf]] })
      (req (.inLane 0) true 0x200148 0xC 0x12340000)
    let full := receiving 9 0x2222 (List.replicate 16 highHalf)
    ∀ u ∈ [lawful, s .good [highHalf], s .discard [], full], FrameLaw u := by
  intro s full u hu
  have waitedFor : ∀ a, u.port = some a → a.withdrawn = false := by
    simp only [List.mem_cons, List.not_mem_nil, or_false] at hu
    rcases hu with rfl | rfl | rfl | rfl <;> (intro a ha; cases ha; try rfl)
  refine ⟨fun a ha hw => ?_, ?_⟩
  · rw [waitedFor a ha] at hw
    cases hw
  · revert u
    decide

/-- The law of the lanes' fetching: the SPAN's two words and the TEST's one are yet to be used. -/
theorem test_meets_EveryStepKeepsTheRequestLaw_fetch :
    FetchLaw lawful ∧ lawful.wordsDue 0 = [1, 1, 3] := by
  refine ⟨fun x => ⟨?_, ?_, ?_⟩, by decide +kernel⟩
  · rw [lawful_busy]
    revert x; decide +kernel
  · unfold State.slotsApart
    revert x; decide +kernel
  · revert x; decide +kernel

theorem test_meets_FlagsAndProfileChangeOnlyWhereStated :
    exec .timeBaseTick { base with flags := 0x1FFFF } =
      .next { base with flags := 0x1FFFF, timeBase := 0x41001 } ∧
    Instr.timeBaseTick ≠ .resetPin ∧ Instr.timeBaseTick ≠ .acknowledge ∧
    Instr.timeBaseTick ≠ .loadReadPerformed ∧ { base with flags := 0x1FFFF }.raised .underrun = true := by
  refine ⟨rfl, ?_⟩
  decide

/-- R106, R124, R160: a slot's time at each bit rate, and a count that stays at 255. -/
theorem test_slot_time_and_counts :
    (List.map (fun r => LaneRec.slotTime { masterLane with rate := r }) [0, 1, 2, 3]) = [16, 8, 4, 2] ∧
    sat8 254 = 255 ∧ sat8 255 = 255 := by decide

end Sys2Proof.Tests
end

/-! SUPPORT. One step, seen by an invariant: which operations a law has to be kept by, so that every command
keeps it. The laws of the pools, of the FILLING buffers and of the run are proved operation by operation and
put together here once. -/

namespace Sys2Proof.Machine

/-- The parts of State that no law of the pools, the holders or the device state reads. -/
def inertItems : List Item :=
  [.pending, .rst, .straps, .timeBase, .outcome, .loadErr, .header, .startInstant, .startReached, .stopLanes,
   .lanes, .entries, .groups, .entryState, .queue, .waiting, .readData, .requests, .port, .copyPtr, .flags,
   .journal, .mem]

/-- A steered write in SU's hands goes to a FILLING buffer of a host window in RUN (R59). -/
def State.aimed (s : State) (u : SU) : Prop :=
  ∀ r, u = .writing (some r) →
    s.dev = .run ∧ (s.win r.w).writer = .host ∧ (s.pool r.w).bufs[r.k].st = .filling

/-- A law that reads no inert part and that each operation of a command keeps, under what the command has
checked before. -/
structure KeptByEvents (P : State → Prop) : Prop where
  inert : ∀ {s t : State}, P s → ChangesOnly inertItems s t → P t
  setSu : ∀ {s : State} (u : SU), P s → s.aimed u → P { s with su := u }
  mark : ∀ {s : State} (r : PayloadRef) (be : Enables), P s → s.su = .writing (some r) →
    P { s.markPayload (some r) be with su := .free }
  close : ∀ {s : State} (w : Fin 16) (x : HostWrite), P s → s.su = .free → s.steering = true →
    P (s.decideClose w x)
  start : ∀ {s : State}, P s → P s.start
  stop : ∀ {s : State}, P s → s.su = .free → P s.stop
  view : ∀ {s : State} (w : Fin 16), P s → P (s.modPool w Pool.moveView)
  expire : ∀ {s : State} (w : Fin 16), P s → P (s.expire w)
  slots : ∀ {s t : State}, P s → ChangesOnly (.outs :: inertItems) s t →
    (∀ x, (t.out x).st = (s.out x).st) → P t
  copyRead : ∀ {s : State} (w : Fin 16) (v : Word), P s → P (s.copyRead w v)
  copyWrite : ∀ {s : State} (w : Fin 16) (be : Enables), P s → P (s.copyWrite w be)
  loadWord : ∀ {s : State} (v : Word), P s → P (s.loadWord v)
  masterStart : ∀ {s : State} (x : Fin 6), P s → s.masterDue x = true → P (s.masterStart x)
  activeEdge : ∀ {s : State} (x : Fin 6), P s → P (s.activeEdge x)
  flywheel : ∀ {s : State} (x : Fin 6), P s → s.flywheelDue x = true → P (s.flywheel x)
  frameEnd : ∀ {s : State} (x : Fin 6), P s → (s.out x).st = .sending → P (s.frameEnd x)
  inEdge : ∀ {s : State} (y : Fin 2), P s → P (s.inActiveEdge y)
  inH0 : ∀ {s : State} (y : Fin 2) (h : Half), P s → P (s.inH0 y h)
  inH1 : ∀ {s : State} (y : Fin 2) (h : Half), P s → P (s.inH1 y h)
  inData : ∀ {s : State} (y : Fin 2) (h : Half), P s → P (s.inData y h)
  inCrc : ∀ {s : State} (y : Fin 2) (h : Half), P s → P (s.inCrc y h)
  halfWritten : ∀ {s : State} (y : Fin 2), P s → P (s.halfWritten y)
  pinReset : ∀ {s : State}, P s → P s.pinReset

/-! ### Slots and fetches keep the lanes' states -/

theorem State.tryFetch_st (s : State) (x z : Fin 6) : ((s.tryFetch x).out z).st = (s.out z).st := by
  unfold State.tryFetch
  dsimp only
  split
  · rfl
  · split
    · rw [State.out_congr (s := s.modOut x _) (State.join_outs _ _), State.out_modOut]
      split
      · next e => subst e; rfl
      · rfl
    · rfl

/-- A change of one lane that leaves its state leaves every lane's state. -/
theorem State.modOut_st (s : State) (x : Fin 6) (f : OutLane → OutLane)
    (hf : (f (s.out x)).st = (s.out x).st) (z : Fin 6) : ((s.modOut x f).out z).st = (s.out z).st := by
  rw [State.out_modOut]
  split
  · next e => subst e; exact hf
  · rfl

theorem State.laneWord_st (s : State) (x z : Fin 6) (v : Word) :
    ((s.laneWord x v).out z).st = (s.out z).st := by
  unfold State.laneWord
  split
  · rw [State.tryFetch_st, State.modOut_st _ _ _ rfl]
  · exact State.tryFetch_st s x z

theorem Request.laneReact_st (r : Request) (b : Bool) (s : State) (z : Fin 6) :
    ((r.laneReact b s).out z).st = (s.out z).st := by
  unfold Request.laneReact
  split
  · split
    · exact State.tryFetch_st s _ z
    · exact State.laneWord_st s _ z _
  · rfl

theorem State.setEntrySt_out (s : State) (e : Nat) (v : EntryState) (z : Fin 6) :
    (s.setEntrySt e v).out z = s.out z := State.out_congr (State.setEntrySt_outs s e v) z

theorem OutLane.sendValue_st (n : Nat) (v : Word) (l : OutLane) : (l.sendValue n v).st = l.st := by
  unfold OutLane.sendValue
  split <;> rfl

theorem State.underrun_st (s : State) (x z : Fin 6) (e : Nat) :
    ((s.underrun x e).out z).st = (s.out z).st := by
  unfold State.underrun
  dsimp only
  split
  · rw [State.modOut_st _ _ _ rfl]
    split
    · exact congrArg _ (State.out_congr (withdraw_frame s _ .outs (by decide)) z)
    · rfl
  · rw [State.out_congr (raise_frame _ _ _ _ _ .outs (by decide)), State.modOut_st _ _ _ rfl]
    split
    · exact congrArg _ (State.out_congr (withdraw_frame s _ .outs (by decide)) z)
    · rfl

theorem State.dataSlot_st (s : State) (x z : Fin 6) (d : Nat) :
    ((s.dataSlot x d).out z).st = (s.out z).st := by
  unfold State.dataSlot
  dsimp only
  split
  · exact State.modOut_st _ _ _ rfl z
  · split
    · unfold State.emptySlot
      split <;> exact State.modOut_st _ _ _ rfl z
    · split
      · unfold State.sendEntry
        dsimp only
        rw [State.modOut_st _ _ _ (by exact OutLane.sendValue_st _ _ _), State.setEntrySt_out]
      · exact State.underrun_st s x z _

theorem State.position_st (s : State) (x z : Fin 6) (j : Nat) :
    ((s.position x j).out z).st = (s.out z).st := by
  unfold State.position
  split
  · exact State.modOut_st _ _ _ rfl z
  · split
    · exact State.dataSlot_st s x z _
    · exact State.modOut_st _ _ _ rfl z

theorem State.slotBegin_st (s : State) (x z : Fin 6) : ((s.slotBegin x).out z).st = (s.out z).st := by
  unfold State.slotBegin
  rw [State.tryFetch_st, State.out_congr (markUrgent_frame _ x .outs (by decide)), State.position_st,
    State.modOut_st _ _ _ rfl]

/-! ### When a write closes -/

/-- A close is found in RUN and STOPPING only (R53). -/
theorem State.close_steering {s : State} {x : HostWrite} {w : Fin 16} (h : s.treatment x = .close w) :
    s.steering = true := by
  unfold State.treatment at h
  cases hc : s.controlWord x.adr with
  | some j =>
    rw [hc] at h
    rcases j with _ | _ | j
    · simp only [requestOf] at h
      repeat' (split at h)
      all_goals cases h
    · cases h
    · cases h
  | none =>
    rw [hc] at h
    dsimp only at h
    split at h
    · assumption
    · cases h

/-! ### Every command -/

/-- A command that is an operation with the arrivals after it, or nothing. -/
theorem guarded_next {b : Bool} {s u t : State}
    (h : (if b then (.next u.arrivals : Out) else .next s) = .next t) : t = s ∨ b = true ∧ t = u.arrivals := by
  split at h
  · next hb => cases h; exact .inr ⟨hb, rfl⟩
  · cases h; exact .inl rfl

section
variable {P : State → Prop} {s t : State}

theorem KeptByEvents.arrivals (k : KeptByEvents P) (h : P s) : P s.arrivals :=
  k.inert h ((arrivals_frame s).mono (by decide))

theorem KeptByEvents.takeHead (k : KeptByEvents P) (h : P s) : P s.takeHead :=
  k.inert h ((takeHead_frame s).mono (by decide))

/-- A command that is guarded keeps the law if its operation does. -/
theorem KeptByEvents.guarded (k : KeptByEvents P) {b : Bool} {u : State} (hs : P s) (hu : b = true → P u)
    (h : (if b then (.next u.arrivals : Out) else .next s) = .next t) : P t := by
  rcases guarded_next h with rfl | ⟨hb, rfl⟩
  · exact hs
  · exact k.arrivals (hu hb)

/-- A performance keeps the law if its reactions do (R73, R80). -/
theorem KeptByEvents.performance (k : KeptByEvents P) {about : Request → Bool}
    {react drop : Request → State → State} (hs : P s)
    (hr : ∀ r u, P u → u.su = s.su → P (react r u)) (hd : ∀ r u, P u → P (drop r u))
    (h : s.performance about react drop = .next t) : P t := by
  rcases s.performance_cases about react drop with e | ⟨a, _, _, _, e⟩
  · rw [e] at h; cases h; exact hs
  · rw [e] at h
    cases h
    have hc : P (s.complete a.req) := k.inert hs ((complete_frame s a.req).mono (by decide))
    refine k.inert ?_ ((regrant_frame _).mono (by decide))
    split
    · exact hd _ _ hc
    · exact hr _ _ hc rfl

/-- SU hands a write on, aimed as the law has it. -/
theorem KeptByEvents.handWrite (k : KeptByEvents P) (x : HostWrite) (a : MemAdr) (m : Option PayloadRef)
    (h : P s) (hm : s.aimed (.writing m)) : P (s.handWrite x a m) :=
  k.arrivals (k.inert (k.setSu _ h hm) ((join_frame _ _).mono (by decide)))

theorem State.aimed_of_ne {u : SU} (h : ∀ r, u ≠ .writing (some r)) : s.aimed u :=
  fun r e => absurd e (h r)

theorem KeptByEvents.hostWord (k : KeptByEvents P) (r : Request) (h : P s) : P (s.hostWord r) := by
  unfold State.hostWord
  split
  · exact h
  · next m hm =>
    cases m with
    | none => exact k.setSu _ h (State.aimed_of_ne fun _ e => by cases e)
    | some q => exact k.mark q _ h hm
  · dsimp only
    split
    · refine k.inert (k.setSu .free h (State.aimed_of_ne fun _ e => by cases e)) ?_
      intro g hg
      cases g <;> first | exact absurd (by decide) hg | rfl
    · exact k.inert (k.setSu _ h (State.aimed_of_ne fun _ e => by cases e)) ((join_frame _ _).mono (by decide))

/-- A law kept by every operation is kept by every command. -/
theorem KeptByEvents.exec (k : KeptByEvents P) (c : Instr) (hs : P s) (h : exec c s = .next t) : P t := by
  cases c with
  | hostWritePresented a be d => exact k.inert hs ((execHostWritePresented_frame h).mono (by decide))
  | hostReadPresented a be => exact k.inert hs ((execHostReadPresented_frame h).mono (by decide))
  | passThroughWrite =>
    rcases execPassThroughWrite_cases s with e | ⟨x, _, _, e⟩ <;> cases e.symm.trans h
    · exact hs
    · exact k.handWrite _ _ _ (k.takeHead hs) (State.aimed_of_ne fun _ e => by cases e)
  | payloadWriteSteered =>
    rcases execPayloadWriteSteered_cases s with e | ⟨x, w, i, _, ht, ⟨j, hj, e⟩ | ⟨_, e⟩⟩ <;>
      cases e.symm.trans h
    · exact hs
    · obtain ⟨hrun, _, hhost, _⟩ := State.steered_facts ht
      have f := takeHead_frame s
      refine k.handWrite _ _ _ (k.takeHead hs) fun r e => ?_
      cases e
      rw [State.win_congr (f .windows (by decide)), State.pool_congr (f .pools (by decide))]
      exact ⟨(f .dev (by decide)).trans hrun, hhost, Pool.find_some hj⟩
  | refusedWrite => exact k.inert hs ((execRefusedWrite_frame h).mono (by decide))
  | closeRequest =>
    rcases execCloseRequest_cases s with e | ⟨x, w, ⟨_, hsu, _⟩, ht, e⟩ <;> cases e.symm.trans h
    · exact hs
    · refine k.arrivals (k.close w x (k.takeHead hs) ((takeHead_frame s .su (by decide)).trans hsu) ?_)
      rw [State.steering, takeHead_frame s .dev (by decide)]
      exact State.close_steering ht
  | start =>
    rcases execStart_cases s with e | ⟨x, _, _, e⟩ <;> cases e.symm.trans h
    · exact hs
    · exact k.arrivals (k.start (k.takeHead hs))
  | stop =>
    rcases execStop_cases s with e | ⟨x, ⟨_, hsu, _⟩, _, e⟩ <;> cases e.symm.trans h
    · exact hs
    · exact k.arrivals (k.stop (k.takeHead hs) ((takeHead_frame s .su (by decide)).trans hsu))
  | unknownRequest => exact k.inert hs ((execUnknownRequest_frame h).mono (by decide))
  | acknowledge => exact k.inert hs ((execAcknowledge_frame h).mono (by decide))
  | controlWriteDropped => exact k.inert hs ((execControlWriteDropped_frame h).mono (by decide))
  | hostReadTaken =>
    rcases execHostReadTaken_cases s with e | ⟨a, be, _, ⟨v, _, e⟩ | ⟨p, ps, _, e⟩⟩ <;>
      cases e.symm.trans h
    · exact hs
    · refine k.inert (k.setSu .free hs (State.aimed_of_ne fun _ e => by cases e)) ?_
      intro g hg
      cases g <;> first | exact absurd (by decide) hg | rfl
    · refine k.arrivals (k.inert (k.setSu (.reading p ps 0) hs (State.aimed_of_ne fun _ e => by cases e)) ?_)
      intro g hg
      cases g <;> first | exact absurd (by decide) hg | rfl
  | headWordReadViewMove =>
    rcases execHeadWordReadViewMove_cases s with e | ⟨a, be, w, _, _, e⟩ <;> cases e.symm.trans h
    · exact hs
    · refine k.inert (k.setSu .free (k.view w hs) (State.aimed_of_ne fun _ e => by cases e)) ?_
      intro g hg
      cases g <;> first | exact absurd (by decide) hg | rfl
  | hostAccessPerformed =>
    change execHostAccessPerformed s = .next t at h
    exact k.performance hs (fun r _ hu _ => k.hostWord r hu) (fun _ _ hu => hu) h
  | laneFetchPerformed =>
    exact k.performance hs
      (fun r u hu _ => k.slots hu ((laneReact_frame r false u).mono (by decide)) (r.laneReact_st false u))
      (fun r u hu => k.slots hu ((laneReact_frame r true u).mono (by decide)) (r.laneReact_st true u)) h
  | inboundWritePerformed =>
    refine k.performance hs (fun r u hu _ => ?_) (fun _ _ hu => hu) h
    unfold Request.inboundReact
    split
    · exact k.halfWritten _ hu
    · exact hu
  | copyReadPerformed =>
    change execCopyReadPerformed s = .next t at h
    refine k.performance hs (fun r u hu _ => ?_) (fun _ _ hu => hu) h
    unfold Request.copyReadReact
    split
    · exact k.copyRead _ _ hu
    · exact hu
  | copyWritePerformed =>
    change execCopyWritePerformed s = .next t at h
    refine k.performance hs (fun r u hu _ => ?_) (fun _ _ hu => hu) h
    unfold Request.copyWriteReact
    split
    · exact k.copyWrite _ _ hu
    · exact hu
  | loadReadPerformed =>
    change execLoadReadPerformed s = .next t at h
    exact k.performance hs (fun _ _ hu _ => k.loadWord _ hu) (fun _ _ hu => hu) h
  | journalWordPerformed => exact k.inert hs ((execJournalWordPerformed_frame h).mono (by decide))
  | timerExpiry w => exact k.guarded hs (fun _ => k.expire w hs) h
  | startInstantReached => exact k.inert hs ((execStartInstantReached_frame h).mono (by decide))
  | masterScheduledStart x =>
    refine k.guarded hs (fun hb => k.masterStart x hs ?_) h
    simp only [Bool.and_eq_true] at hb
    exact hb.2
  | outboundActiveEdge x e => exact k.guarded hs (fun _ => k.activeEdge x hs) h
  | flywheelStart x =>
    refine k.guarded hs (fun hb => k.flywheel x hs ?_) h
    simp only [Bool.and_eq_true] at hb
    exact hb.2
  | slotBegin x =>
    exact k.guarded hs (fun _ => k.slots hs ((slotBegin_frame s x).mono (by decide)) (s.slotBegin_st x)) h
  | frameEnd x =>
    refine k.guarded hs (fun hb => k.frameEnd x hs ?_) h
    simp only [Bool.and_eq_true, State.frameEndDue, beq_iff_eq] at hb
    exact hb.2.1.1
  | inboundActiveEdge y e => exact k.guarded hs (fun _ => k.inEdge y hs) h
  | inboundH0Received y v => exact k.guarded hs (fun _ => k.inH0 y v hs) h
  | inboundH1Received y v => exact k.guarded hs (fun _ => k.inH1 y v hs) h
  | inboundDataSlotReceived y v => exact k.guarded hs (fun _ => k.inData y v hs) h
  | inboundCrcSlotReceived y v => exact k.guarded hs (fun _ => k.inCrc y v hs) h
  | resetPin =>
    change execResetPin s = .next t at h
    unfold execResetPin at h
    split at h <;> cases h
    · exact hs
    · exact k.pinReset hs
  | resetRelease p =>
    have f : ChangesOnly [.rst, .straps, .timeBase, .queue, .waiting] s t := execResetRelease_frame h
    exact k.inert hs (f.mono (by decide))
  | timeBaseTick =>
    have f : ChangesOnly [.timeBase] s t := execTimeBaseTick_frame h
    exact k.inert hs (f.mono (by decide))

/-- A law kept by every operation is kept by every step. -/
theorem KeptByEvents.step (k : KeptByEvents P) (hs : P s) (h : step s = .next t) : P t := by
  unfold Machine.step at h
  cases hp : s.pending with
  | nil => rw [hp] at h; cases h; exact hs
  | cons c rest =>
    rw [hp] at h
    refine k.exec c (k.inert hs ?_) h
    intro g hg
    cases g <;> first | exact absurd (by decide) hg | rfl

end

end Sys2Proof.Machine

/-! SUPPORT. An accepted close on the pool (R34, R35): the buffers it leaves, and the law of R11 and R14. -/

namespace Sys2Proof.Machine

/-! ### Updates and searches -/

theorem State.modPool_modPool (s : State) (w : Fin 16) (f g : Pool → Pool) :
    (s.modPool w f).modPool w g = s.modPool w fun p => g (f p) := by
  simp [State.modPool]

/-- A search finds the same buffer when the same buffers are in the state. -/
theorem Pool.find_congr_st {p q : Pool} {st : BufState}
    (h : ∀ k : Fin 8, q.bufs[k].st = st ↔ p.bufs[k].st = st) : q.find st = p.find st := by
  unfold Pool.find
  refine congrArg (List.find? · allBufs) (funext fun k => ?_)
  exact Bool.eq_iff_iff.2 (by simpa using h k)

theorem Pool.isCommitting_false {p : Pool} :
    p.isCommitting = false ↔ ∀ k : Fin 8, p.bufs[k].st ≠ .committing := by
  unfold Pool.isCommitting
  rw [← Pool.find_none]
  simp

/-! ### The close decision (R32) -/

/-- What an ACCEPTED close has found (R32). -/
theorem State.accepted_facts {s : State} {w : Fin 16} {x : HostWrite}
    (h : s.closeOutcome w x = .accepted) :
    s.dev ≠ .stopping ∧ (s.win w).writer = .host ∧
      ∀ k : Fin 8, (s.pool w).bufs[k].st ≠ .committing := by
  unfold State.closeOutcome at h
  split at h
  · cases h
  · next hdev =>
    split at h
    · cases h
    · next hw =>
      split at h
      · cases h
      · split at h
        · cases h
        · next hc => exact ⟨hdev, by simpa using hw, Pool.isCommitting_false.1 (by simpa using hc)⟩

/-- WU's decision in one event (R31–R35): a refusal, a commit at once, or the start of a job. -/
theorem State.decideClose_cases (s : State) (w : Fin 16) (x : HostWrite) :
    s.decideClose w x = s ∨
    (∃ o, s.closeOutcome w x = o ∧ o ≠ .accepted ∧ s.decideClose w x = s.refuseClose w x o) ∨
    ∃ k0 k1, s.closeOutcome w x = .accepted ∧ (s.pool w).find .filling = some k0 ∧
      s.freeBuffer w = some k1 ∧ s.decideClose w x =
        if s.fillingFull w then
          (s.acceptClose w k0 k1 (closeSeq x)).commit w k0 (closeSeq x) s.timeBase none 0
        else (s.acceptClose w k0 k1 (closeSeq x)).startJob w k0 (closeSeq x) s.timeBase := by
  unfold State.decideClose
  split
  · next k0 k1 ho hk0 hk1 => exact .inr (.inr ⟨k0, k1, ho, hk0, hk1, rfl⟩)
  · exact .inl rfl
  · next hne _ => exact .inr (.inl ⟨_, rfl, hne, rfl⟩)

/-! ### The pool of an accepted close -/

/-- Steps 1 to 4 of an ACCEPTED close on the pool (R34). -/
def Pool.accept (p : Pool) (k0 k1 : Fin 8) (seq : Half) (now : Word) : Pool :=
  { ((p.modBuf k0 fun b => { b with seq := seq, time := now }).modBuf k1 Buffer.allocate) with
    expected := p.expected + 1
    lastOutcome := .accepted }

/-- The pool as CE takes the job: the READY buffer is held as copy source and the closed buffer is
COMMITTING (R19, R35). -/
def Pool.handOver (p : Pool) (k0 k1 : Fin 8) (seq : Half) (now : Word) : Pool :=
  (match p.find .ready with
    | some r => (p.accept k0 k1 seq now).modBuf r (Buffer.hold .copySource)
    | none => p.accept k0 k1 seq now).modBuf k0 fun b => { b with st := .committing }

theorem State.acceptClose_eq (s : State) (w : Fin 16) (k0 k1 : Fin 8) (seq : Half) :
    s.acceptClose w k0 k1 seq = s.modPool w fun p => p.accept k0 k1 seq s.timeBase := rfl

section
variable {p : Pool} {k0 k1 : Fin 8}

/-- The closed buffer is not the one allocated. -/
theorem Pool.closed_ne_allocated (h0 : p.bufs[k0].st = .filling) (h1 : p.bufs[k1].st = .free) : k0 ≠ k1 :=
  fun e => by rw [e, h1] at h0; cases h0

theorem Pool.accept_bufs (h0 : p.bufs[k0].st = .filling) (h1 : p.bufs[k1].st = .free) (seq : Half)
    (now : Word) (k : Fin 8) : (p.accept k0 k1 seq now).bufs[k] =
      if k = k1 then Buffer.allocated
      else if k = k0 then { p.bufs[k0] with seq := seq, time := now } else p.bufs[k] := by
  have hne := Pool.closed_ne_allocated h0 h1
  change (Pool.modBuf _ k1 Buffer.allocate).bufs[k] = _
  rw [Pool.bufs_modBuf, Pool.bufs_modBuf, Pool.bufs_modBuf, Buffer.allocate_eq]

/-- An ACCEPTED close leaves the READY buffer where it is. -/
theorem Pool.accept_find_ready (h0 : p.bufs[k0].st = .filling) (h1 : p.bufs[k1].st = .free) (seq : Half)
    (now : Word) : (p.accept k0 k1 seq now).find .ready = p.find .ready := by
  refine Pool.find_congr_st fun k => ?_
  rw [Pool.accept_bufs h0 h1]
  split
  · next e => subst e; rw [h1]; exact ⟨nofun, nofun⟩
  · split
    · next e => subst e; exact Iff.rfl
    · exact Iff.rfl

theorem Pool.handOver_bufs (h0 : p.bufs[k0].st = .filling) (h1 : p.bufs[k1].st = .free) (seq : Half)
    (now : Word) (k : Fin 8) : (p.handOver k0 k1 seq now).bufs[k] =
      if k = k1 then Buffer.allocated
      else if k = k0 then { p.bufs[k0] with st := .committing, seq := seq, time := now }
      else if p.find .ready = some k then p.bufs[k].hold .copySource else p.bufs[k] := by
  have hne := Pool.closed_ne_allocated h0 h1
  unfold Pool.handOver
  rw [Pool.bufs_modBuf]
  cases hr : p.find .ready with
  | none =>
    dsimp only
    rw [Pool.accept_bufs h0 h1, Pool.accept_bufs h0 h1]
    by_cases e0 : k = k0
    · subst e0; simp [hne]
    · simp [e0]
  | some r =>
    have hrs := Pool.find_some hr
    have r0 : r ≠ k0 := fun e => by rw [e, h0] at hrs; cases hrs
    have r1 : r ≠ k1 := fun e => by rw [e, h1] at hrs; cases hrs
    dsimp only
    rw [Pool.bufs_modBuf, Pool.bufs_modBuf, Pool.accept_bufs h0 h1, Pool.accept_bufs h0 h1,
      Pool.accept_bufs h0 h1]
    by_cases e0 : k = k0
    · subst e0; simp [hne, r0.symm]
    · by_cases er : k = r
      · subst er; simp [e0, r1]
      · simp [e0, er, Ne.symm er]

/-- Handing a job over keeps the law, as no other buffer is COMMITTING (R11, R35). -/
theorem Pool.lawful_handOver (h : p.lawful) (h0 : p.bufs[k0].st = .filling) (h1 : p.bufs[k1].st = .free)
    (hc : ∀ k : Fin 8, p.bufs[k].st ≠ .committing) (seq : Half) (now : Word) :
    (p.handOver k0 k1 seq now).lawful := by
  obtain ⟨hf, _, hr, hh⟩ := (Pool.lawful_iff p).1 h
  have filling : ∀ k : Fin 8, (p.handOver k0 k1 seq now).bufs[k].st = .filling → k = k1 := fun k hk => by
    rw [Pool.handOver_bufs h0 h1] at hk
    split at hk
    · assumption
    · split at hk
      · cases hk
      · next e0 => split at hk <;> exact absurd (hf k k0 hk h0) e0
  have committing : ∀ k : Fin 8, (p.handOver k0 k1 seq now).bufs[k].st = .committing → k = k0 := fun k hk => by
    rw [Pool.handOver_bufs h0 h1] at hk
    split at hk
    · cases hk
    · split at hk
      · assumption
      · split at hk <;> exact absurd hk (hc k)
  have ready : ∀ k : Fin 8, (p.handOver k0 k1 seq now).bufs[k].st = .ready → p.bufs[k].st = .ready := fun k hk => by
    rw [Pool.handOver_bufs h0 h1] at hk
    split at hk
    · cases hk
    · split at hk
      · cases hk
      · split at hk <;> exact hk
  rw [Pool.lawful_iff]
  refine ⟨fun i j hi hj => (filling i hi).trans (filling j hj).symm,
    fun i j hi hj => (committing i hi).trans (committing j hj).symm,
    fun i j hi hj => hr i j (ready i hi) (ready j hj), fun k => ?_⟩
  rw [Pool.handOver_bufs h0 h1]
  split
  · exact Buffer.held_of_empty rfl nofun
  · split
    · refine Buffer.held_of_empty ?_ nofun
      by_contra he
      rcases (hh k0).1 he with e | e <;> rw [h0] at e <;> cases e
    · split
      · next hk => exact ((Pool.lawful_iff _).1 (Pool.lawful_hold h (Pool.find_some hk) .copySource)).2.2.2 k
          |> fun hb => by rwa [Pool.bufs_modBuf, if_pos rfl] at hb
      · exact hh k

/-- A commit at once keeps the law (R34). -/
theorem Pool.lawful_accept_commit (h : p.lawful) (h0 : p.bufs[k0].st = .filling)
    (h1 : p.bufs[k1].st = .free) (hc : ∀ k : Fin 8, p.bufs[k].st ≠ .committing) (seq : Half) (now : Word) :
    ((p.accept k0 k1 seq now).commit k0 seq now none).lawful := by
  obtain ⟨hf, _, hr, hh⟩ := (Pool.lawful_iff p).1 h
  have other : ∀ k : Fin 8, k ≠ k0 → (p.accept k0 k1 seq now).bufs[k] =
      if k = k1 then Buffer.allocated else p.bufs[k] := fun k hk => by
    rw [Pool.accept_bufs h0 h1, if_neg hk]
  have filling : ∀ k : Fin 8, k ≠ k0 → (p.accept k0 k1 seq now).bufs[k].st = .filling → k = k1 := fun k hk e => by
    rw [other k hk] at e
    split at e
    · assumption
    · exact absurd (hf k k0 e h0) hk
  refine Pool.lawful_commit k0 seq now none
    (fun i j hi hj ei ej => (filling i hi ei).trans (filling j hj ej).symm)
    (fun i j hi _ ei _ => ?_) (fun i j ei ej => ?_) (fun k hk => ?_)
  · rw [other i hi] at ei
    split at ei
    · cases ei
    · exact absurd ei (hc i)
  · have ready : ∀ k : Fin 8, (p.accept k0 k1 seq now).bufs[k].st = .ready → p.bufs[k].st = .ready := fun k hk => by
      rw [Pool.accept_bufs h0 h1] at hk
      split at hk
      · cases hk
      · split at hk
        · next e => subst e; exact hk
        · exact hk
    exact hr i j (ready i ei) (ready j ej)
  · rw [other k hk]
    split
    · exact Buffer.held_of_empty rfl nofun
    · exact hh k

end

/-- After the steps of acceptance CE takes the job and seeks (R34, R35, R36). -/
theorem State.startJob_accepted {s : State} {w : Fin 16} {k0 k1 : Fin 8}
    (h0 : (s.pool w).bufs[k0].st = .filling) (h1 : (s.pool w).bufs[k1].st = .free) (seq : Half) :
    (s.acceptClose w k0 k1 seq).startJob w k0 seq s.timeBase =
      (s.modPool w fun p => p.handOver k0 k1 seq s.timeBase).seek w
        { target := k0, source := (s.pool w).find .ready, seq := seq, time := s.timeBase, index := 0
          phase := .seeking, copied := 0, held := none } := by
  have hr : ((s.acceptClose w k0 k1 seq).pool w).find .ready = (s.pool w).find .ready := by
    rw [State.acceptClose_eq, State.pool_modPool, if_pos rfl, Pool.accept_find_ready h0 h1]
  have hp : ∀ f : Pool → Pool, f (s.pool w) = (s.pool w).handOver k0 k1 seq s.timeBase →
      s.modPool w f = s.modPool w fun p => p.handOver k0 k1 seq s.timeBase := fun f hf => by
    unfold State.modPool
    exact congrArg (fun p => { s with pools := s.pools.set w p }) hf
  unfold State.startJob
  dsimp only
  rw [hr, State.acceptClose_eq]
  cases hf : (s.pool w).find .ready with
  | none =>
    dsimp only
    rw [State.modPool_modPool, hp]
    unfold Pool.handOver
    rw [hf]
  | some r =>
    dsimp only
    rw [State.modPool_modPool, State.modPool_modPool, hp]
    unfold Pool.handOver
    rw [hf]

end Sys2Proof.Machine

/-! SUPPORT. What START, STOP, SETUP entry, a load and a reset do to the parts the laws read, and the laws of
the pools and of the written maps over every step (R11, R14, R29). -/

namespace Sys2Proof.Machine

/-! ### STOP, SETUP entry and frame ends -/

theorem State.setupEntry_dev (s : State) : s.setupEntry.dev = .setup :=
  raiseStopped_frame _ _ _ .dev (by decide)

theorem State.setupEntry_pool (s : State) (w : Fin 16) : s.setupEntry.pool w = (s.pool w).teardown := by
  unfold State.setupEntry
  rw [State.pool_congr (raiseStopped_frame _ _ _ .pools (by decide)), State.pool_mapPools]
  rfl

theorem State.stopBlocks_dev (s : State) : s.stopBlocks.dev = .stopping := rfl

theorem State.stopBlocks_pool (s : State) (w : Fin 16) : s.stopBlocks.pool w = (s.pool w).stopRun := by
  have h : s.stopBlocks.pools = ((s.withdrawBy stopWithdraws).mapPools fun _ p => p.stopRun).pools := rfl
  rw [State.pool_congr h, State.pool_mapPools,
    State.pool_congr (withdrawBy_frame s stopWithdraws .pools (by decide))]

theorem State.stopBlocks_out (s : State) (x : Fin 6) : s.stopBlocks.out x = (s.out x).stop := by
  change (Vector.ofFn fun x : Fin 6 => (s.out x).stop)[x] = _
  simp

theorem State.stopBlocks_inl (s : State) (y : Fin 2) : s.stopBlocks.inl y = (s.inl y).stop := by
  change (Vector.ofFn fun y : Fin 2 => (s.inl y).stop)[y] = _
  simp

/-- What a STOP does, by the device state that finds it (R166). -/
theorem State.stop_cases (s : State) :
    (s.dev = .run ∧ s.stop = { s with outcome := .done }.stopRun) ∨
    (s.dev = .loading ∧ s.stop = { s with outcome := .done }.stopLoad) ∨
    ((s.dev = .setup ∨ s.dev = .stopping) ∧ s.stop = { s with outcome := .done }) := by
  unfold State.stop
  cases h : s.dev <;> simp

/-- A STOP taken in RUN ends in STOPPING, or in SETUP when no lane is SENDING (R174). -/
theorem State.stopRun_cases (s : State) :
    (s.stopBlocks.sendingEmpty = true ∧ s.stopRun = s.stopBlocks.setupEntry) ∨
    (s.stopBlocks.sendingEmpty = false ∧ s.stopRun = s.stopBlocks) := by
  unfold State.stopRun
  cases h : s.stopBlocks.sendingEmpty <;> simp

/-- A frame end: the lane is BETWEEN, or IDLE in STOPPING, where the last one brings SETUP (R119, R174). -/
theorem State.frameEnd_cases (s : State) (x : Fin 6) :
    (s.dev ≠ .stopping ∧
      s.frameEnd x = (s.releaseLane x).modOut x fun l => { l.closeFrame with st := .between }) ∨
    (s.dev = .stopping ∧
      s.frameEnd x = ((s.releaseLane x).modOut x fun l => { l.closeFrame with st := .idle }).laneIdle x) := by
  unfold State.frameEnd
  by_cases h : s.dev = .stopping <;> simp [h]

theorem State.laneIdle_cases (s : State) (x : Fin 6) :
    ({ s with sending := s.sending.set x false }.sendingEmpty = true ∧
      s.laneIdle x = { s with sending := s.sending.set x false }.setupEntry) ∨
    ({ s with sending := s.sending.set x false }.sendingEmpty = false ∧
      s.laneIdle x = { s with sending := s.sending.set x false }) := by
  unfold State.laneIdle
  dsimp only
  split
  · next h => exact .inl ⟨h, rfl⟩
  · next h => exact .inr ⟨by simpa using h, rfl⟩

/-! ### The load and RUN entry -/

/-- What a load read does: the load goes on, fails, or enters RUN (R168, R169, R171, R172). -/
theorem State.loadWord_cases (s : State) (v : Word) :
    (s.load = none ∧ s.loadWord v = s) ∨
    ∃ j, s.load = some j ∧
      ((∃ j' n, s.loadWord v = { s with load := some j' }.requestImage n) ∨
        (∃ e, s.loadWord v = s.loadFailed e) ∨ ∃ im, s.loadWord v = s.runEntry im) := by
  unfold State.loadWord
  cases s.load with
  | none => exact .inl ⟨rfl, rfl⟩
  | some j =>
    refine .inr ⟨j, rfl, ?_⟩
    dsimp only
    repeat' split
    all_goals first
      | exact .inl ⟨_, _, rfl⟩
      | exact .inr (.inl ⟨_, rfl⟩)
      | exact .inr (.inr ⟨_, rfl⟩)

/-- The state in which RUN_STARTED is raised: the tables are adopted and every block has its START values
(R172). -/
def State.entered (s : State) (im : Image) : State := (s.adopt im).startBlocks

theorem State.entered_dev (s : State) (im : Image) : (s.entered im).dev = .run :=
  startBlocks_frame (s.adopt im) .dev (by decide)

theorem State.entered_win (s : State) (im : Image) (w : Fin 16) :
    (s.entered im).win w = (s.adopt im).win w :=
  State.win_congr (startBlocks_frame (s.adopt im) .windows (by decide)) w

theorem State.entered_pool (s : State) (im : Image) (w : Fin 16) :
    ∃ deadline, (s.entered im).pool w = (s.pool w).start ((s.entered im).win w) deadline := by
  refine ⟨(s.adopt im).deadline ((s.adopt im).win w).timeout, ?_⟩
  rw [State.entered_win]
  unfold State.entered State.startBlocks
  rw [State.pool_congr (startJournal_frame _ .pools (by decide))]
  change (Vector.ofFn _)[w] = _
  rw [Fin.getElem_fin, Vector.getElem_ofFn]
  rfl

/-- A law that a frame start on schedule keeps is kept by the starts that fall in the RUN entry (R173). -/
theorem startAtEntry_keeps {P : State → Prop} {s : State}
    (hi : ∀ {s t : State}, P s → ChangesOnly inertItems s t → P t)
    (hm : ∀ {s : State} (x : Fin 6), P s → s.masterDue x = true → P (s.masterStart x)) (h : P s) :
    P s.startAtEntry := by
  have fold : ∀ (l : List (Fin 6)) (t : State), P t →
      P (l.foldl (fun t x => if t.masterDue x then t.masterStart x else t) t) := fun l => by
    induction l with
    | nil => exact fun t ht => ht
    | cons x l ih =>
      intro t ht
      refine ih _ ?_
      dsimp only
      split
      · next hd => exact hm x ht hd
      · exact ht
  unfold State.startAtEntry
  split
  · refine fold _ _ (hi h ?_)
    intro g hg
    cases g <;> first | exact absurd (by decide) hg | rfl
  · exact h

/-- RUN entry keeps a law that its blocks' START values have (R172, R173). -/
theorem runEntry_keeps {P : State → Prop} {s : State} {im : Image}
    (hi : ∀ {s t : State}, P s → ChangesOnly inertItems s t → P t)
    (hm : ∀ {s : State} (x : Fin 6), P s → s.masterDue x = true → P (s.masterStart x))
    (h : P (s.entered im)) : P (s.runEntry im) :=
  startAtEntry_keeps hi hm (hi h ((raise_frame _ _ _ _ _).mono (by decide)))

/-- The buffers at RUN entry: FREE, but for B0 of a host window, which is FILLING (R24). -/
theorem Pool.start_bufs (p : Pool) (r : WindowRec) (deadline : Word) (k : Fin 8) :
    (p.start r deadline).bufs[k] =
      if r.isHost = true ∧ k = 0 then Buffer.allocated else (p.bufs[k]).clear := by
  have e : ∀ k : Fin 8, (p.mapBufs Buffer.clear).bufs[k] = (p.bufs[k]).clear := fun k =>
    Pool.bufs_mapBufs p k _
  unfold Pool.start
  cases hr : r.isHost
  · simp only [Bool.false_eq_true, if_false, false_and]
    exact e k
  · simp only [if_true, true_and]
    rw [Pool.bufs_modBuf, Buffer.allocate_eq]
    split
    · rfl
    · exact e k

theorem Pool.start_job (p : Pool) (r : WindowRec) (deadline : Word) : (p.start r deadline).job = none := by
  unfold Pool.start
  dsimp only
  split <;> rfl

theorem Pool.lawful_start (p : Pool) (r : WindowRec) (deadline : Word) : (p.start r deadline).lawful := by
  have one : ∀ k : Fin 8, (p.start r deadline).bufs[k].st = .free ∨
      k = 0 ∧ (p.start r deadline).bufs[k].st = .filling := fun k => by
    rw [Pool.start_bufs]
    split
    · next h => exact .inr ⟨h.2, rfl⟩
    · exact .inl rfl
  have not : ∀ (k : Fin 8) (c : BufState), c ≠ .free → c ≠ .filling →
      (p.start r deadline).bufs[k].st ≠ c := fun k c h1 h2 e => by
    rcases one k with f | ⟨_, f⟩
    · exact h1 (e.symm.trans f)
    · exact h2 (e.symm.trans f)
  have zero : ∀ k : Fin 8, (p.start r deadline).bufs[k].st = .filling → k = 0 := fun k e => by
    rcases one k with f | ⟨f, _⟩
    · rw [f] at e; cases e
    · exact f
  rw [Pool.lawful_iff]
  refine ⟨fun j k hj hk => (zero j hj).trans (zero k hk).symm,
    fun j _ hj => absurd hj (not j _ nofun nofun), fun j _ hj => absurd hj (not j _ nofun nofun),
    fun k => Buffer.held_of_empty ?_ (not k _ nofun nofun)⟩
  rw [Pool.start_bufs]
  split <;> rfl

/-! ### Reset -/

theorem State.pinReset_pool (s : State) (w : Fin 16) : s.pinReset.pool w = Pool.zero := by
  change (Vector.replicate 16 Pool.zero)[w] = _
  simp

theorem Pool.zero_bufs (k : Fin 8) : Pool.zero.bufs[k] = Buffer.zero := by
  change (Vector.replicate 8 Buffer.zero)[k] = _
  simp

theorem Pool.lawful_zero : Pool.zero.lawful := by
  have free : ∀ k : Fin 8, Pool.zero.bufs[k].st = .free := fun k => by rw [Pool.zero_bufs]; rfl
  have not : ∀ (k : Fin 8) (c : BufState), c ≠ .free → Pool.zero.bufs[k].st ≠ c :=
    fun k c hc e => hc (e.symm.trans (free k))
  rw [Pool.lawful_iff]
  refine ⟨fun j _ hj => absurd hj (not j _ nofun), fun j _ hj => absurd hj (not j _ nofun),
    fun j _ hj => absurd hj (not j _ nofun), fun k => ?_⟩
  rw [Pool.zero_bufs]
  exact Buffer.held_of_empty rfl nofun

/-! ### The law of the pools -/

section
variable {s : State}

theorem PoolLaw.decideClose (h : PoolLaw s) (w : Fin 16) (x : HostWrite) : PoolLaw (s.decideClose w x) := by
  rcases s.decideClose_cases w x with e | ⟨o, _, _, e⟩ | ⟨k0, k1, ho, hk0, hk1, e⟩ <;> rw [e]
  · exact h
  · exact PoolLaw.raise (h.modRecord w _ rfl) _ _ _ _
  · obtain ⟨_, _, hc⟩ := State.accepted_facts ho
    have h0 := Pool.find_some hk0
    have h1 := (State.freeBuffer_some hk1).2
    split
    · refine PoolLaw.commit (fun v hv => ?_) ?_
      · rw [State.acceptClose_eq, State.pool_modPool, if_neg hv]; exact h v
      · rw [State.acceptClose_eq, State.pool_modPool, if_pos rfl]
        exact Pool.lawful_accept_commit (h w) h0 h1 hc _ _
    · rw [State.startJob_accepted h0 h1]
      exact PoolLaw.seek (h.modPool w _ (Pool.lawful_handOver (h w) h0 h1 hc _ _)) w _

theorem PoolLaw.expire (h : PoolLaw s) (w : Fin 16) : PoolLaw (s.expire w) :=
  PoolLaw.raise (h.modRecord w _ rfl) _ _ _ _

theorem PoolLaw.setupEntry (h : PoolLaw s) : PoolLaw s.setupEntry := fun w => by
  rw [State.setupEntry_pool]; exact Pool.lawful_teardown (h w)

theorem PoolLaw.stopBlocks (h : PoolLaw s) : PoolLaw s.stopBlocks := fun w => by
  rw [State.stopBlocks_pool]; exact Pool.lawful_of_bufs (Pool.lawful_stop (h w)) rfl

theorem PoolLaw.stop (h : PoolLaw s) : PoolLaw s.stop := by
  have h1 : PoolLaw { s with outcome := .done } := h
  rcases s.stop_cases with ⟨_, e⟩ | ⟨_, e⟩ | ⟨_, e⟩ <;> rw [e]
  · rcases State.stopRun_cases { s with outcome := .done } with ⟨_, e⟩ | ⟨_, e⟩ <;> rw [e]
    · exact h1.stopBlocks.setupEntry
    · exact h1.stopBlocks
  · exact h1.of_eq (stopLoad_frame _ .pools (by decide))
  · exact h1

theorem PoolLaw.laneIdle (h : PoolLaw s) (x : Fin 6) : PoolLaw (s.laneIdle x) := by
  have h1 : PoolLaw { s with sending := s.sending.set x false } := h
  rcases s.laneIdle_cases x with ⟨_, e⟩ | ⟨_, e⟩ <;> rw [e]
  · exact h1.setupEntry
  · exact h1

theorem PoolLaw.frameEnd (h : PoolLaw s) (x : Fin 6) : PoolLaw (s.frameEnd x) := by
  have h1 := h.releaseLane x
  rcases s.frameEnd_cases x with ⟨_, e⟩ | ⟨_, e⟩ <;> rw [e]
  · exact h1.modOut x _
  · exact (h1.modOut x _).laneIdle x

theorem PoolLaw.loadWord (h : PoolLaw s) (v : Word) : PoolLaw (s.loadWord v) := by
  rcases s.loadWord_cases v with ⟨_, e⟩ | ⟨j, _, ⟨j', n, e⟩ | ⟨e', e⟩ | ⟨im, e⟩⟩ <;> rw [e]
  · exact h
  · exact h
  · exact h.of_eq (loadFailed_frame s e' .pools (by decide))
  · refine runEntry_keeps (fun h f => h.of_eq (f .pools (by decide))) (fun x h _ => h.masterStart x)
      fun w => ?_
    obtain ⟨d, e⟩ := s.entered_pool im w
    rw [e]
    exact Pool.lawful_start _ _ _

/-- Every operation keeps the law of the pools (R11, R14). -/
theorem poolLaw_kept : KeptByEvents PoolLaw where
  inert h f := h.of_eq (f .pools (by decide))
  setSu _ h _ := h
  mark r be h _ := h.markPayload (some r) be
  close w x h _ _ := h.decideClose w x
  start h := h.of_eq (start_frame _ .pools (by decide))
  stop h _ := h.stop
  view w h := h.modPool w Pool.moveView (Pool.lawful_moveView (h w))
  expire w h := h.expire w
  slots h f _ := h.of_eq (f .pools (by decide))
  copyRead w v h := h.copyRead w v
  copyWrite w be h := h.copyWrite w be
  loadWord v h := h.loadWord v
  masterStart x h _ := h.masterStart x
  activeEdge x h := h.activeEdge x
  flywheel x h _ := h.flywheel x
  frameEnd x h _ := h.frameEnd x
  inEdge y h := h.inActiveEdge y
  inH0 y v h := h.of_eq (inH0_frame _ y v .pools (by decide))
  inH1 y v h := h.inH1 y v
  inData y v h := h.inData y v
  inCrc y v h := h.inCrc y v
  halfWritten y h := h.halfWritten y
  pinReset _ w := by rw [State.pinReset_pool]; exact Pool.lawful_zero

/-! ### The form of the maps -/

theorem MapLaw.setupEntry (h : MapLaw s) : MapLaw s.setupEntry := (mapLaw_iff _).2 fun w => by
  rw [State.setupEntry_pool]; exact Pool.rises_teardown (h w)

theorem MapLaw.stopBlocks (h : MapLaw s) : MapLaw s.stopBlocks := (mapLaw_iff _).2 fun w => by
  rw [State.stopBlocks_pool]; exact Pool.rises_of_bufs (Pool.rises_stop (h w)) rfl

theorem MapLaw.stop (h : MapLaw s) : MapLaw s.stop := by
  have h1 : MapLaw { s with outcome := .done } := h
  rcases s.stop_cases with ⟨_, e⟩ | ⟨_, e⟩ | ⟨_, e⟩ <;> rw [e]
  · rcases State.stopRun_cases { s with outcome := .done } with ⟨_, e⟩ | ⟨_, e⟩ <;> rw [e]
    · exact h1.stopBlocks.setupEntry
    · exact h1.stopBlocks
  · exact h1.of_eq (stopLoad_frame _ .pools (by decide))
  · exact h1

theorem MapLaw.laneIdle (h : MapLaw s) (x : Fin 6) : MapLaw (s.laneIdle x) := by
  have h1 : MapLaw { s with sending := s.sending.set x false } := h
  rcases s.laneIdle_cases x with ⟨_, e⟩ | ⟨_, e⟩ <;> rw [e]
  · exact h1.setupEntry
  · exact h1

theorem MapLaw.frameEnd (h : MapLaw s) (x : Fin 6) : MapLaw (s.frameEnd x) := by
  have h1 := h.releaseLane x
  rcases s.frameEnd_cases x with ⟨_, e⟩ | ⟨_, e⟩ <;> rw [e]
  · exact h1.modOut x _
  · exact (h1.modOut x _).laneIdle x

theorem MapLaw.masterStart (h : MapLaw s) (x : Fin 6) : MapLaw (s.masterStart x) :=
  MapLaw.frameStart (h.modOut x _) x false

theorem MapLaw.loadWord (h : MapLaw s) (v : Word) : MapLaw (s.loadWord v) := by
  rcases s.loadWord_cases v with ⟨_, e⟩ | ⟨j, _, ⟨j', n, e⟩ | ⟨e', e⟩ | ⟨im, e⟩⟩ <;> rw [e]
  · exact h
  · exact h
  · exact h.of_eq (loadFailed_frame s e' .pools (by decide))
  · refine runEntry_keeps (fun h f => h.of_eq (f .pools (by decide))) (fun x h _ => h.masterStart x)
      ((mapLaw_iff _).2 fun w => ?_)
    obtain ⟨d, e⟩ := s.entered_pool im w
    rw [e]
    exact Pool.rises_start _ _ _

/-- Every operation keeps the form of the maps (R29). -/
theorem mapLaw_kept : KeptByEvents MapLaw where
  inert h f := h.of_eq (f .pools (by decide))
  setSu _ h _ := h
  mark r be h _ := h.markPayload (some r) be
  close w x h _ _ := h.decideClose w x
  start h := h.of_eq (start_frame _ .pools (by decide))
  stop h _ := h.stop
  view w h := h.modPool w Pool.moveView (Pool.rises_moveView (h w))
  expire w h := MapLaw.raise (h.modRecord w _ rfl) _ _ _ _
  slots h f _ := h.of_eq (f .pools (by decide))
  copyRead w v h := h.copyRead w v
  copyWrite w be h := h.copyWrite w be
  loadWord v h := h.loadWord v
  masterStart x h _ := h.masterStart x
  activeEdge x h := h.activeEdge x
  flywheel x h _ := h.flywheel x
  frameEnd x h _ := h.frameEnd x
  inEdge y h := h.inActiveEdge y
  inH0 y v h := h.of_eq (inH0_frame _ y v .pools (by decide))
  inH1 y v h := h.inH1 y v
  inData y v h := h.inData y v
  inCrc y v h := h.inCrc y v
  halfWritten y h := h.halfWritten y
  pinReset _ := (mapLaw_iff _).2 fun w => by
    rw [State.pinReset_pool]
    intro k
    rw [Pool.zero_bufs]
    exact WMap.rises_nil

end

/-- Settles O57: the two laws are kept by every operation, and so by every step. -/
theorem everyStepKeepsThePoolLaw : Obligations.EveryStepKeepsThePoolLaw :=
  ⟨fun _ _ h e => poolLaw_kept.step h e, fun _ _ h e => mapLaw_kept.step h e⟩

end Sys2Proof.Machine

/-! SUPPORT. The law of the device state over every step (R107, R125, R149, R161, R165, R167, R174): in RUN
it asks for no load job alone, and outside RUN the blocks rest. -/

namespace Sys2Proof.Machine

section
variable {s t : State}

/-- In RUN the law says that there is no load job. -/
theorem DeviceLaw.of_run (hd : t.dev = .run) (hl : t.load = none) : DeviceLaw t := by
  refine ⟨by simp [hd, hl], fun h => absurd hd h, fun h => ?_, fun h => ?_, fun h => absurd hd h⟩ <;>
    simp [hd] at h

theorem DeviceLaw.load_none (h : DeviceLaw s) (hd : s.dev ≠ .loading) : s.load = none := by
  have h1 := mt h.1.1 hd
  simpa using h1

/-- What happens in RUN and leaves the device state and the load job keeps the law. -/
theorem DeviceLaw.in_run (h : DeviceLaw s) (hr : s.dev = .run) (hd : t.dev = s.dev) (hl : t.load = s.load) :
    DeviceLaw t :=
  .of_run (hd.trans hr) (hl.trans (h.load_none (by rw [hr]; nofun)))

/-- The law reads the device state, the load job, the sending set, the jobs, the outbound lanes' states and
the inbound lanes. -/
theorem DeviceLaw.of_eq (h : DeviceLaw s) (hd : t.dev = s.dev) (hl : t.load = s.load)
    (hs : t.sending = s.sending) (hj : ∀ w, (t.pool w).job = (s.pool w).job)
    (ho : ∀ x, (t.out x).st = (s.out x).st)
    (hi : ∀ y, (t.inl y).st = (s.inl y).st ∧ (t.inl y).frames = (s.inl y).frames) : DeviceLaw t := by
  obtain ⟨load, jobs, idle, stopping, ins⟩ := h
  refine ⟨?_, ?_, ?_, ?_, ?_⟩ <;> rw [hd]
  · rw [hl]; exact load
  · intro hr w; rw [hj]; exact jobs hr w
  · intro hr x; rw [ho]; exact idle hr x
  · intro hr
    rw [hs]
    obtain ⟨some, each⟩ := stopping hr
    exact ⟨some, fun x => by rw [ho]; exact each x⟩
  · intro hr y; rw [(hi y).1, (hi y).2]; exact ins hr y

theorem DeviceLaw.inert (h : DeviceLaw s) (f : ChangesOnly inertItems s t) : DeviceLaw t :=
  h.of_eq (f .dev (by decide)) (f .load (by decide)) (f .sending (by decide))
    (fun w => congrArg _ (State.pool_congr (f .pools (by decide)) w))
    (fun x => congrArg _ (State.out_congr (f .outs (by decide)) x))
    fun y => by rw [State.inl_congr (f .ins (by decide)) y]; exact ⟨rfl, rfl⟩

theorem DeviceLaw.slots (h : DeviceLaw s) (f : ChangesOnly (.outs :: inertItems) s t)
    (ho : ∀ x, (t.out x).st = (s.out x).st) : DeviceLaw t :=
  h.of_eq (f .dev (by decide)) (f .load (by decide)) (f .sending (by decide))
    (fun w => congrArg _ (State.pool_congr (f .pools (by decide)) w)) ho
    fun y => by rw [State.inl_congr (f .ins (by decide)) y]; exact ⟨rfl, rfl⟩

/-- A change of one pool that leaves its job. -/
theorem DeviceLaw.modPool (h : DeviceLaw s) (w : Fin 16) (f : Pool → Pool)
    (hf : (f (s.pool w)).job = (s.pool w).job) : DeviceLaw (s.modPool w f) :=
  h.of_eq rfl rfl rfl (fun v => by
    rw [State.pool_modPool]
    split
    · next e => rw [hf, e]
    · rfl) (fun _ => rfl) fun _ => ⟨rfl, rfl⟩

theorem DeviceLaw.raise (h : DeviceLaw s) (k : Kind) (source : Option Nat) (d1 d2 : Word) :
    DeviceLaw (s.raise k source d1 d2) := h.inert ((raise_frame s _ _ _ _).mono (by decide))

theorem Pool.moveView_job (p : Pool) : p.moveView.job = p.job := by
  unfold Pool.moveView
  split <;> rfl

/-- A copy-forward job is met in RUN only. -/
theorem DeviceLaw.run_of_job (h : DeviceLaw s) {w : Fin 16} {j : CopyJob} (hj : (s.pool w).job = some j) :
    s.dev = .run := by
  by_contra hd
  rw [h.2.1 hd w] at hj
  cases hj

/-- An inbound lane is at work in RUN only. -/
theorem DeviceLaw.run_of_in (h : DeviceLaw s) {y : Fin 2} (hy : (s.inl y).st ≠ .idle) : s.dev = .run := by
  by_contra hd
  exact hy (h.2.2.2.2 hd y).1

/-- An outbound lane that is neither IDLE nor SENDING is met in RUN only. -/
theorem DeviceLaw.run_of_out (h : DeviceLaw s) {x : Fin 6} (hi : (s.out x).st ≠ .idle)
    (hs : (s.out x).st ≠ .sending) : s.dev = .run := by
  obtain ⟨_, _, idle, stopping, _⟩ := h
  cases hd : s.dev with
  | run => rfl
  | setup => exact absurd (idle (.inl hd) x) hi
  | loading => exact absurd (idle (.inr hd) x) hi
  | stopping => rcases (stopping hd).2 x with ⟨_, e⟩ | ⟨_, e⟩ <;> contradiction

/-- A lane is SENDING in RUN and STOPPING only. -/
theorem DeviceLaw.of_sending (h : DeviceLaw s) {x : Fin 6} (hs : (s.out x).st = .sending) :
    s.dev = .run ∨ s.dev = .stopping := by
  have idle := h.2.2.1
  cases hd : s.dev with
  | run => exact .inl rfl
  | stopping => exact .inr rfl
  | setup => rw [idle (.inl hd) x] at hs; cases hs
  | loading => rw [idle (.inr hd) x] at hs; cases hs

/-! ### Host, copy-forward and loads -/

theorem DeviceLaw.decideClose (h : DeviceLaw s) (w : Fin 16) (x : HostWrite) (hs : s.steering = true) :
    DeviceLaw (s.decideClose w x) := by
  have f := decideClose_frame s w x
  rcases s.decideClose_cases w x with e | ⟨o, _, _, e⟩ | ⟨k0, k1, ho, _, _, _⟩
  · rw [e]; exact h
  · rw [e]; exact (h.modPool w _ rfl).raise _ _ _ _
  · have hd := (State.accepted_facts ho).1
    simp only [State.steering, Bool.or_eq_true, beq_iff_eq] at hs
    exact h.in_run (hs.resolve_right hd) (f .dev (by decide)) (f .load (by decide))

theorem DeviceLaw.start (h : DeviceLaw s) : DeviceLaw s.start := by
  unfold State.start
  split
  · next hd =>
    obtain ⟨_, jobs, idle, _, ins⟩ := h
    have hr : s.dev ≠ .run := by rw [hd]; nofun
    exact ⟨⟨fun _ => rfl, fun _ => rfl⟩, fun _ => jobs hr, fun _ => idle (.inl hd), nofun, fun _ => ins hr⟩
  · exact h

theorem DeviceLaw.copyRead (h : DeviceLaw s) (w : Fin 16) (v : Word) : DeviceLaw (s.copyRead w v) := by
  have f := copyRead_frame s w v
  cases hj : (s.pool w).job with
  | none => unfold State.copyRead; rw [hj]; exact h
  | some j => exact h.in_run (h.run_of_job hj) (f .dev (by decide)) (f .load (by decide))

theorem DeviceLaw.copyWrite (h : DeviceLaw s) (w : Fin 16) (be : Enables) : DeviceLaw (s.copyWrite w be) := by
  have f := copyWrite_frame s w be
  cases hj : (s.pool w).job with
  | none => unfold State.copyWrite; rw [hj]; exact h
  | some j => exact h.in_run (h.run_of_job hj) (f .dev (by decide)) (f .load (by decide))

theorem masterStart_keeps_run {x : Fin 6} (h : s.dev = .run ∧ s.load = none) :
    (s.masterStart x).dev = .run ∧ (s.masterStart x).load = none :=
  ⟨(masterStart_frame s x .dev (by decide)).trans h.1, (masterStart_frame s x .load (by decide)).trans h.2⟩

theorem State.entered_load (s : State) (im : Image) : (s.entered im).load = none :=
  startBlocks_frame (s.adopt im) .load (by decide)

/-- After RUN entry the device is in RUN with no load job (R172). -/
theorem State.runEntry_run (s : State) (im : Image) :
    (s.runEntry im).dev = .run ∧ (s.runEntry im).load = none :=
  runEntry_keeps (P := fun t => t.dev = .run ∧ t.load = none)
    (fun h f => ⟨(f .dev (by decide)).trans h.1, (f .load (by decide)).trans h.2⟩)
    (fun _ h _ => masterStart_keeps_run h) ⟨s.entered_dev im, s.entered_load im⟩

/-- A load that goes on or fails: the device state agrees with the load job, and the rest is untouched. -/
theorem DeviceLaw.of_load (h : DeviceLaw s) (hd : s.dev = .loading)
    (ht : t.dev = .loading ∧ t.load.isSome = true ∨ t.dev = .setup ∧ t.load = none)
    (hp : t.pools = s.pools) (ho : t.outs = s.outs) (hi : t.ins = s.ins) : DeviceLaw t := by
  obtain ⟨_, jobs, idle, _, ins⟩ := h
  have hr : s.dev ≠ .run := by rw [hd]; nofun
  refine ⟨?_, fun _ w => ?_, fun _ x => ?_, fun e => ?_, fun _ y => ?_⟩
  · rcases ht with ⟨e, l⟩ | ⟨e, l⟩ <;> simp [e, l]
  · rw [State.pool_congr hp]; exact jobs hr w
  · rw [State.out_congr ho]; exact idle (.inr hd) x
  · rcases ht with ⟨e', _⟩ | ⟨e', _⟩ <;> rw [e'] at e <;> cases e
  · rw [State.inl_congr hi]; exact ins hr y

theorem DeviceLaw.loadWord (h : DeviceLaw s) (v : Word) : DeviceLaw (s.loadWord v) := by
  rcases s.loadWord_cases v with ⟨_, e⟩ | ⟨j, hj, ⟨j', n, e⟩ | ⟨e', e⟩ | ⟨im, e⟩⟩ <;> rw [e]
  · exact h
  all_goals have hd : s.dev = .loading := h.1.1 (by rw [hj]; rfl)
  · exact h.of_load hd (.inl ⟨hd, rfl⟩) rfl rfl rfl
  · have f := loadFailed_frame s e'
    refine h.of_load hd (.inr ⟨?_, ?_⟩) (f .pools (by decide)) (f .outs (by decide)) (f .ins (by decide))
    · exact raise_frame _ _ _ _ _ .dev (by decide)
    · exact raise_frame _ _ _ _ _ .load (by decide)
  · exact .of_run (s.runEntry_run im).1 (s.runEntry_run im).2

/-! ### STOP and frame ends -/

theorem Pool.stopRun_job (p : Pool) : p.stopRun.job = none := rfl

theorem OutLane.stop_st (l : OutLane) :
    l.stop.st = if l.st = .sending then .sending else .idle := by
  unfold OutLane.stop
  cases h : l.st <;> simp [h]

theorem State.sendingEmpty_iff (s : State) : s.sendingEmpty = true ↔ ∀ x : Fin 6, s.sending[x] = false := by
  unfold State.sendingEmpty
  rw [beq_iff_eq]
  constructor
  · intro h x; rw [h]; simp
  · intro h
    refine Vector.ext fun i hi => ?_
    rw [Vector.getElem_replicate]
    exact h ⟨i, hi⟩

theorem State.sendingEmpty_false (s : State) (h : s.sendingEmpty = false) : ∃ x : Fin 6, s.sending[x] = true := by
  by_contra hn
  have : s.sendingEmpty = true := s.sendingEmpty_iff.2 fun x => by
    cases hx : s.sending[x] with
    | false => rfl
    | true => exact absurd ⟨x, hx⟩ hn
  rw [this] at h
  cases h

/-- SETUP entry, when no load is in progress, no job is left and every lane rests. -/
theorem DeviceLaw.setupEntry (hl : s.load = none) (hj : ∀ w, (s.pool w).job = none)
    (ho : ∀ x, (s.out x).st = .idle) (hi : ∀ y, (s.inl y).st = .idle ∧ (s.inl y).frames = []) :
    DeviceLaw s.setupEntry := by
  have f := setupEntry_frame s
  have hd := s.setupEntry_dev
  refine ⟨?_, fun _ w => ?_, fun _ x => ?_, fun e => ?_, fun _ y => ?_⟩
  · rw [hd, f .load (by decide), hl]; simp
  · rw [State.setupEntry_pool]; exact hj w
  · rw [State.out_congr (f .outs (by decide))]; exact ho x
  · rw [hd] at e; cases e
  · rw [State.inl_congr (f .ins (by decide))]; exact hi y

theorem State.stopBlocks_sending (s : State) (x : Fin 6) :
    s.stopBlocks.sending[x] = ((s.out x).st == .sending) := by
  change (Vector.ofFn fun x : Fin 6 => (s.out x).st == .sending)[x] = _
  simp

/-- After the blocks' work at a STOP each lane is SENDING and in the sending set, or IDLE and not (R125,
R174). -/
theorem State.stopBlocks_lane (s : State) (x : Fin 6) :
    (s.stopBlocks.sending[x] = true ∧ (s.stopBlocks.out x).st = .sending) ∨
      (s.stopBlocks.sending[x] = false ∧ (s.stopBlocks.out x).st = .idle) := by
  rw [State.stopBlocks_sending, State.stopBlocks_out, OutLane.stop_st]
  by_cases h : (s.out x).st = .sending <;> simp [h]

theorem State.stopBlocks_rest (s : State) :
    (∀ w, (s.stopBlocks.pool w).job = none) ∧
      ∀ y, (s.stopBlocks.inl y).st = .idle ∧ (s.stopBlocks.inl y).frames = [] :=
  ⟨fun w => by rw [State.stopBlocks_pool]; rfl, fun y => by rw [State.stopBlocks_inl]; exact ⟨rfl, rfl⟩⟩

theorem DeviceLaw.stopRun (hl : s.load = none) : DeviceLaw s.stopRun := by
  have hl' : s.stopBlocks.load = none := (stopBlocks_frame s .load (by decide)).trans hl
  obtain ⟨jobs, ins⟩ := s.stopBlocks_rest
  rcases s.stopRun_cases with ⟨he, e⟩ | ⟨he, e⟩ <;> rw [e]
  · refine DeviceLaw.setupEntry hl' jobs (fun x => ?_) ins
    rcases s.stopBlocks_lane x with ⟨h, _⟩ | ⟨_, h⟩
    · rw [(s.stopBlocks.sendingEmpty_iff.1 he x)] at h; cases h
    · exact h
  · refine ⟨by rw [hl', State.stopBlocks_dev]; simp, fun _ => jobs, fun h => ?_,
      fun _ => ⟨State.sendingEmpty_false _ he, s.stopBlocks_lane⟩, fun _ => ins⟩
    rcases h with h | h <;> cases h

theorem DeviceLaw.stop (h : DeviceLaw s) : DeviceLaw s.stop := by
  rcases s.stop_cases with ⟨hd, e⟩ | ⟨hd, e⟩ | ⟨_, e⟩ <;> rw [e]
  · exact DeviceLaw.stopRun (s := { s with outcome := .done }) (h.load_none (by rw [hd]; nofun))
  · have f := stopLoad_frame { s with outcome := .done }
    refine h.of_load hd (.inr ⟨?_, ?_⟩) (f .pools (by decide)) (f .outs (by decide)) (f .ins (by decide))
    · exact raiseStopped_frame _ _ _ .dev (by decide)
    · exact raiseStopped_frame _ _ _ .load (by decide)
  · exact h

/-- A lane that reaches IDLE in STOPPING leaves the sending set, and the last one brings SETUP (R174). -/
theorem DeviceLaw.laneIdle {x : Fin 6} (hl : s.load = none) (hd : s.dev = .stopping)
    (hj : ∀ w, (s.pool w).job = none)
    (ho : ∀ z : Fin 6, (s.sending[z] = true ∧ (s.out z).st = .sending) ∨
      (s.sending[z] = false ∧ (s.out z).st = .idle) ∨ z = x)
    (hx : (s.out x).st = .idle) (hi : ∀ y, (s.inl y).st = .idle ∧ (s.inl y).frames = []) :
    DeviceLaw (s.laneIdle x) := by
  have lane : ∀ z : Fin 6, ((s.sending.set x false)[z] = true ∧ (s.out z).st = .sending) ∨
      ((s.sending.set x false)[z] = false ∧ (s.out z).st = .idle) := fun z => by
    by_cases e : z = x
    · subst e; simp [hx]
    · have hv : (s.sending.set x false)[z] = s.sending[z] := by
        simp only [Fin.getElem_fin]
        exact Vector.getElem_set_ne _ _ fun hv => e (Fin.ext hv.symm)
      rw [hv]
      rcases ho z with h | h | h
      · exact .inl h
      · exact .inr h
      · exact absurd h e
  rcases s.laneIdle_cases x with ⟨he, e⟩ | ⟨he, e⟩ <;> rw [e]
  · refine DeviceLaw.setupEntry hl hj (fun z => ?_) hi
    rcases lane z with ⟨h, _⟩ | ⟨_, h⟩
    · have := (State.sendingEmpty_iff _).1 he z
      rw [show (s.sending.set x false)[z] = false from this] at h
      cases h
    · exact h
  · refine ⟨by change s.load.isSome = true ↔ s.dev = .loading; rw [hl, hd]; simp, fun _ => hj,
      fun h => ?_, fun _ => ⟨State.sendingEmpty_false _ he, lane⟩, fun _ => hi⟩
    change s.dev = .setup ∨ s.dev = .loading at h
    rw [hd] at h
    rcases h with h | h <;> cases h

theorem State.releaseLane_job (s : State) (x : Fin 6) (w : Fin 16) :
    ((s.releaseLane x).pool w).job = (s.pool w).job := by
  unfold State.releaseLane
  rw [State.pool_mapPools]
  rfl

theorem DeviceLaw.frameEnd (h : DeviceLaw s) {x : Fin 6} (hx : (s.out x).st = .sending) :
    DeviceLaw (s.frameEnd x) := by
  rcases s.frameEnd_cases x with ⟨hd, e⟩ | ⟨hd, e⟩ <;> rw [e]
  · exact h.in_run ((h.of_sending hx).resolve_right hd) (releaseLane_frame s x .dev (by decide))
      (releaseLane_frame s x .load (by decide))
  · obtain ⟨_, jobs, _, stopping, ins⟩ := id h
    have hr : s.dev ≠ .run := by rw [hd]; nofun
    have f : ChangesOnly [.pools, .outs] s
        ((s.releaseLane x).modOut x fun l => { l.closeFrame with st := .idle }) :=
      (releaseLane_frame s x).andThen (modOut_frame _ _ _)
    refine DeviceLaw.laneIdle ((f .load (by decide)).trans (h.load_none (by rw [hd]; nofun)))
      ((f .dev (by decide)).trans hd) (fun w => ?_) (fun z => ?_) ?_ fun y => ?_
    · rw [State.pool_congr (State.modOut_pools _ _ _), State.releaseLane_job]; exact jobs hr w
    · rw [State.out_modOut, f .sending (by decide)]
      split
      · next e => exact .inr (.inr e)
      · rw [State.out_congr (releaseLane_frame s x .outs (by decide))]
        exact ((stopping hd).2 z).imp_right .inl
    · rw [State.out_modOut, if_pos rfl]
    · rw [State.inl_congr (f .ins (by decide))]; exact ins hr y

/-! ### Lanes -/

theorem DeviceLaw.activeEdge (h : DeviceLaw s) (x : Fin 6) : DeviceLaw (s.activeEdge x) := by
  have f := activeEdge_frame s x
  by_cases hr : s.dev = .run
  · exact h.in_run hr (f .dev (by decide)) (f .load (by decide))
  · have rest : s.activeEdge x = s := by
      unfold State.activeEdge
      cases hx : (s.out x).st with
      | idle => rfl
      | waiting => exact absurd (h.run_of_out (by rw [hx]; nofun) (by rw [hx]; nofun)) hr
      | between => exact absurd (h.run_of_out (by rw [hx]; nofun) (by rw [hx]; nofun)) hr
      | sending => simp only [hr, if_false]
    rw [rest]; exact h

/-- What an inbound lane does in RUN keeps the law, and outside RUN the lane does nothing. -/
theorem DeviceLaw.inbound (h : DeviceLaw s) {y : Fin 2}
    (f : ChangesOnly [.ins, .pools, .flags, .journal, .requests] s t)
    (rest : (s.inl y).st = .idle → (s.inl y).frames = [] → t = s) : DeviceLaw t := by
  by_cases hr : s.dev = .run
  · exact h.in_run hr (f .dev (by decide)) (f .load (by decide))
  · obtain ⟨hst, hfr⟩ := h.2.2.2.2 hr y
    rw [rest hst hfr]; exact h

theorem State.settle_rest {y : Fin 2} (h : (s.inl y).frames = []) : s.settle y = s := by
  have loop : State.settleLoop (2 * (s.inl y).frames.length + 1) y s = s := by
    unfold State.settleLoop State.settleOnce
    rw [h]
  unfold State.settle
  rw [loop]
  unfold State.tryWrite
  rw [h]
  split
  · next h => cases h
  · rfl

theorem State.halfWritten_rest {y : Fin 2} (h : (s.inl y).frames = []) : s.halfWritten y = s := by
  unfold State.halfWritten
  rw [h]
  split
  · next h => cases h
  · exact State.settle_rest h

theorem InLane.expects_idle {l : InLane} (h : l.st = .idle) (j : Nat) : l.expects j = false := by
  unfold InLane.expects
  rw [h]; rfl

/-- Every operation keeps the law of the device state. -/
theorem deviceLaw_kept : KeptByEvents DeviceLaw where
  inert h f := h.inert f
  setSu _ h _ := h
  mark {s} r be h _ := by
    have hm : DeviceLaw (s.markPayload (some r) be) := h.modPool r.w _ rfl
    exact hm
  close w x h _ hs := h.decideClose w x hs
  start h := h.start
  stop h _ := h.stop
  view w h := h.modPool w _ (Pool.moveView_job _)
  expire w h := (h.modPool w _ rfl).raise _ _ _ _
  slots h f ho := h.slots f ho
  copyRead w v h := h.copyRead w v
  copyWrite w be h := h.copyWrite w be
  loadWord v h := h.loadWord v
  masterStart {s} x h hd := by
    simp only [State.masterDue, Bool.and_eq_true, beq_iff_eq] at hd
    obtain ⟨⟨⟨⟨hr, _⟩, _⟩, _⟩, _⟩ := hd
    exact h.in_run hr (masterStart_frame s x .dev (by decide)) (masterStart_frame s x .load (by decide))
  activeEdge x h := h.activeEdge x
  flywheel {s} x h hd := by
    simp only [State.flywheelDue, Bool.and_eq_true, beq_iff_eq] at hd
    obtain ⟨⟨⟨hr, _⟩, _⟩, _⟩ := hd
    exact h.in_run hr (flywheel_frame s x .dev (by decide)) (flywheel_frame s x .load (by decide))
  frameEnd x h hx := h.frameEnd hx
  inEdge {s} y h := h.inbound (y := y) (inActiveEdge_frame s y) fun hst _ => by
    unfold State.inActiveEdge; rw [hst]
  inH0 {s} y v h := h.inbound (y := y) ((inH0_frame s y v).mono (by decide)) fun hst _ => by
    unfold State.inH0; simp [InLane.expects_idle hst, hst]
  inH1 {s} y v h := h.inbound (y := y) (inH1_frame s y v) fun hst _ => by
    unfold State.inH1; simp [InLane.expects_idle hst]
  inData {s} y v h := h.inbound (y := y) (inData_frame s y v) fun hst _ => by
    unfold State.inData State.dataExpected; rw [hst]
  inCrc {s} y v h := h.inbound (y := y) (inCrc_frame s y v) fun hst _ => by
    unfold State.inCrc; simp [InLane.expects_idle hst]
  halfWritten {s} y h := h.inbound (y := y) (halfWritten_frame s y) fun _ hfr => State.halfWritten_rest hfr
  pinReset {s} _ := by
    refine ⟨⟨nofun, nofun⟩, fun _ w => ?_, fun _ x => ?_, nofun, fun _ y => ?_⟩
    · rw [State.pinReset_pool]; rfl
    · change ((Vector.replicate 6 OutLane.zero)[x]).st = _
      simp [OutLane.zero]
    · change ((Vector.replicate 2 InLane.zero)[y]).st = _ ∧ ((Vector.replicate 2 InLane.zero)[y]).frames = _
      simp [InLane.zero]

end

end Sys2Proof.Machine

/-! SUPPORT. What an inbound lane does, seen by a law: the lane's record changes without a new buffer in
hand, a head frame is given a buffer, and a head frame's buffer is marked, discarded or committed (R153,
R155, R158). A law kept by these is kept by every event of the lane. -/

namespace Sys2Proof.Machine

/-! ### The buffers of the frames in hand -/

/-- The frames in hand of `l'` have no buffer that those of `l` have not, and still only the head has one. -/
def InLane.buffersFrom (l l' : InLane) : Prop :=
  (∀ f ∈ l'.frames, f.buffer ≠ none → ∃ g ∈ l.frames, g.buffer = f.buffer) ∧
    ((∀ f ∈ l.frames.tail, f.buffer = none) → ∀ f ∈ l'.frames.tail, f.buffer = none)

section
variable {l l' : InLane}

/-- The frames that remain stood in the list before. -/
theorem InLane.buffersFrom_sub (h : ∀ f ∈ l'.frames, f ∈ l.frames) (ht : ∀ f ∈ l'.frames.tail, f ∈ l.frames.tail) :
    l.buffersFrom l' := ⟨fun f hf _ => ⟨f, h f hf, rfl⟩, fun hn f hf => hn f (ht f hf)⟩

theorem InLane.buffersFrom_same (h : l'.frames = l.frames) : l.buffersFrom l' :=
  buffersFrom_sub (fun _ hf => by rwa [h] at hf) fun _ hf => by rwa [h] at hf

theorem InLane.buffersFrom_tail (h : l'.frames = l.frames.tail) : l.buffersFrom l' :=
  buffersFrom_sub (fun _ hf => List.mem_of_mem_tail (by rwa [h] at hf)) fun _ hf => List.mem_of_mem_tail (by rwa [h] at hf)

theorem InLane.buffersFrom_dropLast (h : l'.frames = l.frames.dropLast) : l.buffersFrom l' :=
  buffersFrom_sub (fun _ hf => List.mem_of_mem_dropLast (by rwa [h] at hf)) fun _ hf => by
    rw [h, List.tail_dropLast] at hf
    exact List.mem_of_mem_dropLast hf

/-- A frame without a buffer joins the end. -/
theorem InLane.buffersFrom_append {f : InFrame} (hf : f.buffer = none) (h : l'.frames = l.frames ++ [f]) :
    l.buffersFrom l' := by
  refine ⟨fun g hg hn => ?_, fun hn g hg => ?_⟩ <;> rw [h] at hg
  · rcases List.mem_append.1 hg with hg | hg
    · exact ⟨g, hg, rfl⟩
    · rw [List.mem_singleton.1 hg] at hn; exact absurd hf hn
  · cases hl : l.frames with
    | nil => rw [hl] at hg; cases hg
    | cons a as =>
      rw [hl] at hg hn
      rcases List.mem_append.1 hg with hg | hg
      · exact hn g hg
      · rw [List.mem_singleton.1 hg]; exact hf

/-- The current frame changes but for its buffer. -/
theorem InLane.buffersFrom_modLast {u : InFrame → InFrame} (h : l'.frames = (l.modLast u).frames)
    (hu : ∀ f, (u f).buffer = f.buffer := by exact fun _ => rfl) : l.buffersFrom l' := by
  rcases List.eq_nil_or_concat' l.frames with hl | ⟨fs, f, hl⟩
  · rw [InLane.modLast, hl] at h
    exact buffersFrom_same (h.trans hl.symm)
  · have e : l'.frames = fs ++ [u f] := by
      rw [h, InLane.modLast, hl]
      simp
    refine ⟨fun g hg hn => ?_, fun hn g hg => ?_⟩ <;> rw [e] at hg
    · rcases List.mem_append.1 hg with hg | hg
      · exact ⟨g, hl ▸ List.mem_append_left _ hg, rfl⟩
      · rw [List.mem_singleton.1 hg]
        exact ⟨f, hl ▸ List.mem_append_right _ (List.mem_singleton_self f), (hu f).symm⟩
    · rw [hl] at hn
      cases fs with
      | nil => cases hg
      | cons a as =>
        rcases List.mem_append.1 hg with hg | hg
        · exact hn g (List.mem_append_left _ hg)
        · rw [List.mem_singleton.1 hg, hu]
          exact hn f (List.mem_append_right _ (List.mem_singleton_self f))

end

/-! ### A law and the events of an inbound lane -/

/-- A law that does not read the request list and that each operation of an inbound lane keeps. -/
structure KeptByFrames (P : State → Prop) : Prop where
  asks : ∀ {s t : State}, P s → ChangesOnly [.requests] s t → P t
  raise : ∀ {s : State}, P s → ∀ (c : Kind) (source : Option Nat) (d1 d2 : Word), P (s.raise c source d1 d2)
  lane : ∀ {s : State} (y : Fin 2) (u : InLane → InLane), P s → (s.inl y).buffersFrom (u (s.inl y)) →
    P (s.modIn y u)
  allocate : ∀ {s : State} {y : Fin 2} {w : Fin 16} {k : Fin 8} {f : InFrame} {fs : List InFrame}, P s →
    s.inWindow y = some w → s.inboundFree w = some k → (s.inl y).frames = f :: fs →
    P ((s.modPool w fun p => p.modBuf k Buffer.allocate).modIn y fun l =>
      l.modHead fun h => { h with buffer := some k })
  discard : ∀ {s : State} {y : Fin 2} {w : Fin 16} {k : Fin 8} {f : InFrame} {fs : List InFrame}, P s →
    s.inWindow y = some w → (s.inl y).frames = f :: fs → f.buffer = some k →
    P ((s.modPool w fun p => p.modBuf k Buffer.discard).modIn y InLane.popHead)
  commit : ∀ {s : State} {y : Fin 2} {w : Fin 16} {k : Fin 8} {f : InFrame} {fs : List InFrame}, P s →
    s.inWindow y = some w → (s.inl y).frames = f :: fs → f.buffer = some k →
    P (((s.modPool w fun p => { p with nextInbound := p.nextInbound + 1 }).commit w k
      (s.pool w).nextInbound f.time none 0).modIn y InLane.popHead)
  mark : ∀ {s : State} {y : Fin 2} {w : Fin 16} {k : Fin 8} {f : InFrame} {fs : List InFrame} (i : Nat)
    (e : Enables), P s → s.inWindow y = some w → (s.inl y).frames = f :: fs → f.buffer = some k →
    P (s.modPool w fun p => p.modBuf k (Buffer.mark i e))

section
variable {P : State → Prop} {s t : State}

theorem KeptByFrames.raiseCut (k : KeptByFrames P) (h : P s) (y : Fin 2) (n : Option Half) (r : CutReason) :
    P (s.raiseCut y n r) := k.raise (k.lane y _ h (InLane.buffersFrom_same rfl)) _ _ _ _

theorem KeptByFrames.refuseFrame (k : KeptByFrames P) (h : P s) (y : Fin 2) (f : InFrame) :
    P (s.refuseFrame y f) := by
  unfold State.refuseFrame
  exact k.lane y _ (k.raise h _ _ _ _) (InLane.buffersFrom_tail rfl)

theorem KeptByFrames.allocateHead (k : KeptByFrames P) (h : P s) {y : Fin 2} {f : InFrame}
    {fs : List InFrame} (hf : (s.inl y).frames = f :: fs) : P (s.allocateHead y f) := by
  unfold State.allocateHead
  split
  · exact k.refuseFrame h y f
  · next hw =>
    split
    · exact k.refuseFrame h y f
    · next hk => exact k.allocate h hw hk hf

theorem KeptByFrames.discardHead (k : KeptByFrames P) (h : P s) {y : Fin 2} {f : InFrame}
    {fs : List InFrame} (hf : (s.inl y).frames = f :: fs) : P (s.discardHead y f) := by
  unfold State.discardHead
  split
  · next hw hb => exact k.discard h hw hf hb
  · exact k.lane y _ h (InLane.buffersFrom_tail rfl)

theorem KeptByFrames.commitHead (k : KeptByFrames P) (h : P s) {y : Fin 2} {f : InFrame}
    {fs : List InFrame} {b : Fin 8} (hf : (s.inl y).frames = f :: fs) (hb : f.buffer = some b) :
    P (s.commitHead y f b) := by
  unfold State.commitHead
  split
  · exact k.lane y _ h (InLane.buffersFrom_tail rfl)
  · next hw =>
    split
    · exact k.commit h hw hf hb
    · exact k.raiseCut (k.discardHead h hf) y _ _

theorem KeptByFrames.settleOnce (k : KeptByFrames P) (h : P s) {y : Fin 2} (e : s.settleOnce y = some t) :
    P t := by
  unfold State.settleOnce at e
  split at e
  · cases e
  · next f fs hf =>
    split at e
    · split at e <;> cases e
      exact k.discardHead h hf
    · cases e; exact k.allocateHead h hf
    · next hb =>
      split at e <;> cases e
      exact k.commitHead h hf hb
    · cases e

theorem KeptByFrames.settle (k : KeptByFrames P) (h : P s) (y : Fin 2) : P (s.settle y) := by
  have loop : ∀ (n : Nat) (t : State), P t → P (State.settleLoop n y t) := fun n => by
    induction n with
    | zero => exact fun t ht => ht
    | succ n ih =>
      intro t ht
      unfold State.settleLoop
      split
      · exact ht
      · next e => exact ih _ (k.settleOnce ht e)
  exact k.asks (loop _ s h) (tryWrite_frame _ y)

theorem KeptByFrames.discardCurrent (k : KeptByFrames P) (h : P s) (y : Fin 2) : P (s.discardCurrent y) := by
  unfold State.discardCurrent
  split
  · exact h
  · split
    · exact k.lane y _ h (InLane.buffersFrom_dropLast rfl)
    · exact k.settle (k.lane y _ (k.asks h (unlist_frame s _))
        (InLane.buffersFrom_modLast rfl)) y

theorem KeptByFrames.inFrameStart (k : KeptByFrames P) (h : P s) (y : Fin 2) : P (s.inFrameStart y) := by
  unfold State.inFrameStart
  dsimp only
  split
  · exact k.settle (k.lane y _ h (InLane.buffersFrom_append rfl rfl)) y
  · exact k.lane y _ h (InLane.buffersFrom_append rfl rfl)

theorem KeptByFrames.inActiveEdge (k : KeptByFrames P) (h : P s) (y : Fin 2) : P (s.inActiveEdge y) := by
  unfold State.inActiveEdge
  split
  · exact h
  · split
    · exact k.inFrameStart h y
    · exact h
  · exact k.inFrameStart (k.discardCurrent (k.raiseCut h y _ _) y) y
  · exact k.inFrameStart h y

theorem KeptByFrames.checkNumber (k : KeptByFrames P) (h : P s) (y : Fin 2) (v : Half) :
    P (s.checkNumber y v) := by
  have h1 : P (s.modIn y fun l => { l with lastNo := v, seen := true }) :=
    k.lane y _ h (InLane.buffersFrom_same rfl)
  unfold State.checkNumber
  dsimp only
  split
  · exact k.raise (k.lane y _ h1 (InLane.buffersFrom_same rfl)) _ _ _ _
  · exact h1

theorem KeptByFrames.inH0 (k : KeptByFrames P) (h : P s) (y : Fin 2) (v : Half) : P (s.inH0 y v) := by
  unfold State.inH0
  split
  · exact k.checkNumber (k.lane y _ h (InLane.buffersFrom_modLast rfl)) y v
  · split
    · exact k.checkNumber (k.lane y _ h (InLane.buffersFrom_same rfl)) y v
    · exact h

theorem KeptByFrames.toDiscarding (k : KeptByFrames P) (h : P s) (y : Fin 2) : P (s.toDiscarding y) :=
  k.lane y _ h (InLane.buffersFrom_same rfl)

theorem KeptByFrames.inH1 (k : KeptByFrames P) (h : P s) (y : Fin 2) (v : Half) : P (s.inH1 y v) := by
  unfold State.inH1
  split
  · have h1 := k.lane y (fun l => { l with crc := crcHalf l.crc v, slot := some 2 }) h
      (InLane.buffersFrom_same rfl)
    dsimp only
    split
    · exact h1
    · exact k.toDiscarding (k.discardCurrent (k.raiseCut h1 y _ _) y) y
  · exact h

theorem KeptByFrames.inData (k : KeptByFrames P) (h : P s) (y : Fin 2) (v : Half) : P (s.inData y v) := by
  unfold State.inData
  split
  · exact h
  · next d _ =>
    have h1 := k.lane y (fun l => { l with crc := crcHalf l.crc v, slot := some (d + 3) }) h
      (InLane.buffersFrom_same rfl)
    dsimp only
    split
    · exact h1
    · unfold State.rxHalf
      split
      · exact k.toDiscarding (k.discardCurrent (k.raiseCut h1 y _ _) y) y
      · exact k.asks (k.lane y _ h1 (InLane.buffersFrom_modLast rfl)) (tryWrite_frame _ y)

theorem KeptByFrames.inCrc (k : KeptByFrames P) (h : P s) (y : Fin 2) (v : Half) : P (s.inCrc y v) := by
  unfold State.inCrc
  split
  · have h1 := k.lane y (fun l => { l with st := .listening, slot := none }) h (InLane.buffersFrom_same rfl)
    dsimp only
    split
    · exact k.settle (k.lane y _ h1 (InLane.buffersFrom_modLast rfl)) y
    · exact k.discardCurrent (k.raise (k.lane y _ h1 (InLane.buffersFrom_same rfl)) _ _ _ _) y
  · exact h

/-- The head frame changes but for its buffer. -/
theorem InLane.buffersFrom_modHead {l : InLane} {u : InFrame → InFrame} (hu : ∀ f, (u f).buffer = f.buffer) :
    l.buffersFrom (l.modHead u) := by
  unfold InLane.modHead InLane.buffersFrom
  cases hl : l.frames with
  | nil => exact ⟨nofun, fun _ => nofun⟩
  | cons f fs =>
    refine ⟨fun g hg _ => ?_, fun hn => hn⟩
    rcases List.mem_cons.1 hg with rfl | hg
    · exact ⟨f, List.mem_cons_self, (hu f).symm⟩
    · exact ⟨g, List.mem_cons_of_mem _ hg, rfl⟩

theorem KeptByFrames.halfWritten (k : KeptByFrames P) (h : P s) (y : Fin 2) : P (s.halfWritten y) := by
  unfold State.halfWritten
  refine k.settle ?_ y
  split
  · next hw hf =>
    split
    · exact h
    · next hb _ _ =>
      exact k.lane y _ (k.mark _ _ h hw hf hb) (InLane.buffersFrom_modHead fun _ => rfl)
    · exact h
  · exact h

end

end Sys2Proof.Machine

/-! SUPPORT. A frame start in the terms of the statements: the draws and the holds it takes, the lane record
it leaves, its fetch plan and its first request (R97, R111–R113). -/

namespace Sys2Proof.Machine

/-! ### What a frame start reads -/

theorem State.insertBySlot_congr {s t : State} (he : t.entries = s.entries) (e : Nat) (l : List Nat) :
    t.insertBySlot e l = s.insertBySlot e l := by
  induction l with
  | nil => rfl
  | cons f fs ih => unfold State.insertBySlot; rw [State.entry_congr he, State.entry_congr he, ih]

theorem State.slotOrder_congr {s t : State} (hl : t.lanes = s.lanes) (he : t.entries = s.entries)
    (x : Fin 6) : t.slotOrder x = s.slotOrder x := by
  unfold State.slotOrder
  rw [State.outRec_congr hl]
  refine congrArg (List.foldl · [] (s.outRec x).runOf) (funext fun l => funext fun e => ?_)
  exact State.insertBySlot_congr he e l

theorem State.carried_congr {s t : State} (hl : t.lanes = s.lanes) (he : t.entries = s.entries)
    (x : Fin 6) : t.carried x = s.carried x := by
  unfold State.carried
  rw [State.slotOrder_congr hl he]
  refine congrArg (List.foldl · [] (s.slotOrder x)) (funext fun l => funext fun e => ?_)
  rw [State.entry_congr he]

/-- What a decision reads of a pool (R15, R97). -/
def Pool.drawsAs (p q : Pool) : Prop :=
  q.committed = p.committed ∧ q.ownMark = p.ownMark ∧ q.find .ready = p.find .ready ∧
    ∀ k : Fin 8, q.bufs[k].seq = p.bufs[k].seq ∧ q.bufs[k].time = p.bufs[k].time

theorem Pool.drawsAs_refl (p : Pool) : p.drawsAs p := ⟨rfl, rfl, rfl, fun _ => ⟨rfl, rfl⟩⟩

/-- The decision for a window depends on the windows, the groups, the marks and the READY buffers (R97). -/
theorem State.drawFor_congr {s t : State} (hw : t.windows = s.windows) (hg : t.groups = s.groups)
    (hp : ∀ v : Fin 16, (s.pool v).drawsAs (t.pool v)) (w : Fin 16) : t.drawFor w = s.drawFor w := by
  have hc : t.cueState w = s.cueState w := State.cueState_congr hw hg (fun v => ⟨(hp v).1, (hp v).2.1⟩) w
  have hr : t.readyDraw w = s.readyDraw w := by
    obtain ⟨_, _, find, bufs⟩ := hp w
    unfold State.readyDraw
    rw [find]
    cases (s.pool w).find .ready with
    | none => rfl
    | some k => dsimp only; rw [(bufs k).1, (bufs k).2]
  unfold State.drawFor
  rw [hc, hr, State.win_congr hw]

/-! ### Holds (R15) -/

/-- The decision's hold falls on buffer `k` of window `w`. -/
def Carried.isOn (c : Carried) (w : Fin 16) (k : Fin 8) : Prop := c.window = w ∧ c.draw.isOn k = true

theorem Buffer.hold_hold (h : Holder) (b : Buffer) : (b.hold h).hold h = b.hold h := by
  have e : ((b.holders.put h true).put h true) = b.holders.put h true :=
    HolderSet.ext_has fun g => by rw [HolderSet.has_put, HolderSet.has_put]; split <;> rfl
  unfold Buffer.hold
  rw [e]

theorem State.holdFor_pool (s : State) (x : Fin 6) (c : Carried) (w : Fin 16) :
    OnlyBuffers w s (s.holdFor x c) ∧ ∀ k : Fin 8,
      (c.isOn w k → ((s.holdFor x c).pool w).bufs[k] = (s.pool w).bufs[k].hold (.lane x)) ∧
      (¬ c.isOn w k → ((s.holdFor x c).pool w).bufs[k] = (s.pool w).bufs[k]) := by
  have same : ∀ d : Draw, c.draw = d → (∀ k, d.isOn k = false) → s.holdFor x c = s →
      OnlyBuffers w s (s.holdFor x c) ∧ ∀ k : Fin 8,
      (c.isOn w k → ((s.holdFor x c).pool w).bufs[k] = (s.pool w).bufs[k].hold (.lane x)) ∧
      (¬ c.isOn w k → ((s.holdFor x c).pool w).bufs[k] = (s.pool w).bufs[k]) := fun d hd hn e => by
    rw [e]
    refine ⟨rfl, fun k => ⟨fun ho => ?_, fun _ => rfl⟩⟩
    have := ho.2
    rw [hd, hn] at this
    cases this
  cases hd : c.draw with
  | neutral => exact same _ hd (fun _ => rfl) (by unfold State.holdFor; rw [hd])
  | decay => exact same _ hd (fun _ => rfl) (by unfold State.holdFor; rw [hd])
  | buffer j seq time =>
    have e : s.holdFor x c = s.modPool c.window fun p => p.modBuf j (Buffer.hold (.lane x)) := by
      unfold State.holdFor; rw [hd]
    have on : ∀ k, c.isOn w k ↔ c.window = w ∧ j = k := fun k => by
      unfold Carried.isOn; rw [hd]; simp [Draw.isOn]
    have hp : (s.holdFor x c).pool w =
        if w = c.window then (s.pool w).modBuf j (Buffer.hold (.lane x)) else s.pool w := by
      rw [e, State.pool_modPool]
      split
      · next hw => rw [hw]
      · rfl
    unfold OnlyBuffers
    by_cases hw : w = c.window
    · rw [if_pos hw] at hp
      refine ⟨by rw [hp]; rfl, fun k => ⟨fun hk => ?_, fun hk => ?_⟩⟩ <;>
        rw [hp, Pool.bufs_modBuf]
      · rw [if_pos ((on k).1 hk).2.symm, ((on k).1 hk).2]
      · rw [if_neg fun h => hk ((on k).2 ⟨hw.symm, h.symm⟩)]
    · rw [if_neg hw] at hp
      rw [hp]
      exact ⟨rfl, fun k => ⟨fun hk => absurd hk.1.symm hw, fun _ => rfl⟩⟩

theorem OnlyBuffers.trans {w : Fin 16} {s t u : State} (h : OnlyBuffers w s t) (h' : OnlyBuffers w t u) :
    OnlyBuffers w s u := by
  unfold OnlyBuffers at *
  rw [h', h]

/-- The holds of a list of decisions. -/
theorem State.holds_pool (x : Fin 6) (cs : List Carried) (s : State) (w : Fin 16) :
    OnlyBuffers w s (cs.foldl (fun t c => t.holdFor x c) s) ∧ ∀ k : Fin 8,
      ((∃ c ∈ cs, c.isOn w k) → ((cs.foldl (fun t c => t.holdFor x c) s).pool w).bufs[k] =
        (s.pool w).bufs[k].hold (.lane x)) ∧
      ((∀ c ∈ cs, ¬ c.isOn w k) → ((cs.foldl (fun t c => t.holdFor x c) s).pool w).bufs[k] =
        (s.pool w).bufs[k]) := by
  induction cs generalizing s with
  | nil => exact ⟨rfl, fun k => ⟨nofun, fun _ => rfl⟩⟩
  | cons c cs ih =>
    obtain ⟨only, bufs⟩ := s.holdFor_pool x c w
    obtain ⟨only', bufs'⟩ := ih (s.holdFor x c)
    refine ⟨only.trans only', fun k => ⟨fun ⟨d, hd, ho⟩ => ?_, fun hn => ?_⟩⟩ <;>
      rw [List.foldl_cons]
    · by_cases later : ∃ d ∈ cs, d.isOn w k
      · rw [(bufs' k).1 later]
        by_cases now : c.isOn w k
        · rw [(bufs k).1 now, Buffer.hold_hold]
        · rw [(bufs k).2 now]
      · rcases List.mem_cons.1 hd with rfl | hd
        · rw [(bufs' k).2 fun c hc ho => later ⟨c, hc, ho⟩, (bufs k).1 ho]
        · exact absurd ⟨d, hd, ho⟩ later
    · rw [(bufs' k).2 fun d hd => hn d (List.mem_cons_of_mem _ hd), (bufs k).2 (hn c List.mem_cons_self)]

/-! ### The frame start (R111) -/

/-- The number, the frame time and the header flags are set (R111 steps 1 to 3). -/
def State.openedFrom (s : State) (x : Fin 6) (fly : Bool) : State :=
  s.modOut x (OutLane.openFrame s.timeBase fly)

/-- The decisions of a frame that starts now (R97, R111 step 4). -/
def State.frameDraws (s : State) (x : Fin 6) : List Carried := (s.carried x).map s.drawFor

/-- The decisions are taken and the holds placed (R111 step 4). -/
def State.heldFrame (s : State) (x : Fin 6) (fly : Bool) : State :=
  (((s.openedFrom x fly).frameDraws x).foldl (fun t c => t.holdFor x c) (s.openedFrom x fly)).modOut x
    fun l => { l with draws := (s.openedFrom x fly).frameDraws x }

/-- The frame has begun, and its first word is still to be requested (R111 steps 5 and 6). -/
def State.begunFrame (s : State) (x : Fin 6) (fly : Bool) : State :=
  (s.heldFrame x fly).modOut x
    (OutLane.beginFrame ((s.heldFrame x fly).planOf x ((s.heldFrame x fly).out x)))

theorem State.frameStart_eq (s : State) (x : Fin 6) (fly : Bool) :
    s.frameStart x fly = (s.begunFrame x fly).tryFetch x := rfl

section
variable (s : State) (x : Fin 6) (fly : Bool)

/-- The holds of a frame start. -/
theorem State.holds_frame (cs : List Carried) (t : State) :
    ChangesOnly [.pools] t (cs.foldl (fun t c => t.holdFor x c) t) :=
  ChangesOnly.foldl _ (fun t c => holdFor_frame t x c) _ _

theorem State.heldFrame_frame : ChangesOnly [.outs, .pools] s (s.heldFrame x fly) := by
  have h : ChangesOnly [.outs, .pools] s
      (((s.openedFrom x fly).frameDraws x).foldl (fun t c => t.holdFor x c) (s.openedFrom x fly)) :=
    (modOut_frame s x _).andThen (State.holds_frame x _ _)
  exact h.andThen (modOut_frame _ _ _)

theorem State.begunFrame_frame : ChangesOnly [.outs, .pools] s (s.begunFrame x fly) :=
  (s.heldFrame_frame x fly).andThen (modOut_frame _ _ _)

/-- The decisions of the frame are those of the state in which it starts. -/
theorem State.openedFrom_draws : (s.openedFrom x fly).frameDraws x = s.frameDraws x := by
  unfold State.frameDraws State.openedFrom
  rw [State.carried_congr (State.modOut_lanes _ _ _) (State.modOut_entries _ _ _)]
  refine congrArg (List.map · (s.carried x)) (funext fun w => ?_)
  exact State.drawFor_congr rfl rfl (fun v => Pool.drawsAs_refl _) w

theorem State.heldFrame_out : (s.heldFrame x fly).out x =
    { OutLane.openFrame s.timeBase fly (s.out x) with draws := s.frameDraws x } := by
  unfold State.heldFrame
  rw [State.out_modOut, if_pos rfl, State.openedFrom_draws,
    State.out_congr (State.holds_frame x _ _ .outs (by decide))]
  unfold State.openedFrom
  rw [State.out_modOut, if_pos rfl]

theorem State.heldFrame_others (z : Fin 6) (hz : z ≠ x) : (s.heldFrame x fly).out z = s.out z := by
  unfold State.heldFrame
  rw [State.out_modOut, if_neg hz, State.out_congr (State.holds_frame x _ _ .outs (by decide))]
  exact (State.out_modOut _ _ _ _).trans (if_neg hz)

/-- A frame start takes its holds, and changes no buffer otherwise (R15, R111). -/
theorem State.heldFrame_holds : HoldsTaken x id s (s.heldFrame x fly) := by
  intro w
  obtain ⟨only, bufs⟩ := State.holds_pool x (s.frameDraws x) (s.openedFrom x fly) w
  have hp : (s.heldFrame x fly).pools =
      ((s.frameDraws x).foldl (fun t c => t.holdFor x c) (s.openedFrom x fly)).pools := by
    rw [← State.openedFrom_draws s x fly]; rfl
  have on : ∀ k : Fin 8, (∃ c ∈ s.frameDraws x, c.isOn w k) ↔
      w ∈ s.carried x ∧ (s.drawFor w).draw.isOn k = true := fun k => by
    constructor
    · rintro ⟨c, hc, hw, hk⟩
      obtain ⟨v, hv, rfl⟩ := List.mem_map.1 hc
      rw [State.drawFor_window] at hw
      subst hw
      exact ⟨hv, hk⟩
    · rintro ⟨hw, hk⟩
      exact ⟨_, List.mem_map_of_mem hw, State.drawFor_window s w, hk⟩
  refine ⟨?_, fun k => ?_⟩
  · unfold OnlyBuffers at only ⊢
    rw [State.pool_congr hp, only]
    rfl
  · rw [State.pool_congr hp]
    split
    · next h => exact (bufs k).1 ((on k).2 h)
    · next h => exact (bufs k).2 fun c hc ho => h ((on k).1 ⟨c, hc, ho⟩)

theorem HoldsTaken.of_eq {x : Fin 6} {was : Buffer → Buffer} {s t u : State} (h : HoldsTaken x was s t)
    (e : u.pools = t.pools) : HoldsTaken x was s u := fun w => by
  obtain ⟨only, bufs⟩ := h w
  refine ⟨?_, fun k => ?_⟩
  · unfold OnlyBuffers at only ⊢
    rw [State.pool_congr e]; exact only
  · rw [State.pool_congr e]; exact bufs k

theorem State.frameStart_pools : (s.frameStart x fly).pools = (s.heldFrame x fly).pools := by
  rw [State.frameStart_eq, tryFetch_frame _ x .pools (by decide)]
  exact State.modOut_pools _ _ _

theorem State.frameStart_holds : HoldsTaken x id s (s.frameStart x fly) :=
  (s.heldFrame_holds x fly).of_eq (s.frameStart_pools x fly)

end

/-! ### The plan (R112, R133) -/

theorem mem_addWindow {l : List (Fin 16)} {v w : Fin 16} : v ∈ addWindow l w ↔ v ∈ l ∨ v = w := by
  unfold addWindow
  split
  · next h => exact ⟨.inl, fun h' => h'.elim id fun e => e ▸ h⟩
  · simp

/-- The window of each entry of the slot order is carried (R130). -/
theorem State.window_carried (s : State) {x : Fin 6} {e : Nat} (he : e ∈ s.slotOrder x) :
    (s.entry e).window ∈ s.carried x := by
  have fold : ∀ (l : List Nat) (acc : List (Fin 16)) (v : Fin 16),
      v ∈ l.foldl (fun l e => addWindow l (s.entry e).window) acc ↔ v ∈ acc ∨ ∃ e ∈ l, (s.entry e).window = v :=
    fun l => by
      induction l with
      | nil => simp
      | cons f fs ih =>
        intro acc v
        rw [List.foldl_cons, ih, mem_addWindow]
        simp only [List.exists_mem_cons_iff, or_assoc, eq_comm (a := v)]
  exact (fold _ _ _).2 (.inr ⟨e, he, rfl⟩)

/-- The decisions of a frame say what each carried window draws on. -/
theorem State.find_draws (s : State) (l : List (Fin 16)) {w : Fin 16} (hw : w ∈ l) :
    (l.map s.drawFor).find? (fun c => c.window == w) = some (s.drawFor w) := by
  induction l with
  | nil => cases hw
  | cons v vs ih =>
    rw [List.map_cons, List.find?_cons]
    by_cases e : v = w
    · subst e; simp [State.drawFor_window]
    · have : ((s.drawFor v).window == w) = false := by simp [State.drawFor_window, e]
      rw [this]
      exact ih ((List.mem_cons.1 hw).resolve_left fun h => e h.symm)

/-- The addresses of an entry's plan words are those the table of R133 gives. -/
theorem State.neededWords_eq (s : State) (e : Nat) (d : Draw) :
    (List.range ((s.entry e).kind.words d)).map
        (fun j => (s.win (s.entry e).window).drawAdr d ((s.entry e).offset + j)) =
      s.neededWords e d := by
  unfold State.neededWords WindowRec.drawAdr WindowRec.payloadAdr WindowRec.neutralAdr
  cases hk : (s.entry e).kind <;> cases d <;>
    simp [hk, EntryKind.words, List.range_succ, Nat.mul_add, Nat.add_assoc]

section
variable (s : State) (x : Fin 6) (fly : Bool)

/-- The words a frame that starts now needs, in slot order (R112). -/
def State.framePlan (s : State) (x : Fin 6) : List PlanWord :=
  (s.slotOrder x).flatMap fun e => (s.neededWords e (s.drawFor (s.entry e).window).draw).map fun a =>
    ({ entry := e, adr := a } : PlanWord)

theorem State.heldFrame_plan :
    (s.heldFrame x fly).planOf x ((s.heldFrame x fly).out x) = s.framePlan x := by
  have f := s.heldFrame_frame x fly
  unfold State.planOf State.framePlan
  rw [State.slotOrder_congr (f .lanes (by decide)) (f .entries (by decide)), State.heldFrame_out]
  refine List.flatMap_congr fun e he => ?_
  unfold State.entryPlan OutLane.drawOf State.frameDraws
  dsimp only
  rw [State.entry_congr (f .entries (by decide)), State.win_congr (f .windows (by decide)),
    s.find_draws _ (s.window_carried he), ← State.neededWords_eq, List.map_map]
  rfl

/-- The lane as its frame has begun (R111, R114). -/
theorem State.begunFrame_out : (s.begunFrame x fly).out x =
    { s.out x with
      st := .sending, frameNo := (s.out x).frameNo + 1, frameTime := s.timeBase
      flags := { flywheel := fly, prevCut := (s.out x).cutMark, prevUnder := (s.out x).underMark }
      cutMark := false, underMark := false, begun := 1
      draws := s.frameDraws x, plan := s.framePlan x, asked := none
      fetch := [], crc := crcHalf 0xFFFF ((s.out x).frameNo + 1)
      line := some ((s.out x).frameNo + 1), tail := none } := by
  unfold State.begunFrame
  rw [State.out_modOut, if_pos rfl, State.heldFrame_plan, State.heldFrame_out]
  rfl

/-! ### The lane's next request (R113) -/

/-- R113 lets the lane ask for the next word of its plan. -/
def State.mayFetch (s : State) (x : Fin 6) : Prop :=
  (s.out x).st = .sending ∧ (s.out x).asked = none ∧ s.listed (.outLane x) = false ∧
    s.inProgress (.outLane x) = false ∧ (s.out x).fetch.length < Config.fetchPlaces

/-- The lane asks for the next word of its plan, or leaves it (R113). -/
theorem State.tryFetch_cases :
    (((s.out x).plan = [] ∨ ¬ s.mayFetch x) ∧ s.tryFetch x = s) ∨
    ∃ p ps, (s.out x).plan = p :: ps ∧ s.mayFetch x ∧ s.tryFetch x =
      (s.modOut x fun l => { l with plan := ps, asked := some p }).join
        (fetchOf x p (s.urgentFor (s.out x) p)) := by
  unfold State.tryFetch State.mayFetch
  dsimp only
  split
  · next h => exact .inl ⟨.inl h, rfl⟩
  · next p ps h =>
    split
    · next hc => exact .inr ⟨p, ps, h, hc, rfl⟩
    · next hc => exact .inl ⟨.inr hc, rfl⟩

theorem State.tryFetch_out :
    (s.tryFetch x).out x = { s.out x with
      plan := ((s.tryFetch x).out x).plan, asked := ((s.tryFetch x).out x).asked } ∧
    OtherOuts x s (s.tryFetch x) := by
  rcases s.tryFetch_cases x with ⟨_, e⟩ | ⟨p, ps, _, _, e⟩ <;> rw [e]
  · exact ⟨rfl, fun _ _ => rfl⟩
  · rw [State.out_congr (State.join_outs _ _), State.out_modOut, if_pos rfl]
    refine ⟨rfl, fun z hz => ?_⟩
    rw [State.out_congr (State.join_outs _ _), State.out_modOut, if_neg hz]

theorem State.tryFetch_onlyRequestsOf : OnlyRequestsOf (.outLane x) s (s.tryFetch x) := by
  rcases s.tryFetch_cases x with ⟨_, e⟩ | ⟨p, ps, _, _, e⟩ <;> rw [e]
  · exact .refl _ _
  · exact (OnlyRequestsOf.of_eq (t := s.modOut x _) rfl rfl).trans (State.join_onlyRequestsOf _ (.inl rfl))

theorem State.listed_eq_false (q : Requester) : s.listed q = false ↔ q ∉ s.requests.map Request.who := by
  unfold State.listed
  rw [List.any_eq_false]
  simp

/-- The lane record a frame start leaves; the plan and the word asked for are given by `FetchPlanned`. -/
theorem State.frameStart_out : (s.frameStart x fly).out x =
    { s.out x with
      st := .sending, frameNo := (s.out x).frameNo + 1, frameTime := s.timeBase
      flags := { flywheel := fly, prevCut := (s.out x).cutMark, prevUnder := (s.out x).underMark }
      cutMark := false, underMark := false, begun := 1
      draws := s.frameDraws x, plan := ((s.frameStart x fly).out x).plan
      asked := ((s.frameStart x fly).out x).asked
      fetch := [], crc := crcHalf 0xFFFF ((s.out x).frameNo + 1)
      line := some ((s.out x).frameNo + 1), tail := none } := by
  rw [State.frameStart_eq]
  conv => lhs; rw [((s.begunFrame x fly).tryFetch_out x).1, State.begunFrame_out]

theorem State.frameStart_others : OtherOuts x s (s.frameStart x fly) := fun z hz => by
  rw [State.frameStart_eq, ((s.begunFrame x fly).tryFetch_out x).2 z hz]
  unfold State.begunFrame
  rw [State.out_modOut, if_neg hz, State.heldFrame_others s x fly z hz]

theorem State.frameStart_onlyRequestsOf : OnlyRequestsOf (.outLane x) s (s.frameStart x fly) := by
  have f := s.begunFrame_frame x fly
  exact (OnlyRequestsOf.of_eq (f .requests (by decide)) (f .port (by decide))).trans
    ((s.begunFrame x fly).tryFetch_onlyRequestsOf x)

/-- The first word of the plan is requested, and turns urgent later (R78, R112, R113). -/
theorem State.frameStart_asks (hl : s.listed (.outLane x) = false) :
    (s.framePlan x = [] ∧ ((s.frameStart x fly).out x).asked = none ∧
      ((s.frameStart x fly).out x).plan = []) ∨
    ∃ p ps, s.framePlan x = p :: ps ∧
      (s.inProgress (.outLane x) = true ∧ ((s.frameStart x fly).out x).asked = none ∧
          ((s.frameStart x fly).out x).plan = p :: ps ∨
        s.inProgress (.outLane x) = false ∧ ((s.frameStart x fly).out x).asked = some p ∧
          ((s.frameStart x fly).out x).plan = ps ∧
          (s.frameStart x fly).requests = s.requests ++ [fetchOf x p false]) := by
  have f := s.begunFrame_frame x fly
  have ho := s.begunFrame_out x fly
  have hl' : (s.begunFrame x fly).listed (.outLane x) = s.listed (.outLane x) := by
    unfold State.listed; rw [f .requests (by decide)]
  have hp' : (s.begunFrame x fly).inProgress (.outLane x) = s.inProgress (.outLane x) := by
    unfold State.inProgress; rw [f .port (by decide)]
  have hplan : ((s.begunFrame x fly).out x).plan = s.framePlan x := by rw [ho]
  have hasked : ((s.begunFrame x fly).out x).asked = none := by rw [ho]
  have hmay : (s.begunFrame x fly).mayFetch x ↔ s.inProgress (.outLane x) = false := by
    unfold State.mayFetch
    rw [hl', hp', hl, ho]
    simp [Config.fetchPlaces]
  rw [State.frameStart_eq]
  rcases (s.begunFrame x fly).tryFetch_cases x with ⟨h, e⟩ | ⟨p, ps, hc, hm, e⟩ <;> rw [e]
  · rcases hs : s.framePlan x with _ | ⟨p, ps⟩
    · exact .inl ⟨rfl, hasked, hplan.trans hs⟩
    · have hb : s.inProgress (.outLane x) = true := by
        rw [hplan, hs, hmay] at h
        simpa using h
      exact .inr ⟨p, ps, rfl, .inl ⟨hb, hasked, hplan.trans hs⟩⟩
  · refine .inr ⟨p, ps, hplan ▸ hc, .inr ⟨hmay.1 hm, ?_, ?_, ?_⟩⟩
    · rw [State.out_congr (State.join_outs _ _), State.out_modOut, if_pos rfl]
    · rw [State.out_congr (State.join_outs _ _), State.out_modOut, if_pos rfl]
    · have hu : (s.begunFrame x fly).urgentFor ((s.begunFrame x fly).out x) p = false := by
        rw [ho]
        simp [State.urgentFor]
      rw [State.join_requests, hu, State.modOut_requests, f .requests (by decide)]

end

theorem State.follows_arrivals {s : State} {r : Request} (h : r ∈ s.requests) : Follows s.arrivals r := by
  rcases s.arrivals_cases with ⟨e, _⟩ | ⟨q, qs, _, _, e⟩
  · rw [e]; exact .inl h
  · rw [e]
    by_cases hq : r = q
    · subst hq; exact .inr rfl
    · exact .inl ((List.mem_erase_of_ne hq).2 h)

/-- A frame start plans its fetches and requests the first, seen from any earlier state of the event with
the same draws (R112, R113). -/
theorem State.frameStart_planned {s u t : State} {x : Fin 6} {fly : Bool}
    (hl : u.listed (.outLane x) = false) (hp : u.inProgress (.outLane x) = s.inProgress (.outLane x))
    (hplan : u.framePlan x = s.framePlan x) (ho : t.out x = (u.frameStart x fly).out x)
    (hr : ∀ r ∈ (u.frameStart x fly).requests, Follows t r) : FetchPlanned x s t := by
  unfold FetchPlanned
  rcases u.frameStart_asks x fly hl with ⟨hn, ha, hps⟩ | ⟨p, ps, hc, h⟩
  · have e : s.framePlan x = [] := hplan ▸ hn
    unfold State.framePlan at e
    rw [e, ho]
    exact ⟨ha, hps⟩
  · have e : s.framePlan x = p :: ps := hplan ▸ hc
    unfold State.framePlan at e
    rw [e, ho]
    dsimp only
    rcases h with ⟨hb, ha, hps⟩ | ⟨hb, ha, hps, hreq⟩ <;> rw [hp] at hb
    · rw [if_pos hb]
      exact ⟨ha, hps⟩
    · rw [if_neg (by rw [hb]; nofun)]
      exact ⟨ha, hps, hr _ (by rw [hreq]; exact List.mem_append_right _ (List.mem_singleton_self _))⟩

end Sys2Proof.Machine

/-! SUPPORT. A host window in RUN always has a FILLING buffer, and its job's target is COMMITTING (R32, R35):
every operation keeps the law, and so no step ends in a fault. -/

namespace Sys2Proof.Machine

/-! ### Pools -/

/-- The pool has a FILLING buffer, and the target of its job is COMMITTING. -/
def Pool.fills (p : Pool) : Prop :=
  (∃ k : Fin 8, p.bufs[k].st = .filling) ∧ ∀ j, p.job = some j → p.bufs[j.target].st = .committing

/-- From `p` to `q` every FILLING and every COMMITTING buffer stays so, and a job of `q` has the target and
the source of that of `p`. -/
def Pool.steady (p q : Pool) : Prop :=
  (∀ k : Fin 8, p.bufs[k].st = .filling → q.bufs[k].st = .filling) ∧
  (∀ k : Fin 8, p.bufs[k].st = .committing → q.bufs[k].st = .committing) ∧
  ∀ j, q.job = some j → ∃ i, p.job = some i ∧ i.target = j.target ∧ i.source = j.source

theorem Pool.fills_of_steady {p q : Pool} (h : p.fills) (st : p.steady q) : q.fills := by
  obtain ⟨⟨k, hk⟩, job⟩ := h
  obtain ⟨filling, committing, same⟩ := st
  refine ⟨⟨k, filling k hk⟩, fun j hj => ?_⟩
  obtain ⟨i, hi, e, _⟩ := same j hj
  exact committing _ (e ▸ job i hi)

/-- A change that keeps every FILLING and COMMITTING buffer and the job. -/
theorem Pool.steady_of_st {p q : Pool} (hj : q.job = p.job)
    (h : ∀ k : Fin 8, p.bufs[k].st = .filling ∨ p.bufs[k].st = .committing → q.bufs[k].st = p.bufs[k].st) :
    p.steady q :=
  ⟨fun k hk => (h k (.inl hk)).trans hk, fun k hk => (h k (.inr hk)).trans hk,
    fun j e => ⟨j, hj ▸ e, rfl, rfl⟩⟩

theorem Pool.steady_of_bufs {p q : Pool} (hj : q.job = p.job) (hb : q.bufs = p.bufs) : p.steady q :=
  Pool.steady_of_st hj fun _ _ => by rw [hb]

theorem Pool.steady_modBuf (p : Pool) (k : Fin 8) (f : Buffer → Buffer) (hf : ∀ b, (f b).st = b.st) :
    p.steady (p.modBuf k f) := Pool.steady_of_st rfl fun j _ => by
  rw [Pool.bufs_modBuf]
  split
  · next e => subst e; exact hf _
  · rfl

theorem Pool.steady_release (p : Pool) (h : Holder) : p.steady (p.release h) :=
  Pool.steady_of_st rfl fun k hk => by
    unfold Pool.release
    rw [Pool.bufs_mapBufs]
    rcases Buffer.release_st h p.bufs[k] with e | ⟨e, _⟩
    · exact e
    · rw [e] at hk; rcases hk with hk | hk <;> cases hk

theorem Pool.steady_trans {p q r : Pool} (h : p.steady q) (h' : q.steady r) : p.steady r := by
  refine ⟨fun k hk => h'.1 k (h.1 k hk), fun k hk => h'.2.1 k (h.2.1 k hk), fun j hj => ?_⟩
  obtain ⟨i, hi, et, es⟩ := h'.2.2 j hj
  obtain ⟨m, hm, et', es'⟩ := h.2.2 i hi
  exact ⟨m, hm, et'.trans et, es'.trans es⟩

theorem Pool.steady_moveView (p : Pool) : p.steady p.moveView := by
  unfold Pool.moveView
  split
  · exact Pool.steady_trans (p.steady_release _) (Pool.steady_modBuf _ _ _ fun _ => rfl)
  · exact p.steady_release _

/-- A commit leaves the state of every other buffer that is neither READY nor RETIRED (R21). -/
theorem Pool.commit_st {p : Pool} {j k : Fin 8} {c : BufState} (hj : p.bufs[j].st = c) (hr : c ≠ .ready)
    (ht : c ≠ .retired) (hne : j ≠ k) (seq : Half) (time : Word) (source : Option (Fin 8)) :
    (p.commit k seq time source).bufs[j].st = c := by
  have hf : p.find .ready ≠ some j := fun e => hr (hj.symm.trans (Pool.find_some e))
  rw [(Pool.commit_bufs p k seq time source).2 j hne, if_neg hf]
  change Buffer.st (if source = some j then _ else _) = c
  split
  · rcases Buffer.release_st .copySource p.bufs[j] with e | ⟨e, _⟩
    · exact e.trans hj
    · exact absurd (hj.symm.trans e) ht
  · exact hj

theorem Pool.commit_job (p : Pool) (k : Fin 8) (seq : Half) (time : Word) (source : Option (Fin 8)) :
    (p.commit k seq time source).job = p.job := by
  unfold Pool.commit
  cases source <;> cases p.find .ready <;> dsimp only <;> try split
  all_goals rfl

/-- A commit with no job left leaves a FILLING buffer, if there is one beside the committed buffer. -/
theorem Pool.fills_commit {p : Pool} {k f : Fin 8} (hf : p.bufs[f].st = .filling) (hne : f ≠ k)
    (hj : p.job = none) (seq : Half) (time : Word) (source : Option (Fin 8)) :
    (p.commit k seq time source).fills := by
  refine ⟨⟨f, Pool.commit_st hf nofun nofun hne _ _ _⟩, fun j e => ?_⟩
  rw [Pool.commit_job, hj] at e
  cases e

/-! ### State -/

/-- What a commit leaves of each pool: that of the window committed, with its staleness record, and the
others as they are (R40, R90). -/
theorem State.commit_pool (s : State) (w v : Fin 16) (k : Fin 8) (seq : Half) (time : Word)
    (source : Option (Fin 8)) (copied : Nat) :
    (s.commit w k seq time source copied).pool v =
      if v = w then
        { (s.pool w).commit k seq time source with
          timer := ((s.commit w k seq time source copied).pool w).timer
          ownMark := ((s.commit w k seq time source copied).pool w).ownMark
          committed := ((s.commit w k seq time source copied).pool w).committed }
      else s.pool v := by
  simp only [State.pool_congr (State.commit_pools s w k seq time source copied)]
  unfold State.noticeRecord
  simp only [State.pool_modPool, if_true]
  split <;> rfl

section
variable {s t : State}

theorem fillingLaw_iff (s : State) : FillingLaw s ↔
    (s.dev = .run → ∀ w : Fin 16, (s.win w).isHost = true → (s.pool w).fills) := Iff.rfl

/-- What keeps the FILLING buffers of the host windows, window by window. -/
theorem FillingLaw.of_pools (h : FillingLaw s) (hd : t.dev = s.dev) (hw : t.windows = s.windows)
    (hp : ∀ w, s.dev = .run → (s.win w).isHost = true → (s.pool w).fills → (t.pool w).fills) :
    FillingLaw t := (fillingLaw_iff t).2 fun hr w hh => by
  rw [State.win_congr hw] at hh
  exact hp w (hd ▸ hr) hh (h (hd ▸ hr) w hh)

theorem FillingLaw.of_steady (h : FillingLaw s) (hd : t.dev = s.dev) (hw : t.windows = s.windows)
    (hp : ∀ w, (s.pool w).steady (t.pool w)) : FillingLaw t :=
  h.of_pools hd hw fun w _ _ hf => Pool.fills_of_steady hf (hp w)

theorem FillingLaw.of_eq (h : FillingLaw s) (hd : t.dev = s.dev) (hw : t.windows = s.windows)
    (hp : t.pools = s.pools) : FillingLaw t :=
  h.of_steady hd hw fun w => by rw [State.pool_congr hp]; exact Pool.steady_of_bufs rfl rfl

/-- Outside RUN the law asks for nothing. -/
theorem FillingLaw.of_not_run (hd : t.dev ≠ .run) : FillingLaw t := fun hr => absurd hr hd

theorem FillingLaw.inert (h : FillingLaw s) (f : ChangesOnly inertItems s t) : FillingLaw t :=
  h.of_eq (f .dev (by decide)) (f .windows (by decide)) (f .pools (by decide))

theorem FillingLaw.raise (h : FillingLaw s) (k : Kind) (source : Option Nat) (d1 d2 : Word) :
    FillingLaw (s.raise k source d1 d2) := h.inert ((raise_frame s _ _ _ _).mono (by decide))

/-- A change of one pool. -/
theorem FillingLaw.modPool (h : FillingLaw s) (w : Fin 16) (f : Pool → Pool)
    (hf : s.dev = .run → (s.win w).isHost = true → (s.pool w).fills → (f (s.pool w)).fills) :
    FillingLaw (s.modPool w f) := h.of_pools rfl rfl fun v hr hh hp => by
  rw [State.pool_modPool]
  split
  · next e => subst e; exact hf hr hh hp
  · exact hp

theorem FillingLaw.modSteady (h : FillingLaw s) (w : Fin 16) (f : Pool → Pool)
    (hf : (s.pool w).steady (f (s.pool w))) : FillingLaw (s.modPool w f) :=
  h.modPool w f fun _ _ hp => Pool.fills_of_steady hp hf

/-- A commit, when the window has a FILLING buffer beside the committed one and no job. -/
theorem FillingLaw.commit (h : ∀ v, v ≠ w → s.dev = .run → (s.win v).isHost = true → (s.pool v).fills)
    {k : Fin 8}
    (hc : s.dev = .run → (s.win w).isHost = true →
      (∃ f : Fin 8, f ≠ k ∧ (s.pool w).bufs[f].st = .filling) ∧ (s.pool w).job = none)
    (seq : Half) (time : Word) (source : Option (Fin 8)) (copied : Nat) :
    FillingLaw (s.commit w k seq time source copied) := (fillingLaw_iff _).2 fun hr v hh => by
  have f := commit_frame s w k seq time source copied
  rw [f .dev (by decide)] at hr
  rw [State.win_congr (f .windows (by decide))] at hh
  rw [State.commit_pool]
  split
  · next e =>
    subst e
    obtain ⟨⟨f, hne, hf⟩, hj⟩ := hc hr hh
    exact Pool.fills_of_steady (Pool.fills_commit hf hne hj seq time source) (Pool.steady_of_bufs rfl rfl)
  · next e => exact h v e hr hh

/-- A job goes on, or ends with its commit (R36, R38). -/
theorem FillingLaw.seek (h : FillingLaw s) (w : Fin 16) (j : CopyJob)
    (hj : s.dev = .run → (s.win w).isHost = true → (s.pool w).bufs[j.target].st = .committing) :
    FillingLaw (s.seek w j) := by
  unfold State.seek
  split
  · refine FillingLaw.inert (h.modPool w _ fun hr hh hp => ⟨hp.1, fun i e => ?_⟩)
      ((join_frame _ _).mono (by decide))
    cases e
    exact hj hr hh
  · refine FillingLaw.commit (fun v hv hr hh => ?_) (fun hr hh => ?_) _ _ _ _
    · rw [State.pool_modPool, if_neg hv]; exact h hr v hh
    · obtain ⟨⟨f, hf⟩, _⟩ := h hr w hh
      rw [State.pool_modPool, if_pos rfl]
      refine ⟨⟨f, fun e => ?_, hf⟩, rfl⟩
      rw [e, hj hr hh] at hf
      cases hf

theorem FillingLaw.copyRead (h : FillingLaw s) (w : Fin 16) (v : Word) : FillingLaw (s.copyRead w v) := by
  unfold State.copyRead
  split
  · exact h
  · next j hj =>
    refine FillingLaw.inert (h.modPool w _ fun hr hh hp => ⟨hp.1, fun i e => ?_⟩)
      ((join_frame _ _).mono (by decide))
    cases e
    exact hp.2 j hj

theorem FillingLaw.mark (h : FillingLaw s) (w : Fin 16) (k : Fin 8) (i : Nat) (e : Enables) :
    FillingLaw (s.modPool w fun p => p.modBuf k (Buffer.mark i e)) :=
  h.modSteady w _ (Pool.steady_modBuf _ _ _ fun _ => rfl)

theorem FillingLaw.copyWrite (h : FillingLaw s) (w : Fin 16) (be : Enables) :
    FillingLaw (s.copyWrite w be) := by
  unfold State.copyWrite
  split
  · exact h
  · next j hj =>
    refine FillingLaw.seek (h.mark w _ _ _) w _ fun hr hh => ?_
    rw [State.pool_modPool, if_pos rfl, Pool.bufs_modBuf, if_pos rfl]
    exact (h hr w hh).2 j hj

theorem FillingLaw.decideClose (h : FillingLaw s) (w : Fin 16) (x : HostWrite) :
    FillingLaw (s.decideClose w x) := by
  rcases s.decideClose_cases w x with e | ⟨o, _, _, e⟩ | ⟨k0, k1, ho, hk0, hk1, e⟩ <;> rw [e]
  · exact h
  · exact FillingLaw.raise (h.modSteady w _ (Pool.steady_of_bufs rfl rfl)) _ _ _ _
  · obtain ⟨_, _, hc⟩ := State.accepted_facts ho
    have h0 := Pool.find_some hk0
    have h1 := (State.freeBuffer_some hk1).2
    have hne : k1 ≠ k0 := (Pool.closed_ne_allocated h0 h1).symm
    have noJob : s.dev = .run → (s.win w).isHost = true → (s.pool w).job = none := fun hr hh => by
      rcases hj : (s.pool w).job with _ | j
      · rfl
      · exact absurd ((h hr w hh).2 j hj) (hc _)
    split
    · refine FillingLaw.commit (fun v hv hr hh => ?_) (fun hr hh => ?_) _ _ _ _
      · rw [State.acceptClose_eq, State.pool_modPool, if_neg hv]; exact h hr v hh
      · rw [State.acceptClose_eq, State.pool_modPool, if_pos rfl]
        refine ⟨⟨k1, hne, ?_⟩, noJob hr hh⟩
        rw [Pool.accept_bufs h0 h1, if_pos rfl]
        rfl
    · rw [State.startJob_accepted h0 h1]
      refine FillingLaw.seek (h.modPool w _ fun hr hh _ => ⟨⟨k1, ?_⟩, fun j hj => ?_⟩) w _ fun _ _ => ?_
      · rw [Pool.handOver_bufs h0 h1, if_pos rfl]; rfl
      · have job : ((s.pool w).handOver k0 k1 (closeSeq x) s.timeBase).job = (s.pool w).job := by
          unfold Pool.handOver
          split <;> rfl
        rw [job, noJob hr hh] at hj
        cases hj
      · rw [State.pool_modPool, if_pos rfl, Pool.handOver_bufs h0 h1, if_neg hne.symm, if_pos rfl]

/-! ### Inbound windows are no host windows -/

theorem State.inWindow_some {y : Fin 2} {w : Fin 16} (h : s.inWindow y = some w) :
    (s.win w).enabled = true ∧ (s.win w).inLane = some y := by
  have e := List.find?_some h
  simpa using e

theorem State.inWindow_not_host {y : Fin 2} {w : Fin 16} (h : s.inWindow y = some w) :
    (s.win w).writer ≠ .host := fun e => by
  have hl := (State.inWindow_some h).2
  unfold WindowRec.inLane at hl
  rw [e] at hl
  cases hl

theorem WindowRec.isHost_iff (r : WindowRec) : r.isHost = true ↔ r.enabled = true ∧ r.writer = .host := by
  unfold WindowRec.isHost
  simp

/-- What happens to an inbound window leaves the law. -/
theorem FillingLaw.modInbound (h : FillingLaw s) {y : Fin 2} {w : Fin 16} (hw : s.inWindow y = some w)
    (f : Pool → Pool) : FillingLaw (s.modPool w f) :=
  h.modPool w f fun _ hh _ => absurd ((s.win w).isHost_iff.1 hh).2 (State.inWindow_not_host hw)

theorem FillingLaw.modIn (h : FillingLaw s) (y : Fin 2) (f : InLane → InLane) : FillingLaw (s.modIn y f) := h

theorem fillingLaw_keptByFrames : KeptByFrames FillingLaw where
  asks h f := h.inert (f.mono (by decide))
  raise h _ _ _ _ := h.raise _ _ _ _
  lane _ _ h _ := h
  allocate h hw _ _ := (h.modInbound hw _).modIn _ _
  discard h hw _ _ := (h.modInbound hw _).modIn _ _
  commit {s} y w k f fs h hw _ _ := by
    have hn := State.inWindow_not_host hw
    refine FillingLaw.commit (fun v hv hr hh => ?_) (fun _ hh => ?_) _ _ _ _
    · rw [State.pool_modPool, if_neg hv]; exact h hr v hh
    · exact absurd ((s.win w).isHost_iff.1 hh).2 hn
  mark _ _ h hw _ _ := h.modInbound hw _

/-! ### Lanes -/

theorem HoldsTaken.steady {x : Fin 6} {s t : State} (h : HoldsTaken x id s t) (w : Fin 16) :
    (s.pool w).steady (t.pool w) := by
  obtain ⟨only, bufs⟩ := h w
  refine Pool.steady_of_st (by rw [only]) fun k _ => ?_
  rw [bufs k]
  split <;> rfl

theorem FillingLaw.frameStart (h : FillingLaw s) (x : Fin 6) (fly : Bool) :
    FillingLaw (s.frameStart x fly) :=
  h.of_steady (frameStart_frame s x fly .dev (by decide)) (frameStart_frame s x fly .windows (by decide))
    fun w => (s.frameStart_holds x fly).steady w

theorem FillingLaw.releaseLane (h : FillingLaw s) (x : Fin 6) : FillingLaw (s.releaseLane x) :=
  h.of_steady (releaseLane_frame s x .dev (by decide)) (releaseLane_frame s x .windows (by decide))
    fun w => by unfold State.releaseLane; rw [State.pool_mapPools]; exact Pool.steady_release _ _

theorem FillingLaw.modOut (h : FillingLaw s) (x : Fin 6) (f : OutLane → OutLane) :
    FillingLaw (s.modOut x f) := h

theorem FillingLaw.cutFrame (h : FillingLaw s) (x : Fin 6) : FillingLaw (s.cutFrame x) := by
  unfold State.cutFrame
  exact (((h.inert ((withdraw_frame s _).mono (by decide))).releaseLane x).modOut x _).raise _ _ _ _

theorem FillingLaw.edgeStart (h : FillingLaw s) (x : Fin 6) : FillingLaw (s.edgeStart x) :=
  (h.modOut x _).frameStart x false

theorem FillingLaw.pulseCheck (h : FillingLaw s) (x : Fin 6) : FillingLaw (s.pulseCheck x) := by
  have f := pulseCheck_frame s x
  exact h.of_eq (f .dev (by decide)) (f .windows (by decide)) (f .pools (by decide))

theorem FillingLaw.activeEdge (h : FillingLaw s) (x : Fin 6) : FillingLaw (s.activeEdge x) := by
  unfold State.activeEdge
  split
  · exact h
  · split
    · exact (h.modOut x _).edgeStart x
    · exact h
  · exact ((h.pulseCheck x).modOut x _).edgeStart x
  · split
    · exact ((h.pulseCheck x).cutFrame x).edgeStart x
    · exact h

theorem FillingLaw.flywheel (h : FillingLaw s) (x : Fin 6) : FillingLaw (s.flywheel x) := by
  unfold State.flywheel
  dsimp only
  split
  · exact ((h.modOut x _).frameStart x true).raise _ _ _ _
  · exact (h.modOut x _).frameStart x true

/-! ### Run control -/

theorem FillingLaw.stop (h : FillingLaw s) : FillingLaw s.stop := by
  rcases s.stop_cases with ⟨_, e⟩ | ⟨_, e⟩ | ⟨_, e⟩ <;> rw [e]
  · rcases State.stopRun_cases { s with outcome := .done } with ⟨_, e⟩ | ⟨_, e⟩ <;> rw [e] <;>
      refine FillingLaw.of_not_run ?_
    · rw [State.setupEntry_dev]; nofun
    · rw [State.stopBlocks_dev]; nofun
  · refine FillingLaw.of_not_run ?_
    unfold State.stopLoad
    rw [raiseStopped_frame _ _ _ .dev (by decide)]
    nofun
  · exact h

theorem FillingLaw.frameEnd (h : FillingLaw s) (x : Fin 6) : FillingLaw (s.frameEnd x) := by
  rcases s.frameEnd_cases x with ⟨_, e⟩ | ⟨hd, e⟩ <;> rw [e]
  · exact (h.releaseLane x).modOut x _
  · have f : ChangesOnly [.pools, .outs] s
        ((s.releaseLane x).modOut x fun l => { l.closeFrame with st := .idle }) :=
      (releaseLane_frame s x).andThen (modOut_frame _ _ _)
    refine FillingLaw.of_not_run ?_
    rcases State.laneIdle_cases ((s.releaseLane x).modOut x fun l => { l.closeFrame with st := .idle }) x
      with ⟨_, e⟩ | ⟨_, e⟩ <;> rw [e]
    · rw [State.setupEntry_dev]; nofun
    · change ((s.releaseLane x).modOut x fun l => { l.closeFrame with st := .idle }).dev ≠ .run
      rw [f .dev (by decide), hd]; nofun

/-- At RUN entry B0 of each host window is FILLING, and there is no job (R24, R41). -/
theorem Pool.fills_start (p : Pool) {r : WindowRec} (hr : r.isHost = true) (deadline : Word) :
    (p.start r deadline).fills := by
  refine ⟨⟨0, ?_⟩, fun j hj => ?_⟩
  · rw [Pool.start_bufs, if_pos ⟨hr, rfl⟩]; rfl
  · rw [Pool.start_job] at hj; cases hj

theorem FillingLaw.loadWord (h : FillingLaw s) (v : Word) : FillingLaw (s.loadWord v) := by
  rcases s.loadWord_cases v with ⟨_, e⟩ | ⟨j, _, ⟨j', n, e⟩ | ⟨e', e⟩ | ⟨im, e⟩⟩ <;> rw [e]
  · exact h
  · exact h
  · refine FillingLaw.of_not_run ?_
    unfold State.loadFailed
    rw [raise_frame _ _ _ _ _ .dev (by decide)]
    nofun
  · refine runEntry_keeps (fun h f => h.inert f) (fun x h _ => FillingLaw.frameStart (h.modOut x _) x false)
      ((fillingLaw_iff _).2 fun _ w hh => ?_)
    obtain ⟨d, e⟩ := s.entered_pool im w
    rw [e]
    exact Pool.fills_start _ hh _

theorem FillingLaw.start (h : FillingLaw s) : FillingLaw s.start := by
  unfold State.start
  split
  · exact FillingLaw.of_not_run nofun
  · exact h

/-- Every operation keeps the law (R32, R35). -/
theorem fillingLaw_kept : KeptByEvents FillingLaw where
  inert h f := h.inert f
  setSu _ h _ := h
  mark r be h _ := by
    have hm := h.mark r.w r.k r.i be
    exact hm
  close w x h _ _ := h.decideClose w x
  start h := h.start
  stop h _ := h.stop
  view w h := h.modSteady w _ (Pool.steady_moveView _)
  expire w h := FillingLaw.raise (h.modSteady w _ (Pool.steady_of_bufs rfl rfl)) _ _ _ _
  slots h f _ := h.of_eq (f .dev (by decide)) (f .windows (by decide)) (f .pools (by decide))
  copyRead w v h := h.copyRead w v
  copyWrite w be h := h.copyWrite w be
  loadWord v h := h.loadWord v
  masterStart x h _ := FillingLaw.frameStart (h.modOut x _) x false
  activeEdge x h := h.activeEdge x
  flywheel x h _ := h.flywheel x
  frameEnd x h _ := h.frameEnd x
  inEdge y h := fillingLaw_keptByFrames.inActiveEdge h y
  inH0 y v h := fillingLaw_keptByFrames.inH0 h y v
  inH1 y v h := fillingLaw_keptByFrames.inH1 h y v
  inData y v h := fillingLaw_keptByFrames.inData h y v
  inCrc y v h := fillingLaw_keptByFrames.inCrc h y v
  halfWritten y h := fillingLaw_keptByFrames.halfWritten h y
  pinReset _ := FillingLaw.of_not_run nofun

end

/-! ### No step ends in a fault -/

/-- A performance always answers a next state. -/
theorem State.performance_next (s : State) (about : Request → Bool) (react drop : Request → State → State) :
    ∃ t, s.performance about react drop = .next t := by
  rcases s.performance_cases about react drop with e | ⟨_, _, _, _, e⟩ <;> exact ⟨_, e⟩

/-- Only a steered write without a FILLING buffer stops with a fault (log 14). -/
theorem exec_next (c : Instr) (s : State) (h : FillingLaw s) : ∃ t, exec c s = .next t := by
  have ite : ∀ {b : Bool} {u v : State}, ∃ t, (if b = true then (.next u : Out) else .next v) = .next t :=
    fun {b u v} => by cases b <;> exact ⟨_, rfl⟩
  cases c with
  | payloadWriteSteered =>
    rcases execPayloadWriteSteered_cases s with e | ⟨x, w, i, _, ht, ⟨j, _, e⟩ | ⟨hn, _⟩⟩
    · exact ⟨_, e⟩
    · exact ⟨_, e⟩
    · obtain ⟨hr, hen, hhost, _⟩ := State.steered_facts ht
      obtain ⟨⟨k, hk⟩, _⟩ := h hr w ((s.win w).isHost_iff.2 ⟨hen, hhost⟩)
      exact absurd hk (Pool.find_none.1 hn k)
  | passThroughWrite => rcases execPassThroughWrite_cases s with e | ⟨_, _, _, e⟩ <;> exact ⟨_, e⟩
  | refusedWrite => rcases execRefusedWrite_cases s with e | ⟨_, _, _, _, _, e⟩ <;> exact ⟨_, e⟩
  | closeRequest => rcases execCloseRequest_cases s with e | ⟨_, _, _, _, e⟩ <;> exact ⟨_, e⟩
  | start => rcases execStart_cases s with e | ⟨_, _, _, e⟩ <;> exact ⟨_, e⟩
  | stop => rcases execStop_cases s with e | ⟨_, _, _, e⟩ <;> exact ⟨_, e⟩
  | unknownRequest | acknowledge | controlWriteDropped =>
    simp only [Machine.exec, execUnknownRequest, execAcknowledge, execControlWriteDropped]
    repeat' split
    all_goals exact ⟨_, rfl⟩
  | hostReadTaken =>
    rcases execHostReadTaken_cases s with e | ⟨_, _, _, ⟨_, _, e⟩ | ⟨_, _, _, e⟩⟩ <;> exact ⟨_, e⟩
  | headWordReadViewMove =>
    rcases execHeadWordReadViewMove_cases s with e | ⟨_, _, _, _, _, e⟩ <;> exact ⟨_, e⟩
  | hostAccessPerformed => exact show ∃ t, execHostAccessPerformed s = .next t from s.performance_next _ _ _
  | laneFetchPerformed => exact show ∃ t, execLaneFetchPerformed s = .next t from s.performance_next _ _ _
  | inboundWritePerformed => exact show ∃ t, execInboundWritePerformed s = .next t from s.performance_next _ _ _
  | copyReadPerformed => exact show ∃ t, execCopyReadPerformed s = .next t from s.performance_next _ _ _
  | copyWritePerformed => exact show ∃ t, execCopyWritePerformed s = .next t from s.performance_next _ _ _
  | loadReadPerformed => exact show ∃ t, execLoadReadPerformed s = .next t from s.performance_next _ _ _
  | journalWordPerformed => exact show ∃ t, execJournalWordPerformed s = .next t from s.performance_next _ _ _
  | _ => exact ite

/-- Settles O58: the law is kept by every operation, and it rules the one fault out. -/
theorem hostWindowsAlwaysHaveAFillingBuffer : Obligations.HostWindowsAlwaysHaveAFillingBuffer := by
  intro s h
  refine ⟨?_, fun t e => fillingLaw_kept.step h e⟩
  unfold step
  split
  · exact ⟨_, rfl⟩
  · exact exec_next _ _ (h.of_eq rfl rfl rfl)

end Sys2Proof.Machine

/-! SUPPORT. One pool under the law of the run (R10, R11, R13, R14, R19, R35), and what every operation on a
pool does to it. -/

namespace Sys2Proof.Machine

/-- A pool under the law of the run, with `live` the lanes that are SENDING: the law of R11 and R14, each
holder kind on at most one buffer (R13), lane holders of live lanes (R107), a copy source held for its job
(R19), a job's target COMMITTING (R35), and no map outside FILLING and COMMITTING (R10). -/
structure Pool.Sound (live : Fin 6 → Prop) (p : Pool) : Prop where
  lawful : p.lawful
  one : ∀ (h : Holder) (j k : Fin 8), p.bufs[j].holders.has h = true → p.bufs[k].holders.has h = true → j = k
  lanes : ∀ (x : Fin 6) (k : Fin 8), p.bufs[k].holders.has (.lane x) = true → live x
  source : ∀ k : Fin 8, p.bufs[k].holders.has .copySource = true → ∃ j, p.job = some j ∧ j.source = some k
  target : ∀ j, p.job = some j → p.bufs[j.target].st = .committing
  maps : ∀ k : Fin 8, p.bufs[k].st ≠ .filling → p.bufs[k].st ≠ .committing → p.bufs[k].map = []

/-- A buffer that is neither READY nor RETIRED has no holder (R14). -/
theorem Pool.has_false {p : Pool} (h : p.lawful) {k : Fin 8} (hr : p.bufs[k].st ≠ .ready)
    (ht : p.bufs[k].st ≠ .retired) (g : Holder) : p.bufs[k].holders.has g = false := by
  have he : p.bufs[k].holders = HolderSet.empty := by
    by_contra hn
    rcases h.2.2.2.1 k hn with e | e
    · exact hr e
    · exact ht e
  rw [he, HolderSet.has_empty]

section
variable {live live' : Fin 6 → Prop} {p q : Pool}

theorem Pool.Sound.mono (h : p.Sound live) (hl : ∀ x, live x → live' x) : p.Sound live' :=
  { h with lanes := fun x k hk => hl x (h.lanes x k hk) }

/-- The law reads the buffers and the job's target and source. -/
theorem Pool.Sound.of_bufs (h : p.Sound live) (hb : q.bufs = p.bufs)
    (hj : ∀ j, q.job = some j → ∃ i, p.job = some i ∧ i.target = j.target ∧ i.source = j.source)
    (hj' : ∀ i, p.job = some i → ∃ j, q.job = some j ∧ j.source = i.source) : q.Sound live where
  lawful := Pool.lawful_of_bufs h.lawful hb
  one := by rw [hb]; exact h.one
  lanes := by rw [hb]; exact h.lanes
  source := fun k hk => by
    rw [hb] at hk
    obtain ⟨i, hi, es⟩ := h.source k hk
    obtain ⟨j, hj, e⟩ := hj' i hi
    exact ⟨j, hj, e.trans es⟩
  target := fun j e => by
    obtain ⟨i, hi, et, _⟩ := hj j e
    have at' : ∀ k : Fin 8, i.target = k → p.bufs[k].st = .committing := fun k e => by
      subst e; exact h.target i hi
    rw [hb]
    exact at' _ et
  maps := by rw [hb]; exact h.maps

theorem Pool.Sound.record (h : p.Sound live) (hb : q.bufs = p.bufs) (hj : q.job = p.job) : q.Sound live :=
  h.of_bufs hb (fun j e => ⟨j, hj ▸ e, rfl, rfl⟩) fun i e => ⟨i, hj.trans e, rfl⟩

/-- The job goes on with its target and its source. -/
theorem Pool.Sound.setJob (h : p.Sound live) {i j : CopyJob} (hi : p.job = some i) (hb : q.bufs = p.bufs)
    (hj : q.job = some j) (ht : i.target = j.target) (hs : i.source = j.source) : q.Sound live :=
  h.of_bufs hb (fun m e => ⟨i, hi, by rw [hj] at e; cases e; exact ⟨ht, hs⟩⟩)
    fun m e => ⟨j, hj, by rw [hi] at e; cases e; exact hs.symm⟩

/-- A change of the buffers that adds no holder, keeps COMMITTING and leaves the maps. -/
theorem Pool.Sound.of_fewer (h : p.Sound live) (lawful : q.lawful) (hj : q.job = p.job)
    (has : ∀ (g : Holder) (k : Fin 8), q.bufs[k].holders.has g = true → p.bufs[k].holders.has g = true)
    (st : ∀ k : Fin 8, p.bufs[k].st = .committing → q.bufs[k].st = .committing)
    (maps : ∀ k : Fin 8, q.bufs[k].st ≠ .filling → q.bufs[k].st ≠ .committing → q.bufs[k].map = []) :
    q.Sound live where
  lawful := lawful
  one := fun g j k a b => h.one g j k (has g j a) (has g k b)
  lanes := fun x k a => h.lanes x k (has _ k a)
  source := fun k a => by rw [hj]; exact h.source k (has _ k a)
  target := fun j e => by rw [hj] at e; exact st _ (h.target j e)
  maps := maps

/-! ### Marks, holds and releases -/

/-- Bytes are added to the map of a FILLING or COMMITTING buffer (R29). -/
theorem Pool.Sound.mark (h : p.Sound live) {k : Fin 8}
    (hk : p.bufs[k].st = .filling ∨ p.bufs[k].st = .committing) (i : Nat) (e : Enables) :
    (p.modBuf k (Buffer.mark i e)).Sound live := by
  have other : ∀ j : Fin 8, (p.modBuf k (Buffer.mark i e)).bufs[j].st = p.bufs[j].st ∧
      (p.modBuf k (Buffer.mark i e)).bufs[j].holders = p.bufs[j].holders := fun j => by
    rw [Pool.bufs_modBuf]
    split
    · next e => subst e; exact ⟨rfl, rfl⟩
    · exact ⟨rfl, rfl⟩
  refine h.of_fewer (Pool.lawful_mark h.lawful k i e) rfl (fun g j a => ?_) (fun j a => ?_) fun j hf hc => ?_
  · rw [(other j).2] at a; exact a
  · rw [(other j).1]; exact a
  · rw [(other j).1] at hf hc
    rw [Pool.bufs_modBuf]
    split
    · next e => subst e; rcases hk with hk | hk <;> contradiction
    · exact h.maps j hf hc

/-- A holder kind is released everywhere (R16). -/
theorem Pool.Sound.release (h : p.Sound live) (g : Holder) : (p.release g).Sound live := by
  have bufs : ∀ k : Fin 8, (p.release g).bufs[k] = (p.bufs[k]).release g := fun k =>
    Pool.bufs_mapBufs p k _
  refine h.of_fewer (Pool.lawful_release h.lawful g) rfl (fun g' k a => ?_)
    (p.steady_release g).2.1 fun k hf hc => ?_
  · rw [bufs, Buffer.release_has] at a
    simp only [Bool.and_eq_true] at a
    exact a.2
  · rw [bufs] at hf hc
    rw [bufs, Buffer.release_map]
    rcases Buffer.release_st g p.bufs[k] with e | ⟨e, _⟩
    · rw [e] at hf hc; exact h.maps k hf hc
    · exact h.maps k (by rw [e]; nofun) (by rw [e]; nofun)

theorem Pool.release_has (p : Pool) (g : Holder) (k : Fin 8) :
    (p.release g).bufs[k].holders.has g = false := by
  unfold Pool.release
  rw [Pool.bufs_mapBufs, Buffer.release_has]
  simp

/-- A lane's holds are released as it ceases to be SENDING (R16, R107). -/
theorem Pool.Sound.release_lane (h : p.Sound live) {x : Fin 6} (hl : ∀ z, z ≠ x → live z → live' z) :
    (p.release (.lane x)).Sound live' :=
  { h.release (.lane x) with
    lanes := fun z k a => by
      refine hl z (fun e => ?_) ((h.release (.lane x)).lanes z k a)
      rw [e, Pool.release_has] at a
      cases a }

/-- A holder kind that no buffer has is placed on READY buffers, at most one (R15, R17, R19). -/
theorem Pool.Sound.hold (h : p.Sound live) (g : Holder) (on : Fin 8 → Prop) [DecidablePred on]
    (none : ∀ k : Fin 8, p.bufs[k].holders.has g = false)
    (bufs : ∀ k : Fin 8, q.bufs[k] = if on k then p.bufs[k].hold g else p.bufs[k])
    (ready : ∀ k, on k → p.bufs[k].st = .ready) (hj : q.job = p.job)
    (hg : ∀ x, g = .lane x → live x) (hs : g = .copySource → ∀ k, on k → ∃ j, p.job = some j ∧ j.source = some k) :
    q.Sound live := by
  have lone := (Pool.lawful_iff p).1 h.lawful
  have st : ∀ k : Fin 8, q.bufs[k].st = p.bufs[k].st := fun k => by rw [bufs]; split <;> rfl
  have map : ∀ k : Fin 8, q.bufs[k].map = p.bufs[k].map := fun k => by rw [bufs]; split <;> rfl
  have has : ∀ (g' : Holder) (k : Fin 8), q.bufs[k].holders.has g' = true →
      p.bufs[k].holders.has g' = true ∨ g' = g ∧ on k := fun g' k a => by
    rw [bufs] at a
    split at a
    · next ho =>
      change (p.bufs[k].holders.put g true).has g' = true at a
      rw [HolderSet.has_put] at a
      split at a
      · next e => exact .inr ⟨e, ho⟩
      · exact .inl a
    · exact .inl a
  refine
    { lawful := Pool.lawful_of_all h.lawful (fun k => .inl (st k)) fun k => ?_
      one := fun g' j k a b => ?_
      lanes := fun x k a => ?_
      source := fun k a => ?_
      target := fun j e => by rw [hj] at e; rw [st]; exact h.target j e
      maps := fun k hf hc => by rw [st] at hf hc; rw [map]; exact h.maps k hf hc }
  · rw [bufs]
    split
    · next ho =>
      refine ⟨fun _ => .inl (ready k ho), fun e => ?_⟩
      rw [show (p.bufs[k].hold g).st = p.bufs[k].st from rfl, ready k ho] at e
      cases e
    · exact lone.2.2.2 k
  · rcases has g' j a with a' | ⟨e, hoj⟩ <;> rcases has g' k b with b' | ⟨e', hok⟩
    · exact h.one g' j k a' b'
    · rw [e', none] at a'; cases a'
    · rw [e, none] at b'; cases b'
    · exact lone.2.2.1 j k (ready j hoj) (ready k hok)
  · rcases has _ k a with a' | ⟨e, _⟩
    · exact h.lanes x k a'
    · exact hg x e.symm
  · rw [hj]
    rcases has _ k a with a' | ⟨e, ho⟩
    · exact h.source k a'
    · exact hs e.symm k ho

/-- The host view moves to the READY buffer (R17). -/
theorem Pool.Sound.moveView (h : p.Sound live) : p.moveView.Sound live := by
  have hr := h.release .view
  unfold Pool.moveView
  split
  · next k hk =>
    refine hr.hold .view (fun j => j = k) (fun j => p.release_has _ j) (fun j => ?_)
      (fun j (e : j = k) => by subst e; exact Pool.find_some hk) rfl (fun x e => by cases e) fun e => by cases e
    rw [Pool.bufs_modBuf]
    split
    · next e => rw [e]
    · rfl
  · exact hr

/-! ### Allocation, discards and commits -/

/-- One buffer is emptied of holders and is then FILLING or FREE with an empty map (R20, R22). -/
theorem Pool.Sound.renew (h : p.Sound live) {k : Fin 8} {f : Buffer → Buffer}
    (hf : (f p.bufs[k]).holders = HolderSet.empty ∧ (f p.bufs[k]).map = [])
    (lawful : (p.modBuf k f).lawful) (hc : p.bufs[k].st ≠ .committing) : (p.modBuf k f).Sound live := by
  refine h.of_fewer lawful rfl (fun g j a => ?_) (fun j a => ?_) fun j hj hc => ?_
  · rw [Pool.bufs_modBuf] at a
    split at a
    · rw [hf.1, HolderSet.has_empty] at a; cases a
    · exact a
  · rw [Pool.bufs_modBuf, if_neg fun (e : j = k) => by subst e; exact hc a]; exact a
  · rw [Pool.bufs_modBuf] at hj hc ⊢
    split
    · exact hf.2
    · next e => rw [if_neg e] at hj hc; exact h.maps j hj hc

/-- A commit after which no job is left, and which releases the copy source (R21, R38). -/
theorem Pool.sound_commit {k : Fin 8} {seq : Half} {time : Word} {source : Option (Fin 8)}
    (lawful : (p.commit k seq time source).lawful) (hj : p.job = none)
    (one : ∀ (h : Holder) (i j : Fin 8), p.bufs[i].holders.has h = true → p.bufs[j].holders.has h = true → i = j)
    (lanes : ∀ (x : Fin 6) (k : Fin 8), p.bufs[k].holders.has (.lane x) = true → live x)
    (src : ∀ j : Fin 8, p.bufs[j].holders.has .copySource = true → source = some j)
    (maps : ∀ j : Fin 8, j ≠ k → p.bufs[j].st ≠ .filling → p.bufs[j].st ≠ .committing → p.bufs[j].map = []) :
    (p.commit k seq time source).Sound live := by
  obtain ⟨hk, ho⟩ := p.commit_bufs k seq time source
  have sup : ∀ (j : Fin 8) (b : Buffer),
      ((if p.find .ready = some j then Buffer.supersede else id) b).holders = b.holders ∧
        ((if p.find .ready = some j then Buffer.supersede else id) b).map = b.map := fun j b => by
    split <;> exact ⟨rfl, rfl⟩
  have has : ∀ (g : Holder) (j : Fin 8), (p.commit k seq time source).bufs[j].holders.has g = true →
      p.bufs[j].holders.has g = true ∧ (source = some j → g ≠ .copySource) := fun g j a => by
    by_cases e : j = k
    · subst e; rw [hk, HolderSet.has_empty] at a; cases a
    · rw [ho j e, (sup j _).1] at a
      split at a
      · rw [Buffer.release_has] at a
        simp only [Bool.and_eq_true, decide_eq_true_eq] at a
        exact ⟨a.2, fun _ => a.1⟩
      · next hs => exact ⟨a, fun e => absurd e hs⟩
  refine ⟨lawful, fun g i j a b => one g i j (has g i a).1 (has g j b).1, fun x j a => lanes x j (has _ j a).1,
    fun j a => ?_, fun j e => ?_, fun j hf hc => ?_⟩
  · exact absurd rfl ((has _ j a).2 (src j (has _ j a).1))
  · rw [Pool.commit_job, hj] at e; cases e
  · by_cases e : j = k
    · subst e; rw [hk]
    · have hm : p.bufs[j].map = [] := maps j e (fun h => hf (Pool.commit_st h nofun nofun e _ _ _))
        fun h => hc (Pool.commit_st h nofun nofun e _ _ _)
      rw [ho j e, (sup j _).2]
      split
      · rw [Buffer.release_map]; exact hm
      · exact hm

/-- The end of a job: its target commits and its copy source is released (R38). -/
theorem Pool.Sound.endJob (h : p.Sound live) {i : CopyJob} (hi : p.job = some i) (seq : Half) (time : Word) :
    (Pool.commit { p with job := none } i.target seq time i.source).Sound live := by
  have h1 : Pool.lawful { p with job := none } := Pool.lawful_of_bufs h.lawful rfl
  refine Pool.sound_commit (Pool.lawful_commit_of_lawful h1 _ _ _ _) rfl h.one h.lanes (fun j a => ?_)
    fun j _ => h.maps j
  obtain ⟨m, hm, hs⟩ := h.source j a
  rw [hi] at hm
  cases hm
  exact hs

/-- Without a job no buffer is a copy source. -/
theorem Pool.Sound.no_source (h : p.Sound live) (hj : p.job = none) (k : Fin 8) :
    p.bufs[k].holders.has .copySource = false := by
  cases hk : p.bufs[k].holders.has .copySource with
  | false => rfl
  | true =>
    obtain ⟨j, e, _⟩ := h.source k hk
    rw [hj] at e
    cases e

/-- A commit in a pool without a job (R42). -/
theorem Pool.Sound.commit (h : p.Sound live) (hj : p.job = none) (k : Fin 8) (seq : Half) (time : Word) :
    (p.commit k seq time none).Sound live :=
  Pool.sound_commit (Pool.lawful_commit_of_lawful h.lawful _ _ _ _) hj h.one h.lanes
    (fun j a => by rw [h.no_source hj] at a; cases a) fun j _ => h.maps j

/-! ### Closes -/

section
variable {k0 k1 : Fin 8}

/-- While no buffer is COMMITTING there is no job. -/
theorem Pool.Sound.no_job (h : p.Sound live) (hc : ∀ k : Fin 8, p.bufs[k].st ≠ .committing) : p.job = none := by
  cases hj : p.job with
  | none => rfl
  | some j => exact absurd (h.target j hj) (hc _)

theorem Pool.Sound.accept_commit (h : p.Sound live) (h0 : p.bufs[k0].st = .filling)
    (h1 : p.bufs[k1].st = .free) (hc : ∀ k : Fin 8, p.bufs[k].st ≠ .committing) (seq : Half) (now : Word) :
    ((p.accept k0 k1 seq now).commit k0 seq now none).Sound live := by
  have hj := h.no_job hc
  have has : ∀ (g : Holder) (k : Fin 8), (p.accept k0 k1 seq now).bufs[k].holders.has g = true →
      p.bufs[k].holders.has g = true := fun g k a => by
    rw [Pool.accept_bufs h0 h1] at a
    split at a
    · rw [show Buffer.allocated.holders = HolderSet.empty from rfl, HolderSet.has_empty] at a; cases a
    · split at a
      · next e => subst e; exact a
      · exact a
  refine Pool.sound_commit (Pool.lawful_accept_commit h.lawful h0 h1 hc seq now) hj
    (fun g i j a b => h.one g i j (has g i a) (has g j b)) (fun x k a => h.lanes x k (has _ k a))
    (fun j a => ?_) fun j hne hf hcm => ?_
  · have := has _ j a
    rw [h.no_source hj] at this
    cases this
  · rw [Pool.accept_bufs h0 h1] at hf hcm ⊢
    split
    · rfl
    · next e => rw [if_neg e, if_neg hne] at hf hcm; exact h.maps j hf hcm

/-- The closed buffer is COMMITTING for its job, which has the READY buffer as copy source (R19, R35). -/
theorem Pool.Sound.handOver (h : p.Sound live) (h0 : p.bufs[k0].st = .filling) (h1 : p.bufs[k1].st = .free)
    (hc : ∀ k : Fin 8, p.bufs[k].st ≠ .committing) (seq : Half) (now : Word) {j : CopyJob}
    (ht : j.target = k0) (hs : j.source = p.find .ready) :
    Pool.Sound live { p.handOver k0 k1 seq now with job := some j } := by
  have hj := h.no_job hc
  have hne := Pool.closed_ne_allocated h0 h1
  have bufs := fun k => Pool.handOver_bufs h0 h1 seq now k
  have has : ∀ (g : Holder) (k : Fin 8), (p.handOver k0 k1 seq now).bufs[k].holders.has g = true →
      p.bufs[k].holders.has g = true ∨ g = .copySource ∧ p.find .ready = some k := fun g k a => by
    rw [bufs] at a
    split at a
    · rw [show Buffer.allocated.holders = HolderSet.empty from rfl, HolderSet.has_empty] at a; cases a
    · split at a
      · next e => subst e; exact .inl a
      · split at a
        · next hr =>
          change (p.bufs[k].holders.put .copySource true).has g = true at a
          rw [HolderSet.has_put] at a
          split at a
          · next e => exact .inr ⟨e, hr⟩
          · exact .inl a
        · exact .inl a
  refine
    { lawful := Pool.lawful_of_bufs (Pool.lawful_handOver h.lawful h0 h1 hc seq now) rfl
      one := fun g i k a b => ?_
      lanes := fun x k a => ?_
      source := fun k a => ?_
      target := fun m e => ?_
      maps := fun k hf hcm => ?_ }
  · rcases has g i a with a' | ⟨e, hi⟩ <;> rcases has g k b with b' | ⟨e', hk⟩
    · exact h.one g i k a' b'
    · rw [e', h.no_source hj] at a'; cases a'
    · rw [e, h.no_source hj] at b'; cases b'
    · exact Option.some.inj (hi.symm.trans hk)
  · rcases has _ k a with a' | ⟨e, _⟩
    · exact h.lanes x k a'
    · cases e
  · rcases has _ k a with a' | ⟨_, hk⟩
    · rw [h.no_source hj] at a'; cases a'
    · exact ⟨j, rfl, hs.trans hk⟩
  · cases e
    change ((p.handOver k0 k1 seq now).bufs[j.target]).st = .committing
    rw [bufs, ht, if_neg hne, if_pos rfl]
  · change ((p.handOver k0 k1 seq now).bufs[k]).st ≠ .filling at hf
    change ((p.handOver k0 k1 seq now).bufs[k]).st ≠ .committing at hcm
    change ((p.handOver k0 k1 seq now).bufs[k]).map = []
    rw [bufs] at hf hcm ⊢
    split
    · rfl
    · next e1 =>
      rw [if_neg e1] at hf hcm
      split
      · next e0 => rw [if_pos e0] at hcm; exact absurd rfl hcm
      · next e0 =>
        rw [if_neg e0] at hf hcm
        have st : (if p.find .ready = some k then p.bufs[k].hold .copySource else p.bufs[k]).st =
            p.bufs[k].st := by split <;> rfl
        have map : (if p.find .ready = some k then p.bufs[k].hold .copySource else p.bufs[k]).map =
            p.bufs[k].map := by split <;> rfl
        rw [st] at hf hcm
        rw [map]
        exact h.maps k hf hcm

end

/-! ### STOP, SETUP entry, RUN entry and reset -/

theorem Pool.stop_bufs (p : Pool) (k : Fin 8) : p.stop.bufs[k] =
    if p.bufs[k].st = .filling ∨ p.bufs[k].st = .committing then (p.bufs[k]).discard
    else (p.bufs[k]).release .copySource := by
  change (p.mapBufs fun b =>
    if b.st = .filling ∨ b.st = .committing then b.discard else b.release .copySource).bufs[k] = _
  rw [Pool.bufs_mapBufs]

theorem Pool.teardown_bufs (p : Pool) (k : Fin 8) : p.teardown.bufs[k] =
    if p.bufs[k].st = .ready ∨ p.bufs[k].st = .retired then
      { p.bufs[k] with st := .free, holders := HolderSet.empty }
    else p.bufs[k] := by
  unfold Pool.teardown
  rw [Pool.bufs_mapBufs]

/-- After the STOP teardown no buffer is FILLING or COMMITTING (R25). -/
theorem Pool.stop_st (p : Pool) (k : Fin 8) : p.stop.bufs[k].st ≠ .filling ∧ p.stop.bufs[k].st ≠ .committing := by
  rw [Pool.stop_bufs]
  split
  · exact ⟨nofun, nofun⟩
  · next h =>
    rcases Buffer.release_st .copySource p.bufs[k] with e | ⟨_, e⟩ <;> rw [e]
    · exact ⟨fun h' => h (.inl h'), fun h' => h (.inr h')⟩
    · exact ⟨nofun, nofun⟩

theorem Pool.Sound.stopRun (h : p.Sound live) : p.stopRun.Sound live := by
  have has : ∀ (g : Holder) (k : Fin 8), p.stop.bufs[k].holders.has g = true →
      p.bufs[k].holders.has g = true ∧ g ≠ .copySource := fun g k a => by
    rw [Pool.stop_bufs] at a
    split at a
    · rw [show (p.bufs[k]).discard.holders = HolderSet.empty from rfl, HolderSet.has_empty] at a; cases a
    · rw [Buffer.release_has] at a
      simp only [Bool.and_eq_true, decide_eq_true_eq] at a
      exact ⟨a.2, a.1⟩
  have stop : p.stop.Sound live :=
    { lawful := Pool.lawful_stop h.lawful
      one := fun g j k a b => h.one g j k (has g j a).1 (has g k b).1
      lanes := fun x k a => h.lanes x k (has _ k a).1
      source := fun k a => absurd rfl (has _ k a).2
      target := nofun
      maps := fun k _ _ => by
        rw [Pool.stop_bufs]
        split
        · rfl
        · next hn =>
          rw [Buffer.release_map]
          exact h.maps k (fun e => hn (.inl e)) fun e => hn (.inr e) }
  exact stop.record rfl rfl

/-- After the SETUP entry teardown of a pool with no FILLING and no COMMITTING buffer every buffer is FREE
(R25). -/
theorem Pool.teardown_free {k : Fin 8} (h : p.bufs[k].st ≠ .filling ∧ p.bufs[k].st ≠ .committing) :
    p.teardown.bufs[k].st = .free := by
  rw [Pool.teardown_bufs]
  split
  · rfl
  · next hn =>
    cases hk : p.bufs[k].st with
    | free => rfl
    | filling => exact absurd hk h.1
    | committing => exact absurd hk h.2
    | ready => exact absurd (.inl hk) hn
    | retired => exact absurd (.inr hk) hn

/-- A pool that holds nothing and has no job keeps no lane alive. -/
theorem Pool.sound_of_free (lawful : p.lawful) (free : ∀ k : Fin 8, p.bufs[k].st = .free) (hj : p.job = none)
    (maps : ∀ k : Fin 8, p.bufs[k].map = []) : p.Sound live := by
  have none : ∀ (g : Holder) (k : Fin 8), p.bufs[k].holders.has g = false := fun g k =>
    Pool.has_false lawful (by rw [free]; nofun) (by rw [free]; nofun) g
  refine ⟨lawful, fun g j k a _ => ?_, fun x k a => ?_, fun k a => ?_, fun j e => ?_, fun k _ _ => maps k⟩
  · rw [none] at a; cases a
  · rw [none] at a; cases a
  · rw [none] at a; cases a
  · rw [hj] at e; cases e

theorem Pool.Sound.teardown (h : p.Sound live)
    (hn : ∀ k : Fin 8, p.bufs[k].st ≠ .filling ∧ p.bufs[k].st ≠ .committing) (hj : p.job = none) :
    p.teardown.Sound live' := by
  refine Pool.sound_of_free (Pool.lawful_teardown h.lawful) (fun k => Pool.teardown_free (hn k)) hj fun k => ?_
  rw [Pool.teardown_bufs]
  split <;> exact h.maps k (hn k).1 (hn k).2

theorem Pool.sound_start (p : Pool) (r : WindowRec) (deadline : Word) : (p.start r deadline).Sound live := by
  have none : ∀ (g : Holder) (k : Fin 8), (p.start r deadline).bufs[k].holders.has g = false := fun g k => by
    rw [Pool.start_bufs]
    split <;> exact HolderSet.has_empty g
  refine ⟨Pool.lawful_start p r deadline, fun g j k a _ => ?_, fun x k a => ?_, fun k a => ?_,
    fun j e => ?_, fun k _ _ => ?_⟩
  · rw [none] at a; cases a
  · rw [none] at a; cases a
  · rw [none] at a; cases a
  · rw [Pool.start_job] at e; cases e
  · rw [Pool.start_bufs]
    split <;> rfl

theorem Pool.sound_zero : Pool.zero.Sound live :=
  Pool.sound_of_free Pool.lawful_zero (fun k => by rw [Pool.zero_bufs]; rfl) rfl
    fun k => by rw [Pool.zero_bufs]; rfl

end

end Sys2Proof.Machine

/-! SUPPORT. The law of the run over every step (R9–R11, R13, R14, R19, R23): the pools are sound, the device
state fits them, and the writes that mark maps are aimed at FILLING buffers. -/

namespace Sys2Proof.Machine

/-- The lanes that are SENDING. -/
def State.live (s : State) (x : Fin 6) : Prop := (s.out x).st = .sending

/-- The law of the run but for the device law, part by part. -/
structure RunParts (s : State) : Prop where
  sound : ∀ w : Fin 16, (s.pool w).Sound s.live
  jobs : ∀ (w : Fin 16) (j : CopyJob), (s.pool w).job = some j → (s.win w).writer = .host
  free : s.dev = .setup ∨ s.dev = .loading → ∀ (w : Fin 16) (k : Fin 8), (s.pool w).bufs[k].st = .free
  stopped : s.dev = .stopping → ∀ (w : Fin 16) (k : Fin 8),
    (s.pool w).bufs[k].st ≠ .filling ∧ (s.pool w).bufs[k].st ≠ .committing
  aimed : s.aimed s.su
  heads : ∀ (y : Fin 2) (w : Fin 16) (f : InFrame) (k : Fin 8), s.inWindow y = some w →
    f ∈ (s.inl y).frames → f.buffer = some k → (s.pool w).bufs[k].st = .filling
  tails : ∀ (y : Fin 2) (f : InFrame), f ∈ (s.inl y).frames.tail → f.buffer = none

theorem runLaw_iff (s : State) : RunLaw s ↔ RunParts s ∧ DeviceLaw s := by
  constructor
  · rintro ⟨pool, ⟨one, lanes, source, target⟩, dev, free, stopped, maps, aimed, heads, tails⟩
    exact ⟨⟨fun w => ⟨pool w, one w, lanes w, source w, fun j e => (target w j e).2, maps w⟩,
      fun w j e => (target w j e).1, free, stopped, aimed, heads, tails⟩, dev⟩
  · rintro ⟨⟨sound, jobs, free, stopped, aimed, heads, tails⟩, dev⟩
    exact ⟨fun w => (sound w).lawful, ⟨fun w => (sound w).one, fun w => (sound w).lanes,
      fun w => (sound w).source, fun w j e => ⟨jobs w j e, (sound w).target j e⟩⟩, dev, free, stopped,
      fun w => (sound w).maps, aimed, heads, tails⟩

section
variable {s t : State}

/-! ### What keeps the parts -/

theorem State.inWindow_congr (hw : t.windows = s.windows) (y : Fin 2) : t.inWindow y = s.inWindow y := by
  unfold State.inWindow
  refine congrArg (List.find? · allWindows) (funext fun w => ?_)
  rw [State.win_congr hw]

/-- The aim of a write depends on the device state, the windows and the FILLING buffers of host windows. -/
theorem State.aimed_of {u : SU} (h : s.aimed u) (hd : t.dev = s.dev) (hw : t.windows = s.windows)
    (hf : ∀ (w : Fin 16) (k : Fin 8), s.dev = .run → (s.win w).writer = .host →
      (s.pool w).bufs[k].st = .filling → (t.pool w).bufs[k].st = .filling) : t.aimed u := fun r e => by
  obtain ⟨hr, hh, hk⟩ := h r e
  rw [State.win_congr hw, hd]
  exact ⟨hr, hh, hf _ _ hr hh hk⟩

/-- From `p` to `q` every FILLING buffer stays so, and no job begins. -/
def Pool.onward (p q : Pool) : Prop :=
  (∀ k : Fin 8, p.bufs[k].st = .filling → q.bufs[k].st = .filling) ∧
    ∀ j, q.job = some j → ∃ i, p.job = some i

theorem Pool.steady.onward {p q : Pool} (h : p.steady q) : p.onward q := by
  obtain ⟨filling, _, job⟩ := h
  refine ⟨filling, fun j e => ?_⟩
  obtain ⟨i, hi, _⟩ := job j e
  exact ⟨i, hi⟩

/-- A change of the pools and the lanes under which FILLING buffers stay, no job begins, and outside RUN a buffer stays in its state or becomes FREE. -/
theorem RunParts.of_onward (h : RunParts s) (sound : ∀ w, (t.pool w).Sound t.live)
    (onward : ∀ w, (s.pool w).onward (t.pool w))
    (rest : s.dev ≠ .run → ∀ (w : Fin 16) (k : Fin 8),
      (t.pool w).bufs[k].st = (s.pool w).bufs[k].st ∨ (t.pool w).bufs[k].st = .free)
    (hd : t.dev = s.dev) (hw : t.windows = s.windows) (hs : t.su = s.su) (hi : t.ins = s.ins) : RunParts t where
  sound := sound
  jobs := fun w j e => by
    obtain ⟨i, hi⟩ := (onward w).2 j e
    rw [State.win_congr hw]
    exact h.jobs w i hi
  free := fun hr w k => by
    rw [hd] at hr
    rcases rest (fun e => by rw [e] at hr; rcases hr with hr | hr <;> cases hr) w k with e | e
    · rw [e]; exact h.free hr w k
    · exact e
  stopped := fun hr w k => by
    rw [hd] at hr
    rcases rest (fun e => by rw [e] at hr; cases hr) w k with e | e <;> rw [e]
    · exact h.stopped hr w k
    · exact ⟨nofun, nofun⟩
  aimed := by
    rw [hs]
    exact State.aimed_of h.aimed hd hw fun w k _ _ hk => (onward w).1 k hk
  heads := fun y w f k hy hf hb => by
    rw [State.inWindow_congr hw] at hy
    rw [State.inl_congr hi] at hf
    exact (onward w).1 k (h.heads y w f k hy hf hb)
  tails := fun y f hf => by
    rw [State.inl_congr hi] at hf
    exact h.tails y f hf

/-- The parts read the pools, the lanes' states, the windows, the device state, SU and the frames in hand. -/
theorem RunParts.of_eq (h : RunParts s) (hp : t.pools = s.pools) (ho : ∀ x, (t.out x).st = (s.out x).st)
    (hd : t.dev = s.dev) (hw : t.windows = s.windows) (hs : t.su = s.su) (hi : t.ins = s.ins) : RunParts t :=
  h.of_onward (fun w => by
      rw [State.pool_congr hp]
      exact (h.sound w).mono fun x hx => (ho x).trans hx)
    (fun w => by rw [State.pool_congr hp]; exact (Pool.steady_of_bufs rfl rfl).onward)
    (fun _ w k => .inl (by rw [State.pool_congr hp])) hd hw hs hi

theorem RunParts.inert (h : RunParts s) (f : ChangesOnly inertItems s t) : RunParts t :=
  h.of_eq (f .pools (by decide)) (fun x => congrArg _ (State.out_congr (f .outs (by decide)) x))
    (f .dev (by decide)) (f .windows (by decide)) (f .su (by decide)) (f .ins (by decide))

theorem RunParts.raise (h : RunParts s) (k : Kind) (source : Option Nat) (d1 d2 : Word) :
    RunParts (s.raise k source d1 d2) := h.inert ((raise_frame s _ _ _ _).mono (by decide))

/-- A change of one pool that keeps its buffers' states, or that happens in RUN. -/
theorem RunParts.modPool (h : RunParts s) (w : Fin 16) (f : Pool → Pool)
    (sound : (f (s.pool w)).Sound s.live) (onward : (s.pool w).onward (f (s.pool w)))
    (rest : s.dev ≠ .run → ∀ k : Fin 8, (f (s.pool w)).bufs[k].st = (s.pool w).bufs[k].st ∨
      (f (s.pool w)).bufs[k].st = .free) : RunParts (s.modPool w f) := by
  refine h.of_onward (fun v => ?_) (fun v => ?_) (fun hr v k => ?_) rfl rfl rfl rfl
  · rw [State.pool_modPool]
    split
    · exact sound
    · exact h.sound v
  · rw [State.pool_modPool]
    split
    · next e => rw [e]; exact onward
    · exact (Pool.steady_of_bufs rfl rfl).onward
  · rw [State.pool_modPool]
    split
    · next e => subst e; exact rest hr k
    · exact .inl rfl

/-- A change of the rest of a pool record. -/
theorem RunParts.modRecord (h : RunParts s) (w : Fin 16) (f : Pool → Pool)
    (hb : (f (s.pool w)).bufs = (s.pool w).bufs) (hj : (f (s.pool w)).job = (s.pool w).job) :
    RunParts (s.modPool w f) :=
  h.modPool w f ((h.sound w).record hb hj) (Pool.steady_of_bufs hj hb).onward fun _ k => .inl (by rw [hb])

/-- Bytes are added to the map of a FILLING or COMMITTING buffer (R29). -/
theorem RunParts.mark (h : RunParts s) (w : Fin 16) {k : Fin 8}
    (hk : (s.pool w).bufs[k].st = .filling ∨ (s.pool w).bufs[k].st = .committing) (i : Nat) (e : Enables) :
    RunParts (s.modPool w fun p => p.modBuf k (Buffer.mark i e)) := by
  have st : ∀ j : Fin 8, ((s.pool w).modBuf k (Buffer.mark i e)).bufs[j].st = (s.pool w).bufs[j].st :=
    fun j => by
      rw [Pool.bufs_modBuf]
      split
      · next e => subst e; rfl
      · rfl
  have hs : (s.pool w).steady ((s.pool w).modBuf k (Buffer.mark i e)) := Pool.steady_of_st rfl fun j _ => st j
  exact h.modPool w _ ((h.sound w).mark hk i e) hs.onward fun _ j => .inl (st j)

/-- A change of a host window's pool in RUN while SU hands no write on: what else is FILLING stays. -/
theorem RunParts.modHost (h : RunParts s) {w : Fin 16} (hr : s.dev = .run) (hw : (s.win w).writer = .host)
    (hsu : ∀ r, s.su ≠ .writing (some r)) (f : Pool → Pool) (sound : (f (s.pool w)).Sound s.live) :
    RunParts (s.modPool w f) where
  sound := fun v => by
    rw [State.pool_modPool]
    split
    · exact sound
    · exact h.sound v
  jobs := fun v j e => by
    rw [State.pool_modPool] at e
    split at e
    · next ev => subst ev; exact hw
    · exact h.jobs v j e
  free := fun e => by rw [show (s.modPool w f).dev = s.dev from rfl, hr] at e; rcases e with e | e <;> cases e
  stopped := fun e => by rw [show (s.modPool w f).dev = s.dev from rfl, hr] at e; cases e
  aimed := State.aimed_of_ne hsu
  heads := fun y v g k hy hg hb => by
    have hne : v ≠ w := fun e => State.inWindow_not_host (e ▸ hy) hw
    rw [State.pool_modPool, if_neg hne]
    exact h.heads y v g k hy hg hb
  tails := h.tails

/-! ### Commits, copy-forward and closes -/

/-- What a commit leaves, seen as a change of one pool. -/
theorem RunParts.of_commit {w : Fin 16} {k : Fin 8} {seq : Half} {time : Word} {source : Option (Fin 8)}
    {copied : Nat} (h : RunParts (s.modPool w fun p => p.commit k seq time source)) :
    RunParts (s.commit w k seq time source copied) := by
  have h1 : RunParts ((s.modPool w fun p => p.commit k seq time source).noticeRecord w) :=
    h.modRecord w _ rfl rfl
  unfold State.commit
  exact h1.inert (((raiseResumed_frame _ _ _).andThen (offer_frame _ _) (by decide) (by decide)
    (m := [.flags, .journal, .requests])).mono (by decide))

/-- A commit by a job's end: its target was COMMITTING, and every FILLING buffer stays (R38). -/
theorem RunParts.endJob (h : RunParts s) (hr : s.dev = .run) (w : Fin 16) {i j : CopyJob}
    (hi : (s.pool w).job = some i) (ht : i.target = j.target) (hs : i.source = j.source) :
    RunParts (s.endJob w j) := by
  unfold State.endJob
  refine RunParts.of_commit ?_
  rw [State.modPool_modPool]
  refine h.modPool w _ ?_ ?_ fun hn => absurd hr hn
  · rw [← ht, ← hs]; exact (h.sound w).endJob hi _ _
  · have target := (h.sound w).target i hi
    refine ⟨fun k hk => Pool.commit_st (p := { s.pool w with job := none }) hk nofun nofun (fun e => ?_) _ _ _,
      fun m e => by rw [Pool.commit_job] at e; cases e⟩
    rw [← ht] at e
    subst e
    rw [target] at hk
    cases hk

/-- A job goes on, or ends with its commit (R36, R38). -/
theorem RunParts.seek (h : RunParts s) (hr : s.dev = .run) (w : Fin 16) {i j : CopyJob}
    (hi : (s.pool w).job = some i) (ht : i.target = j.target) (hs : i.source = j.source) :
    RunParts (s.seek w j) := by
  unfold State.seek
  split
  · next n _ =>
    have hn : RunParts (s.modPool w fun p => { p with job := some { j with index := n, phase := .reading } }) :=
      h.modPool w _ ((h.sound w).setJob hi rfl rfl ht hs) ⟨fun _ hk => hk, fun _ _ => ⟨i, hi⟩⟩
        fun hn => absurd hr hn
    exact hn.inert ((join_frame _ _).mono (by decide))
  · exact h.endJob hr w hi ht hs

theorem RunParts.copyRead (h : RunParts s) (hr : s.dev = .run) (w : Fin 16) (v : Word) :
    RunParts (s.copyRead w v) := by
  unfold State.copyRead
  split
  · exact h
  · next j hj =>
    have hn : RunParts (s.modPool w fun p =>
        { p with job := some { j with held := some v, phase := .writing } }) :=
      h.modPool w _ ((h.sound w).setJob hj rfl rfl rfl rfl) ⟨fun _ hk => hk, fun _ _ => ⟨j, hj⟩⟩
        fun hn => absurd hr hn
    exact hn.inert ((join_frame _ _).mono (by decide))

theorem RunParts.copyWrite (h : RunParts s) (hr : s.dev = .run) (w : Fin 16) (be : Enables) :
    RunParts (s.copyWrite w be) := by
  unfold State.copyWrite
  split
  · exact h
  · next j hj =>
    refine RunParts.seek (h.mark w (.inr ((h.sound w).target j hj)) _ _) hr w (i := j) ?_ rfl rfl
    rw [State.pool_modPool, if_pos rfl]
    exact hj

/-- An accepted close commits at once, or hands its job over (R34, R35). -/
theorem RunParts.decideClose (h : RunParts s) (w : Fin 16) (x : HostWrite) (hsu : s.su = .free)
    (hst : s.steering = true) : RunParts (s.decideClose w x) := by
  rcases s.decideClose_cases w x with e | ⟨o, _, _, e⟩ | ⟨k0, k1, ho, hk0, hk1, e⟩ <;> rw [e]
  · exact h
  · exact RunParts.raise (h.modRecord w _ rfl rfl) _ _ _ _
  · obtain ⟨hdev, hw, hc⟩ := State.accepted_facts ho
    have h0 := Pool.find_some hk0
    have h1 := (State.freeBuffer_some hk1).2
    have hne := (Pool.closed_ne_allocated h0 h1).symm
    have hr : s.dev = .run := by
      simp only [State.steering, Bool.or_eq_true, beq_iff_eq] at hst
      exact hst.resolve_right hdev
    have hnw : ∀ r, s.su ≠ .writing (some r) := fun r e => by rw [hsu] at e; cases e
    split
    · refine RunParts.of_commit ?_
      rw [State.acceptClose_eq, State.modPool_modPool]
      exact h.modHost hr hw hnw _ ((h.sound w).accept_commit h0 h1 hc _ _)
    · rw [State.startJob_accepted h0 h1]
      have job : ∀ j : CopyJob, j.target = k0 → j.source = (s.pool w).find .ready →
          RunParts ((s.modPool w fun p => p.handOver k0 k1 (closeSeq x) s.timeBase).modPool w fun p =>
            { p with job := some j }) := fun j ht hs => by
        rw [State.modPool_modPool]
        exact h.modHost hr hw hnw _ ((h.sound w).handOver h0 h1 hc _ _ ht hs)
      unfold State.seek
      split
      · exact (job _ rfl rfl).inert ((join_frame _ _).mono (by decide))
      · have hj := job { target := k0, source := (s.pool w).find .ready, seq := closeSeq x, time := s.timeBase
                         index := 0, phase := .seeking, copied := 0, held := none } rfl rfl
        have he := hj.endJob hr w (by rw [State.pool_modPool, if_pos rfl]) rfl rfl
        unfold State.endJob at he ⊢
        rw [State.modPool_modPool] at he
        exact he

/-! ### Inbound frames -/

/-- Two inbound lanes do not write one window (R7). -/
theorem State.inWindow_inj {y z : Fin 2} {w : Fin 16} (hy : s.inWindow y = some w) (hz : s.inWindow z = some w) :
    y = z := by
  have e := (State.inWindow_some hy).2.symm.trans (State.inWindow_some hz).2
  exact Option.some.inj e

/-- A frame in hand with a buffer is the head (R153). -/
theorem RunParts.head_of_buffer (h : RunParts s) {y : Fin 2} {f g : InFrame} {fs : List InFrame}
    (hf : (s.inl y).frames = f :: fs) (hg : g ∈ (s.inl y).frames) (hb : g.buffer ≠ none) : g = f := by
  rw [hf] at hg
  rcases List.mem_cons.1 hg with e | hg
  · exact e
  · exact absurd (h.tails y g (by rw [hf]; exact hg)) hb

/-- A change of the window of lane `y` and of its frames in hand, in RUN: every frame that then has a buffer
has a FILLING one. -/
theorem RunParts.modWindow (h : RunParts s) (hr : s.dev = .run) {y : Fin 2} {w : Fin 16}
    (hy : s.inWindow y = some w) (f : Pool → Pool) (u : InLane → InLane)
    (sound : (f (s.pool w)).Sound s.live) (job : (f (s.pool w)).job = none)
    (heads : ∀ g ∈ (u (s.inl y)).frames, ∀ k, g.buffer = some k → (f (s.pool w)).bufs[k].st = .filling)
    (tails : ∀ g ∈ (u (s.inl y)).frames.tail, g.buffer = none) :
    RunParts ((s.modPool w f).modIn y u) where
  sound := fun v => by
    change ((s.modPool w f).pool v).Sound s.live
    rw [State.pool_modPool]
    split
    · exact sound
    · exact h.sound v
  jobs := fun v j e => by
    change ((s.modPool w f).pool v).job = some j at e
    rw [State.pool_modPool] at e
    split at e
    · rw [job] at e; cases e
    · exact h.jobs v j e
  free := fun e => by
    rw [show ((s.modPool w f).modIn y u).dev = s.dev from rfl, hr] at e
    rcases e with e | e <;> cases e
  stopped := fun e => by rw [show ((s.modPool w f).modIn y u).dev = s.dev from rfl, hr] at e; cases e
  aimed := State.aimed_of (s := s) h.aimed rfl rfl fun v k _ hh hk => by
    change ((s.modPool w f).pool v).bufs[k].st = .filling
    rw [State.pool_modPool, if_neg fun (e : v = w) => by subst e; exact State.inWindow_not_host hy hh]
    exact hk
  heads := fun z v g k hz hg hb => by
    change s.inWindow z = some v at hz
    change ((s.modPool w f).pool v).bufs[k].st = .filling
    rw [State.inl_modIn] at hg
    rw [State.pool_modPool]
    split at hg
    · next e =>
      subst e
      rw [hy] at hz
      cases hz
      rw [if_pos rfl]
      exact heads g hg k hb
    · next e =>
      rw [if_neg fun (ev : v = w) => by subst ev; exact e (State.inWindow_inj hz hy)]
      exact h.heads z v g k hz hg hb
  tails := fun z g hg => by
    rw [State.inl_modIn] at hg
    split at hg
    · exact tails g hg
    · exact h.tails z g hg

/-- A window that an inbound lane writes has no job (R7). -/
theorem RunParts.no_job (h : RunParts s) {y : Fin 2} {w : Fin 16} (hy : s.inWindow y = some w) :
    (s.pool w).job = none := by
  cases hj : (s.pool w).job with
  | none => rfl
  | some j => exact absurd (h.jobs w j hj) (State.inWindow_not_host hy)

/-- A change that leaves the inbound lanes commutes with a change of one of them. -/
theorem ChangesOnly.modIn (f : ChangesOnly [.flags, .journal, .requests] s t) (y : Fin 2) (u : InLane → InLane) :
    ChangesOnly [.flags, .journal, .requests] (s.modIn y u) (t.modIn y u) := by
  intro g hg
  cases g
  case ins =>
    change (t.modIn y u).ins = (s.modIn y u).ins
    unfold State.modIn
    rw [show t.ins = s.ins from f .ins (by decide)]
  all_goals exact f _ hg

theorem State.noticeRecord_modIn (s : State) (w : Fin 16) (y : Fin 2) (u : InLane → InLane) :
    (s.noticeRecord w).modIn y u = (s.modIn y u).noticeRecord w := rfl

/-- In RUN each operation of an inbound lane keeps the parts (R153, R155, R158). -/
theorem runParts_keptByFrames : KeptByFrames fun s => s.dev = .run ∧ RunParts s where
  asks h f := ⟨(f .dev (by decide)).trans h.1, h.2.inert (f.mono (by decide))⟩
  raise {s} h c source d1 d2 :=
    ⟨(raise_frame s c source d1 d2 .dev (by decide)).trans h.1, h.2.inert ((raise_frame _ _ _ _ _).mono (by decide))⟩
  lane {s} y u h hu := by
    obtain ⟨hr, h⟩ := h
    refine ⟨hr, ⟨h.sound, h.jobs, h.free, h.stopped, h.aimed, fun z w f k hz hf hb => ?_, fun z f hf => ?_⟩⟩
    · change s.inWindow z = some w at hz
      rw [State.inl_modIn] at hf
      split at hf
      · next e =>
        subst e
        obtain ⟨g, hg, e⟩ := hu.1 f hf (by rw [hb]; nofun)
        exact h.heads z w g k hz hg (e.trans hb)
      · exact h.heads z w f k hz hf hb
    · rw [State.inl_modIn] at hf
      split at hf
      · next e => subst e; exact hu.2 (h.tails z) f hf
      · exact h.tails z f hf
  allocate {s} y w k f fs h hy hk hf := by
    obtain ⟨hr, h⟩ := h
    obtain ⟨hn, hfree⟩ := State.inboundFree_some hk
    have hst := (State.freeBuffer_some hfree).2
    refine ⟨hr, h.modWindow hr hy _ _ ((h.sound w).renew ⟨rfl, rfl⟩
      (Pool.lawful_allocate (h.sound w).lawful hn k) (by rw [hst]; nofun)) (h.no_job hy) ?_ ?_⟩
    · intro g hg b hb
      have hh : g ∈ { f with buffer := some k } :: fs := by rw [InLane.modHead, hf] at hg; exact hg
      rcases List.mem_cons.1 hh with e | hg'
      · subst e
        cases hb
        rw [Pool.bufs_modBuf, if_pos rfl]
        rfl
      · rw [h.tails y g (by rw [hf]; exact hg')] at hb
        cases hb
    · intro g hg
      rw [InLane.modHead, hf] at hg
      exact h.tails y g (by rw [hf]; exact hg)
  discard {s} y w k f fs h hy hf hb := by
    obtain ⟨hr, h⟩ := h
    have hk := h.heads y w f k hy (by rw [hf]; exact List.mem_cons_self) hb
    refine ⟨hr, h.modWindow hr hy _ _ ((h.sound w).renew ⟨rfl, rfl⟩
      (Pool.lawful_discard (h.sound w).lawful k) (by rw [hk]; nofun)) (h.no_job hy) ?_ ?_⟩
    · intro g hg b hb
      rw [h.tails y g hg] at hb
      cases hb
    · exact fun g hg => h.tails y g (List.mem_of_mem_tail hg)
  commit {s} y w k f fs h hy hf hb := by
    obtain ⟨hr, h⟩ := h
    have hj := h.no_job hy
    have h1 : RunParts ((s.modPool w fun p =>
        Pool.commit { p with nextInbound := p.nextInbound + 1 } k (s.pool w).nextInbound f.time none).modIn y
          InLane.popHead) := by
      refine h.modWindow hr hy _ _ (((h.sound w).record (q := { s.pool w with
        nextInbound := (s.pool w).nextInbound + 1 }) rfl rfl).commit hj k _ _) ?_ ?_ ?_
      · rw [Pool.commit_job]; exact hj
      · intro g hg b hb
        rw [h.tails y g hg] at hb
        cases hb
      · exact fun g hg => h.tails y g (List.mem_of_mem_tail hg)
    have h2 : RunParts (((s.modPool w fun p =>
        Pool.commit { p with nextInbound := p.nextInbound + 1 } k (s.pool w).nextInbound f.time none).noticeRecord
          w).modIn y InLane.popHead) := by
      rw [State.noticeRecord_modIn]
      exact h1.modRecord w _ rfl rfl
    refine ⟨(commit_frame _ w k _ _ _ _ .dev (by decide)).trans hr, ?_⟩
    unfold State.commit
    rw [State.modPool_modPool]
    exact h2.inert (((((raiseResumed_frame _ _ _).andThen (offer_frame _ _) (by decide) (by decide)
      (m := [.flags, .journal, .requests]))).modIn y InLane.popHead).mono (by decide))
  mark {s} y w k f fs i e h hy hf hb := by
    obtain ⟨hr, h⟩ := h
    exact ⟨hr, h.mark w (.inl (h.heads y w f k hy (by rw [hf]; exact List.mem_cons_self) hb)) i e⟩

end

end Sys2Proof.Machine

/-! SUPPORT. The law of the run over frame starts, cuts, frame ends, START, STOP, RUN entry and a reset, and
so over every step (R107, R119, R123, R172–R175). -/

namespace Sys2Proof.Machine

/-- No buffer has the hold of lane `x`. -/
def State.unheld (s : State) (x : Fin 6) : Prop :=
  ∀ (w : Fin 16) (k : Fin 8), (s.pool w).bufs[k].holders.has (.lane x) = false

section
variable {s t : State}

theorem State.unheld_congr {x : Fin 6} (h : s.unheld x) (e : t.pools = s.pools) : t.unheld x := fun w k => by
  rw [State.pool_congr e]; exact h w k

/-- A lane that is not SENDING has no hold (R107). -/
theorem RunParts.unheld (h : RunParts s) {x : Fin 6} (hx : (s.out x).st ≠ .sending) : s.unheld x := fun w k => by
  cases hk : (s.pool w).bufs[k].holders.has (.lane x) with
  | false => rfl
  | true => exact absurd ((h.sound w).lanes x k hk) hx

theorem State.releaseLane_pool (s : State) (x : Fin 6) (w : Fin 16) :
    (s.releaseLane x).pool w = (s.pool w).release (.lane x) := by
  unfold State.releaseLane
  rw [State.pool_mapPools]

theorem State.unheld_releaseLane (s : State) (x : Fin 6) : (s.releaseLane x).unheld x := fun w k => by
  rw [State.releaseLane_pool, Pool.release_has]

theorem Pool.release_bufs_st (p : Pool) (g : Holder) (k : Fin 8) :
    (p.release g).bufs[k].st = p.bufs[k].st ∨ (p.release g).bufs[k].st = .free := by
  unfold Pool.release
  rw [Pool.bufs_mapBufs]
  rcases Buffer.release_st g p.bufs[k] with e | ⟨_, e⟩
  · exact .inl e
  · exact .inr e

/-! ### Frame starts and cuts -/

/-- A change of one lane that keeps its state. -/
theorem RunParts.modOut (h : RunParts s) (x : Fin 6) (f : OutLane → OutLane)
    (hf : (f (s.out x)).st = (s.out x).st) : RunParts (s.modOut x f) :=
  h.of_eq rfl (s.modOut_st x f hf) rfl rfl rfl rfl

theorem State.frameStart_sending (s : State) (x : Fin 6) (fly : Bool) :
    ((s.frameStart x fly).out x).st = .sending := by
  rw [State.frameStart_out]

/-- A frame start of a lane that holds nothing: its holds go to READY buffers, and it is then SENDING. -/
theorem RunParts.frameStart (h : RunParts s) {x : Fin 6} (hx : s.unheld x) (fly : Bool) :
    RunParts (s.frameStart x fly) := by
  have f := frameStart_frame s x fly
  have live : ∀ z, s.live z → (s.frameStart x fly).live z := fun z hz => by
    unfold State.live
    by_cases e : z = x
    · subst e; exact s.frameStart_sending z fly
    · rw [s.frameStart_others x fly z e]; exact hz
  have st : ∀ (w : Fin 16) (k : Fin 8), ((s.frameStart x fly).pool w).bufs[k].st = (s.pool w).bufs[k].st :=
    fun w k => by
      rw [(s.frameStart_holds x fly w).2 k]
      split <;> rfl
  have hold : ∀ w, ((s.frameStart x fly).pool w).Sound (s.frameStart x fly).live := fun w => by
    obtain ⟨only, bufs⟩ := s.frameStart_holds x fly w
    refine ((h.sound w).mono live).hold (.lane x) (fun k => w ∈ s.carried x ∧ (s.drawFor w).draw.isOn k = true)
      (hx w) bufs (fun k hk => ?_) (by rw [only]) (fun z e => ?_) fun e => by cases e
    · obtain ⟨_, hk⟩ := hk
      unfold Draw.isOn at hk
      split at hk
      · next j _ _ hd =>
        rw [← of_decide_eq_true hk]
        exact State.drawFor_ready hd
      all_goals cases hk
    · cases e; exact s.frameStart_sending x fly
  exact h.of_onward hold (fun w => ((s.frameStart_holds x fly).steady w).onward) (fun _ w k => .inl (st w k))
    (f .dev (by decide)) (f .windows (by decide)) (f .su (by decide)) (f .ins (by decide))

/-- The holds of a lane are released; `x` may cease to be SENDING with it. -/
theorem RunParts.releaseLane (h : RunParts s) (x : Fin 6) (f : OutLane → OutLane) :
    RunParts ((s.releaseLane x).modOut x f) := by
  have e : ∀ w, ((s.releaseLane x).modOut x f).pool w = (s.pool w).release (.lane x) := fun w =>
    s.releaseLane_pool x w
  have g : ChangesOnly [.pools, .outs] s ((s.releaseLane x).modOut x f) :=
    (releaseLane_frame s x).andThen (modOut_frame _ _ _)
  refine h.of_onward (fun w => ?_) (fun w => ?_) (fun _ w k => ?_) (g .dev (by decide)) (g .windows (by decide))
    (g .su (by decide)) (g .ins (by decide)) <;> rw [e]
  · refine (h.sound w).release_lane fun z hz hl => ?_
    unfold State.live
    rw [State.out_modOut, if_neg hz, State.out_congr (releaseLane_frame s x .outs (by decide))]
    exact hl
  · exact (Pool.steady_release _ _).onward
  · exact Pool.release_bufs_st _ _ k

theorem RunParts.cutFrame (h : RunParts s) (x : Fin 6) : RunParts (s.cutFrame x) ∧ (s.cutFrame x).unheld x := by
  unfold State.cutFrame
  refine ⟨RunParts.raise ((h.inert ((withdraw_frame s _).mono (by decide))).releaseLane x _) _ _ _ _, ?_⟩
  exact State.unheld_congr (State.unheld_releaseLane _ x)
    ((raise_frame _ _ _ _ _ .pools (by decide)).trans (State.modOut_pools _ _ _))

theorem RunParts.edgeStart (h : RunParts s) {x : Fin 6} (hx : s.unheld x) : RunParts (s.edgeStart x) :=
  (h.modOut x _ rfl).frameStart (State.unheld_congr hx (State.modOut_pools _ _ _)) false

theorem RunParts.masterStart (h : RunParts s) {x : Fin 6} (hd : s.masterDue x = true) :
    RunParts (s.masterStart x) := by
  have hx : (s.out x).st ≠ .sending := by
    simp only [State.masterDue, Bool.and_eq_true, Bool.or_eq_true, beq_iff_eq] at hd
    obtain ⟨_, hst | hst⟩ := hd <;> rw [hst] <;> nofun
  exact (h.modOut x _ rfl).frameStart (State.unheld_congr (h.unheld hx) (State.modOut_pools _ _ _)) false

theorem RunParts.flywheel (h : RunParts s) {x : Fin 6} (hd : s.flywheelDue x = true) :
    RunParts (s.flywheel x) := by
  have hx : (s.out x).st ≠ .sending := by
    simp only [State.flywheelDue, Bool.and_eq_true, beq_iff_eq] at hd
    obtain ⟨⟨_, hst⟩, _⟩ := hd
    rw [hst]; nofun
  unfold State.flywheel
  dsimp only
  split
  · exact RunParts.raise ((h.modOut x _ rfl).frameStart
      (State.unheld_congr (h.unheld hx) (State.modOut_pools _ _ _)) true) _ _ _ _
  · exact (h.modOut x _ rfl).frameStart (State.unheld_congr (h.unheld hx) (State.modOut_pools _ _ _)) true

theorem State.pulseCheck_st (s : State) (x z : Fin 6) : ((s.pulseCheck x).out z).st = (s.out z).st := by
  unfold State.pulseCheck
  dsimp only
  split
  · rw [State.out_congr (raise_frame _ _ _ _ _ .outs (by decide))]
    exact s.modOut_st x _ rfl z
  · exact s.modOut_st x _ rfl z

theorem RunParts.pulseCheck (h : RunParts s) (x : Fin 6) : RunParts (s.pulseCheck x) := by
  have f := pulseCheck_frame s x
  exact h.of_eq (f .pools (by decide)) (s.pulseCheck_st x) (f .dev (by decide)) (f .windows (by decide))
    (f .su (by decide)) (f .ins (by decide))

theorem RunParts.activeEdge (h : RunParts s) (x : Fin 6) : RunParts (s.activeEdge x) := by
  have rest : (s.out x).st ≠ .sending → s.unheld x := h.unheld
  unfold State.activeEdge
  split
  · exact h
  · next hx =>
    split
    · exact (h.modOut x _ rfl).edgeStart (State.unheld_congr (rest (by rw [hx]; nofun)) rfl)
    · exact h
  · next hx =>
    refine ((h.pulseCheck x).modOut x _ rfl).edgeStart (State.unheld_congr (rest (by rw [hx]; nofun)) ?_)
    exact pulseCheck_frame s x .pools (by decide)
  · split
    · obtain ⟨hc, hu⟩ := (h.pulseCheck x).cutFrame x
      exact hc.edgeStart hu
    · exact h

/-! ### STOP, SETUP entry and frame ends -/

/-- The parts without the device state: in SETUP and LOADING every pool is as SETUP entry left it. -/
theorem RunParts.rest (h : RunParts s) (hd : s.dev = .setup ∨ s.dev = .loading)
    (ht : t.dev = .setup ∨ t.dev = .loading)
    (f : ChangesOnly [.dev, .load, .loadErr, .outcome, .flags, .journal, .requests, .port] s t) : RunParts t where
  sound := fun w => by
    rw [State.pool_congr (f .pools (by decide))]
    refine (h.sound w).mono fun x hx => ?_
    unfold State.live
    rw [State.out_congr (f .outs (by decide))]
    exact hx
  jobs := fun w j e => by
    rw [State.pool_congr (f .pools (by decide))] at e
    rw [State.win_congr (f .windows (by decide))]
    exact h.jobs w j e
  free := fun _ w k => by
    rw [State.pool_congr (f .pools (by decide))]
    exact h.free hd w k
  stopped := fun e => by rcases ht with ht | ht <;> rw [ht] at e <;> cases e
  aimed := by
    rw [f .su (by decide)]
    refine State.aimed_of_ne fun r e => ?_
    obtain ⟨hr, _⟩ := h.aimed r e
    rcases hd with hd | hd <;> rw [hd] at hr <;> cases hr
  heads := fun y w g k hy hg hb => by
    rw [State.inWindow_congr (f .windows (by decide))] at hy
    rw [State.inl_congr (f .ins (by decide))] at hg
    rw [State.pool_congr (f .pools (by decide))]
    exact h.heads y w g k hy hg hb
  tails := fun y g hg => by
    rw [State.inl_congr (f .ins (by decide))] at hg
    exact h.tails y g hg

/-- SETUP entry from STOPPING frees every buffer (R25). -/
theorem RunParts.setupEntry (h : RunParts s) (hd : s.dev = .stopping) (hj : ∀ w, (s.pool w).job = none) :
    RunParts s.setupEntry := by
  have f := setupEntry_frame s
  have job : ∀ w, (s.setupEntry.pool w).job = none := fun w => by
    rw [State.setupEntry_pool]; exact hj w
  refine ⟨fun w => ?_, fun w j e => ?_, fun _ w k => ?_, fun e => ?_, ?_, fun y w g k hy hg hb => ?_,
    fun y g hg => ?_⟩
  · rw [State.setupEntry_pool]
    exact (h.sound w).teardown (h.stopped hd w) (hj w)
  · rw [job] at e; cases e
  · rw [State.setupEntry_pool]
    exact Pool.teardown_free (h.stopped hd w k)
  · rw [State.setupEntry_dev] at e; cases e
  · rw [f .su (by decide)]
    refine State.aimed_of_ne fun r e => ?_
    obtain ⟨hr, _⟩ := h.aimed r e
    rw [hd] at hr; cases hr
  · rw [State.inWindow_congr (f .windows (by decide))] at hy
    rw [State.inl_congr (f .ins (by decide))] at hg
    exact absurd (h.heads y w g k hy hg hb) (h.stopped hd w k).1
  · rw [State.inl_congr (f .ins (by decide))] at hg
    exact h.tails y g hg

/-- The blocks' work at a STOP taken in RUN (R25, R174). -/
theorem RunParts.stopBlocks (h : RunParts s) (hsu : s.su = .free) : RunParts s.stopBlocks := by
  have f := stopBlocks_frame s
  have frames : ∀ y, (s.stopBlocks.inl y).frames = [] := fun y => (s.stopBlocks_rest.2 y).2
  refine ⟨fun w => ?_, fun w j e => ?_, fun e => ?_, fun _ w k => ?_, ?_, fun y w g k _ hg _ => ?_,
    fun y g hg => ?_⟩
  · rw [State.stopBlocks_pool]
    refine (h.sound w).stopRun.mono fun x hx => ?_
    unfold State.live
    rw [State.stopBlocks_out, OutLane.stop_st]
    exact if_pos hx
  · rw [s.stopBlocks_rest.1] at e; cases e
  · rw [State.stopBlocks_dev] at e
    rcases e with e | e <;> cases e
  · rw [State.stopBlocks_pool]
    exact (s.pool w).stop_st k
  · rw [f .su (by decide)]
    exact State.aimed_of_ne fun r e => by rw [hsu] at e; cases e
  · rw [frames] at hg; cases hg
  · rw [frames] at hg; cases hg

theorem RunParts.stop (h : RunParts s) (hsu : s.su = .free) : RunParts s.stop := by
  have outcome : RunParts { s with outcome := .done } := h.of_eq rfl (fun _ => rfl) rfl rfl rfl rfl
  rcases s.stop_cases with ⟨_, e⟩ | ⟨hd, e⟩ | ⟨_, e⟩ <;> rw [e]
  · have hb := outcome.stopBlocks hsu
    rcases State.stopRun_cases { s with outcome := .done } with ⟨_, e⟩ | ⟨_, e⟩ <;> rw [e]
    · exact hb.setupEntry (State.stopBlocks_dev _) (State.stopBlocks_rest _).1
    · exact hb
  · have f := stopLoad_frame { s with outcome := .done }
    exact outcome.rest (.inr hd) (.inl (raiseStopped_frame _ _ _ .dev (by decide))) (f.mono (by decide))
  · exact outcome

/-- A lane that reaches IDLE in STOPPING leaves the sending set, and the last one brings SETUP (R174). -/
theorem RunParts.laneIdle (h : RunParts s) (x : Fin 6) (hd : s.dev = .stopping)
    (hj : ∀ w, (s.pool w).job = none) : RunParts (s.laneIdle x) := by
  have h' : RunParts { s with sending := s.sending.set x false } := h.of_eq rfl (fun _ => rfl) rfl rfl rfl rfl
  rcases s.laneIdle_cases x with ⟨_, e⟩ | ⟨_, e⟩ <;> rw [e]
  · exact h'.setupEntry hd hj
  · exact h'

theorem RunParts.frameEnd (h : RunParts s) (x : Fin 6) (hj : s.dev ≠ .run → ∀ w, (s.pool w).job = none) :
    RunParts (s.frameEnd x) := by
  rcases s.frameEnd_cases x with ⟨_, e⟩ | ⟨hd, e⟩ <;> rw [e]
  · exact h.releaseLane x _
  · refine (h.releaseLane x fun l => { l.closeFrame with st := .idle }).laneIdle x
      ((releaseLane_frame s x .dev (by decide)).trans hd) fun w => ?_
    rw [State.pool_congr (State.modOut_pools _ _ _), State.releaseLane_job]
    exact hj (by rw [hd]; nofun) w

/-! ### START, the load and RUN entry -/

theorem RunParts.start (h : RunParts s) : RunParts s.start := by
  unfold State.start
  split
  · next hd =>
    refine RunParts.inert (h.rest (t := { s with outcome := .done, dev := .loading, load := some LoadJob.fresh })
      (.inl hd) (.inr rfl) ?_) ((join_frame _ _).mono (by decide))
    intro g hg
    cases g <;> first | exact absurd (by decide) hg | rfl
  · exact h.of_eq rfl (fun _ => rfl) rfl rfl rfl rfl

theorem State.entered_inl (s : State) (im : Image) (y : Fin 2) : ((s.entered im).inl y).frames = [] := by
  unfold State.entered State.startBlocks
  rw [State.inl_congr (startJournal_frame _ .ins (by decide))]
  change ((Vector.ofFn _)[y] : InLane).frames = []
  rw [Fin.getElem_fin, Vector.getElem_ofFn]
  unfold InLane.start
  split <;> rfl

/-- Every block's START values in RUN entry (R172). -/
theorem RunParts.entered (h : RunParts s) (hd : s.dev = .loading) (im : Image) : RunParts (s.entered im) := by
  have f : ChangesOnly [.dev, .load, .loadErr, .header, .windows, .lanes, .entries, .startInstant,
      .startReached, .sending, .pools, .groups, .outs, .entryState, .ins, .journal, .requests, .port, .copyPtr]
      s (s.entered im) :=
    (adopt_frame s im).andThen (startBlocks_frame (s.adopt im))
  refine ⟨fun w => ?_, fun w j e => ?_, fun e => ?_, fun e => ?_, ?_, fun y w g k _ hg _ => ?_, fun y g hg => ?_⟩
  · obtain ⟨d, e⟩ := s.entered_pool im w
    rw [e]
    exact Pool.sound_start _ _ _
  · obtain ⟨d, ed⟩ := s.entered_pool im w
    rw [ed, Pool.start_job] at e
    cases e
  · rw [State.entered_dev] at e
    rcases e with e | e <;> cases e
  · rw [State.entered_dev] at e; cases e
  · rw [f .su (by decide)]
    refine State.aimed_of_ne fun r e => ?_
    obtain ⟨hr, _⟩ := h.aimed r e
    rw [hd] at hr; cases hr
  · rw [State.entered_inl] at hg; cases hg
  · rw [State.entered_inl] at hg; cases hg

theorem RunParts.loadWord (h : RunParts s) (hl : s.load.isSome = true → s.dev = .loading) (v : Word) :
    RunParts (s.loadWord v) := by
  rcases s.loadWord_cases v with ⟨_, e⟩ | ⟨j, hj, hc⟩
  · rw [e]; exact h
  · have hd : s.dev = .loading := hl (by rw [hj]; rfl)
    rcases hc with ⟨j', n, e⟩ | ⟨e', e⟩ | ⟨im, e⟩ <;> rw [e]
    · refine RunParts.inert (h.of_eq (t := { s with load := some j' }) rfl (fun _ => rfl) rfl rfl rfl rfl) ?_
      exact (join_frame _ _).mono (by decide)
    · exact h.rest (.inr hd) (.inl (raise_frame _ _ _ _ _ .dev (by decide)))
        ((loadFailed_frame s e').mono (by decide))
    · exact runEntry_keeps (fun h f => h.inert f) (fun x h hm => h.masterStart hm) (h.entered hd im)

/-- The pin reset (R52, R163). -/
theorem runParts_pinReset (s : State) : RunParts s.pinReset := by
  have pool : ∀ w, s.pinReset.pool w = Pool.zero := s.pinReset_pool
  have frames : ∀ y, (s.pinReset.inl y).frames = [] := fun y => by
    change ((Vector.replicate 2 InLane.zero)[y]).frames = []
    simp [InLane.zero]
  refine ⟨fun w => ?_, fun w j e => ?_, fun _ w k => ?_, nofun, State.aimed_of_ne nofun, fun y w g k _ hg _ => ?_,
    fun y g hg => ?_⟩
  · rw [pool]; exact Pool.sound_zero
  · rw [pool] at e; cases e
  · rw [pool, Pool.zero_bufs]; rfl
  · rw [frames] at hg; cases hg
  · rw [frames] at hg; cases hg

/-! ### Every step -/

/-- An operation of an inbound lane: in RUN the parts are kept by it, and outside RUN it does nothing. -/
theorem RunParts.inbound (h : RunParts s) (hd : DeviceLaw s) {y : Fin 2}
    (run : s.dev = .run → t.dev = .run ∧ RunParts t)
    (rest : (s.inl y).st = .idle → (s.inl y).frames = [] → t = s) : RunParts t := by
  by_cases hr : s.dev = .run
  · exact (run hr).2
  · obtain ⟨_, _, _, _, ins⟩ := hd
    obtain ⟨hst, hfr⟩ := ins hr y
    rw [rest hst hfr]; exact h

theorem Pool.moveView_st (p : Pool) (k : Fin 8) :
    p.moveView.bufs[k].st = p.bufs[k].st ∨ p.moveView.bufs[k].st = .free := by
  have h := p.release_bufs_st .view k
  unfold Pool.moveView
  split
  · rw [Pool.bufs_modBuf]
    split
    · next e => subst e; exact h
    · exact h
  · exact h

/-- Every operation keeps the parts, next to the device law. -/
theorem runParts_kept : KeptByEvents fun s => RunParts s ∧ DeviceLaw s where
  inert h f := ⟨h.1.inert f, deviceLaw_kept.inert h.2 f⟩
  setSu u h ha := ⟨{ h.1 with aimed := ha }, deviceLaw_kept.setSu u h.2 ha⟩
  mark {s} r be h hsu := by
    obtain ⟨hp, hd⟩ := h
    obtain ⟨_, _, hk⟩ := hp.aimed r hsu
    refine ⟨?_, deviceLaw_kept.mark r be hd hsu⟩
    exact { hp.mark r.w (.inl hk) r.i be with aimed := State.aimed_of_ne fun _ e => by cases e }
  close w x h hsu hst := ⟨h.1.decideClose w x hsu hst, deviceLaw_kept.close w x h.2 hsu hst⟩
  start h := ⟨h.1.start, deviceLaw_kept.start h.2⟩
  stop h hsu := ⟨h.1.stop hsu, deviceLaw_kept.stop h.2 hsu⟩
  view {s} w h := ⟨h.1.modPool w _ (h.1.sound w).moveView (Pool.steady_moveView _).onward fun _ k =>
    Pool.moveView_st _ k, deviceLaw_kept.view w h.2⟩
  expire w h := ⟨RunParts.raise (h.1.modRecord w _ rfl rfl) _ _ _ _, deviceLaw_kept.expire w h.2⟩
  slots h f ho := ⟨h.1.of_eq (f .pools (by decide)) ho (f .dev (by decide)) (f .windows (by decide))
    (f .su (by decide)) (f .ins (by decide)), deviceLaw_kept.slots h.2 f ho⟩
  copyRead {s} w v h := by
    refine ⟨?_, deviceLaw_kept.copyRead w v h.2⟩
    by_cases hr : s.dev = .run
    · exact h.1.copyRead hr w v
    · unfold State.copyRead
      rw [h.2.2.1 hr w]
      exact h.1
  copyWrite {s} w be h := by
    refine ⟨?_, deviceLaw_kept.copyWrite w be h.2⟩
    by_cases hr : s.dev = .run
    · exact h.1.copyWrite hr w be
    · unfold State.copyWrite
      rw [h.2.2.1 hr w]
      exact h.1
  loadWord v h := ⟨h.1.loadWord h.2.1.1 v, deviceLaw_kept.loadWord v h.2⟩
  masterStart x h hd := ⟨h.1.masterStart hd, deviceLaw_kept.masterStart x h.2 hd⟩
  activeEdge x h := ⟨h.1.activeEdge x, deviceLaw_kept.activeEdge x h.2⟩
  flywheel x h hd := ⟨h.1.flywheel hd, deviceLaw_kept.flywheel x h.2 hd⟩
  frameEnd x h hx := ⟨h.1.frameEnd x h.2.2.1, deviceLaw_kept.frameEnd x h.2 hx⟩
  inEdge {s} y h := ⟨h.1.inbound h.2 (y := y) (fun hr => runParts_keptByFrames.inActiveEdge ⟨hr, h.1⟩ y)
    fun hst _ => by unfold State.inActiveEdge; rw [hst], deviceLaw_kept.inEdge y h.2⟩
  inH0 {s} y v h := ⟨h.1.inbound h.2 (y := y) (fun hr => runParts_keptByFrames.inH0 ⟨hr, h.1⟩ y v)
    fun hst _ => by unfold State.inH0; simp [InLane.expects_idle hst, hst], deviceLaw_kept.inH0 y v h.2⟩
  inH1 {s} y v h := ⟨h.1.inbound h.2 (y := y) (fun hr => runParts_keptByFrames.inH1 ⟨hr, h.1⟩ y v)
    fun hst _ => by unfold State.inH1; simp [InLane.expects_idle hst], deviceLaw_kept.inH1 y v h.2⟩
  inData {s} y v h := ⟨h.1.inbound h.2 (y := y) (fun hr => runParts_keptByFrames.inData ⟨hr, h.1⟩ y v)
    fun hst _ => by unfold State.inData State.dataExpected; rw [hst], deviceLaw_kept.inData y v h.2⟩
  inCrc {s} y v h := ⟨h.1.inbound h.2 (y := y) (fun hr => runParts_keptByFrames.inCrc ⟨hr, h.1⟩ y v)
    fun hst _ => by unfold State.inCrc; simp [InLane.expects_idle hst], deviceLaw_kept.inCrc y v h.2⟩
  halfWritten {s} y h := ⟨h.1.inbound h.2 (y := y) (fun hr => runParts_keptByFrames.halfWritten ⟨hr, h.1⟩ y)
    fun _ hfr => State.halfWritten_rest hfr, deviceLaw_kept.halfWritten y h.2⟩
  pinReset {s} h := ⟨runParts_pinReset s, deviceLaw_kept.pinReset h.2⟩

end

/-- Settles O59: the parts of the law, kept by every operation next to the device law. -/
theorem everyStepKeepsTheRunLaw : Obligations.EveryStepKeepsTheRunLaw := fun s t h e =>
  (runLaw_iff t).2 (runParts_kept.step ((runLaw_iff s).1 h) e)

end Sys2Proof.Machine

/-! SUPPORT. What an event does at the arbiter when no grant is due, and payload writes and the treatment of
writes (R3, R4, R53, R54, R59, R65, R66). -/

namespace Sys2Proof.Machine

/-! ### The copy pointer (R77) -/

/-- When no grant is due, an event in which no copy-forward job asks grants no such request. -/
theorem State.arrivals_copyPtr {s u : State} (h : NoGrantDue s) (hp : u.port = none → s.port = none)
    (hr : ∀ r ∈ u.requests, r ∈ s.requests ∨ ∀ w, r.who ≠ .copyJob w) : u.arrivals.copyPtr = u.copyPtr := by
  unfold State.arrivals
  split
  · next r hport hhead =>
    have hs : s.requests = [] := h (hp hport)
    have hn : ∀ w, r.who ≠ .copyJob w :=
      (hr r (List.mem_of_mem_head? hhead)).resolve_left (by rw [hs]; exact List.not_mem_nil)
    unfold State.grant
    dsimp only
    split
    · next w e => exact absurd e (hn w)
    · rfl
  · rfl

/-- A frame loses an item that is shown to be unchanged. -/
theorem ChangesOnly.drop {l : List Item} {s t : State} {i : Item} (f : ChangesOnly (i :: l) s t)
    (e : s.sameAt t i) : ChangesOnly l s t := fun g hg => by
  by_cases h : g = i
  · rw [h]; exact e
  · exact f g (by simp [h, hg])

theorem State.handWrite_copyPtr {s : State} (h : NoGrantDue s) (x : HostWrite) (a : MemAdr)
    (m : Option PayloadRef) : (s.handWrite x a m).copyPtr = s.copyPtr := by
  unfold State.handWrite
  refine State.arrivals_copyPtr h (fun e => e) fun r hr => ?_
  rcases List.mem_append.1 hr with hr | hr
  · exact .inl hr
  · rw [List.mem_singleton.1 hr]
    exact .inr fun _ e => by cases e

/-! ### Payload writes (R59) -/

theorem AtHead.headWrite {s : State} {x : HostWrite} (h : AtHead s x) : s.headWrite = some x := by
  obtain ⟨hr, hsu, hq⟩ := h
  simp [State.headWrite, hr, hsu, hq]

theorem NoGrantDue.takeHead {s : State} (h : NoGrantDue s) : NoGrantDue s.takeHead :=
  h.of_eq (takeHead_frame s .port (by decide)) (takeHead_frame s .requests (by decide))

/-- Requests are told from the port and the list. -/
theorem Requested.of_eq {s s' t : State} {r : Request} (h : Requested s' t r) (hp : s'.port = s.port)
    (hr : s'.requests = s.requests) : Requested s t r := by
  unfold Requested at h ⊢
  rw [hp, hr] at h
  exact h

/-- SU takes the write at the head and hands it to the arbiter (R50, R73). -/
theorem State.takeHead_handWrite {s : State} (h : NoGrantDue s) (x : HostWrite) (a : MemAdr)
    (m : Option PayloadRef) :
    HeadTaken s (s.takeHead.handWrite x a m) ∧ (s.takeHead.handWrite x a m).su = .writing m ∧
      Requested s (s.takeHead.handWrite x a m)
        { who := .host, write := true, adr := a, be := x.be, data := x.data, urgent := false } ∧
      ChangesOnly [.queue, .waiting, .su, .requests, .port] s (s.takeHead.handWrite x a m) := by
  have f := takeHead_frame s
  have g := handWrite_frame s.takeHead x a m
  obtain ⟨hsu, hreq⟩ := s.takeHead.handWrite_spec (x := x) (a := a) (m := m) h.takeHead
  refine ⟨s.takeHead_taken.of_eq (g .queue (by decide)) (g .waiting (by decide)), hsu,
    hreq.of_eq (f .port (by decide)) (f .requests (by decide)), ?_⟩
  refine ChangesOnly.drop (i := .copyPtr) (f.andThen g) ?_
  exact (State.handWrite_copyPtr h.takeHead x a m).trans (f .copyPtr (by decide))

/-- In RUN and STOPPING a write into a window is treated by its part (R53). -/
theorem State.treatment_of_window {s : State} {x : HostWrite} {w : Fin 16} (hd : s.dev = .run ∨ s.dev = .stopping)
    (hc : s.controlWord x.adr = none) (hw : s.windowAt x.adr = some w) :
    s.treatment x = s.windowWrite w x.adr := by
  have hs : s.steering = true := by simpa [State.steering] using hd
  unfold State.treatment
  rw [hc, hw]
  simp only [hs, if_true]

theorem State.treatment_steered {s : State} {x : HostWrite} {w : Fin 16} {i : Nat} (hd : s.dev = .run)
    (hc : s.controlWord x.adr = none) (hw : s.windowAt x.adr = some w) (hh : (s.win w).writer = .host)
    (hp : s.partAt w x.adr = .payload i) : s.treatment x = .steered w i := by
  rw [State.treatment_of_window (.inl hd) hc hw, State.windowWrite, hp]
  simp [hh, hd]

/-- Settles O4: the write is steered to the FILLING buffer's word. -/
theorem payloadWriteGoesToTheFillingBuffer : Obligations.PayloadWriteGoesToTheFillingBuffer := by
  intro s x w i hx hn hd hc hw hh hp
  have ht := State.treatment_steered hd hc hw hh hp
  have e : exec .payloadWriteSteered s = execPayloadWriteSteered s := rfl
  rw [e, execPayloadWriteSteered, hx.headWrite]
  simp only [ht]
  refine ⟨fun k hk => ?_, fun hk => by rw [hk]⟩
  rw [hk]
  exact ⟨_, rfl, State.takeHead_handWrite hn x _ _⟩

/-! ### Windows, parts and protected ranges (R3, R4, R54) -/

/-- The first number of a finite range for which a test holds. -/
theorem find_finRange {n : Nat} (p : Fin n → Bool) (k : Fin n) :
    (List.finRange n).find? p = some k ↔ p k = true ∧ ∀ j : Fin n, j < k → p j = false := by
  rw [List.find?_eq_some_iff_getElem]
  simp only [List.getElem_finRange, Bool.not_eq_true', Fin.cast_mk]
  constructor
  · rintro ⟨hk, i, hi, rfl, before⟩
    exact ⟨hk, fun j hj => before j.val hj⟩
  · rintro ⟨hk, before⟩
    exact ⟨hk, k.val, by simp, rfl, fun j hj => before ⟨j, hj.trans k.isLt⟩ hj⟩

theorem allWindows_eq : allWindows = List.finRange 16 := by decide

theorem allBufs_eq : allBufs = List.finRange 8 := by decide

theorem within_iff (a lo n : Nat) : within a lo n = true ↔ InRange a lo n := by
  simp [within, InRange]

/-- The first enabled window one of whose ranges holds the address (R3, R54). -/
theorem find_enabled_within (s : State) (a : Nat) (lo n : Fin 16 → Nat) (w : Fin 16) :
    (allWindows.find? fun v => (s.win v).enabled && within a (lo v) (n v)) = some w ↔
      (s.win w).enabled = true ∧ InRange a (lo w) (n w) ∧
        ∀ v : Fin 16, v < w → (s.win v).enabled = true → ¬ InRange a (lo v) (n v) := by
  rw [allWindows_eq, find_finRange, Bool.and_eq_true, within_iff, and_assoc]
  refine and_congr_right fun _ => and_congr_right fun _ => forall_congr' fun v => imp_congr_right fun _ => ?_
  rw [← within_iff, Bool.and_eq_false_iff]
  cases (s.win v).enabled <;> simp

theorem State.windowAt_iff (s : State) (a : HostAdr) (w : Fin 16) : s.windowAt a = some w ↔
    (s.win w).enabled = true ∧ InRange (HostAdr.byte a) (s.win w).logicalBase (s.win w).size ∧
      ∀ v : Fin 16, v < w → (s.win v).enabled = true →
        ¬ InRange (HostAdr.byte a) (s.win v).logicalBase (s.win v).size := find_enabled_within s _ _ _ w

theorem State.neutralAt_iff (s : State) (a : HostAdr) (w : Fin 16) : s.neutralAt a = some w ↔
    (s.win w).enabled = true ∧
      InRange (HostAdr.byte a) (s.win w).neutralAddress (4 * (s.win w).payloadLength) ∧
      ∀ v : Fin 16, v < w → (s.win v).enabled = true →
        ¬ InRange (HostAdr.byte a) (s.win v).neutralAddress (4 * (s.win v).payloadLength) :=
  find_enabled_within s _ _ _ w

/-- The part a window offset names (R4). -/
theorem WindowRec.part_payload (r : WindowRec) (i : Nat) :
    r.part (8 + 4 * i) = if i < r.payloadLength then .payload i else .outside := by
  have h0 : 8 + 4 * i ≠ 0 := by omega
  have h4 : 8 + 4 * i ≠ 4 := by omega
  have hi : (8 + 4 * i - 8) / 4 = i := by omega
  have hl : 8 + 4 * i < 8 + 4 * r.payloadLength ↔ i < r.payloadLength := by omega
  unfold WindowRec.part
  simp only [h0, h4, if_false, hi, hl]

theorem State.partAt_of_offset {s : State} {a : HostAdr} {w : Fin 16} {off : Nat}
    (h : HostAdr.byte a = (s.win w).logicalBase + off) : s.partAt w a = (s.win w).part off := by
  unfold State.partAt
  rw [h, Nat.add_sub_cancel_left]

/-- Outside the windows a write is treated by the protected ranges (R54, R66). -/
theorem State.treatment_of_outside {s : State} {x : HostWrite} (hd : s.dev = .run ∨ s.dev = .stopping)
    (hc : s.controlWord x.adr = none) (hw : s.windowAt x.adr = none) :
    (∀ r src, s.protectedAt x.adr = some (r, src) → s.treatment x = .refused r src) ∧
      (s.protectedAt x.adr = none → s.treatment x = .passThrough) := by
  have hs : s.steering = true := by simpa [State.steering] using hd
  unfold State.treatment
  rw [hc, hw]
  simp only [hs, if_true]
  exact ⟨fun r src e => by rw [e], fun e => by rw [e]⟩

section
variable {s : State} {a : HostAdr}

theorem State.protectedAt_image (s : State) (a : HostAdr)
    (hi : InRange (HostAdr.byte a) (s.base + 0x100) (4 * s.header.imageLength)) :
    s.protectedAt a = some (.profileImage, none) := by
  unfold State.protectedAt
  rw [if_pos ((within_iff _ _ _).2 hi)]

theorem State.protectedAt_neutral
    (hi : ¬ InRange (HostAdr.byte a) (s.base + 0x100) (4 * s.header.imageLength)) (v : Fin 16)
    (hv : s.neutralAt a = some v) : s.protectedAt a = some (.neutralRecord, some v.val) := by
  unfold State.protectedAt
  rw [if_neg (mt (within_iff _ _ _).1 hi), hv]

/-- The ring is protected while the journal is in use (R66). -/
theorem State.protectedAt_ring
    (hi : ¬ InRange (HostAdr.byte a) (s.base + 0x100) (4 * s.header.imageLength)) (hv : s.neutralAt a = none) :
    ((s.header.mode = .continuous ∨ s.header.mode = .triggered) ∧
        InRange (HostAdr.byte a) s.header.ringAddr (16 * s.header.capacity) →
      s.protectedAt a = some (.journalRing, none)) ∧
    (¬ ((s.header.mode = .continuous ∨ s.header.mode = .triggered) ∧
        InRange (HostAdr.byte a) s.header.ringAddr (16 * s.header.capacity)) → s.protectedAt a = none) := by
  unfold State.protectedAt
  rw [if_neg (mt (within_iff _ _ _).1 hi), hv, ← within_iff]
  exact ⟨fun h => if_pos h, fun h => if_neg h⟩

end

/-- Settles O6, part by part and range by range. -/
theorem writeTreatmentInRunAndStopping : Obligations.WriteTreatmentInRunAndStopping := by
  refine ⟨fun r => rfl, fun s a w => ⟨s.windowAt_iff a w, s.neutralAt_iff a w, fun h => ?_, fun h => ?_,
    fun i h => ?_⟩, fun s x hd hc => ⟨fun w hw => ?_, fun hw => ?_⟩⟩
  · rw [State.partAt_of_offset (off := 0) h]; rfl
  · rw [State.partAt_of_offset (off := 4) h]; rfl
  · rw [State.partAt_of_offset (off := 8 + 4 * i) (by rw [h]; omega), WindowRec.part_payload]
  · rw [State.treatment_of_window hd hc hw, State.windowWrite]
    refine ⟨fun h => by rw [h], fun h => by rw [h], fun h => by rw [h], fun i h => ?_⟩
    rw [h]
    refine ⟨fun hh => if_pos hh, fun hh hs => ?_, fun hh hr => ?_⟩
    · simp [hh, hs]
    · simp [hh, hr]
  · obtain ⟨refused, free⟩ := State.treatment_of_outside hd hc hw
    have image := State.protectedAt_image s x.adr
    have neutral := fun hi => State.protectedAt_neutral (s := s) (a := x.adr) hi
    refine ⟨fun hi => refused _ _ (image hi), fun hi => ⟨fun v hv => refused _ _ (neutral hi v hv), fun hv => ?_⟩⟩
    obtain ⟨ring, none⟩ := State.protectedAt_ring hi hv
    exact ⟨fun hj => refused _ _ (ring hj), fun hj => free (none hj)⟩

end Sys2Proof.Machine

/-! SUPPORT. Commits and closes (R21, R34–R36, R40). -/

namespace Sys2Proof.Machine

/-! ### Maps (R30, R36) -/

theorem WMap.full_iff (m : WMap) (n : Nat) : m.full n = true ↔ ∀ i, i < n → m.get i = 0xF := by
  simp [WMap.full]

theorem WMap.full_false_iff (m : WMap) (n : Nat) : m.full n = false ↔ ∃ i, i < n ∧ m.get i ≠ 0xF := by
  rw [← Bool.not_eq_true, WMap.full_iff]
  simp

/-- The next gap is the first word from `i` on that is not fully written. -/
theorem WMap.gap_some_iff (m : WMap) (n i j : Nat) : m.gap n i = some j ↔
    i ≤ j ∧ j < n ∧ m.get j ≠ 0xF ∧ ∀ h, i ≤ h → h < j → m.get h = 0xF := by
  unfold WMap.gap
  rw [List.find?_range_eq_some]
  simp only [Bool.and_eq_true, decide_eq_true_eq, bne_iff_ne, List.mem_range, Bool.not_eq_true',
    Bool.and_eq_false_iff, decide_eq_false_iff_not, bne_eq_false_iff_eq]
  constructor
  · rintro ⟨⟨hi, hg⟩, hn, before⟩
    exact ⟨hi, hn, hg, fun h hh hj => (before h hj).resolve_left fun c => c hh⟩
  · rintro ⟨hi, hn, hg, before⟩
    exact ⟨⟨hi, hg⟩, hn, fun h hj => (Nat.lt_or_ge h i).imp Nat.not_le.2 fun hh => before h hh hj⟩

theorem WMap.gap_none_iff (m : WMap) (n i : Nat) : m.gap n i = none ↔
    ∀ j, i ≤ j → j < n → m.get j = 0xF := by
  unfold WMap.gap
  rw [List.find?_eq_none]
  simp only [List.mem_range, Bool.and_eq_true, decide_eq_true_eq, bne_iff_ne, not_and, not_not]
  exact ⟨fun h j hi hn => h j hn hi, fun h j hn hi => h j hi hn⟩

/-! ### What a commit leaves -/

/-- A commit leaves the rest of the pool record. -/
theorem Pool.commit_rest (p : Pool) (k : Fin 8) (seq : Half) (time : Word) (source : Option (Fin 8)) :
    (p.commit k seq time source).expected = p.expected ∧
      (p.commit k seq time source).nextInbound = p.nextInbound ∧
      (p.commit k seq time source).lastOutcome = p.lastOutcome := by
  unfold Pool.commit
  cases source <;> cases p.find .ready <;> dsimp only <;> try split
  all_goals exact ⟨rfl, rfl, rfl⟩

section
variable (s : State) (w : Fin 16) (k : Fin 8) (seq : Half) (time : Word) (source : Option (Fin 8))
  (copied : Nat)

theorem State.commit_others : OtherPools w s (s.commit w k seq time source copied) := fun v hv => by
  rw [State.commit_pool, if_neg hv]

theorem State.commit_bufs :
    ((s.commit w k seq time source copied).pool w).bufs = ((s.pool w).commit k seq time source).bufs := by
  rw [State.commit_pool, if_pos rfl]

/-- The pool record after a commit, but for the run record and the staleness marks. -/
theorem State.commit_rest :
    ((s.commit w k seq time source copied).pool w).expected = (s.pool w).expected ∧
      ((s.commit w k seq time source copied).pool w).nextInbound = (s.pool w).nextInbound ∧
      ((s.commit w k seq time source copied).pool w).lastOutcome = (s.pool w).lastOutcome ∧
      ((s.commit w k seq time source copied).pool w).job = (s.pool w).job := by
  rw [State.commit_pool, if_pos rfl]
  obtain ⟨he, hn, ho⟩ := (s.pool w).commit_rest k seq time source
  exact ⟨he, hn, ho, Pool.commit_job _ _ _ _ _⟩

/-- At the arbiter a commit does no more than JW's request. -/
theorem State.commit_onlyRequestsOf (q : Requester) :
    OnlyRequestsOf q s (s.commit w k seq time source copied) := by
  have resumed : ∀ (l : List (Fin 16)) (b t u : State), OnlyRequestsOf q t u →
      OnlyRequestsOf q t (l.foldl (fun u v =>
        if s.cueState v = .stale ∧ b.cueState v = .live then
          u.raise .resumed (some v.val) ((b.pool v).lastSeq.setWidth 32) (num w.val)
        else u) u) := fun l b t => by
    induction l with
    | nil => exact fun _ h => h
    | cons v l ih =>
      intro u h
      refine ih _ ?_
      dsimp only
      split
      · exact h.trans (State.raise_onlyRequestsOf _ _ _ _ _ _)
      · exact h
  unfold State.commit State.raiseResumed
  refine OnlyRequestsOf.trans ?_ (State.offer_onlyRequestsOf _ _ _)
  exact resumed allWindows ((s.modPool w fun p => p.commit k seq time source).noticeRecord w) s _ (.of_eq rfl rfl)

end

/-! ### The close command (R31–R35) -/

theorem State.takeHead_eq (s : State) : ∃ q v, s.takeHead = { s with queue := q, waiting := v } := by
  unfold State.takeHead
  split
  · exact ⟨_, _, rfl⟩
  · exact ⟨_, s.waiting, rfl⟩

theorem State.closeRequest_next {s : State} {x : HostWrite} {w : Fin 16} (hx : AtHead s x)
    (ht : s.treatment x = .close w) :
    exec .closeRequest s = .next (s.takeHead.decideClose w x).arrivals := by
  have e : exec .closeRequest s = execCloseRequest s := rfl
  rw [e, execCloseRequest, hx.headWrite]
  simp only [ht]

theorem State.decideClose_accepted {s : State} {w : Fin 16} {x : HostWrite} {k0 k1 : Fin 8}
    (ho : s.closeOutcome w x = .accepted) (hk0 : (s.pool w).find .filling = some k0)
    (hk1 : s.freeBuffer w = some k1) : s.decideClose w x =
      if s.fillingFull w then
        (s.acceptClose w k0 k1 (closeSeq x)).commit w k0 (closeSeq x) s.timeBase none 0
      else (s.acceptClose w k0 k1 (closeSeq x)).startJob w k0 (closeSeq x) s.timeBase := by
  unfold State.decideClose
  rw [ho, hk0, hk1]

/-- The lowest-numbered FREE buffer of the pool (R20). -/
theorem State.freeBuffer_iff (s : State) (w : Fin 16) (k : Fin 8) : s.freeBuffer w = some k ↔
    (k.val < (s.win w).bufferCount ∧ (s.pool w).bufs[k].st = .free) ∧
      ∀ d : Fin 8, d < k → ¬ (d.val < (s.win w).bufferCount ∧ (s.pool w).bufs[d].st = .free) := by
  unfold State.freeBuffer
  rw [allBufs_eq, find_finRange]
  simp

theorem State.fillingFull_of_find {s : State} {w : Fin 16} {k : Fin 8}
    (h : (s.pool w).find .filling = some k) :
    s.fillingFull w = ((s.pool w).bufs[k].map).full (s.win w).payloadLength := by
  unfold State.fillingFull
  rw [h]

theorem State.raised_congr {s t : State} (h : t.flags = s.flags) (k : Kind) : t.raised k = s.raised k := by
  unfold State.raised
  rw [h]

theorem State.arrivals_pool (s : State) (w : Fin 16) : s.arrivals.pool w = s.pool w :=
  State.pool_congr (arrivals_frame s .pools (by decide)) w

theorem Buffer.allocated_eq : Buffer.allocated =
    { st := .filling, holders := HolderSet.empty, seq := 0, time := 0, map := [] } := rfl

/-- The record of an accepted close (R34). -/
theorem State.acceptClose_pool (s : State) (w : Fin 16) (k0 k1 : Fin 8) (seq : Half) (v : Fin 16) :
    (s.acceptClose w k0 k1 seq).pool v = if v = w then (s.pool w).accept k0 k1 seq s.timeBase else s.pool v := by
  rw [State.acceptClose_eq, State.pool_modPool]

/-- The buffers after the commit of an accepted close. -/
theorem Pool.accept_commit_bufs {p : Pool} {k0 k1 : Fin 8} (h0 : p.bufs[k0].st = .filling)
    (h1 : p.bufs[k1].st = .free) (seq : Half) (now : Word) :
    ((p.accept k0 k1 seq now).commit k0 seq now none).bufs[k0] =
        { st := .ready, holders := HolderSet.empty, seq := seq, time := now, map := [] } ∧
      ((p.accept k0 k1 seq now).commit k0 seq now none).bufs[k1] = Buffer.allocated ∧
      ∀ k : Fin 8, k ≠ k0 → k ≠ k1 → ((p.accept k0 k1 seq now).commit k0 seq now none).bufs[k] =
        if p.find .ready = some k then p.bufs[k].supersede else p.bufs[k] := by
  have hne := Pool.closed_ne_allocated h0 h1
  obtain ⟨closed, others⟩ := (p.accept k0 k1 seq now).commit_bufs k0 seq now none
  have find := Pool.accept_find_ready h0 h1 seq now
  have bufs := fun k => Pool.accept_bufs h0 h1 seq now k
  refine ⟨closed, ?_, fun k e0 e1 => ?_⟩
  · have hr : p.find .ready ≠ some k1 := fun e => by
      have := Pool.find_some e
      rw [h1] at this
      cases this
    rw [others k1 hne.symm, find, if_neg hr, bufs, if_pos rfl]
    rfl
  · rw [others k e0, find, bufs, if_neg e1, if_neg e0]
    simp only [reduceCtorEq, if_false]
    split <;> rfl

/-- The head leaves the queue and the close is accepted: a change of one pool. -/
theorem State.takeHead_acceptClose_pool (s : State) (w : Fin 16) (k0 k1 : Fin 8) (seq : Half) (v : Fin 16) :
    (s.takeHead.acceptClose w k0 k1 seq).pool v =
      if v = w then (s.pool w).accept k0 k1 seq s.timeBase else s.pool v := by
  have f := takeHead_frame s
  rw [State.acceptClose_pool, State.pool_congr (f .pools (by decide)), State.pool_congr (f .pools (by decide)),
    f .timeBase (by decide)]

theorem State.takeHead_acceptClose_frame (s : State) (w : Fin 16) (k0 k1 : Fin 8) (seq : Half) :
    ChangesOnly [.queue, .waiting, .pools] s (s.takeHead.acceptClose w k0 k1 seq) :=
  (takeHead_frame s).andThen (modPool_frame s.takeHead w _)

section
variable {s : State} {x : HostWrite} {w : Fin 16} {k0 k1 : Fin 8}

/-- WU's decision reads neither the queue nor the port of the host. -/
theorem State.takeHead_decideClose (ho : s.closeOutcome w x = .accepted)
    (hk0 : (s.pool w).find .filling = some k0) (hk1 : s.freeBuffer w = some k1) :
    s.takeHead.decideClose w x =
      if s.fillingFull w then
        (s.takeHead.acceptClose w k0 k1 (closeSeq x)).commit w k0 (closeSeq x) s.timeBase none 0
      else (s.takeHead.acceptClose w k0 k1 (closeSeq x)).startJob w k0 (closeSeq x) s.timeBase := by
  obtain ⟨q, v, hu⟩ := s.takeHead_eq
  rw [hu]
  exact State.decideClose_accepted (s := { s with queue := q, waiting := v }) ho hk0 hk1

end

/-- Settles O9: the acceptance, the commit and its notice. -/
theorem fullCloseCommitsAtOnce : Obligations.FullCloseCommitsAtOnce := by
  intro s x w k0 k1 hx hn ht ho hk0 hk1 hfull
  have h0 := Pool.find_some hk0
  have free := (s.freeBuffer_iff w k1).1 hk1
  have h1 := free.1.2
  refine ⟨?_, ⟨free.1.1, h1, fun d hd hf => free.2 d hd ⟨lt_trans hd free.1.1, hf⟩⟩, ?_⟩
  · rw [State.fillingFull_of_find hk0] at hfull
    exact (WMap.full_iff _ _).1 hfull
  rw [State.closeRequest_next hx ht, State.takeHead_decideClose ho hk0 hk1, if_pos hfull]
  have accepted := s.takeHead_acceptClose_pool w k0 k1 (closeSeq x)
  have here := (accepted w).trans (if_pos rfl)
  have fc := s.takeHead_acceptClose_frame w k0 k1 (closeSeq x)
  have taken : HeadTaken s (s.takeHead.acceptClose w k0 k1 (closeSeq x)) := s.takeHead_taken.of_eq rfl rfl
  generalize s.takeHead.acceptClose w k0 k1 (closeSeq x) = c at accepted here fc taken ⊢
  have marks : ∀ z : Fin 16, (c.pool z).committed = (s.pool z).committed ∧
      (c.pool z).ownMark = (s.pool z).ownMark := fun z => by
    rw [accepted]
    split
    · next e => subst e; exact ⟨rfl, rfl⟩
    · exact ⟨rfl, rfl⟩
  obtain ⟨noticed, flags⟩ := State.commit_noticed (s0 := s) (s := c) w k0 (closeSeq x) s.timeBase none 0
    (fc.mono (by decide)) marks (by rw [here]; rfl) (by rw [here]; rfl)
  have asks : OnlyRequestsOf .journal s (c.commit w k0 (closeSeq x) s.timeBase none 0) :=
    (OnlyRequestsOf.of_eq (fc .requests (by decide)) (fc .port (by decide))).trans
      (c.commit_onlyRequestsOf w k0 _ _ none 0 .journal)
  obtain ⟨closed, fresh, others⟩ := Pool.accept_commit_bufs h0 h1 (closeSeq x) s.timeBase
  obtain ⟨expected, inbound, outcome, job⟩ := c.commit_rest w k0 (closeSeq x) s.timeBase none 0
  have bufs := c.commit_bufs w k0 (closeSeq x) s.timeBase none 0
  have otherPools := c.commit_others w k0 (closeSeq x) s.timeBase none 0
  rw [here] at expected inbound outcome job bufs
  have g := commit_frame c w k0 (closeSeq x) s.timeBase none 0
  generalize c.commit w k0 (closeSeq x) s.timeBase none 0 = u at *
  have f : ChangesOnly [.queue, .waiting, .pools, .flags, .journal, .requests] s u := fc.andThen g
  have ga := arrivals_frame u
  have apool := u.arrivals_pool
  have port : u.port = s.port := f .port (by decide)
  refine ⟨_, rfl, ?_, fun z hz => ?_, ?_, ?_, fun k e0 e1 => ?_, ?_, ?_, ?_, ?_, ?_, ?_, ?_, ?_⟩
  · exact taken.of_eq ((ga .queue (by decide)).trans (g .queue (by decide)))
      ((ga .waiting (by decide)).trans (g .waiting (by decide)))
  · rw [apool, otherPools z hz, accepted, if_neg hz]
  · rw [apool, bufs]; exact closed
  · rw [apool, bufs]; exact fresh
  · rw [apool, bufs, others k e0 e1]; rfl
  · rw [apool, expected]; rfl
  · rw [apool, outcome]; rfl
  · rw [apool, inbound]; rfl
  · rw [apool, job]; rfl
  · exact noticed.of_eq (ga .flags (by decide)) (ga .journal (by decide)) (ga .windows (by decide))
      (ga .groups (by decide)) fun z => by rw [apool]; exact ⟨rfl, rfl, rfl, rfl, rfl⟩
  · exact fun k hk => (State.raised_congr (ga .flags (by decide)) k).trans (flags k hk)
  · exact asks.arrivals hn fun e => port.symm.trans e
  · refine ChangesOnly.drop (i := .copyPtr) (f.andThen ga) ?_
    refine (State.arrivals_copyPtr hn (fun e => port.symm.trans e) fun r hr => ?_).trans (f .copyPtr (by decide))
    refine (asks.2.1 r hr).imp_right fun h z e => ?_
    rcases h with h | h <;> rw [h] at e <;> cases e

/-! ### The start of copy-forward (R35, R36) -/

theorem Pool.handOver_rest (p : Pool) (k0 k1 : Fin 8) (seq : Half) (now : Word) :
    p.handOver k0 k1 seq now =
      { p with
        bufs := (p.handOver k0 k1 seq now).bufs
        expected := p.expected + 1
        lastOutcome := .accepted } := by
  unfold Pool.handOver
  split <;> rfl

/-- SEEKING finds the next gap and asks for its source word (R36). -/
theorem State.seek_some {s : State} {w : Fin 16} {j : CopyJob} {i : Nat}
    (h : ((s.pool w).bufs[j.target].map).gap (s.win w).payloadLength j.index = some i) :
    s.seek w j = (s.modPool w fun p => { p with job := some { j with index := i, phase := .reading } }).join
      { who := .copyJob w, write := false, adr := (s.win w).copyAdr j i, be := 0xF, data := 0
        urgent := false } := by
  unfold State.seek
  rw [h]

/-- SEEKING finds no gap, and the job ends (R38). -/
theorem State.seek_none {s : State} {w : Fin 16} {j : CopyJob}
    (h : ((s.pool w).bufs[j.target].map).gap (s.win w).payloadLength j.index = none) :
    s.seek w j = s.endJob w j := by
  unfold State.seek
  rw [h]

/-- The close hands its job over, which begins to seek (R34–R36). -/
theorem State.takeHead_startJob {s : State} {w : Fin 16} {k0 k1 : Fin 8}
    (h0 : (s.pool w).bufs[k0].st = .filling) (h1 : (s.pool w).bufs[k1].st = .free) (seq : Half) :
    (s.takeHead.acceptClose w k0 k1 seq).startJob w k0 seq s.timeBase =
      (s.takeHead.modPool w fun p => p.handOver k0 k1 seq s.timeBase).seek w
        { target := k0, source := (s.pool w).find .ready, seq := seq, time := s.timeBase, index := 0
          phase := .seeking, copied := 0, held := none } := by
  obtain ⟨q, v, hu⟩ := s.takeHead_eq
  rw [hu]
  exact State.startJob_accepted (s := { s with queue := q, waiting := v }) h0 h1 seq

/-- Settles O10: the acceptance, the job and its first request. -/
theorem carryCloseStartsCopyForward : Obligations.CarryCloseStartsCopyForward := by
  intro s x w k0 k1 hx hn ht ho hk0 hk1 hfull
  have h0 := Pool.find_some hk0
  have h1 := ((s.freeBuffer_iff w k1).1 hk1).1.2
  have hne := Pool.closed_ne_allocated h0 h1
  rw [State.fillingFull_of_find hk0] at hfull
  obtain ⟨i, hi⟩ : ∃ i, ((s.pool w).bufs[k0].map).gap (s.win w).payloadLength 0 = some i := by
    obtain ⟨n, hn, hg⟩ := (WMap.full_false_iff _ _).1 hfull
    refine Option.ne_none_iff_exists'.1 fun e => hg ((WMap.gap_none_iff _ _ _).1 e n n.zero_le hn)
  obtain ⟨_, hlen, gap, before⟩ := (WMap.gap_some_iff _ _ _ _).1 hi
  rw [State.closeRequest_next hx ht, State.takeHead_decideClose ho hk0 hk1,
    if_neg (by rw [State.fillingFull_of_find hk0, hfull]; nofun), State.takeHead_startJob h0 h1]
  have f := takeHead_frame s
  have taken := s.takeHead_taken
  generalize s.takeHead = u at f taken ⊢
  have pool : ∀ z, u.pool z = s.pool z := State.pool_congr (f .pools (by decide))
  have win : u.win w = s.win w := State.win_congr (f .windows (by decide)) w
  have bufs := fun k => Pool.handOver_bufs h0 h1 (closeSeq x) s.timeBase k
  have rest := (s.pool w).handOver_rest k0 k1 (closeSeq x) s.timeBase
  have sought : ((u.modPool w fun p => p.handOver k0 k1 (closeSeq x) s.timeBase).pool w).bufs[k0].map.gap
      ((u.modPool w fun p => p.handOver k0 k1 (closeSeq x) s.timeBase).win w).payloadLength 0 = some i := by
    rw [State.pool_modPool, if_pos rfl, pool, bufs, if_neg hne, if_pos rfl]
    rw [show (u.modPool w fun p => p.handOver k0 k1 (closeSeq x) s.timeBase).win w = s.win w from win]
    exact hi
  rw [State.seek_some sought, State.modPool_modPool]
  have asked := fun g => State.requested_join (s := u.modPool w g)
    (hn.of_eq (f .port (by decide)) (f .requests (by decide)))
  have changed := fun g r => ((f.andThen (modPool_frame u w g) (m := [.queue, .waiting, .pools])).andThen
    (join_frame (u.modPool w g) r) (m := [.queue, .waiting, .pools, .requests])).andThen
    (arrivals_frame ((u.modPool w g).join r)) (m := [.queue, .waiting, .pools, .requests, .port, .copyPtr])
  have tpool : ∀ (g : Pool → Pool) (r : Request) (z : Fin 16), ((u.modPool w g).join r).arrivals.pool z =
      if z = w then g (s.pool w) else s.pool z := fun g r z => by
    rw [State.arrivals_pool]
    change (u.modPool w g).pool z = _
    rw [State.pool_modPool, pool, pool]
  have here := fun g r => (tpool g r w).trans (if_pos rfl)
  have others := fun g r z (hz : z ≠ w) => (tpool g r z).trans (if_neg hz)
  have queue := fun g r => taken.of_eq (u := ((u.modPool w g).join r).arrivals)
    (arrivals_frame _ .queue (by decide)) (arrivals_frame _ .waiting (by decide))
  refine ⟨_, i, rfl, queue _ _, others _ _, hlen, gap, fun j hj => before j j.zero_le hj, ?_, ?_,
    fun k e0 e1 => ?_, ?_, ?_, ?_, ?_, ?_, ?_, ?_, ?_, ?_, ?_, changed _ _⟩
  · rw [here]; exact (bufs k0).trans ((if_neg hne).trans (if_pos rfl))
  · rw [here]; exact (bufs k1).trans (if_pos rfl)
  · rw [here]; exact (bufs k).trans ((if_neg e1).trans (if_neg e0))
  · rw [here]; rfl
  · refine Requested.of_eq (s' := u) ?_ (f .port (by decide)) (f .requests (by decide))
    have e : (u.modPool w fun p => p.handOver k0 k1 (closeSeq x) s.timeBase).win w = s.win w := win
    rw [e]
    unfold WindowRec.copyAdr
    cases (s.pool w).find .ready <;> exact asked _ _
  all_goals rw [here]; dsimp only; rw [rest]

end Sys2Proof.Machine

/-! SUPPORT. The performance of copy-forward writes (R36–R38, R73). -/

namespace Sys2Proof.Machine

/-- An access in progress that the step is about is performed, and its requester reacts (R73, R80). -/
theorem State.performance_inProgress {s : State} {r : Request} (h : InProgress s r) {about : Request → Bool}
    (react drop : Request → State → State) (ha : about r = true) :
    s.performance about react drop = .next (react r (s.complete r)).regrant := by
  obtain ⟨hr, hp⟩ := h
  unfold State.performance
  rw [hp]
  simp [hr, ha]

/-- An event that asks for JW alone, at the arbiter. -/
theorem OnlyRequestsOf.keeps {s t : State} (h : ∀ q, OnlyRequestsOf q s t) :
    (∀ r ∈ s.requests, r ∈ t.requests) ∧ ∀ r ∈ t.requests, r ∈ s.requests ∨ r.who = .journal := by
  refine ⟨fun r hr => ?_, fun r hr => ((h .journal).2.1 r hr).imp_right fun e => e.elim id id⟩
  by_cases e : r.who = .host
  · exact (h .load).1 r hr (by rw [e]; nofun)
  · exact (h .host).1 r hr e

/-- A request of `q` joins the list after a performance (R73). -/
theorem OthersWait.of_join {s u : State} {q : Requester} (hp : u.port = none) (hr : u.requests = s.requests)
    {r : Request} (hq : r.who = q) : OthersWait q s (u.join r).regrant := by
  refine State.othersWait_regrant hp (fun p hm => List.mem_append_left _ (hr ▸ hm)) fun p hm => ?_
  rcases List.mem_append.1 hm with hm | hm
  · exact .inl (hr ▸ hm)
  · rw [List.mem_singleton.1 hm]; exact .inr (.inl hq)

theorem State.follows_join (u : State) (r : Request) : Follows (u.join r).regrant r :=
  State.follows_regrant (List.mem_append_right _ (List.mem_singleton_self r))

theorem State.regrant_pool (s : State) (w : Fin 16) : s.regrant.pool w = s.pool w :=
  State.pool_congr (regrant_frame s .pools (by decide)) w

theorem State.join_pool (s : State) (r : Request) (w : Fin 16) : (s.join r).pool w = s.pool w := rfl

/-- A mark leaves every buffer's state, and so what a search finds. -/
theorem Pool.find_mark (p : Pool) (k : Fin 8) (i : Nat) (e : Enables) (st : BufState) :
    (p.modBuf k (Buffer.mark i e)).find st = p.find st := by
  refine Pool.find_congr (fun j => ?_) st
  rw [Pool.bufs_modBuf]
  split
  · next e => subst e; rfl
  · rfl

/-- The buffers that a commit leaves beside the committed one (R21). -/
theorem Pool.commit_others_eq (p : Pool) (k : Fin 8) (seq : Half) (time : Word) (source : Option (Fin 8))
    {j : Fin 8} (hj : j ≠ k) : (p.commit k seq time source).bufs[j] =
      Buffer.afterCommit (decide (p.find .ready = some j))
        (if source = some j then p.bufs[j].without .copySource else p.bufs[j]) := by
  rw [(p.commit_bufs k seq time source).2 j hj, ← Buffer.release_eq_without]
  unfold Buffer.afterCommit Buffer.supersede
  by_cases h : p.find .ready = some j <;> simp [h]

theorem Buffer.afterCommit_holders (ready : Bool) (b : Buffer) : (b.afterCommit ready).holders = b.holders := by
  unfold Buffer.afterCommit
  split <;> rfl

theorem Buffer.without_has (h : Holder) (b : Buffer) : (b.without h).holders.has h = false := by
  change (b.holders.put h false).has h = false
  rw [HolderSet.has_put, if_pos rfl]

/-- The state after the performance of a request, but for its requester's reaction. -/
theorem State.complete_congr (s : State) (r : Request) : ChangesOnly [.mem, .port] s (s.complete r) :=
  (complete_frame s r).mono (by decide)

/-- A commit in reaction to a performance, and what is then done to the window's buffers and to the lanes: its
notice, and MA's grant (R21, R40, R73, R76). -/
theorem State.commit_performed {s c t : State} {q : Requester} {w : Fin 16} {k : Fin 8} {seq : Half} {time : Word}
    {source : Option (Fin 8)} {copied : Nat} (fc : ChangesOnly [.mem, .port, .pools, .ins] s c)
    (hp : c.port = none) (others : OtherPools w s c)
    (rest : (c.pool w).committed = (s.pool w).committed ∧ (c.pool w).ownMark = (s.pool w).ownMark ∧
      (c.pool w).commits = (s.pool w).commits ∧ (c.pool w).timer = (s.pool w).timer)
    (ft : ChangesOnly [.ins, .pools, .requests] (c.commit w k seq time source copied) t)
    (tp : OtherPools w (c.commit w k seq time source copied) t)
    (tb : OnlyBuffers w (c.commit w k seq time source copied) t)
    (tk : ∀ r ∈ (c.commit w k seq time source copied).requests, r ∈ t.requests)
    (tn : ∀ r ∈ t.requests, r ∈ (c.commit w k seq time source copied).requests ∨ r.who = q) :
    OtherPools w s t.regrant ∧ CommitNoticed w seq copied [] s t.regrant ∧
      FlagsKept [.resumed, .journalLost] s t.regrant ∧ OthersWait q s t.regrant ∧
      ChangesOnly [.ins, .pools, .flags, .journal, .mem, .requests, .port, .copyPtr] s t.regrant := by
  obtain ⟨committed, ownMark, commits, timer⟩ := rest
  have marks : ∀ z : Fin 16, (c.pool z).committed = (s.pool z).committed ∧
      (c.pool z).ownMark = (s.pool z).ownMark := fun z => by
    by_cases e : z = w
    · subst e; exact ⟨committed, ownMark⟩
    · rw [others z e]; exact ⟨rfl, rfl⟩
  obtain ⟨noticed, flags⟩ := State.commit_noticed (s0 := s) (s := c) w k seq time source copied
    (fc.mono (by decide)) marks commits timer
  obtain ⟨kept, asked⟩ := OnlyRequestsOf.keeps (c.commit_onlyRequestsOf w k seq time source copied)
  have otherPools := c.commit_others w k seq time source copied
  have fd := commit_frame c w k seq time source copied
  have gr := regrant_frame t
  generalize c.commit w k seq time source copied = d at *
  have flagsEq : t.regrant.flags = d.flags := (gr .flags (by decide)).trans (ft .flags (by decide))
  have before : c.requests = s.requests := fc .requests (by decide)
  rw [before] at kept asked
  refine ⟨fun z hz => ?_, ?_, fun k hk => ?_, ?_, ?_⟩
  · rw [State.regrant_pool, tp z hz, otherPools z hz, others z hz]
  · refine noticed.of_eq flagsEq ((gr .journal (by decide)).trans (ft .journal (by decide)))
      ((gr .windows (by decide)).trans (ft .windows (by decide)))
      ((gr .groups (by decide)).trans (ft .groups (by decide))) fun z => ?_
    rw [State.regrant_pool]
    by_cases e : z = w
    · rw [e, tb]; exact ⟨rfl, rfl, rfl, rfl, rfl⟩
    · rw [tp z e]; exact ⟨rfl, rfl, rfl, rfl, rfl⟩
  · exact (State.raised_congr flagsEq k).trans (flags k hk)
  · refine State.othersWait_regrant ((ft .port (by decide)).trans ((fd .port (by decide)).trans hp))
      (fun r hr => tk r (kept r hr)) fun r hr => ?_
    rcases tn r hr with h | h
    · exact (asked r h).imp_right .inr
    · exact .inr (.inl h)
  · exact ((fc.andThen fd (m := [.mem, .port, .pools, .ins, .flags, .journal, .requests])).andThen ft
      (m := [.mem, .port, .pools, .ins, .flags, .journal, .requests])).andThen gr

theorem OnlyBuffers.refl (w : Fin 16) (s : State) : OnlyBuffers w s s := rfl

section
variable {s : State} {r : Request} {w : Fin 16} {j : CopyJob}

/-- A copy-forward write performed: the word's bytes are added to the map, and the job seeks on (R37). -/
theorem State.copyWrite_next (h : InProgress s r) (hw : r.who = .copyJob w) (hwr : r.write = true)
    (hj : (s.pool w).job = some j) : exec .copyWritePerformed s =
      .next ((((s.complete r).modPool w fun p => p.modBuf j.target (Buffer.mark j.index r.be)).seek w
        { j with index := j.index + 1, phase := .seeking, copied := j.copied + 1, held := none }).regrant) := by
  have e : exec .copyWritePerformed s = execCopyWritePerformed s := rfl
  rw [e, execCopyWritePerformed, State.performance_inProgress h _ _ (by simp [Request.isCopy, hw, hwr])]
  unfold Request.copyWriteReact
  rw [hw]
  have hc : ((s.complete r).pool w).job = some j := hj
  have e : ∀ t : State, (t.pool w).job = some j → t.copyWrite w r.be =
      (t.modPool w fun p => p.modBuf j.target (Buffer.mark j.index r.be)).seek w
        { j with index := j.index + 1, phase := .seeking, copied := j.copied + 1, held := none } := fun t ht => by
    unfold State.copyWrite
    rw [ht]
  exact congrArg (fun u : State => (.next u.regrant : Out)) (e _ hc)

end

/-- Settles O27: the next gap, or the end of the job with its commit. -/
theorem copyWriteSeeksOnOrCommits : Obligations.CopyWriteSeeksOnOrCommits := by
  intro s r w j m h hw hwr hj hm
  rw [State.copyWrite_next h hw hwr hj]
  have fu : ChangesOnly [.mem, .port, .pools] s
      ((s.complete r).modPool w fun p => p.modBuf j.target (Buffer.mark j.index r.be)) :=
    (s.complete_congr r).andThen (modPool_frame _ w _)
  have upool : ∀ z, ((s.complete r).modPool w fun p => p.modBuf j.target (Buffer.mark j.index r.be)).pool z =
      if z = w then (s.pool w).modBuf j.target (Buffer.mark j.index r.be) else s.pool z := fun z =>
    State.pool_modPool _ _ _ _
  have uport : ((s.complete r).modPool w fun p => p.modBuf j.target (Buffer.mark j.index r.be)).port = none := rfl
  generalize ((s.complete r).modPool w fun p => p.modBuf j.target (Buffer.mark j.index r.be)) = u
    at fu upool uport ⊢
  have win : u.win w = s.win w := State.win_congr (fu .windows (by decide)) w
  have here : u.pool w = (s.pool w).modBuf j.target (Buffer.mark j.index r.be) := (upool w).trans (if_pos rfl)
  have map : ((u.pool w).bufs[j.target]).map = m := by
    rw [here, Pool.bufs_modBuf, if_pos rfl, hm]; rfl
  refine ⟨fun i hi hn hg before => ?_, fun full => ?_⟩
  · have gap : ((u.pool w).bufs[j.target].map).gap (u.win w).payloadLength (j.index + 1) = some i := by
      rw [map, win]
      exact (WMap.gap_some_iff _ _ _ _).2 ⟨hi, hn, hg, before⟩
    rw [State.seek_some (j := { j with index := j.index + 1, phase := .seeking, copied := j.copied + 1
                                       held := none }) gap, win]
    refine ⟨_, rfl, fun z hz => ?_, ?_, ?_, ?_, ?_⟩
    · rw [State.regrant_pool]
      rw [State.join_pool, State.pool_modPool, if_neg hz, upool, if_neg hz]
    · rw [State.regrant_pool]
      rw [State.join_pool, State.pool_modPool, if_pos rfl, here, hm]
      rfl
    · unfold WindowRec.copyAdr
      cases j.source <;> exact State.follows_join _ _
    · exact OthersWait.of_join (u := u.modPool w _) uport (fu .requests (by decide)) rfl
    · exact ((fu.andThen (modPool_frame u w _) (m := [.mem, .port, .pools])).andThen (join_frame _ _)
        (m := [.mem, .port, .pools, .requests])).andThen (regrant_frame _)
  · have gap : ((u.pool w).bufs[j.target].map).gap (u.win w).payloadLength (j.index + 1) = none := by
      rw [map, win]
      exact (WMap.gap_none_iff _ _ _).2 full
    rw [State.seek_none (j := { j with index := j.index + 1, phase := .seeking, copied := j.copied + 1
                                       held := none }) gap]
    unfold State.endJob
    dsimp only
    have fc : ChangesOnly [.mem, .port, .pools] s (u.modPool w fun p => { p with job := none }) :=
      fu.andThen (modPool_frame u w _)
    have cpool : ∀ z, (u.modPool w fun p => { p with job := none }).pool z =
        if z = w then { (s.pool w).modBuf j.target (Buffer.mark j.index r.be) with job := none }
        else s.pool z := fun z => by
      rw [State.pool_modPool, here, upool]
      split <;> rfl
    have cport : (u.modPool w fun p => { p with job := none }).port = none := uport
    generalize (u.modPool w fun p => { p with job := none }) = c at fc cpool cport ⊢
    have chere := (cpool w).trans (if_pos rfl)
    obtain ⟨otherPools, noticed, flags, wait, changed⟩ := State.commit_performed (q := .copyJob w)
      (w := w) (k := j.target) (seq := j.seq) (time := j.time) (source := j.source) (copied := j.copied + 1)
      (fc.mono (by decide)) cport (fun z hz => (cpool z).trans (if_neg hz))
      (by rw [chere]; exact ⟨rfl, rfl, rfl, rfl⟩) (.refl [.ins, .pools, .requests] _) (fun _ _ => rfl) (.refl w _)
      (fun _ h => h) fun _ h => .inl h
    have bufs := c.commit_bufs w j.target j.seq j.time j.source (j.copied + 1)
    obtain ⟨expected, inbound, outcome, job⟩ := c.commit_rest w j.target j.seq j.time j.source (j.copied + 1)
    rw [chere] at expected inbound outcome job bufs
    have committed := (Pool.commit_bufs { (s.pool w).modBuf j.target (Buffer.mark j.index r.be) with job := none }
      j.target j.seq j.time j.source).1
    have others : ∀ k : Fin 8, k ≠ j.target →
        ((c.commit w j.target j.seq j.time j.source (j.copied + 1)).pool w).bufs[k] =
        Buffer.afterCommit (decide ((s.pool w).find .ready = some k))
          (if j.source = some k then (s.pool w).bufs[k].without .copySource else (s.pool w).bufs[k]) :=
      fun k hk => by
        have find : Pool.find { (s.pool w).modBuf j.target (Buffer.mark j.index r.be) with job := none } .ready =
            (s.pool w).find .ready := Pool.find_mark _ _ _ _ _
        have same : Pool.bufs { (s.pool w).modBuf j.target (Buffer.mark j.index r.be) with job := none } =
            ((s.pool w).modBuf j.target (Buffer.mark j.index r.be)).bufs := rfl
        rw [bufs, Pool.commit_others_eq _ _ _ _ _ hk, find, same, Pool.bufs_modBuf, if_neg hk]
    refine ⟨_, rfl, otherPools, ?_, ?_, fun k hk => ?_, fun k hk => ?_, ?_, ?_, ?_, noticed, flags, wait,
      changed.drop ?_⟩
    · rw [State.regrant_pool, job]
    · rw [State.regrant_pool, bufs]; exact committed
    · rw [State.regrant_pool]
      by_cases e : k = j.target
      · subst e
        rw [bufs, committed]
        exact HolderSet.has_empty _
      · rw [others k e, Buffer.afterCommit_holders, if_pos hk]
        exact Buffer.without_has _ _
    · rw [State.regrant_pool]; exact others k hk
    · rw [State.regrant_pool, inbound]; rfl
    · rw [State.regrant_pool, expected]; rfl
    · rw [State.regrant_pool, outcome]; rfl
    · exact (regrant_frame _ .ins (by decide)).trans
        ((commit_frame _ _ _ _ _ _ _ .ins (by decide)).trans (fc .ins (by decide)))

end Sys2Proof.Machine

/-! SUPPORT. Raises, and what they leave of flags and journal (R179, R185–R189). -/

namespace Sys2Proof.Machine

section
variable {s t u : State}

theorem State.acceptEntry_flags_eq (s : State) (e : JEntry) : (s.acceptEntry e).flags =
    if s.journal.queue.length < Config.journalPlaces then s.flags else (s.setFlag .journalLost).flags := by
  unfold State.acceptEntry
  split
  · dsimp only
    split
    · unfold State.requestJournal
      split <;> rfl
    · rfl
  · rfl

/-- A flag that is set, over equal flags. -/
theorem State.setFlag_flags_congr (h : t.flags = s.flags) (k : Kind) :
    (t.setFlag k).flags = (s.setFlag k).flags := by
  unfold State.setFlag
  dsimp only
  rw [h]

/-- The flags after an offer depend on the flags, the journal record, the header and the entry alone. -/
theorem State.offer_flags_congr (hf : t.flags = s.flags) (hj : t.journal = s.journal) (hh : t.header = s.header)
    (e : JEntry) : (t.offer e).flags = (s.offer e).flags := by
  have accept : ∀ {a b : State}, b.flags = a.flags → b.journal = a.journal →
      (b.acceptEntry e).flags = (a.acceptEntry e).flags := fun {a b} ha hj => by
    rw [State.acceptEntry_flags_eq, State.acceptEntry_flags_eq, hj, ha, State.setFlag_flags_congr ha]
  unfold State.offer State.selects State.triggers
  simp only [hj, hh]
  split
  · exact hf
  · split
    case h_4 =>
      split
      · exact accept hf (by simp only [State.modJournal, hj])
      · exact hf
    case h_5 =>
      split
      · exact accept hf hj
      · exact hf
    case h_6 =>
      split
      · exact State.setFlag_flags_congr (s := s.modJournal _) (t := t.modJournal _) hf _
      · exact hf
    all_goals exact hf

/-- A raise reports the same from any earlier state of the event with the same flags and journal (R179). -/
theorem State.raise_reported (hf : u.flags = s.flags) (hj : u.journal = s.journal) (hh : u.header = s.header)
    (ht : u.timeBase = s.timeBase) {k : Kind} (hk : k ≠ .commit) (source : Option Nat) (d1 d2 : Word) :
    Reported s (u.raise k source d1 d2) k source d1 d2 := by
  refine ⟨(u.raise_flags k source d1 d2 hk).1, ?_, ?_⟩
  · unfold State.raise
    rw [ht]
    exact State.offer_flags_congr (State.setFlag_flags_congr hf k) hj hh _
  · unfold State.raise
    rw [ht]
    exact State.offer_journal_congr (s := s.setFlag k) (t := u.setFlag k) hj hh _

theorem Reported.of_eq {k : Kind} {source : Option Nat} {d1 d2 : Word} (h : Reported s t k source d1 d2)
    (hf : u.flags = t.flags) (hj : u.journal = t.journal) : Reported s u k source d1 d2 := by
  obtain ⟨hr, flags, journal⟩ := h
  exact ⟨(State.raised_congr hf k).trans hr, hf.trans flags, hj.trans journal⟩

/-- A raise of STOPPED changes the flags as its offer does. -/
theorem State.raiseStopped_flags (s : State) (d1 d2 : Word) : (s.raiseStopped d1 d2).flags =
    ((s.setFlag .stopped).offer
      { kind := .stopped, source := none, time := s.timeBase, detail1 := d1, detail2 := d2 }).flags := by
  unfold State.raiseStopped State.offerStopped
  dsimp only
  split
  case h_2 => split <;> rfl
  all_goals rfl

/-- The raise of STOPPED reports the same from any earlier state of the event with the same flags and journal
(R174, R175, R189). -/
theorem State.raiseStopped_reported (hf : u.flags = s.flags) (hj : u.journal = s.journal) (hh : u.header = s.header)
    (ht : u.timeBase = s.timeBase) (d1 d2 : Word) : ReportedStopped s (u.raiseStopped d1 d2) d1 d2 := by
  have flags : (u.raiseStopped d1 d2).flags = (s.raiseStopped d1 d2).flags := by
    rw [State.raiseStopped_flags, State.raiseStopped_flags, ht]
    exact State.offer_flags_congr (State.setFlag_flags_congr hf _) hj hh _
  have raised : (s.raiseStopped d1 d2).raised .stopped = true := by
    rw [State.raised_congr (State.raiseStopped_flags s d1 d2)]
    exact (s.raise_flags .stopped none d1 d2 (by decide)).1
  refine ⟨(State.raised_congr flags _).trans raised, flags, ?_⟩
  have offered : ((u.setFlag .stopped).offer
        { kind := .stopped, source := none, time := u.timeBase, detail1 := d1, detail2 := d2 }).journal =
      ((s.setFlag .stopped).offer
        { kind := .stopped, source := none, time := s.timeBase, detail1 := d1, detail2 := d2 }).journal := by
    rw [ht]
    exact State.offer_journal_congr (s := s.setFlag .stopped) (t := u.setFlag .stopped) hj hh _
  have hj' : (u.setFlag .stopped).journal = (s.setFlag .stopped).journal := hj
  have hh' : (u.setFlag .stopped).header = (s.setFlag .stopped).header := hh
  unfold State.raiseStopped State.offerStopped State.triggers
  simp only [hj', hh']
  split
  case h_2 => split <;> simp only [State.modJournal, offered]
  case h_1 => simp only [State.modJournal, offered]
  all_goals exact offered

theorem ReportedStopped.of_eq {d1 d2 : Word} (h : ReportedStopped s t d1 d2)
    (hf : u.flags = t.flags) (hj : u.journal = t.journal) : ReportedStopped s u d1 d2 := by
  obtain ⟨hr, flags, journal⟩ := h
  exact ⟨(State.raised_congr hf _).trans hr, hf.trans flags, hj.trans journal⟩

/-- At the arbiter the raise of STOPPED does no more than JW's request. -/
theorem State.raiseStopped_onlyRequestsOf (s : State) (q : Requester) (d1 d2 : Word) :
    OnlyRequestsOf q s (s.raiseStopped d1 d2) := by
  have h := (s.setFlag .stopped).offer_onlyRequestsOf q
    { kind := .stopped, source := none, time := s.timeBase, detail1 := d1, detail2 := d2 }
  unfold State.raiseStopped State.offerStopped
  dsimp only
  split
  case h_2 => split <;> exact h
  all_goals exact h

end

end Sys2Proof.Machine

/-! SUPPORT. Settlement at the head of an inbound lane's frames in hand, step by step, and half writes
performed (R153, R155, R158). -/

namespace Sys2Proof.Machine

section
variable {s t : State} {y : Fin 2} {f : InFrame} {fs : List InFrame}

/-! ### One settlement -/

theorem State.settleOnce_discard (hf : (s.inl y).frames = f :: fs) (ho : f.outcome = .discard)
    (hp : s.inProgress (.inLane y) = false) : s.settleOnce y = some (s.discardHead y f) := by
  unfold State.settleOnce
  rw [hf]
  simp [ho, hp]

theorem State.settleOnce_allocate (hf : (s.inl y).frames = f :: fs) (ho : f.outcome ≠ .discard)
    (hb : f.buffer = none) : s.settleOnce y = some (s.allocateHead y f) := by
  unfold State.settleOnce
  rw [hf]
  cases h : f.outcome with
  | discard => exact absurd h ho
  | opened | good => simp [hb]

theorem State.settleOnce_commit {k : Fin 8} (hf : (s.inl y).frames = f :: fs) (ho : f.outcome = .good)
    (hb : f.buffer = some k) (hh : f.halves = []) : s.settleOnce y = some (s.commitHead y f k) := by
  unfold State.settleOnce
  rw [hf]
  simp [ho, hb, hh]

/-- A head with a buffer that still arrives, or whose halves wait, waits; and so does a discarded head whose
write is in progress. -/
theorem State.settleOnce_wait (hf : (s.inl y).frames = f :: fs)
    (h : f.buffer ≠ none ∧ (f.outcome = .opened ∨ f.outcome = .good ∧ f.halves ≠ []) ∨
      f.outcome = .discard ∧ s.inProgress (.inLane y) = true) : s.settleOnce y = none := by
  unfold State.settleOnce
  rw [hf]
  rcases h with ⟨hb, h⟩ | ⟨ho, hp⟩
  · obtain ⟨k, hk⟩ := Option.ne_none_iff_exists'.1 hb
    rcases h with ho | ⟨ho, hh⟩
    · simp [ho, hk]
    · simp [ho, hk, hh]
  · simp [ho, hp]

/-- What a settlement can be. -/
theorem State.settleOnce_cases (h : s.settleOnce y = some t) : ∃ f fs, (s.inl y).frames = f :: fs ∧
    (t = s.discardHead y f ∨ f.buffer = none ∧ t = s.allocateHead y f ∨ ∃ k, t = s.commitHead y f k) := by
  unfold State.settleOnce at h
  split at h
  · cases h
  · next f fs hf =>
    refine ⟨f, fs, hf, ?_⟩
    split at h
    · split at h <;> cases h
      exact .inl rfl
    · next hb _ => cases h; exact .inr (.inl ⟨hb, rfl⟩)
    · split at h <;> cases h
      exact .inr (.inr ⟨_, rfl⟩)
    · cases h

/-! ### What a settlement does to the frames in hand -/

theorem State.modIn_inl (s : State) (y : Fin 2) (u : InLane → InLane) : (s.modIn y u).inl y = u (s.inl y) := by
  rw [State.inl_modIn, if_pos rfl]

theorem State.modIn_others (s : State) (y : Fin 2) (u : InLane → InLane) : OtherIns y s (s.modIn y u) :=
  fun z hz => by rw [State.inl_modIn, if_neg hz]

theorem State.discardHead_eq {w : Fin 16} {k : Fin 8} (hw : s.inWindow y = some w) (hb : f.buffer = some k) :
    s.discardHead y f = (s.modPool w fun p => p.modBuf k Buffer.discard).modIn y InLane.popHead := by
  unfold State.discardHead
  rw [hw, hb]

theorem State.discardHead_inl : (s.discardHead y f).inl y = (s.inl y).popHead := by
  unfold State.discardHead
  split
  · exact State.modIn_inl _ _ _
  · exact State.modIn_inl _ _ _

theorem State.raise_inl (s : State) (k : Kind) (source : Option Nat) (d1 d2 : Word) (z : Fin 2) :
    (s.raise k source d1 d2).inl z = s.inl z := State.inl_congr (raise_frame _ _ _ _ _ .ins (by decide)) z

theorem State.raiseCut_inl (n : Option Half) (r : CutReason) :
    (s.raiseCut y n r).inl y = { s.inl y with cuts := sat8 (s.inl y).cuts } := by
  unfold State.raiseCut
  rw [State.raise_inl, State.modIn_inl]

/-- The lane after a refusal (R153). -/
theorem State.refuseFrame_inl : (s.refuseFrame y f).inl y =
    { s.inl y with
      frames := (s.inl y).frames.tail
      noBuffers := sat8 (s.inl y).noBuffers
      st := if f.outcome = .opened then .discarding else (s.inl y).st
      slot := if f.outcome = .opened then (if f.number = none then some 0 else none) else (s.inl y).slot } := by
  unfold State.refuseFrame
  rw [State.modIn_inl, State.raise_inl]
  rfl

theorem State.commitHead_frames {k : Fin 8} :
    ((s.commitHead y f k).inl y).frames = (s.inl y).frames.tail := by
  unfold State.commitHead
  split
  · rw [State.modIn_inl]; rfl
  · split
    · rw [State.modIn_inl, InLane.popHead, State.inl_congr (commit_frame _ _ _ _ _ _ _ .ins (by decide))]
      rfl
    · rw [State.raiseCut_inl, State.discardHead_inl]
      rfl

theorem State.allocateHead_frames : ((s.allocateHead y f).inl y).frames = (s.inl y).frames.tail ∨
    ∃ k, (s.allocateHead y f).inl y = (s.inl y).modHead fun h => { h with buffer := some k } := by
  unfold State.allocateHead
  split
  · rw [State.refuseFrame_inl]; exact .inl rfl
  · split
    · rw [State.refuseFrame_inl]; exact .inl rfl
    · exact .inr ⟨_, State.modIn_inl _ _ _⟩

/-! ### The settlement as a whole -/

/-- How many settlements the frames in hand can still take. -/
def InLane.work (l : InLane) : Nat :=
  2 * l.frames.length + (if (l.frames.head?.bind fun f => f.buffer) = none then 1 else 0)

theorem InLane.work_le (l : InLane) : l.work ≤ 2 * l.frames.length + 1 := by
  unfold InLane.work
  split <;> omega

/-- Every settlement uses work up. -/
theorem State.settleOnce_work (h : s.settleOnce y = some t) : (t.inl y).work < (s.inl y).work := by
  obtain ⟨f, fs, hf, hc⟩ := State.settleOnce_cases h
  have leaves : (t.inl y).frames = (s.inl y).frames.tail → (t.inl y).work < (s.inl y).work := fun e => by
    have h1 := (t.inl y).work_le
    rw [e, hf] at h1
    unfold InLane.work at h1 ⊢
    rw [hf, List.length_cons]
    rw [List.tail_cons] at h1
    omega
  rcases hc with e | ⟨hb, e⟩ | ⟨k, e⟩
  · exact leaves (by rw [e, State.discardHead_inl]; rfl)
  · rcases State.allocateHead_frames (s := s) (y := y) (f := f) with h' | ⟨k, h'⟩
    · exact leaves (by rw [e, h'])
    · rw [e, h']
      simp [InLane.work, InLane.modHead, hf, hb]
  · exact leaves (by rw [e, State.commitHead_frames])

/-- Enough fuel for the work is enough. -/
theorem State.settleLoop_enough (n m : Nat) (s : State) (hn : (s.inl y).work ≤ n) (hm : (s.inl y).work ≤ m) :
    State.settleLoop n y s = State.settleLoop m y s := by
  induction n generalizing m s with
  | zero =>
    cases m with
    | zero => rfl
    | succ m =>
      unfold State.settleLoop
      cases h : s.settleOnce y with
      | none => rfl
      | some t => exact absurd (State.settleOnce_work h) (by omega)
  | succ n ih =>
    cases m with
    | zero =>
      unfold State.settleLoop
      cases h : s.settleOnce y with
      | none => rfl
      | some t => exact absurd (State.settleOnce_work h) (by omega)
    | succ m =>
      unfold State.settleLoop
      cases h : s.settleOnce y with
      | none => rfl
      | some t =>
        have := State.settleOnce_work h
        exact ih m t (by omega) (by omega)

/-- After one settlement the rest settles. -/
theorem State.settle_of_some (h : s.settleOnce y = some t) : s.settle y = t.settle y := by
  have hw := State.settleOnce_work h
  have hs := (s.inl y).work_le
  have ht := (t.inl y).work_le
  have step : State.settleLoop (2 * (s.inl y).frames.length + 1) y s =
      State.settleLoop (2 * (s.inl y).frames.length) y t := by
    conv => lhs; unfold State.settleLoop
    rw [h]
  unfold State.settle
  rw [step, State.settleLoop_enough _ (2 * (t.inl y).frames.length + 1) t (by omega) ht]

/-- A head that waits asks for its next write. -/
theorem State.settle_of_none (h : s.settleOnce y = none) : s.settle y = s.tryWrite y := by
  unfold State.settle State.settleLoop
  rw [h]

/-! ### The request of a half write (R155) -/

theorem State.tryWrite_of_no_half (hf : (s.inl y).frames = f :: fs) (hh : f.halves = []) : s.tryWrite y = s := by
  unfold State.tryWrite
  rw [hf]
  split
  · next e =>
    cases e
    rw [hh]
    split
    · next e => cases e
    · rfl
  · rfl

theorem State.tryWrite_of_busy (h : s.listed (.inLane y) = true ∨ s.inProgress (.inLane y) = true) :
    s.tryWrite y = s := by
  have hn : ¬ (s.listed (.inLane y) = false ∧ s.inProgress (.inLane y) = false) := by
    rintro ⟨hl, hp⟩
    rcases h with h | h
    · rw [hl] at h; cases h
    · rw [hp] at h; cases h
  unfold State.tryWrite
  split
  · split
    · exact if_neg hn
    · rfl
  · rfl

theorem State.tryWrite_asks {w : Fin 16} {k : Fin 8} {h : RxHalf} {hs : List RxHalf} (hw : s.inWindow y = some w)
    (hf : (s.inl y).frames = f :: fs) (hb : f.buffer = some k) (hh : f.halves = h :: hs)
    (hl : s.listed (.inLane y) = false) (hp : s.inProgress (.inLane y) = false) :
    s.tryWrite y = s.join (s.halfWrite y w k h) := by
  unfold State.tryWrite
  rw [hw, hf]
  simp only [hb, hh, hl, hp, and_self, if_true]
  rfl

end

end Sys2Proof.Machine

/-! SUPPORT. Half writes performed and the settlement of the head frame (R153, R155, R158). -/

namespace Sys2Proof.Machine

section
variable {s : State} {r : Request} {y : Fin 2} {w : Fin 16} {k : Fin 8} {f : InFrame} {fs : List InFrame}

theorem State.modIn_pool (s : State) (y : Fin 2) (u : InLane → InLane) (w : Fin 16) :
    (s.modIn y u).pool w = s.pool w := rfl

theorem State.inboundWrite_next (h : InProgress s r) (hr : r.who = .inLane y) :
    exec .inboundWritePerformed s = .next ((s.complete r).halfWritten y).regrant := by
  have e : exec .inboundWritePerformed s = execInboundWritePerformed s := rfl
  rw [e, execInboundWritePerformed, State.performance_inProgress h _ _ (by simp [Request.isInbound, hr])]
  unfold Request.inboundReact
  rw [hr]

/-- No access of the lane is in progress after a performance. -/
theorem State.complete_inProgress (s : State) (r : Request) (q : Requester) :
    (s.complete r).inProgress q = false := rfl

theorem State.inProgress_congr {t : State} (h : t.port = s.port) (q : Requester) :
    t.inProgress q = s.inProgress q := by
  unfold State.inProgress
  rw [h]

theorem State.listed_congr {t : State} (h : t.requests = s.requests) (q : Requester) :
    t.listed q = s.listed q := by
  unfold State.listed
  rw [h]

/-- The performance of a discarded frame's write changes no map (R158). -/
theorem State.halfWritten_discard (hf : (s.inl y).frames = f :: fs) (ho : f.outcome = .discard) :
    s.halfWritten y = s.settle y := by
  unfold State.halfWritten
  rw [hf]
  cases s.inWindow y with
  | none => rfl
  | some w => simp [ho]

/-- The state after a half has left the receive buffer and joined the map (R155). -/
def State.halfTaken (s : State) (y : Fin 2) (w : Fin 16) (k : Fin 8) (h : RxHalf) (hs : List RxHalf) : State :=
  (s.modPool w fun p => p.modBuf k (Buffer.mark h.word h.enables)).modIn y fun l =>
    l.modHead fun f => { f with halves := hs }

theorem State.halfWritten_taken {h : RxHalf} {hs : List RxHalf} (hw : s.inWindow y = some w)
    (hf : (s.inl y).frames = f :: fs) (hb : f.buffer = some k) (hh : f.halves = h :: hs)
    (ho : f.outcome ≠ .discard) : s.halfWritten y = (s.halfTaken y w k h hs).settle y := by
  unfold State.halfWritten
  rw [hw, hf]
  cases h : f.outcome with
  | discard => exact absurd h ho
  | opened | good => simp only [hb, hh]; rfl

section
variable (s y w k) (h : RxHalf) (hs : List RxHalf)

theorem State.halfTaken_frame : ChangesOnly [.pools, .ins] s (s.halfTaken y w k h hs) :=
  (modPool_frame s w _).andThen (modIn_frame _ y _)

theorem State.halfTaken_pool (v : Fin 16) : (s.halfTaken y w k h hs).pool v =
    if v = w then (s.pool w).modBuf k (Buffer.mark h.word h.enables) else s.pool v := by
  unfold State.halfTaken
  rw [State.modIn_pool, State.pool_modPool]

theorem State.halfTaken_inl : (s.halfTaken y w k h hs).inl y = (s.inl y).modHead fun f => { f with halves := hs } :=
  State.modIn_inl _ _ _

theorem State.halfTaken_others : OtherIns y s (s.halfTaken y w k h hs) := fun z hz => by
  unfold State.halfTaken
  rw [State.modIn_others _ _ _ z hz]
  rfl

end

theorem InLane.modHead_eq {l : InLane} (hf : l.frames = f :: fs) (u : InFrame → InFrame) :
    l.modHead u = { l with frames := u f :: fs } := by
  unfold InLane.modHead
  rw [hf]

/-- A mark on the pool. -/
theorem Pool.mark_eq (p : Pool) (k : Fin 8) (i : Nat) (e : Enables) :
    p.modBuf k (Buffer.mark i e) =
      { p with bufs := p.bufs.set k { p.bufs[k] with map := (p.bufs[k].map).add i e } } := rfl

theorem State.regrant_inl (s : State) (y : Fin 2) : s.regrant.inl y = s.inl y :=
  State.inl_congr (regrant_frame s .ins (by decide)) y

theorem OtherIns.regrant {t : State} (h : OtherIns y s t) : OtherIns y s t.regrant := fun z hz => by
  rw [State.regrant_inl]; exact h z hz

/-- A performance that leads to no request at all. -/
theorem OthersWait.of_same {q : Requester} {u : State} (hp : u.port = none) (hr : u.requests = s.requests) :
    OthersWait q s u.regrant :=
  State.othersWait_regrant hp (fun _ h => hr ▸ h) fun _ h => .inl (hr ▸ h)

/-- A performance that leads to a raise and no request else. -/
theorem OthersWait.of_raise {q : Requester} {u : State} (hp : u.port = none) (hr : u.requests = s.requests)
    (c : Kind) (source : Option Nat) (d1 d2 : Word) : OthersWait q s (u.raise c source d1 d2).regrant := by
  obtain ⟨kept, asked⟩ := OnlyRequestsOf.keeps fun q => u.raise_onlyRequestsOf q c source d1 d2
  rw [hr] at kept asked
  exact State.othersWait_regrant ((raise_frame _ _ _ _ _ .port (by decide)).trans hp) kept
    fun p hm => (asked p hm).imp_right .inr

/-! ### The commit of a GOOD head (R42, R158) -/

/-- The window's record with the next inbound sequence used up. -/
def State.inboundTaken (s : State) (w : Fin 16) : State :=
  s.modPool w fun p => { p with nextInbound := p.nextInbound + 1 }

theorem State.commitHead_full (hw : s.inWindow y = some w)
    (hm : ((s.pool w).bufs[k].map).full (s.win w).payloadLength = true) : s.commitHead y f k =
      ((s.inboundTaken w).commit w k (s.pool w).nextInbound f.time none 0).modIn y InLane.popHead := by
  unfold State.commitHead
  rw [hw]
  exact if_pos hm

theorem State.commitHead_short (hw : s.inWindow y = some w)
    (hm : ((s.pool w).bufs[k].map).full (s.win w).payloadLength = false) :
    s.commitHead y f k = (s.discardHead y f).raiseCut y f.number .malformed := by
  unfold State.commitHead
  rw [hw]
  exact if_neg (by rw [hm]; nofun)

end

/-! ### Half writes performed (R155) -/

theorem Enables.of_half (h : RxHalf) : h.enables = if h.high then 0b1100 else 0b0011 := rfl

/-- The head frame, alone in hand and discarded, lets its buffer go with the performance of its last write
(R158). -/
theorem State.inboundWrite_discarded {s : State} {r : Request} {y : Fin 2} {w : Fin 16} {k : Fin 8} {f : InFrame}
    (h : InProgress s r) (hr : r.who = .inLane y) (hw : s.inWindow y = some w) (hf : (s.inl y).frames = [f])
    (ho : f.outcome = .discard) (hb : f.buffer = some k) :
    ∃ t, exec .inboundWritePerformed s = .next t ∧ OtherIns y s t ∧ OtherPools w s t ∧
      t.inl y = { s.inl y with frames := [] } ∧
      t.pool w = { s.pool w with bufs := (s.pool w).bufs.set k (Buffer.discard (s.pool w).bufs[k]) } ∧
      OthersWait (.inLane y) s t ∧ ChangesOnly [.ins, .pools, .mem, .requests, .port, .copyPtr] s t := by
  have fu : ChangesOnly [.mem, .port] s (s.complete r) := s.complete_congr r
  have hd : (s.complete r).discardHead y f = ((s.complete r).modPool w fun p => p.modBuf k Buffer.discard).modIn y
      InLane.popHead := State.discardHead_eq hw hb
  have frames : (((s.complete r).discardHead y f).inl y).frames = [] := by
    rw [State.discardHead_inl]
    change (s.inl y).frames.tail = []
    rw [hf]; rfl
  have settled : (s.complete r).halfWritten y = (s.complete r).discardHead y f := by
    rw [State.halfWritten_discard (s := s.complete r) (fs := []) hf ho,
      State.settle_of_some (State.settleOnce_discard (s := s.complete r) (fs := []) hf ho (s.complete_inProgress r _)),
      State.settle_rest frames]
  rw [State.inboundWrite_next h hr, settled, hd]
  refine ⟨_, rfl, OtherIns.regrant fun z hz => ?_, fun v hv => ?_, ?_, ?_, ?_, ?_⟩
  · exact State.modIn_others _ y _ z hz
  · rw [State.regrant_pool, State.modIn_pool, State.pool_modPool, if_neg hv]
    rfl
  · rw [State.regrant_inl, State.modIn_inl]
    change (s.inl y).popHead = _
    rw [InLane.popHead, hf]
    rfl
  · rw [State.regrant_pool, State.modIn_pool, State.pool_modPool, if_pos rfl]
    rfl
  · exact OthersWait.of_same rfl rfl
  · exact ((fu.andThen (modPool_frame _ w _) (m := [.mem, .port, .pools])).andThen (modIn_frame _ y _)
      (m := [.mem, .port, .pools, .ins])).andThen (regrant_frame _)

section
variable {s : State} {r : Request} {y : Fin 2} {w : Fin 16} {k : Fin 8} {f : InFrame} {fs : List InFrame}
  {h : RxHalf} {hs : List RxHalf}

/-- The state in which the head may settle after a half write (R155). -/
theorem State.halfTaken_facts (s : State) (r : Request) (hf : (s.inl y).frames = f :: fs) :
    ChangesOnly [.mem, .port, .pools, .ins] s ((s.complete r).halfTaken y w k h hs) ∧
      (∀ v, ((s.complete r).halfTaken y w k h hs).pool v =
        if v = w then (s.pool w).modBuf k (Buffer.mark h.word h.enables) else s.pool v) ∧
      ((s.complete r).halfTaken y w k h hs).inl y =
        { s.inl y with frames := { f with halves := hs } :: fs } ∧
      OtherIns y s ((s.complete r).halfTaken y w k h hs) ∧
      ((s.complete r).halfTaken y w k h hs).port = none ∧
      ((s.complete r).halfTaken y w k h hs).requests = s.requests := by
  refine ⟨(s.complete_congr r).andThen (State.halfTaken_frame _ y w k h hs),
    State.halfTaken_pool _ y w k h hs, ?_, State.halfTaken_others _ y w k h hs, rfl, rfl⟩
  rw [State.halfTaken_inl]
  exact InLane.modHead_eq hf _

/-- A frame whose halves still arrive or wait goes on to its next half write (R155). -/
theorem State.inboundWrite_goesOn (hp : InProgress s r) (hr : r.who = .inLane y)
    (hl : Requester.inLane y ∉ s.requests.map Request.who) (hw : s.inWindow y = some w)
    (hf : (s.inl y).frames = f :: fs) (hb : f.buffer = some k) (hh : f.halves = h :: hs)
    (ho : f.outcome = .opened ∨ f.outcome = .good ∧ hs ≠ []) :
    ∃ t, exec .inboundWritePerformed s = .next t ∧ OtherIns y s t ∧ OtherPools w s t ∧
      t.inl y = { s.inl y with frames := { f with halves := hs } :: fs } ∧
      t.pool w = (s.pool w).modBuf k (Buffer.mark h.word h.enables) ∧
      (∀ g gs, hs = g :: gs → Follows t (s.halfWrite y w k g)) ∧
      OthersWait (.inLane y) s t ∧ ChangesOnly [.ins, .pools, .mem, .requests, .port, .copyPtr] s t := by
  have hn : f.outcome ≠ .discard := fun e => by rw [e] at ho; rcases ho with ho | ⟨ho, _⟩ <;> cases ho
  rw [State.inboundWrite_next hp hr, State.halfWritten_taken (s := s.complete r) (fs := fs) hw hf hb hh hn]
  obtain ⟨fu, pool, inl, ins, port, requests⟩ := State.halfTaken_facts (w := w) (k := k) (h := h) (hs := hs) s r hf
  generalize (s.complete r).halfTaken y w k h hs = u at *
  have frames : (u.inl y).frames = { f with halves := hs } :: fs := by rw [inl]
  have wait : u.settleOnce y = none :=
    State.settleOnce_wait frames (.inl ⟨by rw [hb]; nofun, ho⟩)
  rw [State.settle_of_none wait]
  cases hs with
  | nil =>
    rw [State.tryWrite_of_no_half frames rfl]
    refine ⟨_, rfl, OtherIns.regrant ins, fun v hv => ?_, ?_, ?_, nofun, OthersWait.of_same port requests,
      (fu.andThen (regrant_frame _))⟩
    · rw [State.regrant_pool, pool, if_neg hv]
    · rw [State.regrant_inl, inl]
    · rw [State.regrant_pool, pool, if_pos rfl]
  | cons g gs =>
    have window : u.inWindow y = some w := (State.inWindow_congr (fu .windows (by decide)) y).trans hw
    have listed : u.listed (.inLane y) = false := by
      rw [State.listed_congr requests, State.listed_eq_false]
      exact hl
    have idle : u.inProgress (.inLane y) = false := by rw [State.inProgress, port]
    have asks : u.halfWrite y w k g = s.halfWrite y w k g := by
      unfold State.halfWrite
      rw [State.win_congr (fu .windows (by decide))]
    rw [State.tryWrite_asks window frames hb rfl listed idle, asks]
    refine ⟨_, rfl, OtherIns.regrant ins, fun v hv => ?_, ?_, ?_, fun g' gs' e => ?_,
      OthersWait.of_join port requests rfl,
      (fu.andThen (join_frame _ _) (m := [.mem, .port, .pools, .ins, .requests])).andThen (regrant_frame _)⟩
    · rw [State.regrant_pool, State.join_pool, pool, if_neg hv]
    · rw [State.regrant_inl]
      exact inl
    · rw [State.regrant_pool, State.join_pool, pool, if_pos rfl]
    · cases e
      exact State.follows_join _ _

/-- The buffers after a last half and the commit that follows it (R21, R42). -/
theorem Pool.taken_commit_bufs (p : Pool) (k : Fin 8) (i : Nat) (e : Enables) (n : Half) (time : Word) (c : Fin 8) :
    (Pool.commit { p.modBuf k (Buffer.mark i e) with nextInbound := n + 1 } k n time none).bufs[c] =
      if c = k then { st := .ready, holders := HolderSet.empty, seq := n, time := time, map := [] }
      else Buffer.afterCommit (decide (p.find .ready = some c)) p.bufs[c] := by
  split
  · next h => subst h; exact (Pool.commit_bufs _ _ _ _ _).1
  · next h =>
    have find : Pool.find { p.modBuf k (Buffer.mark i e) with nextInbound := n + 1 } .ready = p.find .ready :=
      Pool.find_mark _ _ _ _ _
    have same : Pool.bufs { p.modBuf k (Buffer.mark i e) with nextInbound := n + 1 } =
        (p.modBuf k (Buffer.mark i e)).bufs := rfl
    rw [Pool.commit_others_eq _ _ _ _ _ h, find, same, Pool.bufs_modBuf, if_neg h]
    rfl

/-- The state after a last half and the commit that follows it, before the head frame leaves (R42). -/
def State.headCommitted (s : State) (r : Request) (y : Fin 2) (w : Fin 16) (k : Fin 8) (f : InFrame) (h : RxHalf) :
    State :=
  (((s.complete r).halfTaken y w k h []).inboundTaken w).commit w k (s.pool w).nextInbound f.time none 0

/-- The head frame leaves after its commit, and the frames behind it settle (R42, R153, R158). -/
theorem State.halfWritten_commits (hw : s.inWindow y = some w)
    (hf : (s.inl y).frames = f :: fs) (hb : f.buffer = some k) (hh : f.halves = [h]) (ho : f.outcome = .good)
    (hm : (((s.pool w).bufs[k].map).add h.word h.enables).full (s.win w).payloadLength = true) :
    (s.complete r).halfWritten y = ((s.headCommitted r y w k f h).modIn y InLane.popHead).settle y := by
  have hn : f.outcome ≠ .discard := by rw [ho]; nofun
  rw [State.halfWritten_taken (s := s.complete r) (fs := fs) hw hf hb hh hn]
  unfold State.headCommitted
  obtain ⟨fu, pool, inl, _, _, _⟩ := State.halfTaken_facts (w := w) (k := k) (h := h) (hs := []) s r hf
  generalize (s.complete r).halfTaken y w k h [] = u at *
  have here := (pool w).trans (if_pos rfl)
  have frames : (u.inl y).frames = { f with halves := [] } :: fs := by rw [inl]
  have window : u.inWindow y = some w := (State.inWindow_congr (fu .windows (by decide)) y).trans hw
  have full : ((u.pool w).bufs[k].map).full (u.win w).payloadLength = true := by
    rw [here, State.win_congr (fu .windows (by decide)), Pool.bufs_modBuf, if_pos rfl]
    exact hm
  have next : (u.pool w).nextInbound = (s.pool w).nextInbound := by rw [here]; rfl
  rw [State.settle_of_some (State.settleOnce_commit frames ho hb rfl), State.commitHead_full window full, next]

/-- What the commit of a head frame leaves, before the frame itself leaves. -/
theorem State.headCommitted_facts (s : State) (r : Request) (hf : (s.inl y).frames = f :: fs) :
    ChangesOnly [.mem, .port, .pools, .ins] s (((s.complete r).halfTaken y w k h []).inboundTaken w) ∧
      OtherPools w s (((s.complete r).halfTaken y w k h []).inboundTaken w) ∧
      ((((s.complete r).halfTaken y w k h []).inboundTaken w).pool w =
        { (s.pool w).modBuf k (Buffer.mark h.word h.enables) with nextInbound := (s.pool w).nextInbound + 1 }) ∧
      (s.headCommitted r y w k f h).inl y = { s.inl y with frames := { f with halves := [] } :: fs } ∧
      OtherIns y s (s.headCommitted r y w k f h) ∧
      (∀ c : Fin 8, ((s.headCommitted r y w k f h).pool w).bufs[c] =
        if c = k then
          { st := .ready, holders := HolderSet.empty, seq := (s.pool w).nextInbound, time := f.time, map := [] }
        else Buffer.afterCommit (decide ((s.pool w).find .ready = some c)) (s.pool w).bufs[c]) ∧
      ((s.headCommitted r y w k f h).pool w).nextInbound = (s.pool w).nextInbound + 1 ∧
      ((s.headCommitted r y w k f h).pool w).expected = (s.pool w).expected ∧
      ((s.headCommitted r y w k f h).pool w).lastOutcome = (s.pool w).lastOutcome ∧
      ((s.headCommitted r y w k f h).pool w).job = (s.pool w).job := by
  obtain ⟨fu, pool, inl, ins, _, _⟩ := State.halfTaken_facts (w := w) (k := k) (h := h) (hs := []) s r hf
  unfold State.headCommitted
  generalize (s.complete r).halfTaken y w k h [] = u at *
  have here : (u.inboundTaken w).pool w =
      { (s.pool w).modBuf k (Buffer.mark h.word h.enables) with nextInbound := (s.pool w).nextInbound + 1 } := by
    unfold State.inboundTaken
    rw [State.pool_modPool, if_pos rfl, pool, if_pos rfl]
    rfl
  have fd := commit_frame (u.inboundTaken w) w k (s.pool w).nextInbound f.time none 0
  have cins : ∀ z, ((u.inboundTaken w).commit w k (s.pool w).nextInbound f.time none 0).inl z = u.inl z := fun z =>
    State.inl_congr (fd .ins (by decide)) z
  obtain ⟨expected, inbound, outcome, job⟩ :=
    (u.inboundTaken w).commit_rest w k (s.pool w).nextInbound f.time none 0
  have bufs := (u.inboundTaken w).commit_bufs w k (s.pool w).nextInbound f.time none 0
  rw [here] at expected inbound outcome job bufs
  refine ⟨fu.andThen (modPool_frame u w _), fun v hv => ?_, here, (cins y).trans inl, fun z hz => ?_, fun c => ?_,
    inbound, expected, outcome, job⟩
  · unfold State.inboundTaken
    rw [State.pool_modPool, if_neg hv, pool, if_neg hv]
  · rw [cins, ins z hz]
  · rw [bufs]
    exact Pool.taken_commit_bufs _ _ _ _ _ _ c

/-- The last half of a GOOD frame, alone in hand, that fills the map commits (R42, R158). -/
theorem State.inboundWrite_commits (hp : InProgress s r) (hr : r.who = .inLane y) (hw : s.inWindow y = some w)
    (hf : (s.inl y).frames = [f]) (hb : f.buffer = some k) (hh : f.halves = [h]) (ho : f.outcome = .good)
    (hm : (((s.pool w).bufs[k].map).add h.word h.enables).full (s.win w).payloadLength = true) :
    ∃ t, exec .inboundWritePerformed s = .next t ∧ OtherIns y s t ∧ OtherPools w s t ∧
      t.inl y = { s.inl y with frames := [] } ∧
      (∀ c : Fin 8, (t.pool w).bufs[c] =
        if c = k then
          { st := .ready, holders := HolderSet.empty, seq := (s.pool w).nextInbound, time := f.time, map := [] }
        else Buffer.afterCommit (decide ((s.pool w).find .ready = some c)) (s.pool w).bufs[c]) ∧
      (t.pool w).nextInbound = (s.pool w).nextInbound + 1 ∧ (t.pool w).expected = (s.pool w).expected ∧
      (t.pool w).lastOutcome = (s.pool w).lastOutcome ∧ (t.pool w).job = (s.pool w).job ∧
      CommitNoticed w (s.pool w).nextInbound 0 [] s t ∧ FlagsKept [.resumed, .journalLost] s t ∧
      OthersWait (.inLane y) s t ∧
      ChangesOnly [.ins, .pools, .flags, .journal, .mem, .requests, .port, .copyPtr] s t := by
  obtain ⟨fc, others, here, inl, ins, bufs, inbound, expected, outcome, job⟩ :=
    State.headCommitted_facts (w := w) (k := k) (h := h) s r hf
  have popped : ((s.headCommitted r y w k f h).modIn y InLane.popHead).inl y = { s.inl y with frames := [] } := by
    rw [State.modIn_inl, inl]
    rfl
  rw [State.inboundWrite_next hp hr, State.halfWritten_commits (fs := []) hw hf hb hh ho hm,
    State.settle_rest (by rw [popped])]
  obtain ⟨otherPools, noticed, flags, wait, changed⟩ := State.commit_performed (s := s) (q := .inLane y) (w := w)
    (k := k) (seq := (s.pool w).nextInbound) (time := f.time) (source := none) (copied := 0)
    (t := (s.headCommitted r y w k f h).modIn y InLane.popHead) fc rfl others
    (by rw [here]; exact ⟨rfl, rfl, rfl, rfl⟩) ((modIn_frame _ y _).mono (by decide)) (fun _ _ => rfl) rfl
    (fun _ h => h) fun _ h => .inl h
  refine ⟨_, rfl, OtherIns.regrant fun z hz => ?_, otherPools, ?_, fun c => ?_, ?_, ?_, ?_, ?_, noticed, flags, wait,
    changed⟩
  · rw [State.modIn_others _ _ _ z hz, ins z hz]
  · rw [State.regrant_inl, popped]
  all_goals rw [State.regrant_pool, State.modIn_pool]
  · exact bufs c
  · exact inbound
  · exact expected
  · exact outcome
  · exact job

theorem State.modIn_modIn (s : State) (y : Fin 2) (u v : InLane → InLane) :
    (s.modIn y u).modIn y v = s.modIn y fun l => v (u l) := by
  simp [State.modIn]

/-- A discard forgets what was marked. -/
theorem Pool.discard_mark (p : Pool) (k : Fin 8) (i : Nat) (e : Enables) :
    (p.modBuf k (Buffer.mark i e)).modBuf k Buffer.discard = p.modBuf k Buffer.discard := by
  simp [Pool.modBuf, Buffer.mark, Buffer.discard]

theorem InLane.popHead_modHead (l : InLane) (u : InFrame → InFrame) : (l.modHead u).popHead = l.popHead := by
  unfold InLane.popHead InLane.modHead
  cases l.frames <;> rfl

/-- A discard of the head frame forgets the half taken before. -/
theorem State.discard_halfTaken (s : State) (y : Fin 2) (w : Fin 16) (k : Fin 8) (h : RxHalf) (hs : List RxHalf) :
    ((s.halfTaken y w k h hs).modPool w fun p => p.modBuf k Buffer.discard).modIn y InLane.popHead =
      (s.modPool w fun p => p.modBuf k Buffer.discard).modIn y InLane.popHead := by
  have e : ((s.halfTaken y w k h hs).modPool w fun p => p.modBuf k Buffer.discard).modIn y InLane.popHead =
      (((s.modPool w fun p => p.modBuf k (Buffer.mark h.word h.enables)).modPool w fun p =>
        p.modBuf k Buffer.discard).modIn y fun l => l.modHead fun f => { f with halves := hs }).modIn y
          InLane.popHead := rfl
  rw [e, State.modPool_modPool, State.modIn_modIn]
  simp only [Pool.discard_mark, InLane.popHead_modHead]

/-- With a map that is not full the head frame's buffer is discarded and INBOUND_CUT raised (R158). -/
theorem State.halfWritten_cut (hw : s.inWindow y = some w)
    (hf : (s.inl y).frames = f :: fs) (hb : f.buffer = some k) (hh : f.halves = [h]) (ho : f.outcome = .good)
    (hm : (((s.pool w).bufs[k].map).add h.word h.enables).full (s.win w).payloadLength = false) :
    (s.complete r).halfWritten y =
      ((((s.complete r).modPool w fun p => p.modBuf k Buffer.discard).modIn y InLane.popHead).raiseCut y f.number
        .malformed).settle y := by
  have hn : f.outcome ≠ .discard := by rw [ho]; nofun
  rw [State.halfWritten_taken (s := s.complete r) (fs := fs) hw hf hb hh hn,
    ← State.discard_halfTaken (s.complete r) y w k h []]
  obtain ⟨fu, pool, inl, _, _, _⟩ := State.halfTaken_facts (w := w) (k := k) (h := h) (hs := []) s r hf
  generalize (s.complete r).halfTaken y w k h [] = u at *
  have frames : (u.inl y).frames = { f with halves := [] } :: fs := by rw [inl]
  have window : u.inWindow y = some w := (State.inWindow_congr (fu .windows (by decide)) y).trans hw
  have short : ((u.pool w).bufs[k].map).full (u.win w).payloadLength = false := by
    rw [pool, if_pos rfl, State.win_congr (fu .windows (by decide)), Pool.bufs_modBuf, if_pos rfl]
    exact hm
  rw [State.settle_of_some (State.settleOnce_commit frames ho hb rfl), State.commitHead_short window short,
    State.discardHead_eq (f := { f with halves := [] }) window hb]

/-- The last half of a GOOD frame, alone in hand, that leaves the map unfilled cuts the frame (R158). -/
theorem State.inboundWrite_cuts (hp : InProgress s r) (hr : r.who = .inLane y) (hw : s.inWindow y = some w)
    (hf : (s.inl y).frames = [f]) (hb : f.buffer = some k) (hh : f.halves = [h]) (ho : f.outcome = .good)
    (hm : (((s.pool w).bufs[k].map).add h.word h.enables).full (s.win w).payloadLength = false) :
    ∃ t, exec .inboundWritePerformed s = .next t ∧ OtherIns y s t ∧ OtherPools w s t ∧
      t.inl y = { s.inl y with frames := [], cuts := sat8 (s.inl y).cuts } ∧
      t.pool w = (s.pool w).modBuf k Buffer.discard ∧
      Reported s t .inboundCut (some y.val) ((f.number.getD 0).setWidth 32) 0 ∧ OthersWait (.inLane y) s t ∧
      ChangesOnly [.ins, .pools, .flags, .journal, .mem, .requests, .port, .copyPtr] s t := by
  rw [State.inboundWrite_next hp hr, State.halfWritten_cut (fs := []) hw hf hb hh ho hm]
  have fu : ChangesOnly [.mem, .port, .pools, .ins] s
      (((s.complete r).modPool w fun p => p.modBuf k Buffer.discard).modIn y InLane.popHead) :=
    ((s.complete_congr r).andThen (modPool_frame _ w _) (m := [.mem, .port, .pools])).andThen (modIn_frame _ y _)
  have pool : ∀ v, (((s.complete r).modPool w fun p => p.modBuf k Buffer.discard).modIn y InLane.popHead).pool v =
      if v = w then (s.pool w).modBuf k Buffer.discard else s.pool v := fun v => by
    rw [State.modIn_pool, State.pool_modPool]
    rfl
  have inl : (((s.complete r).modPool w fun p => p.modBuf k Buffer.discard).modIn y InLane.popHead).inl y =
      { s.inl y with frames := [] } := by
    rw [State.modIn_inl]
    change (s.inl y).popHead = _
    rw [InLane.popHead, hf]
    rfl
  have ins : OtherIns y s (((s.complete r).modPool w fun p => p.modBuf k Buffer.discard).modIn y InLane.popHead) :=
    fun z hz => State.modIn_others _ y _ z hz
  have port : (((s.complete r).modPool w fun p => p.modBuf k Buffer.discard).modIn y InLane.popHead).port = none :=
    rfl
  generalize ((s.complete r).modPool w fun p => p.modBuf k Buffer.discard).modIn y InLane.popHead = u at *
  have cut : (u.raiseCut y f.number .malformed).inl y = { s.inl y with frames := [], cuts := sat8 (s.inl y).cuts } := by
    rw [State.raiseCut_inl, inl]
  have fc := raiseCut_frame u y f.number .malformed
  rw [State.settle_rest (by rw [cut])]
  refine ⟨_, rfl, OtherIns.regrant fun z hz => ?_, fun v hv => ?_, ?_, ?_, ?_, ?_, ?_⟩
  · unfold State.raiseCut
    rw [State.raise_inl, State.modIn_others _ _ _ z hz, ins z hz]
  · rw [State.regrant_pool, State.pool_congr (fc .pools (by decide)), pool, if_neg hv]
  · rw [State.regrant_inl, cut]
  · rw [State.regrant_pool, State.pool_congr (fc .pools (by decide)), pool, if_pos rfl]
  · have reported : Reported s (u.raiseCut y f.number .malformed) .inboundCut (some y.val)
        ((f.number.getD 0).setWidth 32) 0 :=
      State.raise_reported (s := s) (u := u.modIn y _) (fu .flags (by decide)) (fu .journal (by decide))
        (fu .header (by decide)) (fu .timeBase (by decide)) (by decide) _ _ _
    exact reported.of_eq (regrant_frame _ .flags (by decide)) (regrant_frame _ .journal (by decide))
  · exact OthersWait.of_raise (u := u.modIn y _) port (fu .requests (by decide)) _ _ _ _
  · exact (fu.andThen fc (m := [.mem, .port, .pools, .ins, .flags, .journal, .requests])).andThen (regrant_frame _)

end

/-- Settles O25, outcome by outcome of the head frame. -/
theorem inboundWriteIsPerformed : Obligations.InboundWriteIsPerformed := by
  refine ⟨fun s r y w k f hp hr _ hw hf ho hb => State.inboundWrite_discarded hp hr hw hf ho hb,
    fun s r y w k f fs h hs hp hr _ hl hw hf hb hh => ⟨fun ho => ?_, fun ho he hn hm => ?_, fun ho he hn hm => ?_⟩⟩
  · obtain ⟨t, e, ins, pools, inl, pool, asks, wait, changed⟩ :=
      State.inboundWrite_goesOn hp hr hl hw hf hb hh ho
    refine ⟨t, e, ins, pools, inl, by rw [pool]; rfl, fun c hc => ?_, ?_, fun g gs e => asks g gs e, wait, changed⟩
    · rw [pool, Pool.bufs_modBuf, if_neg hc]
    · rw [pool, Pool.bufs_modBuf, if_pos rfl]
      rfl
  · subst he hn
    obtain ⟨t, e, ins, pools, inl, bufs, rest⟩ := State.inboundWrite_commits hp hr hw hf hb hh ho hm
    refine ⟨t, e, ins, pools, inl, (bufs k).trans (if_pos rfl), fun c hc => ?_, rest⟩
    rw [bufs c, if_neg hc]
    unfold Buffer.afterCommit
    by_cases hr : (s.pool w).find .ready = some c <;> simp [hr]
  · subst he hn
    exact State.inboundWrite_cuts hp hr hw hf hb hh ho hm

end Sys2Proof.Machine

/-! SUPPORT. The frame behind a settled head: it is given the lowest FREE buffer, or refused with every frame
behind it (R153, R158). -/

namespace Sys2Proof.Machine

section
variable {s : State} {y : Fin 2} {w : Fin 16} {g : InFrame} {gs : List InFrame}

theorem State.inboundFree_of_find (h : (s.pool w).find .filling = none) : s.inboundFree w = s.freeBuffer w := by
  unfold State.inboundFree
  rw [h]

theorem State.inboundFree_none (h : s.freeBuffer w = none) : s.inboundFree w = none := by
  unfold State.inboundFree
  split
  · rfl
  · exact h

/-- A head without a buffer is given the lowest FREE one. -/
theorem State.allocateHead_some {c : Fin 8} (hw : s.inWindow y = some w) (hc : s.inboundFree w = some c) :
    s.allocateHead y g = (s.modPool w fun p => p.modBuf c Buffer.allocate).modIn y fun l =>
      l.modHead fun h => { h with buffer := some c } := by
  unfold State.allocateHead
  rw [hw]
  dsimp only
  rw [hc]

theorem State.allocateHead_none (hw : s.inWindow y = some w) (hc : s.inboundFree w = none) :
    s.allocateHead y g = s.refuseFrame y g := by
  unfold State.allocateHead
  rw [hw]
  dsimp only
  rw [hc]

/-- The head frame, which has no buffer and is not yet settled, is given the lowest FREE buffer, and asks for
its first half write (R153, R155). -/
theorem State.settle_next {c : Fin 8} (hw : s.inWindow y = some w) (hf : (s.inl y).frames = g :: gs)
    (hb : g.buffer = none) (ho : g.outcome = .opened ∨ g.outcome = .good ∧ g.halves ≠ [])
    (hi : g.halves ≠ [] → s.listed (.inLane y) = false ∧ s.inProgress (.inLane y) = false)
    (hc : s.inboundFree w = some c) :
    ChangesOnly [.ins, .pools, .requests] s (s.settle y) ∧ OtherIns y s (s.settle y) ∧
      (s.settle y).inl y = { s.inl y with frames := { g with buffer := some c } :: gs } ∧
      (∀ z, (s.settle y).pool z = if z = w then (s.pool w).modBuf c Buffer.allocate else s.pool z) ∧
      (g.halves = [] → (s.settle y).requests = s.requests) ∧
      ∀ h hs, g.halves = h :: hs → (s.settle y).requests = s.requests ++ [s.halfWrite y w c h] := by
  have hn : g.outcome ≠ .discard := fun e => by rw [e] at ho; rcases ho with ho | ⟨ho, _⟩ <;> cases ho
  rw [State.settle_of_some (State.settleOnce_allocate hf hn hb), State.allocateHead_some hw hc]
  have fu : ChangesOnly [.ins, .pools] s ((s.modPool w fun p => p.modBuf c Buffer.allocate).modIn y fun l =>
      l.modHead fun h => { h with buffer := some c }) := (modPool_frame s w _).andThen (modIn_frame _ y _)
  have ins : OtherIns y s ((s.modPool w fun p => p.modBuf c Buffer.allocate).modIn y fun l =>
      l.modHead fun h => { h with buffer := some c }) := fun z hz => State.modIn_others _ y _ z hz
  have inl : ((s.modPool w fun p => p.modBuf c Buffer.allocate).modIn y fun l =>
      l.modHead fun h => { h with buffer := some c }).inl y =
        { s.inl y with frames := { g with buffer := some c } :: gs } := by
    rw [State.modIn_inl]
    exact InLane.modHead_eq hf _
  have pool : ∀ z, ((s.modPool w fun p => p.modBuf c Buffer.allocate).modIn y fun l =>
      l.modHead fun h => { h with buffer := some c }).pool z =
        if z = w then (s.pool w).modBuf c Buffer.allocate else s.pool z := fun z => by
    rw [State.modIn_pool, State.pool_modPool]
  generalize (s.modPool w fun p => p.modBuf c Buffer.allocate).modIn y _ = u at *
  have frames : (u.inl y).frames = { g with buffer := some c } :: gs := by rw [inl]
  have wait : u.settleOnce y = none := State.settleOnce_wait frames (.inl ⟨nofun, ho⟩)
  rw [State.settle_of_none wait]
  have ft := tryWrite_frame u y
  refine ⟨fu.andThen ft, fun z hz => ?_, ?_, fun z => ?_, fun hh => ?_, fun h hs hh => ?_⟩
  · rw [State.inl_congr (ft .ins (by decide)), ins z hz]
  · rw [State.inl_congr (ft .ins (by decide)), inl]
  · rw [State.pool_congr (ft .pools (by decide)), pool]
  · rw [State.tryWrite_of_no_half frames hh]
    exact fu .requests (by decide)
  · have window : u.inWindow y = some w := (State.inWindow_congr (fu .windows (by decide)) y).trans hw
    have asks : u.halfWrite y w c h = s.halfWrite y w c h := by
      unfold State.halfWrite
      rw [State.win_congr (fu .windows (by decide))]
    obtain ⟨hl, hp⟩ := hi (by rw [hh]; nofun)
    have listed := (State.listed_congr (fu .requests (by decide)) (.inLane y)).trans hl
    have idle := (State.inProgress_congr (fu .port (by decide)) (.inLane y)).trans hp
    rw [State.tryWrite_asks window frames rfl hh listed idle, asks, State.join_requests,
      fu .requests (by decide)]

/-! ### Refusals in a row (R153) -/

/-- Every frame of a list is refused, from the head on. -/
def State.refuseAll (s : State) (y : Fin 2) (bs : List InFrame) : State :=
  bs.foldl (fun t b => t.refuseFrame y b) s

theorem State.settle_refused (bs : List InFrame) (s : State) (hw : s.inWindow y = some w)
    (hf : (s.inl y).frames = bs) (hb : ∀ b ∈ bs, b.buffer = none ∧ b.outcome ≠ .discard)
    (hc : s.inboundFree w = none) : s.settle y = s.refuseAll y bs := by
  induction bs generalizing s with
  | nil => exact State.settle_rest hf
  | cons b bs ih =>
    obtain ⟨none, kept⟩ := hb b List.mem_cons_self
    have f := refuseFrame_frame s y b
    rw [State.settle_of_some (State.settleOnce_allocate hf kept none), State.allocateHead_none hw hc]
    refine ih _ ((State.inWindow_congr (f .windows (by decide)) y).trans hw) ?_
      (fun b hm => hb b (List.mem_cons_of_mem _ hm)) ?_
    · rw [State.refuseFrame_inl, hf]; rfl
    · have pool := State.pool_congr (f .pools (by decide)) w
      have win := State.win_congr (f .windows (by decide)) w
      unfold State.inboundFree State.freeBuffer at hc ⊢
      rw [pool, win]
      exact hc

theorem State.refuseAll_frame (bs : List InFrame) (s : State) :
    ChangesOnly [.ins, .flags, .journal, .requests] s (s.refuseAll y bs) :=
  ChangesOnly.foldl _ (fun t b => refuseFrame_frame t y b) bs s

theorem State.refuseFrame_others (s : State) (b : InFrame) : OtherIns y s (s.refuseFrame y b) := fun z hz => by
  unfold State.refuseFrame
  rw [State.modIn_others _ _ _ z hz, State.raise_inl]

theorem State.refuseAll_others (bs : List InFrame) (s : State) : OtherIns y s (s.refuseAll y bs) := by
  induction bs generalizing s with
  | nil => exact fun _ _ => rfl
  | cons b bs ih => exact fun z hz => (ih (s.refuseFrame y b) z hz).trans (s.refuseFrame_others b z hz)

theorem State.refuseAll_asks (q : Requester) (bs : List InFrame) (s : State) :
    OnlyRequestsOf q s (s.refuseAll y bs) := by
  induction bs generalizing s with
  | nil => exact .refl q s
  | cons b bs ih => exact OnlyRequestsOf.trans (State.raise_onlyRequestsOf s q _ _ _ _) (ih (s.refuseFrame y b))

/-- What a row of refusals leaves of the lane: only the last frame can be arriving still. -/
theorem State.refuseAll_inl (bs : List InFrame) (s : State) (last : InFrame) (hf : (s.inl y).frames = bs)
    (hg : ∀ b ∈ bs.dropLast, b.outcome = .good) (hl : bs.getLast? = some last) :
    (s.refuseAll y bs).inl y = { s.inl y with
      st := if last.outcome = .opened then .discarding else (s.inl y).st
      frames := []
      noBuffers := bs.foldl (fun n _ => sat8 n) (s.inl y).noBuffers
      slot := if last.outcome = .opened then (if last.number = none then some 0 else none) else (s.inl y).slot } := by
  induction bs generalizing s with
  | nil => cases hl
  | cons b bs ih =>
    have inl := s.refuseFrame_inl (y := y) (f := b)
    cases bs with
    | nil =>
      obtain rfl : b = last := by simpa using hl
      change (s.refuseFrame y b).inl y = _
      rw [inl, hf]
      rfl
    | cons b' bs =>
      have good : b.outcome = .good := hg b (by simp)
      have next := ih (s.refuseFrame y b) (by rw [inl, hf]; rfl)
        (fun c hc => hg c (by rw [List.dropLast_cons_cons]; exact List.mem_cons_of_mem _ hc))
        (by rw [← hl]; rfl)
      change ((s.refuseFrame y b).refuseAll y (b' :: bs)).inl y = _
      rw [next, inl, good]
      rfl

/-- The flags after a row of refusals (R153, R179). -/
theorem State.refuseAll_flags (bs : List InFrame) (s : State) :
    FlagsKept [.inboundNoBuffer, .journalLost] s (s.refuseAll y bs) ∧ FlagsGrow s (s.refuseAll y bs) ∧
      (bs ≠ [] → (s.refuseAll y bs).raised .inboundNoBuffer = true) := by
  induction bs generalizing s with
  | nil => exact ⟨fun _ _ => rfl, .refl s, fun h => absurd rfl h⟩
  | cons b bs ih =>
    obtain ⟨raised, kept, grow⟩ := s.raise_flags .inboundNoBuffer (some y.val) ((b.number.getD 0).setWidth 32)
      (num (match s.inWindow y with | some w => (s.pool w).retiredCount | none => 0)) (by decide)
    obtain ⟨kept', grow', _⟩ := ih (s.refuseFrame y b)
    have grow1 : FlagsGrow s (s.refuseFrame y b) := grow
    refine ⟨fun k hk => (kept' k hk).trans (kept k hk), grow1.trans grow', fun _ => ?_⟩
    exact grow' _ raised

/-- A row of refusals after a commit: JW is offered the entries of the commit, and then theirs (R42, R153). -/
theorem State.refuseAll_noticed (bs : List InFrame) (u : State) {seq : Half} {l : List JEntry} {n : Nat}
    (h : CommitNoticed w seq 0 l s u) (hh : u.header = s.header) (ht : u.timeBase = s.timeBase)
    (hw : u.inWindow y = some w) (hn : (u.pool w).retiredCount = n) :
    CommitNoticed w seq 0 (l ++ bs.map fun b =>
      { kind := .inboundNoBuffer, source := some y.val, time := s.timeBase, detail1 := (b.number.getD 0).setWidth 32
        detail2 := num n }) s (u.refuseAll y bs) := by
  induction bs generalizing u l with
  | nil =>
    rw [List.map_nil, List.append_nil]
    exact h
  | cons b bs ih =>
    have f := refuseFrame_frame u y b
    have e : u.refuseFrame y b = (u.raise .inboundNoBuffer (some y.val) ((b.number.getD 0).setWidth 32)
        (num n)).modIn y fun l =>
      { l.popHead with
        noBuffers := sat8 l.noBuffers
        st := if b.outcome = .opened then .discarding else l.st
        slot := if b.outcome = .opened then (if b.number = none then some 0 else none) else l.slot } := by
      unfold State.refuseFrame
      rw [hw, ← hn]
    have noticed := (h.raise hh .inboundNoBuffer (by decide) (some y.val) ((b.number.getD 0).setWidth 32)
      (num n)).of_eq (u := u.refuseFrame y b) (by rw [e]; rfl) (by rw [e]; rfl) (by rw [e]; rfl) (by rw [e]; rfl)
      fun z => by rw [e, State.modIn_pool]; exact ⟨rfl, rfl, rfl, rfl, rfl⟩
    rw [ht] at noticed
    have rest := ih (u.refuseFrame y b) noticed ((f .header (by decide)).trans hh)
      ((f .timeBase (by decide)).trans ht) ((State.inWindow_congr (f .windows (by decide)) y).trans hw)
      (by rw [State.pool_congr (f .pools (by decide))]; exact hn)
    rw [List.append_assoc] at rest
    exact rest

/-! ### The next frame (R153, R158) -/

/-- The lowest FREE buffer of the window. -/
theorem State.freeBuffer_lowest {c : Fin 8} (h : s.freeBuffer w = some c) :
    c.val < (s.win w).bufferCount ∧ (s.pool w).bufs[c].st = .free ∧
      ∀ d : Fin 8, d < c → (s.pool w).bufs[d].st ≠ .free := by
  obtain ⟨⟨hc, hst⟩, before⟩ := (s.freeBuffer_iff w c).1 h
  exact ⟨hc, hst, fun d hd e => before d hd ⟨lt_trans hd hc, e⟩⟩

/-- The settled head has left its window's buffers as `after` says, with no FILLING one and a FREE one: the next
frame is given its buffer. -/
theorem State.next_allocated {u : State} {after : Fin 8 → Buffer} (hw : u.inWindow y = some w)
    (hf : (u.inl y).frames = g :: gs) (hb : g.buffer = none)
    (ho : g.outcome = .opened ∨ g.outcome = .good ∧ g.halves ≠ []) (hl : u.listed (.inLane y) = false)
    (hp : u.port = none) (windows : u.windows = s.windows) (bufs : ∀ c, (u.pool w).bufs[c] = after c)
    (hn : ∀ c, (after c).st ≠ .filling)
    (hfree : ∃ c : Fin 8, c.val < (s.win w).bufferCount ∧ (after c).st = .free) :
    NextAllocated y w g gs after s (u.settle y).regrant ∧
      ChangesOnly [.ins, .pools, .requests] u (u.settle y) ∧ OtherIns y u (u.settle y) ∧
      OtherPools w u (u.settle y) ∧ OnlyBuffers w u (u.settle y) ∧
      (u.settle y).inl y = { u.inl y with frames := ((u.settle y).inl y).frames } ∧
      (∀ r ∈ u.requests, r ∈ (u.settle y).requests) ∧
      ∀ r ∈ (u.settle y).requests, r ∈ u.requests ∨ r.who = .inLane y := by
  have win : u.win w = s.win w := State.win_congr windows w
  obtain ⟨c, hc⟩ : ∃ c, u.freeBuffer w = some c := by
    refine Option.ne_none_iff_exists'.1 fun e => ?_
    obtain ⟨c, hlt, hst⟩ := hfree
    refine State.freeBuffer_none.1 e c (by rw [win]; exact hlt) ?_
    rw [bufs]; exact hst
  have free : u.inboundFree w = some c :=
    (State.inboundFree_of_find (Pool.find_none.2 fun c => by rw [bufs]; exact hn c)).trans hc
  obtain ⟨hlt, hst, before⟩ := State.freeBuffer_lowest hc
  obtain ⟨frame, ins, inl, pool, quiet, asks⟩ := State.settle_next hw hf hb ho
    (fun _ => ⟨hl, by rw [State.inProgress, hp]⟩) free
  have here := (pool w).trans (if_pos rfl)
  have requests : (u.settle y).requests = u.requests ∨
      ∃ h hs, g.halves = h :: hs ∧ (u.settle y).requests = u.requests ++ [u.halfWrite y w c h] := by
    cases hh : g.halves with
    | nil => exact .inl (quiet hh)
    | cons h hs => exact .inr ⟨h, hs, rfl, asks h hs hh⟩
  refine ⟨⟨c, by rw [← win]; exact hlt, ?_, fun d hd => ?_, ?_, ?_, fun d hd => ?_, fun h hs hh => ?_⟩, frame, ins,
    fun z hz => (pool z).trans (if_neg hz), ?_, ?_, fun r hr => ?_, fun r hr => ?_⟩
  · rw [← bufs]; exact hst
  · rw [← bufs]; exact before d hd
  · rw [State.regrant_inl, inl]
  · rw [State.regrant_pool, here, Pool.bufs_modBuf, if_pos rfl, Buffer.allocate_eq]
  · rw [State.regrant_pool, here, Pool.bufs_modBuf, if_neg hd, bufs]
  · have e : u.halfWrite y w c h = s.halfWrite y w c h := by
      unfold State.halfWrite
      rw [win]
    refine State.follows_regrant ?_
    rw [asks h hs hh, e]
    exact List.mem_append_right _ (List.mem_singleton_self _)
  · unfold OnlyBuffers
    rw [here]
    rfl
  · rw [inl]
  · rcases requests with e | ⟨h, hs, _, e⟩ <;> rw [e]
    · exact hr
    · exact List.mem_append_left _ hr
  · rcases requests with e | ⟨h, hs, _, e⟩ <;> rw [e] at hr
    · exact .inl hr
    · rcases List.mem_append.1 hr with hr | hr
      · exact .inl hr
      · rw [List.mem_singleton.1 hr]; exact .inr rfl

end

end Sys2Proof.Machine

/-! SUPPORT. The settlement of a head frame with others behind it (R42, R153, R158). -/

namespace Sys2Proof.Machine

section
variable {s : State} {r : Request} {y : Fin 2} {w : Fin 16} {k : Fin 8} {f g : InFrame} {gs : List InFrame}
  {h : RxHalf} {after : Fin 8 → Buffer}

/-- What a superseded buffer is not. -/
theorem Buffer.afterCommit_filling {ready : Bool} {b : Buffer} (h : (b.afterCommit ready).st = .filling) :
    b.st = .filling := by
  unfold Buffer.afterCommit at h
  split at h
  · dsimp only at h
    split at h <;> cases h
  · exact h

/-- The lane has no request on a list that JW alone has added to. -/
theorem State.unlisted {u : State} {q : Requester} (hq : q ≠ .journal)
    (hl : q ∉ s.requests.map Request.who) (hr : ∀ p ∈ u.requests, p ∈ s.requests ∨ p.who = .journal) :
    u.listed q = false := by
  rw [State.listed_eq_false]
  intro hm
  obtain ⟨p, hp, e⟩ := List.mem_map.1 hm
  rcases hr p hp with h | h
  · exact hl (List.mem_map.2 ⟨p, h, e⟩)
  · exact hq (e.symm.trans h)

/-- The buffers a commit leaves: none is FILLING but one that was, other than the committed one. -/
theorem committed_not_filling (fill : ∀ c : Fin 8, (s.pool w).bufs[c].st = .filling ↔ c = k) {n : Half} {time : Word}
    (c : Fin 8) :
    (if c = k then ({ st := .ready, holders := HolderSet.empty, seq := n, time := time, map := [] } : Buffer)
      else Buffer.afterCommit (decide ((s.pool w).find .ready = some c)) (s.pool w).bufs[c]).st ≠ .filling := by
  split
  · nofun
  · next hc => exact fun e => hc ((fill c).1 (Buffer.afterCommit_filling e))

/-- The notice of a head frame's commit, before the frame leaves (R42). -/
theorem State.headCommitted_noticed (s : State) (r : Request) (hf : (s.inl y).frames = f :: g :: gs) :
    CommitNoticed w (s.pool w).nextInbound 0 [] s (s.headCommitted r y w k f h) ∧
      FlagsKept [.resumed, .journalLost] s (s.headCommitted r y w k f h) ∧
      ChangesOnly [.mem, .port, .pools, .ins, .flags, .journal, .requests] s (s.headCommitted r y w k f h) ∧
      OtherPools w s (s.headCommitted r y w k f h) ∧ (s.headCommitted r y w k f h).port = none ∧
      (∀ p ∈ s.requests, p ∈ (s.headCommitted r y w k f h).requests) ∧
      ∀ p ∈ (s.headCommitted r y w k f h).requests, p ∈ s.requests ∨ p.who = .journal := by
  obtain ⟨fc, others, here, _⟩ := State.headCommitted_facts (w := w) (k := k) (h := h) s r hf
  unfold State.headCommitted
  have port : (((s.complete r).halfTaken y w k h []).inboundTaken w).port = none := rfl
  generalize ((s.complete r).halfTaken y w k h []).inboundTaken w = c at *
  have marks : ∀ z : Fin 16, (c.pool z).committed = (s.pool z).committed ∧
      (c.pool z).ownMark = (s.pool z).ownMark := fun z => by
    by_cases e : z = w
    · subst e; rw [here]; exact ⟨rfl, rfl⟩
    · rw [others z e]; exact ⟨rfl, rfl⟩
  obtain ⟨noticed, flags⟩ := State.commit_noticed (s0 := s) (s := c) w k (s.pool w).nextInbound f.time none 0
    (fc.mono (by decide)) marks (by rw [here]; rfl) (by rw [here]; rfl)
  obtain ⟨kept, asked⟩ := OnlyRequestsOf.keeps (c.commit_onlyRequestsOf w k (s.pool w).nextInbound f.time none 0)
  have before : c.requests = s.requests := fc .requests (by decide)
  rw [before] at kept asked
  have fd := commit_frame c w k (s.pool w).nextInbound f.time none 0
  refine ⟨noticed, flags, fc.andThen fd, fun z hz => ?_, (fd .port (by decide)).trans port, kept, asked⟩
  rw [c.commit_others w k _ _ _ _ z hz, others z hz]

theorem CommitNoticed.modIn {seq : Half} {n : Nat} {l : List JEntry} {u : State} (hc : CommitNoticed w seq n l s u)
    (v : InLane → InLane) : CommitNoticed w seq n l s (u.modIn y v) :=
  hc.of_eq rfl rfl rfl rfl fun _ => ⟨rfl, rfl, rfl, rfl, rfl⟩

/-- A GOOD head commits, and the next frame is given the lowest FREE buffer (R42, R153). -/
theorem State.inboundWrite_commits_next (hp : InProgress s r) (hr : r.who = .inLane y)
    (hl : Requester.inLane y ∉ s.requests.map Request.who) (hw : s.inWindow y = some w)
    (hf : (s.inl y).frames = f :: g :: gs) (hb : f.buffer = some k) (gb : g.buffer = none)
    (go : g.outcome = .opened ∨ g.outcome = .good ∧ g.halves ≠ [])
    (fill : ∀ c : Fin 8, (s.pool w).bufs[c].st = .filling ↔ c = k) (ho : f.outcome = .good) (hh : f.halves = [h])
    (hm : (((s.pool w).bufs[k].map).add h.word h.enables).full (s.win w).payloadLength = true)
    (ha : after = fun c => if c = k then
        { st := .ready, holders := HolderSet.empty, seq := (s.pool w).nextInbound, time := f.time, map := [] }
      else Buffer.afterCommit (decide ((s.pool w).find .ready = some c)) (s.pool w).bufs[c])
    (hfree : ∃ c : Fin 8, c.val < (s.win w).bufferCount ∧ (after c).st = .free) :
    ∃ t, exec .inboundWritePerformed s = .next t ∧ OtherIns y s t ∧ OtherPools w s t ∧
      NextAllocated y w g gs after s t ∧ (t.pool w).nextInbound = (s.pool w).nextInbound + 1 ∧
      (t.pool w).expected = (s.pool w).expected ∧ (t.pool w).lastOutcome = (s.pool w).lastOutcome ∧
      (t.pool w).job = (s.pool w).job ∧ CommitNoticed w (s.pool w).nextInbound 0 [] s t ∧
      t.inl y = { s.inl y with frames := (t.inl y).frames } ∧ FlagsKept [.resumed, .journalLost] s t ∧
      OthersWait (.inLane y) s t ∧
      ChangesOnly [.ins, .pools, .flags, .journal, .mem, .requests, .port, .copyPtr] s t := by
  subst ha
  obtain ⟨fc, others, here, inl, ins, bufs, inbound, expected, outcome, job⟩ :=
    State.headCommitted_facts (w := w) (k := k) (h := h) s r hf
  obtain ⟨_, _, fd, _, port, _, asked⟩ := State.headCommitted_noticed (w := w) (k := k) (h := h) s r hf
  have popped : ((s.headCommitted r y w k f h).modIn y InLane.popHead).inl y = { s.inl y with frames := g :: gs } := by
    rw [State.modIn_inl, inl]
    rfl
  rw [State.inboundWrite_next hp hr, State.halfWritten_commits (fs := g :: gs) hw hf hb hh ho hm]
  have window : ((s.headCommitted r y w k f h).modIn y InLane.popHead).inWindow y = some w :=
    (State.inWindow_congr (s := s) (fd .windows (by decide)) y).trans hw
  have listed : ((s.headCommitted r y w k f h).modIn y InLane.popHead).listed (.inLane y) = false :=
    State.unlisted (s := s) nofun hl asked
  obtain ⟨next, ft, tins, tpools, tbufs, tinl, kept, added⟩ := State.next_allocated (s := s) window
    (by rw [popped]) gb go listed port (fd .windows (by decide)) (fun c => bufs c) (committed_not_filling fill) hfree
  have ft' := (modIn_frame (s.headCommitted r y w k f h) y InLane.popHead).andThen ft (m := [.ins, .pools, .requests])
  generalize hv : ((s.headCommitted r y w k f h).modIn y InLane.popHead).settle y = v at *
  obtain ⟨otherPools, noticed, flags, wait, changed⟩ := State.commit_performed (s := s) (q := .inLane y) (w := w)
    (k := k) (seq := (s.pool w).nextInbound) (time := f.time) (source := none) (copied := 0) (t := v) fc rfl others
    (by rw [here]; exact ⟨rfl, rfl, rfl, rfl⟩) ft' tpools tbufs kept added
  have pool : v.pool w = { (s.headCommitted r y w k f h).pool w with bufs := (v.pool w).bufs } := tbufs
  refine ⟨_, rfl, OtherIns.regrant fun z hz => ?_, otherPools, next, ?_, ?_, ?_, ?_, noticed, ?_, flags, wait, changed⟩
  · rw [tins z hz, State.modIn_others _ _ _ z hz, ins z hz]
  · rw [State.regrant_pool, pool]; exact inbound
  · rw [State.regrant_pool, pool]; exact expected
  · rw [State.regrant_pool, pool]; exact outcome
  · rw [State.regrant_pool, pool]; exact job
  · rw [State.regrant_inl, tinl, popped]

/-- A GOOD head commits and no buffer is FREE: every frame behind it is refused (R42, R153). -/
theorem State.inboundWrite_commits_refused (hp : InProgress s r) (hr : r.who = .inLane y) (hw : s.inWindow y = some w)
    (hf : (s.inl y).frames = f :: g :: gs) (hb : f.buffer = some k) (gb : g.buffer = none)
    (go : g.outcome ≠ .discard) (ho : f.outcome = .good) (hh : f.halves = [h])
    (hm : (((s.pool w).bufs[k].map).add h.word h.enables).full (s.win w).payloadLength = true)
    (ha : after = fun c => if c = k then
        { st := .ready, holders := HolderSet.empty, seq := (s.pool w).nextInbound, time := f.time, map := [] }
      else Buffer.afterCommit (decide ((s.pool w).find .ready = some c)) (s.pool w).bufs[c])
    (hfree : ∀ c : Fin 8, c.val < (s.win w).bufferCount → (after c).st ≠ .free)
    (good : ∀ b ∈ (g :: gs).dropLast, b.outcome = .good) (rest : ∀ b ∈ gs, b.buffer = none ∧ b.outcome ≠ .discard)
    (last : InFrame) (hlast : (g :: gs).getLast? = some last) :
    ∃ t, exec .inboundWritePerformed s = .next t ∧ OtherIns y s t ∧ OtherPools w s t ∧
      (∀ c, (t.pool w).bufs[c] = after c) ∧ (t.pool w).nextInbound = (s.pool w).nextInbound + 1 ∧
      (t.pool w).expected = (s.pool w).expected ∧ (t.pool w).lastOutcome = (s.pool w).lastOutcome ∧
      (t.pool w).job = (s.pool w).job ∧
      CommitNoticed w (s.pool w).nextInbound 0
        ((g :: gs).map fun b =>
          { kind := .inboundNoBuffer, source := some y.val, time := s.timeBase
            detail1 := (b.number.getD 0).setWidth 32, detail2 := num (t.pool w).retiredCount }) s t ∧
      t.inl y = { s.inl y with
        st := if last.outcome = .opened then .discarding else (s.inl y).st
        frames := []
        noBuffers := (g :: gs).foldl (fun n _ => sat8 n) (s.inl y).noBuffers
        slot := if last.outcome = .opened then (if last.number = none then some 0 else none) else (s.inl y).slot } ∧
      t.raised .inboundNoBuffer = true ∧ FlagsKept [.resumed, .inboundNoBuffer, .journalLost] s t ∧
      OthersWait (.inLane y) s t ∧
      ChangesOnly [.ins, .pools, .flags, .journal, .mem, .requests, .port, .copyPtr] s t := by
  subst ha
  obtain ⟨fc, others, here, inl, ins, bufs, inbound, expected, outcome, job⟩ :=
    State.headCommitted_facts (w := w) (k := k) (h := h) s r hf
  obtain ⟨noticed, flags, fd, otherPools, port, kept, asked⟩ :=
    State.headCommitted_noticed (w := w) (k := k) (h := h) s r hf
  have popped : ((s.headCommitted r y w k f h).modIn y InLane.popHead).inl y = { s.inl y with frames := g :: gs } := by
    rw [State.modIn_inl, inl]
    rfl
  have uins : OtherIns y s ((s.headCommitted r y w k f h).modIn y InLane.popHead) := fun z hz => by
    rw [State.modIn_others _ _ _ z hz, ins z hz]
  have fu := fd.andThen (modIn_frame (s.headCommitted r y w k f h) y InLane.popHead)
    (m := [.mem, .port, .pools, .ins, .flags, .journal, .requests])
  have noticed' := noticed.modIn (y := y) InLane.popHead
  rw [State.inboundWrite_next hp hr, State.halfWritten_commits (fs := g :: gs) hw hf hb hh ho hm]
  change FlagsKept _ s ((s.headCommitted r y w k f h).modIn y InLane.popHead) at flags
  change OtherPools w s ((s.headCommitted r y w k f h).modIn y InLane.popHead) at otherPools
  change ((s.headCommitted r y w k f h).modIn y InLane.popHead).port = none at port
  change ∀ p ∈ s.requests, p ∈ ((s.headCommitted r y w k f h).modIn y InLane.popHead).requests at kept
  change ∀ p ∈ ((s.headCommitted r y w k f h).modIn y InLane.popHead).requests, _ at asked
  rw [← State.modIn_pool _ y InLane.popHead w] at bufs inbound expected outcome job
  generalize (s.headCommitted r y w k f h).modIn y InLane.popHead = u at *
  have window : u.inWindow y = some w := (State.inWindow_congr (fu .windows (by decide)) y).trans hw
  have none : u.inboundFree w = none := by
    refine State.inboundFree_none (State.freeBuffer_none.2 fun c hc => ?_)
    rw [bufs]
    rw [State.win_congr (fu .windows (by decide))] at hc
    exact hfree c hc
  have refused : ∀ b ∈ g :: gs, b.buffer = Option.none ∧ b.outcome ≠ .discard := fun b hm => by
    rcases List.mem_cons.1 hm with e | hm
    · subst e; exact ⟨gb, go⟩
    · exact rest b hm
  have frames : (u.inl y).frames = g :: gs := by rw [popped]
  rw [State.settle_refused (g :: gs) u window frames refused none]
  have fr := State.refuseAll_frame (y := y) (g :: gs) u
  obtain ⟨kept', grow, raised⟩ := State.refuseAll_flags (y := y) (g :: gs) u
  obtain ⟨keptR, askedR⟩ := OnlyRequestsOf.keeps fun q => State.refuseAll_asks (y := y) q (g :: gs) u
  have all := State.refuseAll_noticed (y := y) (g :: gs) u noticed' (fu .header (by decide))
    (fu .timeBase (by decide)) window rfl
  have gr := regrant_frame (u.refuseAll y (g :: gs))
  have tpool : ∀ z, (u.refuseAll y (g :: gs)).regrant.pool z = u.pool z := fun z =>
    (State.regrant_pool _ z).trans (State.pool_congr (fr .pools (by decide)) z)
  have tflags : ∀ k, (u.refuseAll y (g :: gs)).regrant.raised k = (u.refuseAll y (g :: gs)).raised k :=
    State.raised_congr (gr .flags (by decide))
  refine ⟨_, rfl, OtherIns.regrant fun z hz => ?_, fun z hz => ?_, fun c => ?_, ?_, ?_, ?_, ?_, ?_, ?_, ?_,
    fun c hc => ?_, ?_, ?_⟩
  · rw [State.refuseAll_others _ _ z hz, uins z hz]
  · rw [tpool, otherPools z hz]
  · rw [tpool]; exact bufs c
  · rw [tpool]; exact inbound
  · rw [tpool]; exact expected
  · rw [tpool]; exact outcome
  · rw [tpool]; exact job
  · rw [tpool]
    exact all.of_eq (gr .flags (by decide)) (gr .journal (by decide)) (gr .windows (by decide))
      (gr .groups (by decide)) fun z => by rw [State.regrant_pool]; exact ⟨rfl, rfl, rfl, rfl, rfl⟩
  · rw [State.regrant_inl, State.refuseAll_inl _ _ last frames good hlast, popped]
  · rw [tflags]; exact raised (List.cons_ne_nil _ _)
  · simp only [List.mem_cons, List.not_mem_nil, or_false, not_or] at hc
    obtain ⟨h1, h2, h3⟩ := hc
    rw [tflags, kept' c (by simp [h2, h3]), flags c (by simp [h1, h3])]
  · refine State.othersWait_regrant ((fr .port (by decide)).trans port) (fun p hm => keptR p (kept p hm))
      fun p hm => ?_
    rcases askedR p hm with h | h
    · exact (asked p h).imp_right .inr
    · exact .inr (.inr h)
  · exact (fu.andThen fr (m := [.mem, .port, .pools, .ins, .flags, .journal, .requests])).andThen gr

/-- The state after a performance whose head frame's buffer is discarded (R22, R158). -/
def State.headDiscarded (s : State) (r : Request) (y : Fin 2) (w : Fin 16) (k : Fin 8) : State :=
  ((s.complete r).modPool w fun p => p.modBuf k Buffer.discard).modIn y InLane.popHead

theorem State.headDiscarded_facts (s : State) (r : Request) (hf : (s.inl y).frames = f :: gs) :
    ChangesOnly [.mem, .port, .pools, .ins] s (s.headDiscarded r y w k) ∧ OtherIns y s (s.headDiscarded r y w k) ∧
      OtherPools w s (s.headDiscarded r y w k) ∧ OnlyBuffers w s (s.headDiscarded r y w k) ∧
      (s.headDiscarded r y w k).inl y = { s.inl y with frames := gs } ∧
      (s.headDiscarded r y w k).port = none ∧
      ∀ c : Fin 8, ((s.headDiscarded r y w k).pool w).bufs[c] =
        if c = k then { (s.pool w).bufs[k] with st := .free, holders := HolderSet.empty, map := [] }
        else (s.pool w).bufs[c] := by
  have pool : ∀ v, (s.headDiscarded r y w k).pool v =
      if v = w then (s.pool w).modBuf k Buffer.discard else s.pool v := fun v => by
    unfold State.headDiscarded
    rw [State.modIn_pool, State.pool_modPool]
    rfl
  refine ⟨((s.complete_congr r).andThen (modPool_frame _ w _) (m := [.mem, .port, .pools])).andThen
      (modIn_frame _ y _), fun z hz => State.modIn_others _ y _ z hz, fun v hv => (pool v).trans (if_neg hv), ?_, ?_, rfl,
    fun c => ?_⟩
  · unfold OnlyBuffers
    rw [pool, if_pos rfl]
    rfl
  · unfold State.headDiscarded
    rw [State.modIn_inl]
    change (s.inl y).popHead = _
    rw [InLane.popHead, hf]
    rfl
  · rw [pool, if_pos rfl, Pool.bufs_modBuf]
    rfl

/-- After the discard no buffer is FILLING. -/
theorem discarded_not_filling (fill : ∀ c : Fin 8, (s.pool w).bufs[c].st = .filling ↔ c = k) (c : Fin 8) :
    (if c = k then ({ (s.pool w).bufs[k] with st := .free, holders := HolderSet.empty, map := [] } : Buffer)
      else (s.pool w).bufs[c]).st ≠ .filling := by
  split
  · nofun
  · next hc => exact fun e => hc ((fill c).1 e)

theorem OnlyBuffers.congr {t u : State} (hb : OnlyBuffers w s t) (e : u.pool w = t.pool w) : OnlyBuffers w s u := by
  unfold OnlyBuffers at hb ⊢
  rw [e]; exact hb

/-- The discarded head's buffer, or another FREE one, goes to the next frame (R153, R158). -/
theorem State.discarded_next {u : State} (hl : Requester.inLane y ∉ s.requests.map Request.who)
    (hw : s.inWindow y = some w) (gb : g.buffer = none)
    (go : g.outcome = .opened ∨ g.outcome = .good ∧ g.halves ≠ [])
    (fill : ∀ c : Fin 8, (s.pool w).bufs[c].st = .filling ↔ c = k) (hk : k.val < (s.win w).bufferCount)
    (ha : after = fun c => if c = k then
        { (s.pool w).bufs[k] with st := .free, holders := HolderSet.empty, map := [] } else (s.pool w).bufs[c])
    (fu : ChangesOnly [.mem, .port, .pools, .ins, .flags, .journal, .requests] s u) (ins : OtherIns y s u)
    (others : OtherPools w s u) (only : OnlyBuffers w s u) (frames : (u.inl y).frames = g :: gs)
    (port : u.port = none) (bufs : ∀ c : Fin 8, (u.pool w).bufs[c] = after c)
    (kept : ∀ p ∈ s.requests, p ∈ u.requests) (asked : ∀ p ∈ u.requests, p ∈ s.requests ∨ p.who = .journal) :
    OtherIns y s (u.settle y).regrant ∧ OtherPools w s (u.settle y).regrant ∧
      NextAllocated y w g gs after s (u.settle y).regrant ∧ OnlyBuffers w s (u.settle y).regrant ∧
      (u.settle y).regrant.inl y = { u.inl y with frames := ((u.settle y).regrant.inl y).frames } ∧
      OthersWait (.inLane y) s (u.settle y).regrant ∧
      ChangesOnly [.ins, .pools, .requests, .port, .copyPtr] u (u.settle y).regrant := by
  subst ha
  obtain ⟨next, ft, tins, tpools, tbufs, tinl, tkept, added⟩ := State.next_allocated (s := s)
    ((State.inWindow_congr (fu .windows (by decide)) y).trans hw) frames gb go (State.unlisted (s := s) nofun hl asked)
    port (fu .windows (by decide)) bufs (discarded_not_filling fill) ⟨k, hk, by simp⟩
  generalize u.settle y = v at *
  refine ⟨OtherIns.regrant fun z hz => by rw [tins z hz, ins z hz], fun z hz => ?_, next, ?_, ?_, ?_,
    ft.andThen (regrant_frame v)⟩
  · rw [State.regrant_pool, tpools z hz, others z hz]
  · refine OnlyBuffers.congr ?_ (State.regrant_pool v w)
    unfold OnlyBuffers at only tbufs ⊢
    rw [tbufs, only]
  · rw [State.regrant_inl, tinl]
  · refine State.othersWait_regrant ((ft .port (by decide)).trans port) (fun p hm => tkept p (kept p hm)) fun p hm => ?_
    rcases added p hm with h | h
    · exact (asked p h).imp_right .inr
    · exact .inr (.inl h)

end

/-- Settles O43, outcome by outcome of the head frame. -/
theorem settlementAllocatesTheNextFrame : Obligations.SettlementAllocatesTheNextFrame := by
  intro s r y w k f g gs after hp hr _ hl hw hf hb gb go fill
  have kept : g.outcome ≠ .discard := fun e => by rw [e] at go; rcases go with h | ⟨h, _⟩ <;> cases h
  obtain ⟨fu, ins, others, only, inl, port, bufs⟩ :=
    State.headDiscarded_facts (w := w) (k := k) (gs := g :: gs) s r hf
  refine ⟨fun h ho hh hm ha => ⟨fun hfree => ?_, fun hfree good rest last hlast => ?_⟩, fun h ho hh hk hm ha => ?_,
    fun ho hk ha => ?_⟩
  · exact State.inboundWrite_commits_next hp hr hl hw hf hb gb go fill ho hh hm ha hfree
  · exact State.inboundWrite_commits_refused hp hr hw hf hb gb kept ho hh hm ha hfree good rest last hlast
  · have fc := raiseCut_frame (s.headDiscarded r y w k) y f.number .malformed
    have cut : ((s.headDiscarded r y w k).raiseCut y f.number .malformed).inl y =
        { s.inl y with frames := g :: gs, cuts := sat8 (s.inl y).cuts } := by
      rw [State.raiseCut_inl, inl]
    have cutPool := State.pool_congr (fc .pools (by decide))
    have reported : Reported s ((s.headDiscarded r y w k).raiseCut y f.number .malformed) .inboundCut (some y.val)
        ((f.number.getD 0).setWidth 32) 0 :=
      State.raise_reported (s := s) (u := (s.headDiscarded r y w k).modIn y _) (fu .flags (by decide))
        (fu .journal (by decide)) (fu .header (by decide)) (fu .timeBase (by decide)) (by decide) _ _ _
    obtain ⟨keptR, askedR⟩ : (∀ p ∈ s.requests, p ∈ ((s.headDiscarded r y w k).raiseCut y f.number
        .malformed).requests) ∧ ∀ p ∈ ((s.headDiscarded r y w k).raiseCut y f.number .malformed).requests,
          p ∈ s.requests ∨ p.who = .journal := by
      have asks := OnlyRequestsOf.keeps fun q => State.raise_onlyRequestsOf
        ((s.headDiscarded r y w k).modIn y fun l => { l with cuts := sat8 l.cuts }) q .inboundCut (some y.val)
        ((f.number.getD 0).setWidth 32) (num CutReason.malformed.code)
      have e : ((s.headDiscarded r y w k).modIn y fun l => { l with cuts := sat8 l.cuts }).requests = s.requests :=
        fu .requests (by decide)
      rw [e] at asks
      exact asks
    have cutIns : OtherIns y s ((s.headDiscarded r y w k).raiseCut y f.number .malformed) := fun z hz => by
      unfold State.raiseCut
      rw [State.raise_inl, State.modIn_others _ _ _ z hz, ins z hz]
    rw [State.inboundWrite_next hp hr, State.halfWritten_cut (fs := g :: gs) hw hf hb hh ho hm]
    change ∃ t, (.next (((s.headDiscarded r y w k).raiseCut y f.number .malformed).settle y).regrant : Out) = _ ∧ _
    have fuc := fu.andThen fc (m := [.mem, .port, .pools, .ins, .flags, .journal, .requests])
    obtain ⟨tins, tpools, next, tonly, tinl, wait, ft⟩ := State.discarded_next (s := s) (k := k) (after := after)
      hl hw gb go fill hk ha fuc cutIns (fun v hv => by rw [cutPool, others v hv]) (only.congr (cutPool w))
      (by rw [cut]) ((fc .port (by decide)).trans port) (fun c => by rw [cutPool, bufs, ha]) keptR askedR
    refine ⟨_, rfl, tins, tpools, next, tonly, ?_, reported.of_eq (ft .flags (by decide)) (ft .journal (by decide)),
      wait, fuc.andThen ft⟩
    rw [tinl, cut]
  · have settled : (s.complete r).halfWritten y = (s.headDiscarded r y w k).settle y := by
      rw [State.halfWritten_discard (s := s.complete r) (fs := g :: gs) hf ho,
        State.settle_of_some (State.settleOnce_discard (s := s.complete r) (fs := g :: gs) hf ho
          (s.complete_inProgress r _)), State.discardHead_eq (s := s.complete r) hw hb]
      rfl
    rw [State.inboundWrite_next hp hr, settled]
    have requests : (s.headDiscarded r y w k).requests = s.requests := fu .requests (by decide)
    obtain ⟨tins, tpools, next, tonly, tinl, wait, ft⟩ := State.discarded_next (s := s) (k := k) (after := after)
      hl hw gb go fill hk ha (fu.mono (by decide)) ins others only (by rw [inl]) port (fun c => by rw [bufs, ha])
      (fun p hm => by rw [requests]; exact hm) (fun p hm => .inl (by rw [← requests]; exact hm))
    refine ⟨_, rfl, tins, tpools, next, tonly, ?_, wait, fu.andThen ft⟩
    rw [tinl, inl]

end Sys2Proof.Machine

/-! SUPPORT. Frames discarded by the events of an inbound lane (R154, R156–R158). -/

namespace Sys2Proof.Machine

section
variable {s u : State} {y : Fin 2} {w : Fin 16} {k : Fin 8} {f : InFrame} {fs : List InFrame}

/-! ### The current frame -/

theorem InLane.getLast_frames {l : InLane} (hf : l.frames = fs ++ [f]) : l.frames.getLast? = some f := by
  rw [hf, List.getLast?_concat]

theorem InLane.currentNumber_eq {l : InLane} (hf : l.frames = fs ++ [f]) : l.currentNumber = f.number := by
  unfold InLane.currentNumber
  rw [InLane.getLast_frames hf]

theorem InLane.modLast_eq {l : InLane} (hf : l.frames = fs ++ [f]) (v : InFrame → InFrame) :
    l.modLast v = { l with frames := fs ++ [v f] } := by
  unfold InLane.modLast
  rw [InLane.getLast_frames hf]
  simp [hf]

/-- Behind other frames a discarded frame leaves at once (R158). -/
theorem State.discardCurrent_behind (hf : (s.inl y).frames = fs ++ [f]) (hb : f.buffer = none) :
    s.discardCurrent y = s.modIn y fun l => { l with frames := l.frames.dropLast } := by
  unfold State.discardCurrent
  rw [InLane.getLast_frames hf]
  simp only [hb]

/-- With a buffer its halves leave and its request is withdrawn, and it settles (R158). -/
theorem State.discardCurrent_head (hf : (s.inl y).frames = [f]) (hb : f.buffer = some k) :
    s.discardCurrent y = ((s.unlist (.inLane y)).modIn y fun l =>
      l.modLast fun h => { h with outcome := .discard, halves := [] }).settle y := by
  unfold State.discardCurrent
  rw [InLane.getLast_frames (fs := []) hf]
  simp only [hb]

theorem State.unlist_onlyRequestsOf (s : State) (q : Requester) : OnlyRequestsOf q s (s.unlist q) := by
  refine ⟨fun r hr hw => List.mem_filter.2 ⟨hr, by simp [hw]⟩, fun r hr => .inl (List.mem_filter.1 hr).1,
    fun _ ha _ => ha⟩

theorem State.unlist_who (s : State) (q : Requester) : ∀ r ∈ (s.unlist q).requests, r.who ≠ q := fun r hr => by
  simpa using (List.mem_filter.1 hr).2

/-- What the discard of the current frame does: to the frame and its buffer as `FrameDiscarded` says, to the
requests no more than to withdraw its own, and nothing else. -/
theorem State.discardCurrent_spec (hw : s.inWindow y = some w) (hf : (s.inl y).frames = fs ++ [f])
    (hb : fs = [] ↔ f.buffer ≠ none) :
    FrameDiscarded y w fs f s (s.discardCurrent y) ∧
      (s.discardCurrent y).inl y = { s.inl y with frames := ((s.discardCurrent y).inl y).frames } ∧
      OtherIns y s (s.discardCurrent y) ∧ OnlyRequestsOf (.inLane y) s (s.discardCurrent y) ∧
      ChangesOnly [.ins, .pools, .requests] s (s.discardCurrent y) := by
  cases hk : f.buffer with
  | none =>
    have hne : fs ≠ [] := fun e => hb.1 e hk
    rw [State.discardCurrent_behind hf hk]
    have inl : (s.modIn y fun l => { l with frames := l.frames.dropLast }).inl y = { s.inl y with frames := fs } := by
      rw [State.modIn_inl, hf, List.dropLast_concat]
    refine ⟨⟨fun k e _ => absurd e hne, fun _ _ => ⟨by rw [inl], rfl⟩⟩, by rw [inl], State.modIn_others _ _ _,
      .of_eq rfl rfl, (modIn_frame _ _ _).mono (by decide)⟩
  | some k =>
    have hnil : fs = [] := hb.2 (by rw [hk]; nofun)
    subst hnil
    rw [State.discardCurrent_head hf hk]
    have inl : ((s.unlist (.inLane y)).modIn y fun l =>
        l.modLast fun h => { h with outcome := .discard, halves := [] }).inl y =
          { s.inl y with frames := [{ f with outcome := .discard, halves := [] }] } := by
      rw [State.modIn_inl]
      exact InLane.modLast_eq (fs := []) hf _
    have ins : OtherIns y s ((s.unlist (.inLane y)).modIn y fun l =>
        l.modLast fun h => { h with outcome := .discard, halves := [] }) := fun z hz => State.modIn_others _ y _ z hz
    have asks : OnlyRequestsOf (.inLane y) s ((s.unlist (.inLane y)).modIn y fun l =>
        l.modLast fun h => { h with outcome := .discard, halves := [] }) := s.unlist_onlyRequestsOf _
    have who : ∀ r ∈ ((s.unlist (.inLane y)).modIn y fun l =>
        l.modLast fun h => { h with outcome := .discard, halves := [] }).requests, r.who ≠ .inLane y :=
      s.unlist_who _
    have fu : ChangesOnly [.ins, .requests] s ((s.unlist (.inLane y)).modIn y fun l =>
        l.modLast fun h => { h with outcome := .discard, halves := [] }) :=
      (unlist_frame s _).andThen (modIn_frame _ y _)
    generalize (s.unlist (.inLane y)).modIn y _ = v at *
    have frames : (v.inl y).frames = [{ f with outcome := .discard, halves := [] }] := by rw [inl]
    have port := State.inProgress_congr (fu .port (by decide)) (.inLane y)
    have window : v.inWindow y = some w := (State.inWindow_congr (fu .windows (by decide)) y).trans hw
    have pools : v.pools = s.pools := fu .pools (by decide)
    cases hp : s.inProgress (.inLane y) with
    | true =>
      rw [State.settle_of_none (State.settleOnce_wait frames (.inr ⟨rfl, port.trans hp⟩)),
        State.tryWrite_of_no_half frames rfl]
      refine ⟨⟨fun c _ hc => ⟨who, fun h => ?_, fun _ => ⟨frames, pools⟩⟩, fun h => absurd rfl h⟩, by rw [inl], ins,
        asks, fu.mono (by decide)⟩
      rw [hp] at h; cases h
    | false =>
      rw [State.settle_of_some (State.settleOnce_discard frames rfl (port.trans hp)),
        State.discardHead_eq (f := { f with outcome := .discard, halves := [] }) window hk]
      have popped : ((v.modPool w fun p => p.modBuf k Buffer.discard).modIn y InLane.popHead).inl y =
          { s.inl y with frames := [] } := by
        rw [State.modIn_inl]
        change (v.inl y).popHead = _
        rw [InLane.popHead, inl]
        rfl
      rw [State.settle_rest (by rw [popped])]
      have pool : ∀ z, ((v.modPool w fun p => p.modBuf k Buffer.discard).modIn y InLane.popHead).pool z =
          if z = w then (s.pool w).modBuf k Buffer.discard else s.pool z := fun z => by
        rw [State.modIn_pool, State.pool_modPool, State.pool_congr pools, State.pool_congr pools]
      have here := (pool w).trans (if_pos rfl)
      refine ⟨⟨fun c _ hc => ⟨who, fun _ => ⟨by rw [popped], fun z hz => ?_, ?_, fun d hd => ?_, ?_⟩, fun h => ?_⟩,
        fun h => absurd rfl h⟩, by rw [popped], fun z hz => ?_, asks, ?_⟩
      · rw [pool, if_neg hz]
      · unfold OnlyBuffers
        rw [here]
        rfl
      · cases hk.symm.trans hc
        rw [here, Pool.bufs_modBuf, if_neg hd]
      · cases hk.symm.trans hc
        rw [here, Pool.bufs_modBuf, if_pos rfl]
        rfl
      · rw [hp] at h; cases h
      · rw [State.modIn_others _ _ _ z hz]
        exact ins z hz
      · exact (fu.andThen (modPool_frame v w _) (m := [.ins, .pools, .requests])).andThen (modIn_frame _ y _)

/-- What `FrameDiscarded` reads. -/
theorem FrameDiscarded.of_eq {t s' t' : State} (h : FrameDiscarded y w fs f s t) (hs : s'.pools = s.pools)
    (hp : s'.port = s.port) (hf : (t'.inl y).frames = (t.inl y).frames) (ht : t'.pools = t.pools)
    (hr : ∀ r ∈ t'.requests, r ∈ t.requests) : FrameDiscarded y w fs f s' t' := by
  obtain ⟨head, behind⟩ := h
  have e := State.inProgress_congr hp (.inLane y)
  refine ⟨fun k h1 h2 => ?_, fun h1 h2 => ?_⟩
  · obtain ⟨who, free, busy⟩ := head k h1 h2
    refine ⟨fun r hm => who r (hr r hm), fun hn => ?_, fun hn => ?_⟩
    · obtain ⟨frames, others, only, rest, here⟩ := free (by rw [← e]; exact hn)
      refine ⟨hf.trans frames, fun v hv => ?_, ?_, fun c hc => ?_, ?_⟩
      · rw [State.pool_congr ht, State.pool_congr hs]; exact others v hv
      · unfold OnlyBuffers at only ⊢
        rw [State.pool_congr ht, State.pool_congr hs]; exact only
      · rw [State.pool_congr ht, State.pool_congr hs]; exact rest c hc
      · rw [State.pool_congr ht, State.pool_congr hs]; exact here
    · obtain ⟨frames, pools⟩ := busy (by rw [← e]; exact hn)
      exact ⟨hf.trans frames, ht.trans (pools.trans hs.symm)⟩
  · obtain ⟨frames, pools⟩ := behind h1 h2
    exact ⟨hf.trans frames, ht.trans (pools.trans hs.symm)⟩

/-- A grant on arrival takes a request off the list, and adds none. -/
theorem State.arrivals_requests_sub (s : State) : ∀ r ∈ s.arrivals.requests, r ∈ s.requests := by
  rcases s.arrivals_cases with ⟨e, _⟩ | ⟨q, qs, _, _, e⟩ <;> rw [e]
  · exact fun _ h => h
  · exact fun _ h => List.mem_of_mem_erase h

/-- The end of an event in which only requester `q`, no copy-forward job, and JW are concerned (R73, R77). -/
theorem State.arrivals_spec {q : Requester} {l : List Item} (hn : NoGrantDue s) (hq : ∀ w, q ≠ .copyJob w)
    (asks : OnlyRequestsOf q s u) (f : ChangesOnly l s u) (hp : .port ∉ l) (hc : .copyPtr ∉ l) :
    OnlyRequestsOf q s u.arrivals ∧ ChangesOnly (.requests :: .port :: l) s u.arrivals := by
  have port : u.port = s.port := f .port hp
  have free : u.port = none → s.port = none := fun e => port.symm.trans e
  refine ⟨asks.arrivals hn free, fun g hg => ?_⟩
  by_cases e : g = .copyPtr
  · subst e
    refine (State.arrivals_copyPtr hn free fun r hr => ?_).trans (f .copyPtr hc)
    refine (asks.2.1 r hr).imp_right fun h z e => ?_
    rcases h with h | h
    · exact hq z (h.symm.trans e)
    · rw [h] at e; cases e
  · simp only [List.mem_cons, not_or] at hg
    obtain ⟨h1, h2, h3⟩ := hg
    exact State.sameAt_trans (f g h3) (arrivals_frame u g (by simp [h1, h2, e]))

/-- An event that raises one entry for the lane's current frame and discards the frame. -/
theorem State.raised_discarded (hn : NoGrantDue s) (hw : s.inWindow y = some w) (hf : (s.inl y).frames = fs ++ [f])
    (hb : fs = [] ↔ f.buffer ≠ none) (fu : ChangesOnly [.ins] s u) (ins : OtherIns y s u)
    (frames : (u.inl y).frames = (s.inl y).frames) {c : Kind} (hc : c ≠ .commit) (source : Option Nat) (d1 d2 : Word)
    (v : InLane → InLane) (hv : ∀ l, (v l).frames = l.frames) :
    let t := (((u.raise c source d1 d2).discardCurrent y).modIn y v).arrivals
    OtherIns y s t ∧ t.inl y = v { u.inl y with frames := (t.inl y).frames } ∧
      FrameDiscarded y w fs f s t ∧ Reported s t c source d1 d2 ∧ OnlyRequestsOf (.inLane y) s t ∧
      ChangesOnly [.ins, .pools, .flags, .journal, .requests, .port] s t := by
  intro t
  have fa : ChangesOnly [.flags, .journal, .requests] u (u.raise c source d1 d2) := raise_frame _ _ _ _ _
  have reported : Reported s (u.raise c source d1 d2) c source d1 d2 :=
    State.raise_reported (fu .flags (by decide)) (fu .journal (by decide)) (fu .header (by decide))
      (fu .timeBase (by decide)) hc _ _ _
  have asksA : OnlyRequestsOf (.inLane y) s (u.raise c source d1 d2) :=
    (OnlyRequestsOf.of_eq (fu .requests (by decide)) (fu .port (by decide))).trans
      (State.raise_onlyRequestsOf u _ _ _ _ _)
  have inlA : ∀ z, (u.raise c source d1 d2).inl z = u.inl z := State.raise_inl u _ _ _ _
  have fsa : ChangesOnly [.ins, .flags, .journal, .requests] s (u.raise c source d1 d2) := fu.andThen fa
  have ht : t = (((u.raise c source d1 d2).discardCurrent y).modIn y v).arrivals := rfl
  generalize u.raise c source d1 d2 = a at *
  obtain ⟨discarded, inl, others, asks, fb⟩ := State.discardCurrent_spec (s := a) (y := y)
    ((State.inWindow_congr (fsa .windows (by decide)) y).trans hw) (by rw [inlA, frames, hf]) hb
  generalize a.discardCurrent y = b at *
  have fd : ChangesOnly [.ins, .pools, .flags, .journal, .requests] s (b.modIn y v) :=
    (fsa.andThen fb (m := [.ins, .pools, .flags, .journal, .requests])).andThen (modIn_frame b y v)
  have asksD : OnlyRequestsOf (.inLane y) s (b.modIn y v) := (asksA.trans asks).trans (.of_eq rfl rfl)
  obtain ⟨asksT, ft⟩ := State.arrivals_spec hn (fun _ e => by cases e) asksD fd (by decide) (by decide)
  have ar := arrivals_frame (b.modIn y v)
  have sub := (b.modIn y v).arrivals_requests_sub
  rw [← ht] at asksT ft ar sub
  have tinl : ∀ z, t.inl z = (b.modIn y v).inl z := State.inl_congr (ar .ins (by decide))
  have here : t.inl y = v (b.inl y) := (tinl y).trans (State.modIn_inl b y v)
  have tframes : (t.inl y).frames = (b.inl y).frames := by rw [here, hv]
  refine ⟨fun z hz => ?_, ?_, ?_, reported.of_eq ?_ ?_, asksT, ft.mono (by decide)⟩
  · rw [tinl, State.modIn_others b y v z hz, others z hz, inlA, ins z hz]
  · rw [tframes, here]
    conv => lhs; rw [inl, inlA]
  · exact discarded.of_eq (fsa .pools (by decide)).symm (fsa .port (by decide)).symm tframes (ar .pools (by decide)) sub
  · exact (ar .flags (by decide)).trans (fb .flags (by decide))
  · exact (ar .journal (by decide)).trans (fb .journal (by decide))

/-- The lane ignores the rest of a frame it has cut (R149, R154, R156). -/
theorem State.cut_discarded (hn : NoGrantDue s) (hw : s.inWindow y = some w) (hf : (s.inl y).frames = fs ++ [f])
    (hb : fs = [] ↔ f.buffer ≠ none) (a : InLane → InLane) (ha : ∀ l, (a l).frames = l.frames)
    (hc : ∀ l, (a l).cuts = l.cuts) (r : CutReason) :
    let t := ((((s.modIn y a).raiseCut y (s.inl y).currentNumber r).discardCurrent y).toDiscarding y).arrivals
    OtherIns y s t ∧
      t.inl y = { a (s.inl y) with
        st := .discarding, slot := none, cuts := sat8 (s.inl y).cuts, frames := (t.inl y).frames } ∧
      FrameDiscarded y w fs f s t ∧
      Reported s t .inboundCut (some y.val) ((f.number.getD 0).setWidth 32) (num r.code) ∧
      OnlyRequestsOf (.inLane y) s t ∧ ChangesOnly [.ins, .pools, .flags, .journal, .requests, .port] s t := by
  have e : (s.modIn y a).raiseCut y (s.inl y).currentNumber r =
      ((s.modIn y a).modIn y fun l => { l with cuts := sat8 l.cuts }).raise .inboundCut (some y.val)
        ((f.number.getD 0).setWidth 32) (num r.code) := by
    unfold State.raiseCut
    rw [InLane.currentNumber_eq hf]
  rw [e, State.modIn_modIn]
  obtain ⟨ins, inl, rest⟩ := State.raised_discarded (u := s.modIn y fun l => { a l with cuts := sat8 (a l).cuts }) hn hw
    hf hb (modIn_frame _ _ _) (State.modIn_others _ _ _) (by rw [State.modIn_inl]; exact ha _) (c := .inboundCut)
    (by decide) (some y.val) ((f.number.getD 0).setWidth 32) (num r.code)
    (fun l => { l with st := .discarding, slot := none }) (fun _ => rfl)
  refine ⟨ins, ?_, rest⟩
  rw [State.modIn_inl, hc] at inl
  exact inl

theorem InLane.expects_iff {l : InLane} {j : Nat} : l.expects j = true ↔ l.st = .receiving ∧ l.slot = some j := by
  simp [InLane.expects]

theorem State.dataExpected_some {d : Nat} (hst : (s.inl y).st = .receiving) (hs : (s.inl y).slot = some (d + 2))
    (hd : d < (s.inRec y).slots) : s.dataExpected y = some d := by
  unfold State.dataExpected
  rw [hst, hs]
  exact if_pos ⟨by omega, by omega⟩

theorem State.inboundH1_next {h : Half} (hr : s.rst = false) (he : (s.inl y).expects 1 = true) :
    exec (.inboundH1Received y h) s = .next (s.inH1 y h).arrivals := by
  have e : exec (.inboundH1Received y h) s = execInboundH1Received y h s := rfl
  rw [e, execInboundH1Received, hr, he]
  rfl

theorem State.inboundData_next {h : Half} {d : Nat} (hr : s.rst = false) (he : s.dataExpected y = some d) :
    exec (.inboundDataSlotReceived y h) s = .next (s.inData y h).arrivals := by
  have e : exec (.inboundDataSlotReceived y h) s = execInboundDataSlotReceived y h s := rfl
  rw [e, execInboundDataSlotReceived, hr, he]
  rfl

theorem State.inboundCrc_next {h : Half} (hr : s.rst = false)
    (he : (s.inl y).expects ((s.inRec y).slots + 2) = true) :
    exec (.inboundCrcSlotReceived y h) s = .next (s.inCrc y h).arrivals := by
  have e : exec (.inboundCrcSlotReceived y h) s = execInboundCrcSlotReceived y h s := rfl
  rw [e, execInboundCrcSlotReceived, hr, he]
  rfl

end

/-- Settles O48: a wrong H1, a wrong CRC, an overrun. -/
theorem discardedFrameFreesItsBuffer : Obligations.DiscardedFrameFreesItsBuffer := by
  intro s y w fs f h hr hn hw hf hb hst
  refine ⟨fun hs hne => ?_, fun hs hne => ?_, fun d p hs hd hp hfull => ?_⟩
  · have he : (s.inl y).expects 1 = true := InLane.expects_iff.2 ⟨hst, hs⟩
    have cut : s.inH1 y h = (((s.modIn y fun l => { l with crc := crcHalf l.crc h, slot := some 2 }).raiseCut y
        (s.inl y).currentNumber .malformed).discardCurrent y).toDiscarding y := by
      unfold State.inH1
      rw [if_pos he]
      exact if_neg hne
    rw [State.inboundH1_next hr he, cut]
    exact ⟨_, rfl, State.cut_discarded hn hw hf hb (fun l => { l with crc := crcHalf l.crc h, slot := some 2 })
      (fun _ => rfl) (fun _ => rfl) .malformed⟩
  · have he := InLane.expects_iff.2 ⟨hst, hs⟩
    have cut : s.inCrc y h = (((s.modIn y fun l =>
        { l with st := .listening, slot := none, crcErrors := sat8 l.crcErrors }).raise .inboundCrc (some y.val)
          ((f.number.getD 0).setWidth 32) ((sat8 (s.inl y).crcErrors).setWidth 32)).discardCurrent y).modIn y
            fun l => l := by
      have id : ∀ t : State, t.modIn y (fun l => l) = t := fun t => by
        unfold State.modIn
        simp
      unfold State.inCrc
      rw [if_pos he, id]
      dsimp only
      rw [if_neg hne, InLane.currentNumber_eq hf, State.modIn_modIn, State.modIn_inl]
    rw [State.inboundCrc_next hr he, cut]
    obtain ⟨ins, inl, rest⟩ := State.raised_discarded (u := s.modIn y fun l =>
        { l with st := .listening, slot := none, crcErrors := sat8 l.crcErrors }) hn hw
      hf hb (modIn_frame _ _ _) (State.modIn_others _ _ _) (by rw [State.modIn_inl]) (c := .inboundCrc)
      (by decide) (some y.val) ((f.number.getD 0).setWidth 32) ((sat8 (s.inl y).crcErrors).setWidth 32)
      (fun l => l) (fun _ => rfl)
    refine ⟨_, rfl, ins, ?_, rest⟩
    rw [State.modIn_inl] at inl
    exact inl
  · have he := State.dataExpected_some hst hs hd
    have cut : s.inData y h = (((s.modIn y fun l => { l with crc := crcHalf l.crc h, slot := some (d + 3) }).raiseCut y
        (s.inl y).currentNumber .overrun).discardCurrent y).toDiscarding y := by
      have places : Config.receivePlaces ≤
          ((s.modIn y fun l => { l with crc := crcHalf l.crc h, slot := some (d + 3) }).inl y).halves.length := by
        rw [State.modIn_inl]
        exact hfull
      unfold State.inData
      rw [he]
      dsimp only
      rw [hp]
      dsimp only
      unfold State.rxHalf
      rw [if_pos places, State.modIn_inl]
      rfl
    rw [State.inboundData_next hr he, cut]
    exact ⟨_, rfl, State.cut_discarded hn hw hf hb (fun l => { l with crc := crcHalf l.crc h, slot := some (d + 3) })
      (fun _ => rfl) (fun _ => rfl) .overrun⟩

end Sys2Proof.Machine

/-! SUPPORT. Active edges of an inbound lane (R152, R153, R159). -/

namespace Sys2Proof.Machine

/-- The new board frame joins the frames in hand (R152). -/
def State.frameOpened (s : State) (y : Fin 2) : State :=
  s.modIn y fun l =>
    { l with frames := l.frames ++ [s.openedFrame none], crc := crcInit, slot := some 0, st := .receiving }

section
variable {s u : State} {y : Fin 2} {w : Fin 16} {k : Fin 8} {f : InFrame} {fs : List InFrame}

theorem State.inFrameStart_behind (hf : (s.inl y).frames ≠ []) : s.inFrameStart y = s.frameOpened y := by
  unfold State.inFrameStart
  exact if_neg hf

theorem State.inFrameStart_alone (hf : (s.inl y).frames = []) : s.inFrameStart y = (s.frameOpened y).settle y := by
  unfold State.inFrameStart
  exact if_pos hf

theorem State.frameOpened_inl (s : State) (y : Fin 2) : (s.frameOpened y).inl y =
    { s.inl y with
      frames := (s.inl y).frames ++ [s.openedFrame none], crc := crcInit, slot := some 0, st := .receiving } :=
  State.modIn_inl _ _ _

theorem State.frameOpened_others (s : State) (y : Fin 2) : OtherIns y s (s.frameOpened y) :=
  State.modIn_others _ _ _

theorem State.frameOpened_frame (s : State) (y : Fin 2) : ChangesOnly [.ins] s (s.frameOpened y) :=
  modIn_frame _ _ _

theorem State.inboundEdge_next (hr : s.rst = false)
    (ht : (s.inl y).st = .listening ∧ s.startReached = true ∨ (s.inl y).st = .receiving ∨
      (s.inl y).st = .discarding) :
    exec (.inboundActiveEdge y (s.inRec y).edge) s = .next (s.inActiveEdge y).arrivals := by
  have e : exec (.inboundActiveEdge y (s.inRec y).edge) s = execInboundActiveEdge y (s.inRec y).edge s := rfl
  have taken : s.inEdgeTaken y (s.inRec y).edge = true := by
    unfold State.inEdgeTaken
    rw [hr]
    rcases ht with ⟨h, hs⟩ | h | h <;> simp [h]
    exact hs
  rw [e, execInboundActiveEdge, if_pos taken]

theorem State.inActiveEdge_starts
    (ht : (s.inl y).st = .listening ∧ s.startReached = true ∨ (s.inl y).st = .discarding) :
    s.inActiveEdge y = s.inFrameStart y := by
  unfold State.inActiveEdge
  rcases ht with ⟨h, hs⟩ | h
  · rw [h]
    exact if_pos hs
  · rw [h]

theorem State.inActiveEdge_truncates (ht : (s.inl y).st = .receiving) :
    s.inActiveEdge y = (s.truncate y).inFrameStart y := by
  unfold State.inActiveEdge
  rw [ht]

/-- A grant does not read the inbound lanes. -/
theorem State.arrivals_modIn (s : State) (y : Fin 2) (v : InLane → InLane) :
    (s.modIn y v).arrivals = s.arrivals.modIn y v := by
  unfold State.arrivals
  rw [State.modIn_port, State.modIn_requests]
  cases s.port with
  | some a => rfl
  | none => cases s.requests.head? <;> rfl

/-- The report of a raise, with changes of inbound lanes before and after it. -/
theorem State.raise_reportedAlone (hn : NoGrantDue s) (fu : ChangesOnly [.ins] s u) {c : Kind} (hc : c ≠ .commit)
    (source : Option Nat) (d1 d2 : Word) (v : InLane → InLane) :
    ReportedAlone s ((u.raise c source d1 d2).modIn y v).arrivals c source d1 d2 := by
  rw [State.arrivals_modIn]
  have reported : Reported s (u.raise c source d1 d2) c source d1 d2 :=
    State.raise_reported (fu .flags (by decide)) (fu .journal (by decide)) (fu .header (by decide))
      (fu .timeBase (by decide)) hc _ _ _
  have alone := State.raise_onlyJournalRequests hn (fu .journal (by decide)) (fu .header (by decide))
    (fu .timeBase (by decide)) (fu .port (by decide)) (fu .requests (by decide)) c source d1 d2
  have ar := arrivals_frame (u.raise c source d1 d2)
  exact ⟨reported.of_eq (ar .flags (by decide)) (ar .journal (by decide)), alone⟩

theorem State.modIn_modIn_others {a b : State} (h : OtherIns y a b) (v : InLane → InLane) :
    OtherIns y a (b.modIn y v) := fun z hz => by rw [State.modIn_others _ _ _ z hz, h z hz]

/-- An active edge that the lane does not take. -/
theorem inboundEdge_ignored (s : State) (y : Fin 2) (edge : PulseEdge)
    (h : (s.inl y).st = .idle ∨ (s.inl y).st = .listening ∧ s.startReached = false) :
    exec (.inboundActiveEdge y edge) s = .next s := by
  have e : exec (.inboundActiveEdge y edge) s = execInboundActiveEdge y edge s := rfl
  have taken : s.inEdgeTaken y edge = false := by
    unfold State.inEdgeTaken
    rcases h with h | ⟨h, hs⟩ <;> simp [h]
    exact fun _ _ => hs
  rw [e, execInboundActiveEdge, taken]
  rfl

/-- Behind other frames a new frame waits (R153). -/
theorem inboundEdge_behind (hr : s.rst = false) (hn : NoGrantDue s)
    (ht : (s.inl y).st = .listening ∧ s.startReached = true ∨ (s.inl y).st = .discarding)
    (hf : (s.inl y).frames ≠ []) :
    ∃ t, exec (.inboundActiveEdge y (s.inRec y).edge) s = .next t ∧ OtherIns y s t ∧
      t.inl y = { s.inl y with
        st := .receiving, slot := some 0, crc := 0xFFFF
        frames := (s.inl y).frames ++ [{ time := s.timeBase, number := none, buffer := none
                                         outcome := .opened, halves := [] }] } ∧
      ChangesOnly [.ins] s t := by
  rw [State.inboundEdge_next hr (ht.imp_right .inr), State.inActiveEdge_starts ht, State.inFrameStart_behind hf,
    State.arrivals_of_noGrantDue (s := s.frameOpened y) hn]
  exact ⟨_, rfl, s.frameOpened_others y, s.frameOpened_inl y, s.frameOpened_frame y⟩

/-- A frame truncated behind others leaves at once (R159). -/
theorem inboundEdge_truncates_behind (hr : s.rst = false) (hn : NoGrantDue s) (ht : (s.inl y).st = .receiving)
    (hf : (s.inl y).frames = fs ++ [f]) (hne : fs ≠ []) (hb : f.buffer = none) :
    ∃ t, exec (.inboundActiveEdge y (s.inRec y).edge) s = .next t ∧ OtherIns y s t ∧
      t.inl y = { s.inl y with
        st := .receiving, slot := some 0, crc := 0xFFFF, cuts := sat8 (s.inl y).cuts
        frames := fs ++ [s.openedFrame none] } ∧
      ReportedAlone s t .inboundCut (some y.val) ((f.number.getD 0).setWidth 32) 2 ∧
      ChangesOnly [.ins, .flags, .journal, .requests, .port] s t := by
  have number := InLane.currentNumber_eq hf
  have cutInl := State.raiseCut_inl (s := s) (y := y) f.number .truncated
  have fc := raiseCut_frame s y f.number .truncated
  have frames : ((s.raiseCut y f.number .truncated).inl y).frames = fs ++ [f] := by rw [cutInl]; exact hf
  have dropped : s.truncate y = (s.raiseCut y f.number .truncated).modIn y fun l =>
      { l with frames := l.frames.dropLast } := by
    unfold State.truncate
    rw [number, State.discardCurrent_behind frames hb]
  have inl : (s.truncate y).inl y = { s.inl y with cuts := sat8 (s.inl y).cuts, frames := fs } := by
    rw [dropped, State.modIn_inl, frames, List.dropLast_concat, cutInl]
  have fresh : (s.truncate y).openedFrame none = s.openedFrame none := by
    unfold State.openedFrame
    rw [truncate_frame s y .timeBase (by decide)]
  have opened := (s.truncate y).frameOpened_inl y
  rw [inl, fresh] at opened
  rw [State.inboundEdge_next hr (.inr (.inl ht)), State.inActiveEdge_truncates ht,
    State.inFrameStart_behind (by rw [inl]; exact hne)]
  have cutIns : OtherIns y s (s.raiseCut y f.number .truncated) := fun z hz => by
    unfold State.raiseCut
    rw [State.raise_inl, State.modIn_others _ _ _ z hz]
  refine ⟨_, rfl, fun z hz => ?_, ?_, ?_, ?_⟩
  · rw [State.inl_congr (arrivals_frame _ .ins (by decide)), State.frameOpened_others _ _ z hz, dropped,
      State.modIn_others _ _ _ z hz, cutIns z hz]
  · rw [State.inl_congr (arrivals_frame _ .ins (by decide)), opened]
    rfl
  · rw [dropped]
    unfold State.frameOpened State.raiseCut
    rw [State.modIn_modIn]
    exact State.raise_reportedAlone hn (modIn_frame _ _ _) (by decide) _ _ _ _
  · have f1 : ChangesOnly [.ins, .flags, .journal, .requests] s ((s.truncate y).frameOpened y) := by
      rw [dropped]
      exact (fc.andThen (modIn_frame _ y _) (m := [.ins, .flags, .journal, .requests])).andThen
        (State.frameOpened_frame _ y)
    have asks : OnlyRequestsOf (.inLane y) s ((s.truncate y).frameOpened y) := by
      rw [dropped]
      exact State.raise_onlyRequestsOf (s.modIn y _) _ _ _ _ _
    exact (State.arrivals_spec hn (fun _ e => by cases e) asks f1 (by decide) (by decide)).2.mono (by decide)

/-- A pool of which one buffer has changed. -/
theorem OnlyBuffers.set {t : State} {b : Buffer} (only : OnlyBuffers w s t)
    (others : ∀ c : Fin 8, c ≠ k → (t.pool w).bufs[c] = (s.pool w).bufs[c]) (here : (t.pool w).bufs[k] = b) :
    t.pool w = { s.pool w with bufs := (s.pool w).bufs.set k b } := by
  have e : (t.pool w).bufs = (s.pool w).bufs.set k b := by
    refine Vector.ext fun i hi => ?_
    by_cases h : (⟨i, hi⟩ : Fin 8) = k
    · subst h
      rw [Vector.getElem_set_self]
      exact here
    · rw [Vector.getElem_set_ne _ _ fun hv => h (Fin.ext hv.symm)]
      exact others ⟨i, hi⟩ h
  unfold OnlyBuffers at only
  rw [only, e]

/-- The truncation of a head frame: it is counted, reported, and discarded (R159 steps 1 and 2). -/
theorem State.truncate_spec (hw : s.inWindow y = some w) (hf : (s.inl y).frames = [f]) (hb : f.buffer = some k) :
    (∀ r ∈ (s.truncate y).requests, r.who ≠ .inLane y) ∧
      (s.inProgress (.inLane y) = false → ((s.truncate y).inl y).frames = [] ∧ OtherPools w s (s.truncate y) ∧
        (s.truncate y).pool w =
          { s.pool w with bufs := (s.pool w).bufs.set k (Buffer.discard (s.pool w).bufs[k]) }) ∧
      (s.inProgress (.inLane y) = true →
        ((s.truncate y).inl y).frames = [{ f with outcome := .discard, halves := [] }] ∧
          (s.truncate y).pools = s.pools) ∧
      (s.truncate y).inl y =
        { s.inl y with cuts := sat8 (s.inl y).cuts, frames := ((s.truncate y).inl y).frames } ∧
      OtherIns y s (s.truncate y) ∧
      Reported s (s.truncate y) .inboundCut (some y.val) ((f.number.getD 0).setWidth 32) 2 ∧
      OnlyRequestsOf (.inLane y) s (s.truncate y) := by
  have number := InLane.currentNumber_eq (fs := []) hf
  have cutInl := State.raiseCut_inl (s := s) (y := y) f.number .truncated
  have fc := raiseCut_frame s y f.number .truncated
  have cutIns : OtherIns y s (s.raiseCut y f.number .truncated) := fun z hz => by
    unfold State.raiseCut
    rw [State.raise_inl, State.modIn_others _ _ _ z hz]
  have asks : OnlyRequestsOf (.inLane y) s (s.raiseCut y f.number .truncated) :=
    State.raise_onlyRequestsOf (s.modIn y _) _ _ _ _ _
  have reported : Reported s (s.raiseCut y f.number .truncated) .inboundCut (some y.val)
      ((f.number.getD 0).setWidth 32) 2 :=
    State.raise_reported (s := s) (u := s.modIn y _) rfl rfl rfl rfl (by decide) _ _ _
  have e : s.truncate y = (s.raiseCut y f.number .truncated).discardCurrent y := by
    unfold State.truncate
    rw [number]
  rw [e]
  generalize s.raiseCut y f.number .truncated = a at *
  obtain ⟨⟨head, _⟩, inl, others, asksB, fb⟩ := State.discardCurrent_spec (s := a) (fs := []) (f := f)
    ((State.inWindow_congr (fc .windows (by decide)) y).trans hw) (by rw [cutInl]; exact hf)
    ⟨fun _ => by rw [hb]; nofun, fun _ => rfl⟩
  obtain ⟨who, free, busy⟩ := head k rfl hb
  have port := State.inProgress_congr (fc .port (by decide)) (.inLane y)
  have pool := State.pool_congr (fc .pools (by decide))
  refine ⟨who, fun hp => ?_, fun hp => ?_, ?_, fun z hz => ?_,
    reported.of_eq (fb .flags (by decide)) (fb .journal (by decide)), asks.trans asksB⟩
  · obtain ⟨frames, otherPools, only, rest, here⟩ := free (port.trans hp)
    refine ⟨frames, fun z hz => (otherPools z hz).trans (pool z), ?_⟩
    have h := only.set rest here
    rw [pool] at h
    exact h
  · obtain ⟨frames, pools⟩ := busy (port.trans hp)
    exact ⟨frames, pools.trans (fc .pools (by decide))⟩
  · conv => lhs; rw [inl, cutInl]
  · rw [others z hz, cutIns z hz]

/-- A head frame truncated with its write in progress waits for that (R159). -/
theorem inboundEdge_truncates_busy (hr : s.rst = false) (hw : s.inWindow y = some w)
    (ht : (s.inl y).st = .receiving) (hf : (s.inl y).frames = [f]) (hb : f.buffer = some k)
    (hp : s.inProgress (.inLane y) = true) :
    ∃ t, exec (.inboundActiveEdge y (s.inRec y).edge) s = .next t ∧ OtherIns y s t ∧
      t.inl y = { s.inl y with
        st := .receiving, slot := some 0, crc := 0xFFFF, cuts := sat8 (s.inl y).cuts
        frames := [{ f with outcome := .discard, halves := [] },
          { time := s.timeBase, number := none, buffer := none, outcome := .opened, halves := [] }] } ∧
      Reported s t .inboundCut (some y.val) ((f.number.getD 0).setWidth 32) 2 ∧
      (∀ r ∈ t.requests, r.who ≠ .inLane y) ∧ OnlyRequestsOf (.inLane y) s t ∧
      ChangesOnly [.ins, .flags, .journal, .requests] s t := by
  obtain ⟨who, _, busy, inl, ins, reported, asks⟩ := State.truncate_spec hw hf hb
  obtain ⟨frames, pools⟩ := busy hp
  have ft := truncate_frame s y
  have held : ((s.truncate y).frameOpened y).arrivals = (s.truncate y).frameOpened y := by
    have port : ((s.truncate y).frameOpened y).port = s.port := ft .port (by decide)
    unfold State.inProgress at hp
    unfold State.arrivals
    rw [port]
    cases h : s.port with
    | none => rw [h] at hp; cases hp
    | some a => rfl
  have fresh : (s.truncate y).openedFrame none = s.openedFrame none := by
    unfold State.openedFrame
    rw [ft .timeBase (by decide)]
  rw [State.inboundEdge_next hr (.inr (.inl ht)), State.inActiveEdge_truncates ht,
    State.inFrameStart_behind (by rw [frames]; nofun), held]
  refine ⟨_, rfl, fun z hz => ?_, ?_, reported, who, asks, ?_⟩
  · rw [State.frameOpened_others _ _ z hz, ins z hz]
  · rw [State.frameOpened_inl, frames, inl, fresh]
    rfl
  · have f1 : ChangesOnly [.pools, .ins, .flags, .journal, .requests] s ((s.truncate y).frameOpened y) :=
      (ft.mono (by decide)).trans ((State.frameOpened_frame _ y).mono (by decide))
    exact f1.drop pools

/-- A frame opened alone is given the lowest FREE buffer (R152, R153). -/
theorem State.inFrameStart_allocates {c : Fin 8} (hw : s.inWindow y = some w) (hf : (s.inl y).frames = [])
    (hc : s.inboundFree w = some c) :
    OtherIns y s (s.inFrameStart y) ∧
      (s.inFrameStart y).inl y = { s.inl y with
        st := .receiving, slot := some 0, crc := 0xFFFF, frames := [s.openedFrame (some c)] } ∧
      (∀ z, (s.inFrameStart y).pool z = if z = w then (s.pool w).modBuf c Buffer.allocate else s.pool z) ∧
      (s.inFrameStart y).requests = s.requests ∧ ChangesOnly [.ins, .pools, .requests] s (s.inFrameStart y) := by
  have opened := s.frameOpened_inl y
  rw [hf, List.nil_append] at opened
  rw [State.inFrameStart_alone hf]
  obtain ⟨frame, ins, inl, pool, quiet, _⟩ := State.settle_next (s := s.frameOpened y) (g := s.openedFrame none)
    (gs := []) hw (by rw [opened]) rfl (.inl rfl)
    (fun h => absurd rfl h) hc
  refine ⟨fun z hz => ?_, ?_, pool, quiet rfl,
    ((s.frameOpened_frame y).mono (by decide)).trans frame⟩
  · rw [ins z hz, s.frameOpened_others y z hz]
  · rw [inl, opened]
    rfl

/-- A frame opened alone is refused when no buffer is FREE (R152, R153). -/
theorem State.inFrameStart_refused (hw : s.inWindow y = some w) (hf : (s.inl y).frames = [])
    (hc : s.inboundFree w = none) :
    s.inFrameStart y = (s.frameOpened y).refuseFrame y (s.openedFrame none) := by
  have opened := s.frameOpened_inl y
  rw [hf, List.nil_append] at opened
  rw [State.inFrameStart_alone hf, State.settle_refused [s.openedFrame none] (s.frameOpened y) hw (by rw [opened])
    (fun b hm => by rw [List.mem_singleton.1 hm]; exact ⟨rfl, nofun⟩) hc]
  rfl

/-- A head frame truncated with no write in progress gives its buffer back, and the new frame is given the lowest
FREE one (R159, R153). -/
theorem inboundEdge_truncates_free (hr : s.rst = false) (hn : NoGrantDue s) (hw : s.inWindow y = some w)
    (ht : (s.inl y).st = .receiving) (hf : (s.inl y).frames = [f]) (hb : f.buffer = some k)
    (hp : s.inProgress (.inLane y) = false) (hk : k.val < (s.win w).bufferCount)
    (fill : ∀ c : Fin 8, c ≠ k → (s.pool w).bufs[c].st ≠ .filling) :
    ∃ t c, exec (.inboundActiveEdge y (s.inRec y).edge) s = .next t ∧ OtherIns y s t ∧
      OtherPools w s t ∧ (c = k ∨ (s.pool w).bufs[c].st = .free) ∧ c.val < (s.win w).bufferCount ∧
      (∀ d : Fin 8, d < c → d ≠ k ∧ (s.pool w).bufs[d].st ≠ .free) ∧
      t.inl y = { s.inl y with
        st := .receiving, slot := some 0, crc := 0xFFFF, cuts := sat8 (s.inl y).cuts
        frames := [{ time := s.timeBase, number := none, buffer := some c, outcome := .opened, halves := [] }] } ∧
      t.pool w = { s.pool w with
        bufs := ((s.pool w).bufs.set k (Buffer.discard (s.pool w).bufs[k])).set c
          { st := .filling, holders := HolderSet.empty, seq := 0, time := 0, map := [] } } ∧
      Reported s t .inboundCut (some y.val) ((f.number.getD 0).setWidth 32) 2 ∧
      (∀ r ∈ t.requests, r.who ≠ .inLane y) ∧ OnlyRequestsOf (.inLane y) s t ∧
      ChangesOnly [.ins, .pools, .flags, .journal, .requests, .port] s t := by
  obtain ⟨who, free, _, inl, ins, reported, asks⟩ := State.truncate_spec hw hf hb
  obtain ⟨frames, otherPools, pool⟩ := free hp
  have ft := truncate_frame s y
  have win : (s.truncate y).win w = s.win w := State.win_congr (ft .windows (by decide)) w
  have bufs : ∀ c : Fin 8, ((s.truncate y).pool w).bufs[c] =
      if c = k then Buffer.discard (s.pool w).bufs[k] else (s.pool w).bufs[c] := fun c => by
    rw [pool]
    exact Pool.bufs_modBuf (s.pool w) k c Buffer.discard
  obtain ⟨c, hc⟩ : ∃ c, (s.truncate y).freeBuffer w = some c := by
    refine Option.ne_none_iff_exists'.1 fun e => State.freeBuffer_none.1 e k (by rw [win]; exact hk) ?_
    rw [bufs, if_pos rfl]
    rfl
  have filling : ((s.truncate y).pool w).find .filling = none := Pool.find_none.2 fun c => by
    rw [bufs]
    split
    · nofun
    · next h => exact fill c h
  obtain ⟨hlt, hst, before⟩ := State.freeBuffer_lowest hc
  obtain ⟨sins, sinl, spool, sreq, sframe⟩ := State.inFrameStart_allocates
    ((State.inWindow_congr (ft .windows (by decide)) y).trans hw) frames ((State.inboundFree_of_find filling).trans hc)
  have fresh : (s.truncate y).openedFrame (some c) = s.openedFrame (some c) := by
    unfold State.openedFrame
    rw [ft .timeBase (by decide)]
  rw [State.inboundEdge_next hr (.inr (.inl ht)), State.inActiveEdge_truncates ht]
  generalize (s.truncate y).inFrameStart y = u at *
  have fu : ChangesOnly [.ins, .pools, .flags, .journal, .requests] s u := ft.andThen sframe
  have asksU : OnlyRequestsOf (.inLane y) s u := asks.trans (.of_eq sreq (sframe .port (by decide)))
  obtain ⟨asksT, frameT⟩ := State.arrivals_spec hn (fun _ e => by cases e) asksU fu (by decide) (by decide)
  have ar := arrivals_frame u
  refine ⟨_, c, rfl, fun z hz => ?_, fun z hz => ?_, ?_, by rw [← win]; exact hlt, fun d hd => ?_, ?_, ?_, ?_,
    fun r hm => ?_, asksT, frameT.mono (by decide)⟩
  · rw [State.inl_congr (ar .ins (by decide)), sins z hz, ins z hz]
  · rw [State.arrivals_pool, spool, if_neg hz, otherPools z hz]
  · rw [bufs] at hst
    by_cases h : c = k
    · exact .inl h
    · exact .inr (by rw [if_neg h] at hst; exact hst)
  · have hd' := before d hd
    rw [bufs] at hd'
    by_cases h : d = k
    · rw [if_pos h] at hd'; exact absurd rfl hd'
    · rw [if_neg h] at hd'; exact ⟨h, hd'⟩
  · rw [State.inl_congr (ar .ins (by decide)), sinl, inl, fresh]
    rfl
  · rw [State.arrivals_pool, spool, if_pos rfl, pool]
    rfl
  · exact reported.of_eq ((ar .flags (by decide)).trans (sframe .flags (by decide)))
      ((ar .journal (by decide)).trans (sframe .journal (by decide)))
  · exact who r (by rw [← sreq]; exact u.arrivals_requests_sub r hm)

end

/-- Settles O47, by what the lane has in hand. -/
theorem inboundEdgeOpensAFrame : Obligations.InboundEdgeOpensAFrame := by
  refine ⟨inboundEdge_ignored, fun s y hr hn ht hf => inboundEdge_behind hr hn ht hf,
    fun s y fs f hr hn ht hf hne hb => inboundEdge_truncates_behind hr hn ht hf hne hb,
    fun s y w k f hr hn hw ht hf hb => ⟨fun hp => inboundEdge_truncates_busy hr hw ht hf hb hp,
      fun hp hk fill => inboundEdge_truncates_free hr hn hw ht hf hb hp hk fill⟩,
    fun s y w hr hn hw ht hf fill => ⟨fun k hk => ?_, fun hk => ?_⟩⟩
  · obtain ⟨ins, inl, pool, requests, frame⟩ := State.inFrameStart_allocates hw hf
      ((State.inboundFree_of_find fill).trans hk)
    rw [State.inboundEdge_next hr (ht.imp_right .inr), State.inActiveEdge_starts ht,
      State.arrivals_of_noGrantDue (hn.of_eq (frame .port (by decide)) requests)]
    refine ⟨_, rfl, ins, fun z hz => (pool z).trans (if_neg hz), inl, (pool w).trans (if_pos rfl), ?_⟩
    exact (frame.mono (l' := [.requests, .ins, .pools]) (by decide)).drop requests
  · have none : s.inboundFree w = none := State.inboundFree_none hk
    have opened := s.frameOpened_inl y
    have retired : ((s.frameOpened y).refuseFrame y (s.openedFrame Option.none)) =
        ((s.frameOpened y).raise .inboundNoBuffer (some y.val) 0 (num (s.pool w).retiredCount)).modIn y fun l =>
          { l.popHead with noBuffers := sat8 l.noBuffers, st := .discarding, slot := some 0 } := by
      have window : (s.frameOpened y).inWindow y = some w := hw
      unfold State.refuseFrame
      rw [window]
      rfl
    have inl : ((s.frameOpened y).refuseFrame y (s.openedFrame Option.none)).inl y = { s.inl y with
        st := .discarding, slot := some 0, crc := 0xFFFF, frames := [], noBuffers := sat8 (s.inl y).noBuffers } := by
      rw [State.refuseFrame_inl, opened, hf]
      rfl
    rw [State.inboundEdge_next hr (ht.imp_right .inr), State.inActiveEdge_starts ht,
      State.inFrameStart_refused hw hf none]
    have ar := arrivals_frame ((s.frameOpened y).refuseFrame y (s.openedFrame Option.none))
    have f1 : ChangesOnly [.ins, .flags, .journal, .requests] s
        ((s.frameOpened y).refuseFrame y (s.openedFrame Option.none)) :=
      (s.frameOpened_frame y).andThen (refuseFrame_frame _ y _)
    have asks : OnlyRequestsOf (.inLane y) s ((s.frameOpened y).refuseFrame y (s.openedFrame Option.none)) :=
      State.raise_onlyRequestsOf (s.frameOpened y) _ _ _ _ _
    refine ⟨_, rfl, fun z hz => ?_, ?_, ?_,
      (State.arrivals_spec hn (fun _ e => by cases e) asks f1 (by decide) (by decide)).2.mono (by decide)⟩
    · rw [State.inl_congr (ar .ins (by decide)), State.refuseFrame_others _ _ z hz, s.frameOpened_others y z hz]
    · rw [State.inl_congr (ar .ins (by decide)), inl]
    · rw [retired]
      exact State.raise_reportedAlone hn (s.frameOpened_frame y) (by decide) _ _ _ _

end Sys2Proof.Machine

/-! SUPPORT. A frame start within an event of an outbound lane: the decisions, holds and fetches are those of
the state the event starts in (R15, R97, R111–R113). -/

namespace Sys2Proof.Machine

section
variable {s u v t : State} {x : Fin 6}

/-! ### The decisions of a frame -/

/-- A frame that starts in `u` takes the decisions of one that starts in `s` (R97, R130). -/
structure DecidesAs (s u : State) : Prop where
  lanes : u.lanes = s.lanes
  entries : u.entries = s.entries
  windows : u.windows = s.windows
  groups : u.groups = s.groups
  pools : ∀ w : Fin 16, (s.pool w).drawsAs (u.pool w)

theorem DecidesAs.of_frame (f : ChangesOnly [.outs, .flags, .journal, .requests] s u) : DecidesAs s u where
  lanes := f .lanes (by decide)
  entries := f .entries (by decide)
  windows := f .windows (by decide)
  groups := f .groups (by decide)
  pools := fun w => State.pool_congr (f .pools (by decide)) w ▸ Pool.drawsAs_refl _

theorem DecidesAs.drawFor (h : DecidesAs s u) (w : Fin 16) : u.drawFor w = s.drawFor w :=
  State.drawFor_congr h.windows h.groups h.pools w

theorem DecidesAs.carried (h : DecidesAs s u) (x : Fin 6) : u.carried x = s.carried x :=
  State.carried_congr h.lanes h.entries x

theorem DecidesAs.frameDraws (h : DecidesAs s u) (x : Fin 6) : u.frameDraws x = s.frameDraws x := by
  unfold State.frameDraws
  rw [h.carried, funext h.drawFor]

theorem State.neededWords_congr (he : u.entries = s.entries) (hw : u.windows = s.windows) (e : Nat) (d : Draw) :
    u.neededWords e d = s.neededWords e d := by
  unfold State.neededWords
  dsimp only
  rw [State.entry_congr he, State.win_congr hw]

theorem DecidesAs.framePlan (h : DecidesAs s u) (x : Fin 6) : u.framePlan x = s.framePlan x := by
  unfold State.framePlan
  rw [State.slotOrder_congr h.lanes h.entries]
  refine List.flatMap_congr fun e _ => ?_
  rw [State.entry_congr h.entries, h.drawFor, State.neededWords_congr h.entries h.windows]

/-- The search for READY finds the same in a pool whose other buffers alone have changed state. -/
theorem Pool.find_ready_congr {p q : Pool} (h : ∀ k : Fin 8, q.bufs[k].st = .ready ↔ p.bufs[k].st = .ready) :
    q.find .ready = p.find .ready := by
  unfold Pool.find
  refine congrArg (List.find? · allBufs) (funext fun k => ?_)
  rw [Bool.eq_iff_iff, beq_iff_eq, beq_iff_eq]
  exact h k

/-- A release leaves what a decision reads. -/
theorem Pool.drawsAs_release (p : Pool) (g : Holder) : p.drawsAs (p.release g) := by
  refine ⟨rfl, rfl, Pool.find_ready_congr fun k => ?_, fun k => ?_⟩
  · unfold Pool.release
    rw [Pool.bufs_mapBufs]
    rcases Buffer.release_st g p.bufs[k] with e | ⟨h, e⟩ <;> rw [e]
    rw [h]
    exact ⟨nofun, nofun⟩
  · rw [Pool.release_bufs]
    exact ⟨rfl, rfl⟩

/-- The holds, seen from an earlier state of the event in which `was` says what each buffer became. -/
theorem HoldsTaken.since {was : Buffer → Buffer} (h : HoldsTaken x id u t) (d : DecidesAs s u)
    (hp : ∀ w : Fin 16, OnlyBuffers w s u ∧ ∀ k : Fin 8, (u.pool w).bufs[k] = was (s.pool w).bufs[k]) :
    HoldsTaken x was s t := fun w => by
  obtain ⟨only, bufs⟩ := h w
  obtain ⟨only', bufs'⟩ := hp w
  refine ⟨only'.trans only, fun k => ?_⟩
  rw [bufs k, d.carried, d.drawFor, id, bufs' k]

/-! ### Requests and port -/

/-- The only request a frame start adds is that of the word the lane then asks for (R113). -/
theorem State.frameStart_requests (s : State) (x : Fin 6) (fly : Bool) :
    (s.frameStart x fly).requests = s.requests ∨
      ∃ p, ((s.frameStart x fly).out x).asked = some p ∧
        (s.frameStart x fly).requests = s.requests ++ [fetchOf x p false] := by
  have f := s.begunFrame_frame x fly
  rw [State.frameStart_eq]
  rcases (s.begunFrame x fly).tryFetch_cases x with ⟨_, e⟩ | ⟨p, ps, _, _, e⟩ <;> rw [e]
  · exact .inl (f .requests (by decide))
  · refine .inr ⟨p, ?_, ?_⟩
    · rw [State.out_congr (State.join_outs _ _), State.out_modOut, if_pos rfl]
    · have hu : (s.begunFrame x fly).urgentFor ((s.begunFrame x fly).out x) p = false := by
        rw [State.begunFrame_out]
        simp [State.urgentFor]
      rw [State.join_requests, hu, State.modOut_requests, f .requests (by decide)]

/-- A raise keeps every request. -/
theorem State.raise_requests_sub (s : State) (k : Kind) (source : Option Nat) (d1 d2 : Word) :
    ∀ r ∈ s.requests, r ∈ (s.raise k source d1 d2).requests := fun r hr => by
  by_cases e : r.who = .journal
  · exact (s.raise_onlyRequestsOf (.outLane 0) k source d1 d2).1 r hr (by rw [e]; nofun)
  · exact (s.raise_onlyRequestsOf .journal k source d1 d2).1 r hr e

/-- A raise lists no lane. -/
theorem State.raise_listed (s : State) (x : Fin 6) (k : Kind) (source : Option Nat) (d1 d2 : Word) :
    (s.raise k source d1 d2).listed (.outLane x) = s.listed (.outLane x) := by
  rw [Bool.eq_iff_iff]
  unfold State.listed
  simp only [List.any_eq_true, beq_iff_eq]
  constructor
  · rintro ⟨r, hr, hw⟩
    refine ⟨r, ((s.raise_onlyRequestsOf .journal k source d1 d2).2.1 r hr).resolve_right fun h => ?_, hw⟩
    rw [hw] at h
    rcases h with h | h <;> cases h
  · rintro ⟨r, hr, hw⟩
    exact ⟨r, s.raise_requests_sub k source d1 d2 r hr, hw⟩

/-- An access in progress is not touched by a grant (R73). -/
theorem State.arrivals_port_some {a : Access} (h : s.port = some a) : s.arrivals.port = some a := by
  rcases s.arrivals_cases with ⟨e, _⟩ | ⟨r, rs, hnone, _⟩
  · rw [e]; exact h
  · rw [h] at hnone; cases hnone

/-- A request that was on the list before the event stays there at a grant (R73). -/
theorem State.arrivals_keeps {r : Request} (hn : NoGrantDue s) (hp : u.port = none → s.port = none)
    (hs : r ∈ s.requests) (hu : r ∈ u.requests) : r ∈ u.arrivals.requests := by
  rcases u.arrivals_cases with ⟨e, _⟩ | ⟨q, qs, hnone, _⟩
  · rw [e]; exact hu
  · rw [hn (hp hnone)] at hs; cases hs

/-- The end of an event that may mark an access in progress as withdrawn (R73, R75, R77). -/
theorem State.arrivals_frame_of {q : Requester} {l : List Item} (hn : NoGrantDue s) (hq : ∀ w, q ≠ .copyJob w)
    (asks : OnlyRequestsOf q s u) (hp : u.port = none → s.port = none) (f : ChangesOnly l s u)
    (hc : .copyPtr ∉ l) : ChangesOnly (.requests :: .port :: l) s u.arrivals := fun g hg => by
  by_cases e : g = .copyPtr
  · subst e
    refine (State.arrivals_copyPtr hn hp fun r hr => ?_).trans (f .copyPtr hc)
    refine (asks.2.1 r hr).imp_right fun h z e => ?_
    rcases h with h | h
    · exact hq z (h.symm.trans e)
    · rw [h] at e; cases e
  · simp only [List.mem_cons, not_or] at hg
    obtain ⟨h1, h2, h3⟩ := hg
    exact State.sameAt_trans (f g h3) (arrivals_frame u g (by simp [h1, h2, e]))

/-! ### The frame start of an event -/

/-- The lane record `l` as a frame of it has begun, but for the plan and the word asked for (R111, R114). -/
def OutLane.begun1 (l : OutLane) (now : Word) (fly : Bool) (draws : List Carried) (plan : List PlanWord)
    (asked : Option PlanWord) : OutLane :=
  { l with
    st := .sending, frameNo := l.frameNo + 1, frameTime := now
    flags := { flywheel := fly, prevCut := l.cutMark, prevUnder := l.underMark }
    cutMark := false, underMark := false, begun := 1
    draws := draws, plan := plan, asked := asked
    fetch := [], crc := crcHalf 0xFFFF (l.frameNo + 1)
    line := some (l.frameNo + 1), tail := none }

/-- An event from `s` in which lane `x` takes a frame start in `u` and that ends in `t`. -/
structure FrameBegun (x : Fin 6) (fly : Bool) (was : Buffer → Buffer) (s u t : State) : Prop where
  others : OtherOuts x s t
  out : t.out x = (u.out x).begun1 s.timeBase fly ((s.carried x).map s.drawFor) (t.out x).plan (t.out x).asked
  holds : HoldsTaken x was s t
  planned : u.listed (.outLane x) = false → FetchPlanned x s t
  asks : OnlyRequestsOf (.outLane x) s t

/-- A frame start in `u`, after which the event changes lanes and pools no more, ends an event from `s`. -/
theorem State.frameStart_begun {fly : Bool} {was : Buffer → Buffer} (hn : NoGrantDue s) (d : DecidesAs s u)
    (hp : ∀ w : Fin 16, OnlyBuffers w s u ∧ ∀ k : Fin 8, (u.pool w).bufs[k] = was (s.pool w).bufs[k])
    (others : OtherOuts x s u) (asks : OnlyRequestsOf (.outLane x) s u) (ht : u.timeBase = s.timeBase)
    (port : u.inProgress (.outLane x) = s.inProgress (.outLane x)) (free : v.port = none → s.port = none)
    (fv : ChangesOnly [.flags, .journal, .requests] (u.frameStart x fly) v)
    (asksv : OnlyRequestsOf (.outLane x) (u.frameStart x fly) v)
    (sub : ∀ r ∈ (u.frameStart x fly).requests, r ∈ v.requests) :
    FrameBegun x fly was s u v.arrivals := by
  have fa : ChangesOnly [.flags, .journal, .requests, .port, .copyPtr] (u.frameStart x fly) v.arrivals :=
    fv.andThen (arrivals_frame v)
  have outs := State.out_congr (fa .outs (by decide))
  refine ⟨fun z hz => ?_, ?_, ?_, fun hl => ?_, ?_⟩
  · rw [outs, State.frameStart_others u x fly z hz, others z hz]
  · rw [outs]
    conv => lhs; rw [State.frameStart_out, ht, d.frameDraws]
    rfl
  · exact ((u.frameStart_holds x fly).of_eq (fa .pools (by decide))).since d hp
  · exact State.frameStart_planned (fly := fly) hl port (d.framePlan x) (outs x)
      fun r hr => State.follows_arrivals (sub r hr)
  · exact ((asks.trans (u.frameStart_onlyRequestsOf x fly)).trans asksv).arrivals hn free

/-- The common case: nothing has been released before the frame start. -/
theorem State.frameStart_begun_id {fly : Bool} (hn : NoGrantDue s)
    (f : ChangesOnly [.outs, .flags, .journal, .requests] s u) (others : OtherOuts x s u)
    (asks : OnlyRequestsOf (.outLane x) s u)
    (fv : ChangesOnly [.flags, .journal, .requests] (u.frameStart x fly) v)
    (asksv : OnlyRequestsOf (.outLane x) (u.frameStart x fly) v)
    (sub : ∀ r ∈ (u.frameStart x fly).requests, r ∈ v.requests) :
    FrameBegun x fly id s u v.arrivals := by
  have pool := State.pool_congr (f .pools (by decide))
  have port : u.port = s.port := f .port (by decide)
  have portv : v.port = s.port := (fv .port (by decide)).trans ((frameStart_frame u x fly .port (by decide)).trans port)
  refine State.frameStart_begun hn (.of_frame f) (fun w => ⟨?_, fun k => by rw [pool]; rfl⟩) others asks
    (f .timeBase (by decide)) (State.inProgress_congr port _) (fun e => portv.symm.trans e) fv asksv sub
  unfold OnlyBuffers
  rw [pool]

end

end Sys2Proof.Machine

/-! Scheduled starts and flywheel starts of an outbound lane (chapters 6, 7): O37, O39. -/

namespace Sys2Proof.Machine

section
variable {s u t : State} {x : Fin 6}

/-! ### What a window draws on (R97) -/

theorem State.readyDraw_eq {w : Fin 16} {k : Fin 8} (h : (s.pool w).find .ready = some k) :
    s.readyDraw w = .buffer k (s.pool w).bufs[k].seq (s.pool w).bufs[k].time := by
  unfold State.readyDraw
  rw [h]

theorem State.drawFor_empty {w : Fin 16} (h : s.cueState w = .empty) :
    s.drawFor w = { window := w, draw := .neutral, stale := false } := by
  unfold State.drawFor
  rw [h]

theorem State.drawFor_live {w : Fin 16} (h : s.cueState w = .live) :
    s.drawFor w = { window := w, draw := s.readyDraw w, stale := false } := by
  unfold State.drawFor
  rw [h]

theorem State.drawFor_stale {w : Fin 16} (h : s.cueState w = .stale) : s.drawFor w =
    { window := w, stale := true
      draw := if (s.win w).policy = .hold then s.readyDraw w
        else if (s.win w).policy = .decay then .decay else .neutral } := by
  unfold State.drawFor
  rw [h]
  cases (s.win w).policy <;> rfl

theorem State.fpActive_iff (s : State) (x : Fin 6) : s.fpActive x = true ↔
    (s.outRec x).timing = .master ∧ (s.out x).st = .sending ∧ (s.out x).begun = 1 := by
  unfold State.fpActive
  rw [Bool.and_eq_true, Bool.and_eq_true, beq_iff_eq, beq_iff_eq, beq_iff_eq, and_assoc]

/-- FP is active from the frame start of a MASTER lane (R118). -/
theorem FrameBegun.fpActive {fly : Bool} {was : Buffer → Buffer} (h : FrameBegun x fly was s u t)
    (hl : t.lanes = s.lanes) (hm : (s.outRec x).timing = .master) : t.fpActive x = true := by
  refine (t.fpActive_iff x).2 ⟨by rw [State.outRec_congr hl]; exact hm, ?_, ?_⟩ <;> rw [h.out] <;> rfl

theorem State.modOut_others (s : State) (x : Fin 6) (f : OutLane → OutLane) : OtherOuts x s (s.modOut x f) :=
  fun z hz => by rw [State.out_modOut, if_neg hz]

end

/-! ### The scheduled start (R109) -/

theorem exec_masterScheduledStart {s : State} {x : Fin 6} (hr : s.rst = false) (hd : s.dev = .run)
    (hs : s.startReached = true) (hm : (s.outRec x).timing = .master)
    (hn : (s.out x).nextStart = some s.timeBase) (ho : (s.out x).st = .waiting ∨ (s.out x).st = .between) :
    exec (.masterScheduledStart x) s = .next (s.masterStart x).arrivals := by
  have due : s.masterDue x = true := by
    unfold State.masterDue
    rcases ho with h | h <;> simp [hd, hs, hm, hn, h]
  have e : exec (.masterScheduledStart x) s = execMasterScheduledStart x s := rfl
  rw [e, execMasterScheduledStart, hr, due]
  rfl

/-- Settles O37: a scheduled start is a frame start of the lane whose next start has advanced by one period. -/
theorem masterStartsItsFrameOnSchedule : Obligations.MasterStartsItsFrameOnSchedule := by
  unfold Obligations.MasterStartsItsFrameOnSchedule
  refine ⟨fun s w k hk => ⟨fun h => ?_, fun h hp => ?_⟩, fun s w => ⟨fun h => ?_, fun h hp => ?_, fun h hp => ?_⟩,
    fun s x => ⟨(s.slotOrder_spec x).1, (s.slotOrder_spec x).2, s.carried_eq x⟩, State.fpActive_iff,
    fun s x hr hn hd hs hm hnext ho => ?_⟩
  · rw [State.drawFor_live h, State.readyDraw_eq hk]
  · rw [State.drawFor_stale h, if_pos hp, State.readyDraw_eq hk]
  · exact State.drawFor_empty h
  · rw [State.drawFor_stale h, hp]; rfl
  · rw [State.drawFor_stale h, hp]; rfl
  · have f : ChangesOnly [.outs] s (s.modOut x fun l =>
        { l with nextStart := some (s.timeBase + BitVec.ofNat 32 (s.outRec x).period) }) := modOut_frame _ _ _
    have asks := OnlyRequestsOf.of_eq (q := .outLane x) (f .requests (by decide)) (f .port (by decide))
    have h := State.frameStart_begun_id hn (f.mono (by decide)) (s.modOut_others x _) asks
      (ChangesOnly.refl _ _) (.refl _ _) (fun _ hr => hr) (fly := false)
    have fm : ChangesOnly [.outs, .pools, .requests] s (s.masterStart x) := masterStart_frame s x
    have port : (s.masterStart x).port = s.port := fm .port (by decide)
    have ft := State.arrivals_frame_of hn (fun _ e => by cases e) (asks.trans (State.frameStart_onlyRequestsOf _ x false))
      (fun e => port.symm.trans e) fm (by decide)
    refine ⟨_, exec_masterScheduledStart hr hd hs hm hnext ho, h.others, ?_, ?_, h.holds, fun hl => ?_, h.asks,
      ft.mono (by decide)⟩
    · have out := h.out
      rw [State.out_modOut, if_pos rfl] at out
      exact out
    · exact h.fpActive (ft .lanes (by decide)) hm
    · exact h.planned ((State.listed_eq_false _ _).2 hl)

/-! ### The flywheel start (R122) -/

theorem exec_flywheelStart {s : State} {x : Fin 6} (hr : s.rst = false) (hd : s.dev = .run)
    (hm : (s.outRec x).timing = .follower) (ho : (s.out x).st = .between)
    (hp : (s.out x).pulse.deadline = some s.timeBase) :
    exec (.flywheelStart x) s = .next (s.flywheel x).arrivals := by
  have due : s.flywheelDue x = true := by
    unfold State.flywheelDue
    simp [hd, hm, ho, hp]
  have e : exec (.flywheelStart x) s = execFlywheelStart x s := rfl
  rw [e, execFlywheelStart, hr, due]
  rfl

/-- The counts and the pulse record a flywheel start leaves (R122). -/
def State.flywheelSet (s : State) (x : Fin 6) : State :=
  s.modOut x fun l =>
    { l with
      flywheels := sat8 l.flywheels
      pulse := { l.pulse with
        checked := l.pulse.inRun && l.pulse.checked
        inRun := true
        deadline := some (s.timeBase + BitVec.ofNat 32 (s.outRec x).period) } }

theorem State.flywheelSet_eq (s : State) (x : Fin 6) : s.flywheelSet x = s.modOut x fun l =>
    { l with
      flywheels := sat8 l.flywheels
      pulse := { l.pulse with
        checked := if (!(s.out x).pulse.inRun) = true then false else l.pulse.checked
        inRun := true
        deadline := some (s.timeBase + BitVec.ofNat 32 (s.outRec x).period) } } := by
  have same : ∀ f g : OutLane → OutLane, f (s.out x) = g (s.out x) → s.modOut x f = s.modOut x g := fun f g h => by
    unfold State.modOut
    exact congrArg (fun l => { s with outs := s.outs.set x l }) h
  refine same _ _ ?_
  cases (s.out x).pulse.inRun <;> rfl

theorem State.flywheel_inRun {s : State} {x : Fin 6} (h : (s.out x).pulse.inRun = true) :
    s.flywheel x = (s.flywheelSet x).frameStart x true := by
  rw [State.flywheelSet_eq]
  unfold State.flywheel
  dsimp only
  rw [if_neg (by rw [h]; decide)]

theorem State.flywheel_first {s : State} {x : Fin 6} (h : (s.out x).pulse.inRun = false) :
    s.flywheel x = ((s.flywheelSet x).frameStart x true).raise .flywheel (some x.val)
      (((s.out x).frameNo + 1).setWidth 32) (s.sincePulse x) := by
  have no : (((s.flywheelSet x).frameStart x true).out x).frameNo = (s.out x).frameNo + 1 := by
    rw [State.frameStart_out, State.flywheelSet, State.out_modOut, if_pos rfl]
  rw [← no, State.flywheelSet_eq]
  unfold State.flywheel
  dsimp only
  rw [if_pos (by rw [h]; decide)]

theorem State.flywheelSet_out (s : State) (x : Fin 6) : (s.flywheelSet x).out x =
    { s.out x with
      flywheels := sat8 (s.out x).flywheels
      pulse := { last := (s.out x).pulse.last
                 checked := (s.out x).pulse.inRun && (s.out x).pulse.checked
                 deadline := some (s.timeBase + BitVec.ofNat 32 (s.outRec x).period)
                 inRun := true } } := by
  rw [State.flywheelSet, State.out_modOut, if_pos rfl]

theorem State.sincePulse_eq {s : State} {x : Fin 6} {p : Word} (h : (s.out x).pulse.last = some p) :
    s.sincePulse x = s.timeBase - p := by
  unfold State.sincePulse
  rw [h]
  rfl

/-- A flywheel start is a frame start, reported at the first of a run. -/
theorem State.flywheel_begun {s : State} {x : Fin 6} (hn : NoGrantDue s) :
    FrameBegun x true id s (s.flywheelSet x) (s.flywheel x).arrivals ∧
    ((s.out x).pulse.inRun = true → (s.flywheel x).flags = s.flags ∧ (s.flywheel x).journal = s.journal) ∧
    ((s.out x).pulse.inRun = false → Reported s (s.flywheel x) .flywheel (some x.val)
      (((s.out x).frameNo + 1).setWidth 32) (s.sincePulse x)) ∧
    OnlyRequestsOf (.outLane x) s (s.flywheel x) := by
  have f : ChangesOnly [.outs] s (s.flywheelSet x) := modOut_frame _ _ _
  have ff : ChangesOnly [.outs, .pools, .requests] s ((s.flywheelSet x).frameStart x true) :=
    f.andThen (frameStart_frame _ x true)
  have asks : OnlyRequestsOf (.outLane x) s (s.flywheelSet x) :=
    .of_eq (f .requests (by decide)) (f .port (by decide))
  have asksf := asks.trans ((s.flywheelSet x).frameStart_onlyRequestsOf x true)
  have others : OtherOuts x s (s.flywheelSet x) := s.modOut_others x _
  cases hi : (s.out x).pulse.inRun with
  | true =>
    rw [State.flywheel_inRun hi]
    exact ⟨State.frameStart_begun_id hn (f.mono (by decide)) others asks (.refl _ _) (.refl _ _) fun _ h => h,
      fun _ => ⟨ff .flags (by decide), ff .journal (by decide)⟩, (fun e => by cases e), asksf⟩
  | false =>
    rw [State.flywheel_first hi]
    exact ⟨State.frameStart_begun_id hn (f.mono (by decide)) others asks (raise_frame _ _ _ _ _)
        (State.raise_onlyRequestsOf _ _ _ _ _ _) (State.raise_requests_sub _ _ _ _ _),
      fun e => (by cases e),
      fun _ => State.raise_reported (ff .flags (by decide)) (ff .journal (by decide)) (ff .header (by decide))
        (ff .timeBase (by decide)) (by decide) _ _ _,
      asksf.trans (State.raise_onlyRequestsOf _ _ _ _ _ _)⟩

/-- Settles O39: a flywheel start is a frame start, and the first of a run is reported. -/
theorem flywheelStartsAFrameAtTheDeadline : Obligations.FlywheelStartsAFrameAtTheDeadline := by
  unfold Obligations.FlywheelStartsAFrameAtTheDeadline
  intro s x hr hn hd hm ho hp
  obtain ⟨h, inRun, first, asks⟩ := State.flywheel_begun (x := x) hn
  have fm := flywheel_frame s x
  have port : (s.flywheel x).port = s.port := fm .port (by decide)
  have ft := State.arrivals_frame_of hn (fun _ e => by cases e) asks (fun e => port.symm.trans e) fm (by decide)
  have fa := arrivals_frame (s.flywheel x)
  have flags := fa .flags (by decide)
  have journal := fa .journal (by decide)
  refine ⟨_, exec_flywheelStart hr hd hm ho hp, h.others, ?_, h.holds, fun hl => ?_, fun hi => ?_,
    fun p hi hlast => ?_, h.asks, ft.mono (by decide)⟩
  · have out := h.out
    rw [State.flywheelSet_out] at out
    exact out
  · exact h.planned ((State.listed_eq_false _ _).2 hl)
  · obtain ⟨hf, hj⟩ := inRun hi
    exact ⟨flags.trans hf, journal.trans hj⟩
  · have reported := first hi
    rw [State.sincePulse_eq hlast] at reported
    exact reported.of_eq flags journal

end Sys2Proof.Machine

/-! Active edges on a FOLLOWER lane (chapter 6): O38. -/

namespace Sys2Proof.Machine

section
variable {s u t : State} {x : Fin 6}

/-! ### The drift check (R121) -/

/-- The pulse check of an edge taken now finds a drift (R121). -/
def State.driftsNow (s : State) (x : Fin 6) : Bool :=
  (s.out x).pulse.checked && (s.outRec x).drifts (s.sincePulse x).toNat

theorem State.pulseCheck_of_drift (h : s.driftsNow x = true) : s.pulseCheck x =
    (s.modOut x fun l => { l with
      drifts := sat8 l.drifts, pulse := { l.pulse with last := some s.timeBase, checked := true } }).raise
      .pulseDrift (some x.val) (((s.out x).frameNo + 1).setWidth 32) (s.sincePulse x) := by
  unfold State.driftsNow at h
  unfold State.pulseCheck
  simp only [h, if_true]

theorem State.pulseCheck_of_steady (h : s.driftsNow x = false) : s.pulseCheck x =
    s.modOut x fun l => { l with pulse := { l.pulse with last := some s.timeBase, checked := true } } := by
  unfold State.driftsNow at h
  unfold State.pulseCheck
  simp only [h, Bool.false_eq_true, if_false]

theorem State.raise_out (s : State) (k : Kind) (source : Option Nat) (d1 d2 : Word) (z : Fin 6) :
    (s.raise k source d1 d2).out z = s.out z := State.out_congr (raise_frame s k source d1 d2 .outs (by decide)) z

theorem State.pulseCheck_out (s : State) (x : Fin 6) : (s.pulseCheck x).out x = { s.out x with
    drifts := if s.driftsNow x then sat8 (s.out x).drifts else (s.out x).drifts
    pulse := { (s.out x).pulse with last := some s.timeBase, checked := true } } := by
  cases h : s.driftsNow x with
  | true => rw [State.pulseCheck_of_drift h, State.raise_out, State.out_modOut, if_pos rfl]; rfl
  | false => rw [State.pulseCheck_of_steady h, State.out_modOut, if_pos rfl]; rfl

theorem State.pulseCheck_others (s : State) (x : Fin 6) : OtherOuts x s (s.pulseCheck x) := fun z hz => by
  cases h : s.driftsNow x with
  | true => rw [State.pulseCheck_of_drift h, State.raise_out]; exact s.modOut_others x _ z hz
  | false => rw [State.pulseCheck_of_steady h]; exact s.modOut_others x _ z hz

theorem State.pulseCheck_asks (s : State) (x : Fin 6) : OnlyRequestsOf (.outLane x) s (s.pulseCheck x) := by
  cases h : s.driftsNow x with
  | true =>
    rw [State.pulseCheck_of_drift h]
    exact (OnlyRequestsOf.of_eq (t := s.modOut x _) rfl rfl).trans (State.raise_onlyRequestsOf _ _ _ _ _ _)
  | false => rw [State.pulseCheck_of_steady h]; exact .of_eq rfl rfl

theorem State.pulseCheck_listed (s : State) (x : Fin 6) :
    (s.pulseCheck x).listed (.outLane x) = s.listed (.outLane x) := by
  cases h : s.driftsNow x with
  | true => rw [State.pulseCheck_of_drift h, State.raise_listed]; rfl
  | false => rw [State.pulseCheck_of_steady h]; rfl

theorem State.pulseCheck_quiet (h : s.driftsNow x = false) :
    (s.pulseCheck x).flags = s.flags ∧ (s.pulseCheck x).journal = s.journal := by
  rw [State.pulseCheck_of_steady h]
  exact ⟨rfl, rfl⟩

theorem State.pulseCheck_reported (h : s.driftsNow x = true) :
    Reported s (s.pulseCheck x) .pulseDrift (some x.val) (((s.out x).frameNo + 1).setWidth 32)
      (s.sincePulse x) := by
  rw [State.pulseCheck_of_drift h]
  exact State.raise_reported (s := s) (u := s.modOut x _) (k := .pulseDrift) rfl rfl rfl rfl (by decide) _ _ _

theorem State.pulseCheck_kept (s : State) (x : Fin 6) :
    FlagsKept [.pulseDrift, .pulseEarly, .journalLost] s (s.pulseCheck x) := by
  cases h : s.driftsNow x with
  | true =>
    rw [State.pulseCheck_of_drift h]
    exact (FlagsKept.of_eq (s := s) (t := s.modOut x _) rfl).trans
      ((State.raise_flags (k := .pulseDrift) _ _ _ _ (by decide)).2.1.mono (by decide))
  | false => exact .of_eq (State.pulseCheck_quiet h).1

/-! ### The cut (R123) -/

/-- The lane's fetch withdrawn, its holds released and its frame closed: the cut but for its report
(R123 steps 1 to 4). -/
def State.cutClosed (s : State) (x : Fin 6) : State :=
  ((s.withdraw (.outLane x)).releaseLane x).modOut x fun l =>
    { l.closeFrame with
      earlies := sat8 l.earlies
      cutMark := true
      pulse := { l.pulse with inRun := if l.flags.flywheel then false else l.pulse.inRun } }

theorem State.cutFrame_eq (s : State) (x : Fin 6) : s.cutFrame x =
    (s.cutClosed x).raise .pulseEarly (some x.val) ((s.out x).frameNo.setWidth 32) (num (s.out x).begun) := rfl

theorem State.cutClosed_frame (s : State) (x : Fin 6) :
    ChangesOnly [.outs, .pools, .requests, .port] s (s.cutClosed x) :=
  ((withdraw_frame s _).andThen (releaseLane_frame _ x) (m := [.pools, .requests, .port])).andThen
    (modOut_frame _ x _)

theorem State.cutFrame_out (s : State) (x : Fin 6) : (s.cutFrame x).out x =
    { (s.out x).closeFrame with
      earlies := sat8 (s.out x).earlies
      cutMark := true
      pulse := { (s.out x).pulse with inRun := (s.out x).pulse.inRun && !(s.out x).flags.flywheel } } := by
  have out : ((s.withdraw (.outLane x)).releaseLane x).out x = s.out x := rfl
  rw [State.cutFrame_eq, State.raise_out, State.cutClosed, State.out_modOut, if_pos rfl, out]
  cases (s.out x).flags.flywheel <;> simp

theorem State.cutFrame_others (s : State) (x : Fin 6) : OtherOuts x s (s.cutFrame x) := fun z hz => by
  rw [State.cutFrame_eq, State.raise_out, State.cutClosed, State.out_modOut, if_neg hz]
  rfl

theorem State.cutFrame_asks (s : State) (x : Fin 6) : OnlyRequestsOf (.outLane x) s (s.cutFrame x) := by
  have closed : OnlyRequestsOf (.outLane x) (s.withdraw (.outLane x)) (s.cutClosed x) := .of_eq rfl rfl
  exact ((s.withdraw_onlyRequestsOf _).trans closed).trans (State.raise_onlyRequestsOf _ _ _ _ _ _)

theorem State.cutFrame_listed (s : State) (x : Fin 6) : (s.cutFrame x).listed (.outLane x) = false := by
  rw [State.cutFrame_eq, State.raise_listed, State.listed_eq_false]
  intro h
  obtain ⟨r, hr, hw⟩ := List.mem_map.1 h
  have := (List.mem_filter.1 hr).2
  simp [hw] at this

theorem State.cutFrame_port (s : State) (x : Fin 6) : (s.cutFrame x).port = (s.withdraw (.outLane x)).port :=
  raise_frame (s.cutClosed x) _ _ _ _ .port (by decide)

theorem State.withdraw_port_own {a : Access} {q : Requester} (ha : s.port = some a) (hq : a.req.who = q) :
    (s.withdraw q).port = some { req := a.req, withdrawn := true } := by
  simp [State.withdraw, State.withdrawBy, ha, hq]

theorem State.withdraw_inProgress (s : State) (q p : Requester) :
    (s.withdraw q).inProgress p = s.inProgress p := by
  unfold State.inProgress State.withdraw State.withdrawBy
  cases s.port with
  | none => rfl
  | some a => dsimp only; by_cases h : (a.req.who == q) = true <;> simp only [h, if_true, if_false, Bool.false_eq_true]

theorem State.withdraw_free {q : Requester} (h : (s.withdraw q).port = none) : s.port = none := by
  cases hp : s.port with
  | none => rfl
  | some a =>
    unfold State.withdraw State.withdrawBy at h
    dsimp only at h
    rw [hp] at h
    dsimp only at h
    split at h <;> cases h

theorem State.cutFrame_pool (s : State) (x : Fin 6) (w : Fin 16) :
    (s.cutFrame x).pool w = (s.pool w).release (.lane x) := by
  have raised : (s.cutFrame x).pool w = (s.cutClosed x).pool w :=
    State.pool_congr (raise_frame (s.cutClosed x) _ _ _ _ .pools (by decide)) w
  rw [raised]
  exact (s.withdraw (.outLane x)).releaseLane_pool x w

theorem State.cutFrame_reported {a : State} (hf : s.flags = a.flags) (hj : s.journal = a.journal)
    (hh : s.header = a.header) (ht : s.timeBase = a.timeBase) :
    Reported a (s.cutFrame x) .pulseEarly (some x.val) ((s.out x).frameNo.setWidth 32) (num (s.out x).begun) := by
  have f := s.cutClosed_frame x
  exact State.raise_reported ((f .flags (by decide)).trans hf) ((f .journal (by decide)).trans hj)
    ((f .header (by decide)).trans hh) ((f .timeBase (by decide)).trans ht) (by decide) _ _ _

theorem State.cutFrame_flags (s : State) (x : Fin 6) :
    FlagsKept [.pulseDrift, .pulseEarly, .journalLost] s (s.cutFrame x) ∧ FlagsGrow s (s.cutFrame x) := by
  have e : (s.cutClosed x).flags = s.flags := s.cutClosed_frame x .flags (by decide)
  obtain ⟨_, kept, grow⟩ := (s.cutClosed x).raise_flags .pulseEarly (some x.val)
    ((s.out x).frameNo.setWidth 32) (num (s.out x).begun) (by decide)
  exact ⟨(FlagsKept.of_eq e).trans (kept.mono (by decide)), (FlagsGrow.of_eq e).trans grow⟩

/-- After the cut the frame that starts takes the decisions of the state before it, and finds each buffer
without the lane's hold (R15, R16, R97). -/
theorem State.cutFrame_decides (d : DecidesAs s u) (hp : u.pools = s.pools) :
    DecidesAs s (u.cutFrame x) ∧ ∀ w : Fin 16, OnlyBuffers w s (u.cutFrame x) ∧
      ∀ k : Fin 8, ((u.cutFrame x).pool w).bufs[k] = (s.pool w).bufs[k].without (.lane x) := by
  have f := cutFrame_frame u x
  have pool : ∀ w, (u.cutFrame x).pool w = (s.pool w).release (.lane x) := fun w => by
    rw [State.cutFrame_pool, State.pool_congr hp]
  refine ⟨⟨(f .lanes (by decide)).trans d.lanes, (f .entries (by decide)).trans d.entries,
    (f .windows (by decide)).trans d.windows, (f .groups (by decide)).trans d.groups, fun w => ?_⟩, fun w => ⟨?_, fun k => ?_⟩⟩
  · rw [pool]
    exact Pool.drawsAs_release _ _
  · unfold OnlyBuffers
    rw [pool]
    rfl
  · rw [pool, Pool.release_bufs]

/-! ### The edge (R110, R121–R123) -/

/-- The pulse record an edge leaves on a lane (R110, R121, R122). -/
def State.edgePulse (s : State) (x : Fin 6) : PulseCheck where
  last := some s.timeBase
  checked := true
  deadline := some (s.timeBase + BitVec.ofNat 32 ((s.outRec x).period + (s.outRec x).period / 4))
  inRun := (s.out x).pulse.inRun && !((s.out x).st == .between ||
    (s.out x).st == .sending && (s.out x).flags.flywheel)

/-- The report of a drift that an edge on the lane makes (R121). -/
def State.driftReport (s : State) (x : Fin 6) : State :=
  s.raise .pulseDrift (some x.val) (((s.out x).frameNo + 1).setWidth 32) (s.sincePulse x)

/-- The lane record of an edge's frame, but for its plan, the word asked for and the drift count. -/
def State.edgeLane (s : State) (x : Fin 6) : OutLane :=
  { s.out x with
    cutMark := decide ((s.out x).st = .sending) || (s.out x).cutMark
    earlies := if (s.out x).st = .sending then sat8 (s.out x).earlies else (s.out x).earlies
    pulse := s.edgePulse x }

/-- The edge drifts: it is checked in BETWEEN and in SENDING alone (R121). -/
def State.edgeDrifts (s : State) (x : Fin 6) : Bool := (s.out x).st != .waiting && s.driftsNow x

/-- What an edge that lane `x` takes does to the state (R110, R121, R123). -/
structure EdgeEvent (x : Fin 6) (s t : State) : Prop where
  others : OtherOuts x s t
  out : t.out x = { (s.edgeLane x).begun1 s.timeBase false ((s.carried x).map s.drawFor)
    (t.out x).plan (t.out x).asked with drifts := (t.out x).drifts }
  drifts : (t.out x).drifts = if s.edgeDrifts x then sat8 (s.out x).drifts else (s.out x).drifts
  holds : (s.out x).st ≠ .sending → HoldsTaken x id s t
  planned : (s.out x).st ≠ .sending → Requester.outLane x ∉ s.requests.map Request.who → FetchPlanned x s t
  cut : (s.out x).st = .sending →
    HoldsTaken x (Buffer.without (.lane x)) s t ∧ FetchPlanned x s t ∧
      (∀ r ∈ t.requests, r.who = .outLane x → ∃ p, (t.out x).asked = some p ∧ r = fetchOf x p false) ∧
      ∀ a, s.port = some a → a.req.who = .outLane x → t.port = some { req := a.req, withdrawn := true }
  early : (s.out x).st = .sending → Reported (if s.edgeDrifts x then s.driftReport x else s) t .pulseEarly
    (some x.val) ((s.out x).frameNo.setWidth 32) (num (s.out x).begun)
  quiet : (s.out x).st ≠ .sending → s.edgeDrifts x = false → t.flags = s.flags ∧ t.journal = s.journal
  drifted : s.edgeDrifts x = true → t.raised .pulseDrift = true
  driftAlone : (s.out x).st = .between → s.edgeDrifts x = true → Reported s t .pulseDrift (some x.val)
    (((s.out x).frameNo + 1).setWidth 32) (s.sincePulse x)
  kept : FlagsKept [.pulseDrift, .pulseEarly, .journalLost] s t
  asks : OnlyRequestsOf (.outLane x) s t
  frame : ChangesOnly [.outs, .pools, .flags, .journal, .requests, .port] s t

/-- The frame start of an edge, with its deadline, from a state `u` of the event. -/
theorem State.edgeDeadline_out (u : State) (x : Fin 6) : (u.edgeDeadline x).out x =
    { u.out x with pulse := { (u.out x).pulse with
        deadline := some (u.timeBase + BitVec.ofNat 32 ((u.outRec x).period + (u.outRec x).period / 4)) } } := by
  unfold State.edgeDeadline
  rw [State.out_modOut, if_pos rfl]

theorem State.edgeStart_eq (u : State) (x : Fin 6) : u.edgeStart x = (u.edgeDeadline x).frameStart x false := rfl

/-- An edge that cuts no frame: the frame start is that of a lane in WAITING or in BETWEEN. -/
theorem State.edgeStart_begun (hn : NoGrantDue s) (f : ChangesOnly [.outs, .flags, .journal, .requests] s u)
    (others : OtherOuts x s u) (asks : OnlyRequestsOf (.outLane x) s u) :
    FrameBegun x false id s (u.edgeDeadline x) (u.edgeStart x).arrivals := by
  have fd : ChangesOnly [.outs] u (u.edgeDeadline x) := modOut_frame _ _ _
  exact State.frameStart_begun_id hn (f.andThen fd)
    (fun z hz => (u.modOut_others x _ z hz).trans (others z hz))
    (asks.trans (.of_eq (fd .requests (by decide)) (fd .port (by decide)))) (.refl _ _) (.refl _ _) fun _ h => h

/-- What a lane that is not SENDING makes of an edge it takes, from the state `u` in which the edge has been
checked and recorded. -/
theorem State.edgeStart_event (hn : NoGrantDue s) (hst : (s.out x).st ≠ .sending)
    (f : ChangesOnly [.outs, .flags, .journal, .requests] s u) (others : OtherOuts x s u)
    (asks : OnlyRequestsOf (.outLane x) s u) (listed : u.listed (.outLane x) = s.listed (.outLane x))
    (out : u.out x = { s.out x with
      drifts := (u.out x).drifts
      pulse := { last := some s.timeBase, checked := true, deadline := (s.out x).pulse.deadline
                 inRun := (s.out x).pulse.inRun && !((s.out x).st == .between) } })
    (drifts : (u.out x).drifts = if s.edgeDrifts x then sat8 (s.out x).drifts else (s.out x).drifts)
    (quiet : s.edgeDrifts x = false → u.flags = s.flags ∧ u.journal = s.journal)
    (drifted : s.edgeDrifts x = true → Reported s u .pulseDrift (some x.val)
      (((s.out x).frameNo + 1).setWidth 32) (s.sincePulse x))
    (kept : FlagsKept [.pulseDrift, .pulseEarly, .journalLost] s u) :
    EdgeEvent x s (u.edgeStart x).arrivals := by
  have begun := State.edgeStart_begun hn f others asks
  have fe := edgeStart_frame u x
  have port : (u.edgeStart x).port = s.port := (fe .port (by decide)).trans (f .port (by decide))
  have fs : ChangesOnly [.outs, .pools, .flags, .journal, .requests] s (u.edgeStart x) := f.andThen fe
  have asksv : OnlyRequestsOf (.outLane x) s (u.edgeStart x) :=
    (asks.trans (.of_eq rfl rfl)).trans ((u.edgeDeadline x).frameStart_onlyRequestsOf x false)
  have ft := State.arrivals_frame_of hn (fun _ e => by cases e) asksv (fun e => port.symm.trans e) fs (by decide)
  have fa : ChangesOnly [.outs, .pools, .requests, .port, .copyPtr] u (u.edgeStart x).arrivals :=
    fe.andThen (arrivals_frame _)
  have flags := fa .flags (by decide)
  have journal := fa .journal (by decide)
  have lane : (u.edgeDeadline x).out x = { s.edgeLane x with drifts := (u.out x).drifts } := by
    rw [State.edgeDeadline_out, out, f .timeBase (by decide), State.outRec_congr (f .lanes (by decide))]
    have resting : ((s.out x).st == .sending) = false := by rw [beq_eq_false_iff_ne]; exact hst
    simp [State.edgeLane, State.edgePulse, hst, resting]
  generalize (u.edgeStart x).arrivals = t at *
  have tout := begun.out
  rw [lane] at tout
  have tdrifts : (t.out x).drifts = (u.out x).drifts := by rw [tout]; rfl
  exact {
    others := begun.others
    out := by rw [tdrifts]; exact tout
    drifts := tdrifts.trans drifts
    holds := fun _ => begun.holds
    planned := fun _ hl => begun.planned (listed.trans ((State.listed_eq_false _ _).2 hl))
    cut := fun h => absurd h hst
    early := fun h => absurd h hst
    quiet := fun _ h => ⟨flags.trans (quiet h).1, journal.trans (quiet h).2⟩
    drifted := fun h => ((drifted h).of_eq flags journal).1
    driftAlone := fun _ h => (drifted h).of_eq flags journal
    kept := kept.trans (.of_eq flags)
    asks := begun.asks
    frame := ft.mono (by decide) }

/-- The first frame start of a lane, in WAITING (R110). -/
theorem State.activeEdge_waiting (hn : NoGrantDue s) (hst : (s.out x).st = .waiting)
    (hs : s.startReached = true) : EdgeEvent x s (s.activeEdge x).arrivals := by
  have f : ChangesOnly [.outs] s (s.modOut x fun l =>
    { l with pulse := { l.pulse with last := some s.timeBase, checked := true } }) := modOut_frame _ _ _
  have steady : s.edgeDrifts x = false := by unfold State.edgeDrifts; rw [hst]; rfl
  have e : s.activeEdge x = (s.modOut x fun l =>
      { l with pulse := { l.pulse with last := some s.timeBase, checked := true } }).edgeStart x := by
    unfold State.activeEdge
    rw [hst]
    exact if_pos hs
  rw [e]
  refine State.edgeStart_event hn (by rw [hst]; decide) (f.mono (by decide)) (s.modOut_others x _) (.of_eq rfl rfl)
    rfl ?_ ?_ (fun _ => ⟨rfl, rfl⟩) (fun h => ?_) (.of_eq rfl)
  · rw [State.out_modOut, if_pos rfl]
    simp [hst]
  · rw [State.out_modOut, if_pos rfl, steady]
    rfl
  · rw [steady] at h; cases h

/-- A frame start in BETWEEN: the edge is checked, and a flywheel run is over (R110, R121, R122). -/
theorem State.activeEdge_between (hn : NoGrantDue s) (hst : (s.out x).st = .between) :
    EdgeEvent x s (s.activeEdge x).arrivals := by
  have fc := pulseCheck_frame s x
  have f : ChangesOnly [.outs] (s.pulseCheck x) ((s.pulseCheck x).modOut x fun l =>
    { l with pulse := { l.pulse with inRun := false } }) := modOut_frame _ _ _
  have drifts : s.edgeDrifts x = s.driftsNow x := by unfold State.edgeDrifts; rw [hst]; rfl
  have e : s.activeEdge x = ((s.pulseCheck x).modOut x fun l =>
      { l with pulse := { l.pulse with inRun := false } }).edgeStart x := by
    unfold State.activeEdge
    rw [hst]
  rw [e]
  refine State.edgeStart_event hn (by rw [hst]; decide) (fc.andThen f)
    (fun z hz => (State.modOut_others _ x _ z hz).trans (s.pulseCheck_others x z hz))
    ((s.pulseCheck_asks x).trans (.of_eq rfl rfl)) (s.pulseCheck_listed x) ?_ ?_ (fun h => ?_) (fun h => ?_)
    ((s.pulseCheck_kept x).trans (.of_eq rfl))
  · rw [State.out_modOut, if_pos rfl, State.pulseCheck_out]
    simp [hst]
  · rw [State.out_modOut, if_pos rfl, State.pulseCheck_out, drifts]
  · exact State.pulseCheck_quiet (drifts ▸ h)
  · exact (State.pulseCheck_reported (drifts ▸ h)).of_eq rfl rfl

/-- The requests of the lane after the frame start that follows a cut (R113, R123). -/
theorem State.frameStart_own_requests {fly : Bool} (hl : u.listed (.outLane x) = false)
    (hr : ∀ r ∈ t.requests, r ∈ (u.frameStart x fly).requests) (ho : t.out x = (u.frameStart x fly).out x) :
    ∀ r ∈ t.requests, r.who = .outLane x → ∃ p, (t.out x).asked = some p ∧ r = fetchOf x p false := fun r h hw => by
  have old : r ∉ u.requests := fun hm => (State.listed_eq_false _ _).1 hl (hw ▸ List.mem_map_of_mem hm)
  rcases u.frameStart_requests x fly with e | ⟨p, ha, e⟩
  · exact absurd (e ▸ hr r h) old
  · have hm := hr r h
    rw [e, List.mem_append, List.mem_singleton] at hm
    exact ⟨p, by rw [ho]; exact ha, hm.resolve_left old⟩

/-- The cut of a frame in SENDING, and the frame start that follows it (R121, R123). -/
theorem State.activeEdge_sending (hn : NoGrantDue s) (hst : (s.out x).st = .sending) (hd : s.dev = .run) :
    EdgeEvent x s (s.activeEdge x).arrivals := by
  have e : s.activeEdge x = ((s.pulseCheck x).cutFrame x).edgeStart x := by
    unfold State.activeEdge
    rw [hst]
    exact if_pos hd
  have fc := pulseCheck_frame s x
  have cout := s.pulseCheck_out x
  have cothers := s.pulseCheck_others x
  have casks := s.pulseCheck_asks x
  have ckept := s.pulseCheck_kept x
  have drifts : s.edgeDrifts x = s.driftsNow x := by unfold State.edgeDrifts; rw [hst]; rfl
  have quiet := State.pulseCheck_quiet (s := s) (x := x)
  have reported := State.pulseCheck_reported (s := s) (x := x)
  rw [← drifts] at cout quiet reported
  generalize s.pulseCheck x = c at *
  have cport : c.port = s.port := fc .port (by decide)
  obtain ⟨decides, bufs⟩ := State.cutFrame_decides (x := x) (.of_frame fc) (fc .pools (by decide))
  have fk := cutFrame_frame c x
  have kout := c.cutFrame_out x
  have kothers := c.cutFrame_others x
  have kasks := c.cutFrame_asks x
  have klisted := c.cutFrame_listed x
  have kport := c.cutFrame_port x
  obtain ⟨kkept, kgrow⟩ := c.cutFrame_flags x
  have early := fun a => State.cutFrame_reported (s := c) (x := x) (a := a)
  generalize c.cutFrame x = u at *
  have fs : ChangesOnly [.outs, .pools, .flags, .journal, .requests, .port] s u := fc.andThen fk
  have fd : ChangesOnly [.outs] u (u.edgeDeadline x) := modOut_frame _ _ _
  have fe := edgeStart_frame u x
  have wport : ∀ p, c.inProgress p = s.inProgress p := State.inProgress_congr cport
  have uport : u.inProgress (.outLane x) = s.inProgress (.outLane x) := by
    rw [State.inProgress_congr kport, State.withdraw_inProgress, wport]
  have free : (u.edgeStart x).port = none → s.port = none := fun h =>
    cport.symm.trans (State.withdraw_free (kport.symm.trans ((fe .port (by decide)).symm.trans h)))
  have asksd : OnlyRequestsOf (.outLane x) s (u.edgeDeadline x) := (casks.trans kasks).trans (.of_eq rfl rfl)
  have pools : (u.edgeDeadline x).pools = u.pools := fd .pools (by decide)
  have decidesd : DecidesAs s (u.edgeDeadline x) :=
    ⟨decides.lanes, decides.entries, decides.windows, decides.groups, decides.pools⟩
  have begun : FrameBegun x false (Buffer.without (.lane x)) s (u.edgeDeadline x) (u.edgeStart x).arrivals :=
    State.frameStart_begun hn decidesd bufs
      (fun z hz => (u.modOut_others x _ z hz).trans ((kothers z hz).trans (cothers z hz))) asksd
      (fs .timeBase (by decide)) uport free (.refl _ _) (.refl _ _) fun _ h => h
  have asksv : OnlyRequestsOf (.outLane x) s (u.edgeStart x) :=
    asksd.trans ((u.edgeDeadline x).frameStart_onlyRequestsOf x false)
  have ft := State.arrivals_frame_of hn (fun _ e => by cases e) asksv free
    (fs.andThen fe (m := [.outs, .pools, .flags, .journal, .requests, .port])) (by decide)
  have fa := arrivals_frame (u.edgeStart x)
  have own := State.frameStart_own_requests (fly := false) (u := u.edgeDeadline x) (t := (u.edgeStart x).arrivals)
    klisted (u.edgeStart x).arrivals_requests_sub (State.out_congr (fa .outs (by decide)) x)
  have flags : (u.edgeStart x).arrivals.flags = u.flags := (fa .flags (by decide)).trans (fe .flags (by decide))
  have journal : (u.edgeStart x).arrivals.journal = u.journal :=
    (fa .journal (by decide)).trans (fe .journal (by decide))
  have lane : (u.edgeDeadline x).out x = { (s.edgeLane x).closeFrame with drifts := (c.out x).drifts } := by
    rw [State.edgeDeadline_out, kout, cout, fs .timeBase (by decide), State.outRec_congr (fs .lanes (by decide))]
    have sends : (OutState.sending == .between) = false := rfl
    simp [State.edgeLane, State.edgePulse, OutLane.closeFrame, hst, sends]
  have tout := begun.out
  rw [lane] at tout
  have tport : ∀ a, s.port = some a → a.req.who = .outLane x →
      (u.edgeStart x).arrivals.port = some { req := a.req, withdrawn := true } := fun a ha hw =>
    State.arrivals_port_some ((fe .port (by decide)).trans (kport.trans (State.withdraw_port_own (cport.trans ha) hw)))
  rw [e]
  generalize (u.edgeStart x).arrivals = t at *
  have tdrifts : (t.out x).drifts = (c.out x).drifts := by rw [tout]; rfl
  have no : (c.out x).frameNo = (s.out x).frameNo ∧ (c.out x).begun = (s.out x).begun := by rw [cout]; exact ⟨rfl, rfl⟩
  rw [no.1, no.2] at early
  exact {
    others := begun.others
    out := by rw [tdrifts]; exact tout
    drifts := tdrifts.trans (by rw [cout])
    holds := fun h => absurd hst h
    planned := fun h => absurd hst h
    cut := fun _ => ⟨begun.holds, begun.planned klisted, own, tport⟩
    early := fun _ => by
      cases hdr : s.edgeDrifts x with
      | true =>
        obtain ⟨_, rf, rj⟩ := reported hdr
        have fr : ChangesOnly [.flags, .journal, .requests] s (s.driftReport x) := raise_frame _ _ _ _ _
        exact (early (s.driftReport x) rf rj ((fc .header (by decide)).trans (fr .header (by decide)).symm)
          ((fc .timeBase (by decide)).trans (fr .timeBase (by decide)).symm)).of_eq flags journal
      | false =>
        obtain ⟨qf, qj⟩ := quiet hdr
        exact (early s qf qj (fc .header (by decide)) (fc .timeBase (by decide))).of_eq flags journal
    quiet := fun h => absurd hst h
    drifted := fun h => (State.raised_congr flags _).trans (kgrow _ (reported h).1)
    driftAlone := fun h => by rw [hst] at h; cases h
    kept := (ckept.trans kkept).trans (.of_eq flags)
    asks := begun.asks
    frame := ft.mono (by decide) }

end

/-! ### The edge as an event -/

theorem exec_outboundActiveEdge_ignored {s : State} {x : Fin 6} {edge : PulseEdge}
    (h : (s.out x).st = .idle ∨ (s.out x).st = .waiting ∧ s.startReached = false ∨
      (s.out x).st = .sending ∧ s.dev = .stopping) : exec (.outboundActiveEdge x edge) s = .next s := by
  have not : s.edgeTaken x edge = false := by
    unfold State.edgeTaken
    rcases h with h | ⟨h, h'⟩ | ⟨h, h'⟩ <;> simp [h]
    · exact fun _ _ _ => h'
    · exact fun _ _ _ => by rw [h']; decide
  have e : exec (.outboundActiveEdge x edge) s = execOutboundActiveEdge x edge s := rfl
  rw [e, execOutboundActiveEdge, not]
  rfl

theorem exec_outboundActiveEdge_taken {s : State} {x : Fin 6} (hr : s.rst = false) (hd : s.dev = .run)
    (hm : (s.outRec x).timing = .follower)
    (h : (s.out x).st = .waiting ∧ s.startReached = true ∨ (s.out x).st = .between ∨ (s.out x).st = .sending) :
    exec (.outboundActiveEdge x (s.outRec x).edge) s = .next (s.activeEdge x).arrivals := by
  have taken : s.edgeTaken x (s.outRec x).edge = true := by
    unfold State.edgeTaken
    rcases h with ⟨h, h'⟩ | h | h <;> simp [h, hr, hm, hd]
    exact h'
  have e : exec (.outboundActiveEdge x (s.outRec x).edge) s =
    execOutboundActiveEdge x (s.outRec x).edge s := rfl
  rw [e, execOutboundActiveEdge, taken]
  rfl

theorem State.edgeDrifts_of_unchecked {s : State} {x : Fin 6}
    (h : (s.out x).st = .waiting ∨ (s.out x).pulse.checked = false) : s.edgeDrifts x = false := by
  unfold State.edgeDrifts State.driftsNow
  rcases h with h | h <;> simp [h]

/-- A checked edge drifts when the interval is outside tolerance (R121). -/
theorem State.edgeDrifts_iff {s : State} {x : Fin 6} (hc : (s.out x).pulse.checked = true)
    (hw : (s.out x).st ≠ .waiting) : s.edgeDrifts x = true ↔
      (s.sincePulse x).toNat + (s.outRec x).period * (s.outRec x).tolerance / 100 < (s.outRec x).period ∨
      (s.outRec x).period + (s.outRec x).period * (s.outRec x).tolerance / 100 < (s.sincePulse x).toNat := by
  unfold State.edgeDrifts State.driftsNow LaneRec.drifts LaneRec.toleranceAmount
  simp [hc, hw]

/-- Settles O38: an edge is taken in WAITING, in BETWEEN and in SENDING, and each is checked, recorded and
followed by a frame start; in SENDING the frame in progress is cut before. -/
theorem activeEdgeStartsOrCutsAFrame : Obligations.ActiveEdgeStartsOrCutsAFrame := by
  unfold Obligations.ActiveEdgeStartsOrCutsAFrame
  refine ⟨fun s x edge h => exec_outboundActiveEdge_ignored h, fun s x hr hn hd hm h => ?_⟩
  have event : EdgeEvent x s (s.activeEdge x).arrivals := by
    rcases h with ⟨h, hs⟩ | h | h
    · exact State.activeEdge_waiting hn h hs
    · exact State.activeEdge_between hn h
    · exact State.activeEdge_sending hn h hd
  refine ⟨_, exec_outboundActiveEdge_taken hr hd hm h, event.others, event.out,
    fun hst => ⟨event.holds hst, event.planned hst⟩, fun hst => ?_, fun hu => ?_, fun p hp hc hw => ?_, event.kept,
    event.asks, event.frame⟩
  · obtain ⟨holds, planned, own, port⟩ := event.cut hst
    exact ⟨holds, planned, (event.early hst).1, own, port⟩
  · have steady := State.edgeDrifts_of_unchecked hu
    have drifts := event.drifts
    have early := event.early
    rw [steady] at drifts early
    exact ⟨drifts, fun hst => event.quiet hst steady, early⟩
  · have since := State.sincePulse_eq hp
    have iff := State.edgeDrifts_iff hc hw
    rw [since] at iff
    have drifts := event.drifts
    have early := event.early
    have alone := event.driftAlone
    refine ⟨fun h => ?_, fun h1 h2 => ?_⟩
    · have hdr := iff.2 h
      rw [hdr] at drifts early
      unfold State.driftReport at early
      rw [since] at early alone
      exact ⟨event.drifted hdr, drifts, fun hb => alone hb hdr, early⟩
    · have hdr : s.edgeDrifts x = false := Bool.eq_false_iff.2 fun h => (iff.1 h).elim h1 h2
      rw [hdr] at drifts early
      exact ⟨drifts, fun hb => event.quiet (by rw [hb]; decide) hdr, early⟩

end Sys2Proof.Machine

/-! The frame end of an outbound lane (R119, R125, R174): O42. -/

namespace Sys2Proof.Machine

section
variable {s u t : State} {x : Fin 6}

/-! ### SETUP entry (R174) -/

/-- The teardown at SETUP entry, before STOPPED is raised (R25, R174). -/
def State.tornDown (s : State) : State :=
  { s with dev := .setup, startReached := false }.mapPools fun _ p => p.teardown

theorem State.setupEntry_eq (s : State) : s.setupEntry = s.tornDown.raiseStopped 2 (num s.stopLanes) := rfl

theorem State.setupEntry_startReached (s : State) : s.setupEntry.startReached = false :=
  raiseStopped_frame s.tornDown _ _ .startReached (by decide)

theorem State.setupEntry_reported (hf : u.flags = s.flags) (hj : u.journal = s.journal) (hh : u.header = s.header)
    (ht : u.timeBase = s.timeBase) : ReportedStopped s u.setupEntry 2 (num u.stopLanes) :=
  State.raiseStopped_reported (u := u.tornDown) hf hj hh ht _ _

theorem State.raiseStopped_kept (s : State) (d1 d2 : Word) :
    FlagsKept [.stopped, .journalLost] s (s.raiseStopped d1 d2) := by
  obtain ⟨_, kept, _⟩ := s.raise_flags .stopped none d1 d2 (by decide)
  exact kept.trans (.of_eq (State.raiseStopped_flags s d1 d2))

theorem State.setupEntry_kept (s : State) : FlagsKept [.stopped, .journalLost] s s.setupEntry :=
  (FlagsKept.of_eq (s := s) (t := s.tornDown) rfl).trans (s.tornDown.raiseStopped_kept _ _)

theorem State.setupEntry_asks (s : State) (q : Requester) : OnlyRequestsOf q s s.setupEntry :=
  (OnlyRequestsOf.of_eq (t := s.tornDown) rfl rfl).trans (s.tornDown.raiseStopped_onlyRequestsOf q _ _)

/-! ### The lane at its frame end -/

/-- The holds are released and the lane has closed its frame (R119). -/
def State.frameClosed (s : State) (x : Fin 6) (st : OutState) : State :=
  (s.releaseLane x).modOut x fun l => { l.closeFrame with st := st }

theorem State.frameClosed_frame (s : State) (x : Fin 6) (st : OutState) :
    ChangesOnly [.outs, .pools] s (s.frameClosed x st) := (releaseLane_frame s x).andThen (modOut_frame _ x _)

theorem State.frameClosed_out (s : State) (x : Fin 6) (st : OutState) :
    (s.frameClosed x st).out x = { (s.out x).closeFrame with st := st } := by
  unfold State.frameClosed
  rw [State.out_modOut, if_pos rfl]
  rfl

theorem State.frameClosed_others (s : State) (x : Fin 6) (st : OutState) : OtherOuts x s (s.frameClosed x st) :=
  (s.releaseLane x).modOut_others x _

theorem State.frameClosed_pool (s : State) (x : Fin 6) (st : OutState) (w : Fin 16) :
    (s.frameClosed x st).pool w = (s.pool w).release (.lane x) := s.releaseLane_pool x w

/-- The lane has left the sending set (R174). -/
def State.leftSending (s : State) (x : Fin 6) : State := { s with sending := s.sending.set x false }

/-- No lane is left in the sending set when no other lane was in it. -/
theorem State.leftSending_empty_iff (s : State) (x : Fin 6) :
    (s.leftSending x).sendingEmpty = true ↔ ∀ z : Fin 6, z ≠ x → s.sending[z] = false := by
  have at_ : ∀ z : Fin 6, z ≠ x → (s.sending.set x false)[z] = s.sending[z] := fun z hz => by
    simp only [Fin.getElem_fin]
    exact Vector.getElem_set_ne _ _ fun e => hz (Fin.ext e.symm)
  rw [State.sendingEmpty_iff]
  constructor
  · intro h z hz
    rw [← at_ z hz]
    exact h z
  · intro h z
    change (s.sending.set x false)[z] = false
    by_cases e : z = x
    · subst e; simp
    · rw [at_ z e]; exact h z e

/-- A frame end in RUN (R119). -/
theorem State.frameEnd_running (h : s.dev ≠ .stopping) : s.frameEnd x = s.frameClosed x .between := by
  unfold State.frameEnd
  exact if_neg h

theorem State.laneIdle_eq (s : State) (x : Fin 6) : s.laneIdle x =
    if (s.leftSending x).sendingEmpty then (s.leftSending x).setupEntry else s.leftSending x := rfl

theorem State.frameEnd_idle (hd : s.dev = .stopping) : s.frameEnd x = (s.frameClosed x .idle).laneIdle x := by
  unfold State.frameEnd
  exact if_pos hd

theorem State.frameClosed_sending (s : State) (x : Fin 6) (st : OutState) : (s.frameClosed x st).sending = s.sending :=
  s.frameClosed_frame x st .sending (by decide)

/-- A frame end in STOPPING while another lane is SENDING (R119, R174). -/
theorem State.frameEnd_stopping (hd : s.dev = .stopping) (h : ∃ z : Fin 6, z ≠ x ∧ s.sending[z] = true) :
    s.frameEnd x = (s.frameClosed x .idle).leftSending x := by
  have busy : ¬ ((s.frameClosed x .idle).leftSending x).sendingEmpty = true := fun he => by
    obtain ⟨z, hz, hs⟩ := h
    have := (State.leftSending_empty_iff _ x).1 he z hz
    rw [State.frameClosed_sending, hs] at this
    cases this
  rw [State.frameEnd_idle hd, State.laneIdle_eq, if_neg busy]

/-- The last frame end in STOPPING (R174). -/
theorem State.frameEnd_last (hd : s.dev = .stopping) (h : ∀ z : Fin 6, z ≠ x → s.sending[z] = false) :
    s.frameEnd x = ((s.frameClosed x .idle).leftSending x).setupEntry := by
  have empty : ((s.frameClosed x .idle).leftSending x).sendingEmpty = true :=
    (State.leftSending_empty_iff _ x).2 (by rw [State.frameClosed_sending]; exact h)
  rw [State.frameEnd_idle hd, State.laneIdle_eq, if_pos empty]

theorem State.leftSending_frame (s : State) (x : Fin 6) : ChangesOnly [.sending] s (s.leftSending x) := by
  intro g hg
  cases g <;> first | exact absurd (by decide) hg | rfl

end

theorem exec_frameEnd {s : State} {x : Fin 6} (hr : s.rst = false) (ho : (s.out x).st = .sending)
    (hb : (s.out x).begun = (s.outRec x).slots + 5)
    (ht : s.timeBase =
      (s.out x).frameTime + BitVec.ofNat 32 (((s.outRec x).slots + 5) * (s.outRec x).slotTime)) :
    exec (.frameEnd x) s = .next (s.frameEnd x).arrivals := by
  have due : s.frameEndDue x = true := by
    unfold State.frameEndDue State.positionTime LaneRec.positions
    rw [Bool.and_eq_true, Bool.and_eq_true, beq_iff_eq, beq_iff_eq, beq_iff_eq]
    exact ⟨⟨ho, hb⟩, ht⟩
  have e : exec (.frameEnd x) s = execFrameEnd x s := rfl
  rw [e, execFrameEnd, hr, due]
  rfl

/-- Settles O42: in RUN the lane is BETWEEN; in STOPPING it is IDLE, and the last one brings SETUP entry. -/
theorem frameEndReleasesEveryHold : Obligations.FrameEndReleasesEveryHold := by
  unfold Obligations.FrameEndReleasesEveryHold
  intro s x hr hn ho hb ht
  refine ⟨_, exec_frameEnd hr ho hb ht, ?_⟩
  have cf := s.frameClosed_frame x
  have cout := s.frameClosed_out x
  have cothers := s.frameClosed_others x
  have cpool := s.frameClosed_pool x
  have without : ∀ (st : OutState) (w : Fin 16) (k : Fin 8),
      ((s.frameClosed x st).pool w).bufs[k] = (s.pool w).bufs[k].without (.lane x) := fun st w k => by
    rw [cpool, Pool.release_bufs]
  have rest : ∀ st, ((s.frameClosed x st).arrivals) = s.frameClosed x st := fun st =>
    State.arrivals_of_noGrantDue (hn.of_eq (cf st .port (by decide)) (cf st .requests (by decide)))
  by_cases hd : s.dev = .stopping
  · have alone : ¬ (s.dev ≠ .stopping) := fun h => h hd
    by_cases last : ∀ z : Fin 6, z ≠ x → s.sending[z] = false
    · -- The last lane: SETUP entry.
      rw [State.frameEnd_last hd last]
      have none : ¬ ∃ z : Fin 6, z ≠ x ∧ s.sending[z] = true := fun ⟨z, hz, h⟩ => by
        rw [last z hz] at h; cases h
      have left := State.leftSending_frame (s.frameClosed x .idle) x
      have fl : ChangesOnly [.outs, .pools, .sending] s ((s.frameClosed x .idle).leftSending x) :=
        (cf .idle).andThen left
      have lanes : ((s.frameClosed x .idle).leftSending x).stopLanes = s.stopLanes := fl .stopLanes (by decide)
      have asksl : OnlyRequestsOf .journal s ((s.frameClosed x .idle).leftSending x) :=
        .of_eq (fl .requests (by decide)) (fl .port (by decide))
      have outl := State.out_congr (left .outs (by decide))
      have pooll := State.pool_congr (left .pools (by decide))
      generalize (s.frameClosed x .idle).leftSending x = v at *
      have fs := setupEntry_frame v
      have reported := State.setupEntry_reported (s := s) (u := v) (fl .flags (by decide)) (fl .journal (by decide))
        (fl .header (by decide)) (fl .timeBase (by decide))
      rw [lanes] at reported
      obtain ⟨asks, ft⟩ := State.arrivals_spec (u := v.setupEntry) hn (fun _ e => by cases e)
        (asksl.trans (v.setupEntry_asks _))
        (fl.andThen fs (m := [.dev, .startReached, .outs, .pools, .sending, .flags, .journal, .requests]))
        (by decide) (by decide)
      have fa := arrivals_frame v.setupEntry
      have out : ∀ z, v.setupEntry.arrivals.out z = (s.frameClosed x .idle).out z := fun z => by
        rw [State.out_congr (fa .outs (by decide)), State.out_congr (fs .outs (by decide)), outl]
      have pool : ∀ w, v.setupEntry.arrivals.pool w = ((s.pool w).release (.lane x)).teardown := fun w => by
        rw [State.pool_congr (fa .pools (by decide)), State.setupEntry_pool, pooll, cpool]
      have bufs : ∀ (w : Fin 16) (k : Fin 8), (v.setupEntry.arrivals.pool w).bufs[k] =
          if ((s.pool w).bufs[k].without (.lane x)).st = .ready ∨
              ((s.pool w).bufs[k].without (.lane x)).st = .retired then
            { (s.pool w).bufs[k].without (.lane x) with st := .free, holders := HolderSet.empty }
          else (s.pool w).bufs[k].without (.lane x) := fun w k => by
        rw [pool, Pool.teardown_bufs, Pool.release_bufs]
      refine ⟨fun z hz => (out z).trans (cothers .idle z hz), ?_, fun w k => ?_, fun w => ?_, fun h => ?_,
        fun h => absurd h alone, fun _ h => absurd h none, fun _ _ => ⟨?_, ?_, ?_, bufs, ?_, asks, ft.mono (by decide)⟩⟩
      · rw [out, cout, if_pos hd]
        rfl
      · rw [bufs]
        split
        · exact HolderSet.has_empty _
        · exact Buffer.without_has _ _
      · unfold OnlyBuffers
        rw [pool]
        rfl
      · exact absurd h (not_or_intro alone none)
      · exact (fa .dev (by decide)).trans v.setupEntry_dev
      · exact (fa .startReached (by decide)).trans v.setupEntry_startReached
      · exact reported.of_eq (fa .flags (by decide)) (fa .journal (by decide))
      · exact ((FlagsKept.of_eq (fl .flags (by decide))).trans v.setupEntry_kept).trans
          (.of_eq (fa .flags (by decide)))
    · -- Another lane is still SENDING.
      have other : ∃ z : Fin 6, z ≠ x ∧ s.sending[z] = true := by
        push Not at last
        obtain ⟨z, hz, h⟩ := last
        exact ⟨z, hz, by simpa using h⟩
      have left := State.leftSending_frame (s.frameClosed x .idle) x
      have fl : ChangesOnly [.outs, .pools, .sending] s ((s.frameClosed x .idle).leftSending x) :=
        (cf .idle).andThen left
      have idle : ((s.frameClosed x .idle).leftSending x).arrivals = (s.frameClosed x .idle).leftSending x :=
        State.arrivals_of_noGrantDue (hn.of_eq (fl .port (by decide)) (fl .requests (by decide)))
      have outl := State.out_congr (left .outs (by decide))
      have pooll := State.pool_congr (left .pools (by decide))
      have sends : ((s.frameClosed x .idle).leftSending x).sending = s.sending.set x false := by
        rw [← State.frameClosed_sending s x .idle]
        rfl
      rw [State.frameEnd_stopping hd other, idle]
      generalize (s.frameClosed x .idle).leftSending x = v at *
      refine ⟨fun z hz => (outl z).trans (cothers .idle z hz), ?_, fun w k => ?_, fun w => ?_,
        fun _ w k => by rw [pooll, without], fun h => absurd h alone,
        fun _ _ => ⟨(fl .dev (by decide)).trans hd, sends, fl⟩, fun _ h => absurd h last⟩
      · rw [outl, cout, if_pos hd]
        rfl
      · rw [pooll, without]
        exact Buffer.without_has _ _
      · unfold OnlyBuffers
        rw [pooll, cpool]
        rfl
  · rw [State.frameEnd_running hd, rest]
    refine ⟨cothers _, ?_, fun w k => ?_, fun w => ?_, fun _ => without _, fun _ => cf _, fun h => absurd h hd,
      fun h => absurd h hd⟩
    · rw [cout, if_neg hd]
      rfl
    · rw [without]
      exact Buffer.without_has _ _
    · unfold OnlyBuffers
      rw [cpool]
      rfl

end Sys2Proof.Machine

/-! A STOP taken in RUN (R174): O12. -/

namespace Sys2Proof.Machine

section
variable {s t u v : State}

/-! ### The work of the blocks -/

theorem stopWithdraws_iff (q : Requester) :
    stopWithdraws q = true ↔ (∃ w, q = .copyJob w) ∨ ∃ y, q = .inLane y := by
  cases q <;> simp [stopWithdraws]

theorem State.withdrawBy_port_named {named : Requester → Bool} {a : Access} (hp : s.port = some a)
    (h : named a.req.who = true) : (s.withdrawBy named).port = some { req := a.req, withdrawn := true } := by
  simp [State.withdrawBy, hp, h]

theorem State.withdrawBy_port_other {named : Requester → Bool} {a : Access} (hp : s.port = some a)
    (h : named a.req.who = false) : (s.withdrawBy named).port = some a := by
  simp [State.withdrawBy, hp, h]

theorem State.withdrawBy_free {named : Requester → Bool} (h : (s.withdrawBy named).port = none) :
    s.port = none := by
  cases hp : s.port with
  | none => rfl
  | some a =>
    cases hw : named a.req.who with
    | true => rw [State.withdrawBy_port_named hp hw] at h; cases h
    | false => rw [State.withdrawBy_port_other hp hw] at h; cases h

theorem State.stopBlocks_requests (s : State) :
    s.stopBlocks.requests = s.requests.filter fun r => !stopWithdraws r.who := rfl

theorem State.stopBlocks_port (s : State) : s.stopBlocks.port = (s.withdrawBy stopWithdraws).port := rfl

theorem State.stopBlocks_stopLanes (s : State) :
    s.stopBlocks.stopLanes = (allOuts.filter fun z => (s.out z).st == .sending).length := by
  change (allOuts.filter fun z => (Vector.ofFn fun x : Fin 6 => (s.out x).st == .sending)[z]).length = _
  simp

/-- A STOP leaves a FILLING or COMMITTING buffer FREE and empty, and releases the copy source of every other
(R25, R41). -/
theorem Pool.stopRun_bufs (p : Pool) (k : Fin 8) : p.stopRun.bufs[k] =
    if p.bufs[k].st = .filling ∨ p.bufs[k].st = .committing then
      { p.bufs[k] with st := .free, holders := HolderSet.empty, map := [] }
    else (p.bufs[k]).without .copySource := by
  rw [← Buffer.release_eq_without]
  exact p.stop_bufs k

/-- What a STOP leaves of a pool, whether or not SETUP entry follows (R25, R41, R104). -/
structure Pool.Stopped (p q : Pool) : Prop where
  record : q = { p with bufs := q.bufs, job := none, timer := none, ownMark := false }
  stamps : ∀ k : Fin 8, q.bufs[k].seq = p.bufs[k].seq ∧ q.bufs[k].time = p.bufs[k].time
  emptied : ∀ k : Fin 8, p.bufs[k].st = .filling ∨ p.bufs[k].st = .committing →
    q.bufs[k] = { p.bufs[k] with st := .free, holders := HolderSet.empty, map := [] }

theorem Pool.stopped_stopRun (p : Pool) : p.Stopped p.stopRun where
  record := rfl
  stamps := fun k => by
    rw [Pool.stopRun_bufs]
    split <;> exact ⟨rfl, rfl⟩
  emptied := fun k h => by rw [Pool.stopRun_bufs, if_pos h]

theorem Pool.stopped_teardown (p : Pool) : p.Stopped p.stopRun.teardown where
  record := rfl
  stamps := fun k => by
    rw [Pool.teardown_bufs]
    split <;> exact p.stopped_stopRun.stamps k
  emptied := fun k h => by
    rw [Pool.teardown_bufs, p.stopped_stopRun.emptied k h]
    exact if_neg (by rintro (e | e) <;> cases e)

/-- A lane at a STOP in RUN, by its state (R108, R125). -/
theorem OutLane.stop_cases (l : OutLane) :
    (l.st = .idle → l.stop = l) ∧
    (l.st = .sending → l.stop = { l with nextStart := none, pulse := PulseCheck.zero }) ∧
    (l.st = .waiting ∨ l.st = .between →
      l.stop = { l with st := .idle, nextStart := none, pulse := PulseCheck.zero }) := by
  unfold OutLane.stop
  refine ⟨fun h => by rw [h], fun h => by rw [h], ?_⟩
  rintro (h | h) <;> rw [h]

/-! ### The event -/

/-- What a STOP in RUN does to pools, lanes and requests, whether or not SETUP entry follows (R25, R41, R85,
R108, R125, R174). -/
structure RunStopped (s t : State) : Prop where
  pools : ∀ w : Fin 16, (s.pool w).Stopped (t.pool w)
  outs : ∀ z : Fin 6, t.out z = (s.out z).stop
  ins : ∀ y : Fin 2, t.inl y = (s.inl y).stop
  new : ∀ r ∈ t.requests, r ∈ s.requests ∨ r.who = .journal
  withdrawn : ∀ r ∈ t.requests, stopWithdraws r.who = false
  stay : ∀ r ∈ s.requests, stopWithdraws r.who = false → r ∈ t.requests
  portStays : ∀ a, s.port = some a → stopWithdraws a.req.who = false → t.port = some a
  portWithdrawn : ∀ a, s.port = some a → stopWithdraws a.req.who = true →
    t.port = some { req := a.req, withdrawn := true }
  lanes : t.stopLanes = (allOuts.filter fun z => (s.out z).st == .sending).length
  frame : ChangesOnly [.queue, .waiting, .outcome, .dev, .sending, .stopLanes, .startReached, .pools, .outs,
    .ins, .requests, .port, .flags, .journal] s t

theorem State.stop_runStopped (hn : NoGrantDue s) (fv : ChangesOnly [.queue, .waiting, .outcome] s v)
    (fu : ChangesOnly [.dev, .startReached, .pools, .flags, .journal, .requests] v.stopBlocks u)
    (new : ∀ r ∈ u.requests, r ∈ v.stopBlocks.requests ∨ r.who = .journal)
    (keep : ∀ r ∈ v.stopBlocks.requests, r ∈ u.requests)
    (pools : ∀ w : Fin 16, (s.pool w).Stopped (u.pool w)) : RunStopped s u.arrivals := by
  have fa := arrivals_frame u
  have fs : ChangesOnly [.queue, .waiting, .outcome, .dev, .sending, .stopLanes, .startReached, .pools, .outs,
      .ins, .requests, .port, .flags, .journal] s u :=
    (fv.andThen (stopBlocks_frame v) (m := [.queue, .waiting, .outcome, .dev, .sending, .stopLanes, .pools, .outs,
      .ins, .requests, .port])).andThen fu
  have requests : v.stopBlocks.requests = s.requests.filter fun r => !stopWithdraws r.who := by
    rw [State.stopBlocks_requests, fv .requests (by decide)]
  have vport : v.port = s.port := fv .port (by decide)
  have port : u.port = (v.withdrawBy stopWithdraws).port := (fu .port (by decide)).trans v.stopBlocks_port
  have free : u.port = none → s.port = none := fun e => vport.symm.trans (State.withdrawBy_free (port.symm.trans e))
  have newS : ∀ r ∈ u.requests, (r ∈ s.requests ∧ stopWithdraws r.who = false) ∨ r.who = .journal := fun r hr =>
    (new r hr).imp_left fun h => by
      rw [requests, List.mem_filter, Bool.not_eq_true'] at h
      exact h
  have out : ∀ z, u.arrivals.out z = v.stopBlocks.out z := fun z =>
    (State.out_congr (fa .outs (by decide)) z).trans (State.out_congr (fu .outs (by decide)) z)
  have inl : ∀ y, u.arrivals.inl y = v.stopBlocks.inl y := fun y =>
    (State.inl_congr (fa .ins (by decide)) y).trans (State.inl_congr (fu .ins (by decide)) y)
  have vout := State.out_congr (fv .outs (by decide))
  exact {
    pools := fun w => by rw [State.pool_congr (fa .pools (by decide))]; exact pools w
    outs := fun z => by rw [out, State.stopBlocks_out, vout]
    ins := fun y => by rw [inl, State.stopBlocks_inl, State.inl_congr (fv .ins (by decide))]
    new := fun r hr => (newS r (u.arrivals_requests_sub r hr)).imp_left And.left
    withdrawn := fun r hr => (newS r (u.arrivals_requests_sub r hr)).elim And.right fun h => by rw [h]; rfl
    stay := fun r hr hw => State.arrivals_keeps hn free hr (keep r (by
      rw [requests, List.mem_filter, Bool.not_eq_true']
      exact ⟨hr, hw⟩))
    portStays := fun a ha hw =>
      State.arrivals_port_some (port.trans (State.withdrawBy_port_other (vport.trans ha) hw))
    portWithdrawn := fun a ha hw =>
      State.arrivals_port_some (port.trans (State.withdrawBy_port_named (vport.trans ha) hw))
    lanes := by
      have e : u.arrivals.stopLanes = v.stopBlocks.stopLanes :=
        (fa .stopLanes (by decide)).trans (fu .stopLanes (by decide))
      rw [e, State.stopBlocks_stopLanes]
      simp only [vout]
    frame := fun g hg => by
      by_cases e : g = .copyPtr
      · subst e
        refine (State.arrivals_copyPtr hn free fun r hr => ?_).trans (fs .copyPtr (by decide))
        exact (newS r hr).imp And.left fun h w e => by rw [h] at e; cases e
      · simp only [List.mem_cons, List.not_mem_nil, or_false, not_or] at hg
        exact State.sameAt_trans (fs g (by simpa using hg)) (fa g (by simp [hg, e])) }

theorem State.sendingEmpty_stopBlocks (s : State) :
    s.stopBlocks.sendingEmpty = true ↔ ∀ z : Fin 6, (s.out z).st ≠ .sending := by
  rw [State.sendingEmpty_iff]
  refine forall_congr' fun z => ?_
  rw [State.stopBlocks_sending, beq_eq_false_iff_ne]

/-- A STOP in RUN while a lane is SENDING (R174). -/
theorem State.stopRun_stopping (h : ∃ z : Fin 6, (s.out z).st = .sending) : s.stopRun = s.stopBlocks := by
  rcases s.stopRun_cases with ⟨he, _⟩ | ⟨_, e⟩
  · obtain ⟨z, hz⟩ := h
    exact absurd hz (s.sendingEmpty_stopBlocks.1 he z)
  · exact e

/-- A STOP in RUN when no lane is SENDING (R174). -/
theorem State.stopRun_setup (h : ∀ z : Fin 6, (s.out z).st ≠ .sending) : s.stopRun = s.stopBlocks.setupEntry := by
  rcases s.stopRun_cases with ⟨_, e⟩ | ⟨he, _⟩
  · exact e
  · rw [s.sendingEmpty_stopBlocks.2 h] at he
    cases he

/-- The head has been taken and its request is recorded as DONE (R166). -/
def State.stopTaken (s : State) : State := { s.takeHead with outcome := .done }

theorem State.stopTaken_frame (s : State) : ChangesOnly [.queue, .waiting, .outcome] s s.stopTaken := by
  refine (takeHead_frame s).andThen (l' := [.outcome]) fun g hg => ?_
  cases g <;> first | exact absurd (by decide) hg | rfl

theorem State.takeHead_stop (hd : s.dev = .run) : s.takeHead.stop = s.stopTaken.stopRun := by
  have hd' : s.takeHead.dev = .run := (takeHead_frame s .dev (by decide)).trans hd
  rcases s.takeHead.stop_cases with ⟨_, e⟩ | ⟨h, _⟩ | ⟨h | h, _⟩
  · exact e
  all_goals rw [hd'] at h; cases h

theorem exec_stop {x : HostWrite} (hx : AtHead s x) (hc : s.controlWord x.adr = some 0) (hb : x.be = 0xF)
    (hv : x.data = 2) : exec .stop s = .next s.takeHead.stop.arrivals := by
  have ht : s.treatment x = .stop := by
    rw [State.treatment_of_controlWord hc, if_pos rfl]
    unfold requestOf
    simp [hb, hv]
  have e : exec .stop s = execStop s := rfl
  rw [e, execStop, hx.headWrite]
  exact if_pos ht

theorem HeadTaken.stopTaken (s : State) : HeadTaken s s.stopTaken := s.takeHead_taken.of_eq rfl rfl

/-- The event while a lane is SENDING (R174). -/
theorem State.stopped_stopping (hn : NoGrantDue s) : RunStopped s s.stopTaken.stopBlocks.arrivals := by
  refine State.stop_runStopped hn s.stopTaken_frame (.refl _ _) (fun _ h => .inl h) (fun _ h => h) fun w => ?_
  rw [State.stopBlocks_pool, State.pool_congr (s.stopTaken_frame .pools (by decide))]
  exact Pool.stopped_stopRun _

theorem OnlyRequestsOf.subset (h : OnlyRequestsOf .journal s t) (h' : OnlyRequestsOf .host s t) :
    (∀ r ∈ t.requests, r ∈ s.requests ∨ r.who = .journal) ∧ ∀ r ∈ s.requests, r ∈ t.requests := by
  obtain ⟨stay, new, _⟩ := h
  obtain ⟨stay', _, _⟩ := h'
  refine ⟨fun r hr => (new r hr).imp_right fun h => h.elim id id, fun r hr => ?_⟩
  by_cases e : r.who = .journal
  · exact stay' r hr (by rw [e]; nofun)
  · exact stay r hr e

/-- The event when no lane is SENDING (R174). -/
theorem State.stopped_setup (hn : NoGrantDue s) : RunStopped s s.stopTaken.stopBlocks.setupEntry.arrivals := by
  obtain ⟨new, keep⟩ := (s.stopTaken.stopBlocks.setupEntry_asks _).subset (s.stopTaken.stopBlocks.setupEntry_asks _)
  refine State.stop_runStopped hn s.stopTaken_frame (setupEntry_frame _) new keep fun w => ?_
  rw [State.setupEntry_pool, State.stopBlocks_pool, State.pool_congr (s.stopTaken_frame .pools (by decide))]
  exact Pool.stopped_teardown _

theorem State.stopRun_runStopped (hn : NoGrantDue s) : RunStopped s s.stopTaken.stopRun.arrivals := by
  by_cases h : ∃ z : Fin 6, (s.out z).st = .sending
  · rw [State.stopRun_stopping (s := s.stopTaken) (by simpa only [State.out_congr (s.stopTaken_frame .outs (by decide))] using h)]
    exact State.stopped_stopping hn
  · rw [State.stopRun_setup (s := s.stopTaken) fun z e =>
      h ⟨z, by rw [← State.out_congr (s.stopTaken_frame .outs (by decide))]; exact e⟩]
    exact State.stopped_setup hn

/-- STOPPING, while a lane is SENDING (R174). -/
theorem State.stopRun_facts_stopping (h : ∃ z : Fin 6, (s.out z).st = .sending) :
    s.stopTaken.stopRun.arrivals.dev = .stopping ∧
      (∀ z : Fin 6, s.stopTaken.stopRun.arrivals.sending[z] = true ↔ (s.out z).st = .sending) ∧
      (∀ (w : Fin 16) (k : Fin 8), (s.pool w).bufs[k].st ≠ .filling → (s.pool w).bufs[k].st ≠ .committing →
        (s.stopTaken.stopRun.arrivals.pool w).bufs[k] = (s.pool w).bufs[k].without .copySource) ∧
      s.stopTaken.stopRun.arrivals.startReached = s.startReached ∧
      s.stopTaken.stopRun.arrivals.flags = s.flags ∧ s.stopTaken.stopRun.arrivals.journal = s.journal := by
  have fv := s.stopTaken_frame
  have vout := State.out_congr (fv .outs (by decide))
  have vpool := State.pool_congr (fv .pools (by decide))
  rw [State.stopRun_stopping (s := s.stopTaken) (by simpa only [vout] using h)]
  have dev := s.stopTaken.stopBlocks_dev
  have sending := s.stopTaken.stopBlocks_sending
  have pool := s.stopTaken.stopBlocks_pool
  have f : ChangesOnly [.queue, .waiting, .outcome, .dev, .sending, .stopLanes, .pools, .outs, .ins, .requests, .port]
    s s.stopTaken.stopBlocks := fv.andThen (stopBlocks_frame _)
  have fa := arrivals_frame s.stopTaken.stopBlocks
  generalize s.stopTaken.stopBlocks = b at *
  refine ⟨(fa .dev (by decide)).trans dev, fun z => ?_, fun w k h1 h2 => ?_,
    (fa .startReached (by decide)).trans (f .startReached (by decide)),
    (fa .flags (by decide)).trans (f .flags (by decide)), (fa .journal (by decide)).trans (f .journal (by decide))⟩
  · have same : b.arrivals.sending = b.sending := fa .sending (by decide)
    rw [same, sending, vout, beq_iff_eq]
  · rw [State.pool_congr (fa .pools (by decide)), pool, vpool, Pool.stopRun_bufs, if_neg (not_or_intro h1 h2)]

/-- SETUP entry at once, when no lane is SENDING (R174). -/
theorem State.stopRun_facts_setup (h : ∀ z : Fin 6, (s.out z).st ≠ .sending) :
    s.stopTaken.stopRun.arrivals.dev = .setup ∧ s.stopTaken.stopRun.arrivals.startReached = false ∧
      ReportedStopped s s.stopTaken.stopRun.arrivals 2 0 ∧
      ∀ (w : Fin 16) (k : Fin 8), (s.stopTaken.stopRun.arrivals.pool w).bufs[k].st = .free := by
  have fv := s.stopTaken_frame
  have vout := State.out_congr (fv .outs (by decide))
  rw [State.stopRun_setup (s := s.stopTaken) (by simpa only [vout] using h)]
  have lanes : s.stopTaken.stopBlocks.stopLanes = 0 := by
    have none : (allOuts.filter fun z => (s.stopTaken.out z).st == .sending) = [] :=
      List.filter_eq_nil_iff.2 fun z _ => by rw [vout, beq_iff_eq]; exact h z
    rw [State.stopBlocks_stopLanes, none]
    rfl
  have pool := s.stopTaken.stopBlocks_pool
  have f : ChangesOnly [.queue, .waiting, .outcome, .dev, .sending, .stopLanes, .pools, .outs, .ins, .requests, .port]
    s s.stopTaken.stopBlocks := fv.andThen (stopBlocks_frame _)
  generalize s.stopTaken.stopBlocks = b at *
  have fa := arrivals_frame b.setupEntry
  have reported := State.setupEntry_reported (s := s) (u := b) (f .flags (by decide)) (f .journal (by decide))
    (f .header (by decide)) (f .timeBase (by decide))
  rw [lanes] at reported
  refine ⟨(fa .dev (by decide)).trans b.setupEntry_dev, (fa .startReached (by decide)).trans b.setupEntry_startReached,
    reported.of_eq (fa .flags (by decide)) (fa .journal (by decide)), fun w k => ?_⟩
  rw [State.pool_congr (fa .pools (by decide)), State.setupEntry_pool, pool]
  exact Pool.teardown_free (Pool.stop_st _ k)

end

/-- Settles O12: the blocks stop their work; SETUP entry follows at once when no lane is SENDING. -/
theorem stopInRunTearsDown : Obligations.StopInRunTearsDown := by
  unfold Obligations.StopInRunTearsDown
  intro s x hx hn hc hb hv hd
  have named : ∀ q, stopWithdraws q = false ↔ (∀ w, q ≠ .copyJob w) ∧ ∀ y, q ≠ .inLane y := fun q => by
    rw [Bool.eq_false_iff, ne_eq, stopWithdraws_iff, not_or, not_exists, not_exists]
  have fr : ChangesOnly [.dev, .sending, .stopLanes, .startReached, .pools, .outs, .ins, .requests, .port, .flags,
      .journal, .copyPtr] s.stopTaken s.stopTaken.stopRun.arrivals :=
    (stopRun_frame s.stopTaken).andThen (arrivals_frame _)
  have stopped := State.stopRun_runStopped hn
  have stopping := State.stopRun_facts_stopping (s := s)
  have setup := State.stopRun_facts_setup (s := s)
  rw [exec_stop hx hc hb hv, State.takeHead_stop hd]
  generalize s.stopTaken.stopRun.arrivals = t at *
  exact ⟨t, rfl, (HeadTaken.stopTaken s).of_eq (fr .queue (by decide)) (fr .waiting (by decide)),
    fr .outcome (by decide), fun w => (stopped.pools w).record,
    fun w k => ⟨((stopped.pools w).stamps k).1, ((stopped.pools w).stamps k).2, (stopped.pools w).emptied k⟩,
    fun z => by rw [stopped.outs]; exact (s.out z).stop_cases, stopped.ins, stopped.new,
    fun r hr => (named _).1 (stopped.withdrawn r hr), fun r hr h1 h2 => stopped.stay r hr ((named _).2 ⟨h1, h2⟩),
    fun a ha h1 h2 => stopped.portStays a ha ((named _).2 ⟨h1, h2⟩),
    fun a ha h => stopped.portWithdrawn a ha ((stopWithdraws_iff _).2 h), stopped.lanes, stopping, setup, stopped.frame⟩

end Sys2Proof.Machine

/-! Reads that SU answers from the part's own state (chapters 2, 3, 11): O17, O19. -/

namespace Sys2Proof.Machine

/-! ### Fields of a word -/

/-- The word holds the number, in its `n` low bits (chapter 11). -/
def Packs (x : Word) (n v : Nat) : Prop := x.toNat = v ∧ v < 2 ^ n

theorem field_toNat {v lo : Nat} (h : 2 ^ lo * v < 2 ^ 32) : (field v lo).toNat = 2 ^ lo * v := by
  have hv : v < 2 ^ 32 := lt_of_le_of_lt (Nat.le_mul_of_pos_left v (Nat.two_pow_pos lo)) h
  unfold field
  rw [BitVec.toNat_shiftLeft, BitVec.toNat_ofNat, Nat.mod_eq_of_lt hv, Nat.shiftLeft_eq, Nat.mul_comm,
    Nat.mod_eq_of_lt h]

theorem Packs.first {v n : Nat} (hv : v < 2 ^ n) (hn : n ≤ 32) : Packs (field v 0) n v := by
  have h : 2 ^ 0 * v < 2 ^ 32 := by
    rw [pow_zero, one_mul]
    exact lt_of_lt_of_le hv (Nat.pow_le_pow_right (by decide) hn)
  exact ⟨by rw [field_toNat h, pow_zero, one_mul], hv⟩

/-- A field placed above the bits in use adds its number at its position. -/
theorem Packs.or {x : Word} {lo a v n : Nat} (h : Packs x lo a) (hv : v < 2 ^ n) (hn : lo + n ≤ 32) :
    Packs (x ||| field v lo) (lo + n) (a + 2 ^ lo * v) := by
  obtain ⟨hx, ha⟩ := h
  have small : a + 2 ^ lo * v < 2 ^ (lo + n) := by
    rw [pow_add]
    calc a + 2 ^ lo * v < 2 ^ lo + 2 ^ lo * v := Nat.add_lt_add_right ha _
      _ = 2 ^ lo * (v + 1) := by ring
      _ ≤ 2 ^ lo * 2 ^ n := Nat.mul_le_mul_left _ hv
  have fits : 2 ^ lo * v < 2 ^ 32 := lt_of_le_of_lt (Nat.le_add_left _ a)
    (lt_of_lt_of_le small (Nat.pow_le_pow_right (by decide) hn))
  refine ⟨?_, small⟩
  rw [BitVec.toNat_or, hx, field_toNat fits, Nat.lor_comm, ← Nat.two_pow_add_eq_or_of_lt ha, Nat.add_comm]

theorem Packs.widen {x : Word} {n m a : Nat} (h : Packs x n a) (hm : n ≤ m) : Packs x m a :=
  ⟨h.1, lt_of_lt_of_le h.2 (Nat.pow_le_pow_right (by decide) hm)⟩

/-- A word is its number. -/
theorem Packs.eq_ofNat {x : Word} {n a : Nat} (h : Packs x n a) : x = BitVec.ofNat 32 a := by
  rw [← h.1, BitVec.ofNat_toNat, BitVec.setWidth_eq]

/-! ### The codes of R193 -/

theorem bit_lt (b : Bool) : bit b < 2 ^ 1 := by cases b <;> decide

theorem DevState.code_lt (d : DevState) : d.code < 2 ^ 8 := by cases d <;> decide

theorem ReqOutcome.code_lt (o : ReqOutcome) : o.code < 2 ^ 8 := by cases o <;> decide

theorem CueState.code_lt (c : CueState) : c.code < 2 ^ 2 := by cases c <;> decide

theorem CloseOutcome.code_lt (o : CloseOutcome) : o.code < 2 ^ 8 := by cases o <;> decide

theorem Writer.code_lt (w : Writer) : w.code < 2 ^ 2 := by cases w <;> decide

theorem OutState.code_lt (o : OutState) : o.code < 2 ^ 8 := by cases o <;> decide

theorem InState.code_lt (i : InState) : i.code < 2 ^ 8 := by cases i <;> decide

theorem JState.code_lt (j : JState) : j.code < 2 ^ 4 := by cases j <;> decide

section
variable (s : State)

/-! ### The control area (R67, R194) -/

theorem State.controlWord_iff (a : HostAdr) (j : Nat) : s.controlWord a = some j ↔
    j < 64 ∧ s.base + 4 * j ≤ HostAdr.byte a ∧ HostAdr.byte a ≤ s.base + 4 * j + 3 := by
  unfold State.controlWord within
  split
  · next h =>
    simp only [Bool.and_eq_true, decide_eq_true_eq] at h
    rw [Option.some.injEq]
    omega
  · next h =>
    simp only [Bool.and_eq_true, decide_eq_true_eq] at h
    constructor
    · nofun
    · omega

theorem Pool.isCommitting_iff (p : Pool) : p.isCommitting = true ↔ ∃ k : Fin 8, p.bufs[k].st = .committing := by
  unfold Pool.isCommitting
  cases h : p.find .committing with
  | none => exact ⟨nofun, fun ⟨k, hk⟩ => absurd hk (Pool.find_none.1 h k)⟩
  | some k => exact ⟨fun _ => ⟨k, Pool.find_some h⟩, fun _ => rfl⟩

theorem State.freeCount_eq (w : Fin 16) : s.freeCount w =
    if (s.dev = .run ∨ s.dev = .stopping) ∧ (s.win w).enabled = true then
      ((List.finRange 8).filter fun k =>
        decide (k.val < (s.win w).bufferCount ∧ (s.pool w).bufs[k].st = .free)).length
    else 0 := by
  have same : ∀ k : Fin 8, (decide (k.val < (s.win w).bufferCount) && (s.pool w).bufs[k].st == .free) =
      decide (k.val < (s.win w).bufferCount ∧ (s.pool w).bufs[k].st = .free) := fun k => by
    rw [Bool.eq_iff_iff, Bool.and_eq_true, beq_iff_eq, decide_eq_true_eq, decide_eq_true_eq]
  unfold State.freeCount
  rw [allBufs_eq, funext same]

theorem State.freeCount_lt (w : Fin 16) : s.freeCount w < 2 ^ 16 := by
  rw [State.freeCount_eq]
  split
  · exact lt_of_le_of_lt (List.length_filter_le _ _) (by rw [List.length_finRange]; decide)
  · decide

/-- Words 5 to 7 and 56 to 63 read 0 (R194). -/
theorem State.control_unused {j : Nat} (h : 5 ≤ j ∧ j ≤ 7 ∨ 56 ≤ j) : s.control j = 0 := by
  unfold State.control
  rw [if_neg (by omega), if_neg (by omega), if_neg (by omega), if_neg (by omega), if_neg (by omega)]
  by_cases h8 : j < 8
  · rw [if_pos h8]
  · rw [if_neg h8, if_neg (by omega), if_neg (by omega), if_neg (by omega)]

theorem State.control_window (w : Fin 16) : s.control (8 + 2 * w.val) = s.windowWord w ∧
    s.control (9 + 2 * w.val) = (field (s.pool w).lastSeq.toNat 0 ||| field (s.pool w).commits.toNat 16) := by
  have hw := w.isLt
  have at0 : Fin.ofNat 16 ((8 + 2 * w.val - 8) / 2) = w := Fin.ext (by simp only [Fin.ofNat]; omega)
  have at1 : Fin.ofNat 16 ((9 + 2 * w.val - 8) / 2) = w := Fin.ext (by simp only [Fin.ofNat]; omega)
  unfold State.control
  constructor
  · rw [if_neg (by omega), if_neg (by omega), if_neg (by omega), if_neg (by omega), if_neg (by omega),
      if_neg (by omega), if_pos (by omega)]
    dsimp only
    rw [if_pos (by omega), at0]
  · rw [if_neg (by omega), if_neg (by omega), if_neg (by omega), if_neg (by omega), if_neg (by omega),
      if_neg (by omega), if_pos (by omega)]
    dsimp only
    rw [if_neg (by omega), at1]

theorem State.control_out (x : Fin 6) :
    s.control (40 + 2 * x.val) = (field (s.out x).st.code 0 ||| field (s.out x).saturations.toNat 8 |||
      field (s.out x).frameNo.toNat 16) ∧
    s.control (41 + 2 * x.val) = (field (s.out x).underruns.toNat 0 ||| field (s.out x).earlies.toNat 8 |||
      field (s.out x).flywheels.toNat 16 ||| field (s.out x).drifts.toNat 24) := by
  have hx := x.isLt
  have at0 : Fin.ofNat 6 ((40 + 2 * x.val - 40) / 2) = x := Fin.ext (by simp only [Fin.ofNat]; omega)
  have at1 : Fin.ofNat 6 ((41 + 2 * x.val - 40) / 2) = x := Fin.ext (by simp only [Fin.ofNat]; omega)
  unfold State.control
  constructor
  · rw [if_neg (by omega), if_neg (by omega), if_neg (by omega), if_neg (by omega), if_neg (by omega),
      if_neg (by omega), if_neg (by omega), if_pos (by omega)]
    dsimp only
    rw [if_pos (by omega), at0]
  · rw [if_neg (by omega), if_neg (by omega), if_neg (by omega), if_neg (by omega), if_neg (by omega),
      if_neg (by omega), if_neg (by omega), if_pos (by omega)]
    dsimp only
    rw [if_neg (by omega), at1]

theorem State.control_in (y : Fin 2) :
    s.control (52 + 2 * y.val) = (field (s.inl y).st.code 0 ||| field (s.inl y).lastNo.toNat 16) ∧
    s.control (53 + 2 * y.val) = (field (s.inl y).crcErrors.toNat 0 ||| field (s.inl y).cuts.toNat 8 |||
      field (s.inl y).gaps.toNat 16 ||| field (s.inl y).noBuffers.toNat 24) := by
  have hy := y.isLt
  have at0 : Fin.ofNat 2 ((52 + 2 * y.val - 52) / 2) = y := Fin.ext (by simp only [Fin.ofNat]; omega)
  have at1 : Fin.ofNat 2 ((53 + 2 * y.val - 52) / 2) = y := Fin.ext (by simp only [Fin.ofNat]; omega)
  unfold State.control
  constructor
  · rw [if_neg (by omega), if_neg (by omega), if_neg (by omega), if_neg (by omega), if_neg (by omega),
      if_neg (by omega), if_neg (by omega), if_neg (by omega), if_pos (by omega)]
    dsimp only
    rw [if_pos (by omega), at0]
  · rw [if_neg (by omega), if_neg (by omega), if_neg (by omega), if_neg (by omega), if_neg (by omega),
      if_neg (by omega), if_neg (by omega), if_neg (by omega), if_pos (by omega)]
    dsimp only
    rw [if_neg (by omega), at1]

/-! ### The fields of the control words (R194) -/

theorem State.windowWord_packs (w : Fin 16) : Packs (s.windowWord w) 32
    ((s.cueState w).code + 2 ^ 2 * bit (s.pool w).isCommitting + 2 ^ 3 * bit (s.pool w).ownMark +
      2 ^ 8 * (s.pool w).lastOutcome.code + 2 ^ 16 * s.freeCount w) :=
  ((((Packs.first (CueState.code_lt _) (by decide)).or (bit_lt _) (by decide)).or (bit_lt _) (by decide)).widen
    (m := 8) (by decide)).or (CloseOutcome.code_lt _) (by decide) |>.or (s.freeCount_lt w) (by decide)

theorem countsWord_packs (a b c d : BitVec 8) : Packs
    (field a.toNat 0 ||| field b.toNat 8 ||| field c.toNat 16 ||| field d.toNat 24) 32
    (a.toNat + 2 ^ 8 * b.toNat + 2 ^ 16 * c.toNat + 2 ^ 24 * d.toNat) :=
  (((Packs.first a.isLt (by decide)).or b.isLt (by decide)).or c.isLt (by decide)).or d.isLt (by decide)

theorem State.control_0 : (s.control 0).toNat = s.dev.code + 2 ^ 8 * s.outcome.code :=
  ((Packs.first s.dev.code_lt (by decide)).or s.outcome.code_lt (by decide)).1

theorem State.control_1 : (s.control 1).toNat = s.flags.toNat := by
  change (s.flags.setWidth 32).toNat = _
  rw [BitVec.toNat_setWidth]
  exact Nat.mod_eq_of_lt (lt_of_lt_of_le s.flags.isLt (by decide))

theorem State.control_3 (h : s.journal.writeIndex < 4096) : (s.control 3).toNat =
    s.journal.writeIndex + 2 ^ 12 * s.journal.st.code + 2 ^ 16 * s.journal.wrap.toNat := by
  change (field (s.journal.writeIndex % 4096) 0 ||| field s.journal.st.code 12 |||
      field s.journal.wrap.toNat 16).toNat = _
  rw [Nat.mod_eq_of_lt h]
  exact (((Packs.first (n := 12) h (by decide)).or s.journal.st.code_lt (by decide)).or s.journal.wrap.isLt
    (by decide)).1

theorem State.control_4 (h : s.loadErr.index < 4096) (hc : s.loadErr.check ≤ 12) : (s.control 4).toNat =
    s.loadErr.index + 2 ^ 12 * s.loadErr.check + 2 ^ 16 * s.journal.lost.toNat := by
  have hc : s.loadErr.check < 16 := lt_of_le_of_lt hc (by decide)
  change (field (s.loadErr.index % 4096) 0 ||| field (s.loadErr.check % 16) 12 |||
      field s.journal.lost.toNat 16).toNat = _
  rw [Nat.mod_eq_of_lt h, Nat.mod_eq_of_lt hc]
  exact (((Packs.first (n := 12) h (by decide)).or (n := 4) hc (by decide)).or s.journal.lost.isLt (by decide)).1

/-! ### The answer (R51) -/

theorem State.waitingRead_of {s : State} {a : HostAdr} {be : Enables} (h : AtRead s a be) :
    s.waitingRead = some (a, be) := by
  obtain ⟨hr, hsu, hq, hw⟩ := h
  simp [State.waitingRead, hr, hsu, hq, hw]

/-- A read answered from the part's own state (R51). -/
theorem exec_hostReadTaken_word {s : State} {a : HostAdr} {be : Enables} {v : Word} (h : AtRead s a be)
    (hv : s.readAnswer a be = .word v) :
    exec .hostReadTaken s = .next { s with waiting := none, su := .free, readData := v } := by
  have e : exec .hostReadTaken s = execHostReadTaken s := rfl
  rw [e, execHostReadTaken, State.waitingRead_of h]
  simp only [hv]
  rfl

theorem State.readAnswer_control {s : State} {a : HostAdr} {j : Nat} (h : s.controlWord a = some j) (be : Enables) :
    s.readAnswer a be = .word (s.control j) := by
  unfold State.readAnswer
  rw [h]

end

/-- Settles O17: the control words and their fields, and the read that answers them. -/
theorem controlReadIsAnswered : Obligations.ControlReadIsAnswered := by
  unfold Obligations.ControlReadIsAnswered
  refine ⟨fun s w => ⟨s.freeCount_eq w, (s.pool w).isCommitting_iff⟩, State.controlWord_iff,
    fun s a be j hr hj => ⟨exec_hostReadTaken_word hr (State.readAnswer_control hj be), s.control_unused⟩,
    rfl, rfl, rfl, rfl, rfl, rfl, rfl, rfl, rfl, fun s => ⟨s.control_0, s.control_1, rfl, s.control_3, s.control_4,
      fun w => ?_, fun x => ?_, fun y => ?_⟩⟩
  · rw [(s.control_window w).1, (s.control_window w).2]
    exact ⟨(s.windowWord_packs w).1,
      ((Packs.first (s.pool w).lastSeq.isLt (by decide)).or (s.pool w).commits.isLt (by decide)).1⟩
  · rw [(s.control_out x).1, (s.control_out x).2]
    exact ⟨(((Packs.first (s.out x).st.code_lt (by decide)).or (s.out x).saturations.isLt (by decide)).or
      (s.out x).frameNo.isLt (by decide)).1, (countsWord_packs _ _ _ _).1⟩
  · rw [(s.control_in y).1, (s.control_in y).2]
    exact ⟨(((Packs.first (s.inl y).st.code_lt (by decide)).widen (m := 16) (by decide)).or
      (s.inl y).lastNo.isLt (by decide)).1, (countsWord_packs _ _ _ _).1⟩

end Sys2Proof.Machine

/-! Reads of the parts of a window (chapters 2, 3): O19, O20, O21. -/

namespace Sys2Proof.Machine

section
variable {s : State} {a : HostAdr} {be : Enables} {w : Fin 16}

/-! ### Words answered from the part's own state (R44–R46, R65) -/

/-- In RUN and STOPPING a read in a window is answered by its part (R4, R53). -/
theorem State.readAnswer_window (hd : s.dev = .run ∨ s.dev = .stopping) (hc : s.controlWord a = none)
    (hw : s.windowAt a = some w) (be : Enables) : s.readAnswer a be = s.windowRead w a := by
  have hs : s.steering = true := by simpa [State.steering] using hd
  unfold State.readAnswer
  rw [hc, hw, hs]

theorem State.windowRead_head (hp : s.partAt w a = .head) : s.windowRead w a =
    if (s.win w).writer = .host then .word (s.hostHead w)
    else if s.dev = .run then .moveView w else .word (s.inboundHead w) := by
  unfold State.windowRead
  rw [hp]

theorem State.windowRead_payload {i : Nat} (hp : s.partAt w a = .payload i) :
    s.windowRead w a = s.payloadRead w i := by
  unfold State.windowRead
  rw [hp]

theorem State.hostHead_eq (hh : (s.win w).writer = .host) (ht : (s.pool w).fillingTouched < 1024) :
    s.hostHead w = BitVec.ofNat 32 ((s.cueState w).code + 2 ^ 2 * bit (s.pool w).isCommitting +
      2 ^ 6 * (s.pool w).fillingTouched + 2 ^ 16 * (s.pool w).expected.toNat) := by
  have h := ((((Packs.first (s.cueState w).code_lt (by decide)).or (bit_lt (s.pool w).isCommitting) (by decide)).widen
    (m := 4) (by decide)).or (s.win w).writer.code_lt (by decide) |>.or (n := 10) ht (by decide)).or
    (s.pool w).expected.isLt (by decide)
  rw [hh] at h
  exact (show s.hostHead w = _ by unfold State.hostHead; rw [hh]).trans h.eq_ofNat

/-- The sequence number the view's buffer answers with; 0 without one (R45). -/
def Pool.seqAt (p : Pool) (k : Option (Fin 8)) : Half :=
  match k with
  | some k => p.bufs[k].seq
  | none => 0

theorem State.inboundHead_eq (s : State) (w : Fin 16) : s.inboundHead w =
    BitVec.ofNat 32 ((s.cueState w).code + 2 ^ 3 * bit ((s.pool w).holding .view).isSome +
      2 ^ 4 * (s.win w).writer.code + 2 ^ 16 * ((s.pool w).seqAt ((s.pool w).holding .view)).toNat) := by
  have h := ((((Packs.first (s.cueState w).code_lt (by decide)).widen (m := 3) (by decide)).or
    (bit_lt ((s.pool w).holding .view).isSome) (by decide)).or (s.win w).writer.code_lt (by decide) |>.widen (m := 16)
    (by decide)).or ((s.pool w).seqAt ((s.pool w).holding .view)).isLt (by decide)
  rw [← h.eq_ofNat]
  unfold State.inboundHead Pool.seqAt
  cases (s.pool w).holding .view <;> rfl

theorem Pool.fillingTouched_eq {p : Pool} {k : Fin 8} (hk : p.bufs[k].st = .filling)
    (one : ∀ j : Fin 8, p.bufs[j].st = .filling → j = k) : p.fillingTouched = (p.bufs[k].map).touched := by
  unfold Pool.fillingTouched
  rw [Pool.find_eq hk one]

theorem Pool.fillingTouched_none {p : Pool} (h : ∀ k : Fin 8, p.bufs[k].st ≠ .filling) : p.fillingTouched = 0 := by
  unfold Pool.fillingTouched
  rw [Pool.find_none.2 h]

end

/-- Settles O19: each part's answer, and what the fields of the head word count. -/
theorem windowPartsAreAnswered : Obligations.WindowPartsAreAnswered := by
  unfold Obligations.WindowPartsAreAnswered
  refine ⟨fun p => ⟨p.isCommitting_iff, Pool.fillingTouched_none, fun k n hk one rises below => ?_⟩,
    fun s a be w hr hd hc hw => ⟨fun hp => ?_, fun hp => ?_, fun hp hh ht => ?_, fun hp hh hs => ?_⟩⟩
  · rw [Pool.fillingTouched_eq hk one]
    exact WMap.touched_eq rises below
  all_goals
    have answer := State.readAnswer_window hd hc hw be
  · have e : s.readAnswer a be = .word (BitVec.ofNat 32 (s.pool w).lastOutcome.code) := by
      rw [answer, State.windowRead, hp]
      exact congrArg ReadAnswer.word (Packs.first (CloseOutcome.code_lt _) (by decide)).eq_ofNat
    exact exec_hostReadTaken_word hr e
  · have e : s.readAnswer a be = .word 0 := by rw [answer, State.windowRead, hp]
    exact exec_hostReadTaken_word hr e
  · have e : s.readAnswer a be = .word (s.hostHead w) := by rw [answer, State.windowRead_head hp, if_pos hh]
    rw [State.hostHead_eq hh ht] at e
    exact exec_hostReadTaken_word hr e
  · have e : s.readAnswer a be = .word (s.inboundHead w) := by
      rw [answer, State.windowRead_head hp, if_neg hh, if_neg (by rw [hs]; decide)]
    rw [exec_hostReadTaken_word hr e, State.inboundHead_eq]
    unfold Pool.seqAt
    cases (s.pool w).holding .view <;> rfl

section
variable {s : State} {a : HostAdr} {be : Enables} {w : Fin 16} {i : Nat}

/-! ### Payload reads (R60, R61, R63, R64) -/

theorem enables_ne_zero_of_getLsbD {x : Enables} {j : Nat} (h : x.getLsbD j = true) : x ≠ 0 := by
  rintro rfl
  simp at h

/-- The bytes each source supplies (R60). -/
def State.sourceKeeps (s : State) (w : Fin 16) (i : Nat) : List ReadPart :=
  [ { adr := (s.mapSource w .filling i).2, be := 0xF, keep := (s.mapSource w .filling i).1 },
    { adr := (s.mapSource w .committing i).2, be := 0xF
      keep := (s.mapSource w .committing i).1 &&& ~~~ (s.mapSource w .filling i).1 },
    { adr := s.restSource w i, be := 0xF
      keep := ~~~ (s.mapSource w .filling i).1 &&& ~~~ (s.mapSource w .committing i).1 } ]

theorem State.mergedParts_eq (s : State) (w : Fin 16) (i : Nat) :
    s.mergedParts w i = (s.sourceKeeps w i).filter fun p => p.keep != 0 := rfl

/-- Each byte has one source, the first that supplies it (R60). -/
theorem State.mergedParts_byte (s : State) (w : Fin 16) (i : Nat) {j : Nat} (hj : j < 4) :
    ((s.mergedParts w i).filter fun p => p.keep.getLsbD j).map (fun p => p.adr) =
      [ if (s.mapSource w .filling i).1.getLsbD j then (s.mapSource w .filling i).2
        else if (s.mapSource w .committing i).1.getLsbD j then (s.mapSource w .committing i).2
        else s.restSource w i ] := by
  have all : (s.mergedParts w i).filter (fun p => p.keep.getLsbD j) =
      (s.sourceKeeps w i).filter fun p => p.keep.getLsbD j := by
    rw [State.mergedParts_eq, List.filter_filter]
    refine List.filter_congr fun p _ => ?_
    cases h : p.keep.getLsbD j with
    | false => rfl
    | true =>
      rw [Bool.true_and, bne_iff_ne]
      exact enables_ne_zero_of_getLsbD h
  rw [all]
  unfold State.sourceKeeps
  cases hf : (s.mapSource w .filling i).1.getLsbD j <;>
    cases hc : (s.mapSource w .committing i).1.getLsbD j <;>
    simp only [List.filter_cons, List.filter_nil, BitVec.getLsbD_and, BitVec.getLsbD_not, hf, hc, hj, decide_true,
      Bool.and_false, Bool.and_true, Bool.not_false, Bool.not_true, Bool.false_eq_true, if_true, if_false,
      List.map_cons, List.map_nil]

/-- The sources are read in order, each at most once, as whole words (R61). -/
theorem State.mergedParts_adr (s : State) (w : Fin 16) (i : Nat) :
    ((s.mergedParts w i).map fun p => p.adr).Sublist
      [(s.mapSource w .filling i).2, (s.mapSource w .committing i).2, s.restSource w i] := by
  rw [State.mergedParts_eq]
  exact (List.filter_sublist (l := s.sourceKeeps w i)).map _

theorem State.mergedParts_keep (s : State) (w : Fin 16) (i : Nat) : ∀ p ∈ s.mergedParts w i,
    p.be = 0xF ∧ p.keep ≠ 0 := fun p hp => by
  rw [State.mergedParts_eq, List.mem_filter, bne_iff_ne] at hp
  refine ⟨?_, hp.2⟩
  have := hp.1
  unfold State.sourceKeeps at this
  simp only [List.mem_cons, List.not_mem_nil, or_false] at this
  rcases this with rfl | rfl | rfl <;> rfl

theorem State.mergedParts_cons (s : State) (w : Fin 16) (i : Nat) : ∃ p ps, s.mergedParts w i = p :: ps := by
  cases h : s.mergedParts w i with
  | cons p ps => exact ⟨p, ps, rfl⟩
  | nil =>
    have := s.mergedParts_byte w i (j := 0) (by decide)
    rw [h] at this
    cases this

/-- A read answered by memory reads issues the first (R51, R61, R73). -/
theorem exec_hostReadTaken_memory {p : ReadPart} {ps : List ReadPart} (h : AtRead s a be) (hn : NoGrantDue s)
    (hm : s.readAnswer a be = .memory p ps) : ∃ t, exec .hostReadTaken s = .next t ∧ t.su = .reading p ps 0 ∧
      t.waiting = none ∧
      Requested s t { who := .host, write := false, adr := p.adr, be := p.be, data := 0, urgent := false } ∧
      ChangesOnly [.waiting, .su, .requests, .port] s t := by
  have e : exec .hostReadTaken s = .next ({ s with waiting := none }.issueRead p ps 0).arrivals := by
    have e : exec .hostReadTaken s = execHostReadTaken s := rfl
    rw [e, execHostReadTaken, State.waitingRead_of h]
    simp only [hm]
  have joins : { s with waiting := none }.issueRead p ps 0 = ({ s with waiting := none, su := .reading p ps 0 }).join
      { who := .host, write := false, adr := p.adr, be := p.be, data := 0, urgent := false } := rfl
  have fu : ChangesOnly [.waiting, .su] s { s with waiting := none, su := .reading p ps 0 } := by
    intro g hg
    cases g <;> first | exact absurd (by decide) hg | rfl
  rw [e, joins]
  have hsu : ({ s with waiting := none, su := .reading p ps 0 } : State).su = .reading p ps 0 := rfl
  have hwait : ({ s with waiting := none, su := .reading p ps 0 } : State).waiting = none := rfl
  generalize ({ s with waiting := none, su := .reading p ps 0 } : State) = u at *
  have hu : NoGrantDue u := hn.of_eq (fu .port (by decide)) (fu .requests (by decide))
  have fj := join_frame u { who := .host, write := false, adr := p.adr, be := p.be, data := 0, urgent := false }
  have requested := State.requested_join hu
    { who := .host, write := false, adr := p.adr, be := p.be, data := 0, urgent := false }
  obtain ⟨_, ft⟩ := State.arrivals_spec (q := .host) hu (fun _ e => by cases e)
    (State.join_onlyRequestsOf u (.inl rfl)) fj (by decide) (by decide)
  exact ⟨_, rfl, (ft .su (by decide)).trans hsu, (ft .waiting (by decide)).trans hwait,
    requested.of_eq (fu .port (by decide)) (fu .requests (by decide)), fu.andThen ft⟩

theorem State.payloadRead_merged {p : ReadPart} {ps : List ReadPart} (hd : s.dev = .run)
    (hh : (s.win w).writer = .host) (hp : s.mergedParts w i = p :: ps) : s.payloadRead w i = .memory p ps := by
  unfold State.payloadRead
  rw [if_pos hh, if_pos hd, hp]

/-- The one source of a read in STOPPING, or of an inbound window (R63, R64). -/
def State.wholeSource (s : State) (w : Fin 16) (i : Nat) : MemAdr :=
  if (s.win w).writer = .host then s.restSource w i else s.inboundSource w i

theorem State.payloadRead_whole (hd : s.dev = .stopping ∨ s.dev = .run ∧ (s.win w).writer ≠ .host) :
    s.payloadRead w i = .memory (wholeRead (s.wholeSource w i)) [] := by
  unfold State.payloadRead State.wholeSource
  by_cases hh : (s.win w).writer = .host
  · have hr : s.dev ≠ .run := by
      rcases hd with h | h
      · rw [h]; decide
      · exact absurd hh h.2
    rw [if_pos hh, if_neg hr, if_pos hh]
  · rw [if_neg hh, if_neg hh]

end

/-- Settles O20: the sources of a merged read byte by byte, and the one source of every other payload read. -/
theorem mergedReadTakesTheFirstSource : Obligations.MergedReadTakesTheFirstSource := by
  unfold Obligations.MergedReadTakesTheFirstSource
  refine ⟨fun p st h => ⟨fun k => Pool.find_some, Pool.find_none.1, fun k => Pool.holding_some, Pool.holding_none.1⟩,
    fun s w i => ⟨fun st k hk => ?_, fun st hn => ?_, ?_⟩, fun s a be w i hr hn hd hc hw hp hh => ?_,
    fun s a be w i source hr hn hc hw hp hd hs => ?_⟩
  · unfold State.mapSource
    rw [hk]
    rfl
  · unfold State.mapSource
    rw [hn]
  · unfold State.restSource
    cases (s.pool w).find .ready <;> rfl
  · refine ⟨s.mergedParts_adr w i, s.mergedParts_keep w i, fun j hj => s.mergedParts_byte w i hj, ?_⟩
    obtain ⟨p, ps, parts⟩ := s.mergedParts_cons w i
    have answer : s.readAnswer a be = .memory p ps := by
      rw [State.readAnswer_window (.inl hd) hc hw, State.windowRead_payload hp, State.payloadRead_merged hd hh parts]
    obtain ⟨t, e, su, waiting, requested, f⟩ := exec_hostReadTaken_memory hr hn answer
    have whole := (s.mergedParts_keep w i p (by rw [parts]; exact List.mem_cons_self)).1
    rw [whole] at requested
    exact ⟨t, p, ps, parts, e, su, waiting, requested, f⟩
  · have steering : s.dev = .run ∨ s.dev = .stopping := hd.elim .inr fun h => .inl h.1
    have one : source = s.wholeSource w i := by
      rw [hs]
      unfold State.wholeSource State.inboundSource State.restSource
      by_cases hh : (s.win w).writer = .host
      · simp only [hh, if_true]
        cases (s.pool w).find .ready <;> rfl
      · simp only [hh, if_false]
        cases (s.pool w).holding .view <;> cases (s.pool w).find .ready <;> rfl
    have answer : s.readAnswer a be = .memory (wholeRead source) [] := by
      rw [State.readAnswer_window steering hc hw, State.windowRead_payload hp, State.payloadRead_whole hd, one]
    obtain ⟨t, e, su, waiting, requested, f⟩ := exec_hostReadTaken_memory hr hn answer
    exact ⟨t, e, waiting, su, requested, f⟩

section
variable {s : State} {a : HostAdr} {be : Enables} {w : Fin 16}

/-! ### The view move (R17, R45) -/

theorem exec_headWordReadViewMove (hr : AtRead s a be) (hd : s.dev = .run) (hc : s.controlWord a = none)
    (hw : s.windowAt a = some w) (hp : s.partAt w a = .head) (hh : (s.win w).writer ≠ .host) :
    exec .headWordReadViewMove s = .next (s.viewMove w) := by
  have answer : s.readAnswer a be = .moveView w := by
    rw [State.readAnswer_window (.inl hd) hc hw, State.windowRead_head hp, if_neg hh, if_pos hd]
  have e : exec .headWordReadViewMove s = execHeadWordReadViewMove s := rfl
  rw [e, execHeadWordReadViewMove, State.waitingRead_of hr]
  simp only [answer]

/-- READY is found in the same buffer after the view has been released. -/
theorem Pool.find_release (p : Pool) (g : Holder) : (p.release g).find .ready = p.find .ready :=
  (p.drawsAs_release g).2.2.1

theorem Pool.moveView_bufs (p : Pool) (k : Fin 8) : p.moveView.bufs[k] =
    if p.find .ready = some k then
      { p.bufs[k].without .view with holders := ((p.bufs[k].without .view).holders).put .view true }
    else p.bufs[k].without .view := by
  unfold Pool.moveView
  rw [Pool.find_release]
  cases h : p.find .ready with
  | none => exact p.release_bufs .view k
  | some j =>
    dsimp only
    rw [Pool.bufs_modBuf]
    by_cases e : k = j
    · subst e
      rw [if_pos rfl, if_pos rfl, Pool.release_bufs]
      rfl
    · rw [if_neg e, if_neg fun h' => e (Option.some.inj h').symm, Pool.release_bufs]

theorem Pool.moveView_record (p : Pool) : p.moveView = { p with bufs := p.moveView.bufs } := by
  unfold Pool.moveView
  split <;> rfl

/-- The view is held by the READY buffer alone (R17). -/
theorem Pool.moveView_has (p : Pool) (k : Fin 8) :
    p.moveView.bufs[k].holders.has .view = true ↔ p.find .ready = some k := by
  rw [Pool.moveView_bufs]
  split
  · next h => simp [HolderSet.has_put, h]
  · next h =>
    rw [Buffer.without_has]
    simp [h]

theorem Pool.moveView_holding (p : Pool) : p.moveView.holding .view = p.find .ready := by
  cases h : p.moveView.holding .view with
  | some k => exact ((p.moveView_has k).1 (Pool.holding_some h)).symm
  | none =>
    cases hr : p.find .ready with
    | none => rfl
    | some k =>
      have := Pool.holding_none.1 h k
      rw [(p.moveView_has k).2 hr] at this
      cases this

theorem Pool.moveView_seq (p : Pool) (k : Option (Fin 8)) : p.moveView.seqAt k = p.seqAt k := by
  unfold Pool.seqAt
  cases k with
  | none => rfl
  | some k =>
    dsimp only
    rw [Pool.moveView_bufs]
    split <;> rfl

/-- The head word the view move answers with (R45, R195). -/
theorem State.viewMove_head (s : State) (w : Fin 16) : (s.modPool w Pool.moveView).inboundHead w =
    BitVec.ofNat 32 ((s.cueState w).code + 2 ^ 3 * bit ((s.pool w).find .ready).isSome +
      2 ^ 4 * (s.win w).writer.code + 2 ^ 16 * ((s.pool w).seqAt ((s.pool w).find .ready)).toNat) := by
  have record : ∀ v : Fin 16, ((s.modPool w Pool.moveView).pool v).committed = (s.pool v).committed ∧
      ((s.modPool w Pool.moveView).pool v).ownMark = (s.pool v).ownMark := fun v => by
    rw [State.pool_modPool]
    split
    · next e => subst e; rw [Pool.moveView_record]; exact ⟨rfl, rfl⟩
    · exact ⟨rfl, rfl⟩
  have here : (s.modPool w Pool.moveView).pool w = (s.pool w).moveView := by rw [State.pool_modPool, if_pos rfl]
  rw [State.inboundHead_eq, here, Pool.moveView_holding, Pool.moveView_seq,
    State.cueState_congr (modPool_frame s w _ .windows (by decide)) (modPool_frame s w _ .groups (by decide)) record,
    State.win_congr (modPool_frame s w _ .windows (by decide))]

end

/-- Settles O21: the view moves to the READY buffer, which answers. -/
theorem headWordReadMovesTheView : Obligations.HeadWordReadMovesTheView := by
  unfold Obligations.HeadWordReadMovesTheView
  intro s a be w hr hd hc hw hp hh
  have pool : ∀ v, (s.viewMove w).pool v = if v = w then (s.pool v).moveView else s.pool v := fun v => by
    rw [show (s.viewMove w).pool v = (s.modPool w Pool.moveView).pool v from rfl, State.pool_modPool]
    split
    · next e => rw [e]
    · rfl
  have here := (pool w).trans (if_pos rfl)
  refine ⟨_, exec_headWordReadViewMove hr hd hc hw hp hh, rfl, fun k => ?_, ?_, fun k => ?_, ?_, fun v hv => ?_, ?_⟩
  · rw [here]
    exact Pool.moveView_has _ k
  · unfold OnlyBuffers
    rw [here]
    exact Pool.moveView_record _
  · rw [here]
    exact Pool.moveView_bufs _ k
  · refine (s.viewMove_head w).trans ?_
    unfold Pool.seqAt
    cases (s.pool w).find .ready <;> rfl
  · rw [pool, if_neg hv]
  · obtain ⟨_, su, _, _⟩ := hr
    have f := viewMove_frame s w
    exact ChangesOnly.drop (i := .su) (f.mono (by decide)) su.symm

end Sys2Proof.Machine

/-! Flags are cleared by an acknowledge or the reset pin only, and the active profile changes at the end of a
load or at the reset pin only (R180, R1, R87): O60. -/

namespace Sys2Proof.Machine

section
variable {s t u : State}

/-! ### Raises and commits -/

theorem FlagsGrow.of_frame {l : List Item} (f : ChangesOnly l s t) (h : .flags ∉ l) : FlagsGrow s t :=
  .of_eq (f .flags h)

theorem FlagsGrow.modPool (h : FlagsGrow s t) (w : Fin 16) (f : Pool → Pool) : FlagsGrow s (t.modPool w f) :=
  h.trans (.of_eq (State.modPool_flags t w f))

theorem FlagsGrow.modOut (h : FlagsGrow s t) (x : Fin 6) (f : OutLane → OutLane) : FlagsGrow s (t.modOut x f) :=
  h.trans (.of_eq (State.modOut_flags t x f))

theorem FlagsGrow.modIn (h : FlagsGrow s t) (y : Fin 2) (f : InLane → InLane) : FlagsGrow s (t.modIn y f) :=
  h.trans (.of_eq (State.modIn_flags t y f))

theorem FlagsGrow.modJournal (h : FlagsGrow s t) (f : Journal → Journal) : FlagsGrow s (t.modJournal f) :=
  h.trans (.of_eq (State.modJournal_flags t f))

theorem FlagsGrow.raise (h : FlagsGrow s t) (k : Kind) (source : Option Nat) (d1 d2 : Word) :
    FlagsGrow s (t.raise k source d1 d2) := h.trans (((t.setFlag_grow k).trans ((t.setFlag k).offer_flags _).2))

theorem State.raise_grow (s : State) (k : Kind) (source : Option Nat) (d1 d2 : Word) :
    FlagsGrow s (s.raise k source d1 d2) := (FlagsGrow.refl s).raise k source d1 d2

theorem State.raiseStopped_grow (s : State) (d1 d2 : Word) : FlagsGrow s (s.raiseStopped d1 d2) :=
  (s.raise_grow .stopped none d1 d2).trans (.of_eq (State.raiseStopped_flags s d1 d2))

theorem FlagsGrow.foldl {α : Type} (step : State → α → State) (h : ∀ t a, FlagsGrow t (step t a)) (as : List α)
    (s : State) : FlagsGrow s (as.foldl step s) := by
  induction as generalizing s with
  | nil => exact .refl s
  | cons a as ih => exact (h s a).trans (ih _)

theorem State.raiseResumed_grow (s before : State) (w : Fin 16) : FlagsGrow s (s.raiseResumed before w) := by
  unfold State.raiseResumed
  refine FlagsGrow.foldl _ (fun t v => ?_) _ _
  split
  · exact t.raise_grow _ _ _ _
  · exact .refl t

theorem State.commit_grow (s : State) (w : Fin 16) (k : Fin 8) (seq : Half) (time : Word) (source : Option (Fin 8))
    (copied : Nat) : FlagsGrow s (s.commit w k seq time source copied) := by
  unfold State.commit
  have record : FlagsGrow s ((s.modPool w fun p => p.commit k seq time source).noticeRecord w) :=
    ((FlagsGrow.refl s).modPool w _).modPool w _
  exact (record.trans (State.raiseResumed_grow _ s w)).trans (State.offer_flags _ _).2

theorem State.seek_grow (s : State) (w : Fin 16) (j : CopyJob) : FlagsGrow s (s.seek w j) := by
  unfold State.seek
  split
  · exact .of_eq rfl
  · unfold State.endJob
    exact ((FlagsGrow.refl s).modPool w _).trans (State.commit_grow _ _ _ _ _ _ _)

theorem State.startJob_grow (s : State) (w : Fin 16) (k : Fin 8) (seq : Half) (time : Word) :
    FlagsGrow s (s.startJob w k seq time) := by
  unfold State.startJob
  dsimp only
  refine FlagsGrow.trans (FlagsGrow.of_eq ?_) (State.seek_grow _ w _)
  split <;> rfl

theorem State.decideClose_grow (s : State) (w : Fin 16) (x : HostWrite) : FlagsGrow s (s.decideClose w x) := by
  rcases s.decideClose_cases w x with e | ⟨o, _, _, e⟩ | ⟨k0, k1, _, _, _, e⟩ <;> rw [e]
  · exact .refl s
  · exact ((FlagsGrow.refl s).modPool w _).raise _ _ _ _
  · have accepted : FlagsGrow s (s.acceptClose w k0 k1 (closeSeq x)) := (FlagsGrow.refl s).modPool w _
    split
    · exact accepted.trans (State.commit_grow _ _ _ _ _ _ _)
    · exact accepted.trans (State.startJob_grow _ _ _ _ _)

theorem State.copyWrite_grow (s : State) (w : Fin 16) (be : Enables) : FlagsGrow s (s.copyWrite w be) := by
  unfold State.copyWrite
  split
  · exact .refl s
  · exact ((FlagsGrow.refl s).modPool w _).trans (State.seek_grow _ _ _)

theorem State.expire_grow (s : State) (w : Fin 16) : FlagsGrow s (s.expire w) :=
  ((FlagsGrow.refl s).modPool w _).raise _ _ _ _

/-! ### Run control and the journal -/

theorem State.setupEntry_grow (s : State) : FlagsGrow s s.setupEntry :=
  (FlagsGrow.of_eq (s := s) (t := s.tornDown) rfl).trans (State.raiseStopped_grow _ _ _)

theorem State.stopRun_grow (s : State) : FlagsGrow s s.stopRun := by
  have blocks : FlagsGrow s s.stopBlocks := .of_frame (stopBlocks_frame s) (by decide)
  rcases s.stopRun_cases with ⟨_, e⟩ | ⟨_, e⟩ <;> rw [e]
  · exact blocks.trans (State.setupEntry_grow _)
  · exact blocks

theorem State.stopLoad_grow (s : State) : FlagsGrow s s.stopLoad :=
  (FlagsGrow.of_eq (s := s) (t := { s.withdraw .load with load := none, dev := .setup }) rfl).trans
    (State.raiseStopped_grow _ _ _)

theorem State.stop_grow (s : State) : FlagsGrow s s.stop := by
  have done : FlagsGrow s { s with outcome := .done } := .of_eq rfl
  rcases s.stop_cases with ⟨_, e⟩ | ⟨_, e⟩ | ⟨_, e⟩ <;> rw [e]
  · exact done.trans (State.stopRun_grow _)
  · exact done.trans (State.stopLoad_grow _)
  · exact done

theorem State.runEntry_grow (s : State) (im : Image) : FlagsGrow s (s.runEntry im) := by
  have entered : ChangesOnly [.dev, .load, .loadErr, .header, .windows, .lanes, .entries, .startInstant,
      .startReached, .sending, .pools, .groups, .outs, .entryState, .ins, .journal, .requests, .port, .copyPtr] s
      ((s.adopt im).startBlocks) := (adopt_frame s im).andThen (startBlocks_frame _)
  have start := startAtEntry_frame (((s.adopt im).startBlocks).raise .runStarted none
    (s.adopt im).startBlocks.startInstant (num im.header.imageLength))
  exact ((FlagsGrow.of_frame entered (by decide)).trans (State.raise_grow _ _ _ _ _)).trans
    (FlagsGrow.of_frame start (by decide))

theorem State.loadWord_grow (s : State) (v : Word) : FlagsGrow s (s.loadWord v) := by
  rcases s.loadWord_cases v with ⟨_, e⟩ | ⟨j, _, ⟨_, _, e⟩ | ⟨f, e⟩ | ⟨im, e⟩⟩ <;> rw [e]
  · exact .refl s
  · exact .of_eq rfl
  · exact (FlagsGrow.of_eq (s := s) (t := { s with load := none, loadErr := f, dev := .setup }) rfl).trans
      (State.raise_grow _ _ _ _ _)
  · exact s.runEntry_grow im

theorem State.haltJournal_grow (s : State) : FlagsGrow s s.haltJournal := by
  unfold State.haltJournal
  dsimp only
  refine FlagsGrow.trans ?_ (State.setFlag_grow _ .journalFull)
  split
  · exact (FlagsGrow.refl s).modJournal _
  · exact ((FlagsGrow.refl s).modJournal _).trans (State.loseEntries_grow _ _)

theorem FlagsGrow.nextEntry (h : FlagsGrow s t) : FlagsGrow s t.nextEntry :=
  h.trans (.of_frame (nextEntry_frame t) (by decide))

theorem State.entryWritten_grow (s : State) : FlagsGrow s s.entryWritten := by
  unfold State.entryWritten
  dsimp only
  split
  · split
    · exact (((FlagsGrow.refl s).modJournal _).modJournal _).nextEntry
    · exact ((FlagsGrow.refl s).modJournal _).trans (State.haltJournal_grow _)
  · exact (((FlagsGrow.refl s).modJournal _).modJournal _).nextEntry

theorem State.journalWord_grow (s : State) : FlagsGrow s s.journalWord := by
  unfold State.journalWord
  split
  · exact .refl s
  · split
    · exact ((FlagsGrow.refl s).modJournal _).trans (.of_frame (requestJournal_frame _) (by decide))
    · exact s.entryWritten_grow

/-! ### Outbound lanes -/

theorem State.pulseCheck_grow (s : State) (x : Fin 6) : FlagsGrow s (s.pulseCheck x) := by
  cases h : s.driftsNow x with
  | true =>
    rw [State.pulseCheck_of_drift h]
    exact ((FlagsGrow.refl s).modOut x _).raise _ _ _ _
  | false => exact .of_eq (State.pulseCheck_quiet h).1

theorem State.edgeStart_grow (s : State) (x : Fin 6) : FlagsGrow s (s.edgeStart x) :=
  .of_frame (edgeStart_frame s x) (by decide)

theorem State.activeEdge_grow (s : State) (x : Fin 6) : FlagsGrow s (s.activeEdge x) := by
  unfold State.activeEdge
  split
  · exact .refl s
  · split
    · exact ((FlagsGrow.refl s).modOut x _).trans (State.edgeStart_grow _ x)
    · exact .refl s
  · exact ((s.pulseCheck_grow x).modOut x _).trans (State.edgeStart_grow _ x)
  · split
    · exact ((s.pulseCheck_grow x).trans (State.cutFrame_flags _ x).2).trans (State.edgeStart_grow _ x)
    · exact .refl s

theorem State.flywheel_grow (s : State) (x : Fin 6) : FlagsGrow s (s.flywheel x) := by
  have started : FlagsGrow s ((s.flywheelSet x).frameStart x true) :=
    ((FlagsGrow.refl s).modOut x _).trans (.of_frame (frameStart_frame _ x true) (by decide))
  cases h : (s.out x).pulse.inRun with
  | true => rw [State.flywheel_inRun h]; exact started
  | false => rw [State.flywheel_first h]; exact started.trans (State.raise_grow _ _ _ _ _)

theorem State.underrun_grow (s : State) (x : Fin 6) (e : Nat) : FlagsGrow s (s.underrun x e) := by
  have mine : ∀ b : Bool, FlagsGrow s (if b then s.withdraw (.outLane x) else s) := fun b => by
    cases b
    · exact .refl s
    · exact .of_frame (withdraw_frame s _) (by decide)
  unfold State.underrun
  dsimp only
  split
  · exact (mine _).modOut x _
  · exact ((mine _).modOut x _).raise _ _ _ _

theorem State.position_grow (s : State) (x : Fin 6) (j : Nat) : FlagsGrow s (s.position x j) := by
  unfold State.position
  split
  · exact (FlagsGrow.refl s).modOut x _
  · split
    · unfold State.dataSlot
      dsimp only
      split
      · exact (FlagsGrow.refl s).modOut x _
      · split
        · exact .of_frame (emptySlot_frame s x) (by decide)
        · split
          · exact .of_frame (sendEntry_frame s x _ _) (by decide)
          · exact s.underrun_grow x _
    · exact (FlagsGrow.refl s).modOut x _

theorem State.slotBegin_grow (s : State) (x : Fin 6) : FlagsGrow s (s.slotBegin x) := by
  unfold State.slotBegin
  refine FlagsGrow.trans (FlagsGrow.trans ?_ (.of_frame (markUrgent_frame _ x) (by decide)))
    (.of_frame (tryFetch_frame _ x) (by decide))
  exact ((FlagsGrow.refl s).modOut x _).trans (State.position_grow _ x _)

theorem State.frameEnd_grow (s : State) (x : Fin 6) : FlagsGrow s (s.frameEnd x) := by
  have closed : ∀ st, FlagsGrow s (s.frameClosed x st) := fun st => .of_frame (s.frameClosed_frame x st) (by decide)
  by_cases hd : s.dev = .stopping
  · rw [State.frameEnd_idle hd, State.laneIdle_eq]
    have left : FlagsGrow s ((s.frameClosed x .idle).leftSending x) :=
      (closed .idle).trans (.of_frame (State.leftSending_frame _ x) (by decide))
    split
    · exact left.trans (State.setupEntry_grow _)
    · exact left
  · rw [State.frameEnd_running hd]
    exact closed .between

/-! ### Inbound lanes -/

/-- No operation of an inbound lane clears a flag. -/
theorem flagsGrow_keptByFrames (s : State) : KeptByFrames (FlagsGrow s) where
  asks h f := h.trans (.of_frame f (by decide))
  raise h _ _ _ _ := h.raise _ _ _ _
  lane _ _ h _ := h.modIn _ _
  allocate h _ _ _ := (h.modPool _ _).modIn _ _
  discard h _ _ _ := (h.modPool _ _).modIn _ _
  commit h _ _ _ := ((h.modPool _ _).trans (State.commit_grow _ _ _ _ _ _ _)).modIn _ _
  mark _ _ h _ _ _ := h.modPool _ _

/-! ### Commands -/

theorem State.arrivals_grow (s : State) : FlagsGrow s s.arrivals := .of_frame (arrivals_frame s) (by decide)

theorem State.takeHead_grow (s : State) : FlagsGrow s s.takeHead := .of_frame (takeHead_frame s) (by decide)

/-- A command that runs one event when it is due. -/
theorem FlagsGrow.guarded {b : Bool} (h : (if b then (.next u.arrivals : Out) else .next s) = .next t)
    (hu : FlagsGrow s u) : FlagsGrow s t := by
  split at h <;> cases h
  · exact hu.trans u.arrivals_grow
  · exact .refl s

theorem State.performance_grow {about : Request → Bool} {react drop : Request → State → State}
    (h : s.performance about react drop = .next t) (hr : ∀ r v, FlagsGrow v (react r v))
    (hd : ∀ r v, FlagsGrow v (drop r v)) : FlagsGrow s t := by
  rcases s.performance_cases about react drop with e | ⟨a, _, _, _, e⟩ <;> rw [e] at h <;> cases h
  · exact .refl s
  · have complete : FlagsGrow s (s.complete a.req) := .of_frame (complete_frame s a.req) (by decide)
    refine FlagsGrow.trans (complete.trans ?_) (.of_frame (regrant_frame _) (by decide))
    split
    · exact hd _ _
    · exact hr _ _

/-- A command that takes the write at the head. -/
theorem FlagsGrow.headTaken (h : u.arrivals = t) (hu : FlagsGrow s.takeHead u) : FlagsGrow s t :=
  h ▸ (s.takeHead_grow.trans hu).trans u.arrivals_grow

theorem execRefusedWrite_grow (h : execRefusedWrite s = .next t) : FlagsGrow s t := by
  unfold execRefusedWrite at h
  split at h
  · split at h <;> cases h
    · exact .headTaken rfl (State.raise_grow _ _ _ _ _)
    · exact .refl s
  · cases h; exact .refl s

theorem execCloseRequest_grow (h : execCloseRequest s = .next t) : FlagsGrow s t := by
  unfold execCloseRequest at h
  split at h
  · split at h <;> cases h
    · exact .headTaken rfl (State.decideClose_grow _ _ _)
    · exact .refl s
  · cases h; exact .refl s

theorem execStop_grow (h : execStop s = .next t) : FlagsGrow s t := by
  unfold execStop at h
  split at h
  · split at h <;> cases h
    · exact .headTaken rfl (State.stop_grow _)
    · exact .refl s
  · cases h; exact .refl s

theorem execInboundWritePerformed_grow (h : execInboundWritePerformed s = .next t) : FlagsGrow s t := by
  refine State.performance_grow h (fun r v => ?_) fun _ v => .refl v
  unfold Request.inboundReact
  split
  · exact (flagsGrow_keptByFrames v).halfWritten (.refl v) _
  · exact .refl v

theorem execCopyWritePerformed_grow (h : execCopyWritePerformed s = .next t) : FlagsGrow s t := by
  refine State.performance_grow h (fun r v => ?_) fun _ v => .refl v
  unfold Request.copyWriteReact
  split
  · exact v.copyWrite_grow _ _
  · exact .refl v

theorem execLoadReadPerformed_grow (h : execLoadReadPerformed s = .next t) : FlagsGrow s t :=
  State.performance_grow h (fun _ v => v.loadWord_grow _) fun _ v => .refl v

theorem execJournalWordPerformed_grow (h : execJournalWordPerformed s = .next t) : FlagsGrow s t :=
  State.performance_grow h (fun _ v => v.journalWord_grow) fun _ v => .refl v

end

/-- No command but an acknowledge and the reset pin clears a flag (R180). -/
theorem exec_flagsGrow {c : Instr} {s t : State} (h : exec c s = .next t) (hr : c ≠ .resetPin)
    (ha : c ≠ .acknowledge) : FlagsGrow s t := by
  cases c with
  | acknowledge => exact absurd rfl ha
  | resetPin => exact absurd rfl hr
  | hostWritePresented => exact .of_frame (execHostWritePresented_frame h) (by decide)
  | hostReadPresented => exact .of_frame (execHostReadPresented_frame h) (by decide)
  | passThroughWrite => exact .of_frame (execPassThroughWrite_frame h) (by decide)
  | payloadWriteSteered => exact .of_frame (execPayloadWriteSteered_frame h) (by decide)
  | refusedWrite => exact execRefusedWrite_grow h
  | closeRequest => exact execCloseRequest_grow h
  | start => exact .of_frame (execStart_frame h) (by decide)
  | stop => exact execStop_grow h
  | unknownRequest => exact .of_frame (execUnknownRequest_frame h) (by decide)
  | controlWriteDropped => exact .of_frame (execControlWriteDropped_frame h) (by decide)
  | hostReadTaken => exact .of_frame (execHostReadTaken_frame h) (by decide)
  | headWordReadViewMove => exact .of_frame (execHeadWordReadViewMove_frame h) (by decide)
  | hostAccessPerformed => exact .of_frame (execHostAccessPerformed_frame h) (by decide)
  | laneFetchPerformed => exact .of_frame (execLaneFetchPerformed_frame h) (by decide)
  | inboundWritePerformed => exact execInboundWritePerformed_grow h
  | copyReadPerformed => exact .of_frame (execCopyReadPerformed_frame h) (by decide)
  | copyWritePerformed => exact execCopyWritePerformed_grow h
  | loadReadPerformed => exact execLoadReadPerformed_grow h
  | journalWordPerformed => exact execJournalWordPerformed_grow h
  | timerExpiry w => exact .guarded h (s.expire_grow w)
  | startInstantReached => exact .of_frame (execStartInstantReached_frame h) (by decide)
  | masterScheduledStart => exact .of_frame (execMasterScheduledStart_frame h) (by decide)
  | outboundActiveEdge x edge => exact .guarded h (s.activeEdge_grow x)
  | flywheelStart x => exact .guarded h (s.flywheel_grow x)
  | slotBegin x => exact .guarded h (s.slotBegin_grow x)
  | frameEnd x => exact .guarded h (s.frameEnd_grow x)
  | inboundActiveEdge y edge => exact .guarded h ((flagsGrow_keptByFrames s).inActiveEdge (.refl s) y)
  | inboundH0Received y v => exact .guarded h ((flagsGrow_keptByFrames s).inH0 (.refl s) y v)
  | inboundH1Received y v => exact .guarded h ((flagsGrow_keptByFrames s).inH1 (.refl s) y v)
  | inboundDataSlotReceived y v => exact .guarded h ((flagsGrow_keptByFrames s).inData (.refl s) y v)
  | inboundCrcSlotReceived y v => exact .guarded h ((flagsGrow_keptByFrames s).inCrc (.refl s) y v)
  | resetRelease => exact .of_frame (execResetRelease_frame h) (by decide)
  | timeBaseTick => exact .of_frame (execTimeBaseTick_frame h) (by decide)

/-- The parts that the end of a load and the reset pin alone change (R1, R87, R105, R128). -/
def profileItems : List Item := [.windows, .lanes, .entries, .header, .groups]

/-- The active profile and the group table are as before. -/
def State.SameProfile (s t : State) : Prop :=
  t.windows = s.windows ∧ t.lanes = s.lanes ∧ t.entries = s.entries ∧ t.header = s.header ∧ t.groups = s.groups

theorem State.SameProfile.of_frame {s t : State} {l : List Item} (f : ChangesOnly l s t)
    (h : ∀ i ∈ profileItems, i ∉ l) : s.SameProfile t :=
  ⟨f .windows (h _ (by decide)), f .lanes (h _ (by decide)), f .entries (h _ (by decide)),
    f .header (h _ (by decide)), f .groups (h _ (by decide))⟩

/-- No command but the end of a load and the reset pin changes the active profile. -/
theorem exec_sameProfile {c : Instr} {s t : State} (h : exec c s = .next t) (hr : c ≠ .resetPin)
    (hl : c ≠ .loadReadPerformed) : s.SameProfile t := by
  cases c with
  | loadReadPerformed => exact absurd rfl hl
  | resetPin => exact absurd rfl hr
  | hostWritePresented => exact .of_frame (execHostWritePresented_frame h) (by decide)
  | hostReadPresented => exact .of_frame (execHostReadPresented_frame h) (by decide)
  | passThroughWrite => exact .of_frame (execPassThroughWrite_frame h) (by decide)
  | payloadWriteSteered => exact .of_frame (execPayloadWriteSteered_frame h) (by decide)
  | refusedWrite => exact .of_frame (execRefusedWrite_frame h) (by decide)
  | closeRequest => exact .of_frame (execCloseRequest_frame h) (by decide)
  | start => exact .of_frame (execStart_frame h) (by decide)
  | stop => exact .of_frame (execStop_frame h) (by decide)
  | unknownRequest => exact .of_frame (execUnknownRequest_frame h) (by decide)
  | acknowledge => exact .of_frame (execAcknowledge_frame h) (by decide)
  | controlWriteDropped => exact .of_frame (execControlWriteDropped_frame h) (by decide)
  | hostReadTaken => exact .of_frame (execHostReadTaken_frame h) (by decide)
  | headWordReadViewMove => exact .of_frame (execHeadWordReadViewMove_frame h) (by decide)
  | hostAccessPerformed => exact .of_frame (execHostAccessPerformed_frame h) (by decide)
  | laneFetchPerformed => exact .of_frame (execLaneFetchPerformed_frame h) (by decide)
  | inboundWritePerformed => exact .of_frame (execInboundWritePerformed_frame h) (by decide)
  | copyReadPerformed => exact .of_frame (execCopyReadPerformed_frame h) (by decide)
  | copyWritePerformed => exact .of_frame (execCopyWritePerformed_frame h) (by decide)
  | journalWordPerformed => exact .of_frame (execJournalWordPerformed_frame h) (by decide)
  | timerExpiry => exact .of_frame (execTimerExpiry_frame h) (by decide)
  | startInstantReached => exact .of_frame (execStartInstantReached_frame h) (by decide)
  | masterScheduledStart => exact .of_frame (execMasterScheduledStart_frame h) (by decide)
  | outboundActiveEdge => exact .of_frame (execOutboundActiveEdge_frame h) (by decide)
  | flywheelStart => exact .of_frame (execFlywheelStart_frame h) (by decide)
  | slotBegin => exact .of_frame (execSlotBegin_frame h) (by decide)
  | frameEnd => exact .of_frame (execFrameEnd_frame h) (by decide)
  | inboundActiveEdge => exact .of_frame (execInboundActiveEdge_frame h) (by decide)
  | inboundH0Received => exact .of_frame (execInboundH0Received_frame h) (by decide)
  | inboundH1Received => exact .of_frame (execInboundH1Received_frame h) (by decide)
  | inboundDataSlotReceived => exact .of_frame (execInboundDataSlotReceived_frame h) (by decide)
  | inboundCrcSlotReceived => exact .of_frame (execInboundCrcSlotReceived_frame h) (by decide)
  | resetRelease => exact .of_frame (execResetRelease_frame h) (by decide)
  | timeBaseTick => exact .of_frame (execTimeBaseTick_frame h) (by decide)

/-- Settles O60, command by command: by its frame, or by the raises it takes. -/
theorem flagsAndProfileChangeOnlyWhereStated : Obligations.FlagsAndProfileChangeOnlyWhereStated := by
  unfold Obligations.FlagsAndProfileChangeOnlyWhereStated
  exact fun c s t h hr => ⟨fun ha => exec_flagsGrow h hr ha, fun hl => exec_sameProfile h hr hl⟩

end Sys2Proof.Machine

/-! The state after the reset pin, its values and the laws in it: O52. -/

namespace Sys2Proof.Machine

/-! ### The reset values -/

theorem reset_win (w : Fin 16) : State.reset.win w = WindowRec.zero := by
  change (Vector.replicate 16 WindowRec.zero)[w] = _
  simp

theorem reset_pool (w : Fin 16) : State.reset.pool w = Pool.zero := by
  change (Vector.replicate 16 Pool.zero)[w] = _
  simp

theorem reset_out (x : Fin 6) : State.reset.out x = OutLane.zero := by
  change (Vector.replicate 6 OutLane.zero)[x] = _
  simp

theorem reset_inl (y : Fin 2) : State.reset.inl y = InLane.zero := by
  change (Vector.replicate 2 InLane.zero)[y] = _
  simp

theorem reset_sending (x : Fin 6) : State.reset.sending[x] = false := by
  change (Vector.replicate 6 false)[x] = _
  simp

theorem reset_groups (g : Fin 4) (w : Fin 16) : State.reset.groups[g][w] = false := by
  change (Vector.replicate 4 (Vector.replicate 16 false))[g][w] = _
  simp

theorem reset_lanes (m : Fin 8) : State.reset.lanes[m] = LaneRec.zero := by
  change (Vector.replicate 8 LaneRec.zero)[m] = _
  simp

theorem reset_entries (e : Fin 256) : State.reset.entries[e] = EntryRec.zero := by
  change (Vector.replicate 256 EntryRec.zero)[e] = _
  simp

theorem reset_entryState (e : Fin 256) : State.reset.entryState[e] = EntryState.zero := by
  change (Vector.replicate 256 EntryState.zero)[e] = _
  simp

theorem reset_cueState (w : Fin 16) : State.reset.cueState w = .empty := by
  unfold State.cueState
  rw [reset_win]
  rfl

theorem reset_buf (w : Fin 16) (k : Fin 8) : (State.reset.pool w).bufs[k] = Buffer.zero := by
  rw [reset_pool, Pool.zero_bufs]

theorem reset_not_busy (q : Requester) : ¬ State.reset.busy q := by
  rintro (h | ⟨a, ha, _⟩)
  · exact absurd h List.not_mem_nil
  · cases ha

/-! ### The laws -/

theorem memoryLaw_reset : MemoryLaw State.reset := by
  unfold MemoryLaw
  decide

theorem journalLaw_reset : JournalLaw State.reset :=
  ⟨by decide, by decide, .inl ⟨rfl, rfl⟩, fun _ => rfl⟩

theorem requestLaw_reset : RequestLaw State.reset := by
  refine ⟨List.nodup_nil, nofun, fun _ => rfl, iff_of_false (reset_not_busy _) fun h => h rfl,
    iff_of_false (reset_not_busy _) nofun, iff_of_false (reset_not_busy _) fun h => h rfl,
    fun w => iff_of_false (reset_not_busy _) ?_, fun y => iff_of_false (reset_not_busy _) ?_⟩
  · rw [reset_pool]
    nofun
  · rw [reset_inl]
    rintro ⟨f, hf, _⟩
    cases hf

theorem frameLaw_reset : FrameLaw State.reset := by
  refine ⟨nofun, fun y => ?_⟩
  rw [reset_inl]
  have rests : ¬ ∃ f ∈ InLane.zero.frames.getLast?, f.outcome = .opened := fun ⟨_, hf, _⟩ => by cases hf
  exact ⟨iff_of_false (fun e => by cases e) rests, nofun, nofun, nofun, Nat.zero_le _⟩

theorem fetchLaw_reset : FetchLaw State.reset := fun x => by
  rw [reset_out]
  have idle : OutLane.zero.st ≠ .sending := nofun
  exact ⟨iff_of_false (reset_not_busy _) fun h => idle h.1, fun h => absurd rfl h, fun h => absurd h idle⟩

theorem mapLaw_reset : MapLaw State.reset := fun w k => by
  rw [reset_buf]
  exact ⟨List.Pairwise.nil, nofun⟩

theorem deviceLaw_reset : DeviceLaw State.reset := by
  refine ⟨⟨nofun, nofun⟩, fun _ w => ?_, fun _ x => ?_, nofun, fun _ y => ?_⟩
  · rw [reset_pool]; rfl
  · rw [reset_out]; rfl
  · rw [reset_inl]; exact ⟨rfl, rfl⟩

/-- The reset pin's state differs from it in parts no law of the pools reads. -/
theorem runParts_reset : RunParts State.reset := by
  refine (runParts_pinReset State.reset).inert fun g hg => ?_
  cases g <;> first | exact absurd (by decide) hg | rfl

/-- Settles O52: the values one by one, and the laws on a part that holds nothing. -/
theorem resetStateHoldsItsValuesAndTheLaws : Obligations.ResetStateHoldsItsValuesAndTheLaws :=
  ⟨rfl, rfl, rfl, rfl, rfl, rfl, rfl, reset_sending, rfl, rfl, rfl, rfl, rfl, by decide, rfl, rfl, rfl, rfl, rfl, rfl,
    reset_win, reset_lanes, reset_entries, fun w => ⟨reset_cueState w, reset_pool w⟩, reset_groups, reset_out,
    reset_entryState, reset_inl, rfl, rfl, memoryLaw_reset, ⟨Nat.zero_le _, fun _ => rfl⟩, journalLaw_reset,
    requestLaw_reset, frameLaw_reset, fetchLaw_reset, mapLaw_reset, .of_not_run nofun,
    (runLaw_iff _).2 ⟨runParts_reset, deviceLaw_reset⟩⟩

end Sys2Proof.Machine

/-! SUPPORT. RUN entry (R24, R126, R161, R172, R173, R190): the START values of the blocks, the offer of
RUN_STARTED to a new journal, and the first frame starts when the start instant falls in the event. -/

namespace Sys2Proof.Machine

section
variable {s t u d : State} {im : Image}

/-! ### The START values (R172) -/

theorem State.entered_frame (s : State) (im : Image) :
    ChangesOnly [.dev, .load, .loadErr, .header, .windows, .lanes, .entries, .startInstant, .startReached,
      .sending, .pools, .groups, .outs, .entryState, .ins, .journal, .requests, .port, .copyPtr] s (s.entered im) :=
  (adopt_frame s im).andThen (startBlocks_frame _)

theorem State.entered_start_pool (s : State) (im : Image) (w : Fin 16) : (s.entered im).pool w =
    (s.pool w).start ((s.entered im).win w)
      (s.timeBase + BitVec.ofNat 32 (((s.entered im).win w).timeout * 1000)) := by
  rw [State.entered_win]
  unfold State.entered State.startBlocks
  rw [State.pool_congr (startJournal_frame _ .pools (by decide))]
  change (Vector.ofFn _)[w] = _
  rw [Fin.getElem_fin, Vector.getElem_ofFn]
  rfl

theorem State.entered_out (s : State) (im : Image) (x : Fin 6) : (s.entered im).out x =
    OutLane.start ((s.entered im).outRec x) (s.entered im).startInstant := by
  have lanes : (s.entered im).outRec x = (s.adopt im).outRec x :=
    State.outRec_congr (startBlocks_frame (s.adopt im) .lanes (by decide)) x
  have instant : (s.entered im).startInstant = (s.adopt im).startInstant :=
    startBlocks_frame (s.adopt im) .startInstant (by decide)
  rw [lanes, instant]
  unfold State.entered State.startBlocks
  rw [State.out_congr (startJournal_frame _ .outs (by decide))]
  change (Vector.ofFn _)[x] = _
  rw [Fin.getElem_fin, Vector.getElem_ofFn]

theorem State.entered_start_inl (s : State) (im : Image) (y : Fin 2) : (s.entered im).inl y =
    InLane.start ((s.entered im).inRec y) := by
  have lanes : (s.entered im).lanes = (s.adopt im).lanes := startBlocks_frame (s.adopt im) .lanes (by decide)
  unfold State.inRec
  rw [lanes]
  unfold State.entered State.startBlocks
  rw [State.inl_congr (startJournal_frame _ .ins (by decide))]
  change (Vector.ofFn _)[y] = _
  rw [Fin.getElem_fin, Vector.getElem_ofFn]
  rfl

theorem State.entered_groups (s : State) (im : Image) : (s.entered im).groups = groupTable im.windowTable := by
  unfold State.entered State.startBlocks
  exact startJournal_frame _ .groups (by decide)

theorem groupTable_iff (ws : Vector WindowRec 16) (g : Fin 4) (w : Fin 16) :
    (groupTable ws)[g][w] = true ↔ ws[w].enabled = true ∧ ws[w].group = .member g := by
  unfold groupTable
  simp only [Fin.getElem_fin, Vector.getElem_ofFn, Bool.and_eq_true, beq_iff_eq]

theorem State.entered_entryState (s : State) (im : Image) :
    (s.entered im).entryState = Vector.replicate 256 EntryState.zero := by
  unfold State.entered State.startBlocks
  exact startJournal_frame _ .entryState (by decide)

theorem State.entered_copyPtr (s : State) (im : Image) : (s.entered im).copyPtr = 0 := by
  unfold State.entered State.startBlocks
  exact startJournal_frame _ .copyPtr (by decide)

/-- The adopted tables and the run-control values, which the blocks keep (R172, R173). -/
theorem State.entered_adopted (s : State) (im : Image) :
    (s.entered im).header = im.header ∧ (s.entered im).windows = im.windowTable ∧
      (s.entered im).lanes = im.laneTable ∧ (s.entered im).entries = im.entryTable ∧
      (s.entered im).load = none ∧ (s.entered im).loadErr = { check := 0, index := 0 } ∧
      (s.entered im).startInstant = startInstantOf s.timeBase im.header.startDelay ∧
      (s.entered im).startReached = false ∧ (s.entered im).sending = Vector.replicate 6 false := by
  have f := startBlocks_frame (s.adopt im)
  exact ⟨f .header (by decide), f .windows (by decide), f .lanes (by decide), f .entries (by decide),
    f .load (by decide), f .loadErr (by decide), f .startInstant (by decide), f .startReached (by decide),
    f .sending (by decide)⟩

/-- The journal state a header calls for at a successful START (R190). -/
def JMode.startState : JMode → JState
  | .off => .off
  | .continuous => .recording
  | .triggered => .awaiting
  | .unassigned => .off

theorem State.startJournal_journal (s : State) :
    s.startJournal.journal = { Journal.zero with st := s.header.mode.startState } := by
  unfold State.startJournal JMode.startState
  refine (State.modJournal_journal _ _).trans ?_
  cases s.header.mode <;> rfl

theorem State.entered_journal (s : State) (im : Image) :
    (s.entered im).journal = { Journal.zero with st := im.header.mode.startState } := by
  unfold State.entered State.startBlocks
  exact State.startJournal_journal _

/-- At a successful START the journal's old request leaves the list (R190). -/
theorem State.entered_requests (s : State) (im : Image) :
    (s.entered im).requests = s.requests.filter fun r => !(r.who == .journal) := rfl

theorem State.entered_port (hp : s.port = none) : (s.entered im).port = none := by
  have e : (s.entered im).port = (s.withdraw .journal).port := rfl
  rw [e]
  unfold State.withdraw State.withdrawBy
  dsimp only
  rw [hp]

/-! ### The offer to a new journal (R185, R190) -/

/-- A journal that has just started takes the entry: it records and selects the kind, or awaits it. -/
def State.takesFirst (s : State) (k : Kind) : Prop :=
  s.journal.st = .recording ∧ s.selects k = true ∨ s.journal.st = .awaiting ∧ s.triggers k = true

/-- An entry taken by an empty journal is requested at once; no flag changes. -/
theorem State.acceptEntry_first (hq : s.journal.queue = []) (hw : s.journal.wordCount = 0) (e : JEntry) :
    (s.acceptEntry e).flags = s.flags ∧ (s.acceptEntry e).journal = { s.journal with queue := [e] } ∧
      (s.acceptEntry e).requests = s.requests ++ [s.firstWrite e] := by
  have room : s.journal.queue.length < Config.journalPlaces := by rw [hq]; decide
  refine ⟨by rw [State.acceptEntry_flags_eq, if_pos room], ?_, (s.acceptEntry_requests e).2 hq hw⟩
  have room8 : s.journal.queue.length < 8 := room
  rw [State.acceptEntry_journal, if_pos room8, hq]
  rfl

theorem State.offer_first {st : JState} (hj : s.journal = { Journal.zero with st := st }) (e : JEntry)
    (hk : e.kind = .runStarted) (ht : s.takesFirst e.kind) :
    (s.offer e).flags = s.flags ∧ (s.offer e).journal = { Journal.zero with st := .recording, queue := [e] } ∧
      (s.offer e).requests = s.requests ++ [s.firstWrite e] := by
  have queue : s.journal.queue = [] := by rw [hj]; rfl
  have count : s.journal.wordCount = 0 := by rw [hj]; rfl
  unfold State.offer
  rw [if_neg (by rw [hk]; decide)]
  rcases ht with ⟨h, hs⟩ | ⟨h, hs⟩ <;> rw [h]
  · dsimp only
    rw [if_pos hs]
    obtain ⟨flags, journal, requests⟩ := State.acceptEntry_first queue count e
    refine ⟨flags, ?_, requests⟩
    rw [journal, hj, ← h, hj]
  · dsimp only
    rw [if_pos hs]
    obtain ⟨flags, journal, requests⟩ := State.acceptEntry_first
      (s := s.modJournal fun j => { j with st := .recording }) queue count e
    refine ⟨flags, ?_, requests⟩
    rw [journal, State.modJournal_journal, hj]

theorem State.offer_passed {st : JState} (hj : s.journal = { Journal.zero with st := st }) (hh : st ≠ .halted)
    (e : JEntry) (ht : ¬ s.takesFirst e.kind) : s.offer e = s := by
  have hst : s.journal.st = st := by rw [hj]
  unfold State.takesFirst at ht
  unfold State.offer
  split
  · rfl
  · split
    · rfl
    · rfl
    · rfl
    · next h => exact if_neg fun hs => ht (.inr ⟨h, hs⟩)
    · next h => exact if_neg fun hs => ht (.inl ⟨h, hs⟩)
    · next h => exact absurd (hst.symm.trans h) hh

theorem JMode.startState_ne (m : JMode) : m.startState ≠ .halted := by cases m <;> nofun

/-! ### Frame starts at RUN entry (R109, R173) -/

/-- A frame that starts while no window has committed draws on neutral records, and holds nothing (R15, R97). -/
theorem State.frameStart_pool_empty (x : Fin 6) (fly : Bool) (hc : ∀ v : Fin 16, (s.pool v).committed = false)
    (w : Fin 16) : (s.frameStart x fly).pool w = s.pool w := by
  obtain ⟨only, bufs⟩ := s.frameStart_holds x fly w
  have empty : s.cueState w = .empty := by
    unfold State.cueState
    rw [hc w]
    simp
  have same : ((s.frameStart x fly).pool w).bufs = (s.pool w).bufs := Vector.ext fun k hk => by
    refine (bufs ⟨k, hk⟩).trans (if_neg fun h => ?_)
    rw [State.drawFor_empty empty] at h
    cases h.2
  unfold OnlyBuffers at only
  rw [only, same]

theorem State.masterDue_congr (x : Fin 6) (hd : t.dev = s.dev) (hs : t.startReached = s.startReached)
    (hl : t.lanes = s.lanes) (ht : t.timeBase = s.timeBase) (ho : t.out x = s.out x) :
    t.masterDue x = s.masterDue x := by
  unfold State.masterDue
  rw [hd, hs, State.outRec_congr hl, ho, ht]

/-- What the scheduled starts of a list of lanes do when no window has committed. -/
structure FirstStarts (l : List (Fin 6)) (d t : State) : Prop where
  frame : ChangesOnly [.outs, .pools, .requests] d t
  pools : ∀ w : Fin 16, t.pool w = d.pool w
  rest : ∀ x : Fin 6, ¬ (x ∈ l ∧ d.masterDue x = true) → t.out x = d.out x
  started : ∀ x ∈ l, d.masterDue x = true → ∃ draws plan asked, t.out x =
    { d.out x with nextStart := some (d.timeBase + BitVec.ofNat 32 (d.outRec x).period) }.begun1 d.timeBase false
      draws plan asked
  keep : ∀ r ∈ d.requests, r ∈ t.requests
  new : ∀ r ∈ t.requests, r ∈ d.requests ∨ ∃ x, r.who = .outLane x

theorem FirstStarts.nil (d : State) : FirstStarts [] d d :=
  ⟨.refl _ _, fun _ => rfl, fun _ _ => rfl, nofun, fun _ h => h, fun _ h => .inl h⟩

/-- One scheduled start. -/
theorem State.masterStart_firstStarts (d : State) (x : Fin 6) (hc : ∀ v : Fin 16, (d.pool v).committed = false)
    (hd : d.masterDue x = true) : FirstStarts [x] d (d.masterStart x) where
  frame := masterStart_frame d x
  pools := fun w => State.frameStart_pool_empty (s := d.modOut x _) x false hc w
  rest := fun z hz => by
    have e : z ≠ x := fun e => hz ⟨by rw [e]; exact List.mem_cons_self, by rw [e]; exact hd⟩
    unfold State.masterStart
    rw [State.frameStart_others _ _ _ z e, State.out_modOut, if_neg e]
  started := fun z hz _ => by
    rw [List.mem_singleton.1 hz]
    have out := State.frameStart_out (d.modOut x fun l =>
      { l with nextStart := some (d.timeBase + BitVec.ofNat 32 (d.outRec x).period) }) x false
    rw [State.out_modOut, if_pos rfl] at out
    exact ⟨_, _, _, out⟩
  keep := fun r hr => by
    unfold State.masterStart
    rcases State.frameStart_requests (d.modOut x _) x false with e | ⟨p, _, e⟩ <;> rw [e]
    · exact hr
    · exact List.mem_append_left _ hr
  new := fun r hr => by
    unfold State.masterStart at hr
    rcases State.frameStart_requests (d.modOut x _) x false with e | ⟨p, _, e⟩ <;> rw [e] at hr
    · exact .inl hr
    · rcases List.mem_append.1 hr with h | h
      · exact .inl h
      · rw [List.mem_singleton.1 h]
        exact .inr ⟨x, rfl⟩

/-- The lane `x` takes its scheduled start if it is due. -/
def State.startIfDue (d : State) (x : Fin 6) : State := if d.masterDue x then d.masterStart x else d

theorem State.startIfDue_firstStarts (d : State) (x : Fin 6) (hc : ∀ v : Fin 16, (d.pool v).committed = false) :
    FirstStarts [x] d (d.startIfDue x) := by
  unfold State.startIfDue
  cases hd : d.masterDue x with
  | true => exact d.masterStart_firstStarts x hc hd
  | false =>
    exact ⟨.refl _ _, fun _ => rfl, fun _ _ => rfl,
      fun z hz h => (by rw [List.mem_singleton.1 hz, hd] at h; cases h), fun _ h => h, fun _ h => .inl h⟩

/-- The starts of a list of lanes, each once. -/
theorem State.firstStarts (l : List (Fin 6)) (hl : l.Nodup) (d : State)
    (hc : ∀ v : Fin 16, (d.pool v).committed = false) : FirstStarts l d (l.foldl State.startIfDue d) := by
  induction l generalizing d with
  | nil => exact .nil d
  | cons x l ih =>
    obtain ⟨hx, hl⟩ := List.nodup_cons.1 hl
    have first := d.startIfDue_firstStarts x hc
    rw [List.foldl_cons]
    generalize d.startIfDue x = u at *
    have later := ih hl u fun v => by rw [first.pools]; exact hc v
    have outs : ∀ z, z ≠ x → u.out z = d.out z := fun z hz =>
      first.rest z fun h => hz (List.mem_singleton.1 h.1)
    have due : ∀ z, z ≠ x → u.masterDue z = d.masterDue z := fun z hz =>
      State.masterDue_congr z (first.frame .dev (by decide)) (first.frame .startReached (by decide))
        (first.frame .lanes (by decide)) (first.frame .timeBase (by decide)) (outs z hz)
    have here : (l.foldl State.startIfDue u).out x = u.out x := later.rest x fun h => hx h.1
    refine ⟨first.frame.trans later.frame, fun w => (later.pools w).trans (first.pools w), fun z hz => ?_,
      fun z hz hd => ?_, fun r hr => later.keep r (first.keep r hr), fun r hr => ?_⟩
    · by_cases e : z = x
      · subst e
        rw [here]
        exact first.rest z fun h => hz ⟨List.mem_cons_self, h.2⟩
      · rw [later.rest z fun h => hz ⟨List.mem_cons_of_mem _ h.1, by rw [← due z e]; exact h.2⟩, outs z e]
    · by_cases e : z = x
      · subst e
        rw [here]
        exact first.started z List.mem_cons_self hd
      · have hm : z ∈ l := (List.mem_cons.1 hz).resolve_left e
        obtain ⟨draws, plan, asked, h⟩ := later.started z hm (by rw [due z e]; exact hd)
        rw [outs z e, first.frame .timeBase (by decide),
          State.outRec_congr (first.frame .lanes (by decide))] at h
        exact ⟨draws, plan, asked, h⟩
    · exact (later.new r hr).elim (first.new r) .inr

/-- At the RUN entry the starts fall only if the start instant is the time base (R173). -/
theorem State.startAtEntry_later (h : s.startInstant ≠ s.timeBase) : s.startAtEntry = s := by
  unfold State.startAtEntry
  exact if_neg h

/-- The start instant has been taken (R173). -/
def State.reached (s : State) : State := { s with startReached := true }

theorem State.startAtEntry_now (h : s.startInstant = s.timeBase) :
    s.startAtEntry = allOuts.foldl State.startIfDue s.reached := by
  unfold State.startAtEntry
  exact if_pos h

/-- A lane at RUN entry is due when it is an enabled MASTER lane and the start instant is the time base. -/
theorem State.masterDue_start {x : Fin 6} (hr : s.dev = .run) (hs : s.startReached = true)
    (ho : s.out x = OutLane.start (s.outRec x) s.startInstant) (hi : s.startInstant = s.timeBase) :
    s.masterDue x = true ↔ (s.outRec x).enabled = true ∧ (s.outRec x).timing = .master := by
  unfold State.masterDue
  rw [ho, hr, hs, hi]
  unfold OutLane.start
  cases he : (s.outRec x).enabled <;> cases ht : (s.outRec x).timing <;> simp [OutLane.zero]

end

end Sys2Proof.Machine

/-! The end of a load, in SETUP or in RUN (R169, R171–R173): O29. -/

namespace Sys2Proof.Machine

section
variable {s t u c d f : State} {im : Image} {j : LoadJob} {v : Word} {r : Request}

/-! ### The read performed -/

theorem State.complete_read_frame (s : State) (hw : r.write = false) : ChangesOnly [.port] s (s.complete r) := by
  have mem : (s.complete r).mem = s.mem := by
    unfold State.complete Memory.perform
    rw [hw]
    rfl
  intro g hg
  by_cases e : g = .mem
  · subst e; exact mem
  · exact complete_frame s r g (by simpa [e] using hg)

theorem exec_loadReadPerformed (h : InProgress s r) (hq : r.who = .load) (hw : r.write = false) :
    exec .loadReadPerformed s = .next ((s.complete r).loadWord (s.mem.readWord r.adr)).regrant := by
  have e : exec .loadReadPerformed s = execLoadReadPerformed s := rfl
  have mem : (s.complete r).mem = s.mem := s.complete_read_frame hw .mem (by decide)
  rw [e, execLoadReadPerformed, State.performance_inProgress h _ _ (by simp [hq])]
  rw [mem]

/-- Word 7 ends the load when a header check fails (R169). -/
theorem State.loadWord_header (hl : c.load = some j) (hp : j.phase = .header) (hi : j.index = 7) {e : LoadError}
    (he : Image.headerError (j.shadow ++ [v]) = some e) : c.loadWord v = c.loadFailed e := by
  unfold State.loadWord
  rw [hl]
  dsimp only
  rw [hp]
  dsimp only
  rw [if_neg (by omega), he]

/-- The last word of the image is checked, and the load fails or the profile is adopted (R169, R171, R172). -/
theorem State.loadWord_last (hl : c.load = some j) (hp : j.phase = .body) (hn : j.length = some (j.index + 1))
    (h1 : j.index ≠ 1) : c.loadWord v =
      (Image.bodyError (j.shadow ++ [v]) c.base (crcWord j.crc v)).elim (c.runEntry (j.shadow ++ [v]))
        c.loadFailed := by
  unfold State.loadWord
  rw [hl]
  dsimp only
  rw [hp]
  dsimp only
  rw [if_neg (by rw [hn]; simp), if_neg h1]
  cases Image.bodyError (j.shadow ++ [v]) c.base (crcWord j.crc v) <;> rfl

/-! ### A load that fails (R171) -/

theorem State.loadFailed_ends (fc : ChangesOnly [.port] s c) (hp : c.port = none) (e : LoadError) :
    (c.loadFailed e).regrant.dev = .setup ∧ (c.loadFailed e).regrant.load = none ∧
      (c.loadFailed e).regrant.loadErr = e ∧
      Reported s (c.loadFailed e).regrant .loadFailed none (num e.check) (num e.index) ∧
      OthersWait .load s (c.loadFailed e).regrant ∧
      ChangesOnly [.dev, .load, .loadErr, .flags, .journal, .requests, .port, .copyPtr] s
        (c.loadFailed e).regrant := by
  have fu : ChangesOnly [.dev, .load, .loadErr] c { c with load := none, loadErr := e, dev := .setup } := by
    intro g hg
    cases g <;> first | exact absurd (by decide) hg | rfl
  have raises : c.loadFailed e = { c with load := none, loadErr := e, dev := .setup }.raise .loadFailed none
    (num e.check) (num e.index) := rfl
  have dev : ({ c with load := none, loadErr := e, dev := .setup } : State).dev = .setup := rfl
  have load : ({ c with load := none, loadErr := e, dev := .setup } : State).load = none := rfl
  have err : ({ c with load := none, loadErr := e, dev := .setup } : State).loadErr = e := rfl
  rw [raises]
  generalize ({ c with load := none, loadErr := e, dev := .setup } : State) = u at *
  have fs : ChangesOnly [.dev, .load, .loadErr, .port] s u := fc.andThen fu
  have reported : Reported s (u.raise .loadFailed none (num e.check) (num e.index)) .loadFailed none (num e.check)
      (num e.index) := State.raise_reported (fs .flags (by decide)) (fs .journal (by decide)) (fs .header (by decide))
    (fs .timeBase (by decide)) (by decide) _ _ _
  have waits := OthersWait.of_raise (q := .load) ((fu .port (by decide)).trans hp) (fs .requests (by decide))
    .loadFailed none (num e.check) (num e.index)
  have fr : ChangesOnly [.flags, .journal, .requests] u (u.raise .loadFailed none (num e.check) (num e.index)) :=
    raise_frame _ _ _ _ _
  generalize u.raise .loadFailed none (num e.check) (num e.index) = w at *
  have fg := regrant_frame w
  exact ⟨(fg .dev (by decide)).trans ((fr .dev (by decide)).trans dev),
    (fg .load (by decide)).trans ((fr .load (by decide)).trans load),
    (fg .loadErr (by decide)).trans ((fr .loadErr (by decide)).trans err),
    reported.of_eq (fg .flags (by decide)) (fg .journal (by decide)), waits,
    (fs.andThen fr (m := [.dev, .load, .loadErr, .flags, .journal, .requests, .port])).andThen fg⟩

/-! ### RUN_STARTED is raised (R172, R185, R190) -/

/-- The entry of RUN_STARTED (R193, R200). -/
def State.startedEntry (s : State) (im : Image) : JEntry :=
  { kind := .runStarted, source := none, time := s.timeBase, detail1 := s.startInstant
    detail2 := num im.header.imageLength }

/-- RUN_STARTED has been raised. -/
def State.startRaised (s : State) (im : Image) : State :=
  s.raise .runStarted none s.startInstant (num im.header.imageLength)

theorem State.runEntry_eq (s : State) (im : Image) : s.runEntry im = ((s.entered im).startRaised im).startAtEntry := rfl

theorem State.startRaised_frame (s : State) (im : Image) :
    ChangesOnly [.flags, .journal, .requests] s (s.startRaised im) := raise_frame _ _ _ _ _

theorem State.startRaised_takes {st : JState} (hj : s.journal = { Journal.zero with st := st })
    (ht : s.takesFirst .runStarted) :
    (s.startRaised im).flags = (s.setFlag .runStarted).flags ∧
      (s.startRaised im).journal = { Journal.zero with st := .recording, queue := [s.startedEntry im] } ∧
      (s.startRaised im).requests = s.requests ++ [s.firstWrite (s.startedEntry im)] :=
  State.offer_first (s := s.setFlag .runStarted) hj (s.startedEntry im) rfl ht

theorem State.startRaised_passes {st : JState} (hj : s.journal = { Journal.zero with st := st }) (hh : st ≠ .halted)
    (ht : ¬ s.takesFirst .runStarted) : s.startRaised im = s.setFlag .runStarted :=
  State.offer_passed (s := s.setFlag .runStarted) hj hh (s.startedEntry im) ht

/-- The flag is raised, and no other. -/
theorem State.startRaised_flags {st : JState} (hj : s.journal = { Journal.zero with st := st }) (hh : st ≠ .halted)
    (im : Image) : (s.startRaised im).flags = (s.setFlag .runStarted).flags := by
  by_cases ht : s.takesFirst .runStarted
  · exact (State.startRaised_takes hj ht).1
  · rw [State.startRaised_passes hj hh ht]

/-- The journal's queue holds the entry, which is requested, or nothing, and nothing is requested. -/
theorem State.startRaised_queue {st : JState} (hj : s.journal = { Journal.zero with st := st }) (hh : st ≠ .halted)
    (im : Image) :
    (s.startRaised im).journal.queue = [s.startedEntry im] ∧
        (s.startRaised im).requests = s.requests ++ [s.firstWrite (s.startedEntry im)] ∨
      (s.startRaised im).journal.queue = [] ∧ (s.startRaised im).requests = s.requests := by
  by_cases ht : s.takesFirst .runStarted
  · obtain ⟨_, journal, requests⟩ := State.startRaised_takes (im := im) hj ht
    exact .inl ⟨by rw [journal], requests⟩
  · rw [State.startRaised_passes hj hh ht]
    exact .inr ⟨congrArg Journal.queue hj, rfl⟩

/-! ### The starts that fall in the event (R173) -/

/-- What the start instant brings if it falls in the RUN entry. -/
structure RunStarts (d f : State) : Prop where
  frame : ChangesOnly [.startReached, .outs, .pools, .requests] d f
  reached : f.startReached = decide (d.startInstant = d.timeBase)
  pools : ∀ w : Fin 16, f.pool w = d.pool w
  rest : ∀ x : Fin 6, ¬ (d.startInstant = d.timeBase ∧ (d.outRec x).enabled = true ∧
    (d.outRec x).timing = .master) → f.out x = d.out x
  started : ∀ x : Fin 6, d.startInstant = d.timeBase → (d.outRec x).enabled = true →
    (d.outRec x).timing = .master → ∃ draws plan asked, f.out x =
      { d.out x with nextStart := some (d.timeBase + BitVec.ofNat 32 (d.outRec x).period) }.begun1 d.timeBase
        false draws plan asked
  keep : ∀ r ∈ d.requests, r ∈ f.requests
  new : ∀ r ∈ f.requests, r ∈ d.requests ∨ ∃ x, r.who = .outLane x

theorem State.startAtEntry_starts (hr : d.dev = .run) (hs : d.startReached = false)
    (ho : ∀ x, d.out x = OutLane.start (d.outRec x) d.startInstant)
    (hc : ∀ v : Fin 16, (d.pool v).committed = false) : RunStarts d d.startAtEntry := by
  by_cases hi : d.startInstant = d.timeBase
  · have first := State.firstStarts allOuts (by decide) d.reached hc
    have due : ∀ x, d.reached.masterDue x = true ↔ (d.outRec x).enabled = true ∧ (d.outRec x).timing = .master :=
      fun x => State.masterDue_start (s := d.reached) hr rfl (ho x) hi
    have fr : ChangesOnly [.startReached] d d.reached := by
      intro g hg
      cases g <;> first | exact absurd (by decide) hg | rfl
    rw [State.startAtEntry_now hi]
    generalize allOuts.foldl State.startIfDue d.reached = f at *
    have reached : f.startReached = true := first.frame .startReached (by decide)
    exact {
      frame := fr.andThen first.frame
      reached := by rw [reached, hi]; simp
      pools := first.pools
      rest := fun x h => first.rest x fun h' => h ⟨hi, (due x).1 h'.2⟩
      started := fun x _ he hm => first.started x (mem_allOuts x) ((due x).2 ⟨he, hm⟩)
      keep := first.keep
      new := first.new }
  · rw [State.startAtEntry_later hi]
    exact {
      frame := .refl _ _
      reached := by rw [hs]; simp [hi]
      pools := fun _ => rfl
      rest := fun _ _ => rfl
      started := fun x h => absurd h hi
      keep := fun _ h => h
      new := fun _ h => .inl h }

/-! ### The regrant (R73, R77) -/

/-- With a FREE port, what follows the regrant was on the list. -/
theorem State.follows_regrant_mem (hp : u.port = none) {q : Request} (h : Follows u.regrant q) : q ∈ u.requests := by
  rcases u.regrant_cases with ⟨e, _⟩ | ⟨p, _, hc, e⟩ <;> rw [e] at h
  · rcases h with h | h
    · exact h
    · rw [hp] at h; cases h
  · rcases h with h | h
    · exact List.mem_of_mem_erase h
    · cases h
      exact (u.choose_some hc).1

theorem State.regrant_copyPtr (h : ∀ q ∈ u.requests, ∀ w, q.who ≠ .copyJob w) : u.regrant.copyPtr = u.copyPtr := by
  rcases u.regrant_cases with ⟨e, _⟩ | ⟨p, _, hc, e⟩ <;> rw [e]
  have hn := h p ((u.choose_some hc).1)
  unfold State.grant
  dsimp only
  split
  · next w e => exact absurd e (hn w)
  · rfl

/-! ### The pools and the lanes at RUN entry (R12, R24, R86, R126) -/

/-- The pool of a window at RUN entry. -/
theorem Pool.start_facts (p : Pool) (r : WindowRec) (deadline : Word) :
    (p.start r deadline).expected = 1 ∧ (p.start r deadline).nextInbound = 1 ∧
      (p.start r deadline).lastOutcome = .none ∧ (p.start r deadline).lastSeq = 0 ∧
      (p.start r deadline).commits = 0 ∧ (p.start r deadline).job = none ∧
      (p.start r deadline).ownMark = false ∧ (p.start r deadline).committed = false ∧
      (p.start r deadline).timer = (if r.enabled = true ∧ 0 < r.timeout then some deadline else none) ∧
      ∀ k : Fin 8, (p.start r deadline).bufs[k] =
        if k = 0 ∧ r.enabled = true ∧ r.writer = .host then Buffer.allocated
        else { p.bufs[k] with st := .free, holders := HolderSet.empty, map := [] } := by
  have timer : (if r.enabled && decide (0 < r.timeout) then some deadline else none) =
      if r.enabled = true ∧ 0 < r.timeout then some deadline else none := by
    simp only [Bool.and_eq_true, decide_eq_true_eq]
  have bufs : ∀ k : Fin 8, (p.start r deadline).bufs[k] =
      if k = 0 ∧ r.enabled = true ∧ r.writer = .host then Buffer.allocated
      else { p.bufs[k] with st := .free, holders := HolderSet.empty, map := [] } := fun k => by
    rw [Pool.start_bufs]
    refine if_congr ?_ rfl rfl
    rw [WindowRec.isHost_iff]
    exact and_comm
  refine ⟨?_, ?_, ?_, ?_, ?_, ?_, ?_, ?_, ?_, bufs⟩
  case refine_9 => unfold Pool.start; dsimp only; split <;> exact timer
  all_goals unfold Pool.start; dsimp only; split <;> rfl

theorem OutLane.start_disabled {l : LaneRec} (h : l.enabled = false) (i : Word) : OutLane.start l i = OutLane.zero := by
  unfold OutLane.start
  rw [h]
  rfl

theorem OutLane.start_enabled {l : LaneRec} (h : l.enabled = true) (i : Word) : OutLane.start l i =
    { OutLane.zero with st := .waiting, nextStart := if l.timing = .master then some i else none } := by
  unfold OutLane.start
  rw [h]
  cases l.timing <;> rfl

/-! ### RUN entry as an event -/

/-- What a load whose checks pass leaves, seen from the state `s` of the last read (R172, R173, R190). -/
structure RunEntered (im : Image) (s t : State) : Prop where
  dev : t.dev = .run
  load : t.load = none
  loadErr : t.loadErr = { check := 0, index := 0 }
  header : t.header = im.header
  windows : t.windows = im.windowTable
  lanes : t.lanes = im.laneTable
  entries : t.entries = im.entryTable
  instant : t.startInstant = startInstantOf s.timeBase im.header.startDelay
  reached : t.startReached = decide (t.startInstant = s.timeBase)
  flags : t.flags = (s.setFlag .runStarted).flags
  sending : t.sending = Vector.replicate 6 false
  groups : t.groups = groupTable im.windowTable
  copyPtr : (∀ q ∈ s.requests, ∀ w, q.who ≠ .copyJob w) → t.copyPtr = 0
  pools : ∀ w : Fin 16, t.pool w =
    (s.pool w).start (t.win w) (s.timeBase + BitVec.ofNat 32 ((t.win w).timeout * 1000))
  outs : ∀ x : Fin 6, ¬ (t.startInstant = s.timeBase ∧ (t.outRec x).enabled = true ∧ (t.outRec x).timing = .master) →
    t.out x = OutLane.start (t.outRec x) t.startInstant
  started : ∀ x : Fin 6, t.startInstant = s.timeBase → (t.outRec x).enabled = true → (t.outRec x).timing = .master →
    ∃ draws plan asked, t.out x =
      { OutLane.start (t.outRec x) t.startInstant with
        nextStart := some (s.timeBase + BitVec.ofNat 32 (t.outRec x).period) }.begun1 s.timeBase false draws plan asked
  ins : ∀ y : Fin 2, t.inl y = InLane.start (t.inRec y)
  entryState : t.entryState = Vector.replicate 256 EntryState.zero
  journal : t.journal = ((s.entered im).startRaised im).journal
  queued : t.journal.queue = [(s.entered im).startedEntry im] ∧
      Follows t ((s.entered im).firstWrite ((s.entered im).startedEntry im)) ∨ t.journal.queue = []
  keep : ∀ q ∈ s.requests, q.who ≠ .journal → Follows t q
  new : ∀ q, Follows t q → (q ∈ s.requests ∧ q.who ≠ .journal) ∨ (∃ x, q.who = .outLane x) ∨
    t.journal.queue = [(s.entered im).startedEntry im] ∧
      q = (s.entered im).firstWrite ((s.entered im).startedEntry im)

/-- What the starts at RUN entry do, from the state in which RUN_STARTED has been raised. -/
theorem State.runEntry_starts (s : State) (im : Image) :
    RunStarts ((s.entered im).startRaised im) (s.runEntry im) := by
  obtain ⟨_, _, _, _, _, _, _, reached, _⟩ := s.entered_adopted im
  have fd := (s.entered im).startRaised_frame im
  have outs : ∀ x, ((s.entered im).startRaised im).out x =
      OutLane.start (((s.entered im).startRaised im).outRec x) ((s.entered im).startRaised im).startInstant :=
    fun x => by
      rw [State.out_congr (fd .outs (by decide)), State.outRec_congr (fd .lanes (by decide)),
        fd .startInstant (by decide)]
      exact s.entered_out im x
  refine State.startAtEntry_starts ((fd .dev (by decide)).trans (s.entered_dev im))
    ((fd .startReached (by decide)).trans reached) outs fun v => ?_
  rw [State.pool_congr (fd .pools (by decide)), s.entered_start_pool im]
  obtain ⟨_, _, _, _, _, _, _, committed, _⟩ := Pool.start_facts (s.pool v) ((s.entered im).win v)
    (s.timeBase + BitVec.ofNat 32 (((s.entered im).win v).timeout * 1000))
  exact committed

/-- The requests on the list after the RUN entry, before the regrant: the old ones but the journal's, one of
each lane that asks, and the journal's if it has taken RUN_STARTED (R76, R190). -/
theorem State.runEntry_requests (s : State) (im : Image) :
    (∀ q ∈ s.requests, q.who ≠ .journal → q ∈ (s.runEntry im).requests) ∧
      (((s.entered im).startRaised im).journal.queue = [(s.entered im).startedEntry im] ∧
          (s.entered im).firstWrite ((s.entered im).startedEntry im) ∈ (s.runEntry im).requests ∨
        ((s.entered im).startRaised im).journal.queue = []) ∧
      ∀ q ∈ (s.runEntry im).requests, (q ∈ s.requests ∧ q.who ≠ .journal) ∨ (∃ x, q.who = .outLane x) ∨
        ((s.entered im).startRaised im).journal.queue = [(s.entered im).startedEntry im] ∧
          q = (s.entered im).firstWrite ((s.entered im).startedEntry im) := by
  have starts := s.runEntry_starts im
  have queue := State.startRaised_queue (s.entered_journal im) im.header.mode.startState_ne im
  have old : ∀ q, q ∈ (s.entered im).requests ↔ q ∈ s.requests ∧ q.who ≠ .journal := fun q => by
    rw [s.entered_requests im]
    simp
  rcases queue with ⟨hj, e⟩ | ⟨hj, e⟩
  · refine ⟨fun q hq hw => starts.keep q ?_, .inl ⟨hj, starts.keep _ ?_⟩, fun q hq => ?_⟩
    · rw [e]
      exact List.mem_append_left _ ((old q).2 ⟨hq, hw⟩)
    · rw [e]
      exact List.mem_append_right _ (List.mem_singleton.2 rfl)
    · rcases starts.new q hq with h | h
      · rw [e] at h
        exact (List.mem_append.1 h).elim (fun h => .inl ((old q).1 h))
          fun h => .inr (.inr ⟨hj, List.mem_singleton.1 h⟩)
      · exact .inr (.inl h)
  · refine ⟨fun q hq hw => starts.keep q ?_, .inr hj, fun q hq => ?_⟩
    · rw [e]
      exact (old q).2 ⟨hq, hw⟩
    · rcases starts.new q hq with h | h
      · rw [e] at h
        exact .inl ((old q).1 h)
      · exact .inr (.inl h)

theorem State.runEntry_entered (im : Image) (hp : s.port = none) : RunEntered im s (s.runEntry im).regrant := by
  have starts := s.runEntry_starts im
  obtain ⟨keep, queued, listed⟩ := s.runEntry_requests im
  obtain ⟨header, windows, lanes, entries, load, loadErr, instant, reached, sending⟩ := s.entered_adopted im
  have dev := s.entered_dev im
  have groups := s.entered_groups im
  have copyPtr := s.entered_copyPtr im
  have pools := s.entered_start_pool im
  have outs := s.entered_out im
  have ins := s.entered_start_inl im
  have entryState := s.entered_entryState im
  have port := State.entered_port (im := im) hp
  have fb := s.entered_frame im
  have dflags := State.startRaised_flags (s.entered_journal im) im.header.mode.startState_ne im
  have fd := (s.entered im).startRaised_frame im
  generalize s.runEntry im = f at *
  generalize hb : s.entered im = b at *
  generalize hd : b.startRaised im = d at *
  have fg := regrant_frame f
  have ft : ChangesOnly [.flags, .journal, .startReached, .outs, .pools, .requests, .port, .copyPtr] b f.regrant :=
    (fd.andThen starts.frame (m := [.flags, .journal, .startReached, .outs, .pools, .requests])).andThen fg
  have time : d.timeBase = s.timeBase := (fd .timeBase (by decide)).trans (fb .timeBase (by decide))
  have inst : f.regrant.startInstant = d.startInstant :=
    (fg .startInstant (by decide)).trans (starts.frame .startInstant (by decide))
  have recs : ∀ x, f.regrant.outRec x = d.outRec x := fun x =>
    State.outRec_congr ((fg .lanes (by decide)).trans (starts.frame .lanes (by decide))) x
  have lane : ∀ x, d.outRec x = b.outRec x := fun x => State.outRec_congr (fd .lanes (by decide)) x
  have out : ∀ x, f.regrant.out x = f.out x := fun x => State.out_congr (fg .outs (by decide)) x
  have fport : f.port = none :=
    (starts.frame .port (by decide)).trans ((fd .port (by decide)).trans port)
  have jr : f.regrant.journal = d.journal :=
    (fg .journal (by decide)).trans (starts.frame .journal (by decide))
  exact {
    dev := (ft .dev (by decide)).trans dev
    load := (ft .load (by decide)).trans load
    loadErr := (ft .loadErr (by decide)).trans loadErr
    header := (ft .header (by decide)).trans header
    windows := (ft .windows (by decide)).trans windows
    lanes := (ft .lanes (by decide)).trans lanes
    entries := (ft .entries (by decide)).trans entries
    instant := (ft .startInstant (by decide)).trans instant
    reached := by rw [inst, fg .startReached (by decide), starts.reached, time]
    flags := (fg .flags (by decide)).trans ((starts.frame .flags (by decide)).trans
      (dflags.trans (State.setFlag_flags_congr (fb .flags (by decide)) _)))
    sending := (ft .sending (by decide)).trans sending
    groups := (ft .groups (by decide)).trans groups
    copyPtr := fun hw => by
      have none : ∀ q ∈ f.requests, ∀ w, q.who ≠ .copyJob w := fun q hq w e => by
        rcases listed q hq with ⟨h, _⟩ | ⟨x, h⟩ | ⟨_, h⟩
        · exact hw q h w e
        · rw [e] at h; cases h
        · rw [h] at e; cases e
      rw [State.regrant_copyPtr none, starts.frame .copyPtr (by decide), fd .copyPtr (by decide), copyPtr]
    pools := fun w => by
      rw [State.pool_congr (fg .pools (by decide)), starts.pools, State.pool_congr (fd .pools (by decide)),
        pools, State.win_congr (ft .windows (by decide))]
    outs := fun x h => by
      rw [inst, recs, ← time] at h
      rw [out, starts.rest x h, State.out_congr (fd .outs (by decide)), outs, recs, inst, lane,
        fd .startInstant (by decide)]
    started := fun x hi he hm => by
      rw [inst, ← time] at hi
      rw [recs] at he hm
      have begins := starts.started x hi he hm
      rw [lane, State.out_congr (fd .outs (by decide)), outs, time] at begins
      rw [out, recs, lane, inst, fd .startInstant (by decide)]
      exact begins
    ins := fun y => by
      rw [State.inl_congr (ft .ins (by decide)), ins, State.inRec_congr (ft .lanes (by decide))]
    entryState := (ft .entryState (by decide)).trans entryState
    journal := by rw [hb, hd, jr]
    queued := by
      rw [hb, jr]
      exact queued.imp_left fun h => ⟨h.1, State.follows_regrant h.2⟩
    keep := fun q hq hj => State.follows_regrant (keep q hq hj)
    new := fun q hq => by
      rw [hb, jr]
      exact listed q (State.follows_regrant_mem fport hq) }

/-! ### The journal at RUN entry (R190, R193) -/

theorem State.entered_startedEntry (s : State) (im : Image) : (s.entered im).startedEntry im =
    { kind := .runStarted, source := none, time := s.timeBase
      detail1 := startInstantOf s.timeBase im.header.startDelay, detail2 := num im.header.imageLength } := by
  obtain ⟨_, _, _, _, _, _, instant, _, _⟩ := s.entered_adopted im
  unfold State.startedEntry
  rw [s.entered_frame im .timeBase (by decide), instant]

theorem State.entered_firstWrite (s : State) (im : Image) (e : JEntry) : (s.entered im).firstWrite e =
    { who := .journal, write := true, adr := memAdr im.header.ringAddr, be := 0xF, data := e.word 0
      urgent := false } := by
  obtain ⟨header, _⟩ := s.entered_adopted im
  unfold State.firstWrite
  rw [header, s.entered_journal im]
  rfl

/-- The new journal takes RUN_STARTED when it records it or awaits it. -/
theorem State.entered_takesFirst (s : State) (im : Image) : (s.entered im).takesFirst .runStarted ↔
    im.header.mode = .continuous ∧ im.header.selected.getLsbD 13 = true ∨
      im.header.mode = .triggered ∧ im.header.trigger = 13 := by
  obtain ⟨header, _⟩ := s.entered_adopted im
  unfold State.takesFirst State.selects State.triggers
  rw [header, s.entered_journal im]
  cases im.header.mode <;> simp [JMode.startState, Kind.code]

/-- The journal once RUN_STARTED has been raised. -/
theorem State.entered_startRaised_journal (s : State) (im : Image) [Decidable ((s.entered im).takesFirst .runStarted)] :
    ((s.entered im).startRaised im).journal =
      if (s.entered im).takesFirst .runStarted then
        { Journal.zero with st := .recording, queue := [(s.entered im).startedEntry im] }
      else { Journal.zero with st := im.header.mode.startState } := by
  split
  · next h => exact (State.startRaised_takes (s.entered_journal im) h).2.1
  · next h =>
    rw [State.startRaised_passes (s.entered_journal im) im.header.mode.startState_ne h]
    exact s.entered_journal im

/-! ### What the statement says of the lanes -/

section
variable (h : RunEntered im s t)
include h

theorem RunEntered.out_disabled (x : Fin 6) (hx : (t.outRec x).enabled = false) : t.out x = OutLane.zero := by
  rw [h.outs x fun ⟨_, he, _⟩ => by rw [hx] at he; cases he]
  exact OutLane.start_disabled hx _

theorem RunEntered.out_waits (x : Fin 6) (hx : (t.outRec x).enabled = true)
    (hi : t.startInstant ≠ s.timeBase ∨ (t.outRec x).timing = .follower) : t.out x =
      { OutLane.zero with
        st := .waiting, nextStart := if (t.outRec x).timing = .master then some t.startInstant else none } := by
  rw [h.outs x fun ⟨now, _, hm⟩ => hi.elim (absurd now) fun hf => by rw [hm] at hf; cases hf]
  exact OutLane.start_enabled hx _

theorem RunEntered.out_begins (x : Fin 6) (hx : (t.outRec x).enabled = true) (hm : (t.outRec x).timing = .master)
    (hi : t.startInstant = s.timeBase) :
    (t.out x).st = .sending ∧ (t.out x).begun = 1 ∧ (t.out x).frameNo = 1 ∧
      (t.out x).frameTime = s.timeBase ∧ (t.out x).line = some 1 ∧ (t.out x).flags = FrameFlags.zero ∧
      (t.out x).nextStart = some (s.timeBase + BitVec.ofNat 32 (t.outRec x).period) := by
  obtain ⟨draws, plan, asked, e⟩ := h.started x hi hx hm
  rw [e, OutLane.start_enabled hx]
  exact ⟨rfl, rfl, rfl, rfl, rfl, rfl, rfl⟩

/-- The journal of a RUN entry, by the header's mode (R190). -/
theorem RunEntered.journal_modes (started : JEntry) (hs : (s.entered im).startedEntry im = started) :
    (t.header.mode = .off → t.journal = Journal.zero) ∧
      (t.header.mode = .continuous → t.journal = { Journal.zero with
        st := .recording, queue := if t.header.selected.getLsbD 13 = true then [started] else [] }) ∧
      (t.header.mode = .triggered → t.journal =
        if t.header.trigger = 13 then { Journal.zero with st := .recording, queue := [started] }
        else { Journal.zero with st := .awaiting }) := by
  classical
  have takes := s.entered_takesFirst im
  rw [h.header, h.journal, s.entered_startRaised_journal im, hs]
  refine ⟨fun hm => ?_, fun hm => ?_, fun hm => ?_⟩ <;> rw [hm] at takes ⊢
  · rw [if_neg fun h => by simpa using takes.1 h]
    rfl
  · have takes : (s.entered im).takesFirst .runStarted ↔ im.header.selected.getLsbD 13 = true := by simp [takes]
    by_cases hb : im.header.selected.getLsbD 13 = true
    · rw [if_pos (takes.2 hb), if_pos hb]
    · rw [if_neg (mt takes.1 hb), if_neg hb]
      rfl
  · exact if_congr (by simp [takes]) rfl rfl

/-- The entry in the new journal's queue is requested, and nothing else of the journal (R76, R190). -/
theorem RunEntered.journal_asks (e : JEntry) (he : t.journal.queue = [e]) :
    Follows t { who := .journal, write := true, adr := memAdr t.header.ringAddr, be := 0xF, data := e.word 0
                urgent := false } := by
  rw [h.header]
  rcases h.queued with ⟨hj, hf⟩ | hj <;> rw [hj] at he
  · cases he
    exact s.entered_firstWrite im _ ▸ hf
  · cases he

theorem RunEntered.journal_asked (q : Request) (hf : Follows t q) (hq : q.who = .journal) :
    ∃ e, t.journal.queue = [e] ∧ q = { who := .journal, write := true, adr := memAdr t.header.ringAddr, be := 0xF
                                       data := e.word 0, urgent := false } := by
  rw [h.header]
  rcases h.new q hf with ⟨_, hn⟩ | ⟨x, hx⟩ | ⟨hj, hw⟩
  · exact absurd hq hn
  · rw [hq] at hx
    cases hx
  · exact ⟨_, hj, hw.trans (s.entered_firstWrite im _)⟩

theorem RunEntered.others_asked (q : Request) (hf : Follows t q) (hq : q.who ≠ .journal) :
    q ∈ s.requests ∨ ∃ x, q.who = .outLane x := by
  rcases h.new q hf with ⟨hm, _⟩ | hx | ⟨_, hw⟩
  · exact .inl hm
  · exact .inr hx
  · exact absurd (hw ▸ rfl) hq

theorem RunEntered.groups_iff (g : Fin 4) (w : Fin 16) : t.groups[g][w] = true ↔
    (t.win w).enabled = true ∧ (t.win w).group = .member g := by
  have win : t.win w = im.windowTable[w] := congrArg (·[w]) h.windows
  rw [h.groups, win]
  exact groupTable_iff _ g w

theorem RunEntered.raised : t.raised .runStarted = true ∧ FlagsKept [.runStarted] s t := by
  have same : ∀ k, t.raised k = (s.setFlag .runStarted).raised k := fun k => by
    unfold State.raised
    rw [h.flags]
  refine ⟨?_, fun k hk => (same k).trans (s.setFlag_kept .runStarted k hk)⟩
  rw [same, State.raised_setFlag]
  simp

end

end

/-- Settles O29: a failed check ends the load in SETUP with LOAD_FAILED raised; an image that passes every
check is adopted, and the RUN entry takes its START values, the offer of RUN_STARTED to the new journal and the
first frame starts one after the other. -/
theorem loadEndsInSetupOrRun : Obligations.LoadEndsInSetupOrRun := by
  unfold Obligations.LoadEndsInSetupOrRun
  refine ⟨fun s r j e hp hq hw hl hj hi he => ?_, fun s r j v im crc hp hq hw hl hv him hj hn h1 hcrc => ?_⟩
  · have step := exec_loadReadPerformed hp hq hw
    rw [State.loadWord_header (c := s.complete r) hl hj hi he] at step
    exact ⟨_, step, State.loadFailed_ends (s.complete_read_frame hw) rfl e⟩
  have step := exec_loadReadPerformed hp hq hw
  have fc := s.complete_read_frame hw
  have base : (s.complete r).base = s.base := by
    unfold State.base
    rw [fc .straps (by decide)]
  have port : (s.complete r).port = none := rfl
  rw [← hv, State.loadWord_last (c := s.complete r) (hl : (s.complete r).load = some j) hj hn h1, ← him, base] at step
  have hcrc : crcWord j.crc v = crc := hcrc.symm
  rw [hcrc] at step
  generalize s.complete r = c at *
  refine ⟨fun e he => ?_, fun he => ?_⟩ <;> rw [he] at step
  · exact ⟨_, step, State.loadFailed_ends fc port e⟩
  have h := State.runEntry_entered (s := c) im port
  have fe := (runEntry_frame c im).trans ((regrant_frame (c.runEntry im)).mono (by decide))
  change exec .loadReadPerformed s = .next (c.runEntry im).regrant at step
  generalize (c.runEntry im).regrant = t at *
  have time : c.timeBase = s.timeBase := fc .timeBase (by decide)
  have requests : c.requests = s.requests := fc .requests (by decide)
  have entry : (c.entered im).startedEntry im =
      { kind := .runStarted, source := none, time := s.timeBase, detail1 := t.startInstant
        detail2 := num im.header.imageLength } := by
    rw [c.entered_startedEntry im, h.instant, time]
  obtain ⟨off, continuous, triggered⟩ := h.journal_modes _ entry
  obtain ⟨raised, kept⟩ := h.raised
  have flags : FlagsKept [.runStarted] s t := (FlagsKept.of_eq (fc .flags (by decide))).trans kept
  have pools : ∀ w : Fin 16, t.pool w =
      (s.pool w).start (t.win w) (s.timeBase + BitVec.ofNat 32 ((t.win w).timeout * 1000)) := fun w => by
    rw [h.pools, time, State.pool_congr (fc .pools (by decide))]
  have instant := h.instant
  have reached := h.reached
  have copyPtr := h.copyPtr
  have waits := h.out_waits
  have begins := h.out_begins
  have keep := h.keep
  have asked := h.others_asked
  rw [time] at instant reached
  rw [requests] at copyPtr keep
  simp only [time] at waits begins
  simp only [requests] at asked
  exact ⟨t, step, h.dev, h.load, h.loadErr, h.header, h.windows, h.lanes, h.entries, instant, reached, raised,
    flags, h.sending, h.groups_iff, copyPtr, fun w => pools w ▸ Pool.start_facts _ _ _, h.out_disabled, waits,
    begins, fun y => h.ins y, h.entryState, off, continuous, triggered, h.journal_asks, keep, asked,
    h.journal_asked, (fc.mono (by decide)).trans fe⟩

end Sys2Proof.Machine

/-! SUPPORT. The outcome of a close as the first case of its table that holds (R32). -/

namespace Sys2Proof.Machine

/-! ### The first case that holds -/

/-- One line of a table of cases: it decides where its condition holds, and the lines below it elsewhere. -/
theorem firstCase_cons {α : Type} (p : Prop) [Decidable p] (a d : α) (l : List (Bool × α)) :
    ((((decide p, a) :: l).find? fun c => c.1).map fun c => c.2).getD d =
      if p then a else ((l.find? fun c => c.1).map fun c => c.2).getD d := by
  by_cases h : p <;> simp [h]

theorem Pool.fillingTouched_of_find {p : Pool} {k : Fin 8} (h : p.find .filling = some k) :
    p.fillingTouched = (p.bufs[k].map).touched := by
  unfold Pool.fillingTouched
  rw [h]

/-- Settles O7: each test of the decision is the condition of its line of the table, the maps being read in
the FILLING buffer. -/
theorem closeOutcomeIsTheFirstCaseThatHolds : Obligations.CloseOutcomeIsTheFirstCaseThatHolds := by
  intro s w x
  refine ⟨fun h => if_pos h, fun hd hw => (if_neg hd).trans (if_pos hw), fun k hk => ?_⟩
  simp only [firstCase_cons, List.find?_nil, Option.map_none, Option.getD_none]
  unfold State.closeOutcome
  rw [Pool.fillingTouched_of_find hk, State.fillingFull_of_find hk]
  simp only [Pool.isCommitting_iff, WMap.full_false_iff, State.freeBuffer_none, closeCount, closeSeq]

end Sys2Proof.Machine

/-! SUPPORT. A refused close (R33). -/

namespace Sys2Proof.Machine

section
variable {s : State} {x : HostWrite} {w : Fin 16}

theorem State.decideClose_refused (ho : s.closeOutcome w x ≠ .accepted) :
    s.decideClose w x = s.refuseClose w x (s.closeOutcome w x) := by
  unfold State.decideClose
  split
  · next e _ _ => exact absurd e ho
  · next e _ => exact absurd e ho
  · rfl

/-- A refusal decides on the parts that the head's leaving the queue does not touch. -/
theorem State.takeHead_decideClose_refused (ho : s.closeOutcome w x ≠ .accepted) :
    s.takeHead.decideClose w x = s.takeHead.refuseClose w x (s.closeOutcome w x) := by
  obtain ⟨q, v, hu⟩ := s.takeHead_eq
  rw [hu]
  exact State.decideClose_refused (s := { s with queue := q, waiting := v }) ho

/-- The outcome recorded in the pool, before the raise. -/
theorem State.takeHead_outcome_frame (s : State) (w : Fin 16) (o : CloseOutcome) :
    ChangesOnly [.queue, .waiting, .pools] s (s.takeHead.modPool w fun p => { p with lastOutcome := o }) :=
  (takeHead_frame s).andThen (modPool_frame s.takeHead w _)

theorem State.takeHead_outcome_pool (s : State) (w : Fin 16) (o : CloseOutcome) (v : Fin 16) :
    (s.takeHead.modPool w fun p => { p with lastOutcome := o }).pool v =
      if v = w then { s.pool w with lastOutcome := o } else s.pool v := by
  have pools := takeHead_frame s .pools (by decide)
  rw [State.pool_modPool, State.pool_congr pools, State.pool_congr pools]

end

/-- Settles O8: the outcome in the record and the raise, over the head's leaving the queue. -/
theorem refusedCloseIsRecordedAndReported : Obligations.RefusedCloseIsRecordedAndReported := by
  intro s x w hx hn ht ho
  rw [State.closeRequest_next hx ht, State.takeHead_decideClose_refused ho]
  unfold State.refuseClose closeCount
  generalize s.closeOutcome w x = o at ho ⊢
  have fu := s.takeHead_outcome_frame w o
  have taken : HeadTaken s (s.takeHead.modPool w fun p => { p with lastOutcome := o }) :=
    s.takeHead_taken.of_eq rfl rfl
  have pool := s.takeHead_outcome_pool w o
  generalize (s.takeHead.modPool w fun p => { p with lastOutcome := o }) = u at fu taken pool ⊢
  generalize (if o = .malformed ∧ x.be ≠ 0xF then 0 else (loHalf x.data).setWidth 32 : Word) = d
  have flags := fu .flags (by decide)
  have journal := fu .journal (by decide)
  have header := fu .header (by decide)
  have time := fu .timeBase (by decide)
  have port := fu .port (by decide)
  have requests := fu .requests (by decide)
  have fr := raise_frame u .closeRefused (some w.val) (num o.code) d
  have fa := arrivals_frame (u.raise .closeRefused (some w.val) (num o.code) d)
  have asks : OnlyRequestsOf .host s (u.raise .closeRefused (some w.val) (num o.code) d) :=
    (OnlyRequestsOf.of_eq requests port).trans (State.raise_onlyRequestsOf _ _ _ _ _ _)
  have pools : ∀ v, (u.raise .closeRefused (some w.val) (num o.code) d).arrivals.pool v = u.pool v := fun v =>
    (State.arrivals_pool _ v).trans (State.pool_congr (fr .pools (by decide)) v)
  refine ⟨_, rfl, ?_, ?_, fun v hv => ?_, ⟨?_, ?_⟩, ?_⟩
  · exact taken.of_eq ((fa .queue (by decide)).trans (fr .queue (by decide)))
      ((fa .waiting (by decide)).trans (fr .waiting (by decide)))
  · rw [pools, pool, if_pos rfl]
  · rw [pools, pool, if_neg hv]
  · exact (State.raise_reported flags journal header time (by decide) _ _ _).of_eq (fa .flags (by decide))
      (fa .journal (by decide))
  · exact State.raise_onlyJournalRequests hn journal header time port requests _ _ _ _
  · have free : (u.raise .closeRefused (some w.val) (num o.code) d).port = none → s.port = none := fun e =>
      port.symm.trans ((fr .port (by decide)).symm.trans e)
    exact (State.arrivals_frame_of (q := .host) (l := [.queue, .waiting, .pools, .flags, .journal, .requests])
      hn nofun asks free (fu.andThen fr) (by decide)).mono (by decide)

end Sys2Proof.Machine

/-! SUPPORT. The performance of the access in progress: the bytes it stores, the grant that follows, and the
accesses whose requester has withdrawn (R41, R73, R75, R76, R120, R161, R175, R190). -/

namespace Sys2Proof.Machine

section
variable {s t u : State}

/-! ### The grant after a performance (R73, R76) -/

/-- MA's choice reads the inbound lanes, for their urgency, and the copy pointer, and nothing else. -/
theorem State.choose_congr (hi : t.ins = s.ins) (hc : t.copyPtr = s.copyPtr) (l : List Request) :
    t.choose l = s.choose l := by
  have rank : ∀ r, t.rank r = s.rank r := fun r => by
    have order : t.orderOf r = s.orderOf r := by
      unfold State.orderOf
      cases r.who <;> simp only [State.inl_congr hi]
    have place : t.placeOf r = s.placeOf r := by
      unfold State.placeOf
      rw [hc]
    unfold State.rank
    rw [order, place]
  induction l with
  | nil => rfl
  | cons r rs ih =>
    unfold State.choose
    rw [ih]
    simp only [rank]

/-- A performance whose reaction leaves the requests grants as MA chooses before it. -/
theorem State.regranted_of (hp : u.port = none) (hr : u.requests = s.requests) (hi : u.ins = s.ins)
    (hc : u.copyPtr = s.copyPtr) : Regranted s u.regrant := by
  have choose : u.choose u.requests = s.choose s.requests := by rw [hr, State.choose_congr hi hc]
  unfold Regranted
  split
  · next r e =>
    rw [State.regrant_of_choose hp (choose.trans e)]
    exact ⟨rfl, congrArg (fun l => List.erase l r) hr⟩
  · next e =>
    have empty : u.requests = [] := (u.choose_none _).1 (choose.trans e)
    have same : u.regrant = u := by
      unfold State.regrant
      rw [hp, empty]
      rfl
    rw [same]
    exact ⟨hp, empty⟩

/-! ### Every performance (R73, R80) -/

theorem State.performance_port {a : Access} (hr : s.rst = false) (hp : s.port = some a) {about : Request → Bool}
    (ha : about a.req = true) (react drop : Request → State → State) :
    s.performance about react drop = .next
      ((if a.withdrawn then drop a.req (s.complete a.req) else react a.req (s.complete a.req)).regrant) := by
  unfold State.performance
  rw [hp]
  simp [hr, ha]

theorem Request.laneReact_withdrawn {r : Request} {x : Fin 6} (hx : r.who = .outLane x) (s : State) :
    r.laneReact true s = s.tryFetch x := by
  unfold Request.laneReact
  rw [hx]
  rfl

theorem Request.laneReact_other {r : Request} (hn : ∀ x, r.who ≠ .outLane x) (b : Bool) (s : State) :
    r.laneReact b s = s := by
  unfold Request.laneReact
  split
  · next x e => exact absurd e (hn x)
  · rfl

/-- A performance other than a lane fetch, as `exec_of_performs` puts it. -/
theorem State.performance_drops {a : Access} (hr : s.rst = false) (hp : s.port = some a) (about : Request → Bool)
    (react : Request → State → State) (ha : about a.req = true) (hn : ∀ x, a.req.who ≠ .outLane x) :
    s.performance about react (fun _ t => t) = .next
      ((if a.withdrawn then a.req.laneReact true (s.complete a.req)
        else react a.req (s.complete a.req)).regrant) := by
  rw [Request.laneReact_other hn]
  exact State.performance_port hr hp ha _ _

/-- The reaction to a performance leaves cue memory, and that to a withdrawn requester's access is the outbound
lane's fetching on. -/
theorem exec_of_performs {c : Instr} {a : Access} (hc : performs c a.req = true) (hr : s.rst = false)
    (hp : s.port = some a) : ∃ react : Request → State → State,
    exec c s = .next ((if a.withdrawn then a.req.laneReact true (s.complete a.req)
      else react a.req (s.complete a.req)).regrant) ∧
    ∀ r v, (react r v).mem = v.mem := by
  unfold performs at hc
  split at hc
  case h_1 hw =>
    exact ⟨fun r t => t.hostWord r, State.performance_drops hr hp (fun r => r.who == .host)
      (fun r t => t.hostWord r) (by simp [hw]) (by rw [hw]; nofun),
      fun r v => hostWord_frame v r .mem (by decide)⟩
  case h_2 x hw =>
    exact ⟨Request.laneReact (discard := false), State.performance_port hr hp (about := Request.isLaneFetch)
      (by simp [Request.isLaneFetch, hw]) (Request.laneReact (discard := false))
      (Request.laneReact (discard := true)), fun r v => laneReact_frame r false v .mem (by decide)⟩
  case h_3 y hw =>
    exact ⟨Request.inboundReact, State.performance_drops hr hp Request.isInbound Request.inboundReact
      (by simp [Request.isInbound, hw]) (by rw [hw]; nofun), fun r v => inboundReact_frame r v .mem (by decide)⟩
  case h_4 w hw =>
    exact ⟨Request.copyReadReact, State.performance_drops hr hp (fun r => r.isCopy false) Request.copyReadReact
      (by simpa [Request.isCopy, hw] using hc) (by rw [hw]; nofun),
      fun r v => copyReadReact_frame r v .mem (by decide)⟩
  case h_5 w hw =>
    exact ⟨Request.copyWriteReact, State.performance_drops hr hp (fun r => r.isCopy true) Request.copyWriteReact
      (by simpa [Request.isCopy, hw] using hc) (by rw [hw]; nofun),
      fun r v => copyWriteReact_frame r v .mem (by decide)⟩
  case h_6 hw =>
    exact ⟨fun r t => t.loadWord (t.mem.readWord r.adr), State.performance_drops hr hp (fun r => r.who == .load)
      (fun r t => t.loadWord (t.mem.readWord r.adr)) (by simp [hw]) (by rw [hw]; nofun),
      fun r v => loadWord_frame v _ .mem (by decide)⟩
  case h_7 hw =>
    exact ⟨fun _ t => t.journalWord, State.performance_drops hr hp (fun r => r.who == .journal)
      (fun _ t => t.journalWord) (by simp [hw]) (by rw [hw]; nofun),
      fun _ v => journalWord_frame v .mem (by decide)⟩
  case h_8 => cases hc

/-- The memory after an access performed. -/
theorem Memory.readByte_perform {m : Memory} (hm : m.wf) (r : Request) (n : Nat) : (m.perform r).readByte n =
    if r.write = true ∧ MemAdr.byte r.adr ≤ n ∧ n < MemAdr.byte r.adr + 4 ∧
        r.be.getLsbD (n - MemAdr.byte r.adr) = true then
      byteOf r.data (n - MemAdr.byte r.adr)
    else m.readByte n := by
  unfold Memory.perform
  cases h : r.write with
  | false => simp
  | true => simp [Memory.readByte_writeWord _ _ _ _ _ hm]

/-! ### Withdrawn accesses (R75, R120) -/

/-- The access of a withdrawn requester performed, with nothing asked for in its place. -/
theorem State.dropped_frame (s : State) (r : Request) :
    Regranted s (s.complete r).regrant ∧
      ChangesOnly [.mem, .requests, .port, .copyPtr] s (s.complete r).regrant :=
  ⟨State.regranted_of rfl rfl rfl rfl, (s.complete_congr r).andThen (regrant_frame _)⟩

variable {x : Fin 6} {r : Request}

theorem State.mayFetch_complete (hl : Requester.outLane x ∉ s.requests.map Request.who) :
    (s.complete r).mayFetch x ↔
      (s.out x).st = .sending ∧ (s.out x).asked = none ∧ (s.out x).fetch.length < 8 := by
  have listed : (s.complete r).listed (.outLane x) = false := (State.listed_eq_false _ _).2 hl
  unfold State.mayFetch
  rw [listed]
  simp [State.complete, State.inProgress, Config.fetchPlaces, State.out]

theorem State.drop_fetches (hl : Requester.outLane x ∉ s.requests.map Request.who) {p : PlanWord}
    {ps : List PlanWord} (hp : (s.out x).plan = p :: ps) (hst : (s.out x).st = .sending)
    (ha : (s.out x).asked = none) (hf : (s.out x).fetch.length < 8) : (s.complete r).tryFetch x =
      ((s.complete r).modOut x fun l => { l with plan := ps, asked := some p }).join
        (fetchOf x p (decide ((s.entry p.entry).slot + 3 < (s.out x).begun))) := by
  have may := (State.mayFetch_complete (r := r) hl).2 ⟨hst, ha, hf⟩
  rcases (s.complete r).tryFetch_cases x with ⟨h, _⟩ | ⟨q, qs, hq, _, e⟩
  · rcases h with h | h
    · exact absurd (h.symm.trans hp) nofun
    · exact absurd may h
  · obtain ⟨rfl, rfl⟩ : q = p ∧ qs = ps := by simpa using hq.symm.trans hp
    exact e

theorem State.drop_rests (hl : Requester.outLane x ∉ s.requests.map Request.who)
    (h : (s.out x).st ≠ .sending ∨ (s.out x).asked ≠ none ∨ 8 ≤ (s.out x).fetch.length ∨ (s.out x).plan = []) :
    (s.complete r).tryFetch x = s.complete r := by
  rcases (s.complete r).tryFetch_cases x with ⟨_, e⟩ | ⟨q, qs, hq, hm, _⟩
  · exact e
  · obtain ⟨hst, ha, hf⟩ := (State.mayFetch_complete hl).1 hm
    rcases h with h | h | h | h
    · exact absurd hst h
    · exact absurd ha h
    · omega
    · exact absurd (hq.symm.trans h) nofun

end

/-- Settles O22: what an access leaves in memory, and what is left of one whose requester has withdrawn. -/
theorem performanceStoresExactlyTheEnabledBytes : Obligations.PerformanceStoresExactlyTheEnabledBytes := by
  refine ⟨fun c s a hc hr hp hm => ?_, fun c s a hc hr hp hw => ?_⟩
  · obtain ⟨react, e, mem⟩ := exec_of_performs hc hr hp
    refine ⟨_, e, fun n => ?_⟩
    rw [regrant_frame _ .mem (by decide), ← Memory.readByte_perform hm]
    split
    · rw [laneReact_frame a.req true _ .mem (by decide)]
      rfl
    · rw [mem]
      rfl
  · obtain ⟨react, e, -⟩ := exec_of_performs hc hr hp
    rw [hw, if_pos rfl] at e
    refine ⟨fun hn => ?_, fun x hx hl => ?_⟩
    · rw [Request.laneReact_other hn] at e
      exact ⟨_, e, s.dropped_frame a.req⟩
    · rw [Request.laneReact_withdrawn hx] at e
      have outs : ((s.complete a.req).tryFetch x).regrant.outs = ((s.complete a.req).tryFetch x).outs :=
        regrant_frame _ .outs (by decide)
      obtain ⟨here, others⟩ := (s.complete a.req).tryFetch_out x
      refine ⟨_, e, fun z hz => ?_, ?_, fun hst ha hf p ps hpl => ?_, fun h => ?_, ?_⟩
      · rw [State.out_congr outs]
        exact others z hz
      · rw [State.out_congr outs, here]
        rfl
      · have next := State.drop_fetches (r := a.req) hl hpl hst ha hf
        refine ⟨?_, ?_, ?_⟩
        · rw [State.out_congr outs, next, State.out_congr (State.join_outs _ _), State.out_modOut, if_pos rfl]
        · rw [State.out_congr outs, next, State.out_congr (State.join_outs _ _), State.out_modOut, if_pos rfl]
        · rw [next]
          exact State.follows_join _ _
      · rw [State.drop_rests hl h]
        obtain ⟨regranted, frame⟩ := s.dropped_frame a.req
        exact ⟨State.out_congr (frame .outs (by decide)) x, regranted⟩
      · exact (((s.complete_congr a.req).andThen (tryFetch_frame _ x)
          (m := [.mem, .port, .outs, .requests])).andThen (regrant_frame _))

end Sys2Proof.Machine

/-! SUPPORT. The performance of host accesses (R29, R50, R51, R59, R61, R73). -/

namespace Sys2Proof.Machine

section
variable {s : State} {r : Request}

theorem State.hostAccess_next (h : InProgress s r) (hw : r.who = .host) :
    exec .hostAccessPerformed s = .next ((s.complete r).hostWord r).regrant := by
  have e : exec .hostAccessPerformed s = execHostAccessPerformed s := rfl
  rw [e, execHostAccessPerformed, State.performance_inProgress h _ _ (by simp [hw])]

/-! ### SU's reaction, by what it is doing (R50, R51, R61) -/

theorem State.hostWord_writing {m : Option PayloadRef} (h : s.su = .writing m) (r : Request) :
    s.hostWord r = { s.markPayload m r.be with su := .free } := by
  unfold State.hostWord
  rw [h]

theorem State.hostWord_last {cur : ReadPart} {acc : Word} (h : s.su = .reading cur [] acc) (r : Request) :
    s.hostWord r = s.answer (mergeBytes acc (s.mem.readWord r.adr) cur.keep) := by
  unfold State.hostWord
  rw [h]

theorem State.hostWord_more {cur p : ReadPart} {ps : List ReadPart} {acc : Word}
    (h : s.su = .reading cur (p :: ps) acc) (r : Request) :
    s.hostWord r = s.issueRead p ps (mergeBytes acc (s.mem.readWord r.adr) cur.keep) := by
  unfold State.hostWord
  rw [h]

/-- The bytes of a source join those gathered before. -/
theorem byteOf_gathered (m : Memory) (a : MemAdr) (acc : Word) (keep : Enables) (j : Nat) (hj : j < 4) :
    byteOf (mergeBytes acc (m.readWord a) keep) j =
      if keep.getLsbD j then m.readByte (MemAdr.byte a + j) else byteOf acc j := by
  rw [byteOf_mergeBytes _ _ _ _ hj, byteOf_readWord _ _ _ hj]

/-! ### The write performed (R29, R59) -/

theorem State.markPayload_pool (s : State) (p : PayloadRef) (be : Enables) (v : Fin 16) :
    (s.markPayload (some p) be).pool v =
      if v = p.w then (s.pool p.w).modBuf p.k (Buffer.mark p.i be) else s.pool v :=
  State.pool_modPool s p.w v _

/-- The word written joins the map of its buffer, and the pool is otherwise as before. -/
theorem Pool.mark_spec (p : Pool) (k : Fin 8) (i : Nat) (be : Enables) :
    (∀ c, c ≠ k → (p.modBuf k (Buffer.mark i be)).bufs[c] = p.bufs[c]) ∧
    p.modBuf k (Buffer.mark i be) = { p with bufs := (p.modBuf k (Buffer.mark i be)).bufs } ∧
    (p.modBuf k (Buffer.mark i be)).bufs[k] = { p.bufs[k] with map := (p.bufs[k].map).add i be } ∧
    ((p.bufs[k].map).Pairwise (fun c d => c.1 < d.1) → ∀ n,
      ((p.modBuf k (Buffer.mark i be)).bufs[k].map).get n =
        if n = i then (p.bufs[k].map).get n ||| be else (p.bufs[k].map).get n) := by
  have here : (p.modBuf k (Buffer.mark i be)).bufs[k] = { p.bufs[k] with map := (p.bufs[k].map).add i be } := by
    rw [Pool.bufs_modBuf, if_pos rfl]
    rfl
  refine ⟨fun c hc => ?_, Pool.modBuf_rest _ _ _, here, fun hm n => ?_⟩
  · rw [Pool.bufs_modBuf, if_neg hc]
  · rw [here]
    exact WMap.get_add _ _ _ _ hm

end

/-- Settles O23: SU's reaction to its write, to the last read of an answer, and to a read before others. -/
theorem hostAccessIsPerformed : Obligations.HostAccessIsPerformed := by
  intro s r h hq
  rw [State.hostAccess_next h hq]
  have su : (s.complete r).su = s.su := rfl
  refine ⟨fun _ m hm => ?_, fun hr cur acc hc => ?_, fun hr cur p ps acc hc => ?_⟩
  · rw [State.hostWord_writing (su.trans hm)]
    have fm : ChangesOnly [.mem, .port, .pools] s ((s.complete r).markPayload m r.be) :=
      (s.complete_congr r).andThen (markPayload_frame _ m r.be)
    have fs : ChangesOnly [.su] ((s.complete r).markPayload m r.be)
        { (s.complete r).markPayload m r.be with su := .free } := fun g hg => by cases g <;> simp [State.sameAt] at hg ⊢
    have pools : ({ (s.complete r).markPayload m r.be with su := .free } : State).regrant.pools =
        ((s.complete r).markPayload m r.be).pools := regrant_frame _ .pools (by decide)
    refine ⟨_, rfl, regrant_frame _ .su (by decide), ?_, fun hn => ?_, fun p hp => ?_, ?_⟩
    · refine State.regranted_of ?_ (fm .requests (by decide)) (fm .ins (by decide)) (fm .copyPtr (by decide))
      exact markPayload_frame _ m r.be .port (by decide)
    · rw [pools, hn]
      rfl
    · subst hp
      have pool := fun v => (State.pool_congr pools v).trans ((s.complete r).markPayload_pool p r.be v)
      obtain ⟨others, rest, here, get⟩ := (s.pool p.w).mark_spec p.k p.i r.be
      have own := (pool p.w).trans (if_pos rfl)
      change State.pool _ p.w = (s.pool p.w).modBuf p.k (Buffer.mark p.i r.be) at own
      rw [own]
      exact ⟨fun v hv => (pool v).trans (if_neg hv), others, rest, here, get⟩
    · exact ((fm.andThen fs (m := [.mem, .port, .pools, .su])).andThen (regrant_frame _))
  · have fc := s.complete_read_frame hr
    have mem : (s.complete r).mem = s.mem := fc .mem (by decide)
    rw [State.hostWord_last (su.trans hc), mem]
    generalize hv : mergeBytes acc (s.mem.readWord r.adr) cur.keep = v
    have fa := regrant_frame ((s.complete r).answer v)
    refine ⟨_, rfl, fa .su (by decide), fa .waiting (by decide), State.regranted_of rfl rfl rfl rfl, fun j hj => ?_, ?_⟩
    · rw [show ((s.complete r).answer v).regrant.readData = v from fa .readData (by decide), ← hv]
      exact byteOf_gathered _ _ _ _ _ hj
    · exact (fc.andThen (answer_frame _ v) (m := [.port, .su, .waiting, .readData])).andThen fa
  · have fc := s.complete_read_frame hr
    have mem : (s.complete r).mem = s.mem := fc .mem (by decide)
    rw [State.hostWord_more (su.trans hc), mem]
    generalize hv : mergeBytes acc (s.mem.readWord r.adr) cur.keep = v
    have fi := regrant_frame ((s.complete r).issueRead p ps v)
    refine ⟨_, v, rfl, fi .su (by decide), fun j hj => ?_, State.follows_join _ _, ?_, ?_⟩
    · rw [← hv]
      exact byteOf_gathered _ _ _ _ _ hj
    · exact OthersWait.of_join (u := { s.complete r with su := .reading p ps v }) rfl rfl rfl
    · exact (fc.andThen (issueRead_frame _ p ps v) (m := [.port, .su, .requests])).andThen fi

end Sys2Proof.Machine

/-! SUPPORT. The performance of copy-forward reads (R37, R73). -/

namespace Sys2Proof.Machine

section
variable {s : State} {r : Request} {w : Fin 16} {j : CopyJob}

theorem State.copyRead_some (hj : (s.pool w).job = some j) (v : Word) : s.copyRead w v =
    (s.modPool w fun p => { p with job := some { j with held := some v, phase := .writing } }).join
      { who := .copyJob w, write := true, adr := (s.win w).payloadAdr j.target j.index
        be := ~~~ ((s.pool w).bufs[j.target].map).get j.index, data := v, urgent := false } := by
  unfold State.copyRead
  rw [hj]

/-- The read of a job performed: the memory it reads is the one before the event. -/
theorem State.copyRead_next (h : InProgress s r) (hw : r.who = .copyJob w) (hr : r.write = false) :
    exec .copyReadPerformed s = .next ((s.complete r).copyRead w (s.mem.readWord r.adr)).regrant := by
  have mem : (s.complete r).mem = s.mem := State.complete_read_frame s hr .mem (by decide)
  have e : exec .copyReadPerformed s = execCopyReadPerformed s := rfl
  rw [e, execCopyReadPerformed, State.performance_inProgress h _ _ (by simp [Request.isCopy, hw, hr])]
  unfold Request.copyReadReact
  rw [hw, mem]

end

/-- Settles O26: the job holds the word, and its write joins the list. -/
theorem copyReadIsHeldAndWritten : Obligations.CopyReadIsHeldAndWritten := by
  intro s r w j h hw hr hj
  have fc := s.complete_read_frame hr
  have cj : ((s.complete r).pool w).job = some j := hj
  rw [State.copyRead_next h hw hr, State.copyRead_some cj]
  refine ⟨_, rfl, fun z hz => ?_, ?_, State.follows_join _ _, ?_, ?_⟩
  · rw [State.regrant_pool, State.join_pool, State.pool_modPool, if_neg hz]
    rfl
  · rw [State.regrant_pool, State.join_pool, State.pool_modPool, if_pos rfl]
    rfl
  · exact OthersWait.of_join (u := (s.complete r).modPool w _) rfl (fc .requests (by decide)) rfl
  · exact ((fc.andThen (modPool_frame _ w _) (m := [.port, .pools])).andThen (join_frame _ _)
      (m := [.port, .pools, .requests])).andThen (regrant_frame _)

end Sys2Proof.Machine

/-! SUPPORT. Offers to the journal, the raise of STOPPED, and the attention line (R179, R181, R185–R189, R193,
R200). -/

namespace Sys2Proof.Machine

theorem sat16_one (c : Half) : sat16 c 1 = if c = 65535 then 65535 else c + 1 := by
  unfold sat16
  by_cases h : c = 65535
  · subst h; rfl
  · rw [if_neg h, if_pos (by bv_omega)]
    apply BitVec.eq_of_toNat_eq
    simp

section
variable {s : State} {e : JEntry}

/-! ### What an offer is in each journal state (R185) -/

theorem State.offer_ignored (h : e.kind = .journalLost ∨ e.kind = .journalFull) : s.offer e = s := if_pos h

theorem State.offer_resting (h : s.journal.st = .off ∨ s.journal.st = .draining ∨ s.journal.st = .ended) :
    s.offer e = s := by
  unfold State.offer
  split
  · rfl
  · rcases h with h | h | h <;> rw [h]

variable (hl : e.kind ≠ .journalLost) (hf : e.kind ≠ .journalFull)
include hl hf

theorem State.offer_recording (h : s.journal.st = .recording) :
    s.offer e = if s.selects e.kind then s.acceptEntry e else s := by
  unfold State.offer
  rw [if_neg (not_or.2 ⟨hl, hf⟩), h]

theorem State.offer_awaiting (h : s.journal.st = .awaiting) : s.offer e =
    if s.triggers e.kind then (s.modJournal fun j => { j with st := .recording }).acceptEntry e else s := by
  unfold State.offer
  rw [if_neg (not_or.2 ⟨hl, hf⟩), h]

theorem State.offer_halted (h : s.journal.st = .halted) :
    s.offer e = if s.selects e.kind then s.loseEntries 1 else s := by
  unfold State.offer
  rw [if_neg (not_or.2 ⟨hl, hf⟩), h]

end

section
variable {s t u : State} {e : JEntry}

theorem State.triggers_iff (s : State) (k : Kind) : s.triggers k = true ↔ s.header.trigger = k.code := by
  simp [State.triggers]

/-! ### Acceptance and loss (R185, R186, R188) -/

theorem State.loseEntries_lost (hj : s.journal.st = st) : EntryLost st s (s.loseEntries 1) := by
  refine ⟨?_, ?_, rfl⟩
  · show { s.journal with lost := sat16 s.journal.lost 1 } = _
    rw [sat16_one, hj.symm]
  · show (State.setFlag _ .journalLost).raised .journalLost = true
    simp [State.raised_setFlag]

/-- An entry accepted by a journal whose state has become `st`. -/
theorem State.acceptEntry_accepted {st : JState} (hj : u.journal = { s.journal with st := st })
    (hf : u.flags = s.flags) (hr : u.requests = s.requests) (hh : u.header = s.header) (e : JEntry) :
    EntryAccepted st e s (u.acceptEntry e) := by
  have queue : u.journal.queue = s.journal.queue := by rw [hj]
  have count : u.journal.wordCount = s.journal.wordCount := by rw [hj]
  have first : u.firstWrite e = s.firstWrite e := by
    unfold State.firstWrite
    rw [hj, hh]
  obtain ⟨behind, front⟩ := u.acceptEntry_requests e
  rw [queue, hr] at behind
  rw [queue, count, hr, first] at front
  unfold EntryAccepted
  split
  · next room =>
    refine ⟨?_, ?_, behind, front⟩
    · rw [State.acceptEntry_journal, queue, if_pos room, hj]
    · rw [State.acceptEntry_flags_eq, queue, if_pos (show _ < Config.journalPlaces from room), hf]
  · next full =>
    refine ⟨?_, ?_, behind fun h => full (by rw [h]; decide)⟩
    · rw [State.acceptEntry_journal, queue, if_neg full, hj, sat16_one]
    · rw [State.raised_congr (s := u.setFlag .journalLost) (by
        rw [State.acceptEntry_flags_eq, queue, if_neg (show ¬ _ < Config.journalPlaces from full)])]
      simp [State.raised_setFlag]

/-! ### Offers over changed flags (R179) -/

/-- What an offer does to one flag depends on that flag, the journal record, the header and the entry. -/
theorem State.offer_raised_congr {k : Kind} (hr : t.raised k = s.raised k) (hj : t.journal = s.journal)
    (hh : t.header = s.header) (e : JEntry) : (t.offer e).raised k = (s.offer e).raised k := by
  have lost : ∀ {a b : State}, b.raised k = a.raised k →
      (b.setFlag .journalLost).raised k = (a.setFlag .journalLost).raised k := fun {a b} h => by
    rw [State.raised_setFlag, State.raised_setFlag, h]
  have accept : ∀ {a b : State}, b.raised k = a.raised k → b.journal = a.journal →
      (b.acceptEntry e).raised k = (a.acceptEntry e).raised k := fun {a b} h hj => by
    have flags : ∀ c : State, (c.acceptEntry e).raised k =
        if c.journal.queue.length < Config.journalPlaces then c.raised k else (c.setFlag .journalLost).raised k :=
      fun c => by
        unfold State.raised
        rw [State.acceptEntry_flags_eq]
        split <;> rfl
    rw [flags, flags, hj, h, lost h]
  unfold State.offer State.selects State.triggers
  simp only [hj, hh]
  split
  · exact hr
  · split
    case h_4 =>
      split
      · exact accept (a := s.modJournal _) (b := t.modJournal _) hr (by simp only [State.modJournal, hj])
      · exact hr
    case h_5 =>
      split
      · exact accept hr hj
      · exact hr
    case h_6 =>
      split
      · exact lost (a := s.modJournal _) (b := t.modJournal _) hr
      · exact hr
    all_goals exact hr

/-- The requests after an offer depend on the requests, the journal record, the header and the entry alone. -/
theorem State.offer_requests_congr (hr : t.requests = s.requests) (hj : t.journal = s.journal)
    (hh : t.header = s.header) (e : JEntry) : (t.offer e).requests = (s.offer e).requests := by
  have accept : ∀ {a b : State}, b.requests = a.requests → b.journal = a.journal → b.header = a.header →
      (b.acceptEntry e).requests = (a.acceptEntry e).requests := fun {a b} hr hj hh => by
    unfold State.acceptEntry State.requestJournal
    simp only [State.modJournal, hj, hh]
    split
    · split
      · split
        · exact hr
        · simp only [State.join, hr]
      · exact hr
    · exact hr
  unfold State.offer State.selects State.triggers
  simp only [hj, hh]
  split
  · exact hr
  · split
    case h_4 =>
      split
      · exact accept (a := s.modJournal _) (b := t.modJournal _) hr (by simp only [State.modJournal, hj]) hh
      · exact hr
    case h_5 =>
      split
      · exact accept hr hj hh
      · exact hr
    case h_6 => split <;> exact hr
    all_goals exact hr

end

/-! ### The raise of STOPPED (R189) -/

/-- The journal record after the offer of STOPPED to a run that records (R189). -/
def Journal.drain (j : Journal) : Journal := { j with st := if j.queue = [] then .ended else .draining }

/-- The entry of STOPPED. -/
def State.stoppedEntry (s : State) (d1 d2 : Word) : JEntry :=
  { kind := .stopped, source := none, time := s.timeBase, detail1 := d1, detail2 := d2 }

theorem State.stoppedEntry_kind (s : State) (d1 d2 : Word) : (s.stoppedEntry d1 d2).kind ≠ .journalLost ∧
    (s.stoppedEntry d1 d2).kind ≠ .journalFull := ⟨nofun, nofun⟩

section
variable {s : State} (d1 d2 : Word)

theorem State.setFlag_offer_journal (s : State) (k : Kind) (e : JEntry) :
    ((s.setFlag k).offer e).journal = (s.offer e).journal :=
  State.offer_journal_congr (s := s) (t := s.setFlag k) rfl rfl e

theorem State.raiseStopped_requests : (s.raiseStopped d1 d2).requests = (s.offer (s.stoppedEntry d1 d2)).requests := by
  have h := State.offer_requests_congr (s := s) (t := s.setFlag .stopped) rfl rfl rfl (s.stoppedEntry d1 d2)
  rw [← h]
  unfold State.raiseStopped State.offerStopped
  dsimp only
  split
  case h_2 => split <;> rfl
  all_goals rfl

/-- A journal that neither records nor awaits takes the entry of STOPPED as any other. -/
theorem State.raiseStopped_offered (h1 : s.journal.st ≠ .recording) (h2 : s.journal.st ≠ .awaiting) :
    (s.raiseStopped d1 d2).journal = (s.offer (s.stoppedEntry d1 d2)).journal := by
  rw [← State.setFlag_offer_journal s .stopped]
  unfold State.raiseStopped State.offerStopped
  dsimp only
  split
  case h_1 h => exact absurd h h1
  case h_2 h => exact absurd h h2
  all_goals rfl

theorem State.raiseStopped_drains
    (h : s.journal.st = .recording ∨ s.journal.st = .awaiting ∧ s.triggers .stopped = true) :
    (s.raiseStopped d1 d2).journal = (s.offer (s.stoppedEntry d1 d2)).journal.drain := by
  rw [← State.setFlag_offer_journal s .stopped]
  have st : (s.setFlag .stopped).journal.st = s.journal.st := rfl
  unfold State.raiseStopped State.offerStopped
  dsimp only
  rcases h with h | ⟨h, ht⟩ <;> rw [st, h]
  · rfl
  · dsimp only
    rw [if_pos (show (s.setFlag .stopped).triggers .stopped = true from ht)]
    rfl

theorem State.raiseStopped_ends (h : s.journal.st = .awaiting) (ht : s.triggers .stopped = false) :
    (s.raiseStopped d1 d2).journal = { s.journal with st := .ended } := by
  have st : (s.setFlag .stopped).journal.st = s.journal.st := rfl
  have same : s.offer (s.stoppedEntry d1 d2) = s := by
    obtain ⟨hl, hf⟩ := s.stoppedEntry_kind d1 d2
    rw [State.offer_awaiting hl hf h, if_neg]
    rw [show (s.stoppedEntry d1 d2).kind = .stopped from rfl, ht]
    decide
  have journal := State.setFlag_offer_journal s .stopped (s.stoppedEntry d1 d2)
  rw [same] at journal
  unfold State.raiseStopped State.offerStopped
  dsimp only
  rw [st, h]
  dsimp only
  rw [if_neg (show ¬ (s.setFlag .stopped).triggers .stopped = true by
    rw [show (s.setFlag .stopped).triggers .stopped = s.triggers .stopped from rfl, ht]; decide)]
  exact congrArg (fun j : Journal => { j with st := .ended }) journal

/-- The record of a journal that takes the entry of STOPPED into its queue, or loses it. -/
theorem Journal.drain_accepted {j : Journal} {st : JState} (e : JEntry) :
    Journal.drain (if j.queue.length < 8 then { j with st := st, queue := j.queue ++ [e] }
      else { j with st := st, lost := sat16 j.lost 1 }) =
    if j.queue.length < 8 then { j with st := .draining, queue := j.queue ++ [e] }
    else { j with st := .draining, lost := if j.lost = 65535 then 65535 else j.lost + 1 } := by
  unfold Journal.drain
  split
  · simp
  · next full =>
    have some : j.queue ≠ [] := fun h => full (by rw [h]; decide)
    rw [sat16_one]
    simp [some]

end

/-! ### The attention line (R181) and the codes (R193) -/

theorem kindCodes : [Kind.closeRefused, .writeRefused, .timedOut, .resumed, .underrun, .pulseDrift, .flywheel,
    .pulseEarly, .inboundCrc, .inboundCut, .inboundGap, .inboundNoBuffer, .loadFailed, .runStarted,
    .stopped, .journalFull, .journalLost, .commit].map Kind.code = List.range 18 := by decide

theorem Kind.exists_code {i : Nat} (h : i < 18) : ∃ k : Kind, k.code = i := by
  have hm : i ∈ List.range 18 := List.mem_range.2 h
  rw [← kindCodes] at hm
  obtain ⟨k, _, e⟩ := List.mem_map.1 hm
  exact ⟨k, e⟩

/-- Two sets of flags meet exactly where a kind has its bit in both. -/
theorem meets_iff (a b : BitVec 17) : a &&& b ≠ 0 ↔ ∃ k : Kind, a.getLsbD k.code = true ∧ b.getLsbD k.code = true := by
  constructor
  · intro h
    by_contra none
    refine h (BitVec.eq_of_getLsbD_eq fun i hi => ?_)
    obtain ⟨k, rfl⟩ := Kind.exists_code (i := i) (by omega)
    have off : ¬ (a.getLsbD k.code = true ∧ b.getLsbD k.code = true) := fun hk => none ⟨k, hk⟩
    simpa using off
  · rintro ⟨k, ha, hb⟩ h
    have bit := congrArg (fun v : BitVec 17 => v.getLsbD k.code) h
    simp [ha, hb] at bit

theorem State.atn_iff (s : State) : s.atn = true ↔
    s.rst = false ∧ ∃ k : Kind, s.raised k = true ∧ s.header.mask.getLsbD k.code = true := by
  unfold State.atn State.raised
  rw [← meets_iff]
  simp

/-- The kind and the source of an entry, side by side in its word 0 (R200). -/
theorem JEntry.word_zero (e : JEntry) (h : ∀ n, e.source = some n → n < 256) :
    (e.word 0).toNat = e.kind.code + 2 ^ 8 * e.source.getD 0xFF := by
  have code : e.kind.code < 2 ^ 8 := by cases e.kind <;> decide
  have source : e.source.getD 0xFF < 2 ^ 8 := by
    cases hs : e.source with
    | none => decide
    | some n => exact h n hs
  exact ((Packs.first code (by decide)).or source (by decide)).1

/-- Settles O31: an offer by the journal's state, a raise as an offer over its own flag, the raise of STOPPED as
an offer that then drains or ends the journal, and the codes. -/
theorem raiseOffersAnEntryToTheJournal : Obligations.RaiseOffersAnEntryToTheJournal := by
  refine ⟨fun s e => ?_, fun s k source d1 d2 hk => ?_, fun s d1 d2 => ?_, State.atn_iff, fun e h => ?_, kindCodes⟩
  · refine ⟨(s.offer_flags e).1, offer_frame s e, State.offer_ignored, State.offer_resting, fun hl hf => ?_⟩
    refine ⟨fun h hs => ?_, fun h hs => ?_, fun h hs => ?_, fun h hs => ?_, fun h hs => ?_⟩
    · have off : ¬ s.selects e.kind = true := by rw [show s.selects e.kind = false from hs]; decide
      rcases h with h | h
      · exact (State.offer_recording hl hf h).trans (if_neg off)
      · exact (State.offer_halted hl hf h).trans (if_neg off)
    · rw [State.offer_recording hl hf h, if_pos (show s.selects e.kind = true from hs)]
      exact State.acceptEntry_accepted (u := s) (by rw [← h]) rfl rfl rfl e
    · exact (State.offer_awaiting hl hf h).trans (if_neg fun c => hs ((s.triggers_iff _).1 c))
    · rw [State.offer_awaiting hl hf h, if_pos ((s.triggers_iff _).2 hs)]
      exact State.acceptEntry_accepted (s := s) (u := s.modJournal _) rfl rfl rfl rfl e
    · rw [State.offer_halted hl hf h, if_pos (show s.selects e.kind = true from hs)]
      exact State.loseEntries_lost h
  · refine ⟨(s.raise_flags k source d1 d2 hk).1, fun j hj => ?_, s.raise_journal k source d1 d2, ?_,
      raise_frame s k source d1 d2⟩
    · exact State.offer_raised_congr (s.setFlag_kept k j (by simpa using hj)) rfl rfl _
    · exact State.offer_requests_congr (s := s) (t := s.setFlag k) rfl rfl rfl _
  · obtain ⟨hl, hf⟩ := s.stoppedEntry_kind d1 d2
    have accepted : ∀ {u : State}, u.journal = { s.journal with st := .recording } →
        (u.acceptEntry (s.stoppedEntry d1 d2)).journal.drain =
          if s.journal.queue.length < 8 then
            { s.journal with st := .draining, queue := s.journal.queue ++ [s.stoppedEntry d1 d2] }
          else { s.journal with
            st := .draining, lost := if s.journal.lost = 65535 then 65535 else s.journal.lost + 1 } := fun {u} hu => by
      rw [State.acceptEntry_journal, hu]
      exact Journal.drain_accepted _
    refine ⟨?_, s.raiseStopped_kept d1 d2, s.raiseStopped_requests d1 d2, fun h => ?_, fun h => ?_, fun h hs => ?_,
      fun h hs => ?_, fun h ht => ?_, fun h ht room => ?_, raiseStopped_frame s d1 d2⟩
    · exact (State.raised_congr (s.raiseStopped_flags d1 d2) _).trans
        (s.raise_flags .stopped none d1 d2 (by decide)).1
    · rw [State.raiseStopped_offered d1 d2 (by rcases h with h | h | h <;> rw [h] <;> decide)
        (by rcases h with h | h | h <;> rw [h] <;> decide), State.offer_resting h]
    · rw [State.raiseStopped_offered d1 d2 (by rw [h]; decide) (by rw [h]; decide),
        State.offer_halted hl hf h]
      have sel : s.selects (s.stoppedEntry d1 d2).kind = s.header.selected.getLsbD 14 := rfl
      rw [sel]
      split
      · exact (State.loseEntries_lost h).1.trans (by rw [← h])
      · rfl
    · have off : ¬ s.selects (s.stoppedEntry d1 d2).kind = true := by
        rw [show s.selects (s.stoppedEntry d1 d2).kind = false from hs]; decide
      rw [State.raiseStopped_drains d1 d2 (.inl h), State.offer_recording hl hf h, if_neg off]
      rfl
    · rw [State.raiseStopped_drains d1 d2 (.inl h), State.offer_recording hl hf h,
        if_pos (show s.selects (s.stoppedEntry d1 d2).kind = true from hs)]
      exact accepted (by rw [← h])
    · exact State.raiseStopped_ends d1 d2 h (Bool.eq_false_iff.2 fun c => ht ((s.triggers_iff _).1 c))
    · have on := (s.triggers_iff .stopped).2 ht
      rw [State.raiseStopped_drains d1 d2 (.inr ⟨h, on⟩), State.offer_awaiting hl hf h,
        if_pos (show s.triggers (s.stoppedEntry d1 d2).kind = true from on), accepted rfl, if_pos room]
      rfl
  · exact ⟨e.word_zero h, rfl, rfl, rfl⟩

end Sys2Proof.Machine

/-! SUPPORT. The header and CRC slots of an inbound frame (R151, R153, R154, R157, R158). -/

namespace Sys2Proof.Machine

section
variable {s : State} {y : Fin 2} {w : Fin 16} {k : Fin 8} {f : InFrame} {fs : List InFrame} {h : Half}

theorem State.listed_iff (s : State) (q : Requester) : s.listed q = true ↔ q ∈ s.requests.map Request.who := by
  rw [← Bool.not_eq_false, State.listed_eq_false, Decidable.not_not]

theorem NoGrantDue.modIn (hn : NoGrantDue s) (y : Fin 2) (v : InLane → InLane) : NoGrantDue (s.modIn y v) := hn

/-- An event that changes one lane's record alone. -/
theorem State.laneEvent (hn : NoGrantDue s) (v : InLane → InLane) : OtherIns y s (s.modIn y v).arrivals ∧
    (s.modIn y v).arrivals.inl y = v (s.inl y) ∧ ChangesOnly [.ins] s (s.modIn y v).arrivals := by
  rw [State.arrivals_of_noGrantDue (hn.modIn y v)]
  exact ⟨State.modIn_others s y v, State.modIn_inl s y v, modIn_frame s y v⟩

/-! ### The number check (R154) -/

/-- The frame number of this H0 does not follow the last one (R154). -/
def InLane.gapAt (l : InLane) (h : Half) : Prop := l.seen = true ∧ h ≠ l.lastNo + 1

theorem State.checkNumber_gap (hg : (s.inl y).gapAt h) : s.checkNumber y h =
    (s.modIn y fun l => { l with lastNo := h, seen := true, gaps := sat8 l.gaps }).raise .inboundGap (some y.val)
      (h.setWidth 32) ((h - (s.inl y).lastNo - 1).setWidth 32) := by
  have seen : (s.inl y).seen ∧ h ≠ (s.inl y).lastNo + 1 := hg
  unfold State.checkNumber
  dsimp only
  rw [if_pos seen, State.modIn_modIn]

theorem State.checkNumber_follows (hg : ¬ (s.inl y).gapAt h) :
    s.checkNumber y h = s.modIn y fun l => { l with lastNo := h, seen := true } := by
  have next : ¬ ((s.inl y).seen ∧ h ≠ (s.inl y).lastNo + 1) := hg
  unfold State.checkNumber
  dsimp only
  rw [if_neg next]

/-- The event that receives an H0 and checks its number; `a` is what else it changes of the lane. -/
theorem State.numberChecked (hn : NoGrantDue s) (a : InLane → InLane)
    (ha : (a (s.inl y)).seen = (s.inl y).seen ∧ (a (s.inl y)).lastNo = (s.inl y).lastNo ∧
      (a (s.inl y)).gaps = (s.inl y).gaps) :
    let t := ((s.modIn y a).checkNumber y h).arrivals
    OtherIns y s t ∧
      t.inl y = { a (s.inl y) with
        lastNo := h, seen := true
        gaps := if (s.inl y).seen = true ∧ h ≠ (s.inl y).lastNo + 1 then sat8 (s.inl y).gaps
          else (s.inl y).gaps } ∧
      ((s.inl y).seen = true ∧ h ≠ (s.inl y).lastNo + 1 →
        ReportedAlone s t .inboundGap (some y.val) (h.setWidth 32) ((h - (s.inl y).lastNo - 1).setWidth 32)) ∧
      ((s.inl y).seen = false ∨ h = (s.inl y).lastNo + 1 → t.flags = s.flags ∧ t.journal = s.journal) ∧
      ChangesOnly [.ins, .flags, .journal, .requests, .port] s t := by
  obtain ⟨seen, last, gaps⟩ := ha
  have lane : (s.modIn y a).inl y = a (s.inl y) := State.modIn_inl s y a
  have same : ((s.modIn y a).inl y).gapAt h ↔ (s.inl y).seen = true ∧ h ≠ (s.inl y).lastNo + 1 := by
    unfold InLane.gapAt
    rw [lane, seen, last]
  by_cases hg : (s.inl y).seen = true ∧ h ≠ (s.inl y).lastNo + 1
  · rw [State.checkNumber_gap (same.2 hg), State.modIn_modIn, lane, last]
    have fu := modIn_frame s y fun l => { a l with lastNo := h, seen := true, gaps := sat8 (a l).gaps }
    have inl := State.modIn_inl s y fun l => { a l with lastNo := h, seen := true, gaps := sat8 (a l).gaps }
    have ins := State.modIn_others s y fun l => { a l with lastNo := h, seen := true, gaps := sat8 (a l).gaps }
    generalize (s.modIn y fun l => { a l with lastNo := h, seen := true, gaps := sat8 (a l).gaps }) = u at fu inl ins ⊢
    generalize (h - (s.inl y).lastNo - 1).setWidth 32 = d
    intro t
    have fr := raise_frame u .inboundGap (some y.val) (h.setWidth 32) d
    have fa := arrivals_frame (u.raise .inboundGap (some y.val) (h.setWidth 32) d)
    have lanes : ∀ z, t.inl z = u.inl z := fun z =>
      (State.inl_congr (fa .ins (by decide)) z).trans (State.raise_inl u _ _ _ _ z)
    have asks : OnlyRequestsOf (.inLane y) s (u.raise .inboundGap (some y.val) (h.setWidth 32) d) :=
      (OnlyRequestsOf.of_eq (fu .requests (by decide)) (fu .port (by decide))).trans
        (State.raise_onlyRequestsOf u _ _ _ _ _)
    refine ⟨fun z hz => (lanes z).trans (ins z hz), ?_, fun _ => ⟨?_, ?_⟩, fun hc => ?_, ?_⟩
    · rw [lanes, inl, gaps, if_pos hg]
    · exact (State.raise_reported (fu .flags (by decide)) (fu .journal (by decide)) (fu .header (by decide))
        (fu .timeBase (by decide)) (by decide) _ _ _).of_eq (fa .flags (by decide)) (fa .journal (by decide))
    · exact State.raise_onlyJournalRequests hn (fu .journal (by decide)) (fu .header (by decide))
        (fu .timeBase (by decide)) (fu .port (by decide)) (fu .requests (by decide)) _ _ _ _
    · rcases hc with hc | hc
      · exact absurd (hc.symm.trans hg.1) (by decide)
      · exact absurd hc hg.2
    · exact (State.arrivals_spec (l := [.ins, .flags, .journal, .requests]) hn (fun _ e => by cases e) asks
        (fu.andThen fr) (by decide) (by decide)).2.mono (by decide)
  · rw [State.checkNumber_follows fun c => hg (same.1 c), State.modIn_modIn]
    intro t
    obtain ⟨ins, inl, ft⟩ := State.laneEvent (y := y) hn fun l => { a l with lastNo := h, seen := true }
    refine ⟨ins, ?_, fun c => absurd c hg, fun _ => ⟨ft .flags (by decide), ft .journal (by decide)⟩, ft.mono (by decide)⟩
    rw [if_neg hg, ← gaps]
    exact inl

/-! ### H0 and H1 (R154) -/

theorem State.inboundH0_next (hr : s.rst = false) (he : (s.inl y).expectsH0 = true) :
    exec (.inboundH0Received y h) s = .next (s.inH0 y h).arrivals := by
  have e : exec (.inboundH0Received y h) s = execInboundH0Received y h s := rfl
  rw [e, execInboundH0Received, hr, he]
  rfl

theorem State.inH0_receiving (he : (s.inl y).expects 0 = true) : s.inH0 y h =
    (s.modIn y fun l => { (l.modLast fun f => { f with number := some h }) with
      crc := crcHalf l.crc h, slot := some 1 }).checkNumber y h := by
  unfold State.inH0
  rw [if_pos he]

theorem State.inH0_discarding (hst : (s.inl y).st = .discarding) (hs : (s.inl y).slot = some 0) : s.inH0 y h =
    (s.modIn y fun l => { l with crc := crcHalf l.crc h, slot := none }).checkNumber y h := by
  unfold State.inH0
  rw [if_neg (by simp [InLane.expects, hst]), if_pos ⟨hst, hs⟩]

/-! ### The CRC slot of a GOOD frame (R157, R158) -/

/-- The lane listens again, with its current frame GOOD (R157). -/
def InLane.good (l : InLane) : InLane :=
  ({ l with st := .listening, slot := none } : InLane).modLast fun f => { f with outcome := .good }

theorem InLane.good_eq {l : InLane} (hf : l.frames = fs ++ [f]) : l.good =
    { l with st := .listening, slot := none, frames := fs ++ [{ f with outcome := .good }] } :=
  InLane.modLast_eq (l := { l with st := .listening, slot := none }) hf _

/-- A CRC slot that equals the accumulator. -/
theorem State.crcSlot_good (hr : s.rst = false) (hst : (s.inl y).st = .receiving)
    (hs : (s.inl y).slot = some ((s.inRec y).slots + 2)) :
    exec (.inboundCrcSlotReceived y (s.inl y).crc) s = .next ((s.modIn y InLane.good).settle y).arrivals := by
  have he := InLane.expects_iff.2 ⟨hst, hs⟩
  rw [State.inboundCrc_next hr he]
  unfold State.inCrc
  rw [if_pos he]
  dsimp only
  rw [if_pos rfl, State.modIn_modIn]
  rfl

/-- A GOOD frame whose lane still writes, for it or for a frame before it, waits. -/
theorem State.crcSlot_waits {g : InFrame} {gs : List InFrame} (hr : s.rst = false) (hn : NoGrantDue s)
    (hst : (s.inl y).st = .receiving) (hs : (s.inl y).slot = some ((s.inRec y).slots + 2))
    (hf : (s.inl y).frames = fs ++ [f]) (hg : fs ++ [{ f with outcome := .good }] = g :: gs)
    (wait : g.buffer ≠ none ∧ (g.outcome = .opened ∨ g.outcome = .good ∧ g.halves ≠ []) ∨
      g.outcome = .discard ∧ s.inProgress (.inLane y) = true)
    (busy : s.listed (.inLane y) = true ∨ s.inProgress (.inLane y) = true) :
    ∃ t, exec (.inboundCrcSlotReceived y (s.inl y).crc) s = .next t ∧ OtherIns y s t ∧
      t.inl y = { s.inl y with
        st := .listening, slot := none, frames := fs ++ [{ f with outcome := .good }] } ∧
      ChangesOnly [.ins] s t := by
  have good := InLane.good_eq hf
  have frames : ((s.modIn y InLane.good).inl y).frames = g :: gs := by rw [State.modIn_inl, good, ← hg]
  rw [State.crcSlot_good hr hst hs, State.settle_of_none (State.settleOnce_wait (s := s.modIn y InLane.good) frames wait),
    State.tryWrite_of_busy (s := s.modIn y InLane.good) busy]
  obtain ⟨ins, here, ft⟩ := State.laneEvent (y := y) hn InLane.good
  exact ⟨_, rfl, ins, here.trans good, ft⟩

variable (hr : s.rst = false) (hn : NoGrantDue s) (hw : s.inWindow y = some w) (hst : (s.inl y).st = .receiving)
  (hf : (s.inl y).frames = [f]) (hs : (s.inl y).slot = some ((s.inRec y).slots + 2)) (hb : f.buffer = some k)
  (hh : f.halves = [])
include hr hn hw hst hf hs hb hh

/-- A GOOD frame alone in hand, every half written and its map full, commits at once (R42, R158). -/
theorem State.crcSlot_commits (hm : ((s.pool w).bufs[k].map).full (s.win w).payloadLength = true) :
    ∃ t, exec (.inboundCrcSlotReceived y (s.inl y).crc) s = .next t ∧ OtherIns y s t ∧ OtherPools w s t ∧
      t.inl y = { s.inl y with st := .listening, slot := none, frames := [] } ∧
      (∀ c : Fin 8, (t.pool w).bufs[c] =
        if c = k then
          { st := .ready, holders := HolderSet.empty, seq := (s.pool w).nextInbound, time := f.time, map := [] }
        else Buffer.afterCommit (decide ((s.pool w).find .ready = some c)) (s.pool w).bufs[c]) ∧
      (t.pool w).nextInbound = (s.pool w).nextInbound + 1 ∧ (t.pool w).expected = (s.pool w).expected ∧
      (t.pool w).lastOutcome = (s.pool w).lastOutcome ∧ (t.pool w).job = (s.pool w).job ∧
      CommitNoticed w (s.pool w).nextInbound 0 [] s t ∧ FlagsKept [.resumed, .journalLost] s t ∧
      OnlyRequestsOf (.inLane y) s t ∧ ChangesOnly [.ins, .pools, .flags, .journal, .requests, .port] s t := by
  have fu := modIn_frame s y InLane.good
  have ins := State.modIn_others s y InLane.good
  have inl : (s.modIn y InLane.good).inl y =
      { s.inl y with st := .listening, slot := none, frames := [{ f with outcome := .good }] } :=
    (State.modIn_inl s y _).trans (InLane.good_eq (fs := []) hf)
  have pool : ∀ v, (s.modIn y InLane.good).pool v = s.pool v := fun _ => rfl
  rw [State.crcSlot_good hr hst hs]
  generalize s.modIn y InLane.good = u at fu ins inl pool ⊢
  have full : ((u.pool w).bufs[k].map).full (u.win w).payloadLength = true := by
    rw [pool, State.win_congr (fu .windows (by decide))]
    exact hm
  rw [State.settle_of_some (State.settleOnce_commit (f := { f with outcome := .good }) (fs := []) (by rw [inl]) rfl hb hh),
    State.commitHead_full ((State.inWindow_congr (fu .windows (by decide)) y).trans hw) full, pool]
  have fc : ChangesOnly [.ins, .pools] s (u.inboundTaken w) := fu.andThen (modPool_frame u w _)
  have cpool : ∀ v, (u.inboundTaken w).pool v =
      if v = w then { s.pool w with nextInbound := (s.pool w).nextInbound + 1 } else s.pool v := fun v => by
    unfold State.inboundTaken
    rw [State.pool_modPool, pool, pool]
  have cinl : ∀ z, (u.inboundTaken w).inl z = u.inl z := fun _ => rfl
  generalize u.inboundTaken w = c at fc cpool cinl ⊢
  have here := (cpool w).trans (if_pos rfl)
  have fd := commit_frame c w k (s.pool w).nextInbound f.time none 0
  obtain ⟨noticed, flags⟩ := State.commit_noticed (s0 := s) (s := c) w k (s.pool w).nextInbound f.time none 0
    (fc.mono (by decide)) (fun v => by rw [cpool]; split <;> simp [*]) (by rw [here]) (by rw [here])
  obtain ⟨expected, inbound, outcome, job⟩ := c.commit_rest w k (s.pool w).nextInbound f.time none 0
  have bufs := c.commit_bufs w k (s.pool w).nextInbound f.time none 0
  have others := c.commit_others w k (s.pool w).nextInbound f.time none 0
  have asks := (OnlyRequestsOf.of_eq (fc .requests (by decide)) (fc .port (by decide))).trans
    (c.commit_onlyRequestsOf w k (s.pool w).nextInbound f.time none 0 (.inLane y))
  rw [here] at expected inbound outcome job bufs
  have fe : ChangesOnly [.ins, .pools, .flags, .journal, .requests] s
      (c.commit w k (s.pool w).nextInbound f.time none 0) := fc.andThen fd
  have dinl : ∀ z, (c.commit w k (s.pool w).nextInbound f.time none 0).inl z = u.inl z := fun z =>
    (State.inl_congr (fd .ins (by decide)) z).trans (cinl z)
  generalize c.commit w k (s.pool w).nextInbound f.time none 0 = d at *
  have popped : (d.modIn y InLane.popHead).inl y = { s.inl y with st := .listening, slot := none, frames := [] } := by
    rw [State.modIn_inl, dinl, inl]
    rfl
  rw [State.settle_rest (by rw [popped]), State.arrivals_modIn]
  have fa := arrivals_frame d
  have apool : ∀ v, (d.arrivals.modIn y InLane.popHead).pool v = d.pool v := State.arrivals_pool d
  obtain ⟨asksT, ft⟩ := State.arrivals_spec hn (fun _ e => by cases e) asks fe (by decide) (by decide)
  refine ⟨_, rfl, fun z hz => ?_, fun v hv => ?_, ?_, fun e => ?_, ?_, ?_, ?_, ?_,
    noticed.of_eq (fa .flags (by decide)) (fa .journal (by decide)) (fa .windows (by decide)) (fa .groups (by decide))
      fun v => by rw [apool]; exact ⟨rfl, rfl, rfl, rfl, rfl⟩,
    flags.trans (.of_eq (fa .flags (by decide))), asksT,
    ft.andThen (modIn_frame _ y _)⟩
  · rw [State.modIn_others _ _ _ z hz, State.inl_congr (fa .ins (by decide)), dinl, ins z hz]
  · rw [apool, others v hv, cpool, if_neg hv]
  · rw [← State.arrivals_modIn, State.inl_congr (arrivals_frame _ .ins (by decide)), popped]
  all_goals rw [apool]
  · rw [bufs]
    split
    · next h => subst h; exact (Pool.commit_bufs _ _ _ _ _).1
    · next h => exact Pool.commit_others_eq _ _ _ _ _ h
  · exact inbound
  · exact expected
  · exact outcome
  · exact job

/-- With a map that is not full the frame is discarded and reported as MALFORMED (R158). -/
theorem State.crcSlot_cuts (hm : ((s.pool w).bufs[k].map).full (s.win w).payloadLength = false) :
    ∃ t, exec (.inboundCrcSlotReceived y (s.inl y).crc) s = .next t ∧ OtherIns y s t ∧
      OtherPools w s t ∧ OnlyBuffers w s t ∧
      t.inl y = { s.inl y with st := .listening, slot := none, frames := [], cuts := sat8 (s.inl y).cuts } ∧
      (∀ c, c ≠ k → (t.pool w).bufs[c] = (s.pool w).bufs[c]) ∧
      (t.pool w).bufs[k] = { (s.pool w).bufs[k] with st := .free, holders := HolderSet.empty, map := [] } ∧
      Reported s t .inboundCut (some y.val) ((f.number.getD 0).setWidth 32) 0 ∧
      OnlyRequestsOf (.inLane y) s t ∧ ChangesOnly [.ins, .pools, .flags, .journal, .requests, .port] s t := by
  have fu := modIn_frame s y InLane.good
  have inl : (s.modIn y InLane.good).inl y =
      { s.inl y with st := .listening, slot := none, frames := [{ f with outcome := .good }] } :=
    (State.modIn_inl s y _).trans (InLane.good_eq (fs := []) hf)
  have ins := State.modIn_others s y InLane.good
  have pool : ∀ v, (s.modIn y InLane.good).pool v = s.pool v := fun _ => rfl
  rw [State.crcSlot_good hr hst hs]
  generalize s.modIn y InLane.good = u at fu ins inl pool ⊢
  have window := (State.inWindow_congr (fu .windows (by decide)) y).trans hw
  have short : ((u.pool w).bufs[k].map).full (u.win w).payloadLength = false := by
    rw [pool, State.win_congr (fu .windows (by decide))]
    exact hm
  rw [State.settle_of_some (State.settleOnce_commit (f := { f with outcome := .good }) (fs := []) (by rw [inl]) rfl hb hh),
    State.commitHead_short window short, State.discardHead_eq (f := { f with outcome := .good }) window hb]
  unfold State.raiseCut
  rw [State.modIn_modIn]
  have fc : ChangesOnly [.ins, .pools] s ((u.modPool w fun p => p.modBuf k Buffer.discard).modIn y fun l =>
      { l.popHead with cuts := sat8 l.popHead.cuts }) :=
    (fu.andThen (modPool_frame u w _) (m := [.ins, .pools])).andThen (modIn_frame _ y _)
  have cinl : ((u.modPool w fun p => p.modBuf k Buffer.discard).modIn y fun l =>
      { l.popHead with cuts := sat8 l.popHead.cuts }).inl y =
      { s.inl y with st := .listening, slot := none, frames := [], cuts := sat8 (s.inl y).cuts } := by
    rw [State.modIn_inl, show (u.modPool w fun p => p.modBuf k Buffer.discard).inl y = u.inl y from rfl, inl]
    rfl
  have cins : OtherIns y s ((u.modPool w fun p => p.modBuf k Buffer.discard).modIn y fun l =>
      { l.popHead with cuts := sat8 l.popHead.cuts }) := fun z hz => by
    rw [State.modIn_others _ _ _ z hz]
    exact ins z hz
  have cpool : ∀ v, ((u.modPool w fun p => p.modBuf k Buffer.discard).modIn y fun l =>
      { l.popHead with cuts := sat8 l.popHead.cuts }).pool v =
      if v = w then (s.pool w).modBuf k Buffer.discard else s.pool v := fun v => by
    rw [State.modIn_pool, State.pool_modPool, pool, pool]
  generalize (u.modPool w fun p => p.modBuf k Buffer.discard).modIn y _ = c at fc cinl cins cpool ⊢
  generalize hd : (({ f with outcome := .good } : InFrame).number.getD 0).setWidth 32 = d
  have fr := raise_frame c .inboundCut (some y.val) d (num CutReason.malformed.code)
  have rinl := State.raise_inl c .inboundCut (some y.val) d (num CutReason.malformed.code)
  have reported : Reported s (c.raise .inboundCut (some y.val) d (num CutReason.malformed.code)) .inboundCut
      (some y.val) d 0 :=
    State.raise_reported (fc .flags (by decide)) (fc .journal (by decide)) (fc .header (by decide))
      (fc .timeBase (by decide)) (by decide) _ _ _
  have asks : OnlyRequestsOf (.inLane y) s (c.raise .inboundCut (some y.val) d (num CutReason.malformed.code)) :=
    (OnlyRequestsOf.of_eq (fc .requests (by decide)) (fc .port (by decide))).trans
      (State.raise_onlyRequestsOf c _ _ _ _ _)
  have fe : ChangesOnly [.ins, .pools, .flags, .journal, .requests] s
      (c.raise .inboundCut (some y.val) d (num CutReason.malformed.code)) := fc.andThen fr
  have rpool : ∀ v, (c.raise .inboundCut (some y.val) d (num CutReason.malformed.code)).pool v = c.pool v :=
    State.pool_congr (fr .pools (by decide))
  generalize c.raise .inboundCut (some y.val) d (num CutReason.malformed.code) = e at *
  rw [State.settle_rest (by rw [rinl, cinl])]
  have fa := arrivals_frame e
  have apool : ∀ v, e.arrivals.pool v = c.pool v := fun v => (State.arrivals_pool e v).trans (rpool v)
  have ainl : ∀ z, e.arrivals.inl z = c.inl z := fun z => (State.inl_congr (fa .ins (by decide)) z).trans (rinl z)
  have own := (apool w).trans ((cpool w).trans (if_pos rfl))
  obtain ⟨asksT, ft⟩ := State.arrivals_spec hn (fun _ e => by cases e) asks fe (by decide) (by decide)
  refine ⟨_, rfl, fun z hz => (ainl z).trans (cins z hz), fun v hv => ?_, ?_, (ainl y).trans cinl, fun b hb' => ?_, ?_,
    hd.symm ▸ reported.of_eq (fa .flags (by decide)) (fa .journal (by decide)), asksT, ft.mono (by decide)⟩
  · rw [apool, cpool, if_neg hv]
  · unfold OnlyBuffers
    rw [own]
    rfl
  · rw [own, Pool.bufs_modBuf, if_neg hb']
  · rw [own, Pool.bufs_modBuf, if_pos rfl]
    rfl

end

/-- Settles O49: the number check on an H0, the length check on H1, and the settlement a GOOD frame comes to. -/
theorem headerAndCrcSlotsAreReceived : Obligations.HeaderAndCrcSlotsAreReceived := by
  refine ⟨fun s y h hr hn hst hs => ?_, fun s y w k f hr hn hw hst hf hs hb hh hm => ?_,
    fun s y w k f hr hn hw hst hf hs hb hh hm => State.crcSlot_cuts hr hn hw hst hf hs hb hh hm,
    fun s y h fs f hr hn hst hf => ⟨fun hs => ?_, fun hs hl => ?_, fun g gs hs hc hfs hb hg => ?_,
      fun k hs hc hfs hb hh busy => ?_⟩⟩
  · rw [State.inboundH0_next hr (by simp [InLane.expectsH0, hst, hs]), State.inH0_discarding hst hs]
    exact ⟨_, rfl, State.numberChecked hn (fun l => { l with crc := crcHalf l.crc h, slot := none }) ⟨rfl, rfl, rfl⟩⟩
  · obtain ⟨t, e, ins, pools, inl, bufs, rest⟩ := State.crcSlot_commits hr hn hw hst hf hs hb hh hm
    refine ⟨t, e, ins, pools, inl, (bufs k).trans (if_pos rfl), fun c hc => ?_, rest⟩
    rw [bufs c, if_neg hc]
    unfold Buffer.afterCommit
    by_cases hr : (s.pool w).find .ready = some c <;> simp [hr]
  · have he : (s.inl y).expects 0 = true := InLane.expects_iff.2 ⟨hst, hs⟩
    rw [State.inboundH0_next hr (by simp [InLane.expectsH0, he]), State.inH0_receiving he]
    obtain ⟨ins, inl, rest⟩ := State.numberChecked (h := h) hn (fun l =>
      { (l.modLast fun f => { f with number := some h }) with crc := crcHalf l.crc h, slot := some 1 }) ⟨rfl, rfl, rfl⟩
    rw [InLane.modLast_eq hf] at inl
    exact ⟨_, rfl, ins, inl, rest⟩
  · have he : (s.inl y).expects 1 = true := InLane.expects_iff.2 ⟨hst, hs⟩
    have good : s.inH1 y h = s.modIn y fun l => { l with crc := crcHalf l.crc h, slot := some 2 } := by
      unfold State.inH1
      rw [if_pos he]
      exact if_pos hl
    rw [State.inboundH1_next hr he, good]
    exact ⟨_, rfl, State.laneEvent hn _⟩
  · subst hc hfs
    have busy : s.listed (.inLane y) = true ∨ s.inProgress (.inLane y) = true := by
      rcases hg with ⟨_, _, hg | hg⟩ | ⟨_, hg⟩
      · exact .inr hg
      · exact .inl ((State.listed_iff _ _).2 hg)
      · exact .inr hg
    refine State.crcSlot_waits hr hn hst hs hf (g := g) (gs := gs ++ [{ f with outcome := .good }]) rfl ?_ busy
    exact hg.imp (fun ⟨ho, hh, _⟩ => ⟨hb, .inr ⟨ho, hh⟩⟩) id
  · subst hc hfs
    have busy : s.listed (.inLane y) = true ∨ s.inProgress (.inLane y) = true :=
      busy.elim .inr fun hg => .inl ((State.listed_iff _ _).2 hg)
    exact State.crcSlot_waits hr hn hst hs hf (g := { f with outcome := .good }) (gs := []) rfl
      (.inl ⟨by rw [hb]; nofun, .inr ⟨rfl, hh⟩⟩) busy

end Sys2Proof.Machine

/-! SUPPORT. The work of a requester and its request (R73–R76): what an operation does at the arbiter, seen by
the law of the request list. -/

namespace Sys2Proof.Machine

/-! ### Work and requests -/

/-- The work a requester has, for which it needs a request or an access (R36, R50, R61, R113, R155, R168,
R187). -/
def State.hasWork (s : State) : Requester → Prop
  | .host => s.su ≠ .free
  | .outLane x => (s.out x).st = .sending ∧ (s.out x).asked ≠ none
  | .inLane y => ∃ f ∈ (s.inl y).frames.head?, f.buffer ≠ none ∧ (f.outcome = .discard ∨ f.halves ≠ [])
  | .copyJob w => (s.pool w).job.isSome = true
  | .load => s.load.isSome = true
  | .journal => s.journal.queue ≠ []

/-- The requester has a request, or an access it waits for, exactly while it has work. -/
def State.served (s : State) (q : Requester) : Prop := s.busy q ↔ s.hasWork q

/-- What every operation keeps at the arbiter, also inside an event: at most one request per requester, none of
one that waits for its access, and JW served. -/
structure State.Orderly (s : State) : Prop where
  nodup : (s.requests.map Request.who).Nodup
  awaited : ∀ a, s.port = some a → a.withdrawn = false → a.req.who ∉ s.requests.map Request.who
  journal : s.served .journal

/-- The requester is an outbound lane, whose work has a law of its own. -/
def Requester.isOut (q : Requester) : Prop := ∃ x, q = .outLane x

variable {s t u : State} {q : Requester} {touch touch' : Requester → Prop}

theorem requestLaw_iff (s : State) :
    RequestLaw s ↔ s.Orderly ∧ NoGrantDue s ∧ ∀ q : Requester, ¬ q.isOut → s.served q := by
  constructor
  · rintro ⟨nodup, awaited, due, host, load, journal, copy, lanes⟩
    refine ⟨⟨nodup, awaited, journal⟩, due, fun q hq => ?_⟩
    cases q with
    | host => exact host
    | outLane x => exact absurd ⟨x, rfl⟩ hq
    | inLane y => exact lanes y
    | copyJob w => exact copy w
    | load => exact load
    | journal => exact journal
  · rintro ⟨⟨nodup, awaited, journal⟩, due, served⟩
    exact ⟨nodup, awaited, due, served .host (by simp [Requester.isOut]), served .load (by simp [Requester.isOut]),
      journal, fun w => served (.copyJob w) (by simp [Requester.isOut]),
      fun y => served (.inLane y) (by simp [Requester.isOut])⟩

/-- The part of State a requester's work stands in. -/
def Requester.item : Requester → Item
  | .host => .su
  | .outLane _ => .outs
  | .inLane _ => .ins
  | .copyJob _ => .pools
  | .load => .load
  | .journal => .journal

theorem State.hasWork_congr (h : s.sameAt t q.item) : t.hasWork q ↔ s.hasWork q := by
  cases q with
  | host => exact iff_of_eq (congrArg (fun v => v ≠ SU.free) h)
  | outLane x => rw [State.hasWork, State.hasWork, State.out_congr h x]
  | inLane y => rw [State.hasWork, State.hasWork, State.inl_congr h y]
  | copyJob w => rw [State.hasWork, State.hasWork, State.pool_congr h w]
  | load => exact iff_of_eq (congrArg (fun v : Option LoadJob => v.isSome = true) h)
  | journal => exact iff_of_eq (congrArg (fun v : Journal => v.queue ≠ []) h)

theorem State.hasWork_of_frame {l : List Item} (f : ChangesOnly l s t) (h : q.item ∉ l) :
    t.hasWork q ↔ s.hasWork q := State.hasWork_congr (f _ h)

theorem State.served.of_iff (h : s.served q) (hb : t.busy q ↔ s.busy q) (hw : t.hasWork q ↔ s.hasWork q) :
    t.served q := hb.trans (h.trans hw.symm)

theorem State.busy_congr (hr : t.requests = s.requests) (hp : t.port = s.port) (q : Requester) :
    t.busy q ↔ s.busy q := by simp only [State.busy, hr, hp]

theorem State.not_busy (h : ¬ s.busy q) : q ∉ s.requests.map Request.who :=
  fun hl => h (.inl hl)

/-- A requester that is not on the list and has no access in progress. -/
theorem State.not_busy_of (hl : s.listed q = false) (hp : s.inProgress q = false) : ¬ s.busy q := by
  rintro (h | ⟨a, ha, -, hq⟩)
  · exact (s.listed_eq_false q).1 hl h
  · simp [State.inProgress, ha, hq] at hp

/-! ### Operations at the arbiter -/

/-- What an operation inside an event does at the arbiter: order is kept, every requester but those named and JW
is as busy as before, and an access in progress stays, or is withdrawn by its requester (R75). -/
structure Attends (touch : Requester → Prop) (s t : State) : Prop where
  orderly : s.Orderly → t.Orderly
  busy : ∀ q, ¬ touch q → q ≠ .journal → (t.busy q ↔ s.busy q)
  port : t.port = s.port ∨ ∃ a, s.port = some a ∧ touch a.req.who ∧
    t.port = some { req := a.req, withdrawn := true }

/-- No requester is named. -/
def noOne : Requester → Prop := fun _ => False

theorem Attends.refl (touch : Requester → Prop) (s : State) : Attends touch s s :=
  ⟨id, fun _ _ _ => Iff.rfl, .inl rfl⟩

theorem Attends.trans (h : Attends touch s t) (h' : Attends touch t u) : Attends touch s u where
  orderly o := h'.orderly (h.orderly o)
  busy q hq hj := (h'.busy q hq hj).trans (h.busy q hq hj)
  port := by
    rcases h.port with e | ⟨a, ha, hw, e⟩ <;> rcases h'.port with e' | ⟨b, hb, hw', e'⟩
    · exact .inl (e'.trans e)
    · exact .inr ⟨b, e ▸ hb, hw', e'⟩
    · exact .inr ⟨a, ha, hw, e'.trans e⟩
    · obtain rfl : { req := a.req, withdrawn := true } = b := Option.some.inj (e ▸ hb)
      exact .inr ⟨a, ha, hw, e'⟩

theorem Attends.mono (h : Attends touch s t) (hq : ∀ q, touch q → touch' q) : Attends touch' s t where
  orderly := h.orderly
  busy q hn := h.busy q fun e => hn (hq q e)
  port := h.port.imp_right fun ⟨a, ha, hw, e⟩ => ⟨a, ha, hq _ hw, e⟩

theorem Attends.of_noOne (h : Attends noOne s t) : Attends touch s t := h.mono fun _ => False.elim

theorem State.Orderly.of_eq (o : s.Orderly) (hr : t.requests = s.requests) (hp : t.port = s.port)
    (hj : t.journal.queue = [] ↔ s.journal.queue = []) : t.Orderly where
  nodup := hr ▸ o.nodup
  awaited := by rw [hr, hp]; exact o.awaited
  journal := o.journal.of_iff (State.busy_congr hr hp _) (not_congr hj)

theorem Attends.of_eq (hr : t.requests = s.requests) (hp : t.port = s.port)
    (hj : t.journal.queue = [] ↔ s.journal.queue = []) : Attends touch s t where
  orderly o := o.of_eq hr hp hj
  busy q _ _ := State.busy_congr hr hp q
  port := .inl hp

/-- What follows an operation and leaves requests, port and the emptiness of the journal queue alone. -/
theorem Attends.after (h : Attends touch s t) (hr : u.requests = t.requests) (hp : u.port = t.port)
    (hj : u.journal.queue = [] ↔ t.journal.queue = []) : Attends touch s u := h.trans (.of_eq hr hp hj)

/-- What goes before an operation and leaves requests, port and the emptiness of the journal queue alone. -/
theorem Attends.before (h : Attends touch t u) (hr : t.requests = s.requests) (hp : t.port = s.port)
    (hj : t.journal.queue = [] ↔ s.journal.queue = []) : Attends touch s u := (Attends.of_eq hr hp hj).trans h

theorem Attends.of_frame {l : List Item} (f : ChangesOnly l s t) (hr : .requests ∉ l) (hp : .port ∉ l)
    (hj : .journal ∉ l) : Attends touch s t :=
  .of_eq (f _ hr) (f _ hp) (iff_of_eq (congrArg (fun j : Journal => j.queue = []) (f _ hj)))

theorem Attends.foldl {α : Type} (step : State → α → State) (h : ∀ t a, Attends touch t (step t a)) (as : List α)
    (s : State) : Attends touch s (as.foldl step s) := by
  induction as generalizing s with
  | nil => exact .refl _ s
  | cons a as ih => exact (h s a).trans (ih _)

/-! ### Requests made -/

theorem State.busy_join (s : State) (r : Request) (q : Requester) : (s.join r).busy q ↔ s.busy q ∨ q = r.who := by
  simp only [State.busy, State.join_requests, State.join_port, List.map_append, List.mem_append, List.map_cons,
    List.map_nil, List.mem_singleton]
  exact or_right_comm

/-- A requester that waits for nothing may make a request. -/
theorem State.nodup_join {r : Request} (nodup : (s.requests.map Request.who).Nodup)
    (awaited : ∀ a, s.port = some a → a.withdrawn = false → a.req.who ∉ s.requests.map Request.who)
    (free : ¬ s.busy r.who) : ((s.join r).requests.map Request.who).Nodup ∧
      ∀ a, s.port = some a → a.withdrawn = false → a.req.who ∉ (s.join r).requests.map Request.who := by
  simp only [State.join_requests, List.map_append, List.map_cons, List.map_nil, List.mem_append,
    List.mem_singleton, not_or]
  refine ⟨List.nodup_append.2 ⟨nodup, by simp, fun a ha b hb => ?_⟩, fun a ha hw => ⟨awaited a ha hw, fun e => ?_⟩⟩
  · rintro rfl
    rw [List.mem_singleton.1 hb] at ha
    exact State.not_busy free ha
  · exact free (.inr ⟨a, ha, hw, e⟩)

theorem State.Orderly.join (o : s.Orderly) {r : Request} (hj : r.who ≠ .journal) (free : ¬ s.busy r.who) :
    (s.join r).Orderly where
  nodup := (State.nodup_join o.nodup o.awaited free).1
  awaited := (State.nodup_join o.nodup o.awaited free).2
  journal := o.journal.of_iff (by rw [State.busy_join]; simp [hj.symm]) Iff.rfl

theorem State.join_attends {r : Request} (hj : r.who ≠ .journal) (free : ¬ s.busy r.who) (ht : touch r.who) :
    Attends touch s (s.join r) where
  orderly o := o.join hj free
  busy q hq _ := by
    rw [State.busy_join]
    exact or_iff_left fun e => hq (e ▸ ht)
  port := .inl rfl

/-! ### Requests withdrawn (R75) -/

theorem State.busy_unlist (s : State) (q p : Requester) : (s.unlist q).busy p ↔
    p ∈ s.requests.map Request.who ∧ p ≠ q ∨ ∃ a, s.port = some a ∧ a.withdrawn = false ∧ a.req.who = p := by
  simp only [State.busy, State.unlist_requests, State.unlist_port, List.mem_map, List.mem_filter, bne_iff_ne]
  refine or_congr_left ⟨?_, ?_⟩
  · rintro ⟨r, ⟨hr, hn⟩, rfl⟩
    exact ⟨⟨r, hr, rfl⟩, hn⟩
  · rintro ⟨⟨r, hr, rfl⟩, hn⟩
    exact ⟨r, ⟨hr, hn⟩, rfl⟩

theorem State.whos_filter_sublist (l : List Request) (p : Request → Bool) :
    ((l.filter p).map Request.who).Sublist (l.map Request.who) := List.filter_sublist.map _

theorem State.unlist_attends (s : State) (hj : q ≠ .journal) (ht : touch q) : Attends touch s (s.unlist q) where
  orderly o :=
    { nodup := o.nodup.sublist (State.whos_filter_sublist _ _)
      awaited := fun a ha hw h => o.awaited a ha hw ((State.whos_filter_sublist _ _).subset h)
      journal := o.journal.of_iff (by
        rw [State.busy_unlist, State.busy]; simp only [hj.symm, ne_eq, not_false_eq_true, and_true]) Iff.rfl }
  busy p hp _ := by
    have hne : p ≠ q := fun e => hp (e ▸ ht)
    rw [State.busy_unlist, State.busy]
    simp only [hne, ne_eq, not_false_eq_true, and_true]
  port := .inl rfl

theorem State.busy_withdrawBy (s : State) (named : Requester → Bool) (q : Requester) :
    (s.withdrawBy named).busy q ↔ s.busy q ∧ named q = false := by
  simp only [State.busy, State.withdrawBy_requests, List.mem_map, List.mem_filter, Bool.not_eq_true']
  constructor
  · rintro (⟨r, ⟨hr, hn⟩, rfl⟩ | ⟨a, ha, hw, rfl⟩)
    · exact ⟨.inl ⟨r, hr, rfl⟩, hn⟩
    · cases hp : s.port with
      | none => simp [State.withdrawBy, hp] at ha
      | some b =>
        cases hb : named b.req.who with
        | true =>
          rw [State.withdrawBy_port_named hp hb] at ha
          obtain rfl := Option.some.inj ha
          exact absurd hw (by simp)
        | false =>
          rw [State.withdrawBy_port_other hp hb] at ha
          obtain rfl := Option.some.inj ha
          exact ⟨.inr ⟨b, rfl, hw, rfl⟩, hb⟩
  · rintro ⟨⟨r, hr, rfl⟩ | ⟨a, ha, hw, rfl⟩, hn⟩
    · exact .inl ⟨r, ⟨hr, hn⟩, rfl⟩
    · exact .inr ⟨a, State.withdrawBy_port_other ha hn, hw, rfl⟩

theorem State.withdrawBy_port_cases (s : State) (named : Requester → Bool) :
    (s.withdrawBy named).port = s.port ∨ ∃ a, s.port = some a ∧ named a.req.who = true ∧
      (s.withdrawBy named).port = some { req := a.req, withdrawn := true } := by
  cases hp : s.port with
  | none => exact .inl (by simp [State.withdrawBy, hp])
  | some a =>
    cases hn : named a.req.who with
    | true => exact .inr ⟨a, rfl, hn, State.withdrawBy_port_named hp hn⟩
    | false => exact .inl (State.withdrawBy_port_other hp hn)

/-- Order without JW's part of it is kept whoever withdraws. -/
theorem State.withdrawBy_tidy (o : s.Orderly) (named : Requester → Bool) :
    ((s.withdrawBy named).requests.map Request.who).Nodup ∧ ∀ a, (s.withdrawBy named).port = some a →
      a.withdrawn = false → a.req.who ∉ (s.withdrawBy named).requests.map Request.who := by
  refine ⟨o.nodup.sublist (State.whos_filter_sublist _ _), fun a ha hw h => ?_⟩
  have hl := (State.whos_filter_sublist _ _).subset h
  rcases s.withdrawBy_port_cases named with e | ⟨b, -, -, e⟩
  · exact o.awaited a (e ▸ ha) hw hl
  · obtain rfl := Option.some.inj (e.symm.trans ha)
    exact absurd hw (by simp)

theorem State.withdrawBy_attends (s : State) {named : Requester → Bool} (hj : named .journal = false)
    (ht : ∀ q, named q = true → touch q) : Attends touch s (s.withdrawBy named) where
  orderly o :=
    { nodup := (State.withdrawBy_tidy o named).1
      awaited := (State.withdrawBy_tidy o named).2
      journal := o.journal.of_iff (by rw [State.busy_withdrawBy]; simp [hj]) Iff.rfl }
  busy q hq _ := by
    rw [State.busy_withdrawBy]
    exact and_iff_left (Bool.eq_false_iff.2 fun e => hq (ht q e))
  port := (s.withdrawBy_port_cases named).imp_right fun ⟨a, ha, hn, e⟩ => ⟨a, ha, ht _ hn, e⟩

theorem State.withdraw_attends (s : State) (hj : q ≠ .journal) (ht : touch q) :
    Attends touch s (s.withdraw q) :=
  s.withdrawBy_attends (by simpa using hj.symm) fun p hp => (by simpa using hp : p = q) ▸ ht

theorem State.not_busy_withdraw (s : State) (q : Requester) : ¬ (s.withdraw q).busy q := by
  rw [State.withdraw, State.busy_withdrawBy]; simp

/-! ### Grants (R73, R77) -/

theorem State.Orderly.grant (o : s.Orderly) (hp : s.port = none) {r : Request} (hr : r ∈ s.requests) :
    (s.grant r).Orderly ∧ ∀ q, (s.grant r).busy q ↔ s.busy q := by
  have perm : (s.requests.map Request.who).Perm (r.who :: (s.requests.erase r).map Request.who) :=
    (List.perm_cons_erase hr).map Request.who
  have nodup := List.nodup_cons.1 (perm.nodup_iff.1 o.nodup)
  have busy : ∀ q, (s.grant r).busy q ↔ s.busy q := fun q => by
    simp only [State.busy, State.grant_requests, State.grant_port, hp, perm.mem_iff, List.mem_cons]
    simp only [Option.some.injEq, exists_eq_left', reduceCtorEq, false_and, exists_false, or_false, true_and]
    exact ⟨fun h => h.elim .inr fun e => .inl e.symm, fun h => h.elim (fun e => .inr e.symm) .inl⟩
  refine ⟨⟨nodup.2, fun a ha _ => ?_, o.journal.of_iff (busy _) Iff.rfl⟩, busy⟩
  obtain rfl := Option.some.inj ha
  exact nodup.1

/-- What the end of an event does at the arbiter, of arrivals and of a performance alike. -/
structure Granted (s t : State) : Prop where
  orderly : s.Orderly → t.Orderly
  busy : s.Orderly → ∀ q, t.busy q ↔ s.busy q
  due : NoGrantDue t
  keeps : ∀ a, s.port = some a → t.port = some a
  fresh : s.port = none → ∀ a, t.port = some a → a.withdrawn = false
  frame : ChangesOnly [.requests, .port, .copyPtr] s t

theorem State.arrivals_granted (s : State) : Granted s s.arrivals := by
  have frame := arrivals_frame s
  rcases s.arrivals_cases with ⟨e, -⟩ | ⟨r, rs, hp, hr, e⟩
  · exact ⟨fun o => e.symm ▸ o, fun _ q => by rw [e], s.noGrantDue_arrivals, fun a ha => e.symm ▸ ha,
      fun h a ha => by simp [e, h] at ha, frame⟩
  · have hm : r ∈ s.requests := hr ▸ List.mem_cons_self
    refine ⟨fun o => e ▸ (o.grant hp hm).1, fun o q => e ▸ (o.grant hp hm).2 q, s.noGrantDue_arrivals,
      fun a ha => by simp [hp] at ha, fun _ a ha => ?_, frame⟩
    rw [e, State.grant_port] at ha
    exact Option.some.inj ha ▸ rfl

theorem State.regrant_granted (s : State) : Granted s s.regrant := by
  have frame := regrant_frame s
  rcases s.regrant_cases with ⟨e, -⟩ | ⟨r, hp, hc, e⟩
  · exact ⟨fun o => e.symm ▸ o, fun _ q => by rw [e], s.noGrantDue_regrant, fun a ha => e.symm ▸ ha,
      fun h a ha => by simp [e, h] at ha, frame⟩
  · have hm : r ∈ s.requests := (s.choose_some hc).1
    refine ⟨fun o => e ▸ (o.grant hp hm).1, fun o q => e ▸ (o.grant hp hm).2 q, s.noGrantDue_regrant,
      fun a ha => by simp [hp] at ha, fun _ a ha => ?_, frame⟩
    rw [e, State.grant_port] at ha
    exact Option.some.inj ha ▸ rfl

/-! ### Offers to JW (R185–R187, R189) -/

theorem State.requestJournal_attends_cons {e : JEntry} {es : List JEntry} (h : s.journal.queue = e :: es)
    (nodup : (s.requests.map Request.who).Nodup)
    (awaited : ∀ a, s.port = some a → a.withdrawn = false → a.req.who ∉ s.requests.map Request.who)
    (free : ¬ s.busy .journal) : s.requestJournal.Orderly := by
  rw [State.requestJournal_cons h]
  exact
    { nodup := (State.nodup_join nodup awaited free).1
      awaited := (State.nodup_join nodup awaited free).2
      journal := by simp [State.served, State.hasWork, State.busy_join, h] }

/-- JW's request for its head entry concerns no other requester. -/
theorem State.requestJournal_busy (s : State) (hq : q ≠ .journal) : s.requestJournal.busy q ↔ s.busy q := by
  cases h : s.journal.queue with
  | nil => simp only [State.requestJournal, h]
  | cons e es =>
    rw [State.requestJournal_cons h, State.busy_join]
    exact or_iff_left hq

theorem State.acceptEntry_attends (s : State) (e : JEntry) : Attends noOne s (s.acceptEntry e) := by
  unfold State.acceptEntry
  split
  · split
    · next hq =>
      have hp : ((s.modJournal fun j => { j with queue := j.queue ++ [e] }).requestJournal).port = s.port :=
        requestJournal_frame _ .port (by decide)
      refine ⟨fun o => ?_, fun q _ hj => State.requestJournal_busy _ hj, .inl hp⟩
      exact State.requestJournal_attends_cons (e := e) (es := [])
        (s := s.modJournal fun j => { j with queue := j.queue ++ [e] }) (by simp [hq]) o.nodup o.awaited
        fun hb => o.journal.1 hb hq
    · next hq => exact .of_eq rfl rfl (by simp [hq])
  · exact .of_eq rfl rfl Iff.rfl

theorem State.offer_attends (s : State) (e : JEntry) : Attends noOne s (s.offer e) := by
  unfold State.offer
  split
  · exact .refl _ s
  · split
    case h_4 =>
      split
      · exact (State.acceptEntry_attends _ e).before rfl rfl Iff.rfl
      · exact .refl _ s
    case h_5 =>
      split
      · exact s.acceptEntry_attends e
      · exact .refl _ s
    case h_6 =>
      split
      · exact .of_eq rfl rfl Iff.rfl
      · exact .refl _ s
    all_goals exact .refl _ s

theorem State.raise_attends (s : State) (k : Kind) (source : Option Nat) (d1 d2 : Word) :
    Attends touch s (s.raise k source d1 d2) :=
  Attends.of_noOne (Attends.before (s := s) (State.offer_attends (s.setFlag k) _) rfl rfl Iff.rfl)

theorem State.raiseStopped_attends (s : State) (d1 d2 : Word) : Attends touch s (s.raiseStopped d1 d2) := by
  have offer : Attends touch s _ := Attends.of_noOne (Attends.before (s := s)
    (State.offer_attends (s.setFlag .stopped)
      { kind := .stopped, source := none, time := s.timeBase, detail1 := d1, detail2 := d2 }) rfl rfl Iff.rfl)
  unfold State.raiseStopped State.offerStopped
  dsimp only
  split
  case h_1 => exact offer.after rfl rfl (by simp only [State.modJournal_journal])
  case h_2 =>
    split
    · exact offer.after rfl rfl (by simp only [State.modJournal_journal])
    · exact offer.after rfl rfl (by simp only [State.modJournal_journal])
  all_goals exact offer

theorem State.commit_attends (s : State) (w : Fin 16) (k : Fin 8) (seq : Half) (time : Word)
    (source : Option (Fin 8)) (copied : Nat) : Attends touch s (s.commit w k seq time source copied) := by
  have resumed : ∀ (u b : State), Attends touch u (u.raiseResumed b w) := fun u b =>
    Attends.foldl _ (fun t v => by
      split
      · exact t.raise_attends _ _ _ _
      · exact .refl _ t) _ u
  exact (Attends.before (s := s)
    (resumed ((s.modPool w fun p => p.commit k seq time source).noticeRecord w) s) rfl rfl Iff.rfl).trans
    (State.offer_attends _ _).of_noOne

end Sys2Proof.Machine

/-! SUPPORT. The law of the request list inside an event and at its end: who is served, grants, and the
performance of an access (R73–R76). -/

namespace Sys2Proof.Machine

section
variable {s t u : State} {q : Requester} {S touch : Requester → Prop}

/-- Order at the arbiter, and every requester of a set served. -/
structure Serves (S : Requester → Prop) (s : State) : Prop where
  orderly : s.Orderly
  served : ∀ q, S q → s.served q

theorem Serves.mono {S' : Requester → Prop} (h : Serves S s) (hq : ∀ q, S' q → S q) : Serves S' s :=
  ⟨h.orderly, fun q e => h.served q (hq q e)⟩

theorem requestLaw_iff_serves (s : State) : RequestLaw s ↔ Serves (fun q => ¬ q.isOut) s ∧ NoGrantDue s := by
  rw [requestLaw_iff]
  exact ⟨fun ⟨o, n, h⟩ => ⟨⟨o, h⟩, n⟩, fun ⟨⟨o, h⟩, n⟩ => ⟨o, n, h⟩⟩

theorem Serves.of_attends (h : Serves S s) (k : Attends touch s u)
    (work : ∀ q, S q → ¬ touch q → (u.hasWork q ↔ s.hasWork q)) (served : ∀ q, S q → touch q → u.served q) :
    Serves S u where
  orderly := k.orderly h.orderly
  served q hq := by
    by_cases hj : q = .journal
    · exact hj ▸ (k.orderly h.orderly).journal
    · by_cases ht : touch q
      · exact served q hq ht
      · exact (h.served q hq).of_iff (k.busy q ht hj) (work q hq ht)

/-- An operation that names no requester and leaves alone the parts the work stands in. -/
theorem Serves.of_noOne (h : Serves S s) (k : Attends noOne s u)
    (work : ∀ q, S q → q ≠ .journal → (u.hasWork q ↔ s.hasWork q)) : Serves S u where
  orderly := k.orderly h.orderly
  served q hq := by
    by_cases hj : q = .journal
    · exact hj ▸ (k.orderly h.orderly).journal
    · exact (h.served q hq).of_iff (k.busy q id hj) (work q hq hj)

/-- What leaves requests, port and all work as they are. -/
theorem Serves.of_eq (h : Serves S s) (hr : u.requests = s.requests) (hp : u.port = s.port)
    (work : ∀ q, u.hasWork q ↔ s.hasWork q) : Serves S u where
  orderly := h.orderly.of_eq hr hp (by simpa [State.hasWork] using not_congr (work .journal))
  served q hq := (h.served q hq).of_iff (State.busy_congr hr hp q) (work q)

theorem State.hasWork_of_items (hs : u.su = s.su) (ho : u.outs = s.outs) (hi : u.ins = s.ins)
    (hj : ∀ w, (u.pool w).job = (s.pool w).job) (hl : u.load = s.load) (hq : q ≠ .journal) :
    u.hasWork q ↔ s.hasWork q := by
  cases q with
  | host => exact State.hasWork_congr hs
  | outLane x => exact State.hasWork_congr ho
  | inLane y => exact State.hasWork_congr hi
  | copyJob w => simp only [State.hasWork, hj]
  | load => exact State.hasWork_congr hl
  | journal => exact absurd rfl hq

theorem Serves.granted (h : Serves S u) (g : Granted u t) : Serves S t where
  orderly := g.orderly h.orderly
  served q hq := (h.served q hq).of_iff (g.busy h.orderly q)
    (State.hasWork_of_frame g.frame (by cases q <;> simp [Requester.item]))

/-! ### A performance (R73, R80) -/

theorem State.busy_complete (s : State) (r : Request) (q : Requester) :
    (s.complete r).busy q ↔ q ∈ s.requests.map Request.who := by
  simp [State.busy]

/-- An access whose requester has withdrawn serves nobody. -/
theorem State.busy_complete_withdrawn {a : Access} (hp : s.port = some a) (hw : a.withdrawn = true) (r : Request)
    (q : Requester) : (s.complete r).busy q ↔ s.busy q := by
  rw [State.busy_complete, State.busy]
  refine ⟨.inl, fun h => h.resolve_right ?_⟩
  rintro ⟨b, hb, hf, -⟩
  obtain rfl := Option.some.inj (hp.symm.trans hb)
  simp [hw] at hf

theorem State.busy_complete_awaited {a : Access} (hp : s.port = some a) (r : Request) (hq : q ≠ a.req.who) :
    (s.complete r).busy q ↔ s.busy q := by
  rw [State.busy_complete, State.busy]
  refine ⟨.inl, fun h => h.resolve_right ?_⟩
  rintro ⟨b, hb, -, hf⟩
  obtain rfl := Option.some.inj (hp.symm.trans hb)
  exact hq hf.symm

theorem State.Orderly.not_busy_complete (o : s.Orderly) {a : Access} (hp : s.port = some a)
    (hw : a.withdrawn = false) (r : Request) : ¬ (s.complete r).busy a.req.who := by
  rw [State.busy_complete]; exact o.awaited a hp hw

theorem State.hasWork_complete (s : State) (r : Request) (q : Requester) :
    (s.complete r).hasWork q ↔ s.hasWork q :=
  State.hasWork_of_frame (complete_frame s r) (by cases q <;> simp [Requester.item])

theorem Serves.complete_withdrawn (h : Serves S s) {a : Access} (hp : s.port = some a) (hw : a.withdrawn = true)
    (r : Request) : Serves S (s.complete r) where
  orderly :=
    { nodup := h.orderly.nodup
      awaited := fun b hb => by simp at hb
      journal := h.orderly.journal.of_iff (State.busy_complete_withdrawn hp hw r _) (s.hasWork_complete r _) }
  served q hq := (h.served q hq).of_iff (State.busy_complete_withdrawn hp hw r q) (s.hasWork_complete r q)

/-- Between the performance of an awaited access and its requester's reaction everybody else is served. -/
theorem Serves.complete_awaited (h : Serves S s) {a : Access} (hp : s.port = some a)
    (hj : a.req.who ≠ .journal) (r : Request) :
    Serves (fun q => S q ∧ q ≠ a.req.who) (s.complete r) where
  orderly :=
    { nodup := h.orderly.nodup
      awaited := fun b hb => by simp at hb
      journal := h.orderly.journal.of_iff (State.busy_complete_awaited hp r hj.symm) (s.hasWork_complete r _) }
  served q hq := (h.served q hq.1).of_iff (State.busy_complete_awaited hp r hq.2) (s.hasWork_complete r q)

/-- What the reaction of the requester `q` has to do for everybody to be served again. -/
theorem Serves.of_reaction {q : Requester} (h : Serves (fun p => S p ∧ p ≠ q) s) (k : Attends touch s u) (ht : touch q)
    (work : ∀ p, S p → ¬ touch p → (u.hasWork p ↔ s.hasWork p)) (served : ∀ p, S p → touch p → u.served p) :
    Serves S u where
  orderly := k.orderly h.orderly
  served p hp := by
    by_cases hj : p = .journal
    · exact hj ▸ (k.orderly h.orderly).journal
    · by_cases e : touch p
      · exact served p hp e
      · exact (h.served p ⟨hp, fun c => e (c ▸ ht)⟩).of_iff (k.busy p e hj) (work p hp e)

/-- A performance serves everybody again if the reaction to an awaited access does. -/
theorem Serves.performance {about : Request → Bool} {react drop : Request → State → State} (h : Serves S s)
    (hn : NoGrantDue s) (hdrop : ∀ r v, about r = true → v.port = none → Serves S v → Serves S (drop r v))
    (hreact : ∀ a, s.port = some a → a.withdrawn = false → s.rst = false → about a.req = true →
      Serves S (react a.req (s.complete a.req)))
    (e : s.performance about react drop = .next t) : Serves S t ∧ NoGrantDue t := by
  rcases s.performance_cases about react drop with c | ⟨a, hp, hr, ha, c⟩
  · obtain rfl := Host.Outcome.next.inj (c.symm.trans e)
    exact ⟨h, hn⟩
  · obtain rfl := Host.Outcome.next.inj (c.symm.trans e)
    refine ⟨Serves.granted ?_ (State.regrant_granted _), (State.regrant_granted _).due⟩
    cases hw : a.withdrawn with
    | true => simpa [hw] using hdrop a.req _ ha rfl (h.complete_withdrawn hp hw a.req)
    | false => simpa [hw] using hreact a hp hw hr ha

/-! ### Events that are no performance -/

theorem Serves.arrivals (h : Serves S u) : Serves S u.arrivals ∧ NoGrantDue u.arrivals :=
  ⟨h.granted u.arrivals_granted, u.noGrantDue_arrivals⟩

theorem Serves.guarded {b : Bool} (hs : Serves S s) (hn : NoGrantDue s) (hu : b = true → Serves S u)
    (e : (if b then (.next u.arrivals : Out) else .next s) = .next t) : Serves S t ∧ NoGrantDue t := by
  rcases guarded_next e with rfl | ⟨hb, rfl⟩
  · exact ⟨hs, hn⟩
  · exact (hu hb).arrivals

theorem Serves.takeHead (h : Serves S s) : Serves S s.takeHead :=
  h.of_eq (s.takeHead_requests) (s.takeHead_port) fun q =>
    State.hasWork_of_frame (takeHead_frame s) (by cases q <;> simp [Requester.item])

/-- A requester without a request or access of its own makes one, as its work begins or goes on. -/
theorem Serves.ask {r : Request} (h : Serves (fun q => S q ∧ q ≠ r.who) s) (free : ¬ s.busy r.who)
    (hj : r.who ≠ .journal) (hr : u.requests = s.requests) (hp : u.port = s.port)
    (others : ∀ q, q ≠ r.who → (u.hasWork q ↔ s.hasWork q)) (work : u.hasWork r.who) : Serves S (u.join r) := by
  have free' : ¬ u.busy r.who := fun b => free ((State.busy_congr hr hp _).1 b)
  have jq : u.journal.queue = [] ↔ s.journal.queue = [] :=
    not_iff_not.1 (others .journal hj.symm)
  refine h.of_reaction (touch := (· = r.who))
    (Attends.before (State.join_attends (touch := (· = r.who)) hj free' rfl) hr hp jq) rfl
    (fun q _ hq => others q hq) fun q _ hq => ?_
  obtain rfl : q = r.who := hq
  exact iff_of_true (State.busy_join .. |>.2 (.inr rfl)) work

/-- A requester without a request or access of its own has its work end. -/
theorem Serves.rest (h : Serves (fun p => S p ∧ p ≠ q) s) (free : ¬ s.busy q) (hj : q ≠ .journal)
    (k : Attends noOne s u) (others : ∀ p, p ≠ q → p ≠ .journal → (u.hasWork p ↔ s.hasWork p))
    (idle : ¬ u.hasWork q) : Serves S u where
  orderly := k.orderly h.orderly
  served p hp := by
    by_cases hpj : p = .journal
    · exact hpj ▸ (k.orderly h.orderly).journal
    · by_cases e : p = q
      · subst e
        exact iff_of_false (fun b => free ((k.busy p id hj).1 b)) idle
      · exact (h.served p ⟨hp, e⟩).of_iff (k.busy p id hpj) (others p e hpj)

theorem Serves.but (h : Serves S s) (q : Requester) : Serves (fun p => S p ∧ p ≠ q) s := h.mono fun _ e => e.1

/-! ### Work after an update of one part -/

theorem State.hasWork_modPool (s : State) (w : Fin 16) (f : Pool → Pool) (hq : q ≠ .copyJob w) :
    (s.modPool w f).hasWork q ↔ s.hasWork q := by
  cases q with
  | copyJob v =>
    have hv : v ≠ w := fun e => hq (e ▸ rfl)
    simp [State.hasWork, hv]
  | _ => exact Iff.rfl

theorem State.hasWork_modOut (s : State) (x : Fin 6) (f : OutLane → OutLane) (hq : q ≠ .outLane x) :
    (s.modOut x f).hasWork q ↔ s.hasWork q := by
  cases q with
  | outLane z =>
    have hz : z ≠ x := fun e => hq (e ▸ rfl)
    simp [State.hasWork, hz]
  | _ => exact Iff.rfl

/-! ### The frames of the inbound lanes -/

/-- The law of the frames one inbound lane has in hand; `win` says that it has a window, `prog` that a write of
its is in progress. -/
def InLane.Framed (l : InLane) (win prog : Prop) : Prop :=
  (l.st = .receiving ↔ ∃ f ∈ l.frames.getLast?, f.outcome = .opened) ∧
  (∀ f ∈ l.frames.dropLast, f.outcome ≠ .opened) ∧ (∀ f ∈ l.frames.tail, f.outcome ≠ .discard) ∧
  (∀ f ∈ l.frames.head?, f.buffer ≠ none ∧ win ∧ (f.outcome = .good → f.halves ≠ []) ∧
    (f.outcome = .discard → f.halves = [] ∧ prog)) ∧
  l.halves.length ≤ 16

/-- In RUN the write an inbound lane has in progress is awaited (R161). -/
def State.writesAwaited (s : State) : Prop :=
  ∀ a, s.port = some a → a.withdrawn = true → (∃ y, a.req.who = .inLane y) → s.dev ≠ .run

theorem frameLaw_iff (s : State) : FrameLaw s ↔ s.writesAwaited ∧
    ∀ y, (s.inl y).Framed (s.inWindow y ≠ none) (s.inProgress (.inLane y) = true) := Iff.rfl

theorem InLane.Framed.mono {l : InLane} {win prog prog' : Prop} (h : l.Framed win prog) (hp : prog → prog') :
    l.Framed win prog' :=
  ⟨h.1, h.2.1, h.2.2.1, fun f hf => ⟨(h.2.2.2.1 f hf).1, (h.2.2.2.1 f hf).2.1, (h.2.2.2.1 f hf).2.2.1,
    fun e => ⟨((h.2.2.2.1 f hf).2.2.2 e).1, hp ((h.2.2.2.1 f hf).2.2.2 e).2⟩⟩, h.2.2.2.2⟩

theorem InLane.framed_of_empty {l : InLane} (hf : l.frames = []) (hs : l.st ≠ .receiving) (win prog : Prop) :
    l.Framed win prog := by
  simp [InLane.Framed, hf, hs, InLane.halves]

theorem State.inProgress_iff (s : State) (q : Requester) :
    s.inProgress q = true ↔ ∃ a, s.port = some a ∧ a.req.who = q := by
  unfold State.inProgress
  split
  · next a ha => simp [ha]
  · next ha => simp [ha]

theorem FrameLaw.granted (h : FrameLaw u) (g : Granted u t) : FrameLaw t := by
  obtain ⟨awaited, framed⟩ := (frameLaw_iff u).1 h
  refine (frameLaw_iff t).2 ⟨fun a ha hw hy => ?_, fun y => ?_⟩
  · rw [g.frame .dev (by decide)]
    cases hp : u.port with
    | none => exact absurd (g.fresh hp a ha) (by simp [hw])
    | some b =>
      obtain rfl := Option.some.inj ((g.keeps b hp).symm.trans ha)
      exact awaited b hp hw hy
  · rw [State.inl_congr (g.frame .ins (by decide)), State.inWindow_congr (g.frame .windows (by decide))]
    refine (framed y).mono fun hp => ?_
    obtain ⟨a, ha, hq⟩ := (u.inProgress_iff _).1 hp
    exact (t.inProgress_iff _).2 ⟨a, g.keeps a ha, hq⟩

/-- The performance of an access that no inbound lane has in progress. -/
theorem FrameLaw.complete (h : FrameLaw s) {a : Access} (hp : s.port = some a)
    (hq : ∀ y, a.req.who ≠ .inLane y) (r : Request) : FrameLaw (s.complete r) := by
  obtain ⟨-, framed⟩ := (frameLaw_iff s).1 h
  refine (frameLaw_iff _).2 ⟨fun b hb => by simp at hb, fun y => (framed y).mono fun hp' => ?_⟩
  obtain ⟨b, hb, hy⟩ := (s.inProgress_iff _).1 hp'
  obtain rfl := Option.some.inj (hp.symm.trans hb)
  exact absurd hy (hq y)

/-- Outside RUN no inbound lane has a frame in hand. -/
theorem frameLaw_of_not_run (hd : u.dev ≠ .run) (hi : ∀ y, (u.inl y).st = .idle ∧ (u.inl y).frames = []) :
    FrameLaw u :=
  (frameLaw_iff u).2 ⟨fun _ _ _ _ => hd, fun y =>
    InLane.framed_of_empty (hi y).2 (by simp [(hi y).1]) _ _⟩

theorem FrameLaw.arrivals (h : FrameLaw u) : FrameLaw u.arrivals := h.granted u.arrivals_granted

theorem FrameLaw.guarded {b : Bool} (hs : FrameLaw s) (hu : b = true → FrameLaw u)
    (e : (if b then (.next u.arrivals : Out) else .next s) = .next t) : FrameLaw t := by
  rcases guarded_next e with rfl | ⟨hb, rfl⟩
  · exact hs
  · exact (hu hb).arrivals

/-- A performance whose reaction, to an awaited access and to a withdrawn one, keeps the frames. -/
theorem FrameLaw.performance {about : Request → Bool} {react drop : Request → State → State} (h : FrameLaw s)
    (hreact : ∀ a, s.port = some a → s.rst = false → about a.req = true → FrameLaw
      (if a.withdrawn then drop a.req (s.complete a.req) else react a.req (s.complete a.req)))
    (e : s.performance about react drop = .next t) : FrameLaw t := by
  rcases s.performance_cases about react drop with c | ⟨a, hp, hr, ha, c⟩
  · exact Host.Outcome.next.inj (c.symm.trans e) ▸ h
  · obtain rfl := Host.Outcome.next.inj (c.symm.trans e)
    exact (hreact a hp hr ha).granted (State.regrant_granted _)

end

end Sys2Proof.Machine

/-! SUPPORT. The law of the request list over the events of the host port, of closes and copy-forward, of JW and
of run control (R36–R38, R50, R61, R168, R174, R187). -/

namespace Sys2Proof.Machine

/-- The requester is a lane, whose work has laws of its own. -/
def Requester.isLane : Requester → Prop
  | .outLane _ => True
  | .inLane _ => True
  | _ => False

section
variable {s t u c : State} {q : Requester} {S : Requester → Prop} {w : Fin 16} {x : HostWrite}

/-! ### SU (R50, R61) -/

theorem State.hasWork_su (h : ChangesOnly [.queue, .waiting, .readData, .su] s u) (hq : q ≠ .host) :
    u.hasWork q ↔ s.hasWork q := by
  refine State.hasWork_of_frame h ?_
  cases q <;> simp [Requester.item] at hq ⊢

theorem Serves.not_busy (h : Serves S s) (hq : S q) (hw : ¬ s.hasWork q) : ¬ s.busy q :=
  fun b => hw ((h.served q hq).1 b)

/-- SU, free, hands an access to the arbiter and is busy with it. -/
theorem Serves.suAsks (hS : S .host) (h : Serves S s) (hsu : s.su = .free)
    (f : ChangesOnly [.queue, .waiting, .readData, .su] s u) (hu : u.su ≠ .free) {r : Request} (hr : r.who = .host) :
    Serves S (u.join r) :=
  (h.but r.who).ask (hr ▸ h.not_busy hS (by simp [State.hasWork, hsu])) (by simp [hr]) (f .requests (by decide))
    (f .port (by decide)) (fun _ hq => State.hasWork_su f (hr ▸ hq)) (hr ▸ hu)

theorem Serves.handWrite (hS : S .host) (h : Serves S s) (hsu : s.su = .free) (x : HostWrite) (a : MemAdr)
    (m : Option PayloadRef) : Serves S (s.takeHead.handWrite x a m) ∧ NoGrantDue (s.takeHead.handWrite x a m) := by
  refine Serves.arrivals (Serves.suAsks (s := s) (u := { s.takeHead with su := .writing m }) hS h hsu ?_ nofun rfl)
  obtain ⟨q, v, e⟩ := s.takeHead_eq
  rw [e]
  intro g hg
  cases g <;> simp [State.sameAt] at hg ⊢

/-- SU finishes its access. -/
theorem Serves.suRests (h : Serves (fun q => S q ∧ q ≠ .host) s) (free : ¬ s.busy .host)
    (f : ChangesOnly [.waiting, .readData, .su, .pools] s u) (hj : ∀ v, (u.pool v).job = (s.pool v).job)
    (hu : u.su = .free) : Serves S u :=
  h.rest free nofun (.of_frame f (by decide) (by decide) (by decide))
    (fun q hq hn => by
      cases q with
      | host => exact absurd rfl hq
      | copyJob v => simp only [State.hasWork, hj]
      | journal => exact absurd rfl hn
      | _ => exact State.hasWork_of_frame f (by simp [Requester.item])) (by simp [State.hasWork, hu])

theorem State.markPayload_job (s : State) (p : PayloadRef) (be : Enables) (v : Fin 16) :
    ((s.markPayload (some p) be).pool v).job = (s.pool v).job := by
  rw [State.markPayload, State.pool_modPool]
  split
  · next e => rw [e]; rfl
  · rfl

theorem Serves.hostWord (h : Serves (fun q => S q ∧ q ≠ .host) c) (free : ¬ c.busy .host) (r : Request) :
    Serves S (c.hostWord r) := by
  unfold State.hostWord
  split
  · next hsu => exact h.suRests free (.refl _ c) (fun _ => rfl) hsu
  · next m hsu =>
    refine h.suRests free (fun g hg => ?_) (fun v => ?_) rfl
    · cases m <;> cases g <;> simp [State.sameAt, State.markPayload] at hg ⊢
    · cases m with
      | none => rfl
      | some p => exact c.markPayload_job p r.be v
  · next cur rest acc hsu =>
    dsimp only
    split
    · exact h.suRests free ((answer_frame _ _).mono (by decide)) (fun _ => rfl) rfl
    · next p ps =>
      have f : ChangesOnly [.queue, .waiting, .readData, .su] c
          { c with su := .reading p ps (mergeBytes acc (c.mem.readWord r.adr) cur.keep) } := fun g hg => by
        cases g <;> simp [State.sameAt] at hg ⊢
      exact Serves.ask (r := { who := .host, write := false, adr := p.adr, be := p.be, data := 0, urgent := false })
        h free nofun rfl rfl (fun q hq => State.hasWork_su f hq) nofun

/-! ### Closes and copy-forward (R31–R38) -/

theorem Serves.raise (h : Serves S s) (k : Kind) (source : Option Nat) (d1 d2 : Word) :
    Serves S (s.raise k source d1 d2) :=
  h.of_noOne (s.raise_attends k source d1 d2) fun q _ hj =>
    State.hasWork_of_frame (raise_frame s k source d1 d2) (by cases q <;> simp [Requester.item] at hj ⊢)

theorem Serves.modPool (h : Serves S s) (w : Fin 16) (f : Pool → Pool)
    (hf : (f (s.pool w)).job = (s.pool w).job) : Serves S (s.modPool w f) :=
  h.of_eq rfl rfl fun q => by
    by_cases hq : q = .copyJob w
    · simp [hq, State.hasWork, hf]
    · exact s.hasWork_modPool w f hq

theorem State.hasWork_commit (s : State) (w : Fin 16) (k : Fin 8) (seq : Half) (time : Word)
    (source : Option (Fin 8)) (copied : Nat) (hj : q ≠ .journal) :
    (s.commit w k seq time source copied).hasWork q ↔ s.hasWork q := by
  have f := commit_frame s w k seq time source copied
  refine State.hasWork_of_items (f .su (by decide)) (f .outs (by decide)) (f .ins (by decide)) (fun v => ?_)
    (f .load (by decide)) hj
  by_cases hv : v = w
  · exact hv ▸ (s.commit_rest w k seq time source copied).2.2.2
  · rw [s.commit_others w k seq time source copied v hv]

theorem Serves.commit (h : Serves S s) (w : Fin 16) (k : Fin 8) (seq : Half) (time : Word)
    (source : Option (Fin 8)) (copied : Nat) : Serves S (s.commit w k seq time source copied) :=
  h.of_noOne (s.commit_attends w k seq time source copied) fun _ _ hj =>
    s.hasWork_commit w k seq time source copied hj

/-- A job without a request or access seeks: it requests its next read, or it ends (R36, R38). -/
theorem Serves.seek (h : Serves (fun q => S q ∧ q ≠ .copyJob w) s) (free : ¬ s.busy (.copyJob w)) (j : CopyJob) :
    Serves S (s.seek w j) := by
  cases hg : ((s.pool w).bufs[j.target].map).gap (s.win w).payloadLength j.index with
  | some i =>
    rw [State.seek_some hg]
    exact Serves.ask (r := { who := .copyJob w, write := false, adr := (s.win w).copyAdr j i, be := 0xF, data := 0
                             urgent := false }) h free nofun rfl rfl
      (fun _ hq => s.hasWork_modPool w _ hq) (by simp [State.hasWork])
  | none =>
    rw [State.seek_none hg]
    refine h.rest free nofun (Attends.before (s := s) (State.commit_attends _ w _ _ _ _ _) rfl rfl Iff.rfl)
      (fun q hq hj => (State.hasWork_commit _ w _ _ _ _ _ hj).trans (s.hasWork_modPool w _ hq)) ?_
    rw [State.endJob, State.hasWork_commit _ w _ _ _ _ _ (q := .copyJob w) nofun]
    simp [State.hasWork]

theorem Serves.copyRead (h : Serves (fun q => S q ∧ q ≠ .copyJob w) c) (free : ¬ c.busy (.copyJob w)) (v : Word) :
    Serves S (c.copyRead w v) := by
  unfold State.copyRead
  split
  · next hj => exact h.rest free nofun (.refl _ c) (fun _ _ _ => Iff.rfl) (by simp [State.hasWork, hj])
  · exact h.ask free nofun rfl rfl (fun _ hq => c.hasWork_modPool w _ hq) (by simp [State.hasWork])

theorem Serves.copyWrite (h : Serves (fun q => S q ∧ q ≠ .copyJob w) c) (free : ¬ c.busy (.copyJob w))
    (be : Enables) : Serves S (c.copyWrite w be) := by
  unfold State.copyWrite
  split
  · next hj => exact h.rest free nofun (.refl _ c) (fun _ _ _ => Iff.rfl) (by simp [State.hasWork, hj])
  · exact (h.modPool w _ rfl).seek (fun b => free ((State.busy_congr rfl rfl _).1 b)) _

theorem Serves.decideClose (hS : S (.copyJob w)) (h : Serves S s)
    (hj : (∀ k : Fin 8, (s.pool w).bufs[k].st ≠ .committing) → (s.pool w).job = none) (x : HostWrite) :
    Serves S (s.decideClose w x) := by
  rcases s.decideClose_cases w x with e | ⟨o, -, -, e⟩ | ⟨k0, k1, ho, h0, h1, e⟩
  · exact e.symm ▸ h
  · rw [e]
    exact (h.modPool w _ rfl).raise _ _ _ _
  · have none := hj (State.accepted_facts ho).2.2
    have accepted := h.modPool w (fun p => p.accept k0 k1 (closeSeq x) s.timeBase) rfl
    rw [e]
    split
    · exact accepted.commit w _ _ _ _ _
    · rw [State.startJob_accepted (Pool.find_some h0) (State.freeBuffer_some h1).2]
      refine ((h.modPool w (fun p => p.handOver k0 k1 (closeSeq x) s.timeBase) ?_).but _).seek (fun b => ?_) _
      · rw [Pool.handOver_rest]
      · exact h.not_busy hS (by simp [State.hasWork, none]) ((State.busy_congr rfl rfl _).1 b)

/-! ### JW (R187, R188) -/

/-- JW has no request and no access, and the others are in order. -/
structure JournalIdle (s : State) : Prop where
  nodup : (s.requests.map Request.who).Nodup
  awaited : ∀ a, s.port = some a → a.withdrawn = false → a.req.who ∉ s.requests.map Request.who
  free : ¬ s.busy .journal

theorem JournalIdle.of_eq (h : JournalIdle s) (hr : u.requests = s.requests) (hp : u.port = s.port) :
    JournalIdle u where
  nodup := hr ▸ h.nodup
  awaited := by rw [hr, hp]; exact h.awaited
  free b := h.free ((State.busy_congr hr hp _).1 b)

theorem JournalIdle.orderly (h : JournalIdle s) (hq : s.journal.queue = []) : s.Orderly where
  nodup := h.nodup
  awaited := h.awaited
  journal := iff_of_false h.free (by simp [State.hasWork, hq])

/-- JW goes on: it is served again, and nobody else is concerned. -/
structure JournalResumes (s u : State) : Prop where
  orderly : u.Orderly
  busy : ∀ q, q ≠ .journal → (u.busy q ↔ s.busy q)

theorem JournalIdle.resumes_empty (h : JournalIdle s) (hr : u.requests = s.requests) (hp : u.port = s.port)
    (hq : u.journal.queue = []) : JournalResumes s u :=
  ⟨(h.of_eq hr hp).orderly hq, fun q _ => State.busy_congr hr hp q⟩

theorem JournalIdle.resumes_request (h : JournalIdle s) (hr : u.requests = s.requests) (hp : u.port = s.port)
    (hq : u.journal.queue ≠ []) : JournalResumes s u.requestJournal := by
  obtain ⟨e, es, he⟩ := List.exists_cons_of_ne_nil hq
  have idle := h.of_eq hr hp
  exact ⟨State.requestJournal_attends_cons he idle.nodup idle.awaited idle.free,
    fun q hj => (u.requestJournal_busy hj).trans (State.busy_congr hr hp q)⟩

theorem JournalIdle.nextEntry (h : JournalIdle s) (hr : u.requests = s.requests) (hp : u.port = s.port) :
    JournalResumes s u.nextEntry := by
  unfold State.nextEntry
  split
  · next hq =>
    split
    · exact h.resumes_empty hr hp hq
    · exact h.resumes_empty hr hp hq
  · next hq => exact h.resumes_request hr hp hq

theorem State.haltJournal_queue (s : State) : s.haltJournal.journal.queue = [] := by
  unfold State.haltJournal
  dsimp only
  split <;> simp [State.loseEntries]

theorem JournalIdle.journalWord (h : JournalIdle s) : JournalResumes s s.journalWord := by
  unfold State.journalWord
  split
  · next hq => exact h.resumes_empty rfl rfl hq
  · next hq =>
    split
    · exact h.resumes_request rfl rfl hq
    · unfold State.entryWritten
      dsimp only
      split
      · split
        · exact h.nextEntry rfl rfl
        · have f := haltJournal_frame (s.modJournal fun j => { j with queue := j.queue.tail, wordCount := 0 })
          exact h.resumes_empty (f .requests (by decide)) (f .port (by decide)) (State.haltJournal_queue _)
      · exact h.nextEntry rfl rfl

theorem Serves.journalWord (h : Serves S s) {a : Access} (hp : s.port = some a) (hw : a.withdrawn = false)
    (hq : a.req.who = .journal) : Serves S (s.complete a.req).journalWord := by
  have idle : JournalIdle (s.complete a.req) :=
    ⟨h.orderly.nodup, fun b hb => by simp at hb, hq ▸ h.orderly.not_busy_complete hp hw a.req⟩
  have f := journalWord_frame (s.complete a.req)
  refine ⟨idle.journalWord.orderly, fun q hSq => ?_⟩
  by_cases hj : q = .journal
  · exact hj ▸ idle.journalWord.orderly.journal
  · refine (h.served q hSq).of_iff
      ((idle.journalWord.busy q hj).trans (State.busy_complete_awaited hp _ (hq ▸ hj))) ?_
    exact (State.hasWork_of_frame f (by cases q <;> simp [Requester.item] at hj ⊢)).trans (s.hasWork_complete _ q)

/-! ### START and STOP (R166, R167, R174, R175) -/

/-- What leaves the work of everybody but the load alone. -/
theorem State.hasWork_control (f : ChangesOnly [.outcome, .dev, .load, .startReached] s u) (hq : q ≠ .load) :
    u.hasWork q ↔ s.hasWork q := by
  refine State.hasWork_of_frame f ?_
  cases q <;> simp [Requester.item] at hq ⊢

theorem Serves.control (h : Serves S s) (f : ChangesOnly [.outcome, .dev, .load, .startReached] s u)
    (hl : u.load = s.load) : Serves S u :=
  h.of_eq (f .requests (by decide)) (f .port (by decide)) fun q => by
    by_cases hq : q = .load
    · subst hq; exact State.hasWork_congr hl
    · exact State.hasWork_control f hq

/-- The state in which a START request is accepted (R167). -/
def State.loadBegun (s : State) : State := { s with outcome := .done, dev := .loading, load := some LoadJob.fresh }

theorem State.loadBegun_frame (s : State) : ChangesOnly [.outcome, .dev, .load, .startReached] s s.loadBegun :=
  fun g hg => by cases g <;> simp [State.sameAt, State.loadBegun] at hg ⊢

theorem State.outcome_frame (s : State) (o : ReqOutcome) :
    ChangesOnly [.outcome, .dev, .load, .startReached] s { s with outcome := o } :=
  fun g hg => by cases g <;> simp [State.sameAt] at hg ⊢

theorem Serves.start (hS : S .load) (h : Serves S s) (hl : s.dev = .setup → s.load = none) : Serves S s.start := by
  unfold State.start
  split
  · next hd =>
    exact (h.but .load).ask (u := s.loadBegun) (h.not_busy hS (by simp [State.hasWork, hl hd])) nofun rfl rfl
      (fun q hq => State.hasWork_control s.loadBegun_frame hq) rfl
  · exact h.control (s.outcome_frame .refused) rfl

theorem Serves.raiseStopped (h : Serves S s) (d1 d2 : Word) : Serves S (s.raiseStopped d1 d2) :=
  h.of_noOne (s.raiseStopped_attends d1 d2) fun q _ hj =>
    State.hasWork_of_frame (raiseStopped_frame s d1 d2) (by cases q <;> simp [Requester.item] at hj ⊢)

theorem Serves.mapPools (h : Serves S s) (f : Fin 16 → Pool → Pool) (hf : ∀ w p, (f w p).job = p.job) :
    Serves S (s.mapPools f) :=
  h.of_eq rfl rfl fun q => by
    cases q with
    | copyJob w => simp [State.hasWork, hf]
    | _ => exact State.hasWork_of_frame (mapPools_frame s f) (by simp [Requester.item])

theorem Serves.setupEntry (h : Serves S s) : Serves S s.setupEntry := by
  have f : ChangesOnly [.outcome, .dev, .load, .startReached] s { s with dev := .setup, startReached := false } :=
    fun g hg => by cases g <;> simp [State.sameAt] at hg ⊢
  have torn : Serves S s.tornDown := (h.control f rfl).mapPools (fun _ p => p.teardown) fun _ _ => rfl
  exact s.setupEntry_eq ▸ torn.raiseStopped _ _

theorem State.stopBlocks_attends (s : State) : Attends (fun q => stopWithdraws q = true) s s.stopBlocks :=
  Attends.after (t := s.withdrawBy stopWithdraws) (s.withdrawBy_attends (named := stopWithdraws) rfl fun _ e => e)
    rfl rfl Iff.rfl

theorem State.not_busy_stopBlocks (s : State) (hq : stopWithdraws q = true) : ¬ s.stopBlocks.busy q := by
  rw [State.busy_congr (s := s.withdrawBy stopWithdraws) (t := s.stopBlocks) rfl rfl, State.busy_withdrawBy, hq]
  simp

/-- A STOP taken in RUN ends the jobs and the inbound frames, whose requesters withdraw (R41, R161). -/
theorem Serves.stopBlocks (h : Serves S s) : Serves S s.stopBlocks := by
  refine h.of_attends s.stopBlocks_attends (fun q _ hq => ?_) fun q _ hq =>
    iff_of_false (s.not_busy_stopBlocks hq) ?_
  · cases q with
    | outLane x =>
      simp only [State.hasWork, State.stopBlocks_out]
      cases hst : (s.out x).st <;> simp [OutLane.stop, hst]
    | copyJob w => exact absurd rfl hq
    | inLane y => exact absurd rfl hq
    | host => exact State.hasWork_congr (q := .host) (stopBlocks_frame s .su (by decide))
    | load => exact State.hasWork_congr (q := .load) (stopBlocks_frame s .load (by decide))
    | journal => exact State.hasWork_congr (q := .journal) (stopBlocks_frame s .journal (by decide))
  · cases q with
    | copyJob w => simp [State.hasWork, (s.stopBlocks_rest).1 w]
    | inLane y => simp [State.hasWork, ((s.stopBlocks_rest).2 y).2]
    | _ => simp [stopWithdraws] at hq

theorem Serves.stopRun (h : Serves S s) : Serves S s.stopRun := by
  rcases s.stopRun_cases with ⟨-, e⟩ | ⟨-, e⟩
  · exact e ▸ h.stopBlocks.setupEntry
  · exact e ▸ h.stopBlocks

/-- The state of an abandoned load before STOPPED is raised (R175). -/
def State.loadDropped (s : State) : State := { s.withdraw .load with load := none, dev := .setup }

theorem State.stopLoad_eq (s : State) :
    s.stopLoad = s.loadDropped.raiseStopped (num DevState.loading.code) 0 := rfl

theorem State.loadDropped_frame (s : State) :
    ChangesOnly [.outcome, .dev, .load, .startReached] (s.withdraw .load) s.loadDropped :=
  fun g hg => by cases g <;> simp [State.sameAt, State.loadDropped] at hg ⊢

theorem State.loadDropped_attends (s : State) : Attends (· = .load) s s.loadDropped :=
  Attends.after (t := s.withdraw .load) (s.withdraw_attends (q := .load) nofun rfl) rfl rfl Iff.rfl

theorem Serves.stopLoad (h : Serves S s) : Serves S s.stopLoad := by
  rw [State.stopLoad_eq]
  refine Serves.raiseStopped (h.of_attends s.loadDropped_attends (fun q _ hq => ?_) fun q _ hq => ?_) _ _
  · refine (State.hasWork_control s.loadDropped_frame hq).trans (State.hasWork_of_frame (withdraw_frame s .load) ?_)
    cases q <;> simp [Requester.item]
  · obtain rfl : q = .load := hq
    refine iff_of_false (fun b => s.not_busy_withdraw .load ?_) (by simp [State.hasWork, State.loadDropped])
    exact (State.busy_congr (s := s.withdraw .load) (t := s.loadDropped) rfl rfl _).1 b

theorem Serves.stop (h : Serves S s) : Serves S s.stop := by
  have done : Serves S { s with outcome := .done } := h.control (s.outcome_frame .done) rfl
  rcases s.stop_cases with ⟨-, e⟩ | ⟨-, e⟩ | ⟨-, e⟩
  · exact e ▸ done.stopRun
  · exact e ▸ done.stopLoad
  · exact e ▸ done

end

end Sys2Proof.Machine

/-! SUPPORT. The law of the request list over the events of the outbound lanes and of RUN entry (R111–R113,
R119–R123, R172, R173). -/

namespace Sys2Proof.Machine

section
variable {s t u c : State} {q : Requester} {S : Requester → Prop} {x : Fin 6}

/-! ### A lane's record -/

/-- The lane changes its record, with the work its request or access asks for. -/
theorem Serves.laneSet (h : Serves (fun q => S q ∧ q ≠ .outLane x) s) (f : OutLane → OutLane)
    (hf : S (.outLane x) →
      (s.busy (.outLane x) ↔ (f (s.out x)).st = .sending ∧ (f (s.out x)).asked ≠ none)) :
    Serves S (s.modOut x f) := by
  refine h.of_reaction (touch := (· = .outLane x)) (.of_eq rfl rfl Iff.rfl) rfl
    (fun q _ hq => s.hasWork_modOut x f hq) fun q hS hq => ?_
  obtain rfl : q = .outLane x := hq
  refine (State.busy_congr rfl rfl _).trans ((hf hS).trans ?_)
  simp [State.hasWork]

/-- The lane changes its record, but not what it fetches. -/
theorem Serves.modOut (h : Serves S s) (f : OutLane → OutLane)
    (hf : (f (s.out x)).st = (s.out x).st ∧ (f (s.out x)).asked = (s.out x).asked) : Serves S (s.modOut x f) :=
  (h.but _).laneSet f fun hS => by rw [hf.1, hf.2]; exact h.served _ hS

/-- The lane asks for no word, with no request and no access of its own. -/
theorem Serves.laneRests (h : Serves (fun q => S q ∧ q ≠ .outLane x) s) (f : OutLane → OutLane)
    (free : S (.outLane x) → ¬ s.busy (.outLane x))
    (hf : (f (s.out x)).st ≠ .sending ∨ (f (s.out x)).asked = none) : Serves S (s.modOut x f) :=
  h.laneSet f fun hS => iff_of_false (free hS) fun ⟨hs, ha⟩ => hf.elim (· hs) ha

/-- A lane that is not SENDING, or asks for no word, has no request and no access. -/
theorem Serves.lane_free (h : Serves S s) (hst : (s.out x).st ≠ .sending ∨ (s.out x).asked = none)
    (hS : S (.outLane x)) : ¬ s.busy (.outLane x) :=
  h.not_busy hS fun ⟨hs, ha⟩ => hst.elim (· hs) ha

theorem Serves.withdraw (h : Serves S s) (hj : q ≠ .journal) :
    Serves (fun p => S p ∧ p ≠ q) (s.withdraw q) :=
  h.mono (fun _ e => e.1) |>.of_attends (s.withdraw_attends (touch := (· = q)) hj rfl)
    (fun p _ _ => State.hasWork_of_frame (withdraw_frame s q) (by cases p <;> simp [Requester.item]))
    fun p hp e => absurd e hp.2

/-! ### Fetching (R78, R113) -/

theorem Serves.tryFetch (h : Serves S s) (x : Fin 6) : Serves S (s.tryFetch x) := by
  rcases s.tryFetch_cases x with ⟨-, e⟩ | ⟨p, ps, -, may, e⟩
  · exact e.symm ▸ h
  · rw [e]
    obtain ⟨st, -, listed, progress, -⟩ := may
    refine Serves.ask (s := s) (r := fetchOf x p (s.urgentFor (s.out x) p)) (h.but _)
      (State.not_busy_of listed progress) nofun rfl rfl (fun q hq => s.hasWork_modOut x _ hq) ?_
    simp [State.hasWork, fetchOf, st]

theorem Attends.of_whos {touch : Requester → Prop} (hr : t.requests.map Request.who = s.requests.map Request.who)
    (hp : t.port = s.port) (hj : t.journal = s.journal) : Attends touch s t := by
  have busy : ∀ q, t.busy q ↔ s.busy q := fun q => by simp only [State.busy, hr, hp]
  refine ⟨fun o => ⟨hr ▸ o.nodup, ?_, o.journal.of_iff (busy _) (State.hasWork_congr hj)⟩, fun q _ _ => busy q, .inl hp⟩
  rw [hr, hp]
  exact o.awaited

theorem State.markUrgent_attends {touch : Requester → Prop} (s : State) (x : Fin 6) :
    Attends touch s (s.markUrgent x) := by
  refine .of_whos ?_ (markUrgent_frame s x .port (by decide)) (markUrgent_frame s x .journal (by decide))
  unfold State.markUrgent
  split
  · split
    · rw [List.map_map]
      exact List.map_congr_left fun r _ => by rw [Function.comp]; split <;> rfl
    · rfl
  · rfl

theorem Serves.markUrgent (h : Serves S s) (x : Fin 6) : Serves S (s.markUrgent x) :=
  h.of_noOne (s.markUrgent_attends x) fun q _ _ =>
    State.hasWork_of_frame (markUrgent_frame s x) (by cases q <;> simp [Requester.item])

theorem Serves.laneWord (h : Serves (fun q => S q ∧ q ≠ .outLane x) c) (free : ¬ c.busy (.outLane x)) (v : Word) :
    Serves S (c.laneWord x v) := by
  unfold State.laneWord
  split
  · exact (h.laneRests _ (fun _ => free) (.inr rfl)).tryFetch x
  · next ha =>
    refine Serves.tryFetch (h.rest free nofun (.refl _ c) (fun _ _ _ => Iff.rfl) ?_) x
    simp [State.hasWork, ha]

/-! ### Frame starts and cuts (R111, R123) -/

theorem State.begunFrame_others (s : State) (x : Fin 6) (fly : Bool) : OtherOuts x s (s.begunFrame x fly) :=
  fun z hz => by rw [State.begunFrame, State.modOut_others _ _ _ z hz, s.heldFrame_others x fly z hz]

theorem State.begunFrame_job (s : State) (x : Fin 6) (fly : Bool) (w : Fin 16) :
    ((s.begunFrame x fly).pool w).job = (s.pool w).job := by
  rw [State.begunFrame, State.pool_congr (modOut_frame _ x _ .pools (by decide)), ((s.heldFrame_holds x fly) w).1]

theorem Serves.frameStart (h : Serves (fun q => S q ∧ q ≠ .outLane x) s)
    (free : S (.outLane x) → ¬ s.busy (.outLane x)) (fly : Bool) : Serves S (s.frameStart x fly) := by
  have f := s.begunFrame_frame x fly
  rw [State.frameStart_eq]
  refine Serves.tryFetch (h.of_reaction (touch := (· = .outLane x))
    (.of_frame f (by decide) (by decide) (by decide)) rfl (fun q _ hq => ?_) fun q hS hq => ?_) x
  · cases q with
    | outLane z =>
      rw [State.hasWork, State.hasWork, s.begunFrame_others x fly z fun e => hq (e ▸ rfl)]
    | copyJob w => rw [State.hasWork, State.hasWork, s.begunFrame_job x fly w]
    | _ => exact State.hasWork_of_frame f (by simp [Requester.item])
  · obtain rfl : q = .outLane x := hq
    refine iff_of_false (fun b => free hS ?_) (by simp [State.hasWork, State.begunFrame_out])
    exact (State.busy_congr (f .requests (by decide)) (f .port (by decide)) _).1 b

theorem Serves.masterStart (h : Serves S s) (hst : (s.out x).st ≠ .sending) : Serves S (s.masterStart x) :=
  ((h.modOut (x := x) _ ⟨rfl, rfl⟩).but _).frameStart (fun hS b =>
    h.lane_free (.inl hst) hS ((State.busy_congr rfl rfl _).1 b)) false

theorem Serves.edgeStart (h : Serves S s) (free : S (.outLane x) → ¬ s.busy (.outLane x)) :
    Serves S (s.edgeStart x) :=
  ((h.modOut (x := x) _ ⟨rfl, rfl⟩).but _).frameStart (fun hS b => free hS ((State.busy_congr rfl rfl _).1 b)) false

theorem Serves.pulseCheck (h : Serves S s) (x : Fin 6) : Serves S (s.pulseCheck x) := by
  cases hd : s.driftsNow x with
  | true => exact (State.pulseCheck_of_drift hd).symm ▸ (h.modOut (x := x) _ ⟨rfl, rfl⟩).raise _ _ _ _
  | false => exact (State.pulseCheck_of_steady hd).symm ▸ h.modOut (x := x) _ ⟨rfl, rfl⟩

theorem Serves.releaseLane (h : Serves S s) (x : Fin 6) : Serves S (s.releaseLane x) :=
  h.mapPools _ fun _ _ => rfl

theorem State.not_busy_cutFrame (s : State) (x : Fin 6) : ¬ (s.cutFrame x).busy (.outLane x) := by
  rw [State.cutFrame_eq, ((s.cutClosed x).raise_attends (touch := noOne) _ _ _ _).busy (.outLane x) id nofun]
  exact fun b => s.not_busy_withdraw (.outLane x)
    ((State.busy_congr (s := s.withdraw (.outLane x)) (t := s.cutClosed x) rfl rfl _).1 b)

theorem Serves.cutFrame (h : Serves S s) (x : Fin 6) : Serves S (s.cutFrame x) := by
  rw [State.cutFrame_eq]
  refine Serves.raise (((h.withdraw (q := .outLane x) nofun).releaseLane x).laneRests _ (fun _ b => ?_) (.inr rfl))
    _ _ _ _
  exact s.not_busy_withdraw (.outLane x) ((State.busy_congr (s := s.withdraw (.outLane x))
    (t := (s.withdraw (.outLane x)).releaseLane x) rfl rfl _).1 b)

theorem Serves.activeEdge (h : Serves S s) (x : Fin 6) : Serves S (s.activeEdge x) := by
  unfold State.activeEdge
  split
  · exact h
  · next hst =>
    split
    · refine (h.modOut (x := x) _ ⟨rfl, rfl⟩).edgeStart fun hS b => ?_
      exact h.lane_free (.inl (by simp [hst])) hS ((State.busy_congr rfl rfl _).1 b)
    · exact h
  · next hst =>
    have checked := (h.pulseCheck x).modOut (x := x) (fun l => { l with pulse := { l.pulse with inRun := false } })
      ⟨rfl, rfl⟩
    refine checked.edgeStart (checked.lane_free (.inl ?_))
    rw [State.out_modOut, if_pos rfl]
    change ((s.pulseCheck x).out x).st ≠ .sending
    rw [State.pulseCheck_st, hst]
    nofun
  · split
    · exact ((h.pulseCheck x).cutFrame x).edgeStart fun _ => State.not_busy_cutFrame _ x
    · exact h

theorem Serves.flywheel (h : Serves S s) (hst : (s.out x).st ≠ .sending) : Serves S (s.flywheel x) := by
  have started : Serves S ((s.flywheelSet x).frameStart x true) :=
    ((h.modOut (x := x) _ ⟨rfl, rfl⟩).but _).frameStart (fun hS b =>
      h.lane_free (.inl hst) hS ((State.busy_congr (t := s.flywheelSet x) rfl rfl _).1 b)) true
  cases hr : (s.out x).pulse.inRun with
  | true => exact (State.flywheel_inRun hr).symm ▸ started
  | false => exact (State.flywheel_first hr).symm ▸ started.raise _ _ _ _

/-! ### Slots (R115, R120) -/

theorem Serves.underrun (h : Serves S s) (x : Fin 6) (e : Nat) : Serves S (s.underrun x e) := by
  unfold State.underrun
  dsimp only
  cases hm : (s.out x).asked.any fun p => p.entry == e with
  | true =>
    have rests := (h.withdraw (q := .outLane x) nofun).laneRests (fun l : OutLane =>
      { OutLane.send (s.outRec x).filler l with
        tail := if (s.entry e).kind.slots = 2 then some (s.outRec x).filler else none
        asked := none
        plan := l.plan.filter fun p => p.entry != e
        fetch := l.fetch.filter fun p => p.1 != e
        underruns := sat8 l.underruns
        underMark := true }) (fun _ => s.not_busy_withdraw _) (.inr rfl)
    split
    · exact rests
    · exact rests.raise _ _ _ _
  | false =>
    have keeps := h.modOut (x := x) (fun l : OutLane =>
      { OutLane.send (s.outRec x).filler l with
        tail := if (s.entry e).kind.slots = 2 then some (s.outRec x).filler else none
        asked := l.asked
        plan := l.plan.filter fun p => p.entry != e
        fetch := l.fetch.filter fun p => p.1 != e
        underruns := sat8 l.underruns
        underMark := true }) ⟨rfl, rfl⟩
    split
    · exact keeps
    · exact keeps.raise _ _ _ _

theorem Serves.setEntrySt (h : Serves S s) (e : Nat) (v : EntryState) : Serves S (s.setEntrySt e v) :=
  h.of_eq (by simp) (by simp) fun q =>
    State.hasWork_of_frame (setEntrySt_frame s e v) (by cases q <;> simp [Requester.item])

theorem OutLane.sendValue_asked (n : Nat) (v : Word) (l : OutLane) : (l.sendValue n v).asked = l.asked := by
  unfold OutLane.sendValue; split <;> rfl

theorem Serves.dataSlot (h : Serves S s) (x : Fin 6) (d : Nat) : Serves S (s.dataSlot x d) := by
  unfold State.dataSlot
  dsimp only
  split
  · exact h.modOut _ ⟨rfl, rfl⟩
  · split
    · unfold State.emptySlot
      split
      · exact h.modOut _ ⟨rfl, rfl⟩
      · exact h.modOut _ ⟨rfl, rfl⟩
    · split
      · unfold State.sendEntry
        exact (h.setEntrySt _ _).modOut _ ⟨OutLane.sendValue_st _ _ _, OutLane.sendValue_asked _ _ _⟩
      · exact h.underrun x _

theorem Serves.position (h : Serves S s) (x : Fin 6) (j : Nat) : Serves S (s.position x j) := by
  unfold State.position
  split
  · exact h.modOut _ ⟨rfl, rfl⟩
  · split
    · exact h.dataSlot x _
    · exact h.modOut _ ⟨rfl, rfl⟩

theorem Serves.slotBegin (h : Serves S s) (x : Fin 6) : Serves S (s.slotBegin x) :=
  (((h.modOut (x := x) (fun l => { l with begun := (s.out x).begun + 1 }) ⟨rfl, rfl⟩).position x _).markUrgent
    x).tryFetch x

/-! ### Frame ends (R119, R174) -/

theorem Serves.leftSending (h : Serves S s) (x : Fin 6) : Serves S (s.leftSending x) :=
  h.of_eq rfl rfl fun q => State.hasWork_of_frame (s.leftSending_frame x) (by cases q <;> simp [Requester.item])

theorem Serves.frameEnd (h : Serves S s) (ends : S (.outLane x) → (s.out x).asked = none) :
    Serves S (s.frameEnd x) := by
  have closed : ∀ st, st ≠ .sending → Serves S (s.frameClosed x st) := fun st hst =>
    ((h.releaseLane x).but _).laneRests _ (fun hS b =>
      h.lane_free (.inr (ends hS)) hS ((State.busy_congr (t := s.releaseLane x) rfl rfl _).1 b)) (.inl hst)
  by_cases hd : s.dev = .stopping
  · rw [State.frameEnd_idle hd, State.laneIdle_eq]
    have left := (closed .idle nofun).leftSending x
    split
    · exact left.setupEntry
    · exact left
  · rw [State.frameEnd_running hd]
    exact closed .between nofun

/-! ### The load and RUN entry (R168, R171–R173) -/

theorem State.masterDue_st (h : s.masterDue x = true) : (s.out x).st ≠ .sending := by
  simp only [State.masterDue, Bool.and_eq_true, Bool.or_eq_true, beq_iff_eq] at h
  rcases h.2 with e | e <;> simp [e]

theorem Serves.startIfDue (h : Serves S s) (x : Fin 6) : Serves S (s.startIfDue x) := by
  unfold State.startIfDue
  split
  · next hd => exact h.masterStart (State.masterDue_st hd)
  · exact h

theorem Serves.startAtEntry (h : Serves S s) : Serves S s.startAtEntry := by
  by_cases hi : s.startInstant = s.timeBase
  · rw [State.startAtEntry_now hi]
    have reached : Serves S s.reached := h.control (u := s.reached)
      (fun g hg => by cases g <;> simp [State.sameAt, State.reached] at hg ⊢) rfl
    generalize s.reached = d at reached
    induction allOuts generalizing d with
    | nil => exact reached
    | cons x l ih => exact ih _ (reached.startIfDue x)
  · exact (State.startAtEntry_later hi).symm ▸ h

/-- At RUN entry only SU and requesters with no START value have work; the load is over, JW begins anew. -/
theorem Serves.entered (h : Serves S s) {a : Access} (hp : s.port = some a) (hw : a.withdrawn = false)
    (hq : a.req.who = .load) (dev : DeviceLaw s) (hd : s.dev = .loading) (im : Image) :
    Serves S ((s.complete a.req).entered im) := by
  have hc := (s.complete a.req).entered_requests im
  have busy : ∀ q, ((s.complete a.req).entered im).busy q ↔ q ∈ s.requests.map Request.who ∧ q ≠ .journal := fun q => by
    rw [State.busy, hc, State.entered_port rfl]
    simp only [State.complete_requests, List.mem_map, List.mem_filter, Bool.not_eq_true', beq_eq_false_iff_ne,
      reduceCtorEq, false_and, exists_false, or_false]
    exact ⟨fun ⟨r, ⟨hr, hn⟩, e⟩ => ⟨⟨r, hr, e⟩, e ▸ hn⟩, fun ⟨⟨r, hr, e⟩, hn⟩ => ⟨r, ⟨hr, e.symm ▸ hn⟩, e⟩⟩
  have free : ∀ q, S q → ¬ s.hasWork q → ¬ ((s.complete a.req).entered im).busy q := fun q hS hn b =>
    hn ((h.served q hS).1 (.inl ((busy q).1 b).1))
  have notRun : s.dev ≠ .run := by simp [hd]
  refine ⟨⟨?_, fun b hb => ?_, ?_⟩, fun q hS => ?_⟩
  · rw [hc]
    exact h.orderly.nodup.sublist (State.whos_filter_sublist _ _)
  · rw [State.entered_port rfl] at hb
    cases hb
  · refine iff_of_false (fun b => ((busy .journal).1 b).2 rfl) ?_
    simp [State.hasWork, State.entered_journal, Journal.zero]
  · cases q with
    | host =>
      have e : ((s.complete a.req).entered im).su = s.su := State.entered_frame _ im .su (by decide)
      refine (busy _).trans ?_
      rw [State.hasWork, e]
      exact (and_iff_left nofun).trans ((State.busy_complete s a.req _).symm.trans
        ((State.busy_complete_awaited hp _ (by simp [hq])).trans (h.served _ hS)))
    | outLane x =>
      refine iff_of_false (free _ hS ?_) ?_
      · simp [State.hasWork, dev.2.2.1 (.inr hd) x]
      · rw [State.hasWork, State.entered_out]
        unfold OutLane.start
        split <;> simp [OutLane.zero]
    | inLane y =>
      refine iff_of_false (free _ hS ?_) ?_
      · simp [State.hasWork, (dev.2.2.2.2 notRun y).2]
      · simp [State.hasWork, State.entered_inl]
    | copyJob w =>
      refine iff_of_false (free _ hS ?_) ?_
      · simp [State.hasWork, dev.2.1 notRun w]
      · rw [State.hasWork, State.entered_start_pool, Pool.start_job]; simp
    | load =>
      refine iff_of_false (fun b => ?_) (by simp [State.hasWork, State.entered_load])
      exact h.orderly.awaited a hp hw (hq.symm ▸ ((busy _).1 b).1)
    | journal =>
      refine iff_of_false (fun b => ((busy .journal).1 b).2 rfl) ?_
      simp [State.hasWork, State.entered_journal, Journal.zero]

theorem Serves.loadWord (h : Serves S s) {a : Access} (hp : s.port = some a) (hw : a.withdrawn = false)
    (hq : a.req.who = .load) (dev : DeviceLaw s) (v : Word) : Serves S ((s.complete a.req).loadWord v) := by
  have others : Serves (fun q => S q ∧ q ≠ .load) (s.complete a.req) :=
    hq ▸ h.complete_awaited hp (by simp [hq]) a.req
  have free : ¬ (s.complete a.req).busy .load := hq ▸ h.orderly.not_busy_complete hp hw a.req
  have work : ∀ {u : State}, ChangesOnly [.load, .loadErr, .dev] (s.complete a.req) u → ∀ q, q ≠ .load →
      (u.hasWork q ↔ (s.complete a.req).hasWork q) := fun f q hn =>
    State.hasWork_of_frame f (by cases q <;> simp [Requester.item] at hn ⊢)
  rcases (s.complete a.req).loadWord_cases v with ⟨hl, e⟩ | ⟨j, hl, ⟨j', n, e⟩ | ⟨er, e⟩ | ⟨im, e⟩⟩
  · rw [e]
    exact others.rest free nofun (.refl _ _) (fun _ _ _ => Iff.rfl) (by simpa [State.hasWork] using hl)
  · rw [e]
    exact others.ask (u := { s.complete a.req with load := some j' }) free nofun rfl rfl
      (work fun g hg => by cases g <;> simp [State.sameAt] at hg ⊢) rfl
  · rw [e]
    refine Serves.raise (s := { s.complete a.req with load := none, loadErr := er, dev := .setup }) (others.rest free nofun
      (.of_eq rfl rfl Iff.rfl) (fun q hn _ => work (fun g hg => ?_) q hn) (by simp [State.hasWork])) _ _ _ _
    cases g <;> simp [State.sameAt] at hg ⊢
  · rw [e, State.runEntry_eq]
    exact ((h.entered hp hw hq dev (dev.1.1 (by simpa using congrArg Option.isSome hl)) im).raise _ _ _ _).startAtEntry

end

end Sys2Proof.Machine

/-! SUPPORT. What the operations of an inbound lane do to the rest of the part: the lane's own requests and
frames, and the buffers of its window, are all they concern besides JW (R152–R159). -/

namespace Sys2Proof.Machine

/-- An operation of inbound lane `y` inside an event: at the arbiter it concerns the lane and JW alone, of the
lanes' records its own alone, and it begins and ends no copy-forward job. -/
structure LaneOp (y : Fin 2) (s u : State) : Prop where
  attends : Attends (· = .inLane y) s u
  frame : ChangesOnly [.ins, .pools, .flags, .journal, .requests] s u
  others : OtherIns y s u
  jobs : ∀ w, (u.pool w).job = (s.pool w).job

section
variable {s t u : State} {y : Fin 2} {f : InFrame} {S : Requester → Prop}

theorem LaneOp.refl (y : Fin 2) (s : State) : LaneOp y s s := ⟨.refl _ s, .refl _ s, fun _ _ => rfl, fun _ => rfl⟩

theorem LaneOp.trans (h : LaneOp y s t) (h' : LaneOp y t u) : LaneOp y s u where
  attends := h.attends.trans h'.attends
  frame := h.frame.andThen h'.frame
  others z hz := (h'.others z hz).trans (h.others z hz)
  jobs w := (h'.jobs w).trans (h.jobs w)

theorem LaneOp.hasWork (k : LaneOp y s u) {q : Requester} (hq : q ≠ .inLane y) (hj : q ≠ .journal) :
    u.hasWork q ↔ s.hasWork q := by
  cases q with
  | inLane z => rw [State.hasWork, State.hasWork, k.others z fun e => hq (e ▸ rfl)]
  | copyJob w => rw [State.hasWork, State.hasWork, k.jobs w]
  | journal => exact absurd rfl hj
  | _ => exact State.hasWork_of_frame k.frame (by simp [Requester.item])

/-- The lane's operation leaves every other requester served. -/
theorem LaneOp.serves (k : LaneOp y s u) (h : Serves (fun q => S q ∧ q ≠ .inLane y) s)
    (own : S (.inLane y) → u.served (.inLane y)) : Serves S u where
  orderly := k.attends.orderly h.orderly
  served q hS := by
    by_cases hj : q = .journal
    · exact hj ▸ (k.attends.orderly h.orderly).journal
    · by_cases hq : q = .inLane y
      · subst hq; exact own hS
      · exact (h.served q ⟨hS, hq⟩).of_iff (k.attends.busy q hq hj) (k.hasWork hq hj)

/-! ### The operations an event is made of -/

theorem LaneOp.modIn (s : State) (y : Fin 2) (v : InLane → InLane) : LaneOp y s (s.modIn y v) where
  attends := .of_eq rfl rfl Iff.rfl
  frame := (modIn_frame s y v).mono (by decide)
  others := State.modIn_others s y v
  jobs _ := rfl

theorem LaneOp.modPool (y : Fin 2) (s : State) (w : Fin 16) (v : Pool → Pool) (hv : ∀ p, (v p).job = p.job) :
    LaneOp y s (s.modPool w v) where
  attends := .of_eq rfl rfl Iff.rfl
  frame := (modPool_frame s w v).mono (by decide)
  others _ _ := rfl
  jobs z := by
    rw [State.pool_modPool]
    split
    · next e => rw [hv, e]
    · rfl

theorem LaneOp.raise (y : Fin 2) (s : State) (k : Kind) (source : Option Nat) (d1 d2 : Word) :
    LaneOp y s (s.raise k source d1 d2) where
  attends := s.raise_attends k source d1 d2
  frame := (raise_frame s k source d1 d2).mono (by decide)
  others z _ := s.raise_inl k source d1 d2 z
  jobs w := by rw [State.pool_congr (raise_frame s k source d1 d2 .pools (by decide))]

theorem LaneOp.commit (y : Fin 2) (s : State) (w : Fin 16) (k : Fin 8) (seq : Half) (time : Word)
    (source : Option (Fin 8)) (copied : Nat) : LaneOp y s (s.commit w k seq time source copied) where
  attends := s.commit_attends w k seq time source copied
  frame := (commit_frame s w k seq time source copied).mono (by decide)
  others z _ := State.inl_congr (commit_frame s w k seq time source copied .ins (by decide)) z
  jobs v := by
    by_cases hv : v = w
    · exact hv ▸ (s.commit_rest w k seq time source copied).2.2.2
    · rw [s.commit_others w k seq time source copied v hv]

theorem LaneOp.unlist (s : State) (y : Fin 2) : LaneOp y s (s.unlist (.inLane y)) where
  attends := s.unlist_attends nofun rfl
  frame := (unlist_frame s _).mono (by decide)
  others _ _ := rfl
  jobs _ := rfl

variable (h : LaneOp y s t)
include h

theorem LaneOp.thenModIn (v : InLane → InLane) : LaneOp y s (t.modIn y v) := h.trans (.modIn t y v)

theorem LaneOp.thenModPool {w : Fin 16} {v : Pool → Pool} (hv : ∀ p, (v p).job = p.job) :
    LaneOp y s (t.modPool w v) := h.trans (.modPool y t w v hv)

theorem LaneOp.thenRaise (k : Kind) (source : Option Nat) (d1 d2 : Word) :
    LaneOp y s (t.raise k source d1 d2) := h.trans (.raise y t k source d1 d2)

theorem LaneOp.thenCommit (w : Fin 16) (k : Fin 8) (seq : Half) (time : Word) (source : Option (Fin 8))
    (copied : Nat) : LaneOp y s (t.commit w k seq time source copied) :=
  h.trans (.commit y t w k seq time source copied)

omit h

/-- The lane requests a half write only where it has none listed and none in progress (R155). -/
theorem State.tryWrite_cases (s : State) (y : Fin 2) : s.tryWrite y = s ∨ ∃ w k f fs h hs,
    s.inWindow y = some w ∧ (s.inl y).frames = f :: fs ∧ f.buffer = some k ∧ f.halves = h :: hs ∧
    s.listed (.inLane y) = false ∧ s.inProgress (.inLane y) = false ∧
    s.tryWrite y = s.join (s.halfWrite y w k h) := by
  unfold State.tryWrite
  split
  · next w f fs hw hf =>
    split
    · next k h hs hb hh =>
      split
      · next hc => exact .inr ⟨w, k, f, fs, h, hs, hw, hf, hb, hh, hc.1, hc.2, rfl⟩
      · exact .inl rfl
    · exact .inl rfl
  · exact .inl rfl

theorem LaneOp.tryWrite (s : State) (y : Fin 2) : LaneOp y s (s.tryWrite y) where
  attends := by
    rcases s.tryWrite_cases y with e | ⟨w, k, f, fs, h, hs, -, -, -, -, hl, hp, e⟩
    · rw [e]; exact .refl _ s
    · rw [e]; exact State.join_attends (r := s.halfWrite y w k h) nofun (State.not_busy_of hl hp) rfl
  frame := (tryWrite_frame s y).mono (by decide)
  others z _ := State.inl_congr (tryWrite_frame s y .ins (by decide)) z
  jobs w := by rw [State.pool_congr (tryWrite_frame s y .pools (by decide))]

/-! ### Settlements -/

theorem LaneOp.raiseCut (s : State) (y : Fin 2) (n : Option Half) (r : CutReason) : LaneOp y s (s.raiseCut y n r) :=
  (LaneOp.modIn s y _).thenRaise _ _ _ _

theorem LaneOp.refuseFrame (s : State) (y : Fin 2) (f : InFrame) : LaneOp y s (s.refuseFrame y f) := by
  unfold State.refuseFrame
  exact (LaneOp.raise y s _ _ _ _).thenModIn _

theorem LaneOp.allocateHead (s : State) (y : Fin 2) (f : InFrame) : LaneOp y s (s.allocateHead y f) := by
  unfold State.allocateHead
  split
  · exact .refuseFrame s y f
  · split
    · exact .refuseFrame s y f
    · exact ((LaneOp.refl y s).thenModPool (by intro _; rfl)).thenModIn _

theorem LaneOp.discardHead (s : State) (y : Fin 2) (f : InFrame) : LaneOp y s (s.discardHead y f) := by
  unfold State.discardHead
  split
  · exact ((LaneOp.refl y s).thenModPool (by intro _; rfl)).thenModIn _
  · exact .modIn s y _

theorem LaneOp.commitHead (s : State) (y : Fin 2) (f : InFrame) (k : Fin 8) : LaneOp y s (s.commitHead y f k) := by
  unfold State.commitHead
  split
  · exact .modIn s y _
  · split
    · exact (((LaneOp.refl y s).thenModPool (by intro _; rfl)).thenCommit _ _ _ _ _ _).thenModIn _
    · exact (LaneOp.discardHead s y f).trans (.raiseCut _ y _ _)

theorem LaneOp.settleOnce (h : s.settleOnce y = some t) : LaneOp y s t := by
  obtain ⟨f, fs, -, e | ⟨-, e⟩ | ⟨k, e⟩⟩ := State.settleOnce_cases h <;> rw [e]
  · exact .discardHead s y f
  · exact .allocateHead s y f
  · exact .commitHead s y f k

/-- What settlements keep, one by one, is kept by all of them, up to a head that waits; then the lane asks for its
next half write. -/
theorem State.settle_induct {P : State → Prop} (s : State) (h : P s)
    (step : ∀ u t, P u → u.settleOnce y = some t → P t) :
    ∃ v, P v ∧ v.settleOnce y = none ∧ s.settle y = v.tryWrite y := by
  induction hn : (s.inl y).work using Nat.strong_induction_on generalizing s with
  | _ n ih =>
    cases hs : s.settleOnce y with
    | none => exact ⟨s, h, hs, State.settle_of_none hs⟩
    | some t =>
      obtain ⟨v, hv, e, ht⟩ := ih _ (hn ▸ State.settleOnce_work hs) t (step s t h hs) rfl
      exact ⟨v, hv, e, (State.settle_of_some hs).trans ht⟩

theorem LaneOp.settle (s : State) (y : Fin 2) : LaneOp y s (s.settle y) := by
  obtain ⟨v, hv, -, e⟩ := State.settle_induct (P := LaneOp y s) (y := y) s (.refl y s)
    fun u t hu ht => hu.trans (.settleOnce ht)
  exact e ▸ hv.trans (.tryWrite v y)

/-! ### Events -/

theorem LaneOp.discardCurrent (s : State) (y : Fin 2) : LaneOp y s (s.discardCurrent y) := by
  unfold State.discardCurrent
  split
  · exact .refl y s
  · split
    · exact .modIn s y _
    · exact ((LaneOp.unlist s y).thenModIn _).trans (.settle _ y)

theorem LaneOp.inFrameStart (s : State) (y : Fin 2) : LaneOp y s (s.inFrameStart y) := by
  unfold State.inFrameStart
  dsimp only
  split
  · exact (LaneOp.modIn s y _).trans (.settle _ y)
  · exact .modIn s y _

theorem LaneOp.truncate (s : State) (y : Fin 2) : LaneOp y s (s.truncate y) :=
  (LaneOp.raiseCut s y _ _).trans (.discardCurrent _ y)

theorem LaneOp.inActiveEdge (s : State) (y : Fin 2) : LaneOp y s (s.inActiveEdge y) := by
  unfold State.inActiveEdge
  split
  · exact .refl y s
  · split
    · exact .inFrameStart s y
    · exact .refl y s
  · exact (LaneOp.truncate s y).trans (.inFrameStart _ y)
  · exact .inFrameStart s y

theorem LaneOp.checkNumber (s : State) (y : Fin 2) (h : Half) : LaneOp y s (s.checkNumber y h) := by
  unfold State.checkNumber
  dsimp only
  split
  · exact ((LaneOp.modIn s y _).thenModIn _).thenRaise _ _ _ _
  · exact .modIn s y _

theorem LaneOp.inH0 (s : State) (y : Fin 2) (h : Half) : LaneOp y s (s.inH0 y h) := by
  unfold State.inH0
  split
  · exact (LaneOp.modIn s y _).trans (.checkNumber _ y h)
  · split
    · exact (LaneOp.modIn s y _).trans (.checkNumber _ y h)
    · exact .refl y s

theorem LaneOp.cut (s : State) (y : Fin 2) (n : Option Half) (r : CutReason) :
    LaneOp y s (((s.raiseCut y n r).discardCurrent y).toDiscarding y) :=
  ((LaneOp.raiseCut s y n r).trans (.discardCurrent _ y)).thenModIn _

theorem LaneOp.inH1 (s : State) (y : Fin 2) (h : Half) : LaneOp y s (s.inH1 y h) := by
  unfold State.inH1
  split
  · dsimp only
    split
    · exact .modIn s y _
    · exact (LaneOp.modIn s y _).trans (.cut _ y _ _)
  · exact .refl y s

theorem LaneOp.rxHalf (s : State) (y : Fin 2) (place : Nat × Bool) (h : Half) : LaneOp y s (s.rxHalf y place h) := by
  unfold State.rxHalf
  split
  · exact .cut s y _ _
  · exact (LaneOp.modIn s y _).trans (.tryWrite _ y)

theorem LaneOp.inData (s : State) (y : Fin 2) (h : Half) : LaneOp y s (s.inData y h) := by
  unfold State.inData
  split
  · exact .refl y s
  · dsimp only
    split
    · exact .modIn s y _
    · exact (LaneOp.modIn s y _).trans (.rxHalf _ y _ h)

theorem LaneOp.inCrc (s : State) (y : Fin 2) (h : Half) : LaneOp y s (s.inCrc y h) := by
  unfold State.inCrc
  split
  · dsimp only
    split
    · exact ((LaneOp.modIn s y _).thenModIn _).trans (.settle _ y)
    · exact (((LaneOp.modIn s y _).thenModIn _).thenRaise _ _ _ _).trans (.discardCurrent _ y)
  · exact .refl y s

theorem LaneOp.halfWritten (s : State) (y : Fin 2) : LaneOp y s (s.halfWritten y) := by
  unfold State.halfWritten
  refine LaneOp.trans ?_ (.settle _ y)
  split
  · split
    · exact .refl y s
    · exact ((LaneOp.refl y s).thenModPool (by intro _; rfl)).thenModIn _
    · exact .refl y s
  · exact .refl y s

end

end Sys2Proof.Machine

/-! SUPPORT. The frames an inbound lane has in hand and the half writes it has listed or in progress, inside an
event and at its end (R153, R155, R158). -/

namespace Sys2Proof.Machine

/-- A half write of the lane is listed or in progress. -/
def State.stirs (s : State) (y : Fin 2) : Prop :=
  s.listed (.inLane y) = true ∨ s.inProgress (.inLane y) = true

/-- Only the last frame may still arrive, only the head may be discarded or have a buffer, and the receive buffer
holds at most 16 halves. -/
structure InLane.Shaped (l : InLane) : Prop where
  opened : ∀ f ∈ l.frames.dropLast, f.outcome ≠ .opened
  behind : ∀ f ∈ l.frames.tail, f.outcome ≠ .discard ∧ f.buffer = none
  room : l.halves.length ≤ 16

/-- The lane is RECEIVING exactly while its last frame still arrives. -/
def InLane.minds (l : InLane) : Prop := l.st = .receiving ↔ ∃ f ∈ l.frames.getLast?, f.outcome = .opened

/-- No frame in hand still arrives. -/
def InLane.closed (l : InLane) : Prop := ∀ f ∈ l.frames, f.outcome ≠ .opened

/-- Inside an event, before the head settles: a write listed or in progress is one the head has work for. -/
structure State.Pending (s : State) (y : Fin 2) : Prop where
  shaped : (s.inl y).Shaped
  window : ∀ f ∈ (s.inl y).frames.head?, f.buffer ≠ none → s.inWindow y ≠ none
  discarded : ∀ f ∈ (s.inl y).frames.head?, f.outcome = .discard →
    f.buffer ≠ none ∧ f.halves = [] ∧ s.listed (.inLane y) = false
  stirs : s.stirs y → s.hasWork (.inLane y)

/-- After the head has settled: it has a buffer, it waits for what only an event brings, and a write is listed or
in progress exactly while there is one to do. -/
structure State.Settled (s : State) (y : Fin 2) : Prop where
  shaped : (s.inl y).Shaped
  head : ∀ f ∈ (s.inl y).frames.head?, f.buffer ≠ none ∧ s.inWindow y ≠ none ∧
    (f.outcome = .good → f.halves ≠ []) ∧ (f.outcome = .discard →
      f.halves = [] ∧ s.inProgress (.inLane y) = true ∧ s.listed (.inLane y) = false)
  served : s.stirs y ↔ s.hasWork (.inLane y)

section
variable {s t u : State} {y : Fin 2} {f g : InFrame} {fs gs : List InFrame} {l l' : InLane}

/-! ### Lists of frames -/

theorem InLane.halves_cons (hf : l.frames = f :: fs) : l.halves = f.halves ++ fs.flatMap InFrame.halves := by
  rw [InLane.halves, hf, List.flatMap_cons]

theorem InLane.Shaped.of_frames (h : l.Shaped) (e : l'.frames = l.frames) : l'.Shaped := by
  refine ⟨e ▸ h.opened, e ▸ h.behind, ?_⟩
  rw [InLane.halves, e]
  exact h.room

theorem InLane.Shaped.pop (h : l.Shaped) (hf : l.frames = f :: fs) (e : l'.frames = fs) : l'.Shaped := by
  refine ⟨fun g hg => h.opened g ?_, fun g hg => h.behind g ?_, ?_⟩
  · rw [e] at hg
    rw [hf]
    cases fs with
    | nil => cases hg
    | cons b bs => exact List.mem_cons_of_mem _ hg
  · rw [e] at hg
    rw [hf]
    exact List.mem_of_mem_tail hg
  · have room := h.room
    rw [InLane.halves_cons hf, List.length_append] at room
    rw [InLane.halves, e]
    omega

/-- The head changes, but stays one of a kind and gains no halves. -/
theorem InLane.Shaped.head (h : l.Shaped) (hf : l.frames = f :: fs) (e : l'.frames = g :: fs)
    (ho : g.outcome = f.outcome) (hh : g.halves.length ≤ f.halves.length) : l'.Shaped := by
  refine ⟨fun b hb => ?_, fun b hb => h.behind b ?_, ?_⟩
  · rw [e] at hb
    have opened := h.opened
    rw [hf] at opened
    cases fs with
    | nil => cases hb
    | cons c cs =>
      rw [List.dropLast_cons_cons, List.mem_cons] at hb
      rw [List.dropLast_cons_cons] at opened
      rcases hb with rfl | hb
      · rw [ho]; exact opened f List.mem_cons_self
      · exact opened b (List.mem_cons_of_mem _ hb)
  · rw [e] at hb
    rw [hf]
    exact hb
  · have room := h.room
    rw [InLane.halves_cons hf, List.length_append] at room
    rw [InLane.halves_cons e, List.length_append]
    omega

theorem InLane.minds_pop (h : l.minds) (hf : l.frames = f :: fs) (ho : f.outcome ≠ .opened) (e : l'.frames = fs)
    (hs : l'.st = l.st) : l'.minds := by
  unfold InLane.minds at h ⊢
  rw [hs, h, hf, e]
  cases fs with
  | nil => simp [ho]
  | cons b bs => rw [List.getLast?_cons_cons]

theorem InLane.minds_head (h : l.minds) (hf : l.frames = f :: fs) (e : l'.frames = g :: fs)
    (ho : g.outcome = f.outcome) (hs : l'.st = l.st) : l'.minds := by
  unfold InLane.minds at h ⊢
  rw [hs, h, hf, e]
  cases fs with
  | nil => simp [ho]
  | cons b bs => rw [List.getLast?_cons_cons, List.getLast?_cons_cons]

/-- An opened head is the last frame. -/
theorem InLane.Shaped.alone (h : l.Shaped) (hf : l.frames = f :: fs) (ho : f.outcome = .opened) : fs = [] := by
  cases fs with
  | nil => rfl
  | cons b bs => exact absurd ho (h.opened f (by rw [hf]; exact List.mem_cons_self))

/-! ### What a settlement is (R153, R158) -/

theorem State.settleOnce_spec (h : s.settleOnce y = some t) : ∃ f fs, (s.inl y).frames = f :: fs ∧
    (f.outcome = .discard ∧ t = s.discardHead y f ∨ f.buffer = none ∧ t = s.allocateHead y f ∨
      ∃ k, f.outcome = .good ∧ t = s.commitHead y f k) := by
  obtain ⟨f, fs, hf, -⟩ := State.settleOnce_cases h
  refine ⟨f, fs, hf, ?_⟩
  unfold State.settleOnce at h
  rw [hf] at h
  dsimp only at h
  split at h
  · next hd =>
    split at h <;> cases h
    exact .inl ⟨hd, rfl⟩
  · next hb _ => cases h; exact .inr (.inl ⟨hb, rfl⟩)
  · next k hg _ =>
    split at h <;> cases h
    exact .inr (.inr ⟨k, hg, rfl⟩)
  · cases h

/-- A head that does not settle waits for its write, its slots or its halves. -/
theorem State.waits_of_settleOnce (h : s.settleOnce y = none) (hf : (s.inl y).frames = f :: fs) :
    f.outcome = .discard ∧ s.inProgress (.inLane y) = true ∨
      f.buffer ≠ none ∧ (f.outcome = .opened ∨ f.outcome = .good ∧ f.halves ≠ []) := by
  by_cases hd : f.outcome = .discard
  · refine .inl ⟨hd, ?_⟩
    by_contra hp
    exact absurd ((State.settleOnce_discard hf hd (by simpa using hp)).symm.trans h) nofun
  · have hb : f.buffer ≠ none := fun hb => absurd ((State.settleOnce_allocate hf hd hb).symm.trans h) nofun
    refine .inr ⟨hb, ?_⟩
    cases ho : f.outcome with
    | discard => exact absurd ho hd
    | opened => exact .inl rfl
    | good =>
      obtain ⟨k, hk⟩ := Option.ne_none_iff_exists'.1 hb
      exact .inr ⟨rfl, fun hh => absurd ((State.settleOnce_commit hf ho hk hh).symm.trans h) nofun⟩

theorem State.discardHead_asks (s : State) (y : Fin 2) (f : InFrame) :
    OnlyRequestsOf .journal s (s.discardHead y f) := by
  unfold State.discardHead
  split <;> exact .of_eq rfl rfl

theorem State.refuseFrame_asks (s : State) (y : Fin 2) (f : InFrame) :
    OnlyRequestsOf .journal s (s.refuseFrame y f) := by
  unfold State.refuseFrame
  exact (State.raise_onlyRequestsOf s _ _ _ _ _).trans (.of_eq rfl rfl)

theorem State.raiseCut_asks (s : State) (y : Fin 2) (n : Option Half) (r : CutReason) :
    OnlyRequestsOf .journal s (s.raiseCut y n r) :=
  (OnlyRequestsOf.of_eq (t := s.modIn y _) rfl rfl).trans (State.raise_onlyRequestsOf _ _ _ _ _ _)

theorem State.allocateHead_asks (s : State) (y : Fin 2) (f : InFrame) :
    OnlyRequestsOf .journal s (s.allocateHead y f) := by
  unfold State.allocateHead
  split
  · exact s.refuseFrame_asks y f
  · split
    · exact s.refuseFrame_asks y f
    · exact .of_eq rfl rfl

theorem State.commitHead_asks (s : State) (y : Fin 2) (f : InFrame) (k : Fin 8) :
    OnlyRequestsOf .journal s (s.commitHead y f k) := by
  unfold State.commitHead
  split
  · exact .of_eq rfl rfl
  · split
    · exact ((OnlyRequestsOf.of_eq (t := s.modPool _ _) rfl rfl).trans
        (State.commit_onlyRequestsOf _ _ _ _ _ _ _ _)).trans (.of_eq rfl rfl)
    · exact (s.discardHead_asks y f).trans (State.raiseCut_asks _ y _ _)

/-- A settlement asks for JW alone. -/
theorem State.settleOnce_asks (h : s.settleOnce y = some t) : OnlyRequestsOf .journal s t := by
  obtain ⟨f, fs, -, ⟨-, e⟩ | ⟨-, e⟩ | ⟨k, -, e⟩⟩ := State.settleOnce_spec h <;> rw [e]
  · exact s.discardHead_asks y f
  · exact s.allocateHead_asks y f
  · exact s.commitHead_asks y f k

theorem OnlyRequestsOf.listed_other (h : OnlyRequestsOf .journal s t) {q : Requester} (hq : q ≠ .journal) :
    t.listed q = s.listed q := by
  obtain ⟨kept, asked, -⟩ := h
  refine Bool.eq_iff_iff.2 ?_
  rw [State.listed_iff, State.listed_iff]
  simp only [List.mem_map]
  constructor
  · rintro ⟨r, hr, rfl⟩
    exact ⟨r, (asked r hr).resolve_right fun e => hq (e.elim id id), rfl⟩
  · rintro ⟨r, hr, rfl⟩
    exact ⟨r, kept r hr hq, rfl⟩

theorem State.stirs_congr (hl : t.listed (.inLane y) = s.listed (.inLane y)) (hp : t.port = s.port) :
    t.stirs y ↔ s.stirs y := by
  unfold State.stirs
  rw [hl, State.inProgress_congr hp]

/-! ### One settlement -/

theorem State.hasWork_inLane (hf : (s.inl y).frames = f :: fs) :
    s.hasWork (.inLane y) ↔ f.buffer ≠ none ∧ (f.outcome = .discard ∨ f.halves ≠ []) := by
  simp [State.hasWork, hf]

theorem State.hasWork_inLane_nil (hf : (s.inl y).frames = []) : ¬ s.hasWork (.inLane y) := by
  simp [State.hasWork, hf]

/-- A head that settles has no write listed or in progress. -/
theorem State.Pending.quiet (h : s.Pending y) (e : s.settleOnce y = some t) : ¬ s.stirs y := fun hs => by
  obtain ⟨f, fs, hf, -⟩ := State.settleOnce_spec e
  have head : f ∈ (s.inl y).frames.head? := by rw [hf]; rfl
  obtain ⟨hb, hd | hh⟩ := (State.hasWork_inLane hf).1 (h.stirs hs)
  · obtain ⟨-, -, hl⟩ := h.discarded f head hd
    have hp : s.inProgress (.inLane y) = true := hs.resolve_left (by rw [hl]; nofun)
    exact absurd (e.symm.trans (State.settleOnce_wait hf (.inr ⟨hd, hp⟩))) nofun
  · cases ho : f.outcome with
    | discard => exact hh (h.discarded f head ho).2.1
    | opened => exact absurd (e.symm.trans (State.settleOnce_wait hf (.inl ⟨hb, .inl ho⟩))) nofun
    | good => exact absurd (e.symm.trans (State.settleOnce_wait hf (.inl ⟨hb, .inr ⟨ho, hh⟩⟩))) nofun

/-- The head has left, with nothing listed or in progress. -/
theorem State.Pending.pop (h : s.Pending y) (hf : (s.inl y).frames = f :: fs) (e : (t.inl y).frames = fs)
    (quiet : ¬ t.stirs y) : t.Pending y := by
  have behind : ∀ g ∈ (t.inl y).frames.head?, g.outcome ≠ .discard ∧ g.buffer = none := fun g hg =>
    h.shaped.behind g (by rw [hf]; exact e ▸ List.mem_of_mem_head? hg)
  exact ⟨h.shaped.pop hf e, fun g hg hb => absurd (behind g hg).2 hb, fun g hg hd => absurd hd (behind g hg).1,
    fun hs => absurd hs quiet⟩

theorem InLane.closed_pop (h : l.closed) (hf : l.frames = f :: fs) (e : l'.frames = fs) : l'.closed := fun g hg =>
  h g (by rw [hf]; exact List.mem_cons_of_mem _ (e ▸ hg))

theorem State.commitHead_st {k : Fin 8} : ((s.commitHead y f k).inl y).st = (s.inl y).st := by
  unfold State.commitHead
  split
  · rw [State.modIn_inl]; rfl
  · split
    · rw [State.modIn_inl, InLane.popHead, State.inl_congr (commit_frame _ _ _ _ _ _ _ .ins (by decide))]
      rfl
    · rw [State.raiseCut_inl, State.discardHead_inl]
      rfl

/-- What settlements keep of the lane's own frames and state. -/
structure State.Settling (s t : State) (y : Fin 2) : Prop where
  pending : t.Pending y
  minds : (s.inl y).minds → (t.inl y).minds
  closed : (s.inl y).closed → (t.inl y).closed
  rests : (s.inl y).st ≠ .receiving → (t.inl y).st ≠ .receiving

theorem State.Settling.trans (h : s.Settling t y) (h' : t.Settling u y) : s.Settling u y :=
  ⟨h'.pending, fun e => h'.minds (h.minds e), fun e => h'.closed (h.closed e), fun e => h'.rests (h.rests e)⟩

theorem State.Pending.refused (h : s.Pending y) (hf : (s.inl y).frames = f :: fs)
    (quiet : ¬ (s.refuseFrame y f).stirs y) : s.Settling (s.refuseFrame y f) y := by
  have inl := State.refuseFrame_inl (s := s) (y := y) (f := f)
  have frames : ((s.refuseFrame y f).inl y).frames = fs := by rw [inl, hf]; rfl
  refine ⟨h.pop hf frames quiet, fun m => ?_, fun c => InLane.closed_pop c hf frames, fun e => ?_⟩
  case refine_2 =>
    rw [inl]
    dsimp only
    split
    · nofun
    · exact e
  by_cases ho : f.outcome = .opened
  · obtain rfl := h.shaped.alone hf ho
    unfold InLane.minds
    rw [frames, inl]
    simp [ho]
  · exact InLane.minds_pop m hf ho frames (by rw [inl]; exact if_neg ho)

/-- The head has been given a buffer. -/
theorem State.Pending.allocated (h : s.Pending y) (hf : (s.inl y).frames = f :: fs) (hd : f.outcome ≠ .discard)
    {k : Fin 8} (e : t.inl y = { s.inl y with frames := { f with buffer := some k } :: fs })
    (window : t.inWindow y ≠ none) (quiet : ¬ t.stirs y) : s.Settling t y := by
  have frames : (t.inl y).frames = { f with buffer := some k } :: fs := by rw [e]
  have head : ∀ g ∈ (t.inl y).frames.head?, g.outcome = f.outcome := fun g hg => by
    rw [frames] at hg
    obtain rfl := Option.some.inj hg
    rfl
  refine ⟨⟨h.shaped.head hf frames rfl le_rfl, fun _ _ _ => window, fun g hg c => absurd ((head g hg).symm.trans c) hd,
    fun c => absurd c quiet⟩, fun m => InLane.minds_head m hf frames rfl (by rw [e]), fun c g hg => ?_,
    fun c => by rw [e]; exact c⟩
  rw [frames, List.mem_cons] at hg
  rcases hg with rfl | hg
  · exact c f (by rw [hf]; exact List.mem_cons_self)
  · exact c g (by rw [hf]; exact List.mem_cons_of_mem _ hg)

theorem State.Pending.settleOnce (h : s.Pending y) (e : s.settleOnce y = some t) : s.Settling t y := by
  have op := LaneOp.settleOnce e
  have quiet : ¬ t.stirs y := fun c => h.quiet e ((State.stirs_congr
    ((State.settleOnce_asks e).listed_other nofun) (op.frame .port (by decide))).1 c)
  obtain ⟨f, fs, hf, ⟨hd, rfl⟩ | ⟨hb, rfl⟩ | ⟨k, hg, rfl⟩⟩ := State.settleOnce_spec e
  · have inl : (s.discardHead y f).inl y = (s.inl y).popHead := State.discardHead_inl
    have frames : ((s.discardHead y f).inl y).frames = fs := by rw [inl, InLane.popHead, hf]; rfl
    have st : ((s.discardHead y f).inl y).st = (s.inl y).st := by rw [inl]; rfl
    exact ⟨h.pop hf frames quiet, fun m => InLane.minds_pop m hf (by rw [hd]; nofun) frames st,
      fun c => InLane.closed_pop c hf frames, fun c => by rw [st]; exact c⟩
  · unfold State.allocateHead at quiet ⊢
    split at quiet
    · exact h.refused hf quiet
    · next w hw =>
      split at quiet
      · exact h.refused hf quiet
      · next k hk =>
        have inl : ((s.modPool w fun p => p.modBuf k Buffer.allocate).modIn y fun l =>
            l.modHead fun h => { h with buffer := some k }).inl y =
              { s.inl y with frames := { f with buffer := some k } :: fs } :=
          (State.modIn_inl _ _ _).trans (InLane.modHead_eq (l := s.inl y) hf _)
        have hd : f.outcome ≠ .discard := fun c => (h.discarded f (by rw [hf]; rfl) c).1 hb
        have same := State.inWindow_congr (op.frame .windows (by decide)) y
        rw [show s.allocateHead y f = (s.modPool w fun p => p.modBuf k Buffer.allocate).modIn y fun l =>
          l.modHead fun h => { h with buffer := some k } from State.allocateHead_some hw hk] at same
        exact h.allocated hf hd inl (by rw [same, hw]; nofun) quiet
  · have frames : ((s.commitHead y f k).inl y).frames = fs := by rw [State.commitHead_frames, hf]; rfl
    exact ⟨h.pop hf frames quiet, fun m => InLane.minds_pop m hf (by rw [hg]; nofun) frames State.commitHead_st,
      fun c => InLane.closed_pop c hf frames, fun c => by rw [State.commitHead_st]; exact c⟩

end

end Sys2Proof.Machine

/-! SUPPORT. The events of an inbound lane keep the law of its frames and have its half writes requested
(R152–R159). -/

namespace Sys2Proof.Machine

section
variable {s t u : State} {y : Fin 2} {f g : InFrame} {fs gs : List InFrame} {l l' : InLane}

/-! ### The settlement as a whole (R153, R155, R158) -/

theorem State.stirs_cases (s : State) (y : Fin 2) :
    s.stirs y ∨ s.listed (.inLane y) = false ∧ s.inProgress (.inLane y) = false := by
  unfold State.stirs
  cases s.listed (.inLane y) <;> cases s.inProgress (.inLane y) <;> simp

/-- The lane asks for the half write at its head, unless one is listed or in progress. -/
theorem State.Settled.of_tryWrite (shaped : (s.inl y).Shaped)
    (head : ∀ f ∈ (s.inl y).frames.head?, f.buffer ≠ none ∧ s.inWindow y ≠ none ∧
      (f.outcome = .good → f.halves ≠ []) ∧
      (f.outcome = .discard →
        f.halves = [] ∧ s.inProgress (.inLane y) = true ∧ s.listed (.inLane y) = false))
    (stirs : s.stirs y → s.hasWork (.inLane y)) : (s.tryWrite y).Settled y := by
  have same : (s.tryWrite y).inl y = s.inl y := State.inl_congr (tryWrite_frame s y .ins (by decide)) y
  have port : (s.tryWrite y).port = s.port := tryWrite_frame s y .port (by decide)
  have work : (s.tryWrite y).hasWork (.inLane y) ↔ s.hasWork (.inLane y) := by rw [State.hasWork, State.hasWork, same]
  refine ⟨by rw [same]; exact shaped, ?_, ?_⟩
  · rw [same, State.inWindow_congr (tryWrite_frame s y .windows (by decide)), State.inProgress_congr port]
    intro f hf
    obtain ⟨hb, hw, hg, hd⟩ := head f hf
    refine ⟨hb, hw, hg, fun e => ?_⟩
    obtain ⟨hh, hp, hl⟩ := hd e
    rw [State.tryWrite_of_busy (.inr hp)]
    exact ⟨hh, hp, hl⟩
  · rw [work]
    rcases s.stirs_cases y with hs | ⟨hl, hp⟩
    · rw [State.tryWrite_of_busy hs]
      exact iff_of_true hs (stirs hs)
    · have still : ¬ s.stirs y := by
        rintro (h | h)
        · exact absurd (hl.symm.trans h) nofun
        · exact absurd (hp.symm.trans h) nofun
      rcases s.tryWrite_cases y with e | ⟨w, k, f, fs, h, hs, hw, hf, hb, hh, -, -, e⟩
      · refine iff_of_false (by rw [e]; exact still) fun ⟨f, hf, hb, hk⟩ => ?_
        obtain ⟨_, hw, -, discarded⟩ := head f hf
        rcases hk with hd | hh
        · exact absurd (hp.symm.trans (discarded hd).2.1) nofun
        · obtain ⟨w, hw⟩ := Option.ne_none_iff_exists'.1 hw
          obtain ⟨k, hk⟩ := Option.ne_none_iff_exists'.1 hb
          obtain ⟨h, hs, hh⟩ := List.exists_cons_of_ne_nil hh
          obtain ⟨fs, hf⟩ : ∃ fs, (s.inl y).frames = f :: fs := List.head?_eq_some_iff.1 hf
          have asked := State.tryWrite_asks hw hf hk hh hl hp
          have len := congrArg (fun t : State => t.requests.length) (e.symm.trans asked)
          simp [State.join_requests] at len
      · refine iff_of_true ?_ ((State.hasWork_inLane hf).2 ⟨by rw [hb]; nofun, .inr (by rw [hh]; nofun)⟩)
        rw [e]
        refine .inl ((State.listed_iff _ _).2 ?_)
        simp [State.join_requests, State.halfWrite]

/-- Whatever was pending is settled; what the lane minds, and that nothing still arrives, is kept. -/
theorem State.Pending.settle (h : s.Pending y) : (s.settle y).Settled y ∧
    ((s.inl y).minds → ((s.settle y).inl y).minds) ∧ ((s.inl y).closed → ((s.settle y).inl y).closed) ∧
    ((s.inl y).st ≠ .receiving → ((s.settle y).inl y).st ≠ .receiving) := by
  obtain ⟨v, hv, none, e⟩ := State.settle_induct (P := fun v => s.Settling v y) (y := y) s ⟨h, id, id, id⟩
    fun u t hu ht => hu.trans (hu.pending.settleOnce ht)
  have same : (v.tryWrite y).inl y = v.inl y := State.inl_congr (tryWrite_frame v y .ins (by decide)) y
  rw [e, same]
  refine ⟨.of_tryWrite hv.pending.shaped (fun f hf => ?_) hv.pending.stirs, hv.minds, hv.closed, hv.rests⟩
  obtain ⟨fs, hc⟩ : ∃ fs, (v.inl y).frames = f :: fs := List.head?_eq_some_iff.1 hf
  rcases State.waits_of_settleOnce none hc with ⟨hd, hp⟩ | ⟨hb, ho⟩
  · obtain ⟨hb, hh, hl⟩ := hv.pending.discarded f hf hd
    exact ⟨hb, hv.pending.window f hf hb, fun c => absurd (hd.symm.trans c) nofun, fun _ => ⟨hh, hp, hl⟩⟩
  · refine ⟨hb, hv.pending.window f hf hb, fun c => ?_, fun c => ?_⟩
    · exact ho.elim (fun e => absurd (e.symm.trans c) nofun) And.right
    · exact ho.elim (fun e => absurd (e.symm.trans c) nofun) fun e => absurd (e.1.symm.trans c) nofun

/-! ### What leaves the frames in hand alone -/

theorem State.Settled.of_same (h : s.Settled y) (hf : (t.inl y).frames = (s.inl y).frames)
    (hw : t.inWindow y = s.inWindow y) (hl : t.listed (.inLane y) = s.listed (.inLane y))
    (hp : t.port = s.port) : t.Settled y := by
  have progress : t.inProgress (.inLane y) = s.inProgress (.inLane y) := State.inProgress_congr hp _
  refine ⟨h.shaped.of_frames hf, by rw [hf, hw, progress, hl]; exact h.head, ?_⟩
  rw [State.stirs_congr hl hp, State.hasWork, hf]
  exact h.served

theorem State.Settled.modIn (h : s.Settled y) (v : InLane → InLane)
    (hv : (v (s.inl y)).frames = (s.inl y).frames) : (s.modIn y v).Settled y :=
  h.of_same (by rw [State.modIn_inl, hv]) rfl rfl rfl

theorem State.Settled.raise (h : s.Settled y) (k : Kind) (source : Option Nat) (d1 d2 : Word) :
    (s.raise k source d1 d2).Settled y :=
  have f := raise_frame s k source d1 d2
  h.of_same (by rw [State.raise_inl]) (State.inWindow_congr (f .windows (by decide)) y)
    ((State.raise_onlyRequestsOf s _ _ _ _ _).listed_other nofun) (f .port (by decide))

theorem State.Settled.raiseCut (h : s.Settled y) (n : Option Half) (r : CutReason) : (s.raiseCut y n r).Settled y :=
  (h.modIn _ rfl).raise _ _ _ _

/-! ### The current frame -/

/-- The frames in hand, by their last. -/
theorem InLane.frames_cases (l : InLane) : l.frames = [] ∨ ∃ fs f, l.frames = fs ++ [f] := by
  rcases List.eq_nil_or_concat l.frames with h | ⟨fs, f, h⟩
  · exact .inl h
  · exact .inr ⟨fs, f, by rw [h, List.concat_eq_append]⟩

theorem InLane.closed_of_minds (h : l.Shaped) (m : l.minds) (hs : l.st ≠ .receiving) : l.closed := fun f hf => by
  rcases l.frames_cases with e | ⟨fs, b, e⟩
  · rw [e] at hf; cases hf
  · rw [e, List.mem_append, List.mem_singleton] at hf
    rcases hf with hf | rfl
    · exact h.opened f (by rw [e, List.dropLast_concat]; exact hf)
    · exact fun c => hs (m.2 ⟨f, by rw [e, List.getLast?_concat]; rfl, c⟩)

theorem InLane.minds_of_closed (h : l.closed) (hs : l.st ≠ .receiving) : l.minds :=
  iff_of_false hs fun ⟨f, hf, ho⟩ => h f (List.mem_of_getLast? hf) ho

/-- Behind other frames a current frame has no buffer; alone in hand it has one. -/
theorem State.Settled.current (h : s.Settled y) (hf : (s.inl y).frames = fs ++ [f]) : fs = [] ↔ f.buffer ≠ none := by
  cases fs with
  | nil => exact iff_of_true rfl (h.head f (by rw [hf]; rfl)).1
  | cons b bs =>
    refine iff_of_false nofun fun c => c (h.shaped.behind f ?_).2
    rw [hf]
    exact List.mem_append_right _ (List.mem_singleton_self f)

/-- A current frame discarded (R158): the frames that stay are settled, and none of them still arrives. -/
theorem State.Settled.discardCurrent (h : s.Settled y) :
    (s.discardCurrent y).Settled y ∧ ((s.discardCurrent y).inl y).closed ∧
      ((s.inl y).st ≠ .receiving → ((s.discardCurrent y).inl y).st ≠ .receiving) := by
  rcases (s.inl y).frames_cases with e | ⟨fs, f, hf⟩
  · have same : s.discardCurrent y = s := by
      unfold State.discardCurrent
      rw [e]
      rfl
    rw [same]
    exact ⟨h, fun g hg => (by rw [e] at hg; cases hg), id⟩
  · have opened := h.shaped.opened
    rw [hf, List.dropLast_concat] at opened
    cases hb : f.buffer with
    | none =>
      have hne : fs ≠ [] := fun c => (h.current hf).1 c hb
      obtain ⟨g, gs, rfl⟩ := List.exists_cons_of_ne_nil hne
      have frames : ((s.discardCurrent y).inl y).frames = g :: gs := by
        rw [State.discardCurrent_behind hf hb, State.modIn_inl]
        exact (congrArg List.dropLast hf).trans List.dropLast_concat
      have head : ((s.discardCurrent y).inl y).frames.head? = (s.inl y).frames.head? := by rw [frames, hf]; rfl
      have op : s.discardCurrent y = s.modIn y fun l => { l with frames := l.frames.dropLast } :=
        State.discardCurrent_behind hf hb
      refine ⟨⟨⟨fun b hb' => ?_, fun b hb' => ?_, ?_⟩, ?_, ?_⟩, fun b hb' => ?_, fun c => ?_⟩
      · rw [frames] at hb'
        exact opened b (List.dropLast_subset _ hb')
      · rw [frames] at hb'
        exact h.shaped.behind b (by rw [hf]; exact List.mem_append_left _ hb')
      · have room := h.shaped.room
        rw [InLane.halves, hf, List.flatMap_append, List.length_append] at room
        rw [InLane.halves, frames]
        omega
      · rw [head, op]
        exact h.head
      · have work : (s.discardCurrent y).hasWork (.inLane y) ↔ s.hasWork (.inLane y) := by
          rw [State.hasWork, State.hasWork, head]
        rw [work, op]
        exact h.served
      · rw [frames] at hb'
        exact opened b hb'
      · rw [op, State.modIn_inl]
        exact c
    | some k =>
      obtain rfl : fs = [] := (h.current hf).2 (by rw [hb]; nofun)
      have inl : (((s.unlist (.inLane y)).modIn y fun l =>
          l.modLast fun h => { h with outcome := .discard, halves := [] }).inl y).frames =
            [{ f with outcome := .discard, halves := [] }] := by
        rw [State.modIn_inl, InLane.modLast_eq (l := (s.unlist (.inLane y)).inl y) (fs := []) (f := f) hf]
        rfl
      have listed : ((s.unlist (.inLane y)).modIn y fun l =>
          l.modLast fun h => { h with outcome := .discard, halves := [] }).listed (.inLane y) = false := by
        rw [State.listed_eq_false]
        intro c
        obtain ⟨r, hr, e⟩ := List.mem_map.1 c
        exact s.unlist_who _ r hr e
      have window : ((s.unlist (.inLane y)).modIn y fun l =>
          l.modLast fun h => { h with outcome := .discard, halves := [] }).inWindow y = s.inWindow y := rfl
      have st : (((s.unlist (.inLane y)).modIn y fun l =>
          l.modLast fun h => { h with outcome := .discard, halves := [] }).inl y).st = (s.inl y).st := by
        rw [State.modIn_inl]
        rfl
      rw [State.discardCurrent_head hf hb]
      generalize (s.unlist (.inLane y)).modIn y _ = u at inl listed window st ⊢
      have only : ∀ g ∈ (u.inl y).frames, g = { f with outcome := .discard, halves := [] } := fun g hg => by
        rw [inl] at hg
        exact List.mem_singleton.1 hg
      have pending : u.Pending y := by
        refine ⟨⟨?_, ?_, ?_⟩, fun g hg _ => ?_, fun g hg _ => ?_, fun _ => ?_⟩
        · rw [inl]; nofun
        · rw [inl]; nofun
        · simp [InLane.halves, inl]
        · rw [window]
          exact (h.head f (by rw [hf]; rfl)).2.1
        · obtain rfl := only g (List.mem_of_mem_head? hg)
          exact ⟨by rw [hb]; nofun, rfl, listed⟩
        · exact (State.hasWork_inLane inl).2 ⟨by rw [hb]; nofun, .inl rfl⟩
      obtain ⟨settled, -, closed, rests⟩ := pending.settle
      exact ⟨settled, closed fun g hg => (by rw [only g hg]; nofun), fun c => rests (st ▸ c)⟩

/-! ### Frame starts (R152, R159) -/

theorem State.Settled.inFrameStart (h : s.Settled y) (c : (s.inl y).closed) :
    (s.inFrameStart y).Settled y ∧ ((s.inFrameStart y).inl y).minds := by
  have inl := s.frameOpened_inl y
  have frames : ((s.frameOpened y).inl y).frames = (s.inl y).frames ++ [s.openedFrame none] := by rw [inl]
  have room : ((s.frameOpened y).inl y).halves.length ≤ 16 := by
    rw [InLane.halves, frames, List.flatMap_append, List.length_append]
    exact h.shaped.room
  have minds : ((s.frameOpened y).inl y).minds := by
    refine iff_of_true (by rw [inl]) ⟨s.openedFrame none, ?_, rfl⟩
    rw [frames, List.getLast?_concat]
    rfl
  have opened : ∀ f ∈ ((s.frameOpened y).inl y).frames.dropLast, f.outcome ≠ .opened := by
    rw [frames, List.dropLast_concat]
    exact c
  cases hf : (s.inl y).frames with
  | nil =>
    rw [hf, List.nil_append] at frames
    have only : ∀ g ∈ ((s.frameOpened y).inl y).frames.head?, g = s.openedFrame none := fun g hg => by
      rw [frames] at hg
      exact (Option.some.inj hg).symm
    have still : ¬ (s.frameOpened y).stirs y := fun e => State.hasWork_inLane_nil hf (h.served.1 e)
    have pending : (s.frameOpened y).Pending y := by
      refine ⟨⟨opened, by rw [frames]; nofun, room⟩, fun g hg hb => ?_, fun g hg hd => ?_, fun e => absurd e still⟩
      · rw [only g hg] at hb; exact absurd rfl hb
      · rw [only g hg] at hd; cases hd
    obtain ⟨settled, m, -⟩ := pending.settle
    rw [State.inFrameStart_alone hf]
    exact ⟨settled, m minds⟩
  | cons b bs =>
    have head : ((s.frameOpened y).inl y).frames.head? = (s.inl y).frames.head? := by rw [frames, hf]; rfl
    rw [State.inFrameStart_behind (by rw [hf]; nofun)]
    refine ⟨⟨⟨opened, fun g hg => ?_, room⟩, by rw [head]; exact h.head, ?_⟩, minds⟩
    · rw [frames, hf] at hg
      rcases List.mem_append.1 hg with hg | hg
      · exact h.shaped.behind g (by rw [hf]; exact hg)
      · rw [List.mem_singleton.1 hg]; exact ⟨nofun, rfl⟩
    · rw [State.hasWork, head]
      exact h.served

theorem State.Settled.inActiveEdge (h : s.Settled y) (m : (s.inl y).minds) :
    (s.inActiveEdge y).Settled y ∧ ((s.inActiveEdge y).inl y).minds := by
  have starts : (s.inl y).st ≠ .receiving → (s.inFrameStart y).Settled y ∧ ((s.inFrameStart y).inl y).minds :=
    fun e => h.inFrameStart (InLane.closed_of_minds h.shaped m e)
  unfold State.inActiveEdge
  split
  · exact ⟨h, m⟩
  · next e =>
    split
    · exact starts (by rw [e]; nofun)
    · exact ⟨h, m⟩
  · obtain ⟨settled, closed, -⟩ := (h.raiseCut (s.inl y).currentNumber .truncated).discardCurrent
    exact settled.inFrameStart closed
  · next e => exact starts (by rw [e]; nofun)

/-! ### Slots (R154–R157) -/

/-- The rest of a frame that is cut is ignored (R149). -/
theorem State.Settled.cut (h : s.Settled y) (n : Option Half) (r : CutReason) :
    (((s.raiseCut y n r).discardCurrent y).toDiscarding y).Settled y ∧
      ((((s.raiseCut y n r).discardCurrent y).toDiscarding y).inl y).minds := by
  obtain ⟨settled, closed, -⟩ := (h.raiseCut n r).discardCurrent
  refine ⟨settled.modIn _ rfl, ?_⟩
  rw [State.toDiscarding, State.modIn_inl]
  exact InLane.minds_of_closed closed nofun

/-! The last frame, which still arrives, goes on to another of its kind. -/

theorem InLane.receiving_frames (m : l.minds) (hs : l.st = .receiving) :
    ∃ fs f, l.frames = fs ++ [f] ∧ f.outcome = .opened := by
  obtain ⟨f, hf, ho⟩ := m.1 hs
  rcases l.frames_cases with e | ⟨fs, b, e⟩
  · rw [e] at hf; cases hf
  · rw [e, List.getLast?_concat] at hf
    obtain rfl := Option.some.inj hf
    exact ⟨fs, b, e, ho⟩

theorem InLane.Shaped.last (h : l.Shaped) (hf : l.frames = fs ++ [f]) (e : l'.frames = fs ++ [g])
    (hb : g.buffer = f.buffer) (hd : g.outcome ≠ .discard) (room : l'.halves.length ≤ 16) : l'.Shaped := by
  have opened := h.opened
  have behind := h.behind
  refine ⟨by rw [e, List.dropLast_concat]; rwa [hf, List.dropLast_concat] at opened, ?_, room⟩
  rw [e]
  rw [hf] at behind
  cases fs with
  | nil => nofun
  | cons b bs =>
    intro a ha
    rcases List.mem_append.1 ha with ha | ha
    · exact behind a (List.mem_append_left _ ha)
    · rw [List.mem_singleton.1 ha]
      exact ⟨hd, hb.trans (behind f (List.mem_append_right _ (List.mem_singleton_self f))).2⟩

theorem InLane.room_last (h : l.Shaped) (hf : l.frames = fs ++ [f]) (e : l'.frames = fs ++ [g])
    (hh : g.halves = f.halves) : l'.halves.length ≤ 16 := by
  have same : l'.halves = l.halves := by
    rw [InLane.halves, InLane.halves, e, hf, List.flatMap_append, List.flatMap_append, List.flatMap_singleton,
      List.flatMap_singleton, hh]
  rw [same]
  exact h.room

theorem State.hasWork_last (hf : (s.inl y).frames = fs ++ [f]) (e : (t.inl y).frames = fs ++ [g])
    (hb : g.buffer = f.buffer) (hd : f.outcome ≠ .discard) (hh : f.halves ≠ [] → g.halves ≠ [])
    (h : s.hasWork (.inLane y)) : t.hasWork (.inLane y) := by
  cases fs with
  | nil =>
    obtain ⟨buffer, work⟩ := (State.hasWork_inLane hf).1 h
    exact (State.hasWork_inLane e).2 ⟨hb ▸ buffer, .inr (hh (work.resolve_left hd))⟩
  | cons b bs =>
    have head : (t.inl y).frames.head? = (s.inl y).frames.head? := by rw [hf, e]; rfl
    rw [State.hasWork, head]
    exact h

/-- The head law, with the frame that still arrives replaced. -/
theorem State.Settled.head_last (h : s.Settled y) (hf : (s.inl y).frames = fs ++ [f])
    (e : (t.inl y).frames = fs ++ [g]) (hb : g.buffer = f.buffer) (ho : g.outcome = .opened)
    (hw : t.inWindow y = s.inWindow y) (hl : t.listed (.inLane y) = s.listed (.inLane y)) (hp : t.port = s.port) :
    ∀ b ∈ (t.inl y).frames.head?, b.buffer ≠ none ∧ t.inWindow y ≠ none ∧ (b.outcome = .good → b.halves ≠ []) ∧
      (b.outcome = .discard → b.halves = [] ∧ t.inProgress (.inLane y) = true ∧ t.listed (.inLane y) = false) := by
  rw [hw, hl, State.inProgress_congr hp]
  cases fs with
  | nil =>
    intro b hbm
    rw [e] at hbm
    obtain rfl := Option.some.inj hbm
    obtain ⟨buffer, window, -⟩ := h.head f (by rw [hf]; rfl)
    exact ⟨hb ▸ buffer, window, fun c => absurd (ho.symm.trans c) nofun, fun c => absurd (ho.symm.trans c) nofun⟩
  | cons b bs =>
    have head : (t.inl y).frames.head? = (s.inl y).frames.head? := by rw [hf, e]; rfl
    rw [head]
    exact h.head

theorem InLane.minds_last (e : l'.frames = fs ++ [g]) (ho : g.outcome = .opened) (hs : l'.st = .receiving) :
    l'.minds := iff_of_true hs ⟨g, by rw [e, List.getLast?_concat]; rfl, ho⟩

/-- An H0 gives the current frame its number, and a refused frame none (R153, R154). -/
theorem State.Settled.checkNumber (h : s.Settled y) (m : (s.inl y).minds) (n : Half) :
    (s.checkNumber y n).Settled y ∧ ((s.checkNumber y n).inl y).minds := by
  unfold State.checkNumber
  dsimp only
  split
  · refine ⟨((h.modIn _ rfl).modIn _ rfl).raise _ _ _ _, ?_⟩
    rw [State.raise_inl, State.modIn_inl, State.modIn_inl]
    exact m
  · refine ⟨h.modIn _ rfl, ?_⟩
    rw [State.modIn_inl]
    exact m

theorem State.Settled.inH0 (h : s.Settled y) (m : (s.inl y).minds) (n : Half) :
    (s.inH0 y n).Settled y ∧ ((s.inH0 y n).inl y).minds := by
  unfold State.inH0
  split
  · next he =>
    obtain ⟨hs, -⟩ := InLane.expects_iff.1 he
    obtain ⟨fs, f, hf, ho⟩ := InLane.receiving_frames m hs
    refine State.Settled.checkNumber ?_ ?_ n
    · have inl : (({ ((s.inl y).modLast fun f => { f with number := some n }) with
          crc := crcHalf (s.inl y).crc n, slot := some 1 } : InLane)).frames = fs ++ [{ f with number := some n }] := by
        rw [InLane.modLast_eq hf]
      have frames := (congrArg InLane.frames (State.modIn_inl s y fun l =>
        { (l.modLast fun f => { f with number := some n }) with crc := crcHalf l.crc n, slot := some 1 })).trans inl
      have nd : f.outcome ≠ .discard := by rw [ho]; nofun
      refine ⟨h.shaped.last hf frames rfl nd (InLane.room_last h.shaped hf frames rfl),
        h.head_last hf frames rfl ho rfl rfl rfl, h.served.trans ⟨?_, ?_⟩⟩
      · exact State.hasWork_last hf frames rfl nd id
      · exact State.hasWork_last frames hf rfl nd id
    · rw [State.modIn_inl]
      refine InLane.minds_last (fs := fs) (g := { f with number := some n }) ?_ ho ?_
      · rw [InLane.modLast_eq hf]
      · rw [InLane.modLast_eq hf]
        exact hs
  · split
    · refine State.Settled.checkNumber (h.modIn _ rfl) ?_ n
      rw [State.modIn_inl]
      exact m
    · exact ⟨h, m⟩

theorem State.Settled.inH1 (h : s.Settled y) (m : (s.inl y).minds) (n : Half) :
    (s.inH1 y n).Settled y ∧ ((s.inH1 y n).inl y).minds := by
  unfold State.inH1
  split
  · dsimp only
    split
    · refine ⟨h.modIn _ rfl, ?_⟩
      rw [State.modIn_inl]
      exact m
    · exact (h.modIn _ rfl).cut _ _
  · exact ⟨h, m⟩

/-- A data half joins the current frame, and the lane asks for its write where it can (R155, R156). -/
theorem State.Settled.rxHalf (h : s.Settled y) (m : (s.inl y).minds) (hs : (s.inl y).st = .receiving)
    (place : Nat × Bool) (n : Half) : (s.rxHalf y place n).Settled y ∧ ((s.rxHalf y place n).inl y).minds := by
  unfold State.rxHalf
  split
  · exact h.cut _ _
  · next room =>
    obtain ⟨fs, f, hf, ho⟩ := InLane.receiving_frames m hs
    have inl := (State.modIn_inl s y fun l => l.modLast fun f =>
      { f with halves := f.halves ++ [{ word := place.1, high := place.2, data := n }] }).trans
        (InLane.modLast_eq hf _)
    generalize hu : (s.modIn y fun l => l.modLast fun f =>
      { f with halves := f.halves ++ [{ word := place.1, high := place.2, data := n }] }) = u at inl
    have windows : u.inWindow y = s.inWindow y := hu ▸ rfl
    have listed : u.listed (.inLane y) = s.listed (.inLane y) := hu ▸ rfl
    have port : u.port = s.port := hu ▸ rfl
    have frames : (u.inl y).frames =
        fs ++ [{ f with halves := f.halves ++ [{ word := place.1, high := place.2, data := n }] }] := by rw [inl]
    have nd : f.outcome ≠ .discard := by rw [ho]; nofun
    have few : (u.inl y).halves.length ≤ 16 := by
      have before : (s.inl y).halves.length < 16 := Nat.lt_of_not_le room
      rw [InLane.halves, hf, List.flatMap_append, List.flatMap_singleton, List.length_append] at before
      rw [InLane.halves, frames, List.flatMap_append, List.flatMap_singleton, List.length_append, List.length_append,
        List.length_singleton]
      omega
    refine ⟨.of_tryWrite (h.shaped.last hf frames rfl nd few) (h.head_last hf frames rfl ho windows listed port)
      fun e => State.hasWork_last hf frames rfl nd (fun _ => by simp)
        (h.served.1 ((State.stirs_congr listed port).1 e)), ?_⟩
    rw [State.inl_congr (tryWrite_frame u y .ins (by decide))]
    exact InLane.minds_last frames ho (by rw [inl]; exact hs)

theorem State.Settled.inData (h : s.Settled y) (m : (s.inl y).minds) (n : Half) :
    (s.inData y n).Settled y ∧ ((s.inData y n).inl y).minds := by
  unfold State.inData
  split
  · exact ⟨h, m⟩
  · next d hd =>
    have hs : (s.inl y).st = .receiving := by
      unfold State.dataExpected at hd
      split at hd
      · assumption
      · cases hd
    have kept := h.modIn (fun l => { l with crc := crcHalf l.crc n, slot := some (d + 3) }) rfl
    have minds : ((s.modIn y fun l => { l with crc := crcHalf l.crc n, slot := some (d + 3) }).inl y).minds := by
      rw [State.modIn_inl]
      exact m
    dsimp only
    split
    · exact ⟨kept, minds⟩
    · exact kept.rxHalf minds (by rw [State.modIn_inl]; exact hs) _ n

/-- A frame whose CRC is right becomes GOOD and may settle; one whose CRC is wrong is discarded (R157, R158). -/
theorem State.Settled.inCrc (h : s.Settled y) (m : (s.inl y).minds) (n : Half) :
    (s.inCrc y n).Settled y ∧ ((s.inCrc y n).inl y).minds := by
  unfold State.inCrc
  split
  · next he =>
    obtain ⟨hs, -⟩ := InLane.expects_iff.1 he
    obtain ⟨fs, f, hf, ho⟩ := InLane.receiving_frames m hs
    have kept := h.modIn (fun l => { l with st := .listening, slot := none }) rfl
    have inl := State.modIn_inl s y fun l => { l with st := .listening, slot := none }
    dsimp only
    generalize (s.modIn y fun l => { l with st := .listening, slot := none }) = v at kept inl ⊢
    have hv : (v.inl y).frames = fs ++ [f] := by rw [inl]; exact hf
    have hst : (v.inl y).st = .listening := by rw [inl]
    split
    · have good := (State.modIn_inl v y fun l => l.modLast fun f => { f with outcome := .good }).trans
        (InLane.modLast_eq hv _)
      generalize hu : (v.modIn y fun l => l.modLast fun f => { f with outcome := .good }) = u at good ⊢
      have frames : (u.inl y).frames = fs ++ [{ f with outcome := .good }] := by rw [good]
      have windows : u.inWindow y = v.inWindow y := hu ▸ rfl
      have listed : u.listed (.inLane y) = v.listed (.inLane y) := hu ▸ rfl
      have port : u.port = v.port := hu ▸ rfl
      have head : ∀ b ∈ (u.inl y).frames.head?, b.buffer ≠ none ∧ v.inWindow y ≠ none ∧ (b.outcome = .discard →
          b.halves = [] ∧ v.listed (.inLane y) = false) := by
        cases fs with
        | nil =>
          intro b hb
          rw [frames] at hb
          obtain rfl := Option.some.inj hb
          obtain ⟨buffer, window, -⟩ := kept.head f (by rw [hv]; rfl)
          exact ⟨buffer, window, nofun⟩
        | cons b bs =>
          have same : (u.inl y).frames.head? = (v.inl y).frames.head? := by rw [frames, hv]; rfl
          rw [same]
          intro b hb
          obtain ⟨buffer, window, -, discarded⟩ := kept.head b hb
          exact ⟨buffer, window, fun c => ⟨(discarded c).1, (discarded c).2.2⟩⟩
      have pending : u.Pending y := by
        refine ⟨kept.shaped.last hv frames rfl nofun (InLane.room_last kept.shaped hv frames rfl),
          fun b hb _ => windows ▸ (head b hb).2.1, fun b hb c => ⟨(head b hb).1, ?_⟩, fun e => ?_⟩
        · rw [listed]
          exact (head b hb).2.2 c
        · exact State.hasWork_last hv frames rfl (by rw [ho]; nofun) id
            (kept.served.1 ((State.stirs_congr listed port).1 e))
      obtain ⟨settled, minds, -⟩ := pending.settle
      refine ⟨settled, minds (iff_of_false (by rw [good, hst]; nofun) ?_)⟩
      rintro ⟨b, hb, hbo⟩
      rw [frames, List.getLast?_concat] at hb
      obtain rfl := Option.some.inj hb
      cases hbo
    · have raised := (kept.modIn (fun l => { l with crcErrors := sat8 l.crcErrors }) rfl).raise .inboundCrc (some y.val)
        (((s.inl y).currentNumber.getD 0).setWidth 32)
        (((v.modIn y fun l => { l with crcErrors := sat8 l.crcErrors }).inl y).crcErrors.setWidth 32)
      obtain ⟨settled, closed, rests⟩ := raised.discardCurrent
      refine ⟨settled, InLane.minds_of_closed closed (rests ?_)⟩
      rw [State.raise_inl, State.modIn_inl]
      exact fun c => absurd (hst.symm.trans c) nofun
  · exact ⟨h, m⟩

end

end Sys2Proof.Machine

/-! SUPPORT. The events of an inbound lane under the laws of the request list and of the frames in hand (R75,
R153, R155, R158, R161). -/

namespace Sys2Proof.Machine

section
variable {s t u c : State} {y : Fin 2} {S : Requester → Prop}

/-! ### The lane at the end of an event -/

/-- Where the lane's access, if it has one at the port, is awaited. -/
theorem State.stirs_iff_busy
    (ha : ∀ a, s.port = some a → a.req.who = .inLane y → a.withdrawn = false) : s.stirs y ↔ s.busy (.inLane y) := by
  unfold State.stirs State.busy
  rw [State.listed_iff, State.inProgress_iff]
  exact or_congr_right ⟨fun ⟨a, hp, hq⟩ => ⟨a, hp, ha a hp hq, hq⟩, fun ⟨a, hp, _, hq⟩ => ⟨a, hp, hq⟩⟩

theorem State.writesAwaited.awaited (h : s.writesAwaited) (hd : s.dev = .run) (a : Access) (hp : s.port = some a)
    (hq : a.req.who = .inLane y) : a.withdrawn = false :=
  Bool.eq_false_iff.2 fun c => h a hp c ⟨y, hq⟩ hd

/-- In RUN the laws say that the lane is settled. -/
theorem State.settled_of_laws (hf : FrameLaw s) (parts : RunParts s) (hd : s.dev = .run) (o : s.Orderly)
    (hs : s.served (.inLane y)) : s.Settled y ∧ (s.inl y).minds := by
  obtain ⟨awaited, framed⟩ := (frameLaw_iff s).1 hf
  obtain ⟨minds, opened, discarded, head, room⟩ := framed y
  refine ⟨⟨⟨opened, fun f hm => ⟨discarded f hm, parts.tails y f hm⟩, room⟩, fun f hm => ?_,
    (State.stirs_iff_busy (awaited.awaited hd)).trans hs⟩, minds⟩
  obtain ⟨buffer, window, good, bad⟩ := head f hm
  refine ⟨buffer, window, good, fun e => ⟨(bad e).1, (bad e).2, ?_⟩⟩
  obtain ⟨a, ha, hq⟩ := (s.inProgress_iff _).1 (bad e).2
  rw [State.listed_eq_false, ← hq]
  exact o.awaited a ha (awaited.awaited hd a ha hq)

theorem State.Settled.framed (h : s.Settled y) (m : (s.inl y).minds) :
    (s.inl y).Framed (s.inWindow y ≠ none) (s.inProgress (.inLane y) = true) := by
  refine ⟨m, h.shaped.opened, fun f hf => (h.shaped.behind f hf).1, fun f hf => ?_, h.shaped.room⟩
  obtain ⟨buffer, window, good, bad⟩ := h.head f hf
  exact ⟨buffer, window, good, fun e => ⟨(bad e).1, (bad e).2.1⟩⟩

/-! ### The law of the frames, from the lane concerned -/

/-- An operation of one lane keeps the frames of the other, where no withdrawn write is at the port. -/
theorem LaneOp.frameLaw (k : LaneOp y s u) (awaited : s.writesAwaited)
    (others : ∀ z, z ≠ y → (s.inl z).Framed (s.inWindow z ≠ none) (s.inProgress (.inLane z) = true))
    (own : (u.inl y).Framed (u.inWindow y ≠ none) (u.inProgress (.inLane y) = true)) : FrameLaw u := by
  have port : u.port = s.port := k.frame .port (by decide)
  have dev : u.dev = s.dev := k.frame .dev (by decide)
  refine (frameLaw_iff u).2 ⟨fun a ha hw hy => ?_, fun z => ?_⟩
  · rw [dev]
    exact awaited a (port ▸ ha) hw hy
  · by_cases hz : z = y
    · exact hz ▸ own
    · rw [k.others z hz, State.inWindow_congr (k.frame .windows (by decide)), State.inProgress_congr port]
      exact others z hz

/-- An event of a lane in RUN that settles it keeps the laws. -/
theorem LaneOp.keeps (k : LaneOp y s u) (h : Serves S s) (hS : S (.inLane y)) (hf : FrameLaw s) (run : RunLaw s)
    (hd : s.dev = .run)
    (own : s.Settled y → (s.inl y).minds → u.Settled y ∧ (u.inl y).minds) : Serves S u ∧ FrameLaw u := by
  obtain ⟨parts, -⟩ := (runLaw_iff s).1 run
  obtain ⟨settled, minds⟩ := State.settled_of_laws hf parts hd h.orderly (h.served _ hS)
  obtain ⟨after, minds'⟩ := own settled minds
  obtain ⟨awaited, framed⟩ := (frameLaw_iff s).1 hf
  refine ⟨k.serves (h.but _) fun _ => ?_, k.frameLaw awaited (fun z _ => framed z) (after.framed minds')⟩
  refine (State.stirs_iff_busy fun a ha hq => ?_).symm.trans after.served
  exact awaited.awaited hd a (k.frame .port (by decide) ▸ ha) hq

/-! ### Half writes performed (R155, R158, R161) -/

/-- With no write listed or in progress, frames like those of a settled lane are ready to settle. -/
theorem State.Settled.pending_of_quiet (h : s.Settled y) (hi : (c.inl y).frames = (s.inl y).frames)
    (hw : c.inWindow y = s.inWindow y) (hl : c.listed (.inLane y) = false) (hp : c.inProgress (.inLane y) = false) :
    c.Pending y := by
  refine ⟨h.shaped.of_frames hi, fun f hf _ => ?_, fun f hf hd => ?_, fun e => ?_⟩
  · rw [hi] at hf
    exact hw ▸ (h.head f hf).2.1
  · rw [hi] at hf
    obtain ⟨buffer, -, -, bad⟩ := h.head f hf
    exact ⟨buffer, (bad hd).1, hl⟩
  · rcases e with e | e
    · exact absurd (hl.symm.trans e) nofun
    · exact absurd (hp.symm.trans e) nofun

theorem State.Settled.halfWritten (h : s.Settled y) (m : (s.inl y).minds) (hl : s.listed (.inLane y) = false)
    (r : Request) : ((s.complete r).halfWritten y).Settled y ∧ (((s.complete r).halfWritten y).inl y).minds := by
  have pending : (s.complete r).Pending y := h.pending_of_quiet rfl rfl hl rfl
  obtain ⟨settled, minds, -⟩ := pending.settle
  cases hf : (s.inl y).frames with
  | nil =>
    have same : (s.complete r).halfWritten y = (s.complete r).settle y := by
      unfold State.halfWritten
      rw [show ((s.complete r).inl y).frames = [] from hf]
      cases (s.complete r).inWindow y <;> rfl
    rw [same]
    exact ⟨settled, minds m⟩
  | cons f fs =>
    obtain ⟨buffer, window, -, bad⟩ := h.head f (by rw [hf]; rfl)
    obtain ⟨w, hw⟩ := Option.ne_none_iff_exists'.1 window
    obtain ⟨k, hb⟩ := Option.ne_none_iff_exists'.1 buffer
    cases hh : f.halves with
    | nil =>
      have same : (s.complete r).halfWritten y = (s.complete r).settle y := by
        unfold State.halfWritten
        rw [show ((s.complete r).inl y).frames = f :: fs from hf]
        simp only [show (s.complete r).inWindow y = some w from hw, hb, hh]
        cases f.outcome <;> rfl
      rw [same]
      exact ⟨settled, minds m⟩
    | cons half halves =>
      have hd : f.outcome ≠ .discard := fun e => by have := (bad e).1; rw [hh] at this; cases this
      obtain ⟨fu, -, inl, -, port, requests⟩ :=
        State.halfTaken_facts (w := w) (k := k) (h := half) (hs := halves) s r hf
      rw [State.halfWritten_taken (s := s.complete r) (fs := fs) hw hf hb hh hd]
      generalize (s.complete r).halfTaken y w k half halves = u at *
      have frames : (u.inl y).frames = { f with halves := halves } :: fs := by rw [inl]
      have only : ∀ g ∈ (u.inl y).frames.head?, g = { f with halves := halves } := fun g hg => by
        rw [frames] at hg
        exact (Option.some.inj hg).symm
      have listed : u.listed (.inLane y) = false := (State.listed_congr requests _).trans hl
      have idle : u.inProgress (.inLane y) = false := by rw [State.inProgress, port]
      have pending : u.Pending y := by
        refine ⟨h.shaped.head hf frames rfl ?_, fun g _ _ => ?_, fun g hg e => ?_, fun e => ?_⟩
        · rw [hh]; exact Nat.le_succ _
        · rw [State.inWindow_congr (fu .windows (by decide)), hw]
          nofun
        · rw [only g hg] at e
          exact absurd e hd
        · rcases e with e | e
          · exact absurd (listed.symm.trans e) nofun
          · exact absurd (idle.symm.trans e) nofun
      obtain ⟨settled, minds, -⟩ := pending.settle
      exact ⟨settled, minds (InLane.minds_head m hf frames rfl (by rw [inl]))⟩

/-- The performance of an awaited half write keeps the laws. -/
theorem Serves.halfWritten (h : Serves S s) (hS : S (.inLane y)) (hf : FrameLaw s) (run : RunLaw s) {a : Access}
    (hp : s.port = some a) (hw : a.withdrawn = false) (hq : a.req.who = .inLane y) :
    Serves S ((s.complete a.req).halfWritten y) ∧ FrameLaw ((s.complete a.req).halfWritten y) := by
  obtain ⟨parts, dev⟩ := (runLaw_iff s).1 run
  have hd : s.dev = .run := by
    by_contra hn
    obtain ⟨f, hf, -⟩ := (h.served _ hS).1 (.inr ⟨a, hp, hw, hq⟩)
    rw [(dev.2.2.2.2 hn y).2] at hf
    cases hf
  obtain ⟨settled, minds⟩ := State.settled_of_laws hf parts hd h.orderly (h.served _ hS)
  have hl : s.listed (.inLane y) = false := by
    rw [State.listed_eq_false, ← hq]
    exact h.orderly.awaited a hp hw
  obtain ⟨after, minds'⟩ := settled.halfWritten minds hl a.req
  have op := LaneOp.halfWritten (s.complete a.req) y
  have port : ((s.complete a.req).halfWritten y).port = none := op.frame .port (by decide)
  have others : Serves (fun q => S q ∧ q ≠ .inLane y) (s.complete a.req) :=
    hq ▸ h.complete_awaited hp (by rw [hq]; nofun) a.req
  refine ⟨op.serves others fun _ => ?_, op.frameLaw (fun b hb => by cases hb) (fun z hz => ?_) (after.framed minds')⟩
  · refine (State.stirs_iff_busy fun b hb => ?_).symm.trans after.served
    rw [port] at hb
    cases hb
  · refine (((frameLaw_iff s).1 hf).2 z).mono fun e => ?_
    obtain ⟨b, hb, hz'⟩ := (s.inProgress_iff _).1 e
    obtain rfl := Option.some.inj (hp.symm.trans hb)
    exact absurd (Requester.inLane.inj (hz'.symm.trans hq)) hz

/-- The performance of a withdrawn half write finds no frame in hand. -/
theorem FrameLaw.complete_withdrawn (hf : FrameLaw s) (dev : DeviceLaw s) {a : Access} (hp : s.port = some a)
    (hw : a.withdrawn = true) (hq : a.req.who = .inLane y) : FrameLaw (s.complete a.req) := by
  have hn : s.dev ≠ .run := ((frameLaw_iff s).1 hf).1 a hp hw ⟨y, hq⟩
  exact frameLaw_of_not_run hn fun z => dev.2.2.2.2 hn z

end

end Sys2Proof.Machine

/-! SUPPORT. The law of the request list over every command (R73–R76). -/

namespace Sys2Proof.Machine

section
variable {s t u c : State} {y : Fin 2} {x : Fin 6} {w : Fin 16} {S : Requester → Prop}

/-! ### Commands without work -/

/-- The parts of State that requests and work stand in. -/
def workItems : List Item := [.requests, .port, .su, .outs, .ins, .pools, .load, .journal]

theorem Requester.item_mem (q : Requester) : q.item ∈ workItems := by
  cases q <;> simp [workItems, Requester.item]

/-- What changes neither requests nor work. -/
theorem Serves.idle {l : List Item} (h : Serves S s) (f : ChangesOnly l s u) (hl : ∀ i ∈ workItems, i ∉ l) :
    Serves S u :=
  h.of_eq (f .requests (hl _ (by decide))) (f .port (hl _ (by decide))) fun q =>
    State.hasWork_of_frame f (hl _ q.item_mem)

theorem Serves.inert {l : List Item} (h : Serves S s) (due : NoGrantDue s) (f : ChangesOnly l s t)
    (hl : ∀ i ∈ workItems, i ∉ l) : Serves S t ∧ NoGrantDue t :=
  ⟨h.idle f hl, due.of_eq (f .port (hl _ (by decide))) (f .requests (hl _ (by decide)))⟩

/-! ### The host (R17, R45, R51, R61) -/

/-- A read answered from the part's own state leaves SU free. -/
theorem Serves.answer (h : Serves S s) (hsu : s.su = .free) (v : Word) : Serves S (s.answer v) :=
  h.of_eq rfl rfl fun q => by
    by_cases hq : q = .host
    · subst hq
      exact iff_of_eq (congrArg (fun v => v ≠ SU.free) hsu.symm)
    · exact State.hasWork_su ((answer_frame s v).mono (by decide)) hq

theorem Serves.viewMove (h : Serves S s) (hsu : s.su = .free) (w : Fin 16) : Serves S (s.viewMove w) :=
  (h.modPool w Pool.moveView (Pool.moveView_job _)).answer hsu _

theorem Serves.issueRead (hS : S .host) (h : Serves S s) (hsu : s.su = .free) (p : ReadPart) (ps : List ReadPart) :
    Serves S ({ s with waiting := none }.issueRead p ps 0) :=
  Serves.suAsks (s := s) (u := { s with waiting := none, su := .reading p ps 0 }) hS h hsu
    (fun g hg => by cases g <;> simp [State.sameAt] at hg ⊢) nofun rfl

/-! ### Timers (R88, R89) -/

theorem Serves.expire (h : Serves S s) (w : Fin 16) : Serves S (s.expire w) :=
  (h.modPool w _ rfl).raise _ _ _ _

/-! ### Performances (R73, R80) -/

theorem Serves.laneReact (h : Serves S s) {a : Access} (hp : s.port = some a) (hw : a.withdrawn = false)
    (hl : a.req.isLaneFetch = true) : Serves S (a.req.laneReact false (s.complete a.req)) := by
  unfold Request.isLaneFetch at hl
  split at hl
  · next x hq =>
    unfold Request.laneReact
    rw [hq]
    exact Serves.laneWord (hq ▸ h.complete_awaited hp (by rw [hq]; nofun) a.req)
      (hq ▸ h.orderly.not_busy_complete hp hw a.req) _
  · cases hl

theorem Serves.laneDrop (h : Serves S u) (r : Request) : Serves S (r.laneReact true u) := by
  unfold Request.laneReact
  split
  · exact h.tryFetch _
  · exact h

theorem Serves.inboundReact (h : Serves S s) (run : RunLaw s) (inbound : FrameLaw s ∨ ∀ y, ¬ S (.inLane y)) {a : Access}
    (hp : s.port = some a) (hw : a.withdrawn = false) (hl : a.req.isInbound = true) :
    Serves S (a.req.inboundReact (s.complete a.req)) := by
  unfold Request.isInbound at hl
  split at hl
  · next y hq =>
    unfold Request.inboundReact
    rw [hq]
    by_cases hS : S (.inLane y)
    · exact (h.halfWritten hS (inbound.resolve_right fun n => n y hS) run hp hw hq).1
    · have others : Serves (fun q => S q ∧ q ≠ .inLane y) (s.complete a.req) :=
        hq ▸ h.complete_awaited hp (by rw [hq]; nofun) a.req
      exact (LaneOp.halfWritten _ y).serves others fun c => absurd c hS
  · cases hl

theorem Request.isCopy_who {r : Request} {b : Bool} (h : r.isCopy b = true) : ∃ w, r.who = .copyJob w := by
  unfold Request.isCopy at h
  split at h
  · next w hw => exact ⟨w, hw⟩
  · cases h

theorem Serves.copyReact (h : Serves S s) {a : Access} (hp : s.port = some a) (hw : a.withdrawn = false) {b : Bool}
    (hl : a.req.isCopy b = true) : Serves S (a.req.copyReadReact (s.complete a.req)) ∧
      Serves S (a.req.copyWriteReact (s.complete a.req)) := by
  obtain ⟨w, hq⟩ := Request.isCopy_who hl
  have others : Serves (fun q => S q ∧ q ≠ .copyJob w) (s.complete a.req) :=
    hq ▸ h.complete_awaited hp (by rw [hq]; nofun) a.req
  have free : ¬ (s.complete a.req).busy (.copyJob w) := hq ▸ h.orderly.not_busy_complete hp hw a.req
  unfold Request.copyReadReact Request.copyWriteReact
  rw [hq]
  exact ⟨others.copyRead free _, others.copyWrite free _⟩

/-! ### The inbound lanes (R148–R157) -/

/-- An event of inbound lane `y`: what it does to a settled lane leaves the lane settled. -/
structure InEvent (y : Fin 2) (s u : State) : Prop where
  awake : (s.inl y).st ≠ .idle
  op : LaneOp y s u
  own : s.Settled y → (s.inl y).minds → u.Settled y ∧ (u.inl y).minds

theorem InEvent.serves (e : InEvent y s u) (h : Serves S s) (run : RunLaw s)
    (inbound : FrameLaw s ∨ ∀ y, ¬ S (.inLane y)) : Serves S u := by
  by_cases hS : S (.inLane y)
  · exact (e.op.keeps h hS (inbound.resolve_right fun n => n y hS) run
      (((runLaw_iff s).1 run).2.run_of_in e.awake) e.own).1
  · exact e.op.serves (h.but _) fun c => absurd c hS

theorem InEvent.frameLaw (e : InEvent y s u) (h : Serves S s) (hS : S (.inLane y)) (run : RunLaw s)
    (frames : FrameLaw s) : FrameLaw u :=
  (e.op.keeps h hS frames run (((runLaw_iff s).1 run).2.run_of_in e.awake) e.own).2

theorem InLane.awake_of_expects {l : InLane} {n : Nat} (h : l.expects n = true) : l.st ≠ .idle := fun c => by
  rw [InLane.expects_idle c] at h
  cases h

theorem InEvent.edge {e : PulseEdge} (h : s.inEdgeTaken y e = true) : InEvent y s (s.inActiveEdge y) where
  awake c := by simp [State.inEdgeTaken, c] at h
  op := .inActiveEdge s y
  own := State.Settled.inActiveEdge

theorem InEvent.h0 {v : Half} (h : (s.inl y).expectsH0 = true) : InEvent y s (s.inH0 y v) where
  awake c := by simp [InLane.expectsH0, InLane.expects_idle c, c] at h
  op := .inH0 s y v
  own settled m := settled.inH0 m v

theorem InEvent.h1 {v : Half} (h : (s.inl y).expects 1 = true) : InEvent y s (s.inH1 y v) where
  awake := InLane.awake_of_expects h
  op := .inH1 s y v
  own settled m := settled.inH1 m v

theorem InEvent.data {v : Half} (h : (s.dataExpected y).isSome = true) : InEvent y s (s.inData y v) where
  awake c := by simp [State.dataExpected, c] at h
  op := .inData s y v
  own settled m := settled.inData m v

theorem InEvent.crc {v : Half} (h : (s.inl y).expects ((s.inRec y).slots + 2) = true) :
    InEvent y s (s.inCrc y v) where
  awake := InLane.awake_of_expects h
  op := .inCrc s y v
  own settled m := settled.inCrc m v

/-! ### The reset pin (R177) -/

theorem State.pinReset_out (s : State) (x : Fin 6) : s.pinReset.out x = OutLane.zero := by
  change (Vector.replicate 6 OutLane.zero)[x] = _
  simp

theorem State.pinReset_inl (s : State) (y : Fin 2) : s.pinReset.inl y = InLane.zero := by
  change (Vector.replicate 2 InLane.zero)[y] = _
  simp

theorem State.not_hasWork_pinReset (s : State) (q : Requester) : ¬ s.pinReset.hasWork q := by
  cases q with
  | host => exact fun c => c rfl
  | outLane x => rw [State.hasWork, s.pinReset_out]; nofun
  | inLane y => rw [State.hasWork, s.pinReset_inl]; nofun
  | copyJob w => rw [State.hasWork, s.pinReset_pool]; nofun
  | load => nofun
  | journal => exact fun c => c rfl

theorem State.not_busy_pinReset (s : State) (q : Requester) : ¬ s.pinReset.busy q := by
  rintro (h | ⟨a, ha, -⟩)
  · cases h
  · cases ha

theorem serves_pinReset (s : State) : Serves S s.pinReset ∧ NoGrantDue s.pinReset := by
  have served : ∀ q, s.pinReset.served q := fun q =>
    iff_of_false (s.not_busy_pinReset q) (s.not_hasWork_pinReset q)
  exact ⟨⟨⟨List.nodup_nil, nofun, served _⟩, fun q _ => served q⟩, fun _ => rfl⟩

/-! ### Every command -/

theorem State.flywheelDue_st (h : s.flywheelDue x = true) : (s.out x).st ≠ .sending := by
  simp only [State.flywheelDue, Bool.and_eq_true, beq_iff_eq] at h
  obtain ⟨⟨-, hst⟩, -⟩ := h
  rw [hst]
  nofun

/-- Without a COMMITTING buffer a window has no job (R35). -/
theorem RunLaw.job_none (h : RunLaw s) (hc : ∀ k : Fin 8, (s.pool w).bufs[k].st ≠ .committing) :
    (s.pool w).job = none := by
  obtain ⟨-, ⟨-, -, -, target⟩, -⟩ := h
  cases hj : (s.pool w).job with
  | none => rfl
  | some j => exact absurd (target w j hj).2 (hc _)

theorem RunLaw.load_none (h : RunLaw s) (hd : s.dev = .setup) : s.load = none := by
  obtain ⟨-, -, dev, -⟩ := h
  cases hl : s.load with
  | none => rfl
  | some j =>
    have := dev.1.1 (by rw [hl]; rfl)
    rw [hd] at this
    cases this

/-- Every command keeps the law of the request list, for a set of requesters with SU, the load and the
copy-forward jobs among them. -/
theorem Serves.exec (hS : ∀ q, ¬ q.isLane → S q) (h : Serves S s) (due : NoGrantDue s) (run : RunLaw s)
    (ends : ∀ x, S (.outLane x) → s.frameEndDue x = true → (s.out x).asked = none)
    (inbound : FrameLaw s ∨ ∀ y, ¬ S (.inLane y)) {i : Instr} (e : exec i s = .next t) : Serves S t ∧ NoGrantDue t := by
  have dev : DeviceLaw s := ((runLaw_iff s).1 run).2
  have host : S .host := hS _ id
  cases i with
  | hostWritePresented a be d => exact h.inert due (execHostWritePresented_frame e) (by decide)
  | hostReadPresented a be => exact h.inert due (execHostReadPresented_frame e) (by decide)
  | passThroughWrite =>
    rcases execPassThroughWrite_cases s with c | ⟨v, ⟨-, hsu, -⟩, -, c⟩ <;> cases c.symm.trans e
    · exact ⟨h, due⟩
    · exact h.handWrite host hsu _ _ _
  | payloadWriteSteered =>
    rcases execPayloadWriteSteered_cases s with c | ⟨v, w, j, ⟨-, hsu, -⟩, -, ⟨k, -, c⟩ | ⟨-, c⟩⟩ <;>
      cases c.symm.trans e
    · exact ⟨h, due⟩
    · exact h.handWrite host hsu _ _ _
  | refusedWrite =>
    rcases execRefusedWrite_cases s with c | ⟨v, r, source, -, -, c⟩ <;> cases c.symm.trans e
    · exact ⟨h, due⟩
    · exact (h.takeHead.raise _ _ _ _).arrivals
  | closeRequest =>
    rcases execCloseRequest_cases s with c | ⟨v, w, -, -, c⟩ <;> cases c.symm.trans e
    · exact ⟨h, due⟩
    · refine (h.takeHead.decideClose (hS _ id) (fun hc => ?_) v).arrivals
      rw [State.pool_congr (takeHead_frame s .pools (by decide))] at hc ⊢
      exact run.job_none hc
  | start =>
    rcases execStart_cases s with c | ⟨v, -, -, c⟩ <;> cases c.symm.trans e
    · exact ⟨h, due⟩
    · refine (h.takeHead.start (hS _ id) fun hd => ?_).arrivals
      rw [show s.takeHead.load = s.load from takeHead_frame s .load (by decide)]
      exact run.load_none ((takeHead_frame s .dev (by decide)).symm.trans hd)
  | stop =>
    rcases execStop_cases s with c | ⟨v, -, -, c⟩ <;> cases c.symm.trans e
    · exact ⟨h, due⟩
    · exact h.takeHead.stop.arrivals
  | unknownRequest => exact h.inert due (execUnknownRequest_frame e) (by decide)
  | acknowledge => exact h.inert due (execAcknowledge_frame e) (by decide)
  | controlWriteDropped => exact h.inert due (execControlWriteDropped_frame e) (by decide)
  | hostReadTaken =>
    rcases execHostReadTaken_cases s with c | ⟨a, be, ⟨-, hsu, -⟩, ⟨v, -, c⟩ | ⟨p, ps, -, c⟩⟩ <;> cases c.symm.trans e
    · exact ⟨h, due⟩
    · exact ⟨h.answer hsu v, due.of_eq rfl rfl⟩
    · exact (h.issueRead host hsu p ps).arrivals
  | headWordReadViewMove =>
    rcases execHeadWordReadViewMove_cases s with c | ⟨a, be, w, ⟨-, hsu, -⟩, -, c⟩ <;> cases c.symm.trans e
    · exact ⟨h, due⟩
    · exact ⟨h.viewMove hsu w, due.of_eq rfl rfl⟩
  | hostAccessPerformed =>
    change execHostAccessPerformed s = .next t at e
    unfold execHostAccessPerformed at e
    refine h.performance due (fun _ _ _ _ k => k) (fun a hp hw _ ha => ?_) e
    have hq : a.req.who = .host := by simpa using ha
    exact Serves.hostWord (hq ▸ h.complete_awaited hp (by rw [hq]; nofun) a.req)
      (hq ▸ h.orderly.not_busy_complete hp hw a.req) _
  | laneFetchPerformed =>
    change execLaneFetchPerformed s = .next t at e
    unfold execLaneFetchPerformed at e
    exact h.performance due (fun r _ _ _ k => k.laneDrop r) (fun a hp hw _ ha => h.laneReact hp hw ha) e
  | inboundWritePerformed =>
    change execInboundWritePerformed s = .next t at e
    unfold execInboundWritePerformed at e
    exact h.performance due (fun _ _ _ _ k => k) (fun a hp hw _ ha => h.inboundReact run inbound hp hw ha) e
  | copyReadPerformed =>
    change execCopyReadPerformed s = .next t at e
    unfold execCopyReadPerformed at e
    exact h.performance due (fun _ _ _ _ k => k) (fun a hp hw _ ha => (h.copyReact hp hw ha).1) e
  | copyWritePerformed =>
    change execCopyWritePerformed s = .next t at e
    unfold execCopyWritePerformed at e
    exact h.performance due (fun _ _ _ _ k => k) (fun a hp hw _ ha => (h.copyReact hp hw ha).2) e
  | loadReadPerformed =>
    change execLoadReadPerformed s = .next t at e
    unfold execLoadReadPerformed at e
    exact h.performance due (fun _ _ _ _ k => k)
      (fun a hp hw _ ha => h.loadWord hp hw (by simpa using ha) dev _) e
  | journalWordPerformed =>
    change execJournalWordPerformed s = .next t at e
    unfold execJournalWordPerformed at e
    exact h.performance due (fun _ _ _ _ k => k) (fun a hp hw _ ha => h.journalWord hp hw (by simpa using ha)) e
  | timerExpiry w => exact h.guarded due (fun _ => h.expire w) e
  | startInstantReached => exact h.inert due (execStartInstantReached_frame e) (by decide)
  | masterScheduledStart x =>
    exact h.guarded due (fun hb => h.masterStart (State.masterDue_st (Bool.and_eq_true_iff.1 hb).2)) e
  | outboundActiveEdge x edge => exact h.guarded due (fun _ => h.activeEdge x) e
  | flywheelStart x =>
    exact h.guarded due (fun hb => h.flywheel (State.flywheelDue_st (Bool.and_eq_true_iff.1 hb).2)) e
  | slotBegin x => exact h.guarded due (fun _ => h.slotBegin x) e
  | frameEnd x =>
    exact h.guarded due (fun hb => h.frameEnd fun hx => ends x hx (Bool.and_eq_true_iff.1 hb).2) e
  | inboundActiveEdge y edge => exact h.guarded due (fun hb => (InEvent.edge hb).serves h run inbound) e
  | inboundH0Received y v =>
    exact h.guarded due (fun hb => (InEvent.h0 (Bool.and_eq_true_iff.1 hb).2).serves h run inbound) e
  | inboundH1Received y v =>
    exact h.guarded due (fun hb => (InEvent.h1 (Bool.and_eq_true_iff.1 hb).2).serves h run inbound) e
  | inboundDataSlotReceived y v =>
    exact h.guarded due (fun hb => (InEvent.data (Bool.and_eq_true_iff.1 hb).2).serves h run inbound) e
  | inboundCrcSlotReceived y v =>
    exact h.guarded due (fun hb => (InEvent.crc (Bool.and_eq_true_iff.1 hb).2).serves h run inbound) e
  | resetPin =>
    change execResetPin s = .next t at e
    unfold execResetPin at e
    split at e <;> cases e
    · exact ⟨h, due⟩
    · exact serves_pinReset s
  | resetRelease p => exact h.inert due (execResetRelease_frame (p := p) e) (by decide)
  | timeBaseTick => exact h.inert due (execTimeBaseTick_frame e) (by decide)

end

end Sys2Proof.Machine

/-! SUPPORT. The law of the frames in hand over every command (R149, R153, R158, R161). -/

namespace Sys2Proof.Machine

/-- The access at the port stays, or an outbound lane withdraws it (R75). -/
def OutWithdraws (s u : State) : Prop :=
  u.port = s.port ∨ ∃ a x, s.port = some a ∧ a.req.who = .outLane x ∧ u.port = some { req := a.req, withdrawn := true }

section
variable {s t u : State} {y : Fin 2} {x : Fin 6} {w : Fin 16}

/-! ### What keeps the frames -/

theorem FrameLaw.of_port (h : FrameLaw s) (k : OutWithdraws s u) (hw : u.windows = s.windows) (hi : u.ins = s.ins)
    (hd : u.dev = .run → s.dev = .run) : FrameLaw u := by
  obtain ⟨awaited, framed⟩ := (frameLaw_iff s).1 h
  refine (frameLaw_iff u).2 ⟨fun a ha hwd hy hr => ?_, fun y => ?_⟩
  · rcases k with e | ⟨b, x, -, hb, e⟩
    · exact awaited a (e ▸ ha) hwd hy (hd hr)
    · obtain rfl := Option.some.inj (e.symm.trans ha)
      obtain ⟨y, hy⟩ := hy
      cases hb.symm.trans hy
  · rw [State.inl_congr hi, State.inWindow_congr hw]
    refine (framed y).mono fun hp => ?_
    obtain ⟨a, ha, hq⟩ := (s.inProgress_iff _).1 hp
    rcases k with e | ⟨b, x, hb, hx, e⟩
    · exact (u.inProgress_iff _).2 ⟨a, e.trans ha, hq⟩
    · obtain rfl := Option.some.inj (hb.symm.trans ha)
      cases hx.symm.trans hq

/-- The parts of State the law of the frames speaks of. -/
def frameItems : List Item := [.port, .windows, .ins, .dev]

theorem FrameLaw.same {l : List Item} (h : FrameLaw s) (f : ChangesOnly l s u) (hl : ∀ i ∈ frameItems, i ∉ l) :
    FrameLaw u :=
  h.of_port (.inl (f .port (hl _ (by decide)))) (f .windows (hl _ (by decide))) (f .ins (hl _ (by decide)))
    fun e => (f .dev (hl _ (by decide))).symm.trans e

/-- Outside RUN the device law leaves no frame in hand. -/
theorem DeviceLaw.frameLaw (h : DeviceLaw u) (hd : u.dev ≠ .run) : FrameLaw u :=
  frameLaw_of_not_run hd (h.2.2.2.2 hd)

/-! ### Outbound lanes that withdraw (R120, R123) -/

theorem OutWithdraws.withdraw (s : State) (x : Fin 6) : OutWithdraws s (s.withdraw (.outLane x)) :=
  (s.withdrawBy_port_cases _).imp_right fun ⟨a, ha, hn, e⟩ => ⟨a, x, ha, by simpa using hn, e⟩

/-- What follows at the lane and leaves the port alone. -/
theorem OutWithdraws.after {l : List Item} (k : OutWithdraws s u) (f : ChangesOnly l u t) (hl : .port ∉ l) :
    OutWithdraws s t := by
  have e : t.port = u.port := f .port hl
  unfold OutWithdraws
  rw [e]
  exact k

theorem OutWithdraws.of_frame {l : List Item} (f : ChangesOnly l s t) (hl : .port ∉ l) : OutWithdraws s t :=
  .inl (f .port hl)

theorem OutWithdraws.before {l : List Item} (f : ChangesOnly l s u) (hl : .port ∉ l) (k : OutWithdraws u t) :
    OutWithdraws s t := by
  have e : u.port = s.port := f .port hl
  unfold OutWithdraws at k ⊢
  rwa [e] at k

theorem OutWithdraws.underrun (s : State) (x : Fin 6) (e : Nat) : OutWithdraws s (s.underrun x e) := by
  unfold State.underrun
  dsimp only
  have ends : OutWithdraws s
      (if ((s.out x).asked.any fun p => p.entry == e) = true then s.withdraw (.outLane x) else s) := by
    split
    · exact .withdraw s x
    · exact .inl rfl
  split
  · exact ends.after (modOut_frame _ x _) (by decide)
  · exact (ends.after (modOut_frame _ x _) (by decide)).after (raise_frame _ _ _ _ _) (by decide)

theorem OutWithdraws.dataSlot (s : State) (x : Fin 6) (d : Nat) : OutWithdraws s (s.dataSlot x d) := by
  unfold State.dataSlot
  dsimp only
  split
  · exact .inl rfl
  · split
    · unfold State.emptySlot
      split <;> exact .inl rfl
    · split
      · exact .inl ((modOut_frame _ x _ .port (by decide)).trans (by simp))
      · exact .underrun s x _

theorem OutWithdraws.position (s : State) (x : Fin 6) (j : Nat) : OutWithdraws s (s.position x j) := by
  unfold State.position
  split
  · exact .inl rfl
  · split
    · exact .dataSlot s x _
    · exact .inl rfl

theorem OutWithdraws.slotBegin (s : State) (x : Fin 6) : OutWithdraws s (s.slotBegin x) :=
  ((OutWithdraws.before (modOut_frame s x _) (by decide) (.position _ x _)).after (markUrgent_frame _ x)
    (by decide)).after (tryFetch_frame _ x) (by decide)

theorem OutWithdraws.activeEdge (s : State) (x : Fin 6) : OutWithdraws s (s.activeEdge x) := by
  unfold State.activeEdge
  split
  · exact .inl rfl
  · split
    · exact .of_frame ((modOut_frame s x _).andThen (m := [.outs, .pools, .requests]) (edgeStart_frame _ x)) (by decide)
    · exact .inl rfl
  · exact ((OutWithdraws.of_frame (pulseCheck_frame s x) (by decide)).after (modOut_frame _ x _) (by decide)).after
      (edgeStart_frame _ x) (by decide)
  · split
    · have cut : OutWithdraws (s.pulseCheck x) ((s.pulseCheck x).cutFrame x) := by
        have withdrawn := OutWithdraws.withdraw (s.pulseCheck x) x
        unfold OutWithdraws at withdrawn ⊢
        rwa [State.cutFrame_port]
      exact (OutWithdraws.before (pulseCheck_frame s x) (by decide) cut).after (edgeStart_frame _ x) (by decide)
    · exact .inl rfl

/-! ### START, STOP and the load (R150, R161, R166–R175) -/

theorem FrameLaw.start (h : FrameLaw s) : FrameLaw s.start := by
  unfold State.start
  split
  · exact h.of_port (.inl rfl) rfl rfl nofun
  · exact h.of_port (.inl rfl) rfl rfl id

theorem State.stop_dev (s : State) : s.stop.dev ≠ .run := by
  rcases s.stop_cases with ⟨-, e⟩ | ⟨-, e⟩ | ⟨hd, e⟩
  · rw [e]
    rcases State.stopRun_cases { s with outcome := .done } with ⟨-, e⟩ | ⟨-, e⟩
    · rw [e, State.setupEntry_eq, raiseStopped_frame _ _ _ .dev (by decide)]
      nofun
    · rw [e]
      nofun
  · rw [e, State.stopLoad_eq, raiseStopped_frame _ _ _ .dev (by decide)]
    nofun
  · rw [e]
    rcases hd with hd | hd <;> simp [hd]

theorem State.frameEnd_run (s : State) (x : Fin 6) (h : (s.frameEnd x).dev = .run) : s.dev = .run := by
  by_cases hd : s.dev = .stopping
  · rw [State.frameEnd_idle hd] at h
    rcases State.laneIdle_cases (s.frameClosed x .idle) x with ⟨-, e⟩ | ⟨-, e⟩
    · rw [e, State.setupEntry_eq, raiseStopped_frame _ _ _ .dev (by decide)] at h
      cases h
    · rw [e] at h
      exact (s.frameClosed_frame x .idle .dev (by decide)).symm.trans h
  · rw [State.frameEnd_running hd] at h
    exact (s.frameClosed_frame x .between .dev (by decide)).symm.trans h

theorem FrameLaw.frameEnd (h : FrameLaw s) (x : Fin 6) : FrameLaw (s.frameEnd x) :=
  have f := frameEnd_frame s x
  h.of_port (.inl (f .port (by decide))) (f .windows (by decide)) (f .ins (by decide)) (s.frameEnd_run x)

theorem State.entered_inl_st (s : State) (im : Image) (y : Fin 2) : ((s.entered im).inl y).st ≠ .receiving := by
  unfold State.entered State.startBlocks
  rw [State.inl_congr (startJournal_frame _ .ins (by decide))]
  change ((Vector.ofFn _)[y] : InLane).st ≠ .receiving
  rw [Fin.getElem_fin, Vector.getElem_ofFn]
  unfold InLane.start
  split <;> nofun

/-- At RUN entry no frame is in hand and nothing is at the port. -/
theorem frameLaw_runEntry (im : Image) (hp : s.port = none) : FrameLaw (s.runEntry im) := by
  have entered : FrameLaw (s.entered im) := by
    refine (frameLaw_iff _).2 ⟨fun a ha => ?_, fun y =>
      InLane.framed_of_empty (s.entered_inl im y) (s.entered_inl_st im y) _ _⟩
    rw [State.entered_port hp] at ha
    cases ha
  rw [State.runEntry_eq]
  exact (entered.same (State.startRaised_frame _ im) (by decide)).same (startAtEntry_frame _) (by decide)

theorem FrameLaw.loadWord (h : FrameLaw s) (hp : s.port = none) (v : Word) : FrameLaw (s.loadWord v) := by
  rcases s.loadWord_cases v with ⟨-, e⟩ | ⟨j, -, ⟨j', n, e⟩ | ⟨er, e⟩ | ⟨im, e⟩⟩
  · exact e.symm ▸ h
  · rw [e]
    exact h.of_port (.inl rfl) rfl rfl id
  · rw [e]
    have f := loadFailed_frame s er
    refine h.of_port (.inl (f .port (by decide))) (f .windows (by decide)) (f .ins (by decide)) fun hd => ?_
    rw [State.loadFailed, raise_frame _ _ _ _ _ .dev (by decide)] at hd
    cases hd
  · rw [e]
    exact frameLaw_runEntry im hp

/-! ### Performances (R73, R80) -/

/-- A performance of an access that no inbound lane has. -/
theorem FrameLaw.performed {about : Request → Bool} {react drop : Request → State → State} (h : FrameLaw s)
    (who : ∀ r, about r = true → ∀ y, r.who ≠ .inLane y)
    (hreact : ∀ r u, u.port = none → FrameLaw u → FrameLaw (react r u))
    (hdrop : ∀ r u, FrameLaw u → FrameLaw (drop r u)) (e : s.performance about react drop = .next t) : FrameLaw t := by
  refine h.performance (fun a hp _ ha => ?_) e
  have complete := h.complete hp (who _ ha) a.req
  split
  · exact hdrop _ _ complete
  · exact hreact _ _ rfl complete

theorem FrameLaw.inbound (h : FrameLaw s) (serves : Serves (fun q => ¬ q.isOut) s) (run : RunLaw s) {a : Access}
    (hp : s.port = some a) (hl : a.req.isInbound = true) :
    FrameLaw (if a.withdrawn then s.complete a.req else a.req.inboundReact (s.complete a.req)) := by
  unfold Request.isInbound at hl
  split at hl
  · next y hq =>
    cases hw : a.withdrawn with
    | true => exact h.complete_withdrawn ((runLaw_iff s).1 run).2 hp hw hq
    | false =>
      have served : ¬ Requester.isOut (.inLane y) := fun ⟨_, c⟩ => by cases c
      unfold Request.inboundReact
      rw [hq]
      exact (serves.halfWritten served h run hp hw hq).2
  · cases hl

/-! ### Every command -/

theorem FrameLaw.exec (h : FrameLaw s) (serves : Serves (fun q => ¬ q.isOut) s) (run : RunLaw s) {i : Instr}
    (e : exec i s = .next t) : FrameLaw t := by
  have dev : DeviceLaw s := ((runLaw_iff s).1 run).2
  have event : ∀ {y u}, InEvent y s u → FrameLaw u := fun k =>
    k.frameLaw serves (fun ⟨_, c⟩ => by cases c) run h
  have taken : FrameLaw s.takeHead := h.same (takeHead_frame s) (by decide)
  cases i with
  | hostWritePresented a be d => exact h.same (execHostWritePresented_frame e) (by decide)
  | hostReadPresented a be => exact h.same (execHostReadPresented_frame e) (by decide)
  | passThroughWrite =>
    rcases execPassThroughWrite_cases s with c | ⟨v, -, -, c⟩ <;> cases c.symm.trans e
    · exact h
    · exact FrameLaw.arrivals (taken.of_port (.inl rfl) rfl rfl id)
  | payloadWriteSteered =>
    rcases execPayloadWriteSteered_cases s with c | ⟨v, w, j, -, -, ⟨k, -, c⟩ | ⟨-, c⟩⟩ <;> cases c.symm.trans e
    · exact h
    · exact FrameLaw.arrivals (taken.of_port (.inl rfl) rfl rfl id)
  | refusedWrite =>
    rcases execRefusedWrite_cases s with c | ⟨v, r, source, -, -, c⟩ <;> cases c.symm.trans e
    · exact h
    · exact (taken.same (raise_frame _ _ _ _ _) (by decide)).arrivals
  | closeRequest =>
    rcases execCloseRequest_cases s with c | ⟨v, w, -, -, c⟩ <;> cases c.symm.trans e
    · exact h
    · exact (taken.same (decideClose_frame _ w v) (by decide)).arrivals
  | start =>
    rcases execStart_cases s with c | ⟨v, -, -, c⟩ <;> cases c.symm.trans e
    · exact h
    · exact taken.start.arrivals
  | stop =>
    rcases execStop_cases s with c | ⟨v, ⟨-, hsu, -⟩, -, c⟩ <;> cases c.symm.trans e
    · exact h
    · have stopped := deviceLaw_kept.stop (deviceLaw_kept.takeHead dev) ((takeHead_frame s .su (by decide)).trans hsu)
      exact (stopped.frameLaw (State.stop_dev _)).arrivals
  | unknownRequest => exact h.same (execUnknownRequest_frame e) (by decide)
  | acknowledge => exact h.same (execAcknowledge_frame e) (by decide)
  | controlWriteDropped => exact h.same (execControlWriteDropped_frame e) (by decide)
  | hostReadTaken =>
    rcases execHostReadTaken_cases s with c | ⟨a, be, -, ⟨v, -, c⟩ | ⟨p, ps, -, c⟩⟩ <;> cases c.symm.trans e
    · exact h
    · exact h.same (answer_frame s v) (by decide)
    · exact FrameLaw.arrivals (h.of_port (.inl rfl) rfl rfl id)
  | headWordReadViewMove => exact h.same (execHeadWordReadViewMove_frame e) (by decide)
  | hostAccessPerformed =>
    change execHostAccessPerformed s = .next t at e
    refine h.performed (fun r ha y c => ?_) (fun r u _ k => k.same (hostWord_frame u r) (by decide)) (fun _ _ k => k) e
    rw [c] at ha
    cases ha
  | laneFetchPerformed =>
    refine h.performed (fun r ha y c => ?_) (fun r u _ k => k.same (laneReact_frame r false u) (by decide))
      (fun r u k => k.same (laneReact_frame r true u) (by decide)) e
    simp [Request.isLaneFetch, c] at ha
  | inboundWritePerformed =>
    change execInboundWritePerformed s = .next t at e
    unfold execInboundWritePerformed at e
    exact h.performance (fun a hp _ ha => h.inbound serves run hp ha) e
  | copyReadPerformed =>
    change execCopyReadPerformed s = .next t at e
    refine h.performed (fun r ha y c => ?_) (fun r u _ k => k.same (copyReadReact_frame r u) (by decide))
      (fun _ _ k => k) e
    simp [Request.isCopy, c] at ha
  | copyWritePerformed =>
    change execCopyWritePerformed s = .next t at e
    refine h.performed (fun r ha y c => ?_) (fun r u _ k => k.same (copyWriteReact_frame r u) (by decide))
      (fun _ _ k => k) e
    simp [Request.isCopy, c] at ha
  | loadReadPerformed =>
    change execLoadReadPerformed s = .next t at e
    refine h.performed (fun r ha y c => ?_) (fun r u hp k => k.loadWord hp _) (fun _ _ k => k) e
    rw [c] at ha
    cases ha
  | journalWordPerformed =>
    change execJournalWordPerformed s = .next t at e
    refine h.performed (fun r ha y c => ?_) (fun _ u _ k => k.same (journalWord_frame u) (by decide)) (fun _ _ k => k) e
    rw [c] at ha
    cases ha
  | timerExpiry w => exact h.guarded (fun _ => h.same (expire_frame s w) (by decide)) e
  | startInstantReached => exact h.same (execStartInstantReached_frame e) (by decide)
  | masterScheduledStart x => exact h.guarded (fun _ => h.same (masterStart_frame s x) (by decide)) e
  | outboundActiveEdge x edge =>
    have f := activeEdge_frame s x
    exact h.guarded (fun _ => h.of_port (.activeEdge s x) (f .windows (by decide)) (f .ins (by decide))
      fun c => (f .dev (by decide)).symm.trans c) e
  | flywheelStart x => exact h.guarded (fun _ => h.same (flywheel_frame s x) (by decide)) e
  | slotBegin x =>
    have f := slotBegin_frame s x
    exact h.guarded (fun _ => h.of_port (.slotBegin s x) (f .windows (by decide)) (f .ins (by decide))
      fun c => (f .dev (by decide)).symm.trans c) e
  | frameEnd x => exact h.guarded (fun _ => h.frameEnd x) e
  | inboundActiveEdge y edge => exact h.guarded (fun hb => event (InEvent.edge hb)) e
  | inboundH0Received y v => exact h.guarded (fun hb => event (InEvent.h0 (Bool.and_eq_true_iff.1 hb).2)) e
  | inboundH1Received y v => exact h.guarded (fun hb => event (InEvent.h1 (Bool.and_eq_true_iff.1 hb).2)) e
  | inboundDataSlotReceived y v => exact h.guarded (fun hb => event (InEvent.data (Bool.and_eq_true_iff.1 hb).2)) e
  | inboundCrcSlotReceived y v => exact h.guarded (fun hb => event (InEvent.crc (Bool.and_eq_true_iff.1 hb).2)) e
  | resetPin =>
    change execResetPin s = .next t at e
    unfold execResetPin at e
    split at e <;> cases e
    · exact h
    · exact (deviceLaw_kept.pinReset dev).frameLaw nofun
  | resetRelease p => exact h.same (execResetRelease_frame (p := p) e) (by decide)
  | timeBaseTick => exact h.same (execTimeBaseTick_frame e) (by decide)

/-! ### Every step -/

/-- The command of a step begins where the queue of commands alone has changed. -/
theorem State.pending_frame (s : State) (p : List Instr) : ChangesOnly [.pending] s { s with pending := p } :=
  fun g hg => by cases g <;> simp [State.sameAt] at hg ⊢

/-- A law kept by the queue of commands and by every command is kept by every step. -/
theorem step_keeps {P Q : State → Prop} (h : P s) (peel : ∀ p, P s → P { s with pending := p }) (last : P s → Q s)
    (keeps : ∀ i u, P u → exec i u = .next t → Q t) (e : step s = .next t) : Q t := by
  unfold Machine.step at e
  split at e
  · cases e; exact last h
  · exact keeps _ _ (peel _ h) e

/-- The law of the request list and that of the frames, kept by every step. -/
theorem step_keeps_requests_frames (requests : RequestLaw s) (frames : FrameLaw s) (run : RunLaw s)
    (e : step s = .next t) : RequestLaw t ∧ FrameLaw t := by
  refine step_keeps (P := fun u => RequestLaw u ∧ FrameLaw u ∧ RunLaw u) (Q := fun u => RequestLaw u ∧ FrameLaw u)
    ⟨requests, frames, run⟩ (fun p ⟨requests, frames, run⟩ => ?_) (fun k => ⟨k.1, k.2.1⟩)
    (fun i u ⟨requests, frames, run⟩ e => ?_) e
  · have f := s.pending_frame p
    obtain ⟨serves, due⟩ := (requestLaw_iff_serves s).1 requests
    exact ⟨(requestLaw_iff_serves _).2 (serves.inert due f (by decide)), frames.same f (by decide),
      (runLaw_iff _).2 (runParts_kept.inert ((runLaw_iff s).1 run) (f.mono (by decide)))⟩
  · obtain ⟨serves, due⟩ := (requestLaw_iff_serves u).1 requests
    refine ⟨(requestLaw_iff_serves t).2 (serves.exec (fun q hq c => ?_) due run (fun x c => absurd ⟨x, rfl⟩ c)
      (.inl frames) e), frames.exec serves run e⟩
    obtain ⟨x, rfl⟩ := c
    exact hq trivial

end

end Sys2Proof.Machine

/-! SUPPORT. The fetching of an outbound lane, and how its events keep it (R111–R115, R119, R120, R123). -/

namespace Sys2Proof.Machine

/-- The words fetched, asked for and planned, each named by its entry, in this order (R113). -/
def OutLane.words (l : OutLane) : List Nat :=
  (l.fetch.map fun p => p.1) ++ (l.asked.toList.map fun p => p.entry) ++ (l.plan.map fun p => p.entry)

/-- The words of the entries from data slot `d` on, under the lane's draws (R112, R133). -/
def State.dueFrom (s : State) (x : Fin 6) (l : OutLane) (d : Nat) : List Nat :=
  (s.fromSlot (s.slotOrder x) d).flatMap fun e =>
    List.replicate ((s.entry e).kind.words (l.drawOf (s.entry e).window)) e

/-- The second half of an entry kept for the next slot is that of an entry whose first slot has just begun (R115). -/
def State.keepsHalf (s : State) (x : Fin 6) (begun : Nat) : Prop :=
  ∃ e ∈ (s.outRec x).run, (s.entry e).kind.slots = 2 ∧ (s.entry e).slot + 5 = begun

/-- The fetching of lane `x` with the record `l`, under the tables of the state. -/
structure State.Fetching (s : State) (x : Fin 6) (l : OutLane) : Prop where
  apart : l.st ≠ .idle → s.slotsApart x
  begun : l.st = .sending → l.begun ≤ (s.outRec x).slots + 5
  words : l.st = .sending → l.words = s.dueFrom x l (l.begun - 4)
  tail : l.st = .sending → l.tail ≠ none → s.keepsHalf x l.begun

/-- Every lane fetches by its law. -/
def State.Fetches (s : State) : Prop := ∀ x, s.Fetching x (s.out x)

/-- Every lane but `x` fetches by its law. -/
def State.FetchesBut (s : State) (x : Fin 6) : Prop := ∀ z, z ≠ x → s.Fetching z (s.out z)

/-- The records agree in what the law of fetching speaks of. -/
structure OutLane.Alike (l m : OutLane) : Prop where
  st : m.st = l.st
  begun : m.begun = l.begun
  draws : m.draws = l.draws
  words : m.words = l.words
  tail : m.tail = l.tail

theorem fetchLaw_iff (s : State) : FetchLaw s ↔ (∀ x, s.served (.outLane x)) ∧ s.Fetches := by
  constructor
  · refine fun h => ⟨fun x => (h x).1, fun x => ?_⟩
    obtain ⟨-, apart, sending⟩ := h x
    exact ⟨apart, fun e => (sending e).1, fun e => (sending e).2.1.trans (s.wordsDue_eq x), fun e => (sending e).2.2⟩
  · rintro ⟨served, fetches⟩ x
    have f := fetches x
    exact ⟨served x, f.apart, fun e => ⟨f.begun e, (f.words e).trans (s.wordsDue_eq x).symm, f.tail e⟩⟩

section
variable {s t u : State} {x : Fin 6} {l m : OutLane} {d e : Nat}

/-! ### The words due -/

theorem OutLane.drawOf_congr (h : m.draws = l.draws) (w : Fin 16) : m.drawOf w = l.drawOf w := by
  unfold OutLane.drawOf
  rw [h]

theorem State.dueFrom_congr (h : m.draws = l.draws) (d : Nat) : s.dueFrom x m d = s.dueFrom x l d := by
  unfold State.dueFrom
  simp only [OutLane.drawOf_congr h]

theorem State.dueFrom_skip (h : s.fromSlot (s.slotOrder x) d = s.fromSlot (s.slotOrder x) (d + 1)) :
    s.dueFrom x l d = s.dueFrom x l (d + 1) := by
  unfold State.dueFrom
  rw [h]

theorem State.dueFrom_step (h : s.fromSlot (s.slotOrder x) d = e :: s.fromSlot (s.slotOrder x) (d + 1)) :
    s.dueFrom x l d = List.replicate ((s.entry e).kind.words (l.drawOf (s.entry e).window)) e ++
      s.dueFrom x l (d + 1) := by
  unfold State.dueFrom
  rw [h, List.flatMap_cons]

theorem State.mem_dueFrom (h : e ∈ s.dueFrom x l d) : e ∈ (s.outRec x).run ∧ d ≤ (s.entry e).slot := by
  obtain ⟨f, hf, he⟩ := List.mem_flatMap.1 h
  obtain rfl := List.eq_of_mem_replicate he
  obtain ⟨hm, hd⟩ := List.mem_filter.1 hf
  exact ⟨(s.mem_slotOrder x _).1 hm, by simpa using hd⟩

theorem EntryKind.slots_pos (k : EntryKind) : 0 < k.slots := by cases k <;> decide

/-- Between the slots of a two-slot entry no other entry begins, and none begins behind the last slot (R145). -/
theorem State.slotsApart.skip (h : s.slotsApart x) (hd : s.keepsHalf x (d + 4) ∨ (s.outRec x).slots ≤ d) :
    s.fromSlot (s.slotOrder x) d = s.fromSlot (s.slotOrder x) (d + 1) := by
  refine s.fromSlot_skip fun f hf hs => ?_
  have inRun := (s.mem_slotOrder x f).1 hf
  have pos := EntryKind.slots_pos (s.entry f).kind
  rcases hd with ⟨e, he, two, at_⟩ | last
  · have ne : e ≠ f := by
      rintro rfl
      omega
    have := h.2 e he f inRun ne
    omega
  · have := h.1 f inRun
    omega

/-! ### Records and tables alike -/

theorem State.Fetching.of_alike (h : s.Fetching x l) (k : l.Alike m) : s.Fetching x m := by
  obtain ⟨st, begun, draws, words, tail⟩ := k
  refine ⟨fun e => h.apart (st ▸ e), fun e => ?_, fun e => ?_, fun e c => ?_⟩
  · rw [begun]; exact h.begun (st ▸ e)
  · rw [words, begun, State.dueFrom_congr draws]; exact h.words (st ▸ e)
  · rw [begun]; exact h.tail (st ▸ e) (tail ▸ c)

theorem State.Fetching.of_not_sending (h : m.st ≠ .idle → s.slotsApart x) (hm : m.st ≠ .sending) : s.Fetching x m :=
  ⟨h, fun e => absurd e hm, fun e => absurd e hm, fun e => absurd e hm⟩

theorem State.slotsApart.congr (h : s.slotsApart x) (hl : t.lanes = s.lanes) (he : t.entries = s.entries) :
    t.slotsApart x := by
  unfold State.slotsApart at h ⊢
  simp only [State.outRec_congr hl, State.entry_congr he]
  exact h

theorem State.Fetching.congr (h : s.Fetching x l) (hl : t.lanes = s.lanes) (he : t.entries = s.entries) :
    t.Fetching x l := by
  obtain ⟨apart, begun, words, tail⟩ := h
  refine ⟨fun e => (apart e).congr hl he, fun e => ?_, fun e => ?_, fun e c => ?_⟩
  · rw [State.outRec_congr hl]; exact begun e
  · unfold State.dueFrom State.fromSlot at words ⊢
    simp only [State.slotOrder_congr hl he, State.entry_congr he]
    exact words e
  · unfold State.keepsHalf at tail ⊢
    simp only [State.outRec_congr hl, State.entry_congr he]
    exact tail e c

theorem State.Fetches.but (h : s.Fetches) (x : Fin 6) : s.FetchesBut x := fun z _ => h z

/-- An operation of lane `x`: no table and no other lane's record changes. -/
theorem State.FetchesBut.lane {is : List Item} (h : s.FetchesBut x) (f : ChangesOnly is s u) (hl : .lanes ∉ is)
    (he : .entries ∉ is) (others : OtherOuts x s u) : u.FetchesBut x := fun z hz =>
  others z hz ▸ (h z hz).congr (f _ hl) (f _ he)

theorem State.FetchesBut.fetches (h : s.FetchesBut x) (own : s.Fetching x (s.out x)) : s.Fetches := fun z => by
  by_cases hz : z = x
  · exact hz ▸ own
  · exact h z hz

theorem State.Fetches.lane {is : List Item} (h : s.Fetches) (f : ChangesOnly is s u) (hl : .lanes ∉ is)
    (he : .entries ∉ is) (others : OtherOuts x s u) (own : s.Fetching x (u.out x)) : u.Fetches :=
  ((h.but x).lane f hl he others).fetches (own.congr (f _ hl) (f _ he))

/-- What changes no table and no lane's record. -/
theorem State.Fetches.same {is : List Item} (h : s.Fetches) (f : ChangesOnly is s u)
    (hi : ∀ i ∈ ([.lanes, .entries, .outs] : List Item), i ∉ is) : u.Fetches := fun z => by
  rw [State.out_congr (f .outs (hi _ (by decide)))]
  exact (h z).congr (f .lanes (hi _ (by decide))) (f .entries (hi _ (by decide)))

theorem State.Fetches.modOut (h : s.Fetches) (f : OutLane → OutLane) (own : s.Fetching x (f (s.out x))) :
    (s.modOut x f).Fetches :=
  h.lane (modOut_frame s x f) (by decide) (by decide) (s.modOut_others x f) (by
    rw [State.out_modOut, if_pos rfl]; exact own)

/-! ### Fetches (R113) -/

theorem State.tryFetch_alike (s : State) (x : Fin 6) : (s.out x).Alike ((s.tryFetch x).out x) := by
  rcases s.tryFetch_cases x with ⟨-, e⟩ | ⟨p, ps, hp, may, e⟩
  · rw [e]
    exact ⟨rfl, rfl, rfl, rfl, rfl⟩
  · obtain ⟨-, asked, -⟩ := may
    rw [e, State.out_congr (State.join_outs _ _), State.out_modOut, if_pos rfl]
    exact ⟨rfl, rfl, rfl, by simp [OutLane.words, asked, hp], rfl⟩

theorem State.Fetches.tryFetch (h : s.Fetches) (x : Fin 6) : (s.tryFetch x).Fetches :=
  h.lane (tryFetch_frame s x) (by decide) (by decide) (s.tryFetch_out x).2 ((h x).of_alike (s.tryFetch_alike x))

theorem State.Fetches.laneWord (h : s.Fetches) (x : Fin 6) (v : Word) : (s.laneWord x v).Fetches := by
  unfold State.laneWord
  split
  · next p hp =>
    refine State.Fetches.tryFetch (h.modOut _ ((h x).of_alike ⟨rfl, rfl, rfl, ?_, rfl⟩)) x
    simp [OutLane.words, hp]
  · exact h.tryFetch x

/-! ### Frame starts (R111) -/

theorem State.Fetching.begin (apart : s.slotsApart x) (l : OutLane) :
    s.Fetching x (OutLane.beginFrame (s.planOf x l) l) := by
  refine ⟨fun _ => apart, fun _ => Nat.succ_le_of_lt (by omega), fun _ => ?_, fun _ c => absurd rfl c⟩
  have all : s.fromSlot (s.slotOrder x) 0 = s.slotOrder x :=
    List.filter_eq_self.2 fun _ _ => decide_eq_true (Nat.zero_le _)
  exact (s.planOf_entries x l).trans (by
    rw [State.dueFrom, show (OutLane.beginFrame (s.planOf x l) l).begun - 4 = 0 from rfl, all]; rfl)

theorem State.FetchesBut.frameStart (h : s.FetchesBut x) (apart : s.slotsApart x) (fly : Bool) :
    (s.frameStart x fly).Fetches := by
  have f := s.begunFrame_frame x fly
  have held := s.heldFrame_frame x fly
  rw [State.frameStart_eq]
  refine State.Fetches.tryFetch ((h.lane f (by decide) (by decide) (s.begunFrame_others x fly)).fetches ?_) x
  have began := State.Fetching.begin (apart.congr (held .lanes (by decide)) (held .entries (by decide)))
    ((s.heldFrame x fly).out x)
  rw [State.begunFrame, State.out_modOut, if_pos rfl]
  exact began.congr rfl rfl

/-- The lane changes its record and starts a frame. -/
theorem State.FetchesBut.modThenStart (h : s.FetchesBut x) (apart : s.slotsApart x) (f : OutLane → OutLane)
    (fly : Bool) : ((s.modOut x f).frameStart x fly).Fetches :=
  (h.lane (modOut_frame s x f) (by decide) (by decide) (s.modOut_others x f)).frameStart (apart.congr rfl rfl) fly

theorem State.FetchesBut.edgeStart (h : s.FetchesBut x) (apart : s.slotsApart x) : (s.edgeStart x).Fetches :=
  h.modThenStart apart _ false

theorem State.Fetches.masterStart (h : s.Fetches) (hst : (s.out x).st ≠ .idle) : (s.masterStart x).Fetches :=
  (h.but x).modThenStart ((h x).apart hst) _ false

theorem State.Fetches.flywheel (h : s.Fetches) (hst : (s.out x).st ≠ .idle) : (s.flywheel x).Fetches := by
  have started : ((s.flywheelSet x).frameStart x true).Fetches := (h.but x).modThenStart ((h x).apart hst) _ true
  cases hr : (s.out x).pulse.inRun with
  | true => exact (State.flywheel_inRun hr).symm ▸ started
  | false => exact (State.flywheel_first hr).symm ▸ started.same (raise_frame _ _ _ _ _) (by decide)

theorem State.Fetches.pulseCheck (h : s.Fetches) (x : Fin 6) : (s.pulseCheck x).Fetches :=
  h.lane (pulseCheck_frame s x) (by decide) (by decide) (s.pulseCheck_others x)
    ((h x).of_alike (by rw [State.pulseCheck_out]; exact ⟨rfl, rfl, rfl, rfl, rfl⟩))

theorem State.Fetches.activeEdge (h : s.Fetches) (x : Fin 6) : (s.activeEdge x).Fetches := by
  unfold State.activeEdge
  split
  · exact h
  · next hst =>
    have apart : s.slotsApart x := (h x).apart (by rw [hst]; nofun)
    split
    · exact ((h.but x).lane (modOut_frame s x _) (by decide) (by decide) (s.modOut_others x _)).edgeStart
        (apart.congr rfl rfl)
    · exact h
  · next hst =>
    have apart : s.slotsApart x := (h x).apart (by rw [hst]; nofun)
    have f := pulseCheck_frame s x
    exact (((h.pulseCheck x).but x).lane (modOut_frame _ x _) (by decide) (by decide)
      (State.modOut_others _ x _)).edgeStart (apart.congr (f .lanes (by decide)) (f .entries (by decide)))
  · next hst =>
    split
    · have apart : s.slotsApart x := (h x).apart (by rw [hst]; nofun)
      have f := (pulseCheck_frame s x).andThen (m := [.outs, .pools, .flags, .journal, .requests, .port])
        (cutFrame_frame (s.pulseCheck x) x)
      exact (((h.pulseCheck x).but x).lane (cutFrame_frame _ x) (by decide) (by decide)
        (State.cutFrame_others _ x)).edgeStart (apart.congr (f .lanes (by decide)) (f .entries (by decide)))
    · exact h

/-! ### Frame ends (R119) -/

theorem State.Fetches.frameClosed (h : s.Fetches) {st : OutState} (hst : st ≠ .sending)
    (ha : (s.out x).st ≠ .idle) : (s.frameClosed x st).Fetches :=
  h.lane (s.frameClosed_frame x st) (by decide) (by decide) (s.frameClosed_others x st) (by
    rw [State.frameClosed_out]
    exact .of_not_sending (fun _ => (h x).apart ha) hst)

theorem State.Fetches.frameEnd (h : s.Fetches) (ha : (s.out x).st ≠ .idle) : (s.frameEnd x).Fetches := by
  by_cases hd : s.dev = .stopping
  · rw [State.frameEnd_idle hd]
    exact (h.frameClosed (st := .idle) nofun ha).same (laneIdle_frame _ x) (by decide)
  · rw [State.frameEnd_running hd]
    exact h.frameClosed nofun ha

/-- At the frame end no word is asked for (R119). -/
theorem State.Fetching.ends (h : s.Fetching x (s.out x)) (due : s.frameEndDue x = true) : (s.out x).asked = none := by
  simp only [State.frameEndDue, Bool.and_eq_true, beq_iff_eq] at due
  obtain ⟨⟨hst, hb⟩, -⟩ := due
  have words := h.words hst
  rw [State.dueFrom, ← State.wordsDue_eq, State.wordsDue_end (h.apart (by rw [hst]; nofun)) hb] at words
  simp only [OutLane.words, List.append_eq_nil_iff, List.map_eq_nil_iff, Option.toList_eq_nil_iff] at words
  exact words.1.2

/-! ### A STOP (R125) -/

theorem State.Fetching.stop (h : s.Fetching x l) : s.Fetching x l.stop := by
  obtain ⟨idle, sending, rest⟩ := OutLane.stop_cases l
  cases hst : l.st with
  | idle => exact (idle hst).symm ▸ h
  | sending => exact (sending hst).symm ▸ h.of_alike ⟨rfl, rfl, rfl, rfl, rfl⟩
  | waiting => exact (rest (.inl hst)).symm ▸ .of_not_sending (fun c => absurd rfl c) nofun
  | between => exact (rest (.inr hst)).symm ▸ .of_not_sending (fun c => absurd rfl c) nofun

theorem State.Fetches.stop (h : s.Fetches) : s.stop.Fetches := by
  have done : State.Fetches { s with outcome := .done } := h.same (s.outcome_frame .done) (by decide)
  rcases s.stop_cases with ⟨-, e⟩ | ⟨-, e⟩ | ⟨-, e⟩
  · have stopped : (State.stopBlocks { s with outcome := .done }).Fetches := fun z => by
      rw [State.stopBlocks_out]
      exact (done z).stop.congr rfl rfl
    rw [e]
    rcases State.stopRun_cases { s with outcome := .done } with ⟨-, e⟩ | ⟨-, e⟩
    · exact e ▸ stopped.same (setupEntry_frame _) (by decide)
    · exact e ▸ stopped
  · rw [e]
    exact done.same (stopLoad_frame _) (by decide)
  · exact e ▸ done

end

end Sys2Proof.Machine

/-! SUPPORT. The fetching of an outbound lane over the slots of its frame (R114, R115, R117, R120). -/

namespace Sys2Proof.Machine

section
variable {s t u : State} {x : Fin 6} {l m : OutLane} {d e : Nat}

/-! ### The record when a slot has begun -/

/-- One slot later: the words of an entry that begins there are gone. -/
theorem State.Fetching.slot (h : s.Fetching x l) (hst : l.st = .sending) (hb : l.begun < (s.outRec x).slots + 5)
    (begun : m.begun = l.begun + 1) (draws : m.draws = l.draws)
    (words : m.words = s.dueFrom x l (l.begun + 1 - 4)) (tail : m.tail ≠ none → s.keepsHalf x (l.begun + 1)) :
    s.Fetching x m := by
  refine ⟨fun _ => h.apart (by rw [hst]; nofun), fun _ => ?_, fun _ => ?_, fun _ c => ?_⟩
  · rw [begun]; exact hb
  · rw [words, begun, State.dueFrom_congr draws]
  · rw [begun]; exact tail c

/-- A slot at which no entry begins leaves the words, and keeps no half. -/
theorem State.Fetching.skip (h : s.Fetching x l) (hst : l.st = .sending) (hb : l.begun < (s.outRec x).slots + 5)
    (begun : m.begun = l.begun + 1) (draws : m.draws = l.draws) (words : m.words = l.words) (tail : m.tail = none)
    (due : s.dueFrom x l (l.begun - 4) = s.dueFrom x l (l.begun + 1 - 4)) : s.Fetching x m :=
  h.slot hst hb begun draws (words.trans ((h.words hst).trans due)) fun c => absurd tail c

/-- A half is kept in the data slots alone. -/
theorem State.Fetching.tail_none (h : s.Fetching x l) (hst : l.st = .sending)
    (out : l.begun < 4 ∨ (s.outRec x).slots + 4 ≤ l.begun) : l.tail = none := by
  by_contra c
  obtain ⟨e, he, two, at_⟩ := h.tail hst c
  have fits := (h.apart (by rw [hst]; nofun)).1 e he
  omega

/-! ### An entry's slot (R115, R120) -/

/-- The words of entry `e` go from the due words, whose others are of other entries. -/
theorem State.dueFrom_without (hd : (s.entry e).slot = d) :
    (s.dueFrom x l (d + 1)).filter (fun f => f != e) = s.dueFrom x l (d + 1) := by
  refine List.filter_eq_self.2 fun f hf => ?_
  obtain ⟨-, later⟩ := State.mem_dueFrom hf
  have ne : f ≠ e := by
    rintro rfl
    omega
  simpa using ne

/-- What the sending of an entry and its underrun have in common. -/
theorem State.Fetching.entrySlot (h : s.Fetching x l) (hst : l.st = .sending)
    (hb : l.begun < (s.outRec x).slots + 5) (hj : 4 ≤ l.begun) (he : s.entryAt x (l.begun - 4) = some e)
    (begun : m.begun = l.begun + 1) (draws : m.draws = l.draws)
    (words : l.words = List.replicate ((s.entry e).kind.words (l.drawOf (s.entry e).window)) e ++
        s.dueFrom x l (l.begun - 4 + 1) → m.words = s.dueFrom x l (l.begun - 4 + 1))
    (tail : m.tail ≠ none → (s.entry e).kind.slots = 2) : s.Fetching x m := by
  have apart := h.apart (by rw [hst]; nofun)
  have inRun := (s.mem_slotOrder x e).1 (List.mem_of_find?_eq_some he)
  have at_ : (s.entry e).slot = l.begun - 4 := by simpa using List.find?_some he
  have due := State.dueFrom_step (l := l) ((State.entryAt_spec apart (l.begun - 4)).1 e he)
  refine h.slot hst hb begun draws ?_ fun c => ⟨e, inRun, tail c, by omega⟩
  rw [show l.begun + 1 - 4 = l.begun - 4 + 1 by omega]
  exact words ((h.words hst).trans due)

/-- Dropping the first words of a list that are all of one entry. -/
theorem OutLane.drop_words {n : Nat} {rest : List Nat} (hl : (l.fetch.take n).length = n)
    (he : (l.fetch.take n).all (fun p => p.1 == e) = true) (hw : l.words = List.replicate n e ++ rest)
    (hm : m.words = { l with fetch := l.fetch.drop n }.words) : m.words = rest := by
  have own : (l.fetch.take n).map (fun p => p.1) = List.replicate n e := by
    refine List.eq_replicate_iff.2 ⟨by rw [List.length_map, hl], fun f hf => ?_⟩
    obtain ⟨p, hp, rfl⟩ := List.mem_map.1 hf
    simpa using List.all_eq_true.1 he p hp
  have split : l.words = List.replicate n e ++ { l with fetch := l.fetch.drop n }.words := by
    rw [← own, OutLane.words, OutLane.words, ← List.append_assoc, ← List.append_assoc, ← List.map_append,
      List.take_append_drop]
  rw [hm]
  exact List.append_cancel_left (split.symm.trans hw)

/-- An underrun ends the fetch of the entry, and of no other (R120). -/
theorem OutLane.filter_words (e : Nat) (hf : m.fetch = l.fetch.filter fun p => p.1 != e)
    (ha : m.asked = if (l.asked.any fun p => p.entry == e) = true then none else l.asked)
    (hp : m.plan = l.plan.filter fun p => p.entry != e) : m.words = l.words.filter fun f => f != e := by
  have asked : (m.asked.toList.map fun p => p.entry) =
      (l.asked.toList.map fun p => p.entry).filter fun f => f != e := by
    rw [ha]
    cases l.asked with
    | none => rfl
    | some p => by_cases c : p.entry = e <;> simp [c]
  unfold OutLane.words
  rw [List.filter_append, List.filter_append, asked, hf, hp, List.filter_map (l := l.fetch),
    List.filter_map (l := l.plan)]
  rfl

/-! ### The positions of a frame (R114, R115, R117) -/

theorem State.underrun_out (s : State) (x : Fin 6) (e : Nat) : (s.underrun x e).out x =
    { OutLane.send (s.outRec x).filler (s.out x) with
      tail := if (s.entry e).kind.slots = 2 then some (s.outRec x).filler else none
      asked := if ((s.out x).asked.any fun p => p.entry == e) = true then none else (s.out x).asked
      plan := (s.out x).plan.filter fun p => p.entry != e
      fetch := (s.out x).fetch.filter fun p => p.1 != e
      underruns := sat8 (s.out x).underruns
      underMark := true } := by
  unfold State.underrun
  dsimp only
  have same : (if ((s.out x).asked.any fun p => p.entry == e) = true then s.withdraw (.outLane x) else s).out x =
      s.out x := by
    split
    · rfl
    · rfl
  split
  · rw [State.out_modOut, if_pos rfl, same]
  · rw [State.raise_out, State.out_modOut, if_pos rfl, same]

/-- The lane's record has its next position begun, and nothing sent in it yet. -/
def OutLane.next (l : OutLane) : OutLane := { l with begun := l.begun + 1 }

/-- An entry whose words are fetched sends its value and drops them (R115). -/
theorem State.Fetching.sendEntry (h : s.Fetching x l) (hst : l.st = .sending) (hb : l.begun < (s.outRec x).slots + 5)
    (hj : 4 ≤ l.begun) (he : s.entryAt x (l.begun - 4) = some e) {n : Nat}
    (hn : (s.entry e).kind.words (l.drawOf (s.entry e).window) = n) (hl : (l.fetch.take n).length = n)
    (all : (l.fetch.take n).all (fun p => p.1 == e) = true) (v : Word) (sat : Byte) (tail : l.tail = none) :
    s.Fetching x (OutLane.sendValue (s.entry e).kind.slots v
      { l.next with fetch := l.next.fetch.drop n, saturations := sat }) := by
  unfold OutLane.sendValue
  split
  · next two =>
    exact h.entrySlot hst hb hj he rfl rfl (fun c => OutLane.drop_words hl all (hn ▸ c) rfl) fun _ => two
  · refine h.entrySlot hst hb hj he rfl rfl (fun c => OutLane.drop_words hl all (hn ▸ c) rfl) fun c => ?_
    exact absurd tail c

theorem State.Fetching.dataSlot (h : s.Fetching x l) (hst : l.st = .sending) (hb : l.begun < (s.outRec x).slots + 5)
    (hj : 4 ≤ l.begun) (ho : s.out x = l.next) : s.Fetching x ((s.dataSlot x (l.begun - 4)).out x) := by
  have apart := h.apart (by rw [hst]; nofun)
  have later : l.begun + 1 - 4 = l.begun - 4 + 1 := by omega
  unfold State.dataSlot
  rw [ho]
  dsimp only [OutLane.next]
  cases ht : l.tail with
  | some half =>
    rw [State.out_modOut, if_pos rfl, ho]
    refine h.skip hst hb rfl rfl rfl rfl ?_
    rw [later]
    refine State.dueFrom_skip (apart.skip (.inl ?_))
    rw [show l.begun - 4 + 4 = l.begun by omega]
    exact h.tail hst (by rw [ht]; nofun)
  | none =>
    dsimp only
    cases he : s.entryAt x (l.begun - 4) with
    | none =>
      have due : s.dueFrom x l (l.begun - 4) = s.dueFrom x l (l.begun + 1 - 4) := by
        rw [later]
        exact State.dueFrom_skip ((State.entryAt_spec apart (l.begun - 4)).2 he)
      dsimp only
      unfold State.emptySlot
      split
      · rw [State.out_modOut, if_pos rfl, ho]
        exact h.skip hst hb rfl rfl rfl ht due
      · rw [State.out_modOut, if_pos rfl, ho]
        exact h.skip hst hb rfl rfl rfl ht due
    | some e =>
      dsimp only
      split
      · next hc =>
        obtain ⟨hl, all⟩ := hc
        unfold State.sendEntry
        dsimp only
        rw [State.out_modOut, if_pos rfl, State.setEntrySt_out, ho, List.length_map, hl]
        exact h.sendEntry hst hb hj he rfl hl all _ _ ht
      · rw [State.underrun_out, ho]
        have at_ : (s.entry e).slot = l.begun - 4 := by simpa using List.find?_some he
        refine h.entrySlot hst hb hj he rfl rfl (fun c => ?_) fun c => ?_
        · rw [OutLane.filter_words (l := l) e rfl rfl rfl, c, List.filter_append, State.dueFrom_without at_]
          simp
        · by_contra two
          exact c (if_neg two)

theorem State.Fetching.position (h : s.Fetching x l) (hst : l.st = .sending) (hb : l.begun < (s.outRec x).slots + 5)
    (ho : s.out x = l.next) : s.Fetching x ((s.position x l.begun).out x) := by
  unfold State.position
  split
  · next header =>
    rw [State.out_modOut, if_pos rfl, ho]
    refine h.skip hst hb rfl rfl rfl (h.tail_none hst (.inl header)) ?_
    rw [show l.begun + 1 - 4 = l.begun - 4 by omega]
  · next hj =>
    split
    · exact h.dataSlot hst hb (Nat.le_of_not_lt hj) ho
    · next trailer =>
      have past : (s.outRec x).slots + 4 ≤ l.begun := Nat.le_of_not_lt trailer
      rw [State.out_modOut, if_pos rfl, ho]
      refine h.skip hst hb rfl rfl rfl (h.tail_none hst (.inr past)) ?_
      rw [show l.begun + 1 - 4 = l.begun - 4 + 1 by omega]
      exact State.dueFrom_skip ((h.apart (by rw [hst]; nofun)).skip (.inr (by omega)))

theorem State.dataSlot_others (s : State) (x : Fin 6) (d : Nat) : OtherOuts x s (s.dataSlot x d) := by
  unfold State.dataSlot
  dsimp only
  split
  · exact s.modOut_others x _
  · split
    · unfold State.emptySlot
      split
      · exact s.modOut_others x _
      · exact s.modOut_others x _
    · split
      · intro z hz
        unfold State.sendEntry
        dsimp only
        rw [State.modOut_others _ x _ z hz, State.setEntrySt_out]
      · intro z hz
        unfold State.underrun
        dsimp only
        have same : ∀ b : Bool, (if b = true then s.withdraw (.outLane x) else s).out z = s.out z := fun b => by
          cases b <;> rfl
        split
        · rw [State.modOut_others _ x _ z hz, same]
        · rw [State.raise_out, State.modOut_others _ x _ z hz, same]

theorem State.position_others (s : State) (x : Fin 6) (j : Nat) : OtherOuts x s (s.position x j) := by
  unfold State.position
  split
  · exact s.modOut_others x _
  · split
    · exact s.dataSlot_others x _
    · exact s.modOut_others x _

theorem State.Fetches.slotBegin (h : s.Fetches) (due : s.slotDue x = true) : (s.slotBegin x).Fetches := by
  simp only [State.slotDue, Bool.and_eq_true, beq_iff_eq, decide_eq_true_eq] at due
  obtain ⟨⟨hst, hb⟩, -⟩ := due
  have next : (s.modOut x OutLane.next).out x = (s.out x).next := by rw [State.out_modOut, if_pos rfl]
  have moved : (s.modOut x OutLane.next).FetchesBut x :=
    (h.but x).lane (modOut_frame s x _) (by decide) (by decide) (s.modOut_others x _)
  have own : (s.modOut x OutLane.next).Fetching x (s.out x) := (h x).congr rfl rfl
  have f := position_frame (s.modOut x OutLane.next) x (s.out x).begun
  have placed : ((s.modOut x OutLane.next).position x (s.out x).begun).Fetches :=
    (moved.lane f (by decide) (by decide) (State.position_others _ x _)).fetches
      ((own.position hst hb next).congr (f .lanes (by decide)) (f .entries (by decide)))
  have same : s.modOut x (fun l => { l with begun := (s.out x).begun + 1 }) = s.modOut x OutLane.next := rfl
  unfold State.slotBegin
  dsimp only
  rw [same]
  exact (placed.same (markUrgent_frame _ x) (by decide)).tryFetch x

end

end Sys2Proof.Machine

/-! SUPPORT. The fetching of the outbound lanes over RUN entry and every command; the law of the requests, of the
frames and of the fetches over every step. -/

namespace Sys2Proof.Machine

section
variable {s t u : State} {x : Fin 6} {im : Image}

/-! ### A profile that passes check 8 (R145, R170) -/

theorem Image.badEntry_none_of_bodyError {base : Nat} {crc : Half} (h : im.bodyError base crc = none) :
    im.badEntry = none := by
  simp only [Image.bodyError, Option.or_eq_none_iff, failing, Option.map_eq_none_iff] at h
  obtain ⟨-, -, -, -, -, check8, -⟩ := h
  exact check8

theorem Image.entryOk_of_badEntry (h : im.badEntry = none) {m : Nat} (hm : m < 8)
    (enabled : (im.lane m).enabled = true) :
    ∀ e ∈ (im.lane m).runOf, im.entryOk m e = true := by
  have none := List.findSome?_eq_none_iff.1 h m (List.mem_range.2 hm)
  rw [if_pos enabled] at none
  exact ((im.badRun_none m).1 none).1

/-- The entry table is the image's, where it has a place. -/
theorem State.entry_of_table (he : s.entries = im.entryTable) {e : Nat} (h : e < 256) : s.entry e = im.entry e := by
  unfold State.entry
  rw [dif_pos h]
  simp only [he, Image.entryTable, Vector.getElem_ofFn]

/-- The slots of an enabled outbound lane's entries are apart in a profile that passes check 8. -/
theorem Image.slotsApart_of_entryOk (hl : s.lanes = im.laneTable) (he : s.entries = im.entryTable)
    (ok : ∀ e ∈ (im.lane x.val).runOf, im.entryOk x.val e = true) : s.slotsApart x := by
  have lane : s.outRec x = im.lane x.val := by
    unfold State.outRec
    simp [hl, Image.laneTable]
  have passes : ∀ e ∈ (s.outRec x).run, e < im.header.entryCount ∧ s.entry e = im.entry e ∧
      im.slotsFit (im.lane x.val) e = true ∧ im.collides (im.lane x.val) e = false := fun e hm => by
    rw [lane] at hm
    have := ok e hm
    simp only [Image.entryOk, Image.outEntryOk, x.isLt, if_true, Bool.and_eq_true, decide_eq_true_eq,
      Bool.not_eq_true'] at this
    obtain ⟨⟨⟨table, held⟩, -⟩, ⟨⟨⟨-, fit⟩, free⟩, -⟩, -⟩ := this
    exact ⟨held, State.entry_of_table he table, fit, free⟩
  refine ⟨fun e hm => ?_, fun e hm f hf ne => ?_⟩
  · obtain ⟨-, same, fit, -⟩ := passes e hm
    rw [same, lane]
    simpa [Image.slotsFit] using fit
  · obtain ⟨-, same, -, free⟩ := passes e hm
    obtain ⟨held, same', -, -⟩ := passes f hf
    have inRun : f ∈ im.entriesOf (im.lane x.val) := by
      rw [lane] at hf
      exact List.mem_filter.2 ⟨hf, decide_eq_true held⟩
    have apart := List.any_eq_false.1 free f inRun
    have pos := EntryKind.slots_pos (im.entry e).kind
    have pos' := EntryKind.slots_pos (im.entry f).kind
    simp only [Area.overlaps, bne_iff_ne, ne_eq, Ne.symm ne, not_false_eq_true, decide_eq_true_eq, Bool.and_eq_true,
      true_and, not_and, pos, pos'] at apart
    rw [same, same']
    omega

/-! ### RUN entry (R171–R173) -/

/-- A load read that enters RUN has found a profile that passes its checks; another touches no lane. -/
theorem State.loadWord_checked (s : State) (v : Word) :
    ChangesOnly [.load, .loadErr, .dev, .flags, .journal, .requests] s (s.loadWord v) ∨
      ∃ im, im.badEntry = none ∧ s.loadWord v = s.runEntry im := by
  have goes : ∀ j n, ChangesOnly [.load, .loadErr, .dev, .flags, .journal, .requests] s
      ({ s with load := some j }.requestImage n) := fun j n => by
    intro g hg
    cases g <;> simp [State.sameAt, State.requestImage] at hg ⊢
  unfold State.loadWord
  split
  · exact .inl (.refl _ s)
  · dsimp only
    split
    · split
      · exact .inl (goes _ _)
      · split
        · exact .inl ((loadFailed_frame s _).mono (by decide))
        · exact .inl (goes _ _)
    · split
      · exact .inl (goes _ _)
      · split
        · exact .inl ((loadFailed_frame s _).mono (by decide))
        · next passed => exact .inr ⟨_, Image.badEntry_none_of_bodyError passed, rfl⟩

theorem State.fetches_entered (s : State) (h : im.badEntry = none) : (s.entered im).Fetches := fun x => by
  obtain ⟨-, -, lanes, entries, -⟩ := s.entered_adopted im
  have lane : (s.entered im).outRec x = im.lane x.val := by
    unfold State.outRec
    simp [lanes, Image.laneTable]
  rw [State.entered_out, lane]
  cases he : (im.lane x.val).enabled with
  | false =>
    rw [OutLane.start_disabled he]
    exact .of_not_sending (fun c => absurd rfl c) nofun
  | true =>
    rw [OutLane.start_enabled he]
    exact .of_not_sending (fun _ => Image.slotsApart_of_entryOk lanes entries
      (Image.entryOk_of_badEntry h (by omega) he)) nofun

theorem State.masterDue_awake (h : s.masterDue x = true) : (s.out x).st ≠ .idle := by
  simp only [State.masterDue, Bool.and_eq_true, Bool.or_eq_true, beq_iff_eq] at h
  rcases h.2 with e | e <;> simp [e]

theorem State.Fetches.startAtEntry (h : s.Fetches) : s.startAtEntry.Fetches := by
  by_cases hi : s.startInstant = s.timeBase
  · rw [State.startAtEntry_now hi]
    have reached : s.reached.Fetches := fun z => (h z).congr rfl rfl
    generalize s.reached = d at reached
    induction allOuts generalizing d with
    | nil => exact reached
    | cons x l ih =>
      refine ih _ ?_
      unfold State.startIfDue
      split
      · next due => exact reached.masterStart (State.masterDue_awake due)
      · exact reached
  · exact (State.startAtEntry_later hi).symm ▸ h

theorem State.Fetches.loadWord (h : s.Fetches) (v : Word) : (s.loadWord v).Fetches := by
  rcases s.loadWord_checked v with f | ⟨im, passed, e⟩
  · exact h.same f (by decide)
  · rw [e, State.runEntry_eq]
    exact ((s.fetches_entered passed).same (State.startRaised_frame _ im) (by decide)).startAtEntry

/-! ### Every command -/

theorem State.Fetches.arrivals (h : s.Fetches) : s.arrivals.Fetches := h.same (arrivals_frame s) (by decide)

theorem State.Fetches.guarded {b : Bool} (hs : s.Fetches) (hu : b = true → u.Fetches)
    (e : (if b then (.next u.arrivals : Out) else .next s) = .next t) : t.Fetches := by
  rcases guarded_next e with rfl | ⟨hb, rfl⟩
  · exact hs
  · exact (hu hb).arrivals

theorem State.Fetches.performance {about : Request → Bool} {react drop : Request → State → State} (h : s.Fetches)
    (hreact : ∀ r v, v.Fetches → (react r v).Fetches) (hdrop : ∀ r v, v.Fetches → (drop r v).Fetches)
    (e : s.performance about react drop = .next t) : t.Fetches := by
  rcases s.performance_cases about react drop with c | ⟨a, -, -, -, c⟩ <;> cases c.symm.trans e
  · exact h
  · have complete : (s.complete a.req).Fetches := h.same (complete_frame s a.req) (by decide)
    refine State.Fetches.same ?_ (regrant_frame _) (by decide)
    split
    · exact hdrop _ _ complete
    · exact hreact _ _ complete

theorem State.Fetches.laneReact (h : s.Fetches) (r : Request) (drop : Bool) : (r.laneReact drop s).Fetches := by
  unfold Request.laneReact
  split
  · split
    · exact h.tryFetch _
    · exact h.laneWord _ _
  · exact h

theorem State.fetches_pinReset (s : State) : s.pinReset.Fetches := fun x => by
  rw [State.pinReset_out]
  exact .of_not_sending (fun c => absurd rfl c) nofun

theorem State.Fetches.exec (h : s.Fetches) {i : Instr} (e : exec i s = .next t) : t.Fetches := by
  cases i with
  | hostWritePresented a be d => exact h.same (execHostWritePresented_frame e) (by decide)
  | hostReadPresented a be => exact h.same (execHostReadPresented_frame e) (by decide)
  | passThroughWrite => exact h.same (execPassThroughWrite_frame e) (by decide)
  | payloadWriteSteered => exact h.same (execPayloadWriteSteered_frame e) (by decide)
  | refusedWrite => exact h.same (execRefusedWrite_frame e) (by decide)
  | closeRequest => exact h.same (execCloseRequest_frame e) (by decide)
  | start => exact h.same (execStart_frame e) (by decide)
  | stop =>
    rcases execStop_cases s with c | ⟨v, -, -, c⟩ <;> cases c.symm.trans e
    · exact h
    · have taken : s.takeHead.Fetches := h.same (takeHead_frame s) (by decide)
      exact taken.stop.arrivals
  | unknownRequest => exact h.same (execUnknownRequest_frame e) (by decide)
  | acknowledge => exact h.same (execAcknowledge_frame e) (by decide)
  | controlWriteDropped => exact h.same (execControlWriteDropped_frame e) (by decide)
  | hostReadTaken => exact h.same (execHostReadTaken_frame e) (by decide)
  | headWordReadViewMove => exact h.same (execHeadWordReadViewMove_frame e) (by decide)
  | hostAccessPerformed => exact h.same (execHostAccessPerformed_frame e) (by decide)
  | laneFetchPerformed =>
    exact h.performance (fun r v k => k.laneReact r false) (fun r v k => k.laneReact r true) e
  | inboundWritePerformed => exact h.same (execInboundWritePerformed_frame e) (by decide)
  | copyReadPerformed => exact h.same (execCopyReadPerformed_frame e) (by decide)
  | copyWritePerformed => exact h.same (execCopyWritePerformed_frame e) (by decide)
  | loadReadPerformed =>
    change execLoadReadPerformed s = .next t at e
    exact h.performance (fun _ v k => k.loadWord _) (fun _ _ k => k) e
  | journalWordPerformed => exact h.same (execJournalWordPerformed_frame e) (by decide)
  | timerExpiry w => exact h.same (execTimerExpiry_frame e) (by decide)
  | startInstantReached => exact h.same (execStartInstantReached_frame e) (by decide)
  | masterScheduledStart x =>
    exact h.guarded (fun hb => h.masterStart (State.masterDue_awake (Bool.and_eq_true_iff.1 hb).2)) e
  | outboundActiveEdge x edge => exact h.guarded (fun _ => h.activeEdge x) e
  | flywheelStart x =>
    refine h.guarded (fun hb => h.flywheel fun c => ?_) e
    simp [State.flywheelDue, c] at hb
  | slotBegin x => exact h.guarded (fun hb => h.slotBegin (Bool.and_eq_true_iff.1 hb).2) e
  | frameEnd x =>
    refine h.guarded (fun hb => h.frameEnd fun c => ?_) e
    simp [State.frameEndDue, c] at hb
  | inboundActiveEdge y edge => exact h.same (execInboundActiveEdge_frame e) (by decide)
  | inboundH0Received y v => exact h.same (execInboundH0Received_frame e) (by decide)
  | inboundH1Received y v => exact h.same (execInboundH1Received_frame e) (by decide)
  | inboundDataSlotReceived y v => exact h.same (execInboundDataSlotReceived_frame e) (by decide)
  | inboundCrcSlotReceived y v => exact h.same (execInboundCrcSlotReceived_frame e) (by decide)
  | resetPin =>
    change execResetPin s = .next t at e
    unfold execResetPin at e
    split at e <;> cases e
    · exact h
    · exact s.fetches_pinReset
  | resetRelease p => exact h.same (execResetRelease_frame (p := p) e) (by decide)
  | timeBaseTick => exact h.same (execTimeBaseTick_frame e) (by decide)

/-! ### Every step -/

/-- The requester is no inbound lane; of the others the law of fetching needs the outbound lanes. -/
def Requester.notIn (q : Requester) : Prop := ∀ y, q ≠ .inLane y

theorem Requester.notIn_of_not_lane (q : Requester) (h : ¬ q.isLane) : q.notIn := fun y c => by
  subst c
  exact h trivial

theorem serves_notIn (requests : RequestLaw s) (fetch : FetchLaw s) : Serves Requester.notIn s := by
  obtain ⟨serves, -⟩ := (requestLaw_iff_serves s).1 requests
  refine ⟨serves.orderly, fun q _ => ?_⟩
  by_cases hq : q.isOut
  · obtain ⟨x, rfl⟩ := hq
    exact ((fetchLaw_iff s).1 fetch).1 x
  · exact serves.served q hq

/-- The law of fetching, kept by every step. -/
theorem step_keeps_fetches (fetch : FetchLaw s) (requests : RequestLaw s) (run : RunLaw s) (e : step s = .next t) :
    FetchLaw t := by
  refine step_keeps
    (P := fun u => Serves Requester.notIn u ∧ NoGrantDue u ∧ u.Fetches ∧ RunLaw u) (Q := FetchLaw)
    ⟨serves_notIn requests fetch, ((requestLaw_iff_serves s).1 requests).2, ((fetchLaw_iff s).1 fetch).2, run⟩
    (fun p ⟨serves, due, fetches, run⟩ => ?_)
    (fun ⟨serves, _, fetches, _⟩ => (fetchLaw_iff s).2 ⟨fun x => serves.served _ fun _ => nofun, fetches⟩)
    (fun i u ⟨serves, due, fetches, run⟩ e => ?_) e
  · have f := s.pending_frame p
    obtain ⟨serves, due⟩ := serves.inert due f (by decide)
    exact ⟨serves, due, fetches.same f (by decide),
      (runLaw_iff _).2 (runParts_kept.inert ((runLaw_iff s).1 run) (f.mono (by decide)))⟩
  · obtain ⟨after, -⟩ := serves.exec Requester.notIn_of_not_lane due run (fun x _ => (fetches x).ends)
      (.inr fun y c => c y rfl) e
    exact (fetchLaw_iff t).2 ⟨fun x => after.served _ fun _ => nofun, fetches.exec e⟩

end

/-- Settles O55: the requesters served, the frames in hand and the words due, kept by every command. -/
theorem everyStepKeepsTheRequestLaw : Obligations.EveryStepKeepsTheRequestLaw :=
  ⟨fun _ _ requests frames run e => step_keeps_requests_frames requests frames run e,
    fun _ _ fetch requests run e => step_keeps_fetches fetch requests run e⟩

end Sys2Proof.Machine

/-! SUPPORT. The journal record inside its ranges over every operation: the raise of STOPPED, JW's own
writes, commits and closes, the lanes, and the start of a new run (R183–R190). -/

namespace Sys2Proof.Machine

section
variable {s t u : State} {im : Image}

theorem JournalLaw.of_frame {l : List Item} (h : JournalLaw s) (f : ChangesOnly l s t)
    (hj : Item.journal ∉ l := by decide) (hh : Item.header ∉ l := by decide) : JournalLaw t :=
  h.of_eq (f .journal hj) (f .header hh)

/-! ### STOPPED (R189) -/

/-- The journal state may change to any other while the write index is below the capacity. -/
theorem Journal.inRange.setSt {j : Journal} {c : Nat} (h : j.inRange c) (hi : j.writeIndex < c) (st : JState) :
    { j with st := st }.inRange c := by
  obtain ⟨places, words, -, empty⟩ := h
  exact ⟨places, words, .inr hi, empty⟩

/-- A journal in use has its write index below the capacity. -/
theorem JournalLaw.index_lt (h : JournalLaw s) (hu : s.journal.st ≠ .off ∨ s.journal.queue ≠ []) :
    s.journal.writeIndex < s.header.capacity := by
  obtain ⟨-, -, index, -⟩ := h
  exact index.resolve_left fun ⟨off, empty⟩ => hu.elim (· off) (· empty)

theorem State.offer_writeIndex (s : State) (e : JEntry) :
    (s.offer e).journal.writeIndex = s.journal.writeIndex := by
  have accepted : ∀ u : State, (u.acceptEntry e).journal.writeIndex = u.journal.writeIndex := fun u => by
    rw [State.acceptEntry_journal]
    split <;> rfl
  unfold State.offer
  split
  · rfl
  · split
    case h_4 =>
      split
      · exact accepted _
      · rfl
    case h_5 =>
      split
      · exact accepted _
      · rfl
    case h_6 => split <;> rfl
    all_goals rfl

/-- The raise of STOPPED drains or ends the journal of a run, and else is an offer as any other (R189). -/
theorem State.raiseStopped_law (h : JournalLaw s) (d1 d2 : Word) : JournalLaw (s.raiseStopped d1 d2) := by
  have offered : (s.offer (s.stoppedEntry d1 d2)).journal.inRange s.header.capacity := by
    rw [← s.offer_header (s.stoppedEntry d1 d2)]
    exact State.offer_law h _
  have header : (s.raiseStopped d1 d2).header = s.header := raiseStopped_frame s d1 d2 .header (by decide)
  rw [journalLaw_iff, header]
  by_cases drains : s.journal.st = .recording ∨ s.journal.st = .awaiting ∧ s.triggers .stopped = true
  · rw [State.raiseStopped_drains d1 d2 drains]
    have used : s.journal.st ≠ .off := by
      rcases drains with st | ⟨st, -⟩ <;> rw [st] <;> nofun
    exact offered.setSt (by rw [State.offer_writeIndex]; exact h.index_lt (.inl used)) _
  · obtain ⟨notRecording, waits⟩ := not_or.1 drains
    by_cases awaits : s.journal.st = .awaiting
    · rw [State.raiseStopped_ends d1 d2 awaits (by simpa [awaits] using waits)]
      exact Journal.inRange.setSt h (h.index_lt (.inl (by rw [awaits]; nofun))) _
    · rw [State.raiseStopped_offered d1 d2 notRecording awaits]
      exact offered

/-! ### JW's writes (R187, R188) -/

theorem State.nextEntry_law (h : JournalLaw s) (hi : s.journal.writeIndex < s.header.capacity) :
    JournalLaw s.nextEntry := by
  unfold State.nextEntry
  split
  · split
    · exact Journal.inRange.setSt h hi .ended
    · exact h
  · exact State.requestJournal_law h

theorem State.haltJournal_law (hw : s.journal.wordCount = 0) (hc : 0 < s.header.capacity) :
    JournalLaw s.haltJournal := by
  have halted : JournalLaw (s.modJournal fun j => { j with writeIndex := 0, st := .halted, queue := [] }) :=
    ⟨Nat.zero_le _, by simp [hw], .inr hc, fun _ => hw⟩
  unfold State.haltJournal
  dsimp only
  split
  · exact halted
  · exact State.loseEntries_law halted _

/-- The head entry has been written: the ring goes on at the next place, turns over, or is full (R187, R188). -/
theorem State.entryWritten_law (h : JournalLaw s) (hq : s.journal.queue ≠ []) : JournalLaw s.entryWritten := by
  have index := h.index_lt (.inr hq)
  obtain ⟨places, -, -, -⟩ := h
  have places' : s.journal.queue.tail.length ≤ 8 := by rw [List.length_tail]; omega
  unfold State.entryWritten
  dsimp only
  split
  · split
    · have first : 0 < s.header.capacity := by omega
      exact State.nextEntry_law ⟨places', Nat.zero_le _, .inr first, fun _ => rfl⟩ first
    · exact State.haltJournal_law rfl (show 0 < s.header.capacity by omega)
  · have next : s.journal.writeIndex + 1 < s.header.capacity := by omega
    exact State.nextEntry_law ⟨places', Nat.zero_le _, .inr next, fun _ => rfl⟩ next

theorem State.journalWord_law (h : JournalLaw s) : JournalLaw s.journalWord := by
  unfold State.journalWord
  split
  · exact h
  · next hq =>
    split
    · next more =>
      obtain ⟨places, -, index, -⟩ := h
      exact State.requestJournal_law ⟨places, more, index, fun empty => absurd empty hq⟩
    · exact State.entryWritten_law h hq

/-! ### Commits, copy-forward and closes (R31–R42) -/

theorem State.raiseResumed_law (h : JournalLaw s) (before : State) (w : Fin 16) :
    JournalLaw (s.raiseResumed before w) := by
  unfold State.raiseResumed
  refine List.foldlRecOn _ _ h fun t ht v _ => ?_
  split
  · exact State.raise_law ht _ _ _ _
  · exact ht

theorem State.commit_law (h : JournalLaw s) (w : Fin 16) (k : Fin 8) (seq : Half) (time : Word)
    (source : Option (Fin 8)) (copied : Nat) : JournalLaw (s.commit w k seq time source copied) := by
  have noticed : JournalLaw ((s.modPool w fun p => p.commit k seq time source).noticeRecord w) :=
    (h.of_frame (modPool_frame s w _)).of_frame (noticeRecord_frame _ w)
  exact State.offer_law (State.raiseResumed_law noticed s w) _

theorem State.seek_law (h : JournalLaw s) (w : Fin 16) (j : CopyJob) : JournalLaw (s.seek w j) := by
  unfold State.seek
  split
  · exact (h.of_frame (modPool_frame s w _)).of_frame (join_frame _ _)
  · exact State.commit_law (h.of_frame (modPool_frame s w _)) _ _ _ _ _ _

theorem State.copyWrite_law (h : JournalLaw s) (w : Fin 16) (be : Enables) : JournalLaw (s.copyWrite w be) := by
  unfold State.copyWrite
  split
  · exact h
  · exact State.seek_law (h.of_frame (modPool_frame s w _)) _ _

theorem State.startJob_law (h : JournalLaw s) (w : Fin 16) (k : Fin 8) (seq : Half) (time : Word) :
    JournalLaw (s.startJob w k seq time) := by
  unfold State.startJob
  dsimp only
  refine State.seek_law (JournalLaw.of_frame ?_ (modPool_frame _ w _)) w _
  split
  · exact h.of_frame (modPool_frame s w _)
  · exact h

theorem State.decideClose_law (h : JournalLaw s) (w : Fin 16) (x : HostWrite) : JournalLaw (s.decideClose w x) := by
  rcases s.decideClose_cases w x with e | ⟨o, -, -, e⟩ | ⟨k0, k1, -, -, -, e⟩ <;> rw [e]
  · exact h
  · exact State.raise_law (h.of_frame (modPool_frame s w _)) _ _ _ _
  · have accepted := h.of_frame (acceptClose_frame s w k0 k1 (closeSeq x))
    split
    · exact State.commit_law accepted _ _ _ _ _ _
    · exact State.startJob_law accepted _ _ _ _

theorem State.expire_law (h : JournalLaw s) (w : Fin 16) : JournalLaw (s.expire w) :=
  State.raise_law (h.of_frame (modPool_frame s w _)) _ _ _ _

/-! ### Run control (R168–R175) -/

theorem State.setupEntry_law (h : JournalLaw s) : JournalLaw s.setupEntry :=
  State.raiseStopped_law (s := s.tornDown) h _ _

theorem State.stop_law (h : JournalLaw s) : JournalLaw s.stop := by
  have done : JournalLaw { s with outcome := .done } := h
  rcases s.stop_cases with ⟨-, e⟩ | ⟨-, e⟩ | ⟨-, e⟩ <;> rw [e]
  · have blocks := done.of_frame (stopBlocks_frame _)
    rcases State.stopRun_cases { s with outcome := .done } with ⟨-, e⟩ | ⟨-, e⟩ <;> rw [e]
    · exact State.setupEntry_law blocks
    · exact blocks
  · exact State.raiseStopped_law (s := State.loadDropped { s with outcome := .done }) done _ _
  · exact done

/-- A profile that passes check 12 gives a journal in use a ring with a place (R170). -/
theorem Image.capacity_pos {base : Nat} (h : im.journalOk base = true) (hm : im.header.mode.startState ≠ .off) :
    0 < im.header.capacity := by
  have used : im.header.mode ≠ .off := fun off => hm (by rw [off]; rfl)
  simp only [Image.journalOk, Bool.or_eq_true, beq_iff_eq, used, false_or, Bool.and_eq_true,
    decide_eq_true_eq] at h
  omega

/-- The journal of a new run is empty, at the first place of its ring (R190). -/
theorem State.entered_law (s : State) {base : Nat} (h : im.journalOk base = true) : JournalLaw (s.entered im) := by
  obtain ⟨header, -⟩ := s.entered_adopted im
  rw [journalLaw_iff, State.entered_journal, header]
  refine ⟨Nat.zero_le _, Nat.zero_le _, ?_, fun _ => rfl⟩
  by_cases off : im.header.mode.startState = .off
  · exact .inl ⟨off, rfl⟩
  · exact .inr (Image.capacity_pos h off)

/-- A load read keeps header and journal, raises LOAD_FAILED, or enters RUN with a profile that passes
check 12 (R168–R172). -/
theorem State.loadWord_journal (s : State) (v : Word) :
    ChangesOnly [.load, .requests] s (s.loadWord v) ∨ (∃ e, s.loadWord v = s.loadFailed e) ∨
      ∃ im, im.journalOk s.base = true ∧ s.loadWord v = s.runEntry im := by
  have goes : ∀ j n, ChangesOnly [.load, .requests] s ({ s with load := some j }.requestImage n) := fun j n g hg => by
    cases g <;> simp [State.sameAt, State.requestImage] at hg ⊢
  unfold State.loadWord
  split
  · exact .inl (.refl _ s)
  · dsimp only
    split
    · split
      · exact .inl (goes _ _)
      · split
        · exact .inr (.inl ⟨_, rfl⟩)
        · exact .inl (goes _ _)
    · split
      · exact .inl (goes _ _)
      · split
        · exact .inr (.inl ⟨_, rfl⟩)
        · next passed =>
          simp only [Image.bodyError, Option.or_eq_none_iff, failingUnless] at passed
          obtain ⟨-, -, -, -, -, -, -, -, -, check12⟩ := passed
          exact .inr (.inr ⟨_, by simpa using check12, rfl⟩)

theorem State.loadWord_law (h : JournalLaw s) (v : Word) : JournalLaw (s.loadWord v) := by
  rcases s.loadWord_journal v with f | ⟨e, failed⟩ | ⟨im, ok, entered⟩
  · exact h.of_frame f
  · rw [failed]
    exact State.raise_law (s := { s with load := none, loadErr := e, dev := .setup }) h _ _ _ _
  · rw [entered, State.runEntry_eq]
    exact (State.raise_law (s.entered_law ok) _ _ _ _).of_frame (startAtEntry_frame _)

/-! ### Outbound lanes (R114–R123) -/

theorem State.pulseCheck_law (h : JournalLaw s) (x : Fin 6) : JournalLaw (s.pulseCheck x) := by
  cases drift : s.driftsNow x with
  | true =>
    rw [State.pulseCheck_of_drift drift]
    exact State.raise_law (h.of_frame (modOut_frame s x _)) _ _ _ _
  | false =>
    rw [State.pulseCheck_of_steady drift]
    exact h.of_frame (modOut_frame s x _)

theorem State.cutFrame_law (h : JournalLaw s) (x : Fin 6) : JournalLaw (s.cutFrame x) :=
  State.raise_law (s := s.cutClosed x) (h.of_frame (s.cutClosed_frame x)) _ _ _ _

theorem State.activeEdge_law (h : JournalLaw s) (x : Fin 6) : JournalLaw (s.activeEdge x) := by
  have checked := State.pulseCheck_law h x
  unfold State.activeEdge
  split
  · exact h
  · split
    · exact (h.of_frame (modOut_frame s x _)).of_frame (edgeStart_frame _ x)
    · exact h
  · exact (checked.of_frame (modOut_frame _ x _)).of_frame (edgeStart_frame _ x)
  · split
    · exact (State.cutFrame_law checked x).of_frame (edgeStart_frame _ x)
    · exact h

theorem State.flywheel_law (h : JournalLaw s) (x : Fin 6) : JournalLaw (s.flywheel x) := by
  have started : JournalLaw ((s.flywheelSet x).frameStart x true) :=
    (h.of_frame (modOut_frame s x _)).of_frame (frameStart_frame _ x true)
  cases run : (s.out x).pulse.inRun with
  | true => rw [State.flywheel_inRun run]; exact started
  | false => rw [State.flywheel_first run]; exact State.raise_law started _ _ _ _

theorem State.underrun_law (h : JournalLaw s) (x : Fin 6) (e : Nat) : JournalLaw (s.underrun x e) := by
  unfold State.underrun
  dsimp only
  have marked : ∀ (b : Bool) (f : OutLane → OutLane),
      JournalLaw ((if b then s.withdraw (.outLane x) else s).modOut x f) := fun b f => by
    cases b <;> exact h
  split
  · exact marked _ _
  · exact State.raise_law (marked _ _) _ _ _ _

theorem State.position_law (h : JournalLaw s) (x : Fin 6) (j : Nat) : JournalLaw (s.position x j) := by
  unfold State.position
  split
  · exact h.of_frame (modOut_frame s x _)
  · split
    · unfold State.dataSlot
      dsimp only
      split
      · exact h.of_frame (modOut_frame s x _)
      · split
        · exact h.of_frame (emptySlot_frame s x)
        · split
          · exact h.of_frame (sendEntry_frame s x _ _)
          · exact State.underrun_law h x _
    · exact h.of_frame (modOut_frame s x _)

theorem State.slotBegin_law (h : JournalLaw s) (x : Fin 6) : JournalLaw (s.slotBegin x) :=
  ((State.position_law (h.of_frame (modOut_frame s x _)) x _).of_frame (markUrgent_frame _ x)).of_frame
    (tryFetch_frame _ x)

theorem State.frameEnd_law (h : JournalLaw s) (x : Fin 6) : JournalLaw (s.frameEnd x) := by
  have closed : ∀ st, JournalLaw (s.frameClosed x st) := fun st => h.of_frame (s.frameClosed_frame x st)
  by_cases stopping : s.dev = .stopping
  · have left : JournalLaw ((s.frameClosed x .idle).leftSending x) := closed .idle
    rw [State.frameEnd_idle stopping, State.laneIdle_eq]
    split
    · exact State.setupEntry_law left
    · exact left
  · rw [State.frameEnd_running stopping]
    exact closed .between

/-! ### Inbound lanes (R151–R158) -/

theorem journalLaw_keptByFrames : KeptByFrames JournalLaw where
  asks h f := h.of_frame f
  raise h _ _ _ _ := State.raise_law h _ _ _ _
  lane y u h _ := h.of_frame (modIn_frame _ y u)
  allocate h _ _ _ := (h.of_frame (modPool_frame _ _ _)).of_frame (modIn_frame _ _ _)
  discard h _ _ _ := (h.of_frame (modPool_frame _ _ _)).of_frame (modIn_frame _ _ _)
  commit h _ _ _ :=
    (State.commit_law (h.of_frame (modPool_frame _ _ _)) _ _ _ _ _ _).of_frame (modIn_frame _ _ _)
  mark _ _ h _ _ _ := h.of_frame (modPool_frame _ _ _)

/-! ### Every command -/

/-- A command that runs one event when it is due. -/
theorem JournalLaw.guarded {b : Bool} (h : JournalLaw s) (hu : JournalLaw u)
    (e : (if b then (.next u.arrivals : Out) else .next s) = .next t) : JournalLaw t := by
  rcases guarded_next e with rfl | ⟨-, rfl⟩
  · exact h
  · exact hu.of_frame (arrivals_frame u)

/-- A performance keeps the law if the requester's reaction does (R73, R80). -/
theorem JournalLaw.performance {about : Request → Bool} {react : Request → State → State} (h : JournalLaw s)
    (hr : ∀ r u, JournalLaw u → JournalLaw (react r u))
    (e : s.performance about react (fun _ u => u) = .next t) : JournalLaw t := by
  rcases s.performance_cases about react fun _ u => u with c | ⟨a, -, -, -, c⟩ <;> cases c.symm.trans e
  · exact h
  · have complete : JournalLaw (s.complete a.req) := h
    refine JournalLaw.of_frame ?_ (regrant_frame _)
    split
    · exact complete
    · exact hr _ _ complete

/-- Every command keeps the journal's ranges: it leaves journal and header alone, or it is made of raises, of
JW's own writes, of the end of a load or of a reset. -/
theorem JournalLaw.exec (h : JournalLaw s) {c : Instr} (e : exec c s = .next t) : JournalLaw t := by
  have taken : JournalLaw s.takeHead := h.of_frame (takeHead_frame s)
  cases c with
  | hostWritePresented => exact h.of_frame (execHostWritePresented_frame e)
  | hostReadPresented => exact h.of_frame (execHostReadPresented_frame e)
  | passThroughWrite => exact h.of_frame (execPassThroughWrite_frame e)
  | payloadWriteSteered => exact h.of_frame (execPayloadWriteSteered_frame e)
  | refusedWrite =>
    rcases execRefusedWrite_cases s with c | ⟨x, r, source, -, -, c⟩ <;> cases c.symm.trans e
    · exact h
    · exact (State.raise_law taken _ _ _ _).of_frame (arrivals_frame _)
  | closeRequest =>
    rcases execCloseRequest_cases s with c | ⟨x, w, -, -, c⟩ <;> cases c.symm.trans e
    · exact h
    · exact (State.decideClose_law taken w x).of_frame (arrivals_frame _)
  | start => exact h.of_frame (execStart_frame e)
  | stop =>
    rcases execStop_cases s with c | ⟨x, -, -, c⟩ <;> cases c.symm.trans e
    · exact h
    · exact (State.stop_law taken).of_frame (arrivals_frame _)
  | unknownRequest => exact h.of_frame (execUnknownRequest_frame e)
  | acknowledge => exact h.of_frame (execAcknowledge_frame e)
  | controlWriteDropped => exact h.of_frame (execControlWriteDropped_frame e)
  | hostReadTaken => exact h.of_frame (execHostReadTaken_frame e)
  | headWordReadViewMove => exact h.of_frame (execHeadWordReadViewMove_frame e)
  | hostAccessPerformed => exact h.of_frame (execHostAccessPerformed_frame e)
  | laneFetchPerformed => exact h.of_frame (execLaneFetchPerformed_frame e)
  | inboundWritePerformed =>
    refine h.performance (fun r u hu => ?_) e
    unfold Request.inboundReact
    split
    · exact journalLaw_keptByFrames.halfWritten hu _
    · exact hu
  | copyReadPerformed => exact h.of_frame (execCopyReadPerformed_frame e)
  | copyWritePerformed =>
    change execCopyWritePerformed s = .next t at e
    refine h.performance (fun r u hu => ?_) e
    unfold Request.copyWriteReact
    split
    · exact State.copyWrite_law hu _ _
    · exact hu
  | loadReadPerformed =>
    change execLoadReadPerformed s = .next t at e
    exact h.performance (fun _ _ hu => State.loadWord_law hu _) e
  | journalWordPerformed =>
    change execJournalWordPerformed s = .next t at e
    exact h.performance (fun _ _ hu => State.journalWord_law hu) e
  | timerExpiry w => exact h.guarded (State.expire_law h w) e
  | startInstantReached => exact h.of_frame (execStartInstantReached_frame e)
  | masterScheduledStart => exact h.of_frame (execMasterScheduledStart_frame e)
  | outboundActiveEdge x edge => exact h.guarded (State.activeEdge_law h x) e
  | flywheelStart x => exact h.guarded (State.flywheel_law h x) e
  | slotBegin x => exact h.guarded (State.slotBegin_law h x) e
  | frameEnd x => exact h.guarded (State.frameEnd_law h x) e
  | inboundActiveEdge y edge => exact h.guarded (journalLaw_keptByFrames.inActiveEdge h y) e
  | inboundH0Received y v => exact h.guarded (journalLaw_keptByFrames.inH0 h y v) e
  | inboundH1Received y v => exact h.guarded (journalLaw_keptByFrames.inH1 h y v) e
  | inboundDataSlotReceived y v => exact h.guarded (journalLaw_keptByFrames.inData h y v) e
  | inboundCrcSlotReceived y v => exact h.guarded (journalLaw_keptByFrames.inCrc h y v) e
  | resetPin =>
    change execResetPin s = .next t at e
    unfold execResetPin at e
    split at e <;> cases e
    · exact h
    · exact journalLaw_reset
  | resetRelease p => exact h.of_frame (execResetRelease_frame (p := p) e)
  | timeBaseTick => exact h.of_frame (execTimeBaseTick_frame e)

end

end Sys2Proof.Machine

/-! The posted-write queue over every command, and the laws of the queue and of the journal over every step
(R49, R50, R52, R183, R187): O54. -/

namespace Sys2Proof.Machine

section
variable {s t : State} {x : HostWrite} {l : List Item}

/-! ### The control writes that SU takes (R68–R70) -/

theorem State.setFlags_frame (s : State) (v : BitVec 17) : ChangesOnly [.flags] s { s with flags := v } := by
  intro g hg
  cases g <;> first | exact absurd (by decide) hg | rfl

theorem execUnknownRequest_cases (s : State) : execUnknownRequest s = .next s ∨
    ∃ x, AtHead s x ∧ execUnknownRequest s = .next { s.takeHead with outcome := .unknown } := by
  unfold execUnknownRequest
  rcases s.headWrite_cases with e | ⟨x, e, ha⟩ <;> rw [e]
  · exact .inl rfl
  · dsimp only
    split
    · exact .inr ⟨x, ha, rfl⟩
    · exact .inl rfl

theorem execAcknowledge_cases (s : State) : execAcknowledge s = .next s ∨
    ∃ x, AtHead s x ∧
      execAcknowledge s = .next { s.takeHead with flags := s.flags &&& ~~~ ackNamed x.data x.be } := by
  unfold execAcknowledge
  rcases s.headWrite_cases with e | ⟨x, e, ha⟩ <;> rw [e]
  · exact .inl rfl
  · dsimp only
    split
    · exact .inr ⟨x, ha, rfl⟩
    · exact .inl rfl

theorem execControlWriteDropped_cases (s : State) : execControlWriteDropped s = .next s ∨
    ∃ x, AtHead s x ∧ execControlWriteDropped s = .next s.takeHead := by
  unfold execControlWriteDropped
  rcases s.headWrite_cases with e | ⟨x, e, ha⟩ <;> rw [e]
  · exact .inl rfl
  · dsimp only
    split
    · exact .inr ⟨x, ha, rfl⟩
    · exact .inl rfl

/-! ### The queue (R49, R50, R52) -/

theorem QueueLaw.of_frame (h : QueueLaw s) (f : ChangesOnly l s t) (hq : Item.queue ∉ l := by decide)
    (hr : Item.rst ∉ l := by decide) : QueueLaw t := by
  unfold QueueLaw
  rw [f .queue hq, f .rst hr]
  exact h

/-- The head leaves before a waiting write joins, so the queue does not grow (R49, R50). -/
theorem State.takeHead_queue_length (hx : AtHead s x) : s.takeHead.queue.length ≤ s.queue.length := by
  obtain ⟨-, -, head⟩ := hx
  obtain ⟨rest, hq⟩ := List.head?_eq_some_iff.1 head
  unfold State.takeHead
  split <;> simp [hq]

/-- SU's command on the write at the head leaves the queue no longer than it was. -/
theorem QueueLaw.headTaken (h : QueueLaw s) (hx : AtHead s x) (f : ChangesOnly l s.takeHead t)
    (hq : Item.queue ∉ l := by decide) (hr : Item.rst ∉ l := by decide) : QueueLaw t := by
  obtain ⟨places, -⟩ := h
  have released : s.takeHead.rst = false := (takeHead_frame s .rst (by decide)).trans hx.1
  refine QueueLaw.of_frame ⟨(State.takeHead_queue_length hx).trans places, fun c => ?_⟩ f hq hr
  rw [released] at c
  cases c

/-- A write presented joins a queue with a place, while RST# is released (R49, R177). -/
theorem QueueLaw.presentWrite (h : QueueLaw s) (x : HostWrite) : QueueLaw (s.presentWrite x) := by
  unfold State.presentWrite
  split
  · next room =>
    simp only [Bool.and_eq_true, Bool.not_eq_true'] at room
    obtain ⟨released, place⟩ := room
    refine ⟨?_, fun c => ?_⟩
    · rw [List.length_append]
      exact of_decide_eq_true place
    · rw [show s.rst = true from c] at released
      cases released
  · exact h

/-- The queue is empty when RST# is released, and so has a place for a write that waits (R52, R177). -/
theorem QueueLaw.release (h : QueueLaw s) (hr : s.rst = true) (straps : BitVec 2) :
    QueueLaw (s.release straps) := by
  have empty : s.queue = [] := h.2 hr
  unfold State.release
  split
  · exact ⟨by simp [empty], nofun⟩
  · exact ⟨by simp [empty], nofun⟩

theorem QueueLaw.exec (h : QueueLaw s) {c : Instr} (e : exec c s = .next t) : QueueLaw t := by
  cases c with
  | hostWritePresented adr be data =>
    change execHostWritePresented adr be data s = .next t at e
    unfold execHostWritePresented at e
    split at e <;> cases e
    · exact h.presentWrite _
    · exact h
  | hostReadPresented => exact h.of_frame (execHostReadPresented_frame e)
  | passThroughWrite =>
    rcases execPassThroughWrite_cases s with c | ⟨x, hx, -, c⟩ <;> cases c.symm.trans e
    · exact h
    · exact h.headTaken hx (handWrite_frame _ _ _ _)
  | payloadWriteSteered =>
    rcases execPayloadWriteSteered_cases s with c | ⟨x, w, i, hx, -, ⟨k, -, c⟩ | ⟨-, c⟩⟩ <;>
      cases c.symm.trans e
    · exact h
    · exact h.headTaken hx (handWrite_frame _ _ _ _)
  | refusedWrite =>
    rcases execRefusedWrite_cases s with c | ⟨x, r, source, hx, -, c⟩ <;> cases c.symm.trans e
    · exact h
    · exact (h.headTaken hx (raise_frame _ _ _ _ _)).of_frame (arrivals_frame _)
  | closeRequest =>
    rcases execCloseRequest_cases s with c | ⟨x, w, hx, -, c⟩ <;> cases c.symm.trans e
    · exact h
    · exact (h.headTaken hx (decideClose_frame _ _ _)).of_frame (arrivals_frame _)
  | start =>
    rcases execStart_cases s with c | ⟨x, hx, -, c⟩ <;> cases c.symm.trans e
    · exact h
    · exact (h.headTaken hx (start_frame _)).of_frame (arrivals_frame _)
  | stop =>
    rcases execStop_cases s with c | ⟨x, hx, -, c⟩ <;> cases c.symm.trans e
    · exact h
    · exact (h.headTaken hx (stop_frame _)).of_frame (arrivals_frame _)
  | unknownRequest =>
    rcases execUnknownRequest_cases s with c | ⟨x, hx, c⟩ <;> cases c.symm.trans e
    · exact h
    · exact h.headTaken hx (s.takeHead.outcome_frame .unknown)
  | acknowledge =>
    rcases execAcknowledge_cases s with c | ⟨x, hx, c⟩ <;> cases c.symm.trans e
    · exact h
    · exact h.headTaken hx (s.takeHead.setFlags_frame _)
  | controlWriteDropped =>
    rcases execControlWriteDropped_cases s with c | ⟨x, hx, c⟩ <;> cases c.symm.trans e
    · exact h
    · exact h.headTaken hx (.refl [] s.takeHead)
  | hostReadTaken => exact h.of_frame (execHostReadTaken_frame e)
  | headWordReadViewMove => exact h.of_frame (execHeadWordReadViewMove_frame e)
  | hostAccessPerformed => exact h.of_frame (execHostAccessPerformed_frame e)
  | laneFetchPerformed => exact h.of_frame (execLaneFetchPerformed_frame e)
  | inboundWritePerformed => exact h.of_frame (execInboundWritePerformed_frame e)
  | copyReadPerformed => exact h.of_frame (execCopyReadPerformed_frame e)
  | copyWritePerformed => exact h.of_frame (execCopyWritePerformed_frame e)
  | loadReadPerformed => exact h.of_frame (execLoadReadPerformed_frame e)
  | journalWordPerformed => exact h.of_frame (execJournalWordPerformed_frame e)
  | timerExpiry => exact h.of_frame (execTimerExpiry_frame e)
  | startInstantReached => exact h.of_frame (execStartInstantReached_frame e)
  | masterScheduledStart => exact h.of_frame (execMasterScheduledStart_frame e)
  | outboundActiveEdge => exact h.of_frame (execOutboundActiveEdge_frame e)
  | flywheelStart => exact h.of_frame (execFlywheelStart_frame e)
  | slotBegin => exact h.of_frame (execSlotBegin_frame e)
  | frameEnd => exact h.of_frame (execFrameEnd_frame e)
  | inboundActiveEdge => exact h.of_frame (execInboundActiveEdge_frame e)
  | inboundH0Received => exact h.of_frame (execInboundH0Received_frame e)
  | inboundH1Received => exact h.of_frame (execInboundH1Received_frame e)
  | inboundDataSlotReceived => exact h.of_frame (execInboundDataSlotReceived_frame e)
  | inboundCrcSlotReceived => exact h.of_frame (execInboundCrcSlotReceived_frame e)
  | resetPin =>
    change execResetPin s = .next t at e
    unfold execResetPin at e
    split at e <;> cases e
    · exact h
    · exact ⟨Nat.zero_le _, fun _ => rfl⟩
  | resetRelease straps =>
    change execResetRelease straps s = .next t at e
    unfold execResetRelease at e
    split at e
    · next asserted => cases e; exact h.release asserted straps
    · cases e; exact h
  | timeBaseTick => exact h.of_frame (execTimeBaseTick_frame e)

end

/-- Settles O54: the queue and the journal's ranges, kept by every command. -/
theorem everyStepKeepsTheQueueAndJournalLaws : Obligations.EveryStepKeepsTheQueueAndJournalLaws := by
  unfold Obligations.EveryStepKeepsTheQueueAndJournalLaws
  exact ⟨fun s _ h e => step_keeps h (fun p h => h.of_frame (s.pending_frame p)) id (fun _ _ h e => h.exec e) e,
    fun s _ h e => step_keeps h (fun p h => h.of_frame (s.pending_frame p)) id (fun _ _ h e => h.exec e) e⟩

end Sys2Proof.Machine

/-! Transfers presented at the host port, passed through, or refused (chapter 3): O2, O3, O5. -/

namespace Sys2Proof.Machine

section
variable {s : State} {x : HostWrite} {a : HostAdr} {be : Enables}

/-! ### The host port (R49, R51, R177) -/

theorem State.hrdy_iff (s : State) : s.hrdy = true ↔
    s.waiting = none ∧ ∀ (cur : ReadPart) (rest : List ReadPart) (acc : Word), s.su ≠ .reading cur rest acc := by
  unfold State.hrdy
  rw [Bool.and_eq_true, Option.isNone_iff_eq_none]
  refine and_congr_right fun _ => ?_
  split
  · next cur rest acc h => exact iff_of_false nofun fun free => free cur rest acc h
  · next notReading => exact iff_of_true rfl notReading

/-- The byte address of a well-formed command, whose two low bits are 0 (log 12). -/
theorem hostAdr_byte {adr : BitVec 21} (h : adr.toNat % 4 = 0) : HostAdr.byte (hostAdr adr) = adr.toNat := by
  have bound := adr.isLt
  unfold HostAdr.byte hostAdr
  rw [BitVec.extractLsb'_toNat, Nat.shiftRight_eq_div_pow]
  omega

theorem exec_hostWritePresented (h : s.hrdy = true) (adr : BitVec 21) (be : Enables) (data : Word) :
    exec (.hostWritePresented adr be data) s =
      .next (s.presentWrite { adr := hostAdr adr, be := be, data := data }) := by
  have e : exec (.hostWritePresented adr be data) s = execHostWritePresented adr be data s := rfl
  rw [e, execHostWritePresented, if_pos h]

theorem State.presentWrite_joins (hr : s.rst = false) (hq : s.queue.length < 4) :
    s.presentWrite x = { s with queue := s.queue ++ [x] } := by
  unfold State.presentWrite
  rw [if_pos (by simp [hr, hq, Config.queuePlaces])]

theorem State.presentWrite_waits (h : s.rst = true ∨ 4 ≤ s.queue.length) :
    s.presentWrite x = { s with waiting := some (.write x) } := by
  unfold State.presentWrite
  refine if_neg fun room => ?_
  simp only [Bool.and_eq_true, Bool.not_eq_true'] at room
  obtain ⟨released, place⟩ := room
  have place : s.queue.length < 4 := of_decide_eq_true place
  rcases h with asserted | full
  · rw [asserted] at released
    cases released
  · omega

theorem exec_hostReadPresented (h : s.hrdy = true) (adr : BitVec 21) (be : Enables) :
    exec (.hostReadPresented adr be) s = .next { s with waiting := some (.read (hostAdr adr) be) } := by
  have e : exec (.hostReadPresented adr be) s = execHostReadPresented adr be s := rfl
  rw [e, execHostReadPresented, if_pos h]

/-! ### Pass-through (R53, R56–R58) -/

theorem State.controlWord_none_iff (s : State) (a : HostAdr) : s.controlWord a = none ↔
    HostAdr.byte a < s.base ∨ s.base + 0xFF < HostAdr.byte a := by
  unfold State.controlWord within
  split
  · next inside =>
    simp only [Bool.and_eq_true, decide_eq_true_eq] at inside
    exact iff_of_false nofun (by omega)
  · next outside =>
    simp only [Bool.and_eq_true, decide_eq_true_eq, not_and] at outside
    exact iff_of_true rfl (by omega)

theorem State.steering_eq_false (h : s.dev = .setup ∨ s.dev = .loading) : s.steering = false := by
  unfold State.steering
  rcases h with h | h <;> rw [h] <;> rfl

theorem State.treatment_of_not_steering (hs : s.steering = false) (hc : s.controlWord x.adr = none) :
    s.treatment x = .passThrough := by
  unfold State.treatment
  simp only [hc, hs, Bool.false_eq_true, if_false]

/-- A read outside the control area and outside the windows reads memory at its own address. -/
theorem State.readAnswer_plain (hc : s.controlWord a = none) (h : s.steering = false ∨ s.windowAt a = none) :
    s.readAnswer a be = .memory { adr := physical a, be := be, keep := 0xF } [] := by
  unfold State.readAnswer
  rw [hc]
  dsimp only
  split
  · next steering window =>
    rcases h with h | h
    · rw [steering] at h
      cases h
    · rw [window] at h
      cases h
  · rfl

theorem physical_byte (a : HostAdr) : MemAdr.byte (physical a) = HostAdr.byte a := by
  unfold MemAdr.byte physical HostAdr.byte
  rw [BitVec.toNat_setWidth_of_le (by decide)]

theorem HostAdr.byte_lt (a : HostAdr) : HostAdr.byte a < 0x200000 := by
  have bound := a.isLt
  unfold HostAdr.byte
  omega

theorem exec_passThroughWrite (hx : AtHead s x) (ht : s.treatment x = .passThrough) :
    exec .passThroughWrite s = .next (s.takeHead.handWrite x (physical x.adr) none) := by
  have e : exec .passThroughWrite s = execPassThroughWrite s := rfl
  rw [e, execPassThroughWrite, hx.headWrite]
  exact if_pos ht

/-! ### Refusal (R66) -/

theorem exec_refusedWrite {r : RefusalReason} {source : Option Nat} (hx : AtHead s x)
    (ht : s.treatment x = .refused r source) : exec .refusedWrite s =
      .next (s.takeHead.raise .writeRefused source (num (HostAdr.byte x.adr)) (num r.code)).arrivals := by
  have e : exec .refusedWrite s = execRefusedWrite s := rfl
  rw [e, execRefusedWrite, hx.headWrite]
  simp only [ht]

/-- The head leaves the queue and one event is raised: nothing else is done but JW's request for its entry. -/
theorem State.takeHead_raise (hn : NoGrantDue s) {k : Kind} (hk : k ≠ .commit) (source : Option Nat) (d1 d2 : Word) :
    HeadTaken s (s.takeHead.raise k source d1 d2).arrivals ∧
      ReportedAlone s (s.takeHead.raise k source d1 d2).arrivals k source d1 d2 ∧
      ChangesOnly [.queue, .waiting, .flags, .journal, .requests, .port] s
        (s.takeHead.raise k source d1 d2).arrivals := by
  have fh := takeHead_frame s
  have taken := s.takeHead_taken
  generalize s.takeHead = u at *
  have fr := raise_frame u k source d1 d2
  have fa := arrivals_frame (u.raise k source d1 d2)
  have journal := fh .journal (by decide)
  have header := fh .header (by decide)
  have time := fh .timeBase (by decide)
  have port := fh .port (by decide)
  have requests := fh .requests (by decide)
  have reported := (State.raise_reported (fh .flags (by decide)) journal header time hk source d1 d2).of_eq
    (fa .flags (by decide)) (fa .journal (by decide))
  have asks : OnlyRequestsOf .host s (u.raise k source d1 d2) :=
    (OnlyRequestsOf.of_eq requests port).trans (u.raise_onlyRequestsOf _ _ _ _ _)
  have free : (u.raise k source d1 d2).port = none → s.port = none := fun e =>
    port.symm.trans ((fr .port (by decide)).symm.trans e)
  refine ⟨?_, ⟨reported, State.raise_onlyJournalRequests hn journal header time port requests _ _ _ _⟩, ?_⟩
  · exact taken.of_eq ((fa .queue (by decide)).trans (fr .queue (by decide)))
      ((fa .waiting (by decide)).trans (fr .waiting (by decide)))
  · exact (State.arrivals_frame_of (q := .host) (l := [.queue, .waiting, .flags, .journal, .requests]) hn nofun asks
      free (fh.andThen fr) (by decide)).mono (by decide)

end

/-- Settles O2: HRDY by its two conditions, and the port by the places of the queue. -/
theorem presentedTransferJoinsOrWaits : Obligations.PresentedTransferJoinsOrWaits := by
  unfold Obligations.PresentedTransferJoinsOrWaits
  refine ⟨State.hrdy_iff, fun s adr be data ready => ?_⟩
  rw [exec_hostWritePresented ready]
  exact ⟨fun ⟨released, place⟩ => by rw [State.presentWrite_joins released place],
    fun held => by rw [State.presentWrite_waits held], exec_hostReadPresented ready adr be, hostAdr_byte⟩

/-- Settles O3: no window is classified before RUN, and a transfer that passes through is handed to the
arbiter as it is. -/
theorem passThroughReachesMemoryAtItsOwnAddress : Obligations.PassThroughReachesMemoryAtItsOwnAddress := by
  unfold Obligations.PassThroughReachesMemoryAtItsOwnAddress
  refine ⟨fun s x a be idle => ?_, fun s x hx hn ht => ?_, fun s a be ha hn hc plain => ?_⟩
  · have notSteering := State.steering_eq_false idle
    exact ⟨State.treatment_of_not_steering notSteering, fun hc => State.readAnswer_plain hc (.inl notSteering),
      physical_byte a, HostAdr.byte_lt a, s.controlWord_none_iff a⟩
  · exact ⟨_, exec_passThroughWrite hx ht, State.takeHead_handWrite hn x _ _⟩
  · have outside : s.steering = false ∨ s.windowAt a = none :=
      (or_assoc.2 plain).imp_left State.steering_eq_false
    obtain ⟨t, e, su, waiting, requested, f⟩ := exec_hostReadTaken_memory ha hn (State.readAnswer_plain hc outside)
    exact ⟨t, e, waiting, su, requested, f⟩

/-- Settles O5: the head leaves the queue and WRITE_REFUSED is raised. -/
theorem refusedWriteIsDroppedAndReported : Obligations.RefusedWriteIsDroppedAndReported := by
  unfold Obligations.RefusedWriteIsDroppedAndReported
  intro s x r source hx hn ht
  exact ⟨_, exec_refusedWrite hx ht, State.takeHead_raise hn (by decide) _ _ _⟩

end Sys2Proof.Machine

/-! Requests and acknowledges written to the control area (chapters 3, 9, 10), and the reset pin (R177): O11,
O14, O15, O16, O51. -/

namespace Sys2Proof.Machine

section
variable {s : State} {x : HostWrite}

/-! ### START (R68, R166, R167) -/

theorem exec_start (hx : AtHead s x) (hc : s.controlWord x.adr = some 0) (hb : x.be = 0xF) (hv : x.data = 1) :
    exec .start s = .next s.takeHead.start.arrivals := by
  have ht : s.treatment x = .start := by
    rw [State.treatment_of_controlWord hc, if_pos rfl]
    unfold requestOf
    simp [hb, hv]
  have e : exec .start s = execStart s := rfl
  rw [e, execStart, hx.headWrite]
  exact if_pos ht

/-- The load's request for an image word (R168). -/
def State.imageRead (s : State) (j : Nat) : Request :=
  { who := .load, write := false, adr := memAdr (s.base + 0x100 + 4 * j), be := 0xF, data := 0, urgent := false }

theorem State.start_setup (h : s.dev = .setup) : s.start = s.loadBegun.join (s.imageRead 0) := by
  unfold State.start
  exact if_pos h

theorem State.start_refused (h : s.dev ≠ .setup) : s.start = { s with outcome := .refused } := by
  unfold State.start
  exact if_neg h

/-- A START taken in SETUP begins a load (R167, R168). -/
theorem State.takeHead_start_setup (hn : NoGrantDue s) (hd : s.dev = .setup) :
    s.takeHead.start.arrivals.outcome = .done ∧ s.takeHead.start.arrivals.dev = .loading ∧
      s.takeHead.start.arrivals.load = some LoadJob.fresh ∧
      Requested s s.takeHead.start.arrivals (s.imageRead 0) ∧
      ChangesOnly [.queue, .waiting, .outcome, .dev, .load, .requests, .port] s s.takeHead.start.arrivals := by
  have fh := takeHead_frame s
  have image : s.takeHead.imageRead 0 = s.imageRead 0 := by
    unfold State.imageRead State.base
    rw [fh .straps (by decide)]
  rw [State.start_setup ((fh .dev (by decide)).trans hd), image]
  have port : s.takeHead.loadBegun.port = s.port := fh .port (by decide)
  have requests : s.takeHead.loadBegun.requests = s.requests := fh .requests (by decide)
  have fu : ChangesOnly [.queue, .waiting, .outcome, .dev, .load] s s.takeHead.loadBegun := by
    refine fh.andThen (l' := [.outcome, .dev, .load]) fun g hg => ?_
    cases g <;> first | exact absurd (by decide) hg | rfl
  have outcome : s.takeHead.loadBegun.outcome = .done := rfl
  have dev : s.takeHead.loadBegun.dev = .loading := rfl
  have load : s.takeHead.loadBegun.load = some LoadJob.fresh := rfl
  generalize s.takeHead.loadBegun = u at *
  have fj := join_frame u (s.imageRead 0)
  have fa : ChangesOnly [.requests, .port, .copyPtr] u (u.join (s.imageRead 0)).arrivals :=
    fj.andThen (arrivals_frame _)
  have asks : OnlyRequestsOf .load s (u.join (s.imageRead 0)) :=
    (OnlyRequestsOf.of_eq requests port).trans (u.join_onlyRequestsOf (.inl rfl))
  exact ⟨(fa .outcome (by decide)).trans outcome, (fa .dev (by decide)).trans dev,
    (fa .load (by decide)).trans load,
    (State.requested_join (hn.of_eq port requests) _).of_eq port requests,
    (State.arrivals_frame_of (q := .load) (l := [.queue, .waiting, .outcome, .dev, .load, .requests]) hn nofun asks
      (fun e => port.symm.trans e) (fu.andThen fj) (by decide)).mono (by decide)⟩

/-- A START taken elsewhere is REFUSED (R166). -/
theorem State.takeHead_start_refused (hn : NoGrantDue s) (hd : s.dev ≠ .setup) :
    s.takeHead.start.arrivals = { s.takeHead with outcome := .refused } := by
  have dev : s.takeHead.dev = s.dev := takeHead_frame s .dev (by decide)
  rw [State.start_refused (by rwa [dev])]
  have due : NoGrantDue { s.takeHead with outcome := .refused } := hn.takeHead
  exact State.arrivals_of_noGrantDue due

/-! ### The other control writes (R68–R70) -/

theorem State.takeHead_outcome_only (s : State) (o : ReqOutcome) :
    ChangesOnly [.queue, .waiting, .outcome] s { s.takeHead with outcome := o } := by
  refine (takeHead_frame s).andThen (l' := [.outcome]) fun g hg => ?_
  cases g <;> first | exact absurd (by decide) hg | rfl

theorem exec_unknownRequest (hx : AtHead s x) (ht : s.treatment x = .unknown) :
    exec .unknownRequest s = .next { s.takeHead with outcome := .unknown } := by
  have e : exec .unknownRequest s = execUnknownRequest s := rfl
  rw [e, execUnknownRequest, hx.headWrite]
  exact if_pos ht

theorem requestOf_unknown (h : x.be ≠ 0xF ∨ x.data ≠ 1 ∧ x.data ≠ 2) : requestOf x = .unknown := by
  unfold requestOf
  rcases h with enables | ⟨start, stop⟩
  · exact if_pos enables
  · rw [if_neg start, if_neg stop, ite_self]

theorem exec_acknowledge (hx : AtHead s x) (ht : s.treatment x = .acknowledge) : exec .acknowledge s =
    .next { s.takeHead with flags := s.flags &&& ~~~ ackNamed x.data x.be } := by
  have e : exec .acknowledge s = execAcknowledge s := rfl
  rw [e, execAcknowledge, hx.headWrite]
  exact if_pos ht

/-- A bit of a word is a bit of one of its bytes. -/
theorem getLsbD_eq_byteOf (v : Word) (k : Nat) : v.getLsbD k = (byteOf v (k / 8)).getLsbD (k % 8) := by
  unfold byteOf
  rw [BitVec.getLsbD_extractLsb', Nat.div_add_mod]
  simp [Nat.mod_lt]

theorem mergeBytes_getLsbD (old new : Word) (keep : Enables) {k : Nat} (hk : k < 32) :
    (mergeBytes old new keep).getLsbD k = if keep.getLsbD (k / 8) then new.getLsbD k else old.getLsbD k := by
  rw [getLsbD_eq_byteOf, byteOf_mergeBytes _ _ _ _ (by omega), getLsbD_eq_byteOf new, getLsbD_eq_byteOf old]
  split <;> rfl

/-- An acknowledge names the positions that carry a 1 in a byte whose enable is set (R69). -/
theorem ackNamed_getLsbD (data : Word) (be : Enables) {k : Nat} (hk : k < 17) :
    (ackNamed data be).getLsbD k = (data.getLsbD k && be.getLsbD (k / 8)) := by
  unfold ackNamed
  rw [BitVec.getLsbD_extractLsb', Nat.zero_add, mergeBytes_getLsbD _ _ _ (by omega)]
  cases be.getLsbD (k / 8) <;> simp [hk]

theorem exec_controlWriteDropped (hx : AtHead s x) (ht : s.treatment x = .dropped) :
    exec .controlWriteDropped s = .next s.takeHead := by
  have e : exec .controlWriteDropped s = execControlWriteDropped s := rfl
  rw [e, execControlWriteDropped, hx.headWrite]
  exact if_pos ht

/-! ### The reset pin (R52, R85, R163, R177) -/

theorem exec_resetPin (h : s.rst = false) : exec .resetPin s = .next s.pinReset := by
  have e : exec .resetPin s = execResetPin s := rfl
  rw [e, execResetPin, h]
  rfl

/-- Cue memory takes a write in progress, and no read (R85, log 7). -/
theorem State.pinReset_mem_read (h : ∀ a, s.port = some a → a.req.write = false) : s.pinReset.mem = s.mem := by
  unfold State.pinReset
  cases hp : s.port with
  | none => rfl
  | some a => exact if_neg (by rw [h a hp]; nofun)

theorem State.pinReset_mem_write {a : Access} (hp : s.port = some a) (hw : a.req.write = true) :
    s.pinReset.mem = s.mem.writeWord a.req.adr a.req.be a.req.data := by
  unfold State.pinReset
  rw [hp]
  exact if_pos hw

theorem exec_resetRelease (h : s.rst = true) (straps : BitVec 2) :
    exec (.resetRelease straps) s = .next (s.release straps) := by
  have e : exec (.resetRelease straps) s = execResetRelease straps s := rfl
  rw [e, execResetRelease, if_pos h]

theorem Config.profileBase_eq (straps : BitVec 2) : Config.profileBase straps = straps.toNat * 0x80000 := by
  revert straps
  decide

/-- A write presented while RST# was asserted joins the queue at the release (R177). -/
theorem State.release_write {straps : BitVec 2} (hw : s.waiting = some (.write x)) : s.release straps =
    { s with rst := false, straps := straps, timeBase := 0, queue := s.queue ++ [x], waiting := none } := by
  unfold State.release
  rw [hw]

theorem State.release_other {straps : BitVec 2} (hw : ∀ x, s.waiting ≠ some (.write x)) : s.release straps =
    { s with rst := false, straps := straps, timeBase := 0 } := by
  unfold State.release
  split
  · next x e => exact absurd e (hw x)
  · rfl

/-- The release samples the straps and sets the time base, whatever waits at the port (R163, R176). -/
theorem State.release_sampled (s : State) (straps : BitVec 2) : (s.release straps).rst = false ∧
    (s.release straps).straps = straps ∧ (s.release straps).timeBase = 0 := by
  unfold State.release
  split <;> exact ⟨rfl, rfl, rfl⟩

end

/-- Settles O11: in SETUP the load job and its first request; elsewhere the outcome alone. -/
theorem startBeginsALoadInSetupOnly : Obligations.StartBeginsALoadInSetupOnly := by
  unfold Obligations.StartBeginsALoadInSetupOnly
  intro s x hx hn hc hb hv
  have f : ChangesOnly [.outcome, .dev, .load, .requests, .port, .copyPtr] s.takeHead s.takeHead.start.arrivals :=
    (start_frame s.takeHead).andThen (arrivals_frame _)
  refine ⟨_, exec_start hx hc hb hv, s.takeHead_taken.of_eq (f .queue (by decide)) (f .waiting (by decide)),
    State.takeHead_start_setup hn, fun hd => ?_⟩
  rw [State.takeHead_start_refused hn hd]
  exact ⟨rfl, s.takeHead_outcome_only .refused⟩

/-- Settles O14: the treatment is UNKNOWN, and the outcome is recorded. -/
theorem unknownRequestIsRecorded : Obligations.UnknownRequestIsRecorded := by
  unfold Obligations.UnknownRequestIsRecorded
  intro s x hx hc other
  have ht : s.treatment x = .unknown := by
    rw [State.treatment_of_controlWord hc, if_pos rfl, requestOf_unknown other]
  exact ⟨_, exec_unknownRequest hx ht, s.takeHead_taken.of_eq rfl rfl, rfl, s.takeHead_outcome_only .unknown⟩

/-- Settles O15: the flags kept are those not named, bit by bit. -/
theorem acknowledgeClearsTheNamedFlags : Obligations.AcknowledgeClearsTheNamedFlags := by
  unfold Obligations.AcknowledgeClearsTheNamedFlags
  intro s x hx hc
  have ht : s.treatment x = .acknowledge := State.treatment_of_controlWord hc
  refine ⟨_, exec_acknowledge hx ht, s.takeHead_taken.of_eq rfl rfl, fun k hk => ?_,
    (takeHead_frame s).andThen (s.takeHead.setFlags_frame _)⟩
  rw [BitVec.getLsbD_and, BitVec.getLsbD_not, ackNamed_getLsbD _ _ hk]
  simp [hk]

/-- Settles O16: the head leaves the queue, and that is all. -/
theorem otherControlWriteIsDropped : Obligations.OtherControlWriteIsDropped := by
  unfold Obligations.OtherControlWriteIsDropped
  intro s x j hx hc hj
  have ht : s.treatment x = .dropped := by
    rw [State.treatment_of_controlWord hc, if_neg (by omega), if_neg (by omega)]
  exact ⟨_, exec_controlWriteDropped hx ht, s.takeHead_taken, takeHead_frame s⟩

/-- Settles O51: the reset state with what the pin keeps, and the release by what waits at the port. -/
theorem resetPinAndRelease : Obligations.ResetPinAndRelease := by
  unfold Obligations.ResetPinAndRelease
  refine ⟨fun s released => ⟨_, exec_resetPin released, rfl, State.pinReset_mem_read,
    fun a => State.pinReset_mem_write, fun held => if_pos held⟩, fun s straps asserted => ?_⟩
  have e := exec_resetRelease asserted straps
  obtain ⟨rst, sampled, time⟩ := s.release_sampled straps
  refine ⟨_, e, rst, sampled, time, ?_, fun x hw => ?_, fun hw => ?_, execResetRelease_frame e⟩
  · rw [State.base, sampled, Config.profileBase_eq]
  · rw [State.release_write hw]
    exact ⟨rfl, rfl⟩
  · rw [State.release_other hw]
    exact ⟨rfl, rfl⟩

end Sys2Proof.Machine

/-! Cue memory over every command (R73, R177): O53. -/

namespace Sys2Proof.Machine

section
variable {s t : State}

/-! ### What a command leaves of cue memory (R73, R85) -/

theorem performs_hostAccess (r : Request) : performs .hostAccessPerformed r = (r.who == .host) := by
  unfold performs
  cases r.who <;> rfl

theorem performs_laneFetch (r : Request) : performs .laneFetchPerformed r = r.isLaneFetch := by
  unfold performs Request.isLaneFetch
  cases r.who <;> rfl

theorem performs_inboundWrite (r : Request) : performs .inboundWritePerformed r = r.isInbound := by
  unfold performs Request.isInbound
  cases r.who <;> rfl

theorem performs_copyRead (r : Request) : performs .copyReadPerformed r = r.isCopy false := by
  unfold performs Request.isCopy
  cases r.who <;> simp

theorem performs_copyWrite (r : Request) : performs .copyWritePerformed r = r.isCopy true := by
  unfold performs Request.isCopy
  cases r.who <;> simp

theorem performs_loadRead (r : Request) : performs .loadReadPerformed r = (r.who == .load) := by
  unfold performs
  cases r.who <;> rfl

theorem performs_journalWord (r : Request) : performs .journalWordPerformed r = (r.who == .journal) := by
  unfold performs
  cases r.who <;> rfl

/-- A command leaves cue memory, or the access in progress at the port has been performed: by its performance
step, or in the event of the reset pin (R85, log 7). -/
theorem exec_mem {c : Instr} (h : exec c s = .next t) : t.mem = s.mem ∨
    ∃ a, s.port = some a ∧ t.mem = s.mem.perform a.req ∧ (performs c a.req = true ∨ c = .resetPin) := by
  have performed : ∀ about : Request → Bool, (∀ r, performs c r = about r) →
      (t.mem = s.mem ∨ ∃ a, s.port = some a ∧ about a.req = true ∧ t.mem = s.mem.perform a.req) →
      t.mem = s.mem ∨
        ∃ a, s.port = some a ∧ t.mem = s.mem.perform a.req ∧ (performs c a.req = true ∨ c = .resetPin) :=
    fun _ same done => done.imp_right fun ⟨a, hp, ha, e⟩ => ⟨a, hp, e, .inl ((same _).trans ha)⟩
  cases c with
  | resetPin =>
    change execResetPin s = .next t at h
    unfold execResetPin at h
    split at h <;> cases h
    · exact .inl rfl
    · unfold State.pinReset
      cases hp : s.port with
      | none => exact .inl rfl
      | some a => exact .inr ⟨a, rfl, rfl, .inr rfl⟩
  | hostAccessPerformed =>
    change execHostAccessPerformed s = .next t at h
    exact performed (fun r => r.who == .host) performs_hostAccess
      (State.performance_mem (by decide) (fun r u => hostWord_frame u r) (fun _ u => .refl _ u) h)
  | laneFetchPerformed =>
    change execLaneFetchPerformed s = .next t at h
    exact performed Request.isLaneFetch performs_laneFetch
      (State.performance_mem (by decide) (fun r u => laneReact_frame r false u) (fun r u => laneReact_frame r true u) h)
  | inboundWritePerformed =>
    change execInboundWritePerformed s = .next t at h
    exact performed Request.isInbound performs_inboundWrite
      (State.performance_mem (by decide) (fun r u => inboundReact_frame r u) (fun _ u => .refl _ u) h)
  | copyReadPerformed =>
    change execCopyReadPerformed s = .next t at h
    exact performed (Request.isCopy · false) performs_copyRead
      (State.performance_mem (by decide) (fun r u => copyReadReact_frame r u) (fun _ u => .refl _ u) h)
  | copyWritePerformed =>
    change execCopyWritePerformed s = .next t at h
    exact performed (Request.isCopy · true) performs_copyWrite
      (State.performance_mem (by decide) (fun r u => copyWriteReact_frame r u) (fun _ u => .refl _ u) h)
  | loadReadPerformed =>
    change execLoadReadPerformed s = .next t at h
    exact performed (fun r => r.who == .load) performs_loadRead
      (State.performance_mem (by decide) (fun _ u => loadWord_frame u _) (fun _ u => .refl _ u) h)
  | journalWordPerformed =>
    change execJournalWordPerformed s = .next t at h
    exact performed (fun r => r.who == .journal) performs_journalWord
      (State.performance_mem (by decide) (fun _ u => journalWord_frame u) (fun _ u => .refl _ u) h)
  | hostWritePresented => exact .inl (execHostWritePresented_frame h .mem (by decide))
  | hostReadPresented => exact .inl (execHostReadPresented_frame h .mem (by decide))
  | passThroughWrite => exact .inl (execPassThroughWrite_frame h .mem (by decide))
  | payloadWriteSteered => exact .inl (execPayloadWriteSteered_frame h .mem (by decide))
  | refusedWrite => exact .inl (execRefusedWrite_frame h .mem (by decide))
  | closeRequest => exact .inl (execCloseRequest_frame h .mem (by decide))
  | start => exact .inl (execStart_frame h .mem (by decide))
  | stop => exact .inl (execStop_frame h .mem (by decide))
  | unknownRequest => exact .inl (execUnknownRequest_frame h .mem (by decide))
  | acknowledge => exact .inl (execAcknowledge_frame h .mem (by decide))
  | controlWriteDropped => exact .inl (execControlWriteDropped_frame h .mem (by decide))
  | hostReadTaken => exact .inl (execHostReadTaken_frame h .mem (by decide))
  | headWordReadViewMove => exact .inl (execHeadWordReadViewMove_frame h .mem (by decide))
  | timerExpiry => exact .inl (execTimerExpiry_frame h .mem (by decide))
  | startInstantReached => exact .inl (execStartInstantReached_frame h .mem (by decide))
  | masterScheduledStart => exact .inl (execMasterScheduledStart_frame h .mem (by decide))
  | outboundActiveEdge => exact .inl (execOutboundActiveEdge_frame h .mem (by decide))
  | flywheelStart => exact .inl (execFlywheelStart_frame h .mem (by decide))
  | slotBegin => exact .inl (execSlotBegin_frame h .mem (by decide))
  | frameEnd => exact .inl (execFrameEnd_frame h .mem (by decide))
  | inboundActiveEdge => exact .inl (execInboundActiveEdge_frame h .mem (by decide))
  | inboundH0Received => exact .inl (execInboundH0Received_frame h .mem (by decide))
  | inboundH1Received => exact .inl (execInboundH1Received_frame h .mem (by decide))
  | inboundDataSlotReceived => exact .inl (execInboundDataSlotReceived_frame h .mem (by decide))
  | inboundCrcSlotReceived => exact .inl (execInboundCrcSlotReceived_frame h .mem (by decide))
  | resetRelease => exact .inl (execResetRelease_frame h .mem (by decide))
  | timeBaseTick => exact .inl (execTimeBaseTick_frame h .mem (by decide))

theorem MemoryLaw.exec (h : MemoryLaw s) {c : Instr} (e : exec c s = .next t) : MemoryLaw t := by
  unfold MemoryLaw
  rcases exec_mem e with same | ⟨a, -, performed, -⟩
  · rw [same]
    exact h
  · rw [performed]
    exact Memory.wf_perform _ _ h

end

/-- Settles O53: a command performs the access in progress, or leaves cue memory. -/
theorem everyStepKeepsCueMemory : Obligations.EveryStepKeepsCueMemory := by
  unfold Obligations.EveryStepKeepsCueMemory
  refine ⟨fun s _ h e => step_keeps h (fun _ h => h) id (fun _ _ h e => h.exec e) e, fun c s t hc hr e => ?_⟩
  rcases exec_mem e with same | ⟨a, -, -, performed | reset⟩
  · exact same
  · rw [hc] at performed
    cases performed
  · exact absurd reset hr

end Sys2Proof.Machine

/-! The request that MA grants: its order, its place and the copy pointer (R76, R77): O32. -/

namespace Sys2Proof.Machine

section
variable {s : State} {r q : Request}

/-! ### Orders and places (R76, R77, R79) -/

theorem State.orderOf_outLane {x : Fin 6} (h : r.who = .outLane x) : s.orderOf r = if r.urgent = true then 1 else 5 := by
  unfold State.orderOf
  rw [h]

theorem State.orderOf_inLane {y : Fin 2} (h : r.who = .inLane y) :
    s.orderOf r = if 8 ≤ (s.inl y).halves.length then 2 else 4 := by
  unfold State.orderOf
  rw [h]
  rfl

theorem State.orderOf_copyJob {w : Fin 16} (h : r.who = .copyJob w) : s.orderOf r = 6 := by
  unfold State.orderOf
  rw [h]

/-- The requesters of which there is one have an order of their own (R76). -/
theorem State.orderOf_single : (r.who = .host → s.orderOf r = 3) ∧ (r.who = .load → s.orderOf r = 7) ∧
    (r.who = .journal → s.orderOf r = 8) := by
  unfold State.orderOf
  refine ⟨fun h => ?_, fun h => ?_, fun h => ?_⟩ <;> rw [h]

theorem State.placeOf_outLane {x : Fin 6} (h : r.who = .outLane x) : s.placeOf r = x.val := by
  unfold State.placeOf
  rw [h]

theorem State.placeOf_inLane {y : Fin 2} (h : r.who = .inLane y) : s.placeOf r = y.val := by
  unfold State.placeOf
  rw [h]

theorem State.placeOf_copyJob {w : Fin 16} (h : r.who = .copyJob w) :
    s.placeOf r = (w.val + 16 - s.copyPtr.val) % 16 := by
  unfold State.placeOf
  rw [h]

theorem State.placeOf_lt (s : State) (r : Request) : s.placeOf r < 16 := by
  unfold State.placeOf
  split <;> omega

/-- The rank compares orders first, and places within an order. -/
theorem State.rank_le (h : s.rank r ≤ s.rank q) :
    s.orderOf r < s.orderOf q ∨ s.orderOf r = s.orderOf q ∧ s.placeOf r ≤ s.placeOf q := by
  have place := s.placeOf_lt q
  unfold State.rank at h
  omega

/-! ### The copy pointer (R77) -/

/-- The place of a copy-forward job is how far its window is from the copy pointer, around the windows. -/
theorem State.placeOf_fromCopyPtr {w : Fin 16} (h : r.who = .copyJob w) :
    (s.placeOf r + s.copyPtr.val) % 16 = w.val := by
  rw [State.placeOf_copyJob h]
  omega

theorem State.grant_copyPtr_copyJob {w : Fin 16} (h : r.who = .copyJob w) :
    (s.grant r).copyPtr.val = (w.val + 1) % 16 := by
  unfold State.grant
  rw [h]
  rfl

theorem State.grant_copyPtr_other (h : ∀ w, r.who ≠ .copyJob w) : (s.grant r).copyPtr = s.copyPtr := by
  unfold State.grant
  dsimp only
  split
  · next w e => exact absurd e (h w)
  · rfl

end

/-- Settles O32: the request chosen has the least rank, which orders and places make up. -/
theorem grantTakesTheFirstOrder : Obligations.GrantTakesTheFirstOrder := by
  unfold Obligations.GrantTakesTheFirstOrder
  intro s l
  refine ⟨(s.choose_none l).symm, fun r => ⟨rfl, rfl⟩, fun r hc => ?_, fun r => ?_⟩
  · obtain ⟨listed, least⟩ := s.choose_some hc
    exact ⟨listed, fun q hq => State.rank_le (least q hq)⟩
  · obtain ⟨host, load, journal⟩ := State.orderOf_single (s := s) (r := r)
    exact ⟨fun x h => ⟨State.orderOf_outLane h, State.placeOf_outLane h⟩,
      fun y h => ⟨State.orderOf_inLane h, State.placeOf_inLane h⟩,
      fun w h => ⟨State.orderOf_copyJob h, State.placeOf_fromCopyPtr h, s.placeOf_lt r,
        State.grant_copyPtr_copyJob h⟩,
      host, load, journal, State.grant_copyPtr_other⟩

end Sys2Proof.Machine

/-! A STOP taken in LOADING, in SETUP and in STOPPING (R75, R85, R166, R175, R189): O13. -/

namespace Sys2Proof.Machine

section
variable {s : State}

/-! ### The load abandoned (R75, R175) -/

theorem State.withdraw_port_eq {a : Access} (q : Requester) (h : s.port = some a) : (s.withdraw q).port =
    some { req := a.req, withdrawn := a.withdrawn || decide (a.req.who = q) } := by
  unfold State.withdraw
  by_cases own : a.req.who = q
  · rw [State.withdrawBy_port_named h (by simp [own])]
    simp [own]
  · rw [State.withdrawBy_port_other h (by simp [own])]
    simp [own]

/-- The list after an abandoned load: the load's request has left it, and JW's for STOPPED may have joined. -/
theorem State.stopLoad_requests (s : State) :
    (∀ r ∈ s.stopLoad.requests, r ∈ s.requests ∧ r.who ≠ .load ∨ r.who = .journal) ∧
      ∀ r ∈ s.requests, r.who ≠ .load → r ∈ s.stopLoad.requests := by
  have dropped : s.loadDropped.requests = s.requests.filter fun r => !(r.who == .load) := rfl
  obtain ⟨stay, new⟩ := OnlyRequestsOf.keeps fun q =>
    s.loadDropped.raiseStopped_onlyRequestsOf q (num DevState.loading.code) 0
  rw [← State.stopLoad_eq, dropped] at stay new
  simp only [List.mem_filter, Bool.not_eq_true', beq_eq_false_iff_ne] at stay new
  exact ⟨new, fun r hr hw => stay r ⟨hr, hw⟩⟩

theorem State.stopLoad_port (s : State) : s.stopLoad.port = (s.withdraw .load).port :=
  raiseStopped_frame s.loadDropped _ _ .port (by decide)

theorem State.stopLoad_setup (s : State) : s.stopLoad.load = none ∧ s.stopLoad.dev = .setup := by
  have f := raiseStopped_frame s.loadDropped (num DevState.loading.code) 0
  exact ⟨f .load (by decide), f .dev (by decide)⟩

/-- STOPPED reports the device state LOADING and no lanes (R175). -/
theorem State.stopLoad_reported {v : State} (hf : v.flags = s.flags) (hj : v.journal = s.journal)
    (hh : v.header = s.header) (ht : v.timeBase = s.timeBase) : ReportedStopped s v.stopLoad 1 0 :=
  State.raiseStopped_reported (u := v.loadDropped) hf hj hh ht (num DevState.loading.code) 0

/-! ### The event -/

theorem State.takeHead_stop_loading (hd : s.dev = .loading) : s.takeHead.stop = s.stopTaken.stopLoad := by
  have hd' : s.takeHead.dev = .loading := (takeHead_frame s .dev (by decide)).trans hd
  rcases s.takeHead.stop_cases with ⟨h, _⟩ | ⟨_, e⟩ | ⟨h | h, _⟩
  case inr.inl => exact e
  all_goals rw [hd'] at h; cases h

theorem State.takeHead_stop_idle (hd : s.dev = .setup ∨ s.dev = .stopping) : s.takeHead.stop = s.stopTaken := by
  have hd' : s.takeHead.dev = s.dev := takeHead_frame s .dev (by decide)
  rcases s.takeHead.stop_cases with ⟨h, _⟩ | ⟨h, _⟩ | ⟨_, e⟩
  case inr.inr => exact e
  all_goals rw [hd'] at h; rcases hd with hd | hd <;> cases h.symm.trans hd

/-- What a STOP in LOADING leaves (R75, R85, R175, R189). -/
theorem State.loadStopped (hn : NoGrantDue s) :
    let t := s.stopTaken.stopLoad.arrivals
    t.load = none ∧ t.dev = .setup ∧ ReportedStopped s t 1 0 ∧ (∀ r ∈ t.requests, r.who ≠ .load) ∧
      (∀ r ∈ t.requests, r ∈ s.requests ∨ r.who = .journal) ∧
      (∀ r ∈ s.requests, r.who ≠ .load → r ∈ t.requests) ∧
      (∀ a, s.port = some a →
        t.port = some { req := a.req, withdrawn := a.withdrawn || decide (a.req.who = .load) }) ∧
      ChangesOnly [.queue, .waiting, .outcome, .load, .dev, .flags, .journal, .requests, .port] s t := by
  have fv := s.stopTaken_frame
  have fu := stopLoad_frame s.stopTaken
  obtain ⟨load, dev⟩ := s.stopTaken.stopLoad_setup
  have reported := State.stopLoad_reported (s := s) (v := s.stopTaken) (fv .flags (by decide))
    (fv .journal (by decide)) (fv .header (by decide)) (fv .timeBase (by decide))
  obtain ⟨new, stay⟩ := s.stopTaken.stopLoad_requests
  have port := s.stopTaken.stopLoad_port
  generalize s.stopTaken.stopLoad = u at *
  have requests : s.stopTaken.requests = s.requests := fv .requests (by decide)
  have vport : s.stopTaken.port = s.port := fv .port (by decide)
  have free : u.port = none → s.port = none := fun e => vport.symm.trans (State.withdraw_free (port.symm.trans e))
  rw [requests] at new stay
  have fa := arrivals_frame u
  have fs : ChangesOnly [.queue, .waiting, .outcome, .load, .dev, .flags, .journal, .requests, .port] s u :=
    fv.andThen fu (by decide) (by decide)
  have asks : OnlyRequestsOf .load s u := by
    refine ⟨stay, fun r hr => (new r hr).imp And.left .inr, fun a ha hw => ?_⟩
    rw [port, State.withdraw_port_eq .load (vport.trans ha)]
    simp [hw]
  have listed := u.arrivals_requests_sub
  refine ⟨(fa .load (by decide)).trans load, (fa .dev (by decide)).trans dev, ?_, fun r hr => ?_,
    fun r hr => (new r (listed r hr)).imp_left And.left,
    fun r hr hw => State.arrivals_keeps hn free hr (stay r hr hw), fun a ha => ?_, ?_⟩
  · exact reported.of_eq (fa .flags (by decide)) (fa .journal (by decide))
  · rcases new r (listed r hr) with ⟨-, hw⟩ | hw
    · exact hw
    · rw [hw]; nofun
  · exact State.arrivals_port_some (port.trans (State.withdraw_port_eq .load (vport.trans ha)))
  · exact (State.arrivals_frame_of hn (fun _ e => by cases e) asks free fs (by decide)).mono (by decide)

end

/-- Settles O13: the load is abandoned in LOADING; in SETUP and STOPPING the outcome alone is recorded. -/
theorem stopOutsideRun : Obligations.StopOutsideRun := by
  unfold Obligations.StopOutsideRun
  intro s x hx hn hc hb hv
  have e := exec_stop hx hc hb hv
  refine ⟨fun hd => ?_, fun hd => ?_⟩
  · rw [State.takeHead_stop_loading hd] at e
    have f : ChangesOnly [.load, .dev, .flags, .journal, .requests, .port, .copyPtr] s.stopTaken
        s.stopTaken.stopLoad.arrivals :=
      (stopLoad_frame _).andThen (arrivals_frame _) (by decide) (by decide)
    exact ⟨_, e, (HeadTaken.stopTaken s).of_eq (f .queue (by decide)) (f .waiting (by decide)),
      f .outcome (by decide), State.loadStopped hn⟩
  · have due : NoGrantDue s.stopTaken := hn.takeHead
    rw [State.takeHead_stop_idle hd, State.arrivals_of_noGrantDue due] at e
    exact ⟨_, e, HeadTaken.stopTaken s, rfl, s.stopTaken_frame⟩

end Sys2Proof.Machine

/-! The performance of a lane fetch (R76, R78, R80, R112, R113): O24. -/

namespace Sys2Proof.Machine

section
variable {s u : State} {r : Request} {x : Fin 6} {p q : PlanWord} {qs : List PlanWord}

/-- The lane record when the word asked for has joined the fetch buffer (R113). -/
def OutLane.fed (p : PlanWord) (v : Word) (l : OutLane) : OutLane :=
  { l with asked := none, fetch := l.fetch ++ [(p.entry, v)] }

theorem State.laneWord_asked (ha : (s.out x).asked = some p) (v : Word) :
    s.laneWord x v = (s.modOut x (OutLane.fed p v)).tryFetch x := by
  unfold State.laneWord
  rw [ha]
  rfl

/-- The fetch performed: the memory it reads is the one before the event. -/
theorem State.laneFetch_next (h : InProgress s r) (hx : r.who = .outLane x) (hr : r.write = false)
    (ha : (s.out x).asked = some p) : exec .laneFetchPerformed s =
      .next (((s.complete r).modOut x (OutLane.fed p (s.mem.readWord r.adr))).tryFetch x).regrant := by
  have mem : (s.complete r).mem = s.mem := s.complete_read_frame hr .mem (by decide)
  have asked : ((s.complete r).out x).asked = some p := ha
  have e : exec .laneFetchPerformed s = execLaneFetchPerformed s := rfl
  rw [e, execLaneFetchPerformed, State.performance_inProgress h _ _ (by simp [Request.isLaneFetch, hx])]
  unfold Request.laneReact
  rw [hx]
  dsimp only
  rw [if_neg nofun, mem, State.laneWord_asked asked]

/-- R113 lets a lane that waits for no word ask for the next while its fetch buffer has room. -/
theorem State.mayFetch_iff (hl : u.listed (.outLane x) = false) (hp : u.inProgress (.outLane x) = false)
    (hs : (u.out x).st = .sending) (ha : (u.out x).asked = none) :
    u.mayFetch x ↔ (u.out x).fetch.length < 8 := by
  unfold State.mayFetch
  simp [hl, hp, hs, ha, Config.fetchPlaces]

/-- The next word of the plan is asked for (R78, R113). -/
theorem State.tryFetch_asks (hm : u.mayFetch x) (hp : (u.out x).plan = q :: qs) : u.tryFetch x =
    (u.modOut x fun l => { l with plan := qs, asked := some q }).join
      (fetchOf x q (decide ((u.entry q.entry).slot + 3 < (u.out x).begun))) := by
  rcases u.tryFetch_cases x with ⟨h | h, _⟩ | ⟨p, ps, hc, -, e⟩
  · exact absurd (h.symm.trans hp) nofun
  · exact absurd hm h
  · obtain ⟨rfl, rfl⟩ : p = q ∧ ps = qs := by simpa using hc.symm.trans hp
    exact e

theorem State.tryFetch_rests (h : (u.out x).plan = [] ∨ ¬ u.mayFetch x) : u.tryFetch x = u := by
  rcases u.tryFetch_cases x with ⟨-, e⟩ | ⟨p, ps, hc, hm, -⟩
  · exact e
  · rcases h with h | h
    · exact absurd (hc.symm.trans h) nofun
    · exact absurd hm h

theorem State.tryFetch_asks_out (hm : u.mayFetch x) (hp : (u.out x).plan = q :: qs) :
    (u.tryFetch x).out x = { u.out x with plan := qs, asked := some q } := by
  rw [State.tryFetch_asks hm hp, State.out_congr (State.join_outs _ _), State.out_modOut, if_pos rfl]

end

/-- Settles O24: the word joins the fetch buffer, and R113 decides on the next. -/
theorem laneFetchEntersTheFetchBuffer : Obligations.LaneFetchEntersTheFetchBuffer := by
  unfold Obligations.LaneFetchEntersTheFetchBuffer
  intro s r x p h hx hr ha hst hl
  have fc := s.complete_read_frame hr
  have e := State.laneFetch_next h hx hr ha
  generalize s.mem.readWord r.adr = v at *
  have fu : ChangesOnly [.port, .outs] s ((s.complete r).modOut x (OutLane.fed p v)) :=
    fc.andThen (modOut_frame _ x _) (by decide) (by decide)
  have out : ((s.complete r).modOut x (OutLane.fed p v)).out x = OutLane.fed p v (s.out x) := by
    rw [State.out_modOut, if_pos rfl]
    rfl
  have others : OtherOuts x s ((s.complete r).modOut x (OutLane.fed p v)) :=
    (s.complete r).modOut_others x _
  have port : ((s.complete r).modOut x (OutLane.fed p v)).port = none := rfl
  generalize (s.complete r).modOut x (OutLane.fed p v) = u at *
  have requests : u.requests = s.requests := fu .requests (by decide)
  have may : u.mayFetch x ↔ (s.out x).fetch.length < 7 := by
    have longer : (u.out x).fetch.length = (s.out x).fetch.length + 1 := by
      rw [out]
      exact List.length_append
    rw [State.mayFetch_iff ((State.listed_eq_false _ _).2 (requests ▸ hl)) (by unfold State.inProgress; rw [port])
      (by rw [out]; exact hst) (by rw [out]; rfl), longer]
    omega
  have plan : (u.out x).plan = (s.out x).plan := by rw [out]; rfl
  have outs := State.out_congr (regrant_frame (u.tryFetch x) .outs (by decide))
  obtain ⟨own, rest⟩ := u.tryFetch_out x
  obtain ⟨stay, new, -⟩ := u.tryFetch_onlyRequestsOf x
  refine ⟨_, e, fun z hz => ?_, ?_, fun q qs hq room => ?_, fun full => ?_, ?_, ?_⟩
  · rw [outs, rest z hz, others z hz]
  · rw [outs]
    conv => lhs; rw [own, out]
    rfl
  · have asks := State.tryFetch_asks_out (may.2 room) (plan.trans hq)
    refine ⟨by rw [outs, asks], by rw [outs, asks], ?_⟩
    rw [State.tryFetch_asks (may.2 room) (plan.trans hq), out, State.entry_congr (fu .entries (by decide))]
    exact State.follows_join _ _
  · have same : u.tryFetch x = u := State.tryFetch_rests (full.imp plan.trans fun h => by rw [may]; omega)
    rw [outs, same, out]
    exact ⟨rfl, rfl, State.regranted_of port requests (fu .ins (by decide)) (fu .copyPtr (by decide))⟩
  · refine State.othersWait_regrant ?_ (fun p hp => stay p (requests ▸ hp) fun hw => ?_) (requests ▸ new)
    · exact (tryFetch_frame u x .port (by decide)).trans port
    · exact hl (hw ▸ List.mem_map_of_mem hp)
  · have ft : ChangesOnly [.port, .outs, .requests] s (u.tryFetch x) :=
      fu.andThen (tryFetch_frame u x) (by decide) (by decide)
    exact ft.andThen (regrant_frame _) (by decide) (by decide)

end Sys2Proof.Machine

/-! The performance of a journal word (R76, R183, R184, R187, R188): O30. -/

namespace Sys2Proof.Machine

section
variable {s u : State} {e : JEntry} {es : List JEntry} {r : Request}

/-! ### JW's next request (R187) -/

/-- JW's request for word `n` of an entry at the write index (R187). -/
def State.wordWrite (s : State) (e : JEntry) (n : Nat) : Request :=
  { who := .journal, write := true
    adr := memAdr (s.header.ringAddr + 16 * s.journal.writeIndex + 4 * n)
    be := 0xF, data := e.word n, urgent := false }

theorem State.nextEntry_journal (s : State) : s.nextEntry.journal =
    { s.journal with
      st := if s.journal.queue = [] ∧ s.journal.st = .draining then .ended else s.journal.st } := by
  unfold State.nextEntry
  split
  · next empty =>
    split
    · next draining => simp [empty, draining]
    · next other => simp [other]
  · next more => simp [State.requestJournal_journal, more]

theorem State.nextEntry_requests (h : s.journal.queue = []) : s.nextEntry.requests = s.requests := by
  unfold State.nextEntry
  rw [if_pos h]
  split <;> rfl

theorem State.nextEntry_asks (h : s.journal.queue = e :: es) :
    s.nextEntry = s.join (s.wordWrite e s.journal.wordCount) := by
  unfold State.nextEntry
  rw [if_neg (by rw [h]; nofun), State.requestJournal_cons h]
  rfl

theorem State.requestJournal_onlyRequestsOf (s : State) (q : Requester) : OnlyRequestsOf q s s.requestJournal := by
  unfold State.requestJournal
  split
  · exact .refl _ _
  · exact s.join_onlyRequestsOf (.inr rfl)

theorem State.nextEntry_onlyRequestsOf (s : State) (q : Requester) : OnlyRequestsOf q s s.nextEntry := by
  unfold State.nextEntry
  split
  · split
    · exact .of_eq rfl rfl
    · exact .refl _ _
  · exact s.requestJournal_onlyRequestsOf q

/-! ### The journal at its end (R188) -/

theorem sat16_toNat (c : Half) (n : Nat) : (sat16 c n).toNat = min 65535 (c.toNat + n) := by
  unfold sat16
  split
  · next room =>
    rw [BitVec.toNat_ofNat]
    omega
  · next full =>
    rw [show (65535 : Half).toNat = 65535 from rfl]
    omega

theorem State.haltJournal_empty (h : s.journal.queue = []) : s.haltJournal =
    (s.modJournal fun j => { j with writeIndex := 0, st := .halted, queue := [] }).setFlag .journalFull := by
  unfold State.haltJournal
  simp [h]

theorem State.haltJournal_loses (h : s.journal.queue ≠ []) : s.haltJournal =
    ((s.modJournal fun j => { j with writeIndex := 0, st := .halted, queue := [] }).loseEntries
      s.journal.queue.length).setFlag .journalFull := by
  unfold State.haltJournal
  simp [h]

/-- What HALT leaves of the journal record and of the flags (R186, R188). -/
theorem State.haltJournal_spec (s : State) :
    s.haltJournal.journal =
      { s.journal with
        st := .halted, queue := [], writeIndex := 0, lost := s.haltJournal.journal.lost } ∧
    s.haltJournal.journal.lost.toNat =
      (if s.journal.queue = [] then s.journal.lost.toNat
        else min 65535 (s.journal.lost.toNat + s.journal.queue.length)) ∧
    s.haltJournal.raised .journalFull = true ∧
    (s.journal.queue ≠ [] → s.haltJournal.raised .journalLost = true) ∧
    FlagsKept (if s.journal.queue = [] then [.journalFull] else [.journalFull, .journalLost]) s s.haltJournal := by
  by_cases h : s.journal.queue = []
  · rw [State.haltJournal_empty h, if_pos h, if_pos h]
    refine ⟨rfl, rfl, by simp [State.raised_setFlag], fun c => absurd h c, ?_⟩
    exact (FlagsKept.of_eq (by rfl)).trans (State.setFlag_kept _ _)
  · rw [State.haltJournal_loses h, if_neg h, if_neg h]
    refine ⟨rfl, sat16_toNat _ _, by simp [State.raised_setFlag], fun _ => ?_, ?_⟩
    · simp [State.raised_setFlag, State.loseEntries]
    · refine (FlagsKept.of_eq (t := s.modJournal _) rfl).trans (((State.loseEntries_kept _ _).mono ?_).trans
        ((State.setFlag_kept _ _).mono ?_)) <;> simp

/-- A performance whose reaction halts the journal: JW asks for nothing, and MA goes on (R76, R188). -/
theorem State.haltJournal_ends (f : ChangesOnly [.mem, .port, .journal] s u) (hp : u.port = none)
    (hq : u.journal.queue = es) :
    let t := u.haltJournal.regrant
    t.journal = { u.journal with st := .halted, queue := [], writeIndex := 0, lost := t.journal.lost } ∧
    t.raised .journalFull = true ∧
    t.journal.lost.toNat =
      (if es = [] then u.journal.lost.toNat else min 65535 (u.journal.lost.toNat + es.length)) ∧
    (es ≠ [] → t.raised .journalLost = true) ∧
    FlagsKept (if es = [] then [.journalFull] else [.journalFull, .journalLost]) s t ∧ Regranted s t := by
  obtain ⟨record, lost, raised, loses, kept⟩ := u.haltJournal_spec
  rw [hq] at lost loses kept
  have fh := haltJournal_frame u
  have fs : ChangesOnly [.mem, .port, .journal, .flags] s u.haltJournal :=
    f.andThen fh (by decide) (by decide)
  have fa := regrant_frame u.haltJournal
  have journal : u.haltJournal.regrant.journal = u.haltJournal.journal := fa .journal (by decide)
  have same := State.raised_congr (fa .flags (by decide))
  dsimp only
  rw [journal]
  exact ⟨record, (same _).trans raised, lost, fun more => (same _).trans (loses more),
    ((FlagsKept.of_eq (f .flags (by decide))).trans kept).trans fun k _ => same k,
    State.regranted_of ((fh .port (by decide)).trans hp) (fs .requests (by decide)) (fs .ins (by decide))
      (fs .copyPtr (by decide))⟩

theorem State.haltJournal_onlyRequestsOf (s : State) (q : Requester) : OnlyRequestsOf q s s.haltJournal :=
  .of_eq (haltJournal_frame s .requests (by decide)) (haltJournal_frame s .port (by decide))

/-! ### The word performed (R187) -/

/-- The head entry has been written: the ring goes on at index `i` after `wrap` turns. -/
def Journal.popped (i : Nat) (wrap : Half) (j : Journal) : Journal :=
  { j with queue := j.queue.tail, wordCount := 0, writeIndex := i, wrap := wrap }

theorem State.journalWord_more (hq : s.journal.queue = e :: es) (hw : s.journal.wordCount < 3) :
    s.journalWord = (s.modJournal fun j => { j with wordCount := j.wordCount + 1 }).join
      (s.wordWrite e (s.journal.wordCount + 1)) := by
  unfold State.journalWord
  rw [if_neg (by rw [hq]; nofun), if_pos hw, State.requestJournal_cons (e := e) (es := es) (by exact hq)]
  rfl

theorem State.journalWord_last (hq : s.journal.queue = e :: es) (hw : 3 ≤ s.journal.wordCount) :
    s.journalWord = s.entryWritten := by
  unfold State.journalWord
  rw [if_neg (by rw [hq]; nofun), if_neg (Nat.not_lt.2 hw)]

theorem State.entryWritten_next (hc : s.journal.writeIndex + 1 ≠ s.header.capacity) : s.entryWritten =
    (s.modJournal (Journal.popped (s.journal.writeIndex + 1) s.journal.wrap)).nextEntry := by
  unfold State.entryWritten
  rw [if_neg hc]
  rfl

theorem State.entryWritten_rollover (hc : s.journal.writeIndex + 1 = s.header.capacity)
    (hf : s.header.full = .rollover) : s.entryWritten =
      (s.modJournal (Journal.popped 0 (sat16 s.journal.wrap 1))).nextEntry := by
  unfold State.entryWritten
  rw [if_pos hc, hf]
  rfl

theorem State.entryWritten_halt (hc : s.journal.writeIndex + 1 = s.header.capacity)
    (hf : s.header.full = .halt) : s.entryWritten =
      (s.modJournal (Journal.popped s.journal.writeIndex s.journal.wrap)).haltJournal := by
  unfold State.entryWritten
  rw [if_pos hc, hf]
  rfl

/-- The ring goes on, whether it turns over or not (R187). -/
theorem State.entryWritten_goesOn (h : s.journal.writeIndex + 1 ≠ s.header.capacity ∨ s.header.full = .rollover) :
    ∃ i wrap, s.entryWritten = (s.modJournal (Journal.popped i wrap)).nextEntry := by
  by_cases hc : s.journal.writeIndex + 1 = s.header.capacity
  · exact ⟨_, _, State.entryWritten_rollover hc (h.resolve_left fun c => c hc)⟩
  · exact ⟨_, _, State.entryWritten_next hc⟩

theorem State.journalWord_onlyRequestsOf (s : State) (q : Requester) : OnlyRequestsOf q s s.journalWord := by
  have popped : ∀ i wrap, OnlyRequestsOf q s (s.modJournal (Journal.popped i wrap)) := fun _ _ => .of_eq rfl rfl
  unfold State.journalWord
  split
  · exact .refl _ _
  · split
    · exact (OnlyRequestsOf.of_eq (t := s.modJournal _) rfl rfl).trans (State.requestJournal_onlyRequestsOf _ q)
    · by_cases hc : s.journal.writeIndex + 1 = s.header.capacity
      · cases hf : s.header.full with
        | rollover => exact State.entryWritten_rollover hc hf ▸ (popped _ _).trans (State.nextEntry_onlyRequestsOf _ q)
        | halt => exact State.entryWritten_halt hc hf ▸ (popped _ _).trans (State.haltJournal_onlyRequestsOf _ q)
      · exact State.entryWritten_next hc ▸ (popped _ _).trans (State.nextEntry_onlyRequestsOf _ q)

theorem State.journalWord_next (h : InProgress s r) (hr : r.who = .journal) :
    exec .journalWordPerformed s = .next (s.complete r).journalWord.regrant := by
  have e : exec .journalWordPerformed s = execJournalWordPerformed s := rfl
  rw [e, execJournalWordPerformed, State.performance_inProgress h _ _ (by simp [hr])]

end

/-- Settles O30: the word count, the write index with its ring, or the end of the journal. -/
theorem journalWordIsPerformed : Obligations.JournalWordIsPerformed := by
  unfold Obligations.JournalWordIsPerformed
  intro s r e es h hr hq
  have fc := s.complete_congr r
  have fw := journalWord_frame (s.complete r)
  have fa := regrant_frame (s.complete r).journalWord
  have journal : (s.complete r).journalWord.regrant.journal = (s.complete r).journalWord.journal :=
    fa .journal (by decide)
  have flags : (s.complete r).journalWord.regrant.flags = (s.complete r).journalWord.flags := fa .flags (by decide)
  obtain ⟨stay, new⟩ := OnlyRequestsOf.keeps (State.journalWord_onlyRequestsOf (s.complete r))
  have last := State.journalWord_last (s := s.complete r) hq
  have popped : ∀ i wrap, ((s.complete r).modJournal (Journal.popped i wrap)).journal.queue = es :=
    fun _ _ => congrArg List.tail hq
  refine ⟨_, State.journalWord_next h hr, fun hw => ?_, fun hw hc => ?_, fun hw hc hf => ?_, fun hw go => ?_,
    fun hw hc hf => ?_, ?_, ?_⟩
  · rw [journal, flags, State.journalWord_more (s := s.complete r) hq hw]
    exact ⟨rfl, rfl, State.follows_join _ _⟩
  · rw [journal, flags, last hw, State.entryWritten_next (s := s.complete r) hc, State.nextEntry_journal, popped]
    exact ⟨by simp [Journal.popped, hq], nextEntry_frame _ .flags (by decide)⟩
  · rw [journal, flags, last hw, State.entryWritten_rollover (s := s.complete r) hc hf, State.nextEntry_journal,
      popped]
    exact ⟨by simp [Journal.popped, hq, sat16_one], nextEntry_frame _ .flags (by decide)⟩
  · obtain ⟨i, wrap, goes⟩ := State.entryWritten_goesOn (s := s.complete r) go
    rw [journal, last hw, goes]
    have fn := nextEntry_frame ((s.complete r).modJournal (Journal.popped i wrap))
    refine ⟨fun none => ?_, fun e2 rest more => ?_⟩
    · exact State.regranted_of (fn .port (by decide)) (State.nextEntry_requests ((popped i wrap).trans none))
        (fn .ins (by decide)) (fn .copyPtr (by decide))
    · rw [State.nextEntry_asks ((popped i wrap).trans more)]
      exact State.follows_join _ _
  · rw [last hw, State.entryWritten_halt (s := s.complete r) hc hf]
    exact State.haltJournal_ends (fc.andThen (modJournal_frame _ _) (by decide) (by decide)) rfl (popped _ _)
  · exact State.othersWait_regrant (fw .port (by decide)) stay fun p hp => (new p hp).imp_right .inr
  · have fv : ChangesOnly [.mem, .port, .flags, .journal, .requests] s _ := fc.andThen fw (by decide) (by decide)
    exact fv.andThen fa (by decide) (by decide)

end Sys2Proof.Machine

/-! The slot positions in which no entry starts (R78, R106, R113–R118, R198): O40. -/

namespace Sys2Proof.Machine

section
variable {s u : State} {x : Fin 6} {p q : PlanWord} {qs : List PlanWord} {l : OutLane} {r : LaneRec} {j : Nat}

/-! ### The lane's fetching as a slot position begins (R78, R113) -/

theorem State.markUrgent_of_asked_none (ha : (s.out x).asked = none) : s.markUrgent x = s := by
  unfold State.markUrgent
  rw [ha]

/-- The request that waits for a word of the lane turns urgent once the slot before has begun (R78). -/
theorem State.markUrgent_requests (ha : (s.out x).asked = some p) : (s.markUrgent x).requests =
    s.requests.map fun r =>
      if r.who = .outLane x ∧ (s.entry p.entry).slot + 3 < (s.out x).begun then { r with urgent := true }
      else r := by
  unfold State.markUrgent State.urgentFor
  rw [ha]
  by_cases due : (s.entry p.entry).slot + 3 < (s.out x).begun <;> simp [due]

/-- Turning urgent concerns the lane's own requests alone. -/
theorem State.markUrgent_onlyRequestsOf (s : State) (x : Fin 6) :
    OnlyRequestsOf (.outLane x) s (s.markUrgent x) := by
  cases ha : (s.out x).asked with
  | none =>
    rw [State.markUrgent_of_asked_none ha]
    exact .refl _ _
  | some p =>
    refine ⟨fun r hr hw => ?_, fun r hr => ?_, fun a h _ => (markUrgent_frame s x .port (by decide)).trans h⟩
    · rw [State.markUrgent_requests ha]
      exact List.mem_map.2 ⟨r, hr, if_neg fun c => hw c.1⟩
    · rw [State.markUrgent_requests ha] at hr
      obtain ⟨r', hr', rfl⟩ := List.mem_map.1 hr
      split
      · next c => exact .inr (.inl c.1)
      · exact .inl hr'

/-- What a slot position adds for the lane's fetching, once its halves are on the line. -/
def State.fetchOn (s : State) (x : Fin 6) : State := (s.markUrgent x).tryFetch x

theorem fetchOn_frame (s : State) (x : Fin 6) : ChangesOnly [.outs, .requests] s (s.fetchOn x) :=
  (markUrgent_frame s x).andThen (tryFetch_frame _ x) (by decide) (by decide)

theorem State.fetchOn_onlyRequestsOf (s : State) (x : Fin 6) : OnlyRequestsOf (.outLane x) s (s.fetchOn x) :=
  (s.markUrgent_onlyRequestsOf x).trans (State.tryFetch_onlyRequestsOf _ x)

theorem State.fetchOn_of_asked_none (ha : (s.out x).asked = none) : s.fetchOn x = s.tryFetch x :=
  congrArg (fun u => u.tryFetch x) (State.markUrgent_of_asked_none ha)

/-- A lane that waits for a word asks for no other (R113). -/
theorem State.fetchOn_of_asked_some (ha : (s.out x).asked = some p) : s.fetchOn x = s.markUrgent x := by
  refine State.tryFetch_rests (.inr fun c => ?_)
  obtain ⟨-, none, -⟩ := c
  rw [State.out_congr (markUrgent_frame s x .outs (by decide)), ha] at none
  cases none

theorem State.fetchOn_out (s : State) (x : Fin 6) : (s.fetchOn x).out x = { s.out x with
    plan := ((s.fetchOn x).out x).plan, asked := ((s.fetchOn x).out x).asked } := by
  obtain ⟨own, -⟩ := (s.markUrgent x).tryFetch_out x
  rw [State.out_congr (markUrgent_frame s x .outs (by decide))] at own
  exact own

theorem State.fetchOn_others (s : State) (x : Fin 6) : OtherOuts x s (s.fetchOn x) := fun z hz =>
  (((s.markUrgent x).tryFetch_out x).2 z hz).trans (State.out_congr (markUrgent_frame s x .outs (by decide)) z)

/-- Fetching goes on after an event part that left the lane's plan, its request and the arbiter alone. -/
theorem State.fetchOn_goesOn (hn : NoGrantDue s) (port : u.port = s.port) (requests : u.requests = s.requests)
    (entries : u.entries = s.entries) (st : (u.out x).st = .sending) (asked : (u.out x).asked = (s.out x).asked)
    (plan : (u.out x).plan = (s.out x).plan) : FetchGoesOn x s (u.fetchOn x).arrivals := by
  have due : NoGrantDue u := hn.of_eq port requests
  have outs := State.out_congr (arrivals_frame (u.fetchOn x) .outs (by decide))
  have own := u.fetchOn_out x
  have fetch : ((u.fetchOn x).out x).fetch = (u.out x).fetch := by rw [own]
  have begun : ((u.fetchOn x).out x).begun = (u.out x).begun := by rw [own]
  have idle := State.inProgress_congr port (.outLane x)
  unfold FetchGoesOn
  rw [outs, fetch, begun]
  refine ⟨fun p ha => ?_, fun ha => ⟨fun hi hl room p ps hp => ?_, fun rest => ?_⟩⟩
  · have ua := asked.trans ha
    have marked := State.out_congr (markUrgent_frame u x .outs (by decide)) x
    have kept := (markUrgent_frame u x .port (by decide)).trans port
    have map := State.markUrgent_requests ua
    rw [requests, State.entry_congr entries] at map
    have none : NoGrantDue (u.markUrgent x) := fun e => by rw [map, hn (kept.symm.trans e)]; rfl
    rw [State.fetchOn_of_asked_some ua, State.arrivals_of_noGrantDue none, marked]
    exact ⟨ua, plan, kept, map⟩
  · have ua := asked.trans ha
    have may := (State.mayFetch_iff ((State.listed_congr requests _).trans ((State.listed_eq_false _ _).2 hl))
      (idle.trans hi) st ua).2 room
    have up := plan.trans hp
    rw [State.fetchOn_of_asked_none ua, State.tryFetch_asks_out may up, State.tryFetch_asks may up,
      ← State.entry_congr entries]
    have joined := State.requested_join (s := u.modOut x fun l => { l with plan := ps, asked := some p })
      (due.of_eq rfl rfl) (fetchOf x p (decide ((u.entry p.entry).slot + 3 < (u.out x).begun)))
    exact ⟨rfl, rfl, joined.of_eq port requests⟩
  · have ua := asked.trans ha
    have same : u.tryFetch x = u := by
      refine State.tryFetch_rests (rest.imp plan.trans fun full c => ?_)
      obtain ⟨-, -, -, hi, room⟩ := c
      rw [idle] at hi
      rcases full with busy | full
      · rw [busy] at hi
        cases hi
      · exact absurd room (Nat.not_lt.2 full)
    rw [State.fetchOn_of_asked_none ua, same, State.arrivals_of_noGrantDue due]
    exact ⟨ua, plan, port, requests⟩

/-! ### The beginning of a position -/

theorem exec_slotBegin (hr : s.rst = false) (hs : (s.out x).st = .sending) (hb : (s.out x).begun = j)
    (hj : j < (s.outRec x).slots + 5)
    (ht : s.timeBase = (s.out x).frameTime + BitVec.ofNat 32 (j * (s.outRec x).slotTime)) :
    exec (.slotBegin x) s = .next (((s.modOut x OutLane.next).position x j).fetchOn x).arrivals := by
  subst hb
  have due : s.slotDue x = true := by
    unfold State.slotDue State.positionTime LaneRec.positions
    rw [Bool.and_eq_true, Bool.and_eq_true, beq_iff_eq, beq_iff_eq, decide_eq_true_iff]
    exact ⟨⟨hs, hj⟩, ht⟩
  have e : exec (.slotBegin x) s = execSlotBegin x s := rfl
  rw [e, execSlotBegin, hr, due]
  rfl

/-- The event of a position, from the state `u` in which its half is on the line: no entry has underrun. -/
theorem State.slotGoesOn {items : List Item} (hn : NoGrantDue s) (f : ChangesOnly items s u)
    (hk : ∀ i ∈ [Item.port, .requests, .entries, .copyPtr], i ∉ items) (others : OtherOuts x s u)
    (st : (u.out x).st = .sending) (asked : (u.out x).asked = (s.out x).asked)
    (plan : (u.out x).plan = (s.out x).plan) :
    let t := (u.fetchOn x).arrivals
    OtherOuts x s t ∧
      t.out x = { u.out x with plan := (t.out x).plan, asked := (t.out x).asked } ∧
      FetchGoesOn x s t ∧ OnlyRequestsOf (.outLane x) s t ∧
      ChangesOnly (.requests :: .port :: .outs :: .requests :: items) s t := by
  have kept := fun i hi => f i (hk i hi)
  have port : u.port = s.port := kept .port (by decide)
  have requests : u.requests = s.requests := kept .requests (by decide)
  have fu := fetchOn_frame u x
  have outs := State.out_congr (arrivals_frame (u.fetchOn x) .outs (by decide))
  have free : (u.fetchOn x).port = none → s.port = none := fun e =>
    port.symm.trans ((fu .port (by decide)).symm.trans e)
  have asks : OnlyRequestsOf (.outLane x) s (u.fetchOn x) :=
    (OnlyRequestsOf.of_eq requests port).trans (u.fetchOn_onlyRequestsOf x)
  have whole : ChangesOnly (.outs :: .requests :: items) s (u.fetchOn x) := fun i hi => by
    simp only [List.mem_cons, not_or] at hi
    obtain ⟨h1, h2, h3⟩ := hi
    exact State.sameAt_trans (f i h3) (fu i (by simp [h1, h2]))
  refine ⟨fun z hz => ?_, ?_, ?_, asks.arrivals hn free, ?_⟩
  · rw [outs, u.fetchOn_others x z hz, others z hz]
  · rw [outs]
    exact u.fetchOn_out x
  · exact State.fetchOn_goesOn hn port requests (kept .entries (by decide)) st asked plan
  · refine State.arrivals_frame_of hn (fun _ e => by cases e) asks free whole ?_
    simp [hk .copyPtr (by decide)]

/-! ### The positions without an entry's first slot (R114–R117) -/

/-- What such a position does to the lane's record. -/
def LaneRec.sendPosition (r : LaneRec) (j : Nat) (l : OutLane) : OutLane :=
  if j < 4 then l.send (l.headerHalf j)
  else if j < r.slots + 4 then
    l.tail.elim (if r.clock = .full then l.send r.filler else { l with line := none })
      fun h => { l.send h with tail := none }
  else { l with line := some l.crc }

theorem LaneRec.sendPosition_header (hj : j < 4) : r.sendPosition j l = l.send (l.headerHalf j) := if_pos hj

theorem LaneRec.sendPosition_data (h4 : 4 ≤ j) (hj : j < r.slots + 4) : r.sendPosition j l =
    l.tail.elim (if r.clock = .full then l.send r.filler else { l with line := none })
      fun h => { l.send h with tail := none } :=
  (if_neg (Nat.not_lt.2 h4)).trans (if_pos hj)

theorem LaneRec.sendPosition_tail {h : Half} (h4 : 4 ≤ j) (hj : j < r.slots + 4) (ht : l.tail = some h) :
    r.sendPosition j l = { l.send h with tail := none } := by
  rw [LaneRec.sendPosition_data h4 hj, ht, Option.elim_some]

theorem LaneRec.sendPosition_full (h4 : 4 ≤ j) (hj : j < r.slots + 4) (ht : l.tail = none)
    (hc : r.clock = .full) : r.sendPosition j l = l.send r.filler := by
  rw [LaneRec.sendPosition_data h4 hj, ht, Option.elim_none, if_pos hc]

theorem LaneRec.sendPosition_gapped (h4 : 4 ≤ j) (hj : j < r.slots + 4) (ht : l.tail = none)
    (hc : r.clock = .gapped) : r.sendPosition j l = { l with line := none } := by
  rw [LaneRec.sendPosition_data h4 hj, if_neg (by rw [hc]; nofun), ht, Option.elim_none]

theorem LaneRec.sendPosition_trailer (h4 : 4 ≤ j) (hj : r.slots + 4 ≤ j) :
    r.sendPosition j l = { l with line := some l.crc } :=
  (if_neg (Nat.not_lt.2 h4)).trans (if_neg (Nat.not_lt.2 hj))

/-- A position changes neither the lane's state nor its plan and the word asked for. -/
theorem LaneRec.sendPosition_keeps (r : LaneRec) (j : Nat) (l : OutLane) :
    (r.sendPosition j l).st = l.st ∧ (r.sendPosition j l).asked = l.asked ∧
      (r.sendPosition j l).plan = l.plan ∧ (r.sendPosition j l).begun = l.begun := by
  by_cases header : j < 4
  · rw [LaneRec.sendPosition_header header]
    exact ⟨rfl, rfl, rfl, rfl⟩
  · have h4 := Nat.le_of_not_lt header
    by_cases inside : j < r.slots + 4
    · rw [LaneRec.sendPosition_data h4 inside]
      cases l.tail with
      | some h => exact ⟨rfl, rfl, rfl, rfl⟩
      | none =>
        rw [Option.elim_none]
        split
        · exact ⟨rfl, rfl, rfl, rfl⟩
        · exact ⟨rfl, rfl, rfl, rfl⟩
    · rw [LaneRec.sendPosition_trailer h4 (Nat.le_of_not_lt inside)]
      exact ⟨rfl, rfl, rfl, rfl⟩

/-- A lane's change is told from what it makes of the lane's record. -/
theorem State.modOut_congr {f g : OutLane → OutLane} (h : f (s.out x) = g (s.out x)) :
    s.modOut x f = s.modOut x g := by
  have own : f s.outs[x] = g s.outs[x] := h
  unfold State.modOut
  rw [own]

theorem State.dataSlot_of_tail {h : Half} (ht : (s.out x).tail = some h) :
    s.dataSlot x j = s.modOut x fun l => { OutLane.send h l with tail := none } := by
  unfold State.dataSlot
  simp only [ht]

theorem State.dataSlot_of_no_entry (ht : (s.out x).tail = none) (he : s.entryAt x j = none) :
    s.dataSlot x j = s.emptySlot x := by
  unfold State.dataSlot
  simp only [ht, he]

theorem State.position_startless
    (hd : 4 ≤ j → j < (s.outRec x).slots + 4 → (s.out x).tail = none → s.entryAt x (j - 4) = none) :
    s.position x j = s.modOut x ((s.outRec x).sendPosition j) := by
  unfold State.position
  split
  · next header => exact State.modOut_congr (LaneRec.sendPosition_header header).symm
  · next data =>
    have h4 := Nat.le_of_not_lt data
    split
    · next inside =>
      cases ht : (s.out x).tail with
      | some h =>
        rw [State.dataSlot_of_tail ht]
        exact State.modOut_congr (LaneRec.sendPosition_tail h4 inside ht).symm
      | none =>
        rw [State.dataSlot_of_no_entry ht (hd h4 inside ht)]
        unfold State.emptySlot
        cases hc : (s.outRec x).clock with
        | full => exact State.modOut_congr (LaneRec.sendPosition_full h4 inside ht hc).symm
        | gapped => exact State.modOut_congr (LaneRec.sendPosition_gapped h4 inside ht hc).symm
    · next past => exact State.modOut_congr (LaneRec.sendPosition_trailer h4 (Nat.le_of_not_lt past)).symm

/-! ### H3 (R114, R198) -/

/-- Bits set one by one at 8 and above. -/
theorem getLsbD_foldl_setBit (c : Nat → Bool) (ks : List Nat) (h : Half) {i : Nat} (hi : i < 16) :
    (ks.foldl (fun h k => if c k then h ||| (1#16 <<< (8 + k)) else h) h).getLsbD i =
      (h.getLsbD i || ks.any fun k => c k && decide (8 + k = i)) := by
  induction ks generalizing h with
  | nil => simp
  | cons k ks ih =>
    have bit : (1#16 <<< (8 + k)).getLsbD i = decide (8 + k = i) := by
      rw [← BitVec.twoPow_eq, BitVec.getLsbD_twoPow]
      by_cases e : 8 + k = i
      · simp [e, hi]
      · simp [e]
    rw [List.foldl_cons, ih, List.any_cons, ← Bool.or_assoc]
    cases c k <;> simp [BitVec.getLsbD_or, bit]

/-- The three flags lie in bits 0 to 2. -/
theorem getLsbD_flags (a b c : Bool) {i : Nat} (hi : i < 16) :
    (BitVec.ofNat 16 (bit a + 2 * bit b + 4 * bit c)).getLsbD i =
      (i == 0 && a || i == 1 && b || i == 2 && c) := by
  have all : ∀ (a b c : Bool) (i : Fin 16), (BitVec.ofNat 16 (bit a + 2 * bit b + 4 * bit c)).getLsbD i =
      (i.val == 0 && a || i.val == 1 && b || i.val == 2 && c) := by decide
  exact all a b c ⟨i, hi⟩

theorem OutLane.h3_getLsbD (l : OutLane) {i : Nat} (hi : i < 16) : l.h3.getLsbD i =
    (((List.range 8).any fun k => (l.draws[k]?).any (fun c => c.stale) && decide (8 + k = i)) ||
      (i == 0 && l.flags.flywheel || i == 1 && l.flags.prevCut || i == 2 && l.flags.prevUnder)) := by
  unfold OutLane.h3
  dsimp only
  rw [BitVec.getLsbD_or, getLsbD_foldl_setBit _ _ _ hi, getLsbD_flags _ _ _ hi, BitVec.getLsbD_zero, Bool.false_or]

theorem OutLane.h3_stale (l : OutLane) {k : Nat} (hk : k < 8) :
    l.h3.getLsbD (8 + k) = (l.draws[k]?).any fun c => c.stale := by
  have low : ∀ n, n < 3 → (8 + k == n) = false := fun n hn => beq_false_of_ne (by omega)
  rw [l.h3_getLsbD (by omega), low 0 (by decide), low 1 (by decide), low 2 (by decide)]
  rw [Bool.eq_iff_iff]
  simp only [Bool.false_and, Bool.or_false, List.any_eq_true, List.mem_range, Bool.and_eq_true,
    decide_eq_true_eq, Nat.add_left_cancel_iff]
  exact ⟨fun ⟨m, _, hc, e⟩ => e ▸ hc, fun hc => ⟨k, hk, hc, rfl⟩⟩

theorem OutLane.h3_low (l : OutLane) {i : Nat} (hi : i < 8) : l.h3.getLsbD i =
    (i == 0 && l.flags.flywheel || i == 1 && l.flags.prevCut || i == 2 && l.flags.prevUnder) := by
  have above : ∀ k, decide (8 + k = i) = false := fun k => decide_eq_false (by omega)
  rw [l.h3_getLsbD (by omega)]
  simp [above]

theorem OutLane.h3_reserved (l : OutLane) {i : Nat} (h3 : 3 ≤ i) (hi : i < 8) : l.h3.getLsbD i = false := by
  have high : ∀ n, n < 3 → (i == n) = false := fun n hn => beq_false_of_ne (by omega)
  rw [l.h3_low hi, high 0 (by decide), high 1 (by decide), high 2 (by decide)]
  rfl

theorem LaneRec.slotTime_mul (r : LaneRec) : r.slotTime * 2 ^ r.rate.val = 16 := by
  unfold LaneRec.slotTime
  generalize r.rate = c
  revert c
  decide

/-! ### A position in which no entry starts -/

theorem State.entryAt_congr (hl : u.lanes = s.lanes) (he : u.entries = s.entries) (x : Fin 6) (d : Nat) :
    u.entryAt x d = s.entryAt x d := by
  unfold State.entryAt
  rw [State.slotOrder_congr hl he]
  simp only [State.entry_congr he]

theorem State.modOut_next_entryAt (s : State) (x : Fin 6) (d : Nat) :
    (s.modOut x OutLane.next).entryAt x d = s.entryAt x d :=
  State.entryAt_congr (s := s) (u := s.modOut x OutLane.next) rfl rfl x d

theorem State.modOut_next_out (s : State) (x : Fin 6) : (s.modOut x OutLane.next).out x = (s.out x).next := by
  rw [State.out_modOut, if_pos rfl]

theorem State.next_position_others (s : State) (x : Fin 6) (j : Nat) :
    OtherOuts x s ((s.modOut x OutLane.next).position x j) := fun z hz => by
  rw [State.position_others _ x _ z hz, State.modOut_others _ x _ z hz]

theorem State.startlessSlot (hn : NoGrantDue s) (hs : (s.out x).st = .sending) (j : Nat)
    (hd : 4 ≤ j → j < (s.outRec x).slots + 4 → (s.out x).tail = none → s.entryAt x (j - 4) = none) :
    let t := (((s.modOut x OutLane.next).position x j).fetchOn x).arrivals
    OtherOuts x s t ∧ t.out x = { (s.outRec x).sendPosition j (s.out x).next with
        plan := (t.out x).plan, asked := (t.out x).asked } ∧
      FetchGoesOn x s t ∧ OnlyRequestsOf (.outLane x) s t ∧ ChangesOnly [.outs, .requests, .port] s t := by
  have next := s.modOut_next_out x
  have placed : (s.modOut x OutLane.next).position x j =
      (s.modOut x OutLane.next).modOut x ((s.outRec x).sendPosition j) :=
    State.position_startless fun h4 hi ht => by
      rw [next] at ht
      exact (s.modOut_next_entryAt x _).trans (hd h4 hi ht)
  have others := s.next_position_others x j
  have f : ChangesOnly [.outs] s ((s.modOut x OutLane.next).position x j) := by
    rw [placed]
    exact (modOut_frame s x _).andThen (modOut_frame _ x _) (by decide) (by decide)
  have out : ((s.modOut x OutLane.next).position x j).out x = (s.outRec x).sendPosition j (s.out x).next := by
    rw [placed, State.out_modOut, if_pos rfl, next]
  obtain ⟨st, asked, plan, -⟩ := (s.outRec x).sendPosition_keeps j (s.out x).next
  rw [← out] at st asked plan
  obtain ⟨tothers, tout, goes, asks, ft⟩ := State.slotGoesOn hn f (by decide) others (st.trans hs) asked plan
  rw [out] at tout
  exact ⟨tothers, tout, goes, asks, ft.mono (by decide)⟩

end

/-- Settles O40: no entry starts in the position, so the lane's record alone decides on it. -/
theorem slotsWithoutAnEntryStart : Obligations.SlotsWithoutAnEntryStart := by
  unfold Obligations.SlotsWithoutAnEntryStart
  refine ⟨LaneRec.slotTime_mul, fun s x j hx hn hs hb h1 hj htime hd => ?_⟩
  have e := exec_slotBegin hx hs hb hj htime
  obtain ⟨others, out, goes, asks, f⟩ := State.startlessSlot hn hs j hd
  generalize (((s.modOut x OutLane.next).position x j).fetchOn x).arrivals = t at *
  subst hb
  have begun : ((s.outRec x).sendPosition (s.out x).begun (s.out x).next).begun = (s.out x).begun + 1 := by
    obtain ⟨-, -, -, kept⟩ := (s.outRec x).sendPosition_keeps (s.out x).begun (s.out x).next
    exact kept
  refine ⟨t, e, others, goes, fun h hh => ?_, fun h h4 hi ht => ?_, fun h4 hi ht hc => ?_,
    fun h4 hi ht hc => ?_, fun ht => ?_, fun k hk => (s.out x).h3_stale hk, ?_, ?_, ?_,
    fun k h3 hk => (s.out x).h3_reserved h3 hk, ?_, asks, f⟩
  · have half : (s.out x).headerHalf (s.out x).begun = h ∧ (s.out x).begun < 4 := by
      rcases hh with ⟨hj, rfl⟩ | ⟨hj, rfl⟩ | ⟨hj, rfl⟩ <;> rw [hj] <;> exact ⟨rfl, by decide⟩
    obtain ⟨rfl, header⟩ := half
    rw [LaneRec.sendPosition_header header] at out
    exact out
  · rw [LaneRec.sendPosition_tail (l := (s.out x).next) h4 hi ht] at out
    exact out
  · rw [LaneRec.sendPosition_full (l := (s.out x).next) h4 hi ht hc] at out
    exact out
  · rw [LaneRec.sendPosition_gapped (l := (s.out x).next) h4 hi ht hc] at out
    exact out
  · rw [LaneRec.sendPosition_trailer (by omega) ht.ge] at out
    exact out
  · exact ((s.out x).h3_low (by decide)).trans (by simp)
  · exact ((s.out x).h3_low (by decide)).trans (by simp)
  · exact ((s.out x).h3_low (by decide)).trans (by simp)
  · rw [Bool.eq_false_iff]
    intro active
    obtain ⟨-, -, first⟩ := (t.fpActive_iff x).1 active
    rw [out] at first
    dsimp only at first
    rw [begun] at first
    omega

end Sys2Proof.Machine

/-! The slot position in which an entry starts (R78, R113, R115, R120, R124, R132, R142): O41. -/

namespace Sys2Proof.Machine

section
variable {s u : State} {x : Fin 6} {d e : Nat} {p q : PlanWord} {qs : List PlanWord}

/-! ### The entry's value (R115, R132) -/

theorem State.entrySt_setEntrySt (he : e < 256) (w : EntryState) : (s.setEntrySt e w).entrySt e = w := by
  unfold State.setEntrySt State.entrySt
  simp [he]

theorem State.entrySt_setEntrySt_ne {f : Nat} (hf : f ≠ e) (w : EntryState) :
    (s.setEntrySt e w).entrySt f = s.entrySt f := by
  unfold State.setEntrySt
  split
  · unfold State.entrySt
    split
    · exact Vector.getElem_set_ne (hi := by assumption) _ hf.symm
    · rfl
  · rfl

theorem State.dataSlot_of_fetched {words : List (Nat × Word)} (ht : (s.out x).tail = none)
    (he : s.entryAt x d = some e)
    (hw : words = (s.out x).fetch.take ((s.entry e).kind.words ((s.out x).drawOf (s.entry e).window)))
    (whole : words.length = (s.entry e).kind.words ((s.out x).drawOf (s.entry e).window) ∧ ∀ p ∈ words, p.1 = e) :
    s.dataSlot x d = s.sendEntry x e (words.map fun p => p.2) := by
  obtain ⟨hl, all⟩ := whole
  unfold State.dataSlot
  simp only [ht, he]
  rw [← hw]
  exact if_pos ⟨hl, by simpa using all⟩

theorem State.dataSlot_of_missing {words : List (Nat × Word)} (ht : (s.out x).tail = none)
    (he : s.entryAt x d = some e)
    (hw : words = (s.out x).fetch.take ((s.entry e).kind.words ((s.out x).drawOf (s.entry e).window)))
    (missing : ¬ (words.length = (s.entry e).kind.words ((s.out x).drawOf (s.entry e).window) ∧
      ∀ p ∈ words, p.1 = e)) : s.dataSlot x d = s.underrun x e := by
  unfold State.dataSlot
  simp only [ht, he]
  rw [← hw]
  refine if_neg fun c => missing ?_
  obtain ⟨hl, all⟩ := c
  exact ⟨hl, by simpa using all⟩

/-- The value's first half is on the line, and its second half waits (R115). -/
theorem OutLane.sendValue_eq {l : OutLane} (ht : l.tail = none) (slots : Nat) (v : Word) : l.sendValue slots v =
    { l with
      line := some (if slots = 2 then hiHalf v else loHalf v)
      tail := if slots = 2 then some (loHalf v) else none
      crc := crcHalf l.crc (if slots = 2 then hiHalf v else loHalf v) } := by
  unfold OutLane.sendValue
  split
  · rfl
  · rw [← ht]
    rfl

/-- The entry's words are used up, and a saturation is counted (R142). -/
def OutLane.consume (n : Nat) (sat : Bool) (l : OutLane) : OutLane :=
  { l with
    fetch := l.fetch.drop n
    saturations := if sat = true then sat8 l.saturations else l.saturations }

theorem State.sendEntry_eq {words : List Word} {v : Formed}
    (hv : v = (s.entry e).form ((s.out x).drawOf (s.entry e).window) words (s.entrySt e)
      (s.win (s.entry e).window).decayShift) :
    s.sendEntry x e words = (s.setEntrySt e v.state).modOut x fun l =>
      OutLane.sendValue (s.entry e).kind.slots v.value (l.consume words.length v.sat) := by
  subst hv
  rfl

/-! ### The underrun (R120) -/

/-- The word asked for is one of the entry. -/
def OutLane.asksFor (e : Nat) (l : OutLane) : Bool := l.asked.any fun p => p.entry == e

theorem OutLane.asksFor_some {l : OutLane} (ha : l.asked = some p) : l.asksFor e = (p.entry == e) :=
  congrArg (Option.any fun q : PlanWord => q.entry == e) ha

/-- The lane's work at the arbiter ends if it is for the entry. -/
def State.fetchEnded (s : State) (x : Fin 6) (e : Nat) : State :=
  if (s.out x).asksFor e = true then s.withdraw (.outLane x) else s

theorem State.fetchEnded_cases (s : State) (x : Fin 6) (e : Nat) :
    (s.out x).asksFor e = true ∧ s.fetchEnded x e = s.withdraw (.outLane x) ∨
      (s.out x).asksFor e = false ∧ s.fetchEnded x e = s := by
  by_cases mine : (s.out x).asksFor e = true
  · exact .inl ⟨mine, if_pos mine⟩
  · exact .inr ⟨Bool.eq_false_iff.2 mine, if_neg mine⟩

/-- The lane's record at an underrun (R120), read before it. -/
def OutLane.underrun (e : Nat) (filler : Half) (slots : Nat) (l : OutLane) : OutLane :=
  { OutLane.send filler l with
    tail := if slots = 2 then some filler else none
    asked := if l.asksFor e = true then none else l.asked
    plan := l.plan.filter fun p => p.entry != e
    fetch := l.fetch.filter fun p => p.1 != e
    underruns := sat8 l.underruns
    underMark := true }

/-- The state before the report of an underrun. -/
def State.unfetched (s : State) (x : Fin 6) (e : Nat) : State :=
  (s.fetchEnded x e).modOut x (OutLane.underrun e (s.outRec x).filler (s.entry e).kind.slots)

theorem State.fetchEnded_out (s : State) (x : Fin 6) (e : Nat) (z : Fin 6) : (s.fetchEnded x e).out z = s.out z := by
  rcases s.fetchEnded_cases x e with ⟨-, h⟩ | ⟨-, h⟩ <;> rw [h]
  rfl

/-- An underrun is reported at the frame's first (R120). -/
theorem State.underrun_eq (s : State) (x : Fin 6) (e : Nat) : s.underrun x e =
    if (s.out x).underMark = true then s.unfetched x e
    else (s.unfetched x e).raise .underrun (some x.val) ((s.out x).frameNo.setWidth 32) (num (s.entry e).slot) := by
  have same : (s.unfetched x e) = (s.fetchEnded x e).modOut x fun l =>
      { OutLane.send (s.outRec x).filler l with
        tail := if (s.entry e).kind.slots = 2 then some (s.outRec x).filler else none
        asked := if (s.out x).asksFor e = true then none else l.asked
        plan := l.plan.filter fun p => p.entry != e
        fetch := l.fetch.filter fun p => p.1 != e
        underruns := sat8 l.underruns
        underMark := true } := by
    refine State.modOut_congr ?_
    rw [State.fetchEnded_out]
    rfl
  rw [same]
  rfl

theorem fetchEnded_frame (s : State) (x : Fin 6) (e : Nat) :
    ChangesOnly [.requests, .port] s (s.fetchEnded x e) := by
  rcases s.fetchEnded_cases x e with ⟨-, own⟩ | ⟨-, own⟩ <;> rw [own]
  · exact withdraw_frame s _
  · exact .refl _ _

theorem unfetched_frame (s : State) (x : Fin 6) (e : Nat) :
    ChangesOnly [.outs, .requests, .port] s (s.unfetched x e) :=
  (fetchEnded_frame s x e).andThen (modOut_frame _ x _) (by decide) (by decide)

/-! ### The arbiter at an underrun (R75, R120) -/

/-- An access of the lane is withdrawn if it is for the entry; every other access goes on. -/
theorem State.fetchEnded_port {a : Access} (h : s.port = some a) (own : a.req.who = .outLane x) :
    (s.fetchEnded x e).port =
      some { req := a.req, withdrawn := a.withdrawn || (s.out x).asksFor e } := by
  rcases s.fetchEnded_cases x e with ⟨mine, ended⟩ | ⟨other, ended⟩ <;> rw [ended]
  · rw [State.withdraw_port_own h own, mine, Bool.or_true]
  · rw [h, other, Bool.or_false]

theorem State.fetchEnded_inProgress (s : State) (x : Fin 6) (e : Nat) (q : Requester) :
    (s.fetchEnded x e).inProgress q = s.inProgress q := by
  rcases s.fetchEnded_cases x e with ⟨-, own⟩ | ⟨-, own⟩ <;> rw [own]
  exact s.withdraw_inProgress _ q

theorem State.fetchEnded_free (h : (s.fetchEnded x e).port = none) : s.port = none := by
  rcases s.fetchEnded_cases x e with ⟨-, own⟩ | ⟨-, own⟩ <;> rw [own] at h
  · exact State.withdraw_free h
  · exact h

theorem State.fetchEnded_listed (h : (s.out x).asksFor e = true ∨ s.listed (.outLane x) = false) :
    (s.fetchEnded x e).listed (.outLane x) = false := by
  rcases s.fetchEnded_cases x e with ⟨-, own⟩ | ⟨other, own⟩ <;> rw [own]
  · rw [State.listed_eq_false]
    intro hm
    obtain ⟨r, hr, hw⟩ := List.mem_map.1 hm
    have kept := (List.mem_filter.1 hr).2
    simp [hw] at kept
  · exact h.resolve_left (Bool.eq_false_iff.1 other)

theorem State.fetchEnded_onlyRequestsOf (s : State) (x : Fin 6) (e : Nat) :
    OnlyRequestsOf (.outLane x) s (s.fetchEnded x e) := by
  rcases s.fetchEnded_cases x e with ⟨-, own⟩ | ⟨-, own⟩ <;> rw [own]
  · exact s.withdraw_onlyRequestsOf _
  · exact .refl _ _

/-- What an underrun does at the arbiter: what the end of the fetch does, and a request of JW's. -/
theorem State.underrun_arbiter (s : State) (x : Fin 6) (e : Nat) :
    (s.underrun x e).port = (s.fetchEnded x e).port ∧
      (s.underrun x e).listed (.outLane x) = (s.fetchEnded x e).listed (.outLane x) ∧
      OnlyRequestsOf (.outLane x) s (s.underrun x e) := by
  have asks : OnlyRequestsOf (.outLane x) s (s.unfetched x e) :=
    (s.fetchEnded_onlyRequestsOf x e).trans (.of_eq rfl rfl)
  rw [State.underrun_eq]
  split
  · exact ⟨rfl, rfl, asks⟩
  · exact ⟨raise_frame _ _ _ _ _ .port (by decide), State.raise_listed _ _ _ _ _ _,
      asks.trans (State.raise_onlyRequestsOf _ _ _ _ _ _)⟩

/-- The first underrun of a frame is reported, and no other (R120, R179). -/
theorem State.underrun_reported (hf : u.flags = s.flags) (hj : u.journal = s.journal) (hh : u.header = s.header)
    (ht : u.timeBase = s.timeBase) :
    ((u.out x).underMark = true → (u.underrun x e).flags = s.flags ∧ (u.underrun x e).journal = s.journal) ∧
      ((u.out x).underMark = false → Reported s (u.underrun x e) .underrun (some x.val)
        ((u.out x).frameNo.setWidth 32) (num (u.entry e).slot)) := by
  have f := unfetched_frame u x e
  have flags := (f .flags (by decide)).trans hf
  have journal := (f .journal (by decide)).trans hj
  rw [State.underrun_eq]
  refine ⟨fun marked => ?_, fun first => ?_⟩
  · rw [if_pos marked]
    exact ⟨flags, journal⟩
  · rw [if_neg (by simp [first])]
    exact State.raise_reported flags journal ((f .header (by decide)).trans hh) ((f .timeBase (by decide)).trans ht)
      (by decide) _ _ _

/-! ### The lane's fetching after an underrun (R113, R120) -/

/-- Asking for the next word takes words off the plan. -/
theorem State.tryFetch_plan_sub (s : State) (x : Fin 6) :
    ∀ p ∈ ((s.tryFetch x).out x).plan, p ∈ (s.out x).plan := by
  rcases s.tryFetch_cases x with ⟨_, e⟩ | ⟨q, qs, hp, hm, _⟩
  · rw [e]
    exact fun _ h => h
  · rw [State.tryFetch_asks_out hm hp, hp]
    exact fun _ h => List.mem_cons_of_mem _ h

theorem State.fetchOn_plan_sub (s : State) (x : Fin 6) :
    ∀ p ∈ ((s.fetchOn x).out x).plan, p ∈ (s.out x).plan := by
  have sub := (s.markUrgent x).tryFetch_plan_sub x
  rw [State.out_congr (markUrgent_frame s x .outs (by decide))] at sub
  exact sub

/-- The lane has a request to make, and the port goes on: its one request on the list is the new one. -/
theorem State.asksAfter (hl : u.listed (.outLane x) = false) (hi : u.inProgress (.outLane x) = false)
    (st : (u.out x).st = .sending) (ha : (u.out x).asked = none) (room : (u.out x).fetch.length < 8)
    (hp : (u.out x).plan = q :: qs) :
    let t := (u.fetchOn x).arrivals
    let r := fetchOf x q (decide ((u.entry q.entry).slot + 3 < (u.out x).begun))
    (t.out x).asked = some q ∧ (t.out x).plan = qs ∧ Follows t r ∧
      ∀ p ∈ t.requests, p.who = .outLane x → p = r := by
  have may := (State.mayFetch_iff hl hi st ha).2 room
  have outs := State.out_congr (arrivals_frame (u.fetchOn x) .outs (by decide)) x
  rw [State.fetchOn_of_asked_none ha] at *
  have own := State.tryFetch_asks_out may hp
  refine ⟨by rw [outs, own], by rw [outs, own], State.follows_arrivals ?_, fun p hm hw => ?_⟩
  · rw [State.tryFetch_asks may hp]
    exact List.mem_append_right _ (List.mem_singleton_self _)
  · have listed := State.arrivals_requests_sub _ p hm
    rw [State.tryFetch_asks may hp] at listed
    rcases List.mem_append.1 listed with old | new
    · exact absurd (hw ▸ List.mem_map_of_mem old) ((State.listed_eq_false _ _).1 hl)
    · exact List.mem_singleton.1 new

/-- The lane waits: no request of its is on the list. -/
theorem State.restsAfter (hl : u.listed (.outLane x) = false) (ha : (u.out x).asked = none)
    (h : u.inProgress (.outLane x) = true ∨ 8 ≤ (u.out x).fetch.length ∨ (u.out x).plan = []) :
    let t := (u.fetchOn x).arrivals
    (t.out x).asked = none ∧ (t.out x).plan = (u.out x).plan ∧ ∀ p ∈ t.requests, p.who ≠ .outLane x := by
  have same : u.tryFetch x = u := by
    refine State.tryFetch_rests (or_iff_not_imp_left.2 fun more c => ?_)
    obtain ⟨-, -, -, hi, room⟩ := c
    rcases h with busy | full | done
    · rw [busy] at hi
      cases hi
    · exact absurd room (Nat.not_lt.2 full)
    · exact more done
  have outs := State.out_congr (arrivals_frame u .outs (by decide)) x
  dsimp only
  rw [State.fetchOn_of_asked_none ha, same, outs]
  refine ⟨ha, rfl, fun p hm hw => ?_⟩
  exact (State.listed_eq_false _ _).1 hl (hw ▸ List.mem_map_of_mem (u.arrivals_requests_sub p hm))

/-- From a state `u` in which the entry's fetch has ended, what follows at the slot's beginning (R113, R120). -/
theorem State.fetchAfterUnderrun (st : (u.out x).st = .sending)
    (hasked : (u.out x).asked = if (s.out x).asksFor e = true then none else (s.out x).asked)
    (hplan : (u.out x).plan = (s.out x).plan.filter fun p => p.entry != e) (entries : u.entries = s.entries)
    (port : u.port = (s.fetchEnded x e).port)
    (listed : u.listed (.outLane x) = (s.fetchEnded x e).listed (.outLane x)) :
    FetchAfterUnderrun x e s (u.fetchOn x).arrivals := by
  have outs := State.out_congr (arrivals_frame (u.fetchOn x) .outs (by decide)) x
  have own := u.fetchOn_out x
  have fetch : ((u.fetchOn x).arrivals.out x).fetch = (u.out x).fetch := by rw [outs, own]
  have begun : ((u.fetchOn x).arrivals.out x).begun = (u.out x).begun := by rw [outs, own]
  have idle := (State.inProgress_congr port (.outLane x)).trans (s.fetchEnded_inProgress x e _)
  unfold FetchAfterUnderrun
  dsimp only
  rw [fetch, begun, ← hplan, ← idle]
  refine ⟨fun a ha hw => ?_, fun p ha hp => ?_, fun mine unlisted => ?_⟩
  · exact State.arrivals_port_some ((fetchOn_frame u x .port (by decide)).trans
      (port.trans (State.fetchEnded_port ha hw)))
  · rw [OutLane.asksFor_some ha, if_neg (by simp [hp]), ha] at hasked
    have marked := State.out_congr (markUrgent_frame u x .outs (by decide)) x
    rw [outs, State.fetchOn_of_asked_some hasked, marked]
    exact ⟨hasked, rfl⟩
  · have ended : (s.out x).asksFor e = true ∨ s.listed (.outLane x) = false ∧ (s.out x).asked = none := by
      cases ha : (s.out x).asked with
      | none => exact .inr ⟨(State.listed_eq_false _ _).2 (unlisted ha), rfl⟩
      | some p => exact .inl (by rw [OutLane.asksFor_some ha, mine p ha, beq_self_eq_true])
    have asked : (u.out x).asked = none := by
      rw [hasked]
      rcases ended with h | ⟨-, h⟩
      · exact if_pos h
      · rw [h, ite_self]
    have none := listed.trans (State.fetchEnded_listed (ended.imp_right And.left))
    refine ⟨State.restsAfter none asked, fun hi room q qs hq => ?_⟩
    rw [← State.entry_congr entries]
    exact State.asksAfter none hi st asked room hq

theorem sat8_eq (c : BitVec 8) : sat8 c = if c = 255 then 255 else c + 1 := by
  unfold sat8
  split
  · next full => exact full
  · rfl

/-! ### The two outcomes of the position (R115, R120) -/

theorem State.entrySt_congr (h : u.entryState = s.entryState) (f : Nat) : u.entrySt f = s.entrySt f := by
  unfold State.entrySt
  rw [h]

theorem State.position_data (hd : d < (s.outRec x).slots) : s.position x (d + 4) = s.dataSlot x d := by
  unfold State.position
  rw [if_neg (by omega), if_pos (by omega), Nat.add_sub_cancel]

section
variable {words : List (Nat × Word)} {w : Formed}

/-- The entry's words are there: its value is formed and sent, its state updated, and fetching goes on. -/
theorem State.valueSlot (hn : NoGrantDue s) (hs : (s.out x).st = .sending) (hd : d < (s.outRec x).slots)
    (ht : (s.out x).tail = none) (he : s.entryAt x d = some e) (hb : e < 256)
    (hw : words = (s.out x).fetch.take ((s.entry e).kind.words ((s.out x).drawOf (s.entry e).window)))
    (hv : w = (s.entry e).form ((s.out x).drawOf (s.entry e).window) (words.map fun p => p.2) (s.entrySt e)
      (s.win (s.entry e).window).decayShift)
    (whole : words.length = (s.entry e).kind.words ((s.out x).drawOf (s.entry e).window) ∧ ∀ p ∈ words, p.1 = e) :
    let t := (((s.modOut x OutLane.next).position x (d + 4)).fetchOn x).arrivals
    OtherOuts x s t ∧ t.entrySt e = w.state ∧ (∀ f, f ≠ e → t.entrySt f = s.entrySt f) ∧
      t.out x = { OutLane.sendValue (s.entry e).kind.slots w.value ((s.out x).next.consume words.length w.sat) with
        plan := (t.out x).plan, asked := (t.out x).asked } ∧
      FetchGoesOn x s t ∧ OnlyRequestsOf (.outLane x) s t ∧
      ChangesOnly [.outs, .entryState, .requests, .port] s t := by
  have next := s.modOut_next_out x
  have placed : (s.modOut x OutLane.next).position x (d + 4) =
      (s.modOut x OutLane.next).sendEntry x e (words.map fun p => p.2) := by
    rw [State.position_data (s := s.modOut x OutLane.next) hd]
    exact State.dataSlot_of_fetched (words := words) (by rw [next]; exact ht)
      ((s.modOut_next_entryAt x d).trans he) (by rw [next]; exact hw) (by rw [next]; exact whole)
  have others := s.next_position_others x (d + 4)
  rw [placed] at others ⊢
  have f : ChangesOnly [.outs, .entryState] s
      ((s.modOut x OutLane.next).sendEntry x e (words.map fun p => p.2)) :=
    (modOut_frame s x _).andThen (sendEntry_frame _ x e _) (by decide) (by decide)
  have formed : (s.modOut x OutLane.next).sendEntry x e (words.map fun p => p.2) = _ :=
    State.sendEntry_eq (v := w) (by rw [next]; exact hv)
  have out : ((s.modOut x OutLane.next).sendEntry x e (words.map fun p => p.2)).out x =
      OutLane.sendValue (s.entry e).kind.slots w.value ((s.out x).next.consume words.length w.sat) := by
    rw [formed, State.out_modOut, if_pos rfl, State.setEntrySt_out, next, List.length_map]
    rfl
  have entryState : ((s.modOut x OutLane.next).sendEntry x e (words.map fun p => p.2)).entryState =
      ((s.modOut x OutLane.next).setEntrySt e w.state).entryState := by
    rw [formed]
    rfl
  have sending := OutLane.sendValue_eq (l := (s.out x).next.consume words.length w.sat) ht
    (s.entry e).kind.slots w.value
  clear formed
  generalize (s.modOut x OutLane.next).sendEntry x e (words.map fun p => p.2) = u at *
  have kept := State.entrySt_congr ((arrivals_frame (u.fetchOn x) .entryState (by decide)).trans
    ((fetchOn_frame u x .entryState (by decide)).trans entryState))
  obtain ⟨tothers, tout, goes, asks, ft⟩ := State.slotGoesOn hn f (by decide) others
    (by rw [out, sending]; exact hs) (by rw [out, sending]; rfl) (by rw [out, sending]; rfl)
  rw [out] at tout
  exact ⟨tothers, (kept e).trans (State.entrySt_setEntrySt hb _),
    fun k hk => (kept k).trans (State.entrySt_setEntrySt_ne hk _), tout, goes, asks, ft.mono (by decide)⟩

/-- The entry's words are not there: it underruns. -/
theorem State.underrunSlot (hn : NoGrantDue s) (hs : (s.out x).st = .sending) (hd : d < (s.outRec x).slots)
    (ht : (s.out x).tail = none) (he : s.entryAt x d = some e)
    (hw : words = (s.out x).fetch.take ((s.entry e).kind.words ((s.out x).drawOf (s.entry e).window)))
    (missing : ¬ (words.length = (s.entry e).kind.words ((s.out x).drawOf (s.entry e).window) ∧
      ∀ p ∈ words, p.1 = e)) :
    let t := (((s.modOut x OutLane.next).position x (d + 4)).fetchOn x).arrivals
    OtherOuts x s t ∧
      t.out x = { OutLane.underrun e (s.outRec x).filler (s.entry e).kind.slots (s.out x).next with
        plan := (t.out x).plan, asked := (t.out x).asked } ∧
      (∀ p ∈ (t.out x).plan, p.entry ≠ e) ∧ FetchAfterUnderrun x e s t ∧
      ((s.out x).underMark = true → t.flags = s.flags ∧ t.journal = s.journal) ∧
      ((s.out x).underMark = false → Reported s t .underrun (some x.val)
        ((s.out x).frameNo.setWidth 32) (num (s.entry e).slot)) ∧
      OnlyRequestsOf (.outLane x) s t ∧ ChangesOnly [.outs, .flags, .journal, .requests, .port] s t := by
  have next := s.modOut_next_out x
  have fn := modOut_frame s x OutLane.next
  have placed : (s.modOut x OutLane.next).position x (d + 4) = (s.modOut x OutLane.next).underrun x e := by
    rw [State.position_data (s := s.modOut x OutLane.next) hd]
    exact State.dataSlot_of_missing (words := words) (by rw [next]; exact ht)
      ((s.modOut_next_entryAt x d).trans he) (by rw [next]; exact hw) (by rw [next]; exact missing)
  have others := s.next_position_others x (d + 4)
  rw [placed] at others ⊢
  have out : ((s.modOut x OutLane.next).underrun x e).out x =
      OutLane.underrun e (s.outRec x).filler (s.entry e).kind.slots (s.out x).next := by
    rw [State.underrun_out, next]
    rfl
  obtain ⟨port, listed, asks⟩ := (s.modOut x OutLane.next).underrun_arbiter x e
  obtain ⟨later, first⟩ := State.underrun_reported (u := s.modOut x OutLane.next) (s := s) (x := x) (e := e)
    rfl rfl rfl rfl
  have f : ChangesOnly [.outs, .flags, .journal, .requests, .port] s ((s.modOut x OutLane.next).underrun x e) :=
    (modOut_frame s x _).andThen (underrun_frame _ x e) (by decide) (by decide)
  rw [next] at later first
  generalize (s.modOut x OutLane.next).underrun x e = u at *
  have fetch : FetchAfterUnderrun x e (s.modOut x OutLane.next) (u.fetchOn x).arrivals :=
    State.fetchAfterUnderrun (by rw [out]; exact hs) (by rw [out, next]; rfl) (by rw [out, next]; rfl)
      (f .entries (by decide)) port listed
  have fu := fetchOn_frame u x
  have fa := arrivals_frame (u.fetchOn x)
  have outs := State.out_congr (fa .outs (by decide))
  have flags := (fa .flags (by decide)).trans (fu .flags (by decide))
  have journal := (fa .journal (by decide)).trans (fu .journal (by decide))
  have free : (u.fetchOn x).port = none → s.port = none := fun h =>
    State.fetchEnded_free (s := s.modOut x OutLane.next) (port.symm.trans ((fu .port (by decide)).symm.trans h))
  have uasks : OnlyRequestsOf (.outLane x) s (u.fetchOn x) :=
    ((OnlyRequestsOf.of_eq rfl rfl).trans asks).trans (u.fetchOn_onlyRequestsOf x)
  have ft := State.arrivals_frame_of hn (fun _ e => by cases e) uasks free
    (f.andThen fu (m := [.outs, .flags, .journal, .requests, .port]) (by decide) (by decide)) (by decide)
  refine ⟨fun z hz => ?_, ?_, fun p hp => ?_, ?_, fun marked => ?_, fun unmarked => ?_,
    uasks.arrivals hn free, ft.mono (by decide)⟩
  · rw [outs, u.fetchOn_others x z hz, others z hz]
  · rw [outs, ← out]
    exact u.fetchOn_out x
  · rw [outs] at hp
    have left := u.fetchOn_plan_sub x p hp
    rw [out] at left
    simpa using (List.mem_filter.1 left).2
  · unfold FetchAfterUnderrun at fetch
    rw [next] at fetch
    exact fetch
  · obtain ⟨hf, hj⟩ := later marked
    exact ⟨flags.trans hf, journal.trans hj⟩
  · exact (first unmarked).of_eq flags journal

end

end

/-- Settles O41: the entry's words are in the fetch buffer, or it underruns. -/
theorem entrySendsItsValueOrUnderruns : Obligations.EntrySendsItsValueOrUnderruns := by
  unfold Obligations.EntrySendsItsValueOrUnderruns
  refine ⟨sat8_eq, fun s x d e words v hx hn hs hb hd htime ht he h256 hw hv => ?_⟩
  have event := exec_slotBegin hx hs hb (by omega) htime
  have begun : d + 5 = (s.out x).begun + 1 := by rw [hb]
  refine ⟨fun hl all => ?_, fun missing => ?_⟩
  · obtain ⟨others, own, rest, out, goes, asks, f⟩ := State.valueSlot hn hs hd ht he h256 hw hv ⟨hl, all⟩
    refine ⟨_, event, others, own, rest, ?_, goes, asks, f⟩
    rw [OutLane.sendValue_eq (l := (s.out x).next.consume words.length v.sat) ht] at out
    rw [begun]
    exact out
  · obtain ⟨others, out, plan, fetch, later, first, asks, f⟩ := State.underrunSlot hn hs hd ht he hw missing
    refine ⟨_, event, others, ?_, plan, fetch, later, first, asks, f⟩
    rw [begun]
    exact out

end Sys2Proof.Machine
